-- ==== Sys2Proof/Word.lean ====
section
/-! DEFINITION. The word types of the part's records (Record Layouts 12.1), the direction of a request,
and the fixed-length table that holds the numbered objects of a block (ports, windows, cameras, …). -/

namespace Sys2Proof

/-- One byte. -/
abbrev Byte := BitVec 8
/-- A two-byte field: counters, gains, intervals, clip numbers, label codes, times in ms. -/
abbrev Half := BitVec 16
/-- A four-byte field: picture, sequence and block numbers, byte counts, tokens, correlation tags. -/
abbrev Word := BitVec 32
/-- An eight-byte field: byte addresses, window sizes, the tail word and the head word. -/
abbrev Wide := BitVec 64

/-- The direction of a client or engine stream request (chapter 1.1). -/
inductive ReqKind where
  | read
  | write
  deriving DecidableEq, Repr

/-- A fixed number of like objects, numbered from 0. -/
abbrev Table (α : Type) (n : Nat) := Vector α n

namespace Table

variable {α β : Type} {n : Nat}

/-- The object numbered `i`. -/
def nth (t : Table α n) (i : Fin n) : α := t[i.val]

/-- The table with object `i` replaced. -/
def put (t : Table α n) (i : Fin n) (x : α) : Table α n := t.set i.val x i.isLt

/-- The table with object `i` changed by `f`. -/
def upd (t : Table α n) (i : Fin n) (f : α → α) : Table α n := t.put i (f (t.nth i))

/-- Every object changed by `f`. -/
def each (t : Table α n) (f : α → β) : Table β n := ⟨⟨t.toArray.toList.map f⟩, by simp⟩

/-- The table whose object `i` is `f i`. -/
def make (f : Fin n → α) : Table α n := ⟨⟨(List.finRange n).map f⟩, by simp⟩

/-- Every object the same. -/
def all (x : α) : Table α n := ⟨⟨List.replicate n x⟩, by simp⟩

/-- The objects in ascending number. -/
def list (t : Table α n) : List α := t.toArray.toList

@[simp] theorem nth_put_same (t : Table α n) (i : Fin n) (x : α) : (t.put i x).nth i = x := by
  simp [nth, put]

theorem nth_put_other (t : Table α n) {i j : Fin n} (x : α) (h : i ≠ j) :
    (t.put i x).nth j = t.nth j := by
  have h' : i.val ≠ j.val := fun e => h (Fin.ext e)
  simp [nth, put, h']

theorem nth_put (t : Table α n) (i j : Fin n) (x : α) :
    (t.put i x).nth j = if i = j then x else t.nth j := by
  split
  · subst_vars; exact nth_put_same t _ x
  · exact nth_put_other t x ‹_›

@[simp] theorem nth_upd_same (t : Table α n) (i : Fin n) (f : α → α) :
    (t.upd i f).nth i = f (t.nth i) := nth_put_same t i _

theorem nth_upd_other (t : Table α n) {i j : Fin n} (f : α → α) (h : i ≠ j) :
    (t.upd i f).nth j = t.nth j := nth_put_other t _ h

@[simp] theorem nth_all (x : α) (i : Fin n) : (all x : Table α n).nth i = x := by
  simp [nth, all]

@[simp] theorem nth_make (f : Fin n → α) (i : Fin n) : (make f).nth i = f i := by
  simp [nth, make]

@[simp] theorem nth_each (t : Table α n) (f : α → β) (i : Fin n) : (t.each f).nth i = f (t.nth i) := by
  simp [nth, each]

end Table

end Sys2Proof
end

