-- ==== Sys2Proof/Config.lean ====
section
/-! DEFINITION. What the part fixes once and for all: its time unit, the size of its address space, the
capacities of its stores, and its fixed times. Every number is the spec's; each docstring names the rule. -/

namespace Sys2Proof.Config

/-- One microsecond in the model's time unit, a third of a nanosecond. The unit is the largest in which
every period of the manual is a whole number (assumption 2). -/
def us : Nat := 3000
/-- One millisecond. -/
def ms : Nat := 3000000
/-- One cycle of the 250 MHz lane reference, 4 ns (09, 9.1: bit rate is 250 MHz over the divider). -/
def laneCycle : Nat := 12
/-- The nominal word clock period, 1/48,000 s (2.2). -/
def wordClockPeriod : Nat := 62500
/-- The nominal block period, 48 word clock periods, 1 ms (2.2). -/
def blockPeriod : Nat := 48 * wordClockPeriod
/-- The word clock loss timer, 2 ms (R33). -/
def wordClockLossTime : Nat := 2 * ms
/-- The relock count of the word clock that regains it (R33). -/
def wordClockRelock : Nat := 144
/-- The relock count of the frame reference that regains it (R29). -/
def frameRelock : Nat := 3
/-- The refresh intervals, 7.8 µs and 3.9 µs (R19). -/
def refreshSlow : Nat := 23400
def refreshFast : Nat := 11700
/-- The settle time of a lane's carrier, 100 ms (R159). -/
def settleTime : Nat := 100 * ms
/-- A break sent lasts 256 bit periods (R157, R164). -/
def breakBits : Nat := 256
/-- The fault line changes level every 125 ms when it toggles at 4 Hz (R189). -/
def faultHalfPeriod : Nat := 125 * ms

/-- The bytes of the DRAM channel, 8 GiB (00, 5.1). -/
def dramBytes : Nat := 8589934592
/-- Windows are placed and sized in multiples of 64 KiB (1.4). -/
def windowUnit : Nat := 65536
/-- Bytes of a line (00, 5.1). -/
def lineBytes : Nat := 64
/-- The largest value of a counter of events, and of a wait count (00, 5.2; R17). -/
def counterMax : Nat := 65535
/-- Admitted requests a port queue holds (R1). -/
def portQueueMax : Nat := 16
/-- Jobs the band queue holds (R61). -/
def bandQueueMax : Nat := 64
/-- Records a picture index holds (R82). -/
def indexMax : Nat := 4096
/-- Bytes of a block: 48 samples of four bytes (6.1). -/
def blockBytes : Nat := 192
/-- Entries a contribution list holds (6.3). -/
def contributionMax : Nat := 32
/-- Buses whose send flag may be on at one time (6.3). -/
def sendBusMax : Nat := 4
/-- The default length limit of a clip (R117). -/
def defaultLengthLimit : Nat := 3000
/-- Labels a clip holds (7.1). -/
def labelMax : Nat := 8
/-- Bytes of a fragment (chapter 8), and of the frame overhead (8.3). -/
def fragmentBytes : Nat := 1024
def frameOverhead : Nat := 32
/-- Bytes of an ECHO frame (R147). -/
def echoBytes : Nat := 64
/-- Descriptors the resend store holds (R142). -/
def storeMax : Nat := 512
/-- Frames counted against one lane (R140). -/
def laneFrameMax : Nat := 8
/-- Items a cursor keeps unended (8.2). -/
def cursorItemMax : Nat := 4
/-- Deferred commands outstanding (R174). -/
def deferredMax : Nat := 8
/-- The 32-bit check's polynomial (R193). -/
def crcPolynomial : Word := 0xEDB88320#32
/-- The unity gain's place: gains are shifted right by 14 (R108). -/
def gainShift : Nat := 14
/-- The largest and smallest sample value (R96). -/
def sampleMax : Int := 8388607
def sampleMin : Int := -8388608
/-- The largest image, 65,536 bytes (R186). -/
def imageMax : Nat := 65536

end Sys2Proof.Config
end

