-- ==== Sys2Proof/Syntax.lean ====
section
/-! DEFINITION. The commands the part takes: one constructor per row of spec/opcode_table.json.

Two kinds of row stand in the table.

* **Events**: what reaches the part from outside (a client request, a pulse, a level change, a received
  message), the expiry of one of its timers, and the follow-up steps the table lists as whole steps of
  their own (a grant, the take of a band job, the start of a status write). An event whose moment
  nothing in the part fixes carries `dt`, the time that has passed since the step before it, in thirds
  of a nanosecond (`Config`); a timer's expiry carries none, since the timer's own deadline says when.
* **Software commands**: the 34 kinds of the command set and the unknown kind. Their operands are the
  fields of the command record in the widths of Record Layouts 12.1 and 12.2, the correlation tag first.
  Codes stay raw here (a mode is a byte), because a code that names no value is refused BAD FIELD by
  the command's own rule. -/

namespace Sys2Proof

/-- The commands of the part. -/
inductive Instr where
  -- Start-up and load mode
  /-- POWER_ON (R185): the release of power-on reset with the levels of the MODE, STN1 and STN0 straps. -/
  | powerOn (dt : Nat) (modeLoad stn1 stn0 : Bool)
  /-- IMAGE_READ_COMPLETE (R186). -/
  | imageReadComplete (dt : Nat)
  /-- CALIBRATION_COMPLETE (R188), with its outcome. -/
  | calibrationComplete (dt : Nat) (pass : Bool)
  /-- FAULT_LINE_TOGGLE (R189). -/
  | faultLineToggle
  /-- LOAD_START (R190): a START load record: whether a byte of it had a framing error, the image
  length it carries, and its record check. -/
  | loadStart (dt : Nat) (framing : Bool) (length check : Word)
  /-- ERASE_COMPLETE (R190). -/
  | eraseComplete (dt : Nat)
  /-- LOAD_DATA (R190): a DATA load record, and the bytes the flash gives back when the written place
  is read for the compare. -/
  | loadData (dt : Nat) (framing : Bool) (offset : Word) (bytes : List Byte) (check : Word) (readBack : List Byte)
  /-- LOAD_END (R191). -/
  | loadEnd (dt : Nat) (framing : Bool) (check : Word)
  /-- MAINTENANCE_BREAK (R191). -/
  | maintenanceBreak (dt : Nat)
  -- The memory path
  /-- CLIENT_REQUEST (R1): port, tag, kind, line number, line count, and for a WRITE each byte of the
  lines with its enable. -/
  | clientRequest (dt : Nat) (port : Fin 6) (tag : BitVec 6) (kind : ReqKind) (line count : Nat) (data : List (Byte × Bool))
  /-- GRANT (R17). -/
  | grant
  /-- TRANSFER_COMPLETE (R18). -/
  | transferComplete (dt : Nat)
  /-- REFRESH_DUE (R19). -/
  | refreshDue
  /-- REFRESH_COMPLETE (R19). -/
  | refreshComplete (dt : Nat)
  /-- SET_PORT_INTERVAL (R20). -/
  | setPortInterval (tag : Word) (contender : Byte) (interval : Half)
  /-- OPEN_WINDOW (R21). -/
  | openWindow (tag : Word) (entry : Byte) (base size : Wide) (kind subject readSet writeSet : Byte)
  /-- CLOSE_WINDOW (R22). -/
  | closeWindow (tag : Word) (entry : Byte)
  /-- WINDOW_DRAINED (R22). -/
  | windowDrained (w : Fin 32)
  /-- QUIESCE (R23). -/
  | quiesce (tag : Word)
  /-- QUIESCE_COMPLETE (R23). -/
  | quiesceComplete
  /-- RESUME (R24). -/
  | resume (tag : Word)
  -- The programme clock and the cue lines
  /-- FRAME_REFERENCE_PULSE (R27). -/
  | frameReferencePulse (dt : Nat)
  /-- FRAME_REFERENCE_LOSS (R28). -/
  | frameReferenceLoss
  /-- OSCILLATOR_PICTURE_TICK (R28). -/
  | oscillatorPictureTick
  /-- SET_TIMECODE (R31): the timecode's bytes in record order. -/
  | setTimecode (tag : Word) (ff ss mm hh : Byte)
  /-- WORD_CLOCK_EDGE (R32). -/
  | wordClockEdge (dt : Nat)
  /-- WORD_CLOCK_LOSS (R33). -/
  | wordClockLoss
  /-- OSCILLATOR_BLOCK_TICK (R33). -/
  | oscillatorBlockTick
  /-- CUE_RAW_CHANGE (R37): the line whose pin takes a level. -/
  | cueRawChange (dt : Nat) (line : Fin 8) (high : Bool)
  /-- DEBOUNCE_EXPIRY (R37). -/
  | debounceExpiry (line : Fin 8)
  /-- SET_CUE_LINE (R36). -/
  | setCueLine (tag : Word) (line mode drive : Byte) (debounce : Half) (cameras preroll tally : Byte)
  /-- DRIVE_CUE_LINE (R41): ON or OFF by its code. -/
  | driveCueLine (tag : Word) (line value : Byte)
  -- Frame stores
  /-- SET_CAMERA (R44). -/
  | setCamera (tag : Word) (camera frameWin replayWin : Byte) (stride : Word) (lines : Half) (tiles policy : Byte) (holdLimit : Half) (budget : Word) (live : Byte)
  /-- START_CAMERA (R45). -/
  | startCamera (tag : Word) (camera : Byte)
  /-- STOP_CAMERA (R59). -/
  | stopCamera (tag : Word) (camera : Byte)
  /-- STOP_CAMERA_COMPLETE (R59). -/
  | stopCameraComplete (camera : Fin 8)
  /-- HOLD_LIMIT_EXPIRY (R51). -/
  | holdLimitExpiry (camera : Fin 8)
  -- The band coder and the picture index
  /-- JOB_TAKE (R62). -/
  | jobTake
  /-- CODED_EVENT (R66): the coded tiles of the band, which the picture content decides. -/
  | codedEvent (dt : Nat) (tiles : List (List Byte))
  /-- FIND_PICTURE (R94): the two optional fields, each with its presence byte. -/
  | findPicture (tag : Word) (camera byNumber : Byte) (number : Word) (byTimecode ff ss mm hh : Byte)
  -- Sound
  /-- SET_SOURCE (R98). -/
  | setSource (tag : Word) (source state window : Byte) (ring : Half) (offset width : Byte)
  /-- SET_BUS (R101). -/
  | setBus (tag : Word) (bus state window : Byte) (ring master : Half) (send : Byte) (divider : Half)
  /-- SET_GAIN (R102). -/
  | setGain (tag : Word) (bus source : Byte) (target step : Half)
  /-- REMOVE_SOURCE (R103). -/
  | removeSource (tag : Word) (bus source : Byte)
  /-- START_MIXER (R104). -/
  | startMixer (tag : Word)
  /-- STOP_MIXER (R111). -/
  | stopMixer (tag : Word)
  /-- STOP_MIXER_COMPLETE (R111). -/
  | stopMixerComplete
  /-- READ_METERS (R113). -/
  | readMeters (tag : Word) (report : Wide)
  -- Clips and labels
  /-- MARK_IN (R117): the length limit is optional, with its presence byte; the labels follow a count. -/
  | markIn (tag : Word) (cameras preroll limitPresent : Byte) (limit : Half) (labels : List Half)
  /-- MARK_OUT (R120). -/
  | markOut (tag : Word) (clip : Half)
  /-- UNPIN (R122). -/
  | unpin (tag : Word) (clip : Half)
  /-- PIN (R123). -/
  | pin (tag : Word) (clip : Half)
  /-- DELETE_CLIP (R124). -/
  | deleteClip (tag : Word) (clip : Half)
  /-- ADD_LABEL (R125). -/
  | addLabel (tag : Word) (clip code : Half)
  /-- REMOVE_LABEL (R125). -/
  | removeLabel (tag : Word) (clip code : Half)
  /-- SEND_CLIP (R126). -/
  | sendClip (tag : Word) (clip : Half)
  /-- MIRROR_WRITE_START (R128). -/
  | mirrorWriteStart
  -- The send engine
  /-- ITEM_STALE (R135): the item, by the number the model gives it. -/
  | itemStale (item : Nat)
  /-- CURSOR_STEP (R137). -/
  | cursorStep
  /-- BUILD_START (R138). -/
  | buildStart
  /-- DESCRIPTOR_EXPIRY (R148): the descriptor, by its sequence number. -/
  | descriptorExpiry (seq : Word)
  /-- RETURN_MESSAGE_END (R166): the bytes gathered since the marker's first byte, that byte included. -/
  | returnMessageEnd (dt : Nat) (lane : Fin 4) (bytes : List Byte)
  /-- RECEIPT (R145): the message at the head of the lane's return FIFO. -/
  | receipt (lane : Fin 4)
  /-- RESEND (R146). -/
  | resend (lane : Fin 4)
  /-- LANE_TEST (R147). -/
  | laneTest (lane : Fin 4)
  /-- SET_CLASS (R150). -/
  | setClass (tag : Word) (cls : Byte) (interval hold : Half)
  /-- FLUSH_CLASS (R151). -/
  | flushClass (tag : Word) (cls : Byte)
  -- Trunk lanes
  /-- SET_LANE (R156). -/
  | setLane (tag : Word) (lane : Byte) (divider window : Half) (filter depth policy : Byte)
  /-- LANE_ON (R157). -/
  | laneOn (tag : Word) (lane : Byte)
  /-- LANE_OFF (R164). -/
  | laneOff (tag : Word) (lane : Byte)
  /-- BREAK_SENT_END (R164). -/
  | breakSentEnd (lane : Fin 4)
  /-- CARRIER_CHANGE (R158): the level the carrier detect input takes. -/
  | carrierChange (dt : Nat) (lane : Fin 4) (present : Bool)
  /-- CARRIER_FILTER_EXPIRY (R158). -/
  | carrierFilterExpiry (lane : Fin 4)
  /-- SETTLE_EXPIRY (R159). -/
  | settleExpiry (lane : Fin 4)
  /-- MODEM_HOLD_CHANGE (R163). -/
  | modemHoldChange (dt : Nat) (lane : Fin 4) (asserted : Bool)
  /-- TRANSMIT_START (R161). -/
  | transmitStart (lane : Fin 4)
  /-- TRANSMIT_COMPLETE (R162). -/
  | transmitComplete (lane : Fin 4)
  /-- BREAK_RECEIVED (R165), and whether it ends a run of discarded bytes (R166). -/
  | breakReceived (dt : Nat) (lane : Fin 4) (afterRun : Bool)
  /-- BREAK_RECEIVE_END (R165). -/
  | breakReceiveEnd (dt : Nat) (lane : Fin 4)
  /-- MARKER_FIRST_BYTE (R166), and whether it ends a run of discarded bytes. -/
  | markerFirstByte (dt : Nat) (lane : Fin 4) (afterRun : Bool)
  -- Command and status rings
  /-- TAIL_WORD_WRITE (R172). -/
  | tailWordWrite
  /-- HEAD_WORD_WRITE (R176). -/
  | headWordWrite
  /-- COMMAND_FETCH (R173). -/
  | commandFetch
  /-- UNKNOWN_COMMAND (R174): the kind code that names no command. -/
  | unknownCommand (tag : Word) (kind : Half)
  /-- STATUS_WRITE_START (R178). -/
  | statusWriteStart
  /-- READ_COUNTERS (R182). -/
  | readCounters (tag : Word) (group clear : Byte) (report : Wide)
  /-- ENGINE_RESET (R183). -/
  | engineReset (tag : Word)
  /-- ENGINE_RESET_COMPLETE (R184). -/
  | engineResetComplete
  deriving DecidableEq, Repr

end Sys2Proof
end

