-- ==== Sys2Proof/Machine/State.lean ====
section
/-! DEFINITION. The state of the part as plain data: every register, queue, buffer, counter, mode, timer
and pin the manual gives it, block by block, with the queue of waiting commands, the DRAM and the flash
beside it; the outcomes' reasons; and `State.reset`.

Conventions. A quantity the manual counts is a `Nat`; a number that wraps at 2^32 (picture, sequence and
block numbers, the picture tick count) is a `Word`; a timer is the time of its expiry, `none` while it is
stopped; an index of an object is a `Fin`. A DRAM or flash content is a list of cells in one canonical form
(`Memory.wf`, Machine/Ops.lean). -/

namespace Sys2Proof.Machine

/-- Why a step stops. -/
inductive Fault where
  /-- Raised by TRANSFER_COMPLETE when the granted range runs beyond the last DRAM byte. The head check
  refuses such a client request (R4), so no run from reset raises it. Safe: the model stops. -/
  | beyondDram
  deriving DecidableEq, Repr

/-- Why a command has no meaning. -/
inductive Refusal where
  /-- Raised by `exec`'s own arm of a command whose meaning is not written yet. Safe: the model stops. -/
  | notModelled (mnemonic : String)
  deriving DecidableEq, Repr

/-- The contents of an addressed store: strictly rising addresses, and no byte equal to what an
unlisted address reads as. -/
abbrev Memory := List Host.Cell

/-- A timecode hh:mm:ss:ff (00, 5.2). -/
structure Timecode where
  hh : Nat
  mm : Nat
  ss : Nat
  ff : Nat
  deriving DecidableEq, Repr

/-- One side of a two-sided memory request (1.1, R16): the first line, the line count, and for a WRITE
each byte of the lines with its enable. -/
structure Request where
  kind : ReqKind
  line : Nat
  count : Nat
  data : List (Byte × Bool)
  deriving DecidableEq, Repr

/-! ## Chapter 1: the memory path -/

/-- Why a client request is refused (1.3). -/
inductive Reason where
  | tagInUse | noMemory | split | closing | denied | notReady
  deriving DecidableEq, Repr

/-- Where an admitted request stands (R3, R15, R18). -/
inductive ReqPhase where
  /-- behind the head, or the head before its check -/
  | waiting
  /-- checked, passed, and held by the frame tracker -/
  | held
  /-- checked, passed, and offered to the scheduler -/
  | offered
  /-- granted; its transfer is in progress -/
  | granted
  deriving DecidableEq, Repr

/-- An admitted, unanswered request of a port queue. -/
structure Admitted where
  tag : BitVec 6
  req : Request
  phase : ReqPhase
  /-- the window in whose in-flight count the request is counted (R6) -/
  counted : Option (Fin 32)
  /-- the window the request passed its check in; none for open ground (R3) -/
  via : Option (Fin 32)
  /-- the line the transfer uses: the presented line, or the redirected one of an alias read (R10) -/
  target : Nat
  /-- whether the frame tracker may still take the write at its completion (R46, R50, R52) -/
  tracked : Bool
  deriving DecidableEq, Repr

/-- A port's last refusal record (R5). -/
structure LastRefusal where
  reason : Reason
  address : Nat
  kind : ReqKind
  deriving DecidableEq, Repr

/-- One client port: its queue, oldest first, and its counters. -/
structure Port where
  queue : List Admitted
  refusals : Nat
  reads : Nat
  writes : Nat
  last : Option LastRefusal
  deriving DecidableEq, Repr

/-- The state of a window table entry (1.4). -/
inductive WindowState where
  | closed | opened | draining
  deriving DecidableEq, Repr

/-- The nine kinds of window (1.4). -/
inductive WindowKind where
  | plain | frame | aliased | sound | replay | programme | command | status | clipList
  deriving DecidableEq, Repr

/-- A window table entry. The in-flight count is not stored twice: it is the number of admitted requests
counted in the window (`Part.inFlight`). -/
structure Window where
  state : WindowState
  base : Nat
  size : Nat
  kind : WindowKind
  subject : Nat
  /-- the ports that may read and write, port p in bit p -/
  readers : Byte
  writers : Byte
  deriving DecidableEq, Repr

/-- The quiesce state the six ports share (1.8). -/
inductive Quiesce where
  | running | quiescing | quiesced
  deriving DecidableEq, Repr

/-- What holds the DDR channel (1.6). -/
inductive Channel where
  | free
  | refresh
  /-- the transfer of the port's head request -/
  | client (port : Fin 6)
  /-- the transfer of an engine stream; an orphan's result is not used (R25, R78, R112, R152) -/
  | stream (i : Fin 5) (req : Request) (orphan : Bool)
  deriving DecidableEq, Repr

/-- The memory path. Contenders 0–5 are the ports and 6–10 the streams CODER, MIXER, SENDER, COMMAND and
CLIPS, here numbered 0–4. -/
structure Path where
  /-- memory is READY (R2) -/
  ready : Bool
  quiesce : Quiesce
  ports : Table Port 6
  windows : Table Window 32
  intervals : Table Nat 11
  waits : Table Nat 11
  /-- each stream's next request, not yet granted; it is offered while no transfer of the stream is in progress (R16) -/
  streams : Table (Option Request) 5
  channel : Channel
  refreshesDue : Nat
  refreshTimer : Option Nat
  deriving DecidableEq, Repr

/-! ## Chapter 2: the programme clock and the cue lines -/

/-- The picture rate (chapter 2). -/
inductive Rate where
  | p25 | p30d | p50 | p60d
  deriving DecidableEq, Repr

/-- One timing input: the frame reference, or the word clock. -/
structure Reference where
  locked : Bool
  relock : Nat
  losses : Nat
  regains : Nat
  strays : Nat
  /-- the time of the last pulse or edge of any sort -/
  lastPulse : Option Nat
  /-- the time of the last accepted pulse or edge -/
  lastAccepted : Option Nat
  /-- the loss timer (R28, R33) -/
  lossTimer : Option Nat
  /-- the oscillator's next tick, while it runs -/
  oscillator : Option Nat
  /-- the time of the oscillator's last tick -/
  lastOscTick : Option Nat
  deriving DecidableEq, Repr

/-- The programme clock (R26). -/
structure Clock where
  started : Bool
  rate : Rate
  timecode : Timecode
  pendingTc : Option Timecode
  pictureTicks : Word
  blockNumber : Word
  edgeCount : Nat
  frame : Reference
  word : Reference
  deriving DecidableEq, Repr

inductive CueMode where
  | off | input | mark | tally | output
  deriving DecidableEq, Repr

inductive Drive where
  | pushPull | openDrain
  deriving DecidableEq, Repr

/-- The settings of a cue line (2.3). -/
structure CueSettings where
  mode : CueMode
  drive : Drive
  /-- debounce time in ms -/
  debounce : Nat
  cameras : Byte
  preroll : Nat
  tally : Nat
  deriving DecidableEq, Repr

/-- A cue line record, its pin's outside level and its debounce timer (2.3, R37). Levels: true is HIGH. -/
structure CueLine where
  cfg : CueSettings
  /-- the level the outside puts on the pin -/
  pin : Bool
  raw : Bool
  debounced : Bool
  outputOn : Bool
  openClip : Option Nat
  presses : Nat
  refusedPresses : Nat
  debounceTimer : Option Nat
  deriving DecidableEq, Repr

/-! ## Chapter 3: frame stores -/

inductive CameraState where
  | stopped | running | stopping
  deriving DecidableEq, Repr

inductive Policy where
  | hold | drop
  deriving DecidableEq, Repr

/-- The settings of a camera (3.1). -/
structure CameraSettings where
  frameWin : Fin 32
  replayWin : Fin 32
  stride : Nat
  lines : Nat
  tiles : Nat
  policy : Policy
  /-- hold limit in ms -/
  holdLimit : Nat
  budget : Nat
  live : Bool
  deriving DecidableEq, Repr

/-- The settings that wait for a running camera's next slot start (R44). -/
structure PendingSettings where
  policy : Policy
  holdLimit : Nat
  budget : Nat
  live : Bool
  deriving DecidableEq, Repr

inductive SlotId where
  | a | b
  deriving DecidableEq, Repr

inductive SlotState where
  | empty | filling | coding | done | torn
  deriving DecidableEq, Repr

/-- What a slot start stamps (R47). -/
structure Stamp where
  number : Word
  timecode : Timecode
  block : Word
  live : Bool
  budget : Nat
  deriving DecidableEq, Repr

/-- A slot record (3.2). -/
structure Slot where
  state : SlotState
  stamp : Option Stamp
  arrived : Nat
  coded : Nat
  abandoned : Bool
  deriving DecidableEq, Repr

/-- A held-write record (3.3) with its hold limit timer. -/
structure HeldWrite where
  port : Fin 6
  tag : BitVec 6
  slot : SlotId
  timer : Nat
  deriving DecidableEq, Repr

/-- The frame tracker's counters of a camera (R60). -/
structure CameraCounters where
  slotStarts : Nat
  heldWrites : Nat
  holdExpiries : Nat
  torn : Nat
  abandoned : Nat
  strayBands : Nat
  strayStarts : Nat
  deriving DecidableEq, Repr

/-- A camera record (3.1) with its slots and held write. -/
structure Camera where
  state : CameraState
  cfg : CameraSettings
  counter : Word
  /-- the carried quantizer -/
  carried : Nat
  pending : Option PendingSettings
  slotA : Slot
  slotB : Slot
  held : Option HeldWrite
  counts : CameraCounters
  deriving DecidableEq, Repr

/-! ## Chapter 4: the band coder -/

/-- A band job (4.1). -/
structure BandJob where
  cam : Fin 8
  slot : SlotId
  number : Word
  band : Nat
  deriving DecidableEq, Repr

inductive JobPhase where
  | header | reading | coding | writing
  deriving DecidableEq, Repr

/-- The job in progress (4.2), with the transfers its phase has still to offer. -/
structure JobRun where
  job : BandJob
  phase : JobPhase
  target : Nat
  quantizer : Nat
  /-- the coded size, from the coded event on -/
  size : Option Nat
  /-- the ring place, from the room result on -/
  place : Option Nat
  discarded : Bool
  /-- spans of DRAM still to be read: byte address and length -/
  reads : List (Nat × Nat)
  /-- spans of DRAM still to be written: byte address and bytes -/
  writes : List (Nat × List Byte)
  deriving DecidableEq, Repr

/-- A rate-control record (4.2). -/
structure RateRecord where
  number : Word
  slot : SlotId
  budget : Nat
  bandCount : Nat
  tiles : Nat
  header : Nat
  spent : Nat
  quantizer : Nat
  /-- coded size and quantizer of each band written, in band order -/
  bands : List (Nat × Nat)
  overFlag : Bool
  deriving DecidableEq, Repr

/-- The coder's counters of a camera (R79). -/
structure CoderCounters where
  codedBands : Nat
  published : Nat
  overBudget : Nat
  discarded : Nat
  failedOpens : Nat
  overlapped : Nat
  cutBands : Nat
  deriving DecidableEq, Repr

/-- The band coder. It is BUSY exactly while a job is in progress (R62). -/
structure Coder where
  queue : List BandJob
  job : Option JobRun
  rates : Table (Option RateRecord) 8
  highWater : Nat
  counts : Table CoderCounters 8
  deriving DecidableEq, Repr

/-! ## Chapter 5: replay rings and the picture index -/

inductive GapCause where
  | torn | cut | stopped | queueFull
  deriving DecidableEq, Repr

/-- Why a picture is settled (5.6): a gap cause, or LOST, which leaves no record. -/
inductive SettleCause where
  | gap (c : GapCause)
  | lost
  deriving DecidableEq, Repr

/-- The state of a picture record with the fields present in it (5.2). -/
inductive RecordBody where
  | opening (ringStart length : Nat)
  | published (ringStart length quantizer : Nat) (overFlag : Bool)
  | gap (cause : GapCause)
  deriving DecidableEq, Repr

/-- A picture record (5.2). -/
structure PictureRecord where
  number : Word
  timecode : Timecode
  block : Word
  body : RecordBody
  pins : Nat
  sends : Nat
  deriving DecidableEq, Repr

/-- A camera's replay ring, picture index and replay counters. -/
structure Ring where
  /-- base and size Z, or absent -/
  extent : Option (Nat × Nat)
  writePoint : Nat
  used : Nat
  index : List PictureRecord
  retired : Nat
  cut : Nat
  lost : Nat
  mismatches : Nat
  deriving DecidableEq, Repr

/-! ## Chapter 6: sound sources and the mixer -/

/-- The settings of a source (6.2). -/
structure SourceSettings where
  on : Bool
  win : Fin 32
  ring : Nat
  offset : Nat
  width : Nat
  deriving DecidableEq, Repr

/-- A source record. Fresh flag of slot k in bit k. -/
structure Source where
  cfg : SourceSettings
  fresh : BitVec 64
  late : Nat
  overruns : Nat
  deriving DecidableEq, Repr

/-- A contribution list entry (6.3). -/
structure Contribution where
  source : Fin 64
  current : Nat
  target : Nat
  step : Nat
  leaving : Bool
  deriving DecidableEq, Repr

/-- The settings of a bus (6.3). -/
structure BusSettings where
  active : Bool
  win : Fin 32
  ring : Nat
  master : Nat
  send : Bool
  divider : Nat
  deriving DecidableEq, Repr

/-- A bus record: the output slot records list (slot, block number) in ascending slot, absent slots not
listed. -/
structure Bus where
  cfg : BusSettings
  contributions : List Contribution
  slots : List (Nat × Word)
  peak : Nat
  clips : Nat
  itemsHanded : Nat
  shortFrames : Nat
  deriving DecidableEq, Repr

inductive MixerState where
  | stopped | running | stopping
  deriving DecidableEq, Repr

inductive PassPhase where
  | reading | writing
  deriving DecidableEq, Repr

/-- A bus as a pass's snapshot holds it (R106). -/
structure BusSnapshot where
  cfg : BusSettings
  base : Nat
  /-- each entry's source and its current gain after the ramp -/
  gains : List (Fin 64 × Nat)
  deriving DecidableEq, Repr

/-- A source as a pass's snapshot holds it (R106). -/
structure SourceSnapshot where
  cfg : SourceSettings
  base : Nat
  deriving DecidableEq, Repr

/-- The pass in progress (6.5). -/
structure Pass where
  block : Word
  phase : PassPhase
  buses : Table BusSnapshot 16
  sources : Table SourceSnapshot 64
  /-- the source plan: each used source with the slot chosen and whether it is read -/
  plan : List (Fin 64 × Nat × Bool)
  /-- the sources still to be read, the one being read first -/
  toRead : List (Fin 64 × Nat)
  /-- the samples read so far -/
  samples : List (Fin 64 × List Int)
  /-- the output blocks still to be written, the one being written first -/
  toWrite : List (Nat × List Byte)
  deriving DecidableEq, Repr

/-- The mixer. -/
structure Mixer where
  state : MixerState
  pass : Option Pass
  sources : Table Source 64
  buses : Table Bus 16
  lateTicks : Nat
  deriving DecidableEq, Repr

/-! ## Chapter 7: clips and labels -/

/-- The states of a clip that is not FREE (7.2); a FREE table position holds no clip. -/
inductive ClipState where
  | opened | kept | loose | lost
  deriving DecidableEq, Repr

inductive SendState where
  | unsent | sending | sent | partly
  deriving DecidableEq, Repr

/-- A clip record (7.1). The in and out points are kept per camera and are zero outside the set. -/
structure Clip where
  number : Nat
  state : ClipState
  cameras : Byte
  inPoints : Table Word 8
  /-- the out points with the out timecode; absent while OPEN -/
  out : Option (Table Word 8 × Timecode)
  passed : Byte
  inTimecode : Timecode
  /-- the cue line the clip came from; none for COMMAND -/
  origin : Option (Fin 8)
  preroll : Nat
  limit : Nat
  labels : List Nat
  forced : Bool
  send : SendState
  outstanding : Nat
  failed : Nat
  skipped : Nat
  cursors : Nat
  deriving DecidableEq, Repr

/-- The clip controller. -/
structure Clips where
  table : Table (Option Clip) 128
  lastNumber : Nat
  /-- the mirror pending set, ascending, without repeats -/
  mirror : List (Fin 128)
  /-- the mirror write in progress -/
  writing : Option (Fin 128)
  marks : Nat
  refusedMarks : Nat
  forceCloses : Nat
  lostClips : Nat
  partialSends : Nat
  events : Nat
  deriving DecidableEq, Repr

/-! ## Chapter 8: the send engine -/

/-- The send classes, in number order (8.1). -/
inductive SendClass where
  | audio | live | label | clip
  deriving DecidableEq, Repr

/-- What an item names (8.1). -/
inductive ItemKind where
  | audioFrame (bus : Fin 16) (first : Word) (blocks : Nat) (slot0 ring : Nat)
  | livePicture (cam : Fin 8) (number : Word)
  | label (pos : Fin 128) (clip : Nat) (snapshot : List Byte)
  | clipPicture (pos : Fin 128) (clip : Nat) (cursor : Fin 8) (cam : Fin 8) (number : Word)
  deriving DecidableEq, Repr

/-- An item (8.1). It stays here while it is in its class queue (`queued`) and afterwards until every
fragment it dispatched is settled. -/
structure Item where
  /-- the model's own name of the item -/
  id : Nat
  kind : ItemKind
  queued : Bool
  /-- the payload's first byte, and the base and size of the ring it wraps in -/
  address : Nat
  ringBase : Nat
  ringSize : Nat
  length : Nat
  fragments : Nat
  dispatched : Nat
  settled : Nat
  failed : Bool
  made : Nat
  stale : Nat
  /-- whether the clip link is present (LABEL and CLIP PICTURE) -/
  linked : Bool
  deriving DecidableEq, Repr

inductive DescState where
  | building | queuedOnLane | transmitting | awaitingReceipt | waiting
  deriving DecidableEq, Repr

inductive Settlement where
  | receipted | expired | dropped
  deriving DecidableEq, Repr

/-- A descriptor of the resend store (8.4). -/
structure Descriptor where
  seq : Word
  item : Nat
  cls : SendClass
  fragment : Nat
  fragments : Nat
  /-- where the fragment's bytes lie: address and length, one span or two; none for a LABEL fragment -/
  spans : List (Nat × Nat)
  /-- the bytes of a LABEL fragment -/
  held : List Byte
  frameLength : Nat
  lane : Option (Fin 4)
  state : DescState
  mark : Option Settlement
  dispatches : Nat
  expiry : Nat
  noResend : Bool
  deriving DecidableEq, Repr

/-- The build in progress (R141): the descriptor, the spans still to be read and the bytes read. -/
structure Build where
  seq : Word
  lane : Fin 4
  reads : List (Nat × Nat)
  /-- the span the offered read takes its bytes from -/
  current : Nat × Nat
  got : List Byte
  deriving DecidableEq, Repr

/-- The settings, wait count and counters of a class (8.7, R153). -/
structure ClassRecord where
  interval : Nat
  /-- class hold time in ms -/
  hold : Nat
  wait : Nat
  made : Nat
  replaced : Nat
  droppedFull : Nat
  droppedStale : Nat
  flushed : Nat
  overtaken : Nat
  finished : Nat
  failed : Nat
  expired : Nat
  losses : Nat
  deriving DecidableEq, Repr

/-- A clip cursor in use (8.2). -/
structure Cursor where
  pos : Fin 128
  clip : Nat
  cam : Fin 8
  next : Word
  outPoint : Word
  outstanding : Nat
  deriving DecidableEq, Repr

/-- The send engine's own counters (R153). -/
structure SendCounters where
  receipts : Nat
  staleReceipts : Nat
  wideReceipts : Nat
  resends : Nat
  duplicateResends : Nat
  lateResends : Nat
  echoes : Nat
  droppedEchoes : Nat
  otherStation : Nat
  deriving DecidableEq, Repr

/-- The send engine. A class queue is the queued items of the class in the order made; the re-dispatch
list is the WAITING descriptors in the order of the store, which is sequence order. -/
structure Sender where
  items : List Item
  nextItem : Nat
  classes : Table ClassRecord 4
  cursors : Table (Option Cursor) 8
  store : List Descriptor
  build : Option Build
  seq : Word
  counts : SendCounters
  deriving DecidableEq, Repr

/-! ## Chapter 9: trunk lanes -/

inductive LaneState where
  | off | waitCarrier | up | down
  deriving DecidableEq, Repr

inductive CarrierFilter where
  | none | half | five | fifty
  deriving DecidableEq, Repr

inductive FullPolicy where
  | holdOff | overrun
  deriving DecidableEq, Repr

/-- The settings of a lane and its initial state (9.1). -/
structure LaneSettings where
  divider : Nat
  /-- window in KiB -/
  window : Nat
  filter : CarrierFilter
  depth : Nat
  policy : FullPolicy
  initialOn : Bool
  deriving DecidableEq, Repr

/-- What a frame of a transmit queue is: a link frame with its descriptor, or an ECHO with its token. -/
inductive FrameKind where
  | link (seq : Word)
  | echo (token : Word)
  deriving DecidableEq, Repr

/-- A frame of a transmit queue, with the bytes that go out. -/
structure TxFrame where
  kind : FrameKind
  bytes : List Byte
  deriving DecidableEq, Repr

/-- The fields of a good return message (8.5). -/
inductive MessageBody where
  | receipt (first last : Word)
  | resend (seq : Word)
  | laneTest (token : Word)
  deriving DecidableEq, Repr

/-- A good return message. -/
structure ReturnMessage where
  station : Nat
  body : MessageBody
  deriving DecidableEq, Repr

/-- The receive path: between messages, gathering one, or in a received break (R165, R166). -/
inductive Receive where
  | between | gathering | inBreak
  deriving DecidableEq, Repr

/-- The lane counters (R170). -/
structure LaneCounters where
  framesSent : Nat
  breaksSent : Nat
  checkErrors : Nat
  framingErrors : Nat
  overruns : Nat
  carrierLosses : Nat
  deriving DecidableEq, Repr

/-- A trunk lane. -/
structure Lane where
  state : LaneState
  cfg : LaneSettings
  modemHold : Bool
  returnHold : Bool
  /-- the level of the carrier detect input -/
  carrier : Bool
  /-- the filtered carrier: true is PRESENT -/
  filtered : Bool
  filterTimer : Option Nat
  settleTimer : Option Nat
  queue : List TxFrame
  /-- the frame transmitting, and when its transmission ends -/
  sending : Option (TxFrame × Nat)
  /-- the end of the break in progress on the transmit line -/
  breakEnd : Option Nat
  receive : Receive
  fifo : List ReturnMessage
  counts : LaneCounters
  deriving DecidableEq, Repr

/-! ## Chapter 10: command and status rings -/

/-- The two live rings, as image application takes them up (R171). -/
structure Rings where
  cmdWin : Fin 32
  statWin : Fin 32
  cmdBase : Nat
  statBase : Nat
  n : Nat
  m : Nat
  deriving DecidableEq, Repr

/-- The results a completion carries, in code order (12.2). -/
inductive Result where
  | done | cancelled | badKind | badField | state | busy | inUse | overlap | tableFull | notFound | gone
  deriving DecidableEq, Repr

/-- A deferred command and its object (R174). -/
inductive DeferredKind where
  | closeWindow (w : Fin 32)
  | quiesce
  | stopCamera (k : Fin 8)
  | stopMixer
  | laneOff (l : Fin 4)
  | engineReset
  deriving DecidableEq, Repr

/-- An outstanding deferred command. -/
structure Deferred where
  ring : Nat
  tag : Word
  kind : DeferredKind
  deriving DecidableEq, Repr

/-- A completion not yet written. -/
structure Completion where
  ring : Nat
  tag : Word
  result : Result
  data : List Byte
  deriving DecidableEq, Repr

/-- Notice causes, in priority order (10.5). -/
inductive Cause where
  | reference | lane | ring | clip | access | hold | mix | send | cue | command
  deriving DecidableEq, Repr

/-- The report writes of READ COUNTERS or READ METERS (R175). -/
structure Report where
  ring : Nat
  tag : Word
  lines : Nat
  writes : List (Nat × List Byte)
  deriving DecidableEq, Repr

/-- The status write in progress (R178). -/
inductive StatusWrite where
  /-- the record is being written; then the write index word takes `next` -/
  | record (next : Nat) (ofReset : Bool)
  /-- the write index word is being written with `next` -/
  | index (next : Nat) (ofReset : Bool)
  deriving DecidableEq, Repr

/-- What the COMMAND stream's present offer or transfer is for. -/
inductive CommandUse where
  | fetch | report | status
  deriving DecidableEq, Repr

/-- The command engine's counters (R182). -/
structure CommandCounters where
  taken : Nat
  refused : Nat
  badTails : Nat
  badHeads : Nat
  written : Nat
  absorbed : Nat
  deriving DecidableEq, Repr

/-- The command engine. -/
structure Commander where
  rings : Option Rings
  head : Nat
  fetchTail : Nat
  /-- what the COMMAND stream is in use for, from the offer to the transfer complete -/
  use : Option CommandUse
  /-- the command taken and about to run: its ring index and the command its record spells -/
  inHand : Option (Nat × Instr)
  report : Option Report
  deferred : List Deferred
  completions : List Completion
  writeIndex : Nat
  takenHead : Nat
  status : Option StatusWrite
  /-- the notice pending set, in the order notices are chosen -/
  notices : List (Cause × Nat)
  counts : CommandCounters
  /-- tail and head word values shown to the engine and not yet acted on, oldest first -/
  tailShown : List Wide
  headShown : List Wide
  /-- the write index update of ENGINE RESET's own completion has landed (R184) -/
  resetWritten : Bool
  deriving DecidableEq, Repr

/-! ## Chapter 11: start-up and the configuration image -/

inductive LoaderState where
  | reset | reading | calibrating | running | fallback | dramFault | load
  deriving DecidableEq, Repr

inductive LoadState where
  | awaitingStart | receiving | complete | failed
  deriving DecidableEq, Repr

/-- A good load record that waits while the loader works on another (R190). -/
inductive LoadRecord where
  | start (length : Nat)
  | data (offset : Nat) (bytes readBack : List Byte)
  | finish
  deriving DecidableEq, Repr

/-- The contents of an applied image (12.7), or the FALLBACK defaults. -/
structure Image where
  rate : Rate
  n : Nat
  m : Nat
  fastRefresh : Bool
  station : Nat
  mixerOn : Bool
  timing : List Byte
  intervals : Table Nat 11
  windows : Table Window 32
  cues : Table CueSettings 8
  cameras : Table (Bool × CameraSettings) 8
  sources : Table SourceSettings 64
  buses : Table (BusSettings × List Contribution) 16
  /-- interval and hold time in ms -/
  classes : Table (Nat × Nat) 4
  lanes : Table LaneSettings 4
  deriving DecidableEq, Repr

/-- The start-up loader. -/
structure Loader where
  state : LoaderState
  /-- the sampled strap levels -/
  modeLoad : Bool
  stn1 : Bool
  stn0 : Bool
  /-- the active copy: the applied image, or the FALLBACK defaults; none before application -/
  active : Option Image
  /-- the station number, fixed at image application (R168) -/
  station : Nat
  /-- DRAM initialisation and calibration is in progress (R188) -/
  calibrating : Bool
  attempts : Nat
  load : LoadState
  position : Nat
  length : Nat
  erasing : Bool
  waiting : Option LoadRecord
  /-- offset and bytes of the last accepted DATA record -/
  lastData : Option (Nat × List Byte)
  /-- the fault line's level: true is HIGH -/
  faultHigh : Bool
  /-- the next change of level, while the line toggles -/
  faultTimer : Option Nat
  deriving DecidableEq, Repr

/-! ## The whole machine -/

/-- What leaves the part. -/
inductive Output where
  /-- a response on a client port: OK with the data of a READ -/
  | ok (port : Fin 6) (tag : BitVec 6) (data : List Byte)
  /-- a REFUSED response with its reason -/
  | refused (port : Fin 6) (tag : BitVec 6) (reason : Reason)
  /-- a frame sent whole on a lane -/
  | frame (lane : Fin 4) (bytes : List Byte)
  /-- a frame abandoned on a lane by a carrier failure, or cut short by a break -/
  | frameBroken (lane : Fin 4) (frame : FrameKind)
  /-- an answer character on the maintenance line -/
  | answer (character : Byte)
  deriving DecidableEq, Repr

/-- The part: all its blocks. -/
structure Part where
  /-- the time, in thirds of a nanosecond -/
  now : Nat
  /-- what has left the part, oldest first (the model's own record of the outside's view) -/
  outputs : List Output
  loader : Loader
  path : Path
  clock : Clock
  cues : Table CueLine 8
  cameras : Table Camera 8
  coder : Coder
  rings : Table Ring 8
  mixer : Mixer
  clips : Clips
  sender : Sender
  lanes : Table Lane 4
  cmd : Commander
  deriving DecidableEq, Repr

/-- The machine: the part, the DRAM behind its channel, the flash behind its SPI port, and the queue of
the commands that are waiting, first in first out. -/
structure State where
  pending : List Instr
  dram : Memory
  flash : Memory
  part : Part
  deriving DecidableEq, Repr

/-! ## Reset -/

/-- The FALLBACK defaults (R7, R20, R26, R35, R43, R97, R100, R104, R152, R155, R189). Fields the manual
gives no FALLBACK value for are zero, or the first value listed (assumption 4). -/
def Image.fallback : Image where
  rate := .p25
  n := 16
  m := 16
  fastRefresh := false
  station := 0
  mixerOn := false
  timing := []
  intervals := Table.all 8
  windows := Table.all ⟨.closed, 0, 0, .plain, 0, 0, 0⟩
  cues := Table.all ⟨.off, .pushPull, 0, 0, 0, 0⟩
  cameras := Table.all (false, ⟨0, 0, 64, 16, 1, .hold, 40, 104, false⟩)
  sources := Table.all ⟨false, 0, 4, 0, 24⟩
  buses := Table.all (⟨false, 0, 16, 16384, false, 5⟩, [])
  classes := Table.make fun c => if c = 0 then (1, 150) else if c = 1 then (2, 300) else if c = 2 then (8, 5000) else (16, 30000)
  lanes := Table.all ⟨25, 64, .five, 8, .holdOff, false⟩

/-- An EMPTY slot (3.2). -/
def Slot.clear : Slot := ⟨.empty, none, 0, 0, false⟩

/-- An input of the clock as it stands at power-on: FREE, counts 0 (chapter 2). -/
def Reference.clear : Reference := ⟨false, 0, 0, 0, 0, none, none, none, none, none⟩

/-- A clip class with its settings and nothing counted (R152). -/
def ClassRecord.initial (interval hold : Nat) : ClassRecord := ⟨interval, hold, 0, 0, 0, 0, 0, 0, 0, 0, 0, 0, 0⟩

/-- A lane at power-on with the given settings (R155). The rules give the filtered carrier no value before the first
LANE ON samples it; it is held ABSENT here, as an unconnected input reads (assumption 40). -/
def Lane.initial (cfg : LaneSettings) : Lane :=
  ⟨.off, cfg, false, false, false, false, none, none, [], none, none, .between, [], ⟨0, 0, 0, 0, 0, 0⟩⟩

/-- A camera at power-on with the given settings, STOPPED (R43). -/
def Camera.initial (cfg : CameraSettings) : Camera :=
  ⟨.stopped, cfg, 0, 8, none, Slot.clear, Slot.clear, none, ⟨0, 0, 0, 0, 0, 0, 0⟩⟩

/-- A source at power-on with the given settings (R97). -/
def Source.initial (cfg : SourceSettings) : Source := ⟨cfg, 0, 0, 0⟩

/-- A bus at power-on with the given settings and contributions (R100). -/
def Bus.initial (cfg : BusSettings) (list : List Contribution) : Bus := ⟨cfg, list, [], 0, 0, 0, 0⟩

/-- A cue line at power-on with the given settings, on a pin at the given level (R35). -/
def CueLine.initial (cfg : CueSettings) (pin : Bool) : CueLine := ⟨cfg, pin, pin, pin, false, none, 0, 0, none⟩

/-- An empty replay ring and index (R80, R93). -/
def Ring.clear : Ring := ⟨none, 0, 0, [], 0, 0, 0, 0⟩

/-- The coder at power-on (R78). -/
def Coder.clear : Coder := ⟨[], none, Table.all none, 0, Table.all ⟨0, 0, 0, 0, 0, 0, 0⟩⟩

/-- The clip controller at power-on: an all FREE table, every mirror position pending (R115, R129). -/
def Clips.clear : Clips := ⟨Table.all none, 0, List.finRange 128, none, 0, 0, 0, 0, 0, 0⟩

/-- The command engine at power-on: no rings (R171, R184). -/
def Commander.clear : Commander :=
  ⟨none, 0, 0, none, none, none, [], [], 0, 0, none, [], ⟨0, 0, 0, 0, 0, 0⟩, [], [], false⟩

/-- The part in power-on reset (R185): every block clear, its settings at the FALLBACK defaults until an
image is applied, the loader in RESET, the fault line LOW. The outside levels are those of unconnected
pins: cue pins HIGH, carriers and modem holds not asserted. -/
def Part.reset : Part where
  now := 0
  outputs := []
  loader := ⟨.reset, false, false, false, none, 0, false, 0, .awaitingStart, 0, 0, false, none, none, false, none⟩
  path := ⟨false, .running, Table.all ⟨[], 0, 0, 0, none⟩, Image.fallback.windows, Image.fallback.intervals, Table.all 0, Table.all none, .free, 0, none⟩
  clock := ⟨false, .p25, ⟨0, 0, 0, 0⟩, none, 0, 0, 0, Reference.clear, Reference.clear⟩
  cues := Table.all (CueLine.initial ⟨.off, .pushPull, 0, 0, 0, 0⟩ true)
  cameras := Image.fallback.cameras.each fun c => Camera.initial c.2
  coder := Coder.clear
  rings := Table.all Ring.clear
  mixer := ⟨.stopped, none, Image.fallback.sources.each Source.initial, Image.fallback.buses.each fun b => Bus.initial b.1 b.2, 0⟩
  clips := Clips.clear
  sender := ⟨[], 0, Image.fallback.classes.each fun c => ClassRecord.initial c.1 c.2, Table.all none, [], none, 0, ⟨0, 0, 0, 0, 0, 0, 0, 0, 0⟩⟩
  lanes := Image.fallback.lanes.each Lane.initial
  cmd := Commander.clear

/-- The machine in power-on reset: no command waiting, DRAM with nothing listed, a flash as it is when
erased (every byte FFH; assumption 3), and the part in power-on reset. -/
def State.reset : State := ⟨[], [], [], Part.reset⟩

end Sys2Proof.Machine
end

