-- ==== Sys2Proof/Machine/Ops.lean ====
section
/-! DEFINITION. The named operations every family of commands uses: bytes and numbers, comparison of
wrapping numbers, counters, the two memories, windows and ranges, time, notices (R179), the completion of
a command and the frame in which a software command runs (R174), and the offers of the engine streams
(R16). -/

namespace Sys2Proof.Machine

/-! ## Bytes and numbers -/

/-- The `k` low bytes of `n`, least significant first (12.1). -/
def leBytes : Nat → Nat → List Byte
  | 0, _ => []
  | k + 1, n => BitVec.ofNat 8 n :: leBytes k (n / 256)

/-- The number whose bytes these are, least significant first (12.1). -/
def leNat : List Byte → Nat
  | [] => 0
  | b :: bs => b.toNat + 256 * leNat bs

/-- `k` zero bytes. -/
def zeros (k : Nat) : List Byte := List.replicate k 0

/-- The bytes cut or filled with zeros to length `k`. -/
def padTo (k : Nat) (bs : List Byte) : List Byte := bs.take k ++ zeros (k - bs.length)

/-- `n` rounded up to units of `k`, counted in units. -/
def unitsOf (k n : Nat) : Nat := (n + k - 1) / k

/-! ## Numbers that wrap -/

/-- `a` is at `b` or ahead of it by less than 2^31 (00, 5.2; R46). -/
def atOrAfter (a b : Word) : Bool := decide ((a - b).toNat < 2 ^ 31)

/-- `a` lies ahead of `b` by less than 2^31 and is not `b`. -/
def laterThan (a b : Word) : Bool := a != b && atOrAfter a b

/-- The count of numbers from `a` to `b`, both ends included. -/
def spanOf (a b : Word) : Nat := (b - a).toNat + 1

/-! ## Counters -/

/-- A counter of events rises by one and saturates (00, 5.2). -/
def count (n : Nat) : Nat := if n < Config.counterMax then n + 1 else Config.counterMax

/-- A counter of events rises by `k` and saturates. -/
def countBy (k n : Nat) : Nat := min (n + k) Config.counterMax

/-! ## The memories -/

/-- What an unlisted DRAM byte reads as (assumption 1). -/
def dramBlank : Byte := 0
/-- What an unlisted flash byte reads as: an erased flash answers with all bits set (assumption 3). -/
def flashBlank : Byte := 255

namespace Memory

/-- The byte at an address, `blank` where none is listed. -/
def readByte (blank : Byte) : Memory → Nat → Byte
  | [], _ => blank
  | (k, b) :: rest, a => if k = a then b else readByte blank rest a

/-- The memory with the byte at an address replaced, in canonical form. -/
def writeByte (blank : Byte) : Memory → Nat → Byte → Memory
  | [], a, v => if v = blank then [] else [(a, v)]
  | (k, b) :: rest, a, v =>
    if a < k then (if v = blank then (k, b) :: rest else (a, v) :: (k, b) :: rest)
    else if a = k then (if v = blank then rest else (a, v) :: rest)
    else (k, b) :: writeByte blank rest a v

/-- Every listed address is above `lo`, addresses strictly rise, and no byte is `blank`. -/
def wfFrom (blank : Byte) : Nat → Memory → Bool
  | _, [] => true
  | lo, (k, b) :: rest => decide (lo ≤ k) && b != blank && wfFrom blank (k + 1) rest

/-- The canonical form. -/
def wf (blank : Byte) (m : Memory) : Bool := wfFrom blank 0 m

/-- `n` bytes from an address on. -/
def readBytes (blank : Byte) (m : Memory) (a : Nat) : Nat → List Byte
  | 0 => []
  | n + 1 => readByte blank m a :: readBytes blank m (a + 1) n

/-- Bytes laid from an address on, each where its enable is set. -/
def writeMasked (blank : Byte) : Memory → Nat → List (Byte × Bool) → Memory
  | m, _, [] => m
  | m, a, (b, en) :: rest =>
    writeMasked blank (if en then writeByte blank m a b else m) (a + 1) rest

/-- Bytes laid from an address on. -/
def writeBytes (blank : Byte) : Memory → Nat → List Byte → Memory
  | m, _, [] => m
  | m, a, b :: rest => writeBytes blank (writeByte blank m a b) (a + 1) rest

/-- `n` bytes from an address on made blank. -/
def erase (m : Memory) (a n : Nat) : Memory :=
  m.filter fun c => !(decide (a ≤ c.1) && decide (c.1 < a + n))

end Memory

/-- One byte of the DRAM. -/
def State.dramByte (s : State) (a : Nat) : Byte := s.dram.readByte dramBlank a

/-! ## Requests and ranges -/

namespace Request

/-- The bytes the request names. -/
def bytes (r : Request) : Nat := Config.lineBytes * r.count

/-- The range of the request as presented: first byte and the byte after the last (1.1). -/
def first (r : Request) : Nat := Config.lineBytes * r.line
def next (r : Request) : Nat := r.first + r.bytes

/-- Whether the masks enable at least one byte of the span of `n` bytes at byte address `a` (1.1). -/
def covers (r : Request) (a n : Nat) : Bool :=
  r.kind == .write &&
    (List.range n).any fun i =>
      decide (r.first ≤ a + i) && (match r.data[a + i - r.first]? with | some (_, en) => en | none => false)

/-- Whether every byte the masks enable lies in the span of `n` bytes at byte address `a`. -/
def onlyWithin (r : Request) (a n : Nat) : Bool :=
  (r.data.zipIdx).all fun (x : (Byte × Bool) × Nat) =>
    !x.1.2 || (decide (a ≤ r.first + x.2) && decide (r.first + x.2 < a + n))

end Request

namespace Window

/-- The entry is OPEN or DRAINING. -/
def live (w : Window) : Bool := w.state != .closed

/-- The range lies wholly in the entry's range. -/
def holds (w : Window) (lo hi : Nat) : Bool := decide (w.base ≤ lo) && decide (hi ≤ w.base + w.size)

/-- The range shares a byte with the entry's range. -/
def touches (w : Window) (lo hi : Nat) : Bool := decide (lo < w.base + w.size) && decide (w.base < hi)

end Window

/-- Where a range lies (R4 test 2). -/
inductive Placing where
  | openGround
  | inside (w : Fin 32)
  | split
  deriving DecidableEq, Repr

/-- Where a range lies among the OPEN and DRAINING windows. -/
def Path.place (p : Path) (lo hi : Nat) : Placing :=
  match (List.finRange 32).find? fun w => (p.windows.nth w).live && (p.windows.nth w).touches lo hi with
  | none => .openGround
  | some w => if (p.windows.nth w).holds lo hi then .inside w else .split

/-- The OPEN or DRAINING window a range lies wholly in, if there is one (R6). -/
def Path.countedIn (p : Path) (lo hi : Nat) : Option (Fin 32) :=
  match p.place lo hi with
  | .inside w => some w
  | _ => none

/-- The OPEN window of a kind, the lowest-numbered if there were several. -/
def Path.openOf (p : Path) (k : WindowKind) : Option (Fin 32) :=
  (List.finRange 32).find? fun w => (p.windows.nth w).state == .opened && (p.windows.nth w).kind == k

/-- A window's in-flight count (R6). -/
def Path.inFlight (p : Path) (w : Fin 32) : Nat :=
  ((p.ports.list.map fun q => (q.queue.filter fun a => a.counted == some w).length)).sum

/-! ## Access to the blocks -/

namespace Part

def setPath (p : Part) (x : Path) : Part := { p with path := x }
def setClock (p : Part) (x : Clock) : Part := { p with clock := x }
def setCoder (p : Part) (x : Coder) : Part := { p with coder := x }
def setMixer (p : Part) (x : Mixer) : Part := { p with mixer := x }
def setClips (p : Part) (x : Clips) : Part := { p with clips := x }
def setSender (p : Part) (x : Sender) : Part := { p with sender := x }
def setCmd (p : Part) (x : Commander) : Part := { p with cmd := x }
def setLoader (p : Part) (x : Loader) : Part := { p with loader := x }
def setNow (p : Part) (t : Nat) : Part := { p with now := t }
def setCues (p : Part) (x : Table CueLine 8) : Part := { p with cues := x }
def setCameras (p : Part) (x : Table Camera 8) : Part := { p with cameras := x }
def setRings (p : Part) (x : Table Ring 8) : Part := { p with rings := x }
def setLanes (p : Part) (x : Table Lane 4) : Part := { p with lanes := x }

/-- One port, window, camera, ring, cue line, lane, source or bus changed. -/
def updPort (p : Part) (i : Fin 6) (f : Port → Port) : Part :=
  p.setPath { p.path with ports := p.path.ports.upd i f }
def updWindow (p : Part) (i : Fin 32) (f : Window → Window) : Part :=
  p.setPath { p.path with windows := p.path.windows.upd i f }
def updCamera (p : Part) (i : Fin 8) (f : Camera → Camera) : Part := p.setCameras (p.cameras.upd i f)
def updRing (p : Part) (i : Fin 8) (f : Ring → Ring) : Part := p.setRings (p.rings.upd i f)
def updCue (p : Part) (i : Fin 8) (f : CueLine → CueLine) : Part := p.setCues (p.cues.upd i f)
def updLane (p : Part) (i : Fin 4) (f : Lane → Lane) : Part := p.setLanes (p.lanes.upd i f)
def updSource (p : Part) (i : Fin 64) (f : Source → Source) : Part :=
  p.setMixer { p.mixer with sources := p.mixer.sources.upd i f }
def updBus (p : Part) (i : Fin 16) (f : Bus → Bus) : Part :=
  p.setMixer { p.mixer with buses := p.mixer.buses.upd i f }
def updClip (p : Part) (i : Fin 128) (f : Option Clip → Option Clip) : Part :=
  p.setClips { p.clips with table := p.clips.table.upd i f }
def updClass (p : Part) (i : Fin 4) (f : ClassRecord → ClassRecord) : Part :=
  p.setSender { p.sender with classes := p.sender.classes.upd i f }
def updCoderCounts (p : Part) (i : Fin 8) (f : CoderCounters → CoderCounters) : Part :=
  p.setCoder { p.coder with counts := p.coder.counts.upd i f }

/-- Something leaves the part. -/
def emit (p : Part) (o : Output) : Part := { p with outputs := p.outputs ++ [o] }

/-- Time passes. -/
def after (dt : Nat) (p : Part) : Part := p.setNow (p.now + dt)

/-- A timer's deadline is taken: the time is at least the deadline from here on (assumption 2). -/
def reach (t : Nat) (p : Part) : Part := p.setNow (max p.now t)

end Part

/-! ## Notices (R179) -/

/-- The priority of a cause, 1 the highest (10.5). -/
def Cause.priority : Cause → Nat
  | .reference => 1 | .lane => 2 | .ring => 3 | .clip => 4 | .access => 5
  | .hold => 6 | .mix => 7 | .send => 8 | .cue => 9 | .command => 10

/-- Whether one pending notice is chosen before another: priority first, then subject (R180). -/
def noticeBefore (a b : Cause × Nat) : Bool :=
  decide (a.1.priority < b.1.priority) || (a.1 == b.1 && decide (a.2 < b.2))

/-- A notice's flag joins the pending set, which is kept in the order notices are chosen. -/
def insertNotice (n : Cause × Nat) : List (Cause × Nat) → List (Cause × Nat)
  | [] => [n]
  | x :: rest => if noticeBefore n x then n :: x :: rest else x :: insertNotice n rest

/-- A block raises a notice: its flag is set, or the raise is absorbed (R179). -/
def Part.raise (c : Cause) (subject : Nat) (p : Part) : Part :=
  if (c, subject) ∈ p.cmd.notices then
    p.setCmd { p.cmd with counts := { p.cmd.counts with absorbed := count p.cmd.counts.absorbed } }
  else
    p.setCmd { p.cmd with notices := insertNotice (c, subject) p.cmd.notices }

/-! ## Commands and their completions (R174, R175) -/

/-- A completion joins the pending completions. -/
def Part.complete (i : Nat) (tag : Word) (r : Result) (data : List Byte) (p : Part) : Part :=
  p.setCmd { p.cmd with completions := p.cmd.completions ++ [⟨i, tag, r, data⟩] }

/-- An immediate command has run: DONE with its result data. -/
def Part.finish (i : Nat) (tag : Word) (data : List Byte) (p : Part) : Part := p.complete i tag .done data

/-- A command is refused: the commands refused counter rises and the completion carries the refusal. -/
def Part.refuse (i : Nat) (tag : Word) (r : Result) (data : List Byte) (p : Part) : Part :=
  (p.setCmd { p.cmd with counts := { p.cmd.counts with refused := count p.cmd.counts.refused } }).complete i tag r data

/-- A deferred command joins the tail of the deferred list. -/
def Part.defer (i : Nat) (tag : Word) (k : DeferredKind) (p : Part) : Part :=
  p.setCmd { p.cmd with deferred := p.cmd.deferred ++ [⟨i, tag, k⟩] }

/-- A deferred command on this object is outstanding. -/
def Part.outstanding (p : Part) (k : DeferredKind) : Bool := p.cmd.deferred.any fun d => d.kind == k

/-- The outstanding deferred command on this object completes: it leaves the list and its completion
joins the pending completions. -/
def Part.completeDeferred (k : DeferredKind) (r : Result) (p : Part) : Part :=
  match p.cmd.deferred.find? fun d => d.kind == k with
  | none => p
  | some d =>
    (p.setCmd { p.cmd with deferred := p.cmd.deferred.filter fun e => e.kind != k }).complete d.ring d.tag r []

/-- A software command runs when it is the command taken and about to run (R174): it leaves the engine's
hand and its body runs with its ring index. Otherwise no such command has been taken and nothing happens
(assumption 6). -/
def Part.run (c : Instr) (body : Nat → Part → Part) (p : Part) : Part :=
  match p.cmd.inHand with
  | none => p
  | some (i, held) =>
    if held = c then body i (p.setCmd { p.cmd with inHand := none }) else p

/-- A change of the part alone: the queue, the DRAM and the flash stand. -/
def State.withPart (s : State) (f : Part → Part) : State := { s with part := f s.part }

/-! ## Engine streams (R16) -/

/-- The streams by number: CODER 0, MIXER 1, SENDER 2, COMMAND 3, CLIPS 4 (contenders 6–10). -/
def coderStream : Fin 5 := 0
def mixerStream : Fin 5 := 1
def senderStream : Fin 5 := 2
def commandStream : Fin 5 := 3
def clipsStream : Fin 5 := 4

/-- A stream's owning block has its next request to make. It is offered from here on, or from the transfer
complete of the stream's transfer in progress, if there is one (R16; `Path.offers`). -/
def Part.offer (i : Fin 5) (r : Request) (p : Part) : Part :=
  p.setPath { p.path with streams := p.path.streams.put i (some r) }

/-- A stream's request not yet granted is withdrawn. -/
def Part.withdraw (i : Fin 5) (p : Part) : Part :=
  p.setPath { p.path with streams := p.path.streams.put i none }

/-- A transfer of the stream is in progress and its result is wanted. -/
def Path.streamBusy (p : Path) (i : Fin 5) : Bool :=
  match p.channel with
  | .stream j _ orphan => j == i && !orphan
  | _ => false

/-- The stream has no offer and no transfer in progress, an unused one included, so it may offer (R16). -/
def Path.streamIdle (p : Path) (i : Fin 5) : Bool :=
  (p.streams.nth i).isNone && (match p.channel with | .stream j _ _ => j != i | _ => true)

/-- How many bytes of a span of `len` bytes at `addr` one request of up to four lines moves. -/
def chunk (addr len : Nat) : Nat := min len (4 * Config.lineBytes - addr % Config.lineBytes)

/-- The read of the lines that hold `n` bytes at `addr`. -/
def readRequest (addr n : Nat) : Request :=
  ⟨.read, addr / Config.lineBytes, unitsOf Config.lineBytes (addr % Config.lineBytes + n), []⟩

/-- The write of these bytes at `addr`, enabling exactly them. -/
def writeRequest (addr : Nat) (bs : List Byte) : Request :=
  let before := addr % Config.lineBytes
  let lines := unitsOf Config.lineBytes (before + bs.length)
  let tail := Config.lineBytes * lines - before - bs.length
  ⟨.write, addr / Config.lineBytes, lines,
    List.replicate before (0, false) ++ bs.map (fun b => (b, true)) ++ List.replicate tail (0, false)⟩

/-- The next request of a list of spans to read, the span it moves, and the spans left. -/
def nextRead : List (Nat × Nat) → Option (Request × (Nat × Nat) × List (Nat × Nat))
  | [] => none
  | (addr, len) :: rest =>
    let n := chunk addr len
    some (readRequest addr n, (addr, n), if len ≤ n then rest else (addr + n, len - n) :: rest)

/-- The next request of a list of spans to write, and the spans left. -/
def nextWrite : List (Nat × List Byte) → Option (Request × List (Nat × List Byte))
  | [] => none
  | (addr, bs) :: rest =>
    let n := chunk addr bs.length
    some (writeRequest addr (bs.take n), if bs.length ≤ n then rest else (addr + n, bs.drop n) :: rest)

/-- The bytes of a span out of the data of the read that moved its lines. -/
def spanData (span : Nat × Nat) (data : List Byte) : List Byte :=
  (data.drop (span.1 % Config.lineBytes)).take span.2

/-- A span of `len` bytes at offset `o` of a ring at `base` of size `size`, continuing at offset 0 where it
runs past the end (5.1). -/
def ringSpans (base size o len : Nat) : List (Nat × Nat) :=
  if o + len ≤ size then [(base + o, len)] else [(base + o, size - o), (base, o + len - size)]

/-- Bytes laid at offset `o` of a ring, continuing at offset 0 where they run past the end. -/
def ringWrites (base size o : Nat) (bs : List Byte) : List (Nat × List Byte) :=
  if o + bs.length ≤ size then [(base + o, bs)] else [(base + o, bs.take (size - o)), (base, bs.drop (size - o))]

end Sys2Proof.Machine
end

