-- ==== Sys2Proof/Machine/Operands.lean ====
section
/-! DEFINITION. The operand forms: how a field of a command record or of the configuration image names an
object or a value (Record Layouts 12.1, R192). A code that names no value gives `none`, and the command
that carries it is refused BAD FIELD by its own rule; each code is the value's place in its owning table. -/

namespace Sys2Proof.Machine

/-- An object number below `n`. -/
def objectOf (n : Nat) (b : Byte) : Option (Fin n) := if h : b.toNat < n then some ⟨b.toNat, h⟩ else none

/-- A flag: 0 clear, 1 set. -/
def flagOf (b : Byte) : Option Bool := if b = 0 then some false else if b = 1 then some true else none

/-- A set of ports CP0–CP5, member 0 in the lowest bit; a bit above the last member names no port. -/
def portSetOf (b : Byte) : Option Byte := if b.toNat < 64 then some b else none

/-- The cameras of a set, in ascending number. -/
def camerasOf (b : Byte) : List (Fin 8) := (List.finRange 8).filter fun k => b.getLsbD k.val

def windowStateOf (b : Byte) : Option WindowState :=
  if b = 0 then some .closed else if b = 1 then some .opened else if b = 2 then some .draining else none

def windowKindOf (b : Byte) : Option WindowKind :=
  if b = 0 then some .plain else if b = 1 then some .frame else if b = 2 then some .aliased
  else if b = 3 then some .sound else if b = 4 then some .replay else if b = 5 then some .programme
  else if b = 6 then some .command else if b = 7 then some .status else if b = 8 then some .clipList
  else none

/-- The objects a kind's subject may name (1.4): none where the subject is ignored (R21). -/
def subjectLimit : WindowKind → Option Nat
  | .frame | .aliased | .replay => some 8
  | .sound => some 64
  | .programme => some 16
  | .plain | .command | .status | .clipList => none

def cueModeOf (b : Byte) : Option CueMode :=
  if b = 0 then some .off else if b = 1 then some .input else if b = 2 then some .mark
  else if b = 3 then some .tally else if b = 4 then some .output else none

def driveOf (b : Byte) : Option Drive :=
  if b = 0 then some .pushPull else if b = 1 then some .openDrain else none

/-- ON or OFF as the output state lists them (2.3): ON 0, OFF 1. -/
def onOffOf (b : Byte) : Option Bool := if b = 0 then some true else if b = 1 then some false else none

def policyOf (b : Byte) : Option Policy := if b = 0 then some .hold else if b = 1 then some .drop else none

/-- A source's state OFF 0, ON 1; a bus's state IDLE 0, ACTIVE 1; a lane's initial state OFF 0, ON 1. -/
def stateOf (b : Byte) : Option Bool := flagOf b

def filterOf (b : Byte) : Option CarrierFilter :=
  if b = 0 then some .none else if b = 1 then some .half else if b = 2 then some .five
  else if b = 3 then some .fifty else none

def fullPolicyOf (b : Byte) : Option FullPolicy :=
  if b = 0 then some .holdOff else if b = 1 then some .overrun else none

def rateOf (b : Byte) : Option Rate :=
  if b = 0 then some .p25 else if b = 1 then some .p30d else if b = 2 then some .p50
  else if b = 3 then some .p60d else none

/-- A timecode as its four bytes give it. -/
def timecodeOf (ff ss mm hh : Byte) : Timecode := ⟨hh.toNat, mm.toNat, ss.toNat, ff.toNat⟩

/-! ## Codes of the states the part reports (12.1) -/

def boolCode (b : Bool) : Byte := if b then 1 else 0

def Reason.code : Reason → Byte
  | .tagInUse => 0 | .noMemory => 1 | .split => 2 | .closing => 3 | .denied => 4 | .notReady => 5

def reqKindCode : ReqKind → Byte
  | .read => 0 | .write => 1

def CueMode.code : CueMode → Byte
  | .off => 0 | .input => 1 | .mark => 2 | .tally => 3 | .output => 4

def CameraState.code : CameraState → Byte
  | .stopped => 0 | .running => 1 | .stopping => 2

def Policy.code : Policy → Byte
  | .hold => 0 | .drop => 1

def SlotId.code : SlotId → Byte
  | .a => 0 | .b => 1

def SlotState.code : SlotState → Byte
  | .empty => 0 | .filling => 1 | .coding => 2 | .done => 3 | .torn => 4

def JobPhase.code : JobPhase → Byte
  | .header => 0 | .reading => 1 | .coding => 2 | .writing => 3

def GapCause.code : GapCause → Byte
  | .torn => 0 | .cut => 1 | .stopped => 2 | .queueFull => 3

def RecordBody.code : RecordBody → Byte
  | .opening _ _ => 0 | .published _ _ _ _ => 1 | .gap _ => 2

def MixerState.code : MixerState → Byte
  | .stopped => 0 | .running => 1 | .stopping => 2

def PassPhase.code : PassPhase → Byte
  | .reading => 0 | .writing => 1

/-- FREE is 0 (7.1). -/
def ClipState.code : ClipState → Byte
  | .opened => 1 | .kept => 2 | .loose => 3 | .lost => 4

def SendState.code : SendState → Byte
  | .unsent => 0 | .sending => 1 | .sent => 2 | .partly => 3

def SendClass.index : SendClass → Fin 4
  | .audio => 0 | .live => 1 | .label => 2 | .clip => 3

def SendClass.ofIndex (i : Fin 4) : SendClass :=
  if i = 0 then .audio else if i = 1 then .live else if i = 2 then .label else .clip

def LaneState.code : LaneState → Byte
  | .off => 0 | .waitCarrier => 1 | .up => 2 | .down => 3

def CarrierFilter.code : CarrierFilter → Byte
  | .none => 0 | .half => 1 | .five => 2 | .fifty => 3

def FullPolicy.code : FullPolicy → Byte
  | .holdOff => 0 | .overrun => 1

def Result.code : Result → Byte
  | .done => 0 | .cancelled => 1 | .badKind => 2 | .badField => 3 | .state => 4 | .busy => 5
  | .inUse => 6 | .overlap => 7 | .tableFull => 8 | .notFound => 9 | .gone => 10

/-- The command kind codes of the deferred commands (12.2). -/
def DeferredKind.code : DeferredKind → Nat
  | .closeWindow _ => 3 | .quiesce => 4 | .stopCamera _ => 11 | .stopMixer => 18
  | .laneOff _ => 33 | .engineReset => 34

/-- A timecode's four bytes: ff, ss, mm, hh (12.1). -/
def Timecode.bytes (t : Timecode) : List Byte :=
  [BitVec.ofNat 8 t.ff, BitVec.ofNat 8 t.ss, BitVec.ofNat 8 t.mm, BitVec.ofNat 8 t.hh]

/-- A number field of 1, 2, 4 or 8 bytes. -/
def u8 (n : Nat) : List Byte := leBytes 1 n
def u16 (n : Nat) : List Byte := leBytes 2 n
def u32 (n : Nat) : List Byte := leBytes 4 n
def u64 (n : Nat) : List Byte := leBytes 8 n
def word (w : Word) : List Byte := leBytes 4 w.toNat

/-- An optional field of `k` bytes: its presence byte, then its bytes, or zeros (R192). -/
def optional (k : Nat) : Option (List Byte) → List Byte
  | none => 0 :: zeros k
  | some bs => 1 :: padTo k bs

end Sys2Proof.Machine
end

