-- ==== Sys2Proof/Decode.lean ====
section
/-! DEFINITION. The command record (Record Layouts 12.2): the command its 64 bytes spell, total on any bytes,
and, after it, the record of a software command. The opcode table gives its rows no bits, so no word spells a
command outside a record (`decodeTableWord`). -/

namespace Sys2Proof

open Sys2Proof.Machine

/-- The opcode table numbers no row's bits: no word spells a command. -/
def decodeTableWord (_nbits _w : Nat) : Option Instr := none

namespace Record

/-- The fields of a record by offset (12.1). -/
def byte (r : List Byte) (o : Nat) : Byte := r.getD o 0
def half (r : List Byte) (o : Nat) : Half := BitVec.ofNat 16 (leNat ((r.drop o).take 2))
def word (r : List Byte) (o : Nat) : Word := BitVec.ofNat 32 (leNat ((r.drop o).take 4))
def wide (r : List Byte) (o : Nat) : Wide := BitVec.ofNat 64 (leNat ((r.drop o).take 8))

/-- The label codes a record has room for after MARK IN's other fields (assumption 25). -/
def labelPlaces : Nat := 25

/-- `k` label codes from an offset on. -/
def halves (r : List Byte) (o k : Nat) : List Half := (List.range k).map fun i => half r (o + 2 * i)

end Record

open Record in
/-- The command a record spells (12.2): the kind at bytes 0–1, the tag at 4–7, the arguments from byte 8. -/
def decodeRecord (r : List Byte) : Instr :=
  let tag := word r 4
  match (half r 0).toNat with
  | 1 => .setPortInterval tag (byte r 8) (half r 9)
  | 2 => .openWindow tag (byte r 8) (wide r 9) (wide r 17) (byte r 25) (byte r 26) (byte r 27) (byte r 28)
  | 3 => .closeWindow tag (byte r 8)
  | 4 => .quiesce tag
  | 5 => .resume tag
  | 6 => .setTimecode tag (byte r 8) (byte r 9) (byte r 10) (byte r 11)
  | 7 => .setCueLine tag (byte r 8) (byte r 9) (byte r 10) (half r 11) (byte r 13) (byte r 14) (byte r 15)
  | 8 => .driveCueLine tag (byte r 8) (byte r 9)
  | 9 => .setCamera tag (byte r 8) (byte r 9) (byte r 10) (word r 11) (half r 15) (byte r 17) (byte r 18) (half r 19) (word r 21) (byte r 25)
  | 10 => .startCamera tag (byte r 8)
  | 11 => .stopCamera tag (byte r 8)
  | 12 => .findPicture tag (byte r 8) (byte r 9) (word r 10) (byte r 14) (byte r 15) (byte r 16) (byte r 17) (byte r 18)
  | 13 => .setSource tag (byte r 8) (byte r 9) (byte r 10) (half r 11) (byte r 13) (byte r 14)
  | 14 => .setBus tag (byte r 8) (byte r 9) (byte r 10) (half r 11) (half r 13) (byte r 15) (half r 16)
  | 15 => .setGain tag (byte r 8) (byte r 9) (half r 10) (half r 12)
  | 16 => .removeSource tag (byte r 8) (byte r 9)
  | 17 => .startMixer tag
  | 18 => .stopMixer tag
  | 19 => .readMeters tag (wide r 8)
  | 20 => .readCounters tag (byte r 8) (byte r 9) (wide r 10)
  | 21 => .markIn tag (byte r 8) (byte r 9) (byte r 10) (half r 11) (halves r 14 (min (byte r 13).toNat labelPlaces))
  | 22 => .markOut tag (half r 8)
  | 23 => .unpin tag (half r 8)
  | 24 => .pin tag (half r 8)
  | 25 => .deleteClip tag (half r 8)
  | 26 => .addLabel tag (half r 8) (half r 10)
  | 27 => .removeLabel tag (half r 8) (half r 10)
  | 28 => .sendClip tag (half r 8)
  | 29 => .setClass tag (byte r 8) (half r 9) (half r 11)
  | 30 => .flushClass tag (byte r 8)
  | 31 => .setLane tag (byte r 8) (half r 9) (half r 11) (byte r 13) (byte r 14) (byte r 15)
  | 32 => .laneOn tag (byte r 8)
  | 33 => .laneOff tag (byte r 8)
  | 34 => .engineReset tag
  | _ => .unknownCommand tag (half r 0)

namespace Record

/-- The bytes of a field. -/
def ofHalf (h : Half) : List Byte := leBytes 2 h.toNat
def ofWord (w : Word) : List Byte := leBytes 4 w.toNat
def ofWide (w : Wide) : List Byte := leBytes 8 w.toNat

/-- A record of 64 bytes from its kind, its tag and its arguments. -/
def lay (kind : Half) (tag : Word) (args : List Byte) : List Byte :=
  ofHalf kind ++ [0, 0] ++ ofWord tag ++ padTo 56 args

end Record

open Record in
/-- The record of a software command; none for an event. -/
def encodeRecord : Instr → Option (List Byte)
  | .setPortInterval tag c n => some (lay 1 tag ([c] ++ ofHalf n))
  | .openWindow tag e b z k u rs ws => some (lay 2 tag ([e] ++ ofWide b ++ ofWide z ++ [k, u, rs, ws]))
  | .closeWindow tag e => some (lay 3 tag [e])
  | .quiesce tag => some (lay 4 tag [])
  | .resume tag => some (lay 5 tag [])
  | .setTimecode tag ff ss mm hh => some (lay 6 tag [ff, ss, mm, hh])
  | .setCueLine tag l m d t cs pr k => some (lay 7 tag ([l, m, d] ++ ofHalf t ++ [cs, pr, k]))
  | .driveCueLine tag l v => some (lay 8 tag [l, v])
  | .setCamera tag k fw rw st ln ti po hl bu lv =>
    some (lay 9 tag ([k, fw, rw] ++ ofWord st ++ ofHalf ln ++ [ti, po] ++ ofHalf hl ++ ofWord bu ++ [lv]))
  | .startCamera tag k => some (lay 10 tag [k])
  | .stopCamera tag k => some (lay 11 tag [k])
  | .findPicture tag k pn n pt ff ss mm hh => some (lay 12 tag ([k, pn] ++ ofWord n ++ [pt, ff, ss, mm, hh]))
  | .setSource tag n st w r o wd => some (lay 13 tag ([n, st, w] ++ ofHalf r ++ [o, wd]))
  | .setBus tag b st w r ms sd dv => some (lay 14 tag ([b, st, w] ++ ofHalf r ++ ofHalf ms ++ [sd] ++ ofHalf dv))
  | .setGain tag b n t st => some (lay 15 tag ([b, n] ++ ofHalf t ++ ofHalf st))
  | .removeSource tag b n => some (lay 16 tag [b, n])
  | .startMixer tag => some (lay 17 tag [])
  | .stopMixer tag => some (lay 18 tag [])
  | .readMeters tag a => some (lay 19 tag (ofWide a))
  | .readCounters tag g c a => some (lay 20 tag ([g, c] ++ ofWide a))
  | .markIn tag cs pr lp lim ls =>
    some (lay 21 tag ([cs, pr, lp] ++ ofHalf lim ++ [BitVec.ofNat 8 ls.length] ++ ls.flatMap ofHalf))
  | .markOut tag c => some (lay 22 tag (ofHalf c))
  | .unpin tag c => some (lay 23 tag (ofHalf c))
  | .pin tag c => some (lay 24 tag (ofHalf c))
  | .deleteClip tag c => some (lay 25 tag (ofHalf c))
  | .addLabel tag c l => some (lay 26 tag (ofHalf c ++ ofHalf l))
  | .removeLabel tag c l => some (lay 27 tag (ofHalf c ++ ofHalf l))
  | .sendClip tag c => some (lay 28 tag (ofHalf c))
  | .setClass tag c n h => some (lay 29 tag ([c] ++ ofHalf n ++ ofHalf h))
  | .flushClass tag c => some (lay 30 tag [c])
  | .setLane tag l d w f dp po => some (lay 31 tag ([l] ++ ofHalf d ++ ofHalf w ++ [f, dp, po]))
  | .laneOn tag l => some (lay 32 tag [l])
  | .laneOff tag l => some (lay 33 tag [l])
  | .engineReset tag => some (lay 34 tag [])
  | .unknownCommand tag k => some (lay k tag [])
  | _ => none

end Sys2Proof
end

