-- ==== Sys2Proof/Machine/Flags.lean ====
section
/-! DEFINITION. The status lines and the conditions computed from the state: ready lines (R2), the attention
line (R181), cue pins (R34), TALLY outputs (R40), overdue contenders (R17), the unconsumed count of the status
ring (R177) and the counts of a lane (R154). Each is computed, not stored, so it cannot disagree with what it
is computed from. -/

namespace Sys2Proof.Machine

/-- A port's ready line (R2). -/
def Path.readyLine (p : Path) (i : Fin 6) : Bool :=
  decide ((p.ports.nth i).queue.length < Config.portQueueMax) && p.quiesce == .running && p.ready

/-- The attention line: asserted while the write index differs from the taken head (R181). -/
def Part.attention (p : Part) : Bool := p.cmd.writeIndex != p.cmd.takenHead

/-- How a pin of the part is driven. -/
inductive PinDrive where
  | high | low | released
  deriving DecidableEq, Repr

/-- A cue line's pin (R34). -/
def CueLine.drive (c : CueLine) : PinDrive :=
  match c.cfg.mode with
  | .tally | .output =>
    match c.cfg.drive with
    | .pushPull => if c.outputOn then .high else .low
    | .openDrain => if c.outputOn then .low else .released
  | .off | .input | .mark => .released

/-- The level a TALLY line gives: its camera RUNNING with its live-send flag on (R40). -/
def Part.tallyOn (p : Part) (camera : Nat) : Bool :=
  if h : camera < 8 then
    (p.cameras.nth ⟨camera, h⟩).state == .running && (p.cameras.nth ⟨camera, h⟩).cfg.live
  else false

/-- Every TALLY line's output state follows its camera (R40). -/
def Part.tally (p : Part) : Part :=
  p.setCues (p.cues.each fun c =>
    if c.cfg.mode = .tally then { c with outputOn := p.tallyOn c.cfg.tally } else c)

/-- The unconsumed count U of the status ring (R177). -/
def Commander.unconsumed (c : Commander) (r : Rings) : Nat := (c.writeIndex + r.m - c.takenHead) % r.m

/-- A status write may start: U is at most M − 2 (R177). -/
def Commander.roomForRecord (c : Commander) (r : Rings) : Bool := decide (c.unconsumed r + 2 ≤ r.m)

/-- The channel carries a transfer of the stream, one whose result is no longer wanted included. -/
def Path.transferring (p : Path) (i : Fin 5) : Bool :=
  match p.channel with
  | .stream j _ _ => j == i
  | _ => false

/-- Whether a contender has a request offered (R16): a port its checked head, or a stream the next request of its
owning block, which is no offer while a transfer of the stream is in progress. -/
def Path.offers (p : Path) (c : Fin 11) : Bool :=
  if h : c.val < 6 then
    match (p.ports.nth ⟨c.val, h⟩).queue with
    | [] => false
    | a :: _ => a.phase == .offered
  else
    let i : Fin 5 := ⟨c.val - 6, by omega⟩
    (p.streams.nth i).isSome && !p.transferring i

/-- A contender is overdue when its wait count is at least its interval (R17). -/
def Path.overdue (p : Path) (c : Fin 11) : Bool := decide (p.intervals.nth c ≤ p.waits.nth c)

/-- The contender that an order prefers among a list, the earliest of those it does not rank. -/
def preferred {α : Type} (better : α → α → Bool) : List α → Option α
  | [] => none
  | x :: rest =>
    match preferred better rest with
    | none => some x
    | some y => if better y x then some y else some x

/-- The contender the scheduler grants (R17): the overdue one with the largest excess, else the one with
the smallest interval; ties go to the lowest number. -/
def Path.choose (p : Path) : Option (Fin 11) :=
  let offering := (List.finRange 11).filter p.offers
  let overdue := offering.filter p.overdue
  if overdue.isEmpty then
    preferred (fun a b => decide (p.intervals.nth a < p.intervals.nth b)) offering
  else
    preferred (fun a b => decide (p.waits.nth b - p.intervals.nth b < p.waits.nth a - p.intervals.nth a)) overdue

/-- The length of a frame on a lane. -/
def TxFrame.length (f : TxFrame) : Nat := f.bytes.length

/-- The descriptors being built for a lane. -/
def Sender.buildingFor (s : Sender) (l : Fin 4) : List Descriptor :=
  s.store.filter fun d => d.state == .building && d.lane == some l

/-- A lane's counted frames, by their lengths (R154): built for it, in its queue, and transmitting. -/
def Part.counted (p : Part) (l : Fin 4) : List Nat :=
  (p.sender.buildingFor l).map (·.frameLength) ++ (p.lanes.nth l).queue.map TxFrame.length ++
    (match (p.lanes.nth l).sending with | some (f, _) => [f.length] | none => [])

/-- A lane's bytes in flight (R154). -/
def Part.inFlightBytes (p : Part) (l : Fin 4) : Nat := (p.counted l).sum

/-- A lane is eligible for a frame of this length (R140). -/
def Part.eligible (p : Part) (l : Fin 4) (len : Nat) : Bool :=
  (p.lanes.nth l).state == .up && !(p.lanes.nth l).modemHold &&
    decide ((p.counted l).length < Config.laneFrameMax) &&
    decide (p.inFlightBytes l + len ≤ 1024 * (p.lanes.nth l).cfg.window)

/-- The eligible lane with the fewest bytes in flight, ties to the lowest number (R140). -/
def Part.laneFor (p : Part) (len : Nat) : Option (Fin 4) :=
  preferred (fun a b => decide (p.inFlightBytes a < p.inFlightBytes b))
    ((List.finRange 4).filter fun l => p.eligible l len)

/-- The bit period of a lane (9.1). -/
def Lane.bitPeriod (l : Lane) : Nat := l.cfg.divider * Config.laneCycle

/-- The time a break of 256 bit periods takes on a lane (R157, R164). -/
def Lane.breakTime (l : Lane) : Nat := Config.breakBits * l.bitPeriod

/-- The carrier filter's width (9.1); none for OFF. -/
def CarrierFilter.width : CarrierFilter → Option Nat
  | .none => Option.none
  | .half => some (Config.us / 2)
  | .five => some (5 * Config.us)
  | .fifty => some (50 * Config.us)

/-- The nominal picture period P (2.1). -/
def Rate.period : Rate → Nat
  | .p25 => 120000000
  | .p30d => 100100000
  | .p50 => 60000000
  | .p60d => 50050000

/-- The last picture number of a second (R30). -/
def Rate.last : Rate → Nat
  | .p25 => 24 | .p30d => 29 | .p50 => 49 | .p60d => 59

/-- How many picture numbers a dropping minute skips (R30). -/
def Rate.dropped : Rate → Nat
  | .p25 => 0 | .p30d => 2 | .p50 => 0 | .p60d => 4

/-- The timecode's number is dropped: an early picture of a minute that is not a multiple of 10 (R30). -/
def Timecode.isDropped (r : Rate) (t : Timecode) : Bool :=
  t.ss == 0 && t.mm % 10 != 0 && decide (t.ff < r.dropped)

/-- The timecode is in range for the rate (R31, R94). -/
def Timecode.inRange (r : Rate) (t : Timecode) : Bool :=
  decide (t.hh ≤ 23) && decide (t.mm ≤ 59) && decide (t.ss ≤ 59) && decide (t.ff ≤ r.last)

/-- The timecode one picture on (R30). -/
def Timecode.advance (r : Rate) (t : Timecode) : Timecode :=
  if t.ff < r.last then { t with ff := t.ff + 1 }
  else
    let t' : Timecode :=
      if t.ss < 59 then { t with ff := 0, ss := t.ss + 1 }
      else if t.mm < 59 then { t with ff := 0, ss := 0, mm := t.mm + 1 }
      else if t.hh < 23 then ⟨t.hh + 1, 0, 0, 0⟩
      else ⟨0, 0, 0, 0⟩
    if t'.isDropped r then { t' with ff := r.dropped } else t'

end Sys2Proof.Machine
end

