-- ==== Sys2Proof/Machine/Records.lean ====
section
/-! DEFINITION. The byte layouts of the records the part writes and reads (chapter 12): the check value,
picture and band headers, clip list entries, link frames, return messages, status records and FIND PICTURE
results. -/

namespace Sys2Proof.Machine

/-! ## The check value (R193) -/

/-- One data bit into the check register. -/
def crcBit (c : Word) (bit : Bool) : Word :=
  if c.getLsbD 0 != bit then (c >>> 1) ^^^ Config.crcPolynomial else c >>> 1

/-- One byte, least significant bit first. -/
def crcByte (c : Word) (b : Byte) : Word := (List.range 8).foldl (fun c i => crcBit c (b.getLsbD i)) c

/-- The check value over bytes. -/
def crc (bs : List Byte) : Word := ~~~ bs.foldl crcByte (BitVec.allOnes 32)

/-! ## Replay ring records (12.3) -/

/-- The header size H (4.2). -/
def headerSize (bandCount : Nat) : Nat := 64 + 8 * bandCount

/-- A band's entry in the picture header. -/
def bandEntry (b : Nat × Nat) : List Byte := u32 b.1 ++ u8 b.2 ++ zeros 3

/-- The picture header: preliminary (R64) with `published` false and no bands, final (R70) otherwise. -/
def pictureHeader (published : Bool) (cam : Fin 8) (r : RateRecord) (timecode : Timecode) (block : Word)
    (total : Nat) (quantizer : Nat) (overFlag : Bool) (bands : List (Nat × Nat)) : List Byte :=
  padTo 64 ([boolCode published] ++ u8 cam.val ++ u8 r.bandCount ++ u8 r.tiles ++ word r.number ++
    timecode.bytes ++ word block ++ u32 r.budget ++ u32 total ++ u8 quantizer ++ [boolCode overFlag]) ++
  padTo (8 * r.bandCount) (bands.flatMap bandEntry)

/-- A coded band: its 16-byte header, then its tiles (R66, 12.3). -/
def codedBand (j : BandJob) (quantizer tiles : Nat) (coded : List (List Byte)) : List Byte :=
  let size := 16 + coded.flatten.length
  padTo 16 (u8 j.cam.val ++ u8 j.band ++ u8 quantizer ++ u8 tiles ++ word j.number ++ u32 size) ++ coded.flatten

/-! ## Clip list entry and label snapshot (12.4) -/

/-- A point for each camera, four bytes each, zero outside the set. -/
def pointBytes (cameras : Byte) (pts : Table Word 8) : List Byte :=
  (List.finRange 8).flatMap fun k => if cameras.getLsbD k.val then word (pts.nth k) else zeros 4

/-- A clip's origin code: 0–7 for a cue line, 8 for COMMAND (R192). -/
def originCode : Option (Fin 8) → Nat
  | none => 8
  | some l => l.val

/-- The entry image of a table position. -/
def entryImage : Option Clip → List Byte
  | none => zeros 256
  | some c =>
    padTo 256 (
      [c.state.code, c.send.code] ++ u16 c.number ++ [c.cameras, c.passed] ++ u8 (originCode c.origin) ++
      [boolCode c.forced] ++ u8 c.preroll ++ u8 c.labels.length ++ u16 c.limit ++ c.inTimecode.bytes ++
      [boolCode c.out.isSome] ++ zeros 3 ++
      (match c.out with | none => zeros 4 | some (_, t) => t.bytes) ++
      padTo 16 (c.labels.flatMap u16) ++
      u16 c.outstanding ++ u16 c.failed ++ u16 c.skipped ++ u8 c.cursors ++ zeros 1 ++
      pointBytes c.cameras c.inPoints ++
      (match c.out with | none => zeros 32 | some (pts, _) => pointBytes c.cameras pts))

/-- The LABEL item's snapshot: bytes 0–127 of the entry image, with bytes 1, 5 and 40–47 zero. -/
def labelSnapshot (c : Clip) : List Byte :=
  (((entryImage (some c)).take 128).set 1 0 |>.set 5 0).take 40 ++ zeros 8 ++
    ((entryImage (some c)).drop 48).take 80

/-! ## Link frames (12.5) -/

/-- The item identity, header bytes 16–27. -/
def itemIdentity : ItemKind → List Byte
  | .audioFrame bus first blocks _ _ => padTo 12 (u8 bus.val ++ zeros 3 ++ word first ++ u8 blocks)
  | .livePicture cam number => padTo 12 (u8 cam.val ++ zeros 3 ++ word number)
  | .label _ clip _ => padTo 12 (zeros 8 ++ u16 clip)
  | .clipPicture _ clip _ cam number => padTo 12 (u8 cam.val ++ zeros 3 ++ word number ++ u16 clip)

/-- A frame from its header fields after the marker, and the bytes that stand as its fragment. -/
def sealFrame (fields fragment : List Byte) : List Byte :=
  [0xC3, 0x3C] ++ fields ++ fragment ++ word (crc (fields ++ fragment))

/-- The link frame of a descriptor's fragment (12.5). Design choice (assumption 47): the fragment index and count take 2
bytes each, and of a picture of more than 65,535 fragments each is given by its low 16 bits. -/
def linkFrame (station : Nat) (d : Descriptor) (kind : ItemKind) (fragment : List Byte) : List Byte :=
  sealFrame ([0] ++ u8 d.cls.index.val ++ u8 station ++ u8 d.dispatches ++ u16 fragment.length ++
    word d.seq ++ u16 d.fragment ++ u16 d.fragments ++ itemIdentity kind) fragment

/-- The ECHO frame of a token (R147): fragment length 0, 32 zero bytes where the fragment stands. The
fields a link frame takes from its descriptor are zero (assumption 21). -/
def echoFrame (station : Nat) (token : Word) : List Byte :=
  sealFrame ([1, 0] ++ u8 station ++ [0] ++ u16 0 ++ word token ++ zeros 16) (zeros 32)

/-! ## Return messages (12.5) -/

/-- How a gathered message fares at its end (R166). -/
inductive Reading where
  | incomplete
  | framing
  | check
  | good (m : ReturnMessage)
  deriving DecidableEq, Repr

/-- The length the kind byte at offset 2 fixes; 3 where it names no kind (12.5). -/
def messageLength (kind : Byte) : Nat := if kind = 0 then 16 else if kind = 1 then 12 else if kind = 2 then 12 else 3

/-- The check of a gathered message at its message end (R166). -/
def readMessage (bs : List Byte) : Reading :=
  match bs with
  | m0 :: m1 :: kind :: rest =>
    if bs.length ≠ messageLength kind then .incomplete
    else if m0 ≠ 0x5A ∨ m1 ≠ 0xA5 ∨ 2 < kind.toNat then .framing
    else
      let covered := (bs.drop 2).take (bs.length - 6)
      if word (crc covered) ≠ bs.drop (bs.length - 4) then .check
      else
        let field (o : Nat) : Word := BitVec.ofNat 32 (leNat ((bs.drop o).take 4))
        let station := (rest.headD 0).toNat
        if kind = 0 then .good ⟨station, .receipt (field 4) (field 8)⟩
        else if kind = 1 then .good ⟨station, .resend (field 4)⟩
        else .good ⟨station, .laneTest (field 4)⟩
  | _ => .incomplete

/-! ## Status records (12.2) -/

/-- A completion record. -/
def Completion.record (c : Completion) : List Byte :=
  [1, c.result.code] ++ u16 c.ring ++ word c.tag ++ zeros 8 ++ padTo 48 c.data

/-- A notice record. -/
def noticeRecord (c : Cause) (subject snapshot : Nat) : List Byte :=
  padTo 64 ([2] ++ u8 c.priority ++ u16 subject ++ u16 snapshot)

/-- A timecode, number or byte at its place in a FIND PICTURE result: the record's fields, bytes 0–35. Design choice
(assumption 42): the ring start and the length are 4 bytes each (12.2), and in a ring larger than 4 GiB, which R21 allows, a
larger ring start is given by its low 32 bits. -/
def findFields (base : Nat) (r : PictureRecord) : List Byte :=
  word r.number ++ r.timecode.bytes ++ word r.block ++
  (match r.body with
   | .opening start len => [0, 0, 0, 0] ++ u64 (base + start) ++ u32 start ++ u32 len
   | .published start len q overFlag => [1, 0] ++ u8 q ++ [boolCode overFlag] ++ u64 (base + start) ++ u32 start ++ u32 len
   | .gap cause => [2, cause.code, 0, 0] ++ zeros 16) ++
  u16 r.pins ++ u16 r.sends

/-- Bytes 36–47 of a FIND PICTURE result: the index's record count, oldest and newest numbers. -/
def findIndex (index : List PictureRecord) : List Byte :=
  u16 index.length ++ zeros 2 ++
  (match index.head? with | none => zeros 4 | some r => word r.number) ++
  (match index.getLast? with | none => zeros 4 | some r => word r.number)

/-! ## Load records (12.7) -/

/-- The bytes a load record's check covers: the kind, the length of the fields, the fields. -/
def loadCovered (kind : Byte) (fields : List Byte) : List Byte := [kind] ++ u16 fields.length ++ fields

end Sys2Proof.Machine
end

