-- ==== Sys2Proof/Machine/ClipTable.lean ====
section
/-! DEFINITION. The clip controller's side of events that come from the replay controller and the send
engine: force-close at a picture open (R119), a retirement passing an in point (R121), the reports of a
clip send (R127); and the pins the replay controller keeps for it (R91). -/

namespace Sys2Proof.Machine

/-! ## Pins and send references on a picture index (R91, R92) -/

/-- The record's state can carry pins: OPENING or PUBLISHED. -/
def PictureRecord.pinnable (r : PictureRecord) : Bool :=
  match r.body with | .gap _ => false | _ => true

/-- A picture number lies in a range: at or after the in point and, where there is an out point, at or
before it (7.1). -/
def inRange (inPoint : Word) (outPoint : Option Word) (n : Word) : Bool :=
  atOrAfter n inPoint && (match outPoint with | none => true | some o => atOrAfter o n)

/-- A record of the range with its pin count changed by `f`; other records stand. -/
def PictureRecord.repin (inPoint : Word) (outPoint : Option Word) (f : Nat → Nat) (e : PictureRecord) : PictureRecord :=
  if e.pinnable && inRange inPoint outPoint e.number then { e with pins := f e.pins } else e

/-- One pin added to every OPENING or PUBLISHED record of the range. -/
def Part.addPins (k : Fin 8) (inPoint : Word) (outPoint : Option Word) (p : Part) : Part :=
  p.updRing k fun r => { r with index := r.index.map (PictureRecord.repin inPoint outPoint (· + 1)) }

/-- One pin removed from every OPENING or PUBLISHED record of the range. -/
def Part.removePins (k : Fin 8) (inPoint : Word) (outPoint : Option Word) (p : Part) : Part :=
  p.updRing k fun r => { r with index := r.index.map (PictureRecord.repin inPoint outPoint (· - 1)) }

/-- The record of a picture number. -/
def Ring.find (r : Ring) (n : Word) : Option PictureRecord := r.index.find? fun e => e.number == n

/-- A record changed. -/
def Ring.updRecord (r : Ring) (n : Word) (f : PictureRecord → PictureRecord) : Ring :=
  { r with index := r.index.map fun e => if e.number = n then f e else e }

/-- The outcome of a request for a send reference (R92). -/
inductive TakeResult where
  | taken (r : PictureRecord) (start length : Nat)
  | full | notPublished | gap | absent
  deriving DecidableEq, Repr

/-- What a request for a send reference finds. -/
def Part.referenceOf (p : Part) (k : Fin 8) (n : Word) : TakeResult :=
  match (p.rings.nth k).find n with
  | none => .absent
  | some r =>
    match r.body with
    | .gap _ => .gap
    | .opening _ _ => .notPublished
    | .published start len _ _ => if r.sends < 65535 then .taken r start len else .full

/-- The reference is taken: the record's send count rises by one. -/
def Part.takeReference (k : Fin 8) (n : Word) (p : Part) : Part :=
  p.updRing k fun r => r.updRecord n fun e => { e with sends := e.sends + 1 }

/-- A reference is released. -/
def Part.releaseReference (k : Fin 8) (n : Word) (p : Part) : Part :=
  p.updRing k fun r => r.updRecord n fun e => { e with sends := e.sends - 1 }

/-! ## The clip table -/

/-- A position joins an ascending set, once. -/
def insertPos {n : Nat} (x : Fin n) : List (Fin n) → List (Fin n)
  | [] => [x]
  | y :: rest => if x < y then x :: y :: rest else if x = y then y :: rest else y :: insertPos x rest

/-- A position joins the mirror pending set (R128). -/
def Part.touch (pos : Fin 128) (p : Part) : Part :=
  p.setClips { p.clips with mirror := insertPos pos p.clips.mirror }

/-- The clip record at a position is changed and its position joins the mirror pending set. -/
def Part.editClip (pos : Fin 128) (f : Clip → Clip) (p : Part) : Part :=
  (p.updClip pos fun c => c.map f).touch pos

/-- The position of the clip with a number, if a record holds it. -/
def Part.clipAt (p : Part) (number : Nat) : Option (Fin 128 × Clip) :=
  (List.finRange 128).findSome? fun pos =>
    match p.clips.table.nth pos with
    | some c => if c.number = number then some (pos, c) else none
    | none => none

/-- A clip event: the clip events counter rises and the CLIP notice is raised with the position (R130). -/
def Part.clipEvent (pos : Fin 128) (p : Part) : Part :=
  (p.setClips { p.clips with events := count p.clips.events }).raise .clip pos.val

/-- The cue lines whose open clip is this one lose it (R39). -/
def Part.clearOpenClip (number : Nat) (p : Part) : Part :=
  p.setCues (p.cues.each fun c => if c.openClip = some number then { c with openClip := none } else c)

/-- The closing point of a clip on a camera (7.1): the newest record's number when the index holds a record
at or after the in point, else one before the in point. -/
def Part.closingPoint (p : Part) (k : Fin 8) (inPoint : Word) : Word :=
  if (p.rings.nth k).index.any fun r => atOrAfter r.number inPoint then
    match (p.rings.nth k).index.getLast? with
    | some r => r.number
    | none => inPoint - 1
  else inPoint - 1

/-- The out points that close a clip: the closing point of each camera of its set. -/
def Part.closingPoints (p : Part) (c : Clip) : Table Word 8 :=
  Table.make fun k => if c.cameras.getLsbD k.val then p.closingPoint k (c.inPoints.nth k) else 0

/-- An OPEN clip is force-closed at the open of picture `n` of camera `k` (R119). -/
def Part.forceClose (k : Fin 8) (n : Word) (pos : Fin 128) (c : Clip) (p : Part) : Part :=
  let p1 := p.editClip pos fun c =>
    { c with state := .kept, forced := true, out := some ((p.closingPoints c).put k (n - 1), p.clock.timecode) }
  let p2 := p1.clearOpenClip c.number
  (p2.setClips { p2.clips with forceCloses := count p2.clips.forceCloses }).clipEvent pos

/-- Step 5 of a picture open (R85, R119): every OPEN clip of the camera whose span would pass its length
limit is force-closed, in position order. -/
def Part.forceCloses (k : Fin 8) (n : Word) (p : Part) : Part :=
  (List.finRange 128).foldl (fun p pos =>
    match p.clips.table.nth pos with
    | some c =>
      if c.state = .opened ∧ c.cameras.getLsbD k.val ∧ atOrAfter n (c.inPoints.nth k) ∧ c.limit < spanOf (c.inPoints.nth k) n then
        p.forceClose k n pos c
      else p
    | none => p) p

/-- The number of OPEN clips whose camera set contains the camera (R85 step 6). -/
def Part.openClipsOn (p : Part) (k : Fin 8) : Nat :=
  (p.clips.table.list.filter fun c =>
    match c with | some c => c.state == .opened && c.cameras.getLsbD k.val | none => false).length

/-- A clip goes to LOST: counted and notified (R121, R122). -/
def Part.loseClip (pos : Fin 128) (p : Part) : Part :=
  let p1 := p.editClip pos fun c => { c with state := .lost }
  (p1.setClips { p1.clips with lostClips := count p1.clips.lostClips }).clipEvent pos

/-- The retirement of picture `n` of camera `k` reaches one clip (R121). -/
def Part.retirementReaches (k : Fin 8) (n : Word) (pos : Fin 128) (p : Part) : Part :=
  match p.clips.table.nth pos with
  | none => p
  | some c =>
    if c.cameras.getLsbD k.val && atOrAfter n (c.inPoints.nth k) then
      let p1 :=
        if c.passed.getLsbD k.val then p
        else p.editClip pos fun c => { c with passed := c.passed ||| BitVec.ofNat 8 (2 ^ k.val) }
      if c.state = .loose then p1.loseClip pos else p1
    else p

/-- A retirement is reported to the clip controller (R83, R121). -/
def Part.reportRetirement (k : Fin 8) (n : Word) (p : Part) : Part :=
  (List.finRange 128).foldl (fun p pos => p.retirementReaches k n pos) p

/-! ## The reports of a clip send (R127) -/

/-- What the send engine reports to the clip controller. -/
inductive SendReport where
  | made | finished | failed | cursorDone
  /-- so many numbers of the range at once (R137) -/
  | skipped (numbers : Nat)
  deriving DecidableEq, Repr

/-- A report's effect on the clip record. -/
def SendReport.apply (r : SendReport) (c : Clip) : Clip :=
  match r with
  | .made => { c with outstanding := count c.outstanding }
  | .finished => { c with outstanding := c.outstanding - 1 }
  | .failed => { c with outstanding := c.outstanding - 1, failed := count c.failed }
  | .skipped k => { c with skipped := countBy k c.skipped }
  | .cursorDone => { c with cursors := c.cursors - 1 }

/-- The test for the end of a send (R127): with no cursor running and no item outstanding it ends SENT, or
PARTIAL where an item failed or a picture was skipped. -/
def Part.testSendEnd (pos : Fin 128) (p : Part) : Part :=
  match p.clips.table.nth pos with
  | some c =>
    if c.send = .sending ∧ c.cursors = 0 ∧ c.outstanding = 0 then
      if c.failed = 0 ∧ c.skipped = 0 then p.editClip pos fun c => { c with send := .sent }
      else
        let p1 := p.editClip pos fun c => { c with send := .partly }
        (p1.setClips { p1.clips with partialSends := count p1.clips.partialSends }).clipEvent pos
    else p
  | none => p

/-- The send engine reports to the clip controller; a report whose position does not hold that clip number
in state SENDING is ignored (R127). -/
def Part.reportSend (pos : Fin 128) (number : Nat) (r : SendReport) (p : Part) : Part :=
  match p.clips.table.nth pos with
  | some c =>
    if c.number = number ∧ c.send = .sending then (p.editClip pos r.apply).testSendEnd pos else p
  | none => p

end Sys2Proof.Machine
end

