-- ==== Sys2Proof/Machine/Items.lean ====
section
/-! DEFINITION. The send engine's items, descriptors and cursors as operations (R132–R137, R141–R143,
R148, R149): making an item, ending it, settling a descriptor, returning a frame from a lane, overtaking,
the steps of a cursor, and the start and the end of a build. -/

namespace Sys2Proof.Machine

/-! ## What an item is (8.1) -/

namespace ItemKind

/-- The class the kind fixes. -/
def cls : ItemKind → SendClass
  | .audioFrame .. => .audio
  | .livePicture .. => .live
  | .label .. => .label
  | .clipPicture .. => .clip

/-- The picture the item names, on which it holds a send reference. -/
def picture : ItemKind → Option (Fin 8 × Word)
  | .livePicture k n => some (k, n)
  | .clipPicture _ _ _ k n => some (k, n)
  | _ => none

/-- The clip position and number the item's ends are reported to. -/
def link : ItemKind → Option (Fin 128 × Nat)
  | .label pos clip _ => some (pos, clip)
  | .clipPicture pos clip _ _ _ => some (pos, clip)
  | _ => none

end ItemKind

/-- The places of each class queue (chapter 8). -/
def SendClass.capacity : SendClass → Nat
  | .audio => 32 | .live => 32 | .label => 16 | .clip => 16

/-- The items in a class queue, head first. -/
def Sender.queueOf (s : Sender) (c : SendClass) : List Item :=
  s.items.filter fun i => i.queued && i.kind.cls == c

/-- An item changed. -/
def Part.updItem (id : Nat) (f : Item → Item) (p : Part) : Part :=
  p.setSender { p.sender with items := p.sender.items.map fun i => if i.id = id then f i else i }

/-- The item of a name. -/
def Sender.item (s : Sender) (id : Nat) : Option Item := s.items.find? fun i => i.id == id

/-- The class of a class number changed by `f`. -/
def Part.onClass (c : SendClass) (f : ClassRecord → ClassRecord) (p : Part) : Part := p.updClass c.index f

/-- A loss of a class: its loss counter rises and the SEND notice is raised (R153). -/
def Part.lossOf (c : SendClass) (p : Part) : Part :=
  (p.onClass c fun r => { r with losses := count r.losses }).raise .send c.index.val

/-! ## The end of an item (R134) -/

/-- The cursor an ending CLIP PICTURE belonged to has one item fewer outstanding, if it still walks that
clip on that camera. -/
def Part.cursorItemEnded (kind : ItemKind) (p : Part) : Part :=
  match kind with
  | .clipPicture pos clip cursor cam _ =>
    p.setSender { p.sender with cursors := p.sender.cursors.upd cursor fun c =>
      match c with
      | some c =>
        if c.pos = pos ∧ c.clip = clip ∧ c.cam = cam then some { c with outstanding := c.outstanding - 1 } else some c
      | none => none }
  | _ => p

/-- The item's send reference, if it holds one, is released. -/
def Part.releaseItem (kind : ItemKind) (p : Part) : Part :=
  match kind.picture with
  | some (k, n) => p.releaseReference k n
  | none => p

/-- A report about an item to the clip controller, if its clip link is present. -/
def Part.reportItem (i : Item) (r : SendReport) (p : Part) : Part :=
  match i.kind.link with
  | some (pos, clip) => if i.linked then p.reportSend pos clip r else p
  | none => p

/-- An item ends: reference, counter, report, cursor, removal, in this order (R134). -/
def Part.endItem (i : Item) (p : Part) : Part :=
  let p1 := p.releaseItem i.kind
  let p2 := p1.onClass i.kind.cls fun r =>
    if i.failed then { r with failed := count r.failed } else { r with finished := count r.finished }
  let p3 := p2.reportItem i (if i.failed then .failed else .finished)
  let p4 := p3.cursorItemEnded i.kind
  p4.setSender { p4.sender with items := p4.sender.items.filter fun j => j.id != i.id }

/-- An item ends if it has no fragment left in its queue and every fragment it dispatched is settled. -/
def Part.testItemEnd (id : Nat) (p : Part) : Part :=
  match p.sender.item id with
  | some i => if !i.queued ∧ i.settled = i.dispatched then p.endItem i else p
  | none => p

/-- An item's undispatched fragments are dropped: it fails and leaves its queue, and it ends at once if
nothing it dispatched is unsettled (R134). -/
def Part.dropFromQueue (id : Nat) (p : Part) : Part :=
  (p.updItem id fun i => { i with queued := false, failed := true }).testItemEnd id

/-! ## Making an item (R132, R133) -/

/-- An older LIVE item of the camera that has not begun dispatch makes way (R133 step 1). -/
def Part.replaceLive (k : Fin 8) (p : Part) : Part :=
  match p.sender.items.find? fun i =>
      i.queued && i.dispatched == 0 && (match i.kind with | .livePicture k' _ => k' == k | _ => false) with
  | none => p
  | some i =>
    let p1 := (p.releaseItem i.kind).onClass .live fun r => { r with replaced := count r.replaced }
    p1.setSender { p1.sender with items := p1.sender.items.filter fun j => j.id != i.id }

/-- The item's place, size and length as its making event fixes them (R132). -/
structure Payload where
  address : Nat
  ringBase : Nat
  ringSize : Nat
  length : Nat
  deriving DecidableEq, Repr

/-- The payload of a picture whose record starts at a ring offset of its camera's extent. -/
def Ring.payload (r : Ring) (start length : Nat) : Payload :=
  match r.extent with
  | some (base, size) => ⟨base + start, base, size, length⟩
  | none => ⟨start, 0, 0, length⟩

/-- The payload of an item that names no picture. -/
def ItemKind.payload : ItemKind → Payload
  | .audioFrame _ first blocks slot0 ring =>
    ⟨slot0 + Config.blockBytes * (first.toNat % ring), slot0, Config.blockBytes * ring, Config.blockBytes * blocks⟩
  | .label _ _ snapshot => ⟨0, 0, 0, snapshot.length⟩
  | .livePicture .. | .clipPicture .. => ⟨0, 0, 0, 0⟩

/-- The item is appended at the tail of its class queue (R133 step 4). -/
def Part.queueItem (kind : ItemKind) (pl : Payload) (p : Part) : Part :=
  let cls := kind.cls
  let hold := (p.sender.classes.nth cls.index).hold * Config.ms
  let item : Item :=
    { id := p.sender.nextItem, kind := kind, queued := true,
      address := pl.address, ringBase := pl.ringBase, ringSize := pl.ringSize, length := pl.length,
      fragments := unitsOf Config.fragmentBytes pl.length, dispatched := 0, settled := 0, failed := false,
      made := p.now, stale := p.now + hold, linked := kind.link.isSome }
  (p.setSender { p.sender with items := p.sender.items ++ [item], nextItem := p.sender.nextItem + 1 }).onClass cls
    fun r => { r with made := count r.made }

/-- A new item is dropped at a full class queue (R133 step 2). -/
def Part.dropFull (cls : SendClass) (p : Part) : Part :=
  (p.onClass cls fun r => { r with droppedFull := count r.droppedFull }).lossOf cls

/-- A producer hands over an item: replacement, capacity, reference, queueing (R133). -/
def Part.makeItem (kind : ItemKind) (p : Part) : Part :=
  let p1 := match kind with | .livePicture k _ => p.replaceLive k | _ => p
  if (p1.sender.queueOf kind.cls).length < kind.cls.capacity then
    match kind.picture with
    | none => p1.queueItem kind kind.payload
    | some (k, n) =>
      match p1.referenceOf k n with
      | .taken _ start length => (p1.takeReference k n).queueItem kind ((p1.rings.nth k).payload start length)
      | _ => p1
  else p1.dropFull kind.cls

/-- The LABEL item of SEND CLIP: reported made, and failed at the same event if it is dropped (R126, R133). -/
def Part.makeLabel (pos : Fin 128) (clip : Nat) (snapshot : List Byte) (p : Part) : Part :=
  let full := decide (SendClass.label.capacity ≤ (p.sender.queueOf .label).length)
  let p1 := (p.makeItem (.label pos clip snapshot)).reportSend pos clip .made
  if full then p1.reportSend pos clip .failed else p1

/-! ## The resend store (8.4) -/

/-- A descriptor changed. -/
def Part.updDesc (seq : Word) (f : Descriptor → Descriptor) (p : Part) : Part :=
  p.setSender { p.sender with store := p.sender.store.map fun d => if d.seq = seq then f d else d }

/-- A descriptor removed. -/
def Part.removeDesc (seq : Word) (p : Part) : Part :=
  p.setSender { p.sender with store := p.sender.store.filter fun d => d.seq != seq }

/-- The unsettled descriptor of a sequence number (R142: a settled one is treated as absent). -/
def Sender.unsettled (s : Sender) (seq : Word) : Option Descriptor :=
  s.store.find? fun d => d.seq == seq && d.mark.isNone

/-- The frame of a descriptor is taken out of its lane's transmit queue (R154). -/
def Part.unqueueFrame (seq : Word) (p : Part) : Part :=
  p.setLanes (p.lanes.each fun l => { l with queue := l.queue.filter fun f => f.kind != .link seq })

/-- A fragment of an item is settled; the item fails unless it was receipted. -/
def Part.fragmentSettled (id : Nat) (m : Settlement) (p : Part) : Part :=
  (p.updItem id fun i => { i with settled := i.settled + 1, failed := i.failed || m != .receipted }).testItemEnd id

/-- A descriptor is settled: in BUILDING and TRANSMITTING it keeps its place with its mark, in every other
state it is removed; then its item counts the fragment (R142, R145, R148, R149). -/
def Part.settleDesc (d : Descriptor) (m : Settlement) (p : Part) : Part :=
  let p1 :=
    match d.state with
    | .building | .transmitting => p.updDesc d.seq fun d => { d with mark := some m }
    | .queuedOnLane => (p.unqueueFrame d.seq).removeDesc d.seq
    | .awaitingReceipt | .waiting => p.removeDesc d.seq
  p1.fragmentSettled d.item m

/-- A lane returns a frame (R143): a settled descriptor is removed, one with the no-resend flag is settled
DROPPED and removed, any other goes to WAITING and joins the re-dispatch list. -/
def Part.returnFrame (seq : Word) (p : Part) : Part :=
  match p.sender.store.find? fun d => d.seq == seq with
  | none => p
  | some d =>
    if d.mark.isSome then p.removeDesc seq
    else if d.noResend then (p.removeDesc seq).fragmentSettled d.item .dropped
    else p.updDesc seq fun d => { d with state := .waiting, lane := none }

/-- A lane returns its frames, oldest first; ECHO frames are removed (R160, R164). -/
def Part.returnFrames (fs : List TxFrame) (p : Part) : Part :=
  fs.foldl (fun p f => match f.kind with | .link seq => p.returnFrame seq | .echo _ => p) p

/-! ## Overtaking (R149) -/

/-- The item names the bus and covers the block. -/
def Item.coversBlock (i : Item) (bus : Fin 16) (m : Word) : Bool :=
  match i.kind with
  | .audioFrame b first blocks _ _ => b == bus && decide ((m - first).toNat < blocks)
  | _ => false

/-- One descriptor of an overtaken item (R149). -/
def Part.overtakeDesc (d : Descriptor) (p : Part) : Part :=
  if d.mark.isSome then p
  else match d.state with
    | .building | .waiting => p.settleDesc d .dropped
    | .queuedOnLane | .transmitting | .awaitingReceipt => p.updDesc d.seq fun d => { d with noResend := true }

/-- An AUDIO FRAME item is overtaken (R149). -/
def Part.overtakeItem (i : Item) (p : Part) : Part :=
  let p1 := p.onClass .audio fun r => { r with overtaken := count r.overtaken }
  let p2 := p1.lossOf .audio
  let p3 := p2.updItem i.id fun i => { i with queued := false, failed := true }
  let p4 := (p3.sender.store.filter fun d => d.item == i.id).foldl (fun p d => p.overtakeDesc d) p3
  p4.testItemEnd i.id

/-- The mixer reports block `m` of a bus overtaken (R109). -/
def Part.overtaken (bus : Fin 16) (m : Word) (p : Part) : Part :=
  (p.sender.items.filter fun i => i.coversBlock bus m).foldl (fun p i => p.overtakeItem i) p

/-! ## Clip cursors (R136, R137) -/

/-- What a cursor can do next. -/
inductive CursorMove where
  | done
  /-- so many numbers are no longer in the index; go on from here -/
  | skip (numbers : Nat) (next : Word)
  /-- pass over gaps and lost numbers; go on from here -/
  | pass (next : Word)
  | make (number : Word)
  | wait
  deriving DecidableEq, Repr

/-- The step a cursor is able to make (R137). -/
def Part.cursorMove (p : Part) (c : Cursor) : CursorMove :=
  if laterThan c.next c.outPoint then .done
  else if Config.cursorItemMax ≤ c.outstanding then .wait
  else
    let index := (p.rings.nth c.cam).index
    match index with
    | [] => .skip (spanOf c.next c.outPoint) (c.outPoint + 1)
    | oldest :: _ =>
      if !atOrAfter c.next oldest.number then
        if atOrAfter c.outPoint oldest.number then .skip (oldest.number - c.next).toNat oldest.number
        else .skip (spanOf c.next c.outPoint) (c.outPoint + 1)
      else
        match index.find? fun r => atOrAfter r.number c.next with
        | none => .wait
        | some r =>
          if laterThan r.number c.outPoint then .pass (c.outPoint + 1)
          else match r.body with
            | .gap _ => .pass (r.number + 1)
            | .opening _ _ => .wait
            | .published .. =>
              if (p.sender.queueOf .clip).length < SendClass.clip.capacity ∧ r.sends < 65535 then .make r.number
              else .wait

/-- A cursor replaced. -/
def Part.putCursor (i : Fin 8) (c : Option Cursor) (p : Part) : Part :=
  p.setSender { p.sender with cursors := p.sender.cursors.put i c }

/-- A cursor's steps that pass numbers or finish the range, until it can make none (R137). -/
def Part.cursorPasses (i : Fin 8) : Nat → Part → Part
  | 0, p => p
  | fuel + 1, p =>
    match p.sender.cursors.nth i with
    | none => p
    | some c =>
      match p.cursorMove c with
      | .done => (p.reportSend c.pos c.clip .cursorDone).putCursor i none
      | .skip n next => Part.cursorPasses i fuel ((p.reportSend c.pos c.clip (.skipped n)).putCursor i (some { c with next := next }))
      | .pass next => Part.cursorPasses i fuel (p.putCursor i (some { c with next := next }))
      | .make _ | .wait => p

/-- A cursor makes one CLIP PICTURE item if it is able to (R137). -/
def Part.cursorMakes (i : Fin 8) (p : Part) : Part :=
  match p.sender.cursors.nth i with
  | none => p
  | some c =>
    match p.cursorMove c with
    | .make n =>
      ((p.makeItem (.clipPicture c.pos c.clip i c.cam n)).reportSend c.pos c.clip .made).putCursor i
        (some { c with next := n + 1, outstanding := c.outstanding + 1 })
    | _ => p

/-- A cursor's turn: it passes what it can, then makes one item if it is able to. The number of passing
steps is bounded by the records of its camera's index. -/
def Part.cursorTurn (p : Part) (i : Fin 8) : Part :=
  match p.sender.cursors.nth i with
  | none => p
  | some c => (p.cursorPasses i ((p.rings.nth c.cam).index.length + 3)).cursorMakes i

/-- One item each in ascending cursor number. -/
def Part.cursorRound (p : Part) : Part := (List.finRange 8).foldl Part.cursorTurn p

/-- Every cursor steps while it is able to (R137): rounds until the CLIP queue's 16 places and the four items
a cursor may have outstanding leave no more to make, and one more round for the passing steps. -/
def Part.cursorRounds : Nat → Part → Part
  | 0, p => p
  | n + 1, p => Part.cursorRounds n p.cursorRound

def Part.stepCursors (p : Part) : Part := p.cursorRounds 6

/-- The cursors not in use, lowest-numbered first. -/
def Sender.freeCursors (s : Sender) : List (Fin 8) := (List.finRange 8).filter fun i => (s.cursors.nth i).isNone

/-- SEND CLIP takes a free cursor for each camera of the clip, in ascending camera order (R136). -/
def Part.takeCursors (pos : Fin 128) (c : Clip) (outs : Table Word 8) (p : Part) : Part :=
  ((camerasOf c.cameras).zip p.sender.freeCursors).foldl (fun p x =>
    p.putCursor x.2 (some ⟨pos, c.number, x.1, c.inPoints.nth x.1, outs.nth x.1, 0⟩)) p

/-! ## DELETE CLIP's effect on a send (R136) -/

/-- The item belongs to the clip. -/
def Item.ofClip (i : Item) (pos : Fin 128) (clip : Nat) : Bool := i.linked && i.kind.link == some (pos, clip)

/-- One item of a deleted clip (R134, R136): without its link from here on, it is reported no more. Still queued, it
loses its undispatched fragments, fails, and ends at once if it has not begun dispatch (assumption 37); otherwise its
frames run on. -/
def Part.orphanItem (i : Item) (p : Part) : Part :=
  let p1 := p.updItem i.id fun i => { i with linked := false }
  if i.queued then p1.dropFromQueue i.id else p1

/-- DELETE CLIP of a clip that is SENDING frees its cursors and lets its items go (R136). -/
def Part.cancelSend (pos : Fin 128) (clip : Nat) (p : Part) : Part :=
  let p1 := p.setSender { p.sender with cursors := p.sender.cursors.each fun c =>
    match c with
    | some c => if c.pos = pos ∧ c.clip = clip then none else some c
    | none => none }
  (p1.sender.items.filter fun i => i.ofClip pos clip).foldl (fun p i => p.orphanItem i) p1

/-! ## Builds (R138–R141) -/

/-- The re-dispatch list: the WAITING descriptors, earliest sequence number first. -/
def Sender.redispatch (s : Sender) : List Descriptor := s.store.filter fun d => d.state == .waiting && d.mark.isNone

/-- The classes whose queues hold an item, by number. -/
def Sender.busyClasses (s : Sender) : List (Fin 4) :=
  (List.finRange 4).filter fun c => !(s.queueOf (SendClass.ofIndex c)).isEmpty

/-- The class of the next new frame (R139). -/
def Sender.chooseClass (s : Sender) : Option (Fin 4) :=
  let overdue := s.busyClasses.filter fun c => decide ((s.classes.nth c).interval ≤ (s.classes.nth c).wait)
  if overdue.isEmpty then
    preferred (fun a b => decide ((s.classes.nth a).interval < (s.classes.nth b).interval)) s.busyClasses
  else
    preferred (fun a b => decide ((s.classes.nth b).wait - (s.classes.nth b).interval <
      (s.classes.nth a).wait - (s.classes.nth a).interval)) overdue

/-- The wait counts as the start of a new frame's build changes them (R139). -/
def Part.classGranted (c : Fin 4) (p : Part) : Part :=
  let busy := p.sender.busyClasses
  p.setSender { p.sender with classes := Table.make fun i =>
    let r := p.sender.classes.nth i
    if i = c then { r with wait := 0 } else if i ∈ busy then { r with wait := count r.wait } else r }

/-- The length of fragment `k` of an item (8.1). -/
def Item.fragmentLength (i : Item) (k : Nat) : Nat := min Config.fragmentBytes (i.length - Config.fragmentBytes * k)

/-- Where fragment `k` of an item lies: none for a LABEL, which the engine holds. -/
def Item.fragmentSpans (i : Item) (k : Nat) : List (Nat × Nat) :=
  match i.kind with
  | .label .. => []
  | _ =>
    ringSpans i.ringBase i.ringSize ((i.address - i.ringBase + Config.fragmentBytes * k) % i.ringSize) (i.fragmentLength k)

/-- The bytes of fragment `k` of a LABEL. -/
def Item.fragmentHeld (i : Item) (k : Nat) : List Byte :=
  match i.kind with
  | .label _ _ snapshot => (snapshot.drop (Config.fragmentBytes * k)).take Config.fragmentBytes
  | _ => []

/-! ## Beginning a transmission (R161) -/

/-- The lane may begin a transmission (R161). -/
def Lane.mayTransmit (l : Lane) : Bool := l.state == .up && !l.modemHold && l.sending.isNone && l.breakEnd.isNone

/-- The oldest queued frame begins, if the lane may begin one (R161). Every event that may be the first to make R161's
conditions hold ends with this operation, so that a transmission begins at that same event. -/
def Part.transmitStart (l : Fin 4) (p : Part) : Part :=
  let r := p.lanes.nth l
  match r.queue with
  | [] => p
  | f :: rest =>
    if r.mayTransmit then
      let p1 := p.updLane l fun r => { r with queue := rest, sending := some (f, p.now + 8 * f.length * r.bitPeriod) }
      match f.kind with
      | .link seq => p1.updDesc seq fun d => { d with state := .transmitting }
      | .echo _ => p1
    else p

/-- A frame joins a lane's transmit queue, and begins at once if the lane is idle (R161). -/
def Part.queueFrame (l : Fin 4) (f : TxFrame) (p : Part) : Part :=
  (p.updLane l fun r => { r with queue := r.queue ++ [f] }).transmitStart l

/-- Build complete (R141): a settled descriptor is removed; on an UP lane the frame joins the transmit
queue (and begins there if the lane is idle, R161); otherwise the descriptor joins the re-dispatch list. -/
def Part.buildComplete (seq : Word) (lane : Fin 4) (got : List Byte) (p : Part) : Part :=
  let p1 := p.setSender { p.sender with build := none }
  match p1.sender.store.find? fun d => d.seq == seq with
  | none => p1
  | some d =>
    if d.mark.isSome then p1.removeDesc seq
    else if (p1.lanes.nth lane).state = .up then
      match p1.sender.item d.item with
      | none => p1.removeDesc seq
      | some i =>
        (p1.updDesc seq fun d => { d with state := .queuedOnLane }).queueFrame lane
          ⟨.link seq, linkFrame p1.loader.station d i.kind got⟩
    else p1.updDesc seq fun d => { d with state := .waiting, lane := none }

/-- The next read of a build is offered on the SENDER stream, or the build is complete. -/
def Part.buildNext (seq : Word) (lane : Fin 4) (reads : List (Nat × Nat)) (got : List Byte) (p : Part) : Part :=
  match nextRead reads with
  | none => p.buildComplete seq lane got
  | some (r, cur, left) =>
    (p.setSender { p.sender with build := some ⟨seq, lane, left, cur, got⟩ }).offer senderStream r

/-- A transfer of the SENDER stream completes with its data (R141). -/
def Part.senderTransfer (data : List Byte) (p : Part) : Part :=
  match p.sender.build with
  | none => p
  | some b => p.buildNext b.seq b.lane b.reads (b.got ++ spanData b.current data)

/-- A build of a WAITING descriptor starts, bound to a lane (R141). -/
def Part.startRedispatch (d : Descriptor) (l : Fin 4) (p : Part) : Part :=
  (p.updDesc d.seq fun d => { d with state := .building, lane := some l }).buildNext d.seq l d.spans d.held

/-- A build of the next fragment of an item starts, bound to a lane (R139, R141). -/
def Part.startFragment (c : Fin 4) (i : Item) (l : Fin 4) (p : Part) : Part :=
  let p1 := p.classGranted c
  let k := i.dispatched
  let hold := (p1.sender.classes.nth c).hold * Config.ms
  let d : Descriptor :=
    { seq := p1.sender.seq, item := i.id, cls := i.kind.cls, fragment := k, fragments := i.fragments,
      spans := i.fragmentSpans k, held := i.fragmentHeld k,
      frameLength := i.fragmentLength k + Config.frameOverhead, lane := some l, state := .building,
      mark := none, dispatches := 1, expiry := p1.now + hold, noResend := false }
  let p2 := p1.setSender { p1.sender with store := p1.sender.store ++ [d], seq := p1.sender.seq + 1 }
  let p3 := p2.updItem i.id fun i => { i with dispatched := i.dispatched + 1, queued := decide (k + 1 < i.fragments) }
  p3.buildNext d.seq l d.spans d.held

/-- The send engine starts a build if one of the two cases holds (R138). -/
def Part.startBuild (p : Part) : Part :=
  if p.sender.build.isSome then p
  else match p.sender.redispatch with
    | d :: _ =>
      match p.laneFor d.frameLength with
      | some l => p.startRedispatch d l
      | none => p
    | [] =>
      if p.sender.store.length < Config.storeMax then
        match p.sender.chooseClass with
        | none => p
        | some c =>
          match (p.sender.queueOf (SendClass.ofIndex c)).head? with
          | none => p
          | some i =>
            match p.laneFor (i.fragmentLength i.dispatched + Config.frameOverhead) with
            | some l => p.startFragment c i l
            | none => p
      else p

end Sys2Proof.Machine
end

