-- ==== Sys2Proof/Machine/Mixer.lean ====
section
/-! DEFINITION. Sound sources and the mixer (chapter 6): samples, fresh slots, the mix pass from its block
tick to its completion, and the commands of sources, buses, gains and the mixer. -/

namespace Sys2Proof.Machine

/-! ## Samples (R96, R108) -/

/-- The sample value of a source's word at its width (R96). -/
def sampleOf (width : Nat) (w : Word) : Int :=
  let v := w.toInt / 256
  if width = 24 then v else if width = 20 then v - v % 16 else v - v % 256

/-- The word the mixer writes for a sample value (R96). -/
def sampleWord (v : Int) : Word := BitVec.ofInt 32 (v * 256)

/-- The sample values of a block's bytes. -/
def blockSamples (width : Nat) (bs : List Byte) : List Int :=
  (List.range 48).map fun i => sampleOf width (BitVec.ofNat 32 (leNat ((bs.drop (4 * i)).take 4)))

/-- The bytes of an output block. -/
def blockOf (samples : List Int) : List Byte := samples.flatMap fun v => word (sampleWord v)

/-- A sum scaled by 16,384 toward minus infinity. -/
def scaled (v : Int) : Int := v / (2 ^ Config.gainShift : Int)

/-- The clamp of R108 step 4. -/
def clampSample (v : Int) : Int := if v < Config.sampleMin then Config.sampleMin else if Config.sampleMax < v then Config.sampleMax else v

/-- One output sample before its clamp (R108 steps 1 to 3). -/
def mixSample (gains : List (Fin 64 × Nat)) (samples : List (Fin 64 × List Int)) (master i : Nat) : Int :=
  let total := (gains.map fun g =>
    match samples.find? fun x => x.1 == g.1 with
    | some x => x.2.getD i 0 * (g.2 : Int)
    | none => 0).foldl (· + ·) 0
  scaled (scaled total * (master : Int))

/-- The 48 unclamped output samples of a bus. -/
def mixBlock (b : BusSnapshot) (samples : List (Fin 64 × List Int)) : List Int :=
  (List.range 48).map (mixSample b.gains samples b.cfg.master)

/-- The peak meter after a block (R108). -/
def peakAfter (peak : Nat) (block : List Int) : Nat := block.foldl (fun m v => max m v.natAbs) peak

/-- How many samples the clamp changes. -/
def clippedIn (block : List Int) : Nat := (block.filter fun v => clampSample v != v).length

/-! ## Sources (R99) -/

/-- The slot of a source's ring whose last line starts at a window offset. -/
def slotEndingAt (off : Nat) : Option Nat := if off % Config.blockBytes = 128 then some (off / Config.blockBytes) else none

/-- A block has been written into slot `k` of a source (R99). -/
def Part.blockWritten (s : Fin 64) (k : Nat) (p : Part) : Part :=
  if (p.mixer.sources.nth s).fresh.getLsbD k then
    (p.updSource s fun r => { r with overruns := count r.overruns }).raise .mix s.val
  else p.updSource s fun r => { r with fresh := r.fresh ||| BitVec.ofNat 64 (2 ^ k) }

/-- A performed write in a SOUND window is shown to the mixer (R99). -/
def Part.soundWrite (w : Fin 32) (r : Request) (p : Part) : Part :=
  let win := p.path.windows.nth w
  if h : win.subject < 64 then
    let s : Fin 64 := ⟨win.subject, h⟩
    let c := (p.mixer.sources.nth s).cfg
    if c.on ∧ c.win = w then
      (List.range r.count).foldl (fun p l =>
        let a := r.first + Config.lineBytes * l
        match slotEndingAt (a - win.base) with
        | some k => if k < c.ring ∧ r.covers a Config.lineBytes then p.blockWritten s k else p
        | none => p) p
    else p
  else p

/-! ## The start of a pass (R106) -/

/-- A contribution after its ramp step. -/
def Contribution.ramped (c : Contribution) : Contribution :=
  if c.current < c.target then { c with current := min (c.current + c.step) c.target }
  else if c.target < c.current then { c with current := max (c.current - c.step) c.target }
  else c

/-- The slot a pass for block `n` chooses of a source. -/
def SourceSettings.slotFor (c : SourceSettings) (n : Word) : Nat := (n.toNat + c.offset) % c.ring

/-- A fresh flag cleared. -/
def clearFresh (f : BitVec 64) (k : Nat) : BitVec 64 := f &&& ~~~ BitVec.ofNat 64 (2 ^ k)

/-- The bus settings a pass works from (R106 step 2). -/
def Part.busSnapshot (p : Part) (b : Bus) : BusSnapshot :=
  ⟨b.cfg, (p.path.windows.nth b.cfg.win).base, b.contributions.map fun c => (c.source, c.current)⟩

/-- The source settings a pass works from. -/
def Part.sourceSnapshot (p : Part) (s : Source) : SourceSnapshot := ⟨s.cfg, (p.path.windows.nth s.cfg.win).base⟩

/-- A source has an entry in the list of an ACTIVE bus of the snapshot. -/
def inActiveBus (buses : Table BusSnapshot 16) (s : Fin 64) : Bool :=
  buses.list.any fun b => b.cfg.active && b.gains.any fun g => g.1 == s

/-- The plan's step for one source: used, it is tested and read or silent; ON and unused, its slot is drained
(R106 steps 3 and 4). -/
def Part.planSource (n : Word) (buses : Table BusSnapshot 16) (acc : List (Fin 64 × Nat × Bool) × Part) (s : Fin 64) :
    List (Fin 64 × Nat × Bool) × Part :=
  let (plan, p) := acc
  let r := p.mixer.sources.nth s
  if r.cfg.on then
    let k := r.cfg.slotFor n
    if inActiveBus buses s then
      if r.fresh.getLsbD k then
        (plan ++ [(s, k, true)], p.updSource s fun r => { r with fresh := clearFresh r.fresh k })
      else (plan ++ [(s, k, false)], (p.updSource s fun r => { r with late := count r.late }).raise .mix s.val)
    else (plan, p.updSource s fun r => { r with fresh := clearFresh r.fresh k })
  else (plan, p)

def Part.setPass (x : Option Pass) (p : Part) : Part := p.setMixer { p.mixer with pass := x }

/-! ## The mix event (R107 to R109) -/

/-- The bus's block is computed and metered (R108). -/
def Part.meterBus (b : Fin 16) (block : List Int) (p : Part) : Part :=
  p.updBus b fun r =>
    { r with peak := peakAfter r.peak (block.map clampSample), clips := countBy (clippedIn block) r.clips }

/-- An output slot record takes a block number, in ascending slot. -/
def putSlotRecord (k : Nat) (n : Word) : List (Nat × Word) → List (Nat × Word)
  | [] => [(k, n)]
  | (j, m) :: rest => if k < j then (k, n) :: (j, m) :: rest else if k = j then (k, n) :: rest else (j, m) :: putSlotRecord k n rest

/-- The block number an output slot record holds. -/
def slotRecord (slots : List (Nat × Word)) (k : Nat) : Option Word := (slots.find? fun x => x.1 == k).map (·.2)

/-- Writing block `n` overtakes the block its slot held, and the slot record takes `n` (R109). -/
def Part.overtakeSlot (n : Word) (ring : Nat) (b : Fin 16) (p : Part) : Part :=
  let k := n.toNat % ring
  let p1 := match slotRecord (p.mixer.buses.nth b).slots k with
    | some m => p.overtaken b m
    | none => p
  p1.updBus b fun r => { r with slots := putSlotRecord k n r.slots }

/-- The buses a pass computes, in ascending number. -/
def Pass.active (q : Pass) : List (Fin 16) := (List.finRange 16).filter fun b => (q.buses.nth b).cfg.active

/-- The first byte of a bus's output block. -/
def Pass.outputAt (q : Pass) (b : Fin 16) : Nat :=
  (q.buses.nth b).base + Config.blockBytes * (q.block.toNat % (q.buses.nth b).cfg.ring)

/-! ## The completion of a pass (R110) -/

/-- The bus hands an item at this pass: ACTIVE and sending in the snapshot and in the record, at a block its
divider selects. -/
def Pass.sends (q : Pass) (b : Fin 16) (now : BusSettings) : Bool :=
  let c := (q.buses.nth b).cfg
  c.active && c.send && now.active && now.send && (q.block.toNat + 1) % c.divider == 0

/-- The output slot records hold all the blocks of the item. -/
def Pass.holdsAll (q : Pass) (b : Fin 16) (slots : List (Nat × Word)) : Bool :=
  let c := (q.buses.nth b).cfg
  (List.range c.divider).all fun i =>
    let k := q.block.toNat + 1 - c.divider + i
    slotRecord slots (k % c.ring) == some (BitVec.ofNat 32 k)

/-- One bus's audio item, or its short frame (R110 step 1). -/
def Part.handAudio (q : Pass) (p : Part) (b : Fin 16) : Part :=
  let r := p.mixer.buses.nth b
  if q.sends b r.cfg then
    let c := (q.buses.nth b).cfg
    if q.holdsAll b r.slots then
      (p.makeItem (.audioFrame b (BitVec.ofNat 32 (q.block.toNat + 1 - c.divider)) c.divider (q.buses.nth b).base c.ring)).updBus b
        fun r => { r with itemsHanded := count r.itemsHanded }
    else p.updBus b fun r => { r with shortFrames := count r.shortFrames }
  else p

/-- Leaving entries at gain 0 are removed (R110 step 2). -/
def Bus.dropLeaving (b : Bus) : Bus :=
  { b with contributions := b.contributions.filter fun c => !(c.leaving && c.current == 0) }

/-- The completion of a pass (R110). -/
def Part.passComplete (q : Pass) (p : Part) : Part :=
  let p1 := (List.finRange 16).foldl (Part.handAudio q) p
  (p1.setMixer { p1.mixer with buses := p1.mixer.buses.each Bus.dropLeaving }).setPass none

/-- The next output write is offered, or the pass completes (R109). -/
def Part.writeNext (q : Pass) (writes : List (Nat × List Byte)) (p : Part) : Part :=
  match writes with
  | [] => p.passComplete q
  | (a, bs) :: _ => (p.setPass (some { q with phase := .writing, toWrite := writes })).offer mixerStream (writeRequest a bs)

/-- The mix event (R107, R108, R109). -/
def Part.mixEvent (q : Pass) (p : Part) : Part :=
  let blocks := q.active.map fun b => (b, mixBlock (q.buses.nth b) q.samples)
  let p1 := blocks.foldl (fun p x => p.meterBus x.1 x.2) p
  let p2 := q.active.foldl (fun p b => p.overtakeSlot q.block (q.buses.nth b).cfg.ring b) p1
  p2.writeNext { q with phase := .writing } (blocks.map fun x => (q.outputAt x.1, blockOf (x.2.map clampSample)))

/-- The next source read is offered, or the mix event follows (R107). -/
def Part.readNext (q : Pass) (reads : List (Fin 64 × Nat)) (p : Part) : Part :=
  match reads with
  | [] => p.mixEvent { q with toRead := [] }
  | (s, k) :: _ =>
    (p.setPass (some { q with toRead := reads })).offer mixerStream
      (readRequest ((q.sources.nth s).base + Config.blockBytes * k) Config.blockBytes)

/-- The tick for block `n` starts a pass (R106). -/
def Part.startPass (n : Word) (p : Part) : Part :=
  let p1 := p.setMixer { p.mixer with buses := p.mixer.buses.each fun b => { b with contributions := b.contributions.map Contribution.ramped } }
  let buses := p1.mixer.buses.each p1.busSnapshot
  let sources := p1.mixer.sources.each p1.sourceSnapshot
  let (plan, p2) := (List.finRange 64).foldl (Part.planSource n buses) ([], p1)
  let reads := plan.filterMap fun x => if x.2.2 then some (x.1, x.2.1) else none
  p2.readNext ⟨n, .reading, buses, sources, plan, reads, [], []⟩ reads

/-- A block tick carrying number `n` reaches the mixer (R105). -/
def Part.mixerTick (n : Word) (p : Part) : Part :=
  match p.mixer.state, p.mixer.pass with
  | .running, none => p.startPass n
  | .running, some _ => (p.setMixer { p.mixer with lateTicks := count p.mixer.lateTicks }).raise .mix 64
  | _, _ => p

/-- A transfer of the MIXER stream completes, a read with its data (R107, R109). -/
def Part.mixerTransfer (data : List Byte) (p : Part) : Part :=
  match p.mixer.pass with
  | none => p
  | some q =>
    match q.phase with
    | .reading =>
      match q.toRead with
      | [] => p
      | (s, _) :: rest =>
        p.readNext { q with samples := q.samples ++ [(s, blockSamples (q.sources.nth s).cfg.width data)] } rest
    | .writing => p.writeNext q q.toWrite.tail

/-! ## The commands of sources and buses (R98, R101 to R103) -/

/-- The fields of SET SOURCE or of an image's source entry, in range (R98 test 1). -/
def sourceFields (state window : Byte) (ring : Half) (offset width : Byte) : Option SourceSettings :=
  match stateOf state, objectOf 32 window with
  | some on, some w =>
    if 4 ≤ ring.toNat ∧ ring.toNat ≤ 64 ∧ offset.toNat < ring.toNat ∧ (width = 16 ∨ width = 20 ∨ width = 24) then
      some ⟨on, w, ring.toNat, offset.toNat, width.toNat⟩
    else none
  | _, _ => none

/-- The window of an ON source fits it (R98 test 3). -/
def sourceWindowFits (windows : Table Window 32) (s : Fin 64) (c : SourceSettings) : Bool :=
  let w := windows.nth c.win
  w.state == .opened && w.kind == .sound && w.subject == s.val

/-- SET_SOURCE (R98). -/
def execSetSource (tag : Word) (source state window : Byte) (ring : Half) (offset width : Byte) (s : State) :
    Host.Outcome State Fault Refusal :=
  .next (s.withPart (Part.run (.setSource tag source state window ring offset width) fun i p =>
    match objectOf 64 source, sourceFields state window ring offset width with
    | some n, some c =>
      let old := (p.mixer.sources.nth n).cfg
      if old.on ∧ c.on ∧ (c.win ≠ old.win ∨ c.ring ≠ old.ring) then p.refuse i tag .state []
      else if c.on ∧ !sourceWindowFits p.path.windows n c then p.refuse i tag .badField []
      else
        (p.updSource n fun r => { r with cfg := c, fresh := if c.on = old.on then r.fresh else 0 }).finish i tag []
    | _, _ => p.refuse i tag .badField []))

/-- The fields of SET BUS or of an image's bus entry, in range (R101 test 1). -/
def busFields (state window : Byte) (ring master : Half) (send : Byte) (divider : Half) : Option BusSettings :=
  match stateOf state, objectOf 32 window, flagOf send with
  | some active, some w, some sending =>
    if 16 ≤ ring.toNat ∧ ring.toNat ≤ 256 ∧ 1 ≤ divider.toNat ∧ divider.toNat ≤ 20 ∧ divider.toNat ≤ ring.toNat then
      some ⟨active, w, ring.toNat, master.toNat, sending, divider.toNat⟩
    else none
  | _, _, _ => none

/-- The window of an ACTIVE bus fits it (R101 test 3). -/
def busWindowFits (windows : Table Window 32) (b : Fin 16) (c : BusSettings) : Bool :=
  let w := windows.nth c.win
  w.state == .opened && w.kind == .programme && w.subject == b.val

/-- The number of buses whose send flag is on. -/
def Mixer.sending (m : Mixer) : Nat := (m.buses.list.filter fun b => b.cfg.send).length

/-- The bus goes from IDLE to ACTIVE: what its slots hold is overtaken and its ring starts afresh (R101). -/
def Part.restartBus (b : Fin 16) (p : Part) : Part :=
  let p1 := (p.mixer.buses.nth b).slots.foldl (fun p x => p.overtaken b x.2) p
  p1.updBus b fun r => { r with slots := [] }

/-- SET_BUS (R101). -/
def execSetBus (tag : Word) (bus state window : Byte) (ring master : Half) (send : Byte) (divider : Half) (s : State) :
    Host.Outcome State Fault Refusal :=
  .next (s.withPart (Part.run (.setBus tag bus state window ring master send divider) fun i p =>
    match objectOf 16 bus, busFields state window ring master send divider with
    | some b, some c =>
      let old := (p.mixer.buses.nth b).cfg
      if old.active ∧ (c.win ≠ old.win ∨ c.ring ≠ old.ring) then p.refuse i tag .state []
      else if c.active ∧ !busWindowFits p.path.windows b c then p.refuse i tag .badField []
      else if c.send ∧ !old.send ∧ Config.sendBusMax ≤ p.mixer.sending then p.refuse i tag .tableFull []
      else
        let p1 := if c.active ∧ !old.active then p.restartBus b else p
        (p1.updBus b fun r => { r with cfg := c }).finish i tag []
    | _, _ => p.refuse i tag .badField []))

/-- An entry inserted at its place in source order (R102). -/
def insertContribution (c : Contribution) : List Contribution → List Contribution
  | [] => [c]
  | x :: rest => if c.source < x.source then c :: x :: rest else x :: insertContribution c rest

/-- The bus's entry for a source. -/
def Bus.entry (b : Bus) (s : Fin 64) : Option Contribution := b.contributions.find? fun c => c.source == s

/-- The entry of a source changed. -/
def Bus.updEntry (b : Bus) (s : Fin 64) (f : Contribution → Contribution) : Bus :=
  { b with contributions := b.contributions.map fun c => if c.source = s then f c else c }

/-- SET_GAIN (R102). -/
def execSetGain (tag : Word) (bus source : Byte) (target step : Half) (s : State) : Host.Outcome State Fault Refusal :=
  .next (s.withPart (Part.run (.setGain tag bus source target step) fun i p =>
    match objectOf 16 bus, objectOf 64 source with
    | some b, some n =>
      if step = 0 then p.refuse i tag .badField []
      else
        let r := p.mixer.buses.nth b
        if (r.entry n).isSome then
          (p.updBus b fun r => r.updEntry n fun c =>
            { c with target := target.toNat, step := step.toNat, leaving := false }).finish i tag []
        else if r.contributions.length < Config.contributionMax then
          (p.updBus b fun r =>
            { r with contributions := insertContribution ⟨n, 0, target.toNat, step.toNat, false⟩ r.contributions }).finish i tag []
        else p.refuse i tag .tableFull []
    | _, _ => p.refuse i tag .badField []))

/-- REMOVE_SOURCE (R103). -/
def execRemoveSource (tag : Word) (bus source : Byte) (s : State) : Host.Outcome State Fault Refusal :=
  .next (s.withPart (Part.run (.removeSource tag bus source) fun i p =>
    match objectOf 16 bus, objectOf 64 source with
    | some b, some n =>
      if ((p.mixer.buses.nth b).entry n).isSome then
        (p.updBus b fun r => r.updEntry n fun c => { c with target := 0, leaving := true }).finish i tag []
      else p.refuse i tag .notFound []
    | _, _ => p.refuse i tag .badField []))

/-! ## Starting and stopping the mixer (R104, R111) -/

def Part.setMixerState (x : MixerState) (p : Part) : Part := p.setMixer { p.mixer with state := x }

/-- START_MIXER (R104). -/
def execStartMixer (tag : Word) (s : State) : Host.Outcome State Fault Refusal :=
  .next (s.withPart (Part.run (.startMixer tag) fun i p =>
    if p.outstanding .stopMixer then p.refuse i tag .busy []
    else if p.mixer.state = .running then p.refuse i tag .state []
    else (p.setMixerState .running).finish i tag []))

/-- STOP_MIXER (R111). -/
def execStopMixer (tag : Word) (s : State) : Host.Outcome State Fault Refusal :=
  .next (s.withPart (Part.run (.stopMixer tag) fun i p =>
    if p.outstanding .stopMixer then p.refuse i tag .busy []
    else if p.mixer.state = .stopped then p.refuse i tag .state []
    else if p.mixer.pass.isNone then (p.setMixerState .stopped).finish i tag []
    else (p.setMixerState .stopping).defer i tag .stopMixer))

/-- STOP_MIXER_COMPLETE (R111): the pass in progress has completed and the mixer is STOPPING. -/
def execStopMixerComplete (s : State) : Host.Outcome State Fault Refusal :=
  .next (s.withPart fun p =>
    if p.mixer.state = .stopping ∧ p.mixer.pass.isNone then
      (p.setMixerState .stopped).completeDeferred .stopMixer .done
    else p)

end Sys2Proof.Machine
end

