-- ==== Sys2Proof/Machine/Clock.lean ====
section
/-! DEFINITION. The programme clock (2.1, 2.2): picture ticks, block ticks, loss and relock of the frame
reference and of the word clock, and SET TIMECODE. Times are in `Config` units. -/

namespace Sys2Proof.Machine

/-- The gap `d` lies within 1% of the period on either side (2.1, 2.2). -/
def inTolerance (period d : Nat) : Bool := decide (99 * period ≤ 100 * d) && decide (100 * d ≤ 101 * period)

/-- `now` comes less than `gap` after a time that may be absent; it does not where the time is absent (assumption 49). -/
def sooner (now gap : Nat) (since : Option Nat) : Bool :=
  match since with | none => false | some t => decide (now < t + gap)

/-- A picture tick (R27). -/
def Clock.pictureTick (c : Clock) : Clock :=
  match c.pendingTc with
  | some t => { c with pictureTicks := c.pictureTicks + 1, timecode := t, pendingTc := none }
  | none => { c with pictureTicks := c.pictureTicks + 1, timecode := c.timecode.advance c.rate }

/-- A block tick: the number is carried to the mixer and then advances (R32). -/
def Part.blockTick (p : Part) : Part :=
  (p.setClock { p.clock with blockNumber := p.clock.blockNumber + 1 }).mixerTick p.clock.blockNumber

namespace Reference

/-- A pulse or edge that comes too soon in LOCKED: counted and otherwise ignored (R27, R32). -/
def strayLocked (r : Reference) (now : Nat) : Reference := { r with strays := count r.strays, lastPulse := some now }

/-- A pulse or edge accepted in LOCKED: the loss timer restarts (R27, R32). -/
def accept (r : Reference) (now lossTime : Nat) : Reference :=
  { r with lastPulse := some now, lastAccepted := some now, lossTimer := some (now + lossTime) }

/-- A pulse or edge that comes too soon in FREE (R29, R33). -/
def strayFree (r : Reference) (now : Nat) : Reference :=
  { r with strays := count r.strays, relock := 0, lastPulse := some now }

/-- The relock count after a relock pulse or edge (R29, R33). -/
def relockAfter (r : Reference) (now period : Nat) : Nat :=
  match r.lastPulse with
  | none => 1
  | some t => if r.relock = 0 then 1 else if inTolerance period (now - t) then r.relock + 1 else 1

/-- A relock pulse or edge that does not complete the relock. -/
def relockTo (r : Reference) (now n : Nat) : Reference := { r with relock := n, lastPulse := some now }

/-- The input goes to LOCKED (R29, R33). Deduced (assumption 48): the relocking pulse or edge, taken in FREE, is the previous
accepted one of R27 and R32 for the next, so one that comes less than half a period after it is a stray edge. -/
def regain (r : Reference) (now lossTime : Nat) : Reference :=
  { r with locked := true, relock := 0, regains := count r.regains, oscillator := none,
           lastPulse := some now, lastAccepted := some now, lossTimer := some (now + lossTime) }

/-- The loss timer expires at `t`: the input goes to FREE and the oscillator ticks on from there (R28, R33). -/
def lose (r : Reference) (t period : Nat) : Reference :=
  { r with locked := false, losses := count r.losses, lossTimer := none, oscillator := some (t + period), lastOscTick := some t }

/-- An oscillator tick at `t` (R28, R33). -/
def oscTick (r : Reference) (t period : Nat) : Reference := { r with oscillator := some (t + period), lastOscTick := some t }

end Reference

/-! ## The frame reference -/

def Part.setFrame (r : Reference) (p : Part) : Part := p.setClock { p.clock with frame := r }
def Part.setWord (r : Reference) (p : Part) : Part := p.setClock { p.clock with word := r }

/-- A picture tick of the part's clock. -/
def Part.pictureTick (p : Part) : Part := p.setClock p.clock.pictureTick

/-- A frame reference pulse arrives (R27, R29). -/
def Part.framePulse (p : Part) : Part :=
  let r := p.clock.frame
  let period := p.clock.rate.period
  if !p.clock.started then p
  else if r.locked then
    if sooner p.now (period / 2) r.lastAccepted then p.setFrame (r.strayLocked p.now)
    else (p.setFrame (r.accept p.now (2 * period))).pictureTick
  else if sooner p.now (period / 2) r.lastPulse then p.setFrame (r.strayFree p.now)
  else
    let n := r.relockAfter p.now period
    if n < Config.frameRelock then p.setFrame (r.relockTo p.now n)
    else
      let p1 := (p.setFrame (r.regain p.now (2 * period))).raise .reference 0
      if sooner p.now (period / 2) r.lastOscTick then p1 else p1.pictureTick

/-- FRAME_REFERENCE_PULSE (R27, R29). -/
def execFrameReferencePulse (dt : Nat) (s : State) : Host.Outcome State Fault Refusal :=
  .next (s.withPart fun p => (p.after dt).framePulse)

/-- The frame reference's loss timer expires (R28). -/
def Part.frameLoss (p : Part) : Part :=
  match p.clock.frame.lossTimer with
  | none => p
  | some t => (((p.reach t).setFrame (p.clock.frame.lose t p.clock.rate.period)).raise .reference 0).pictureTick

/-- FRAME_REFERENCE_LOSS (R28). -/
def execFrameReferenceLoss (s : State) : Host.Outcome State Fault Refusal := .next (s.withPart Part.frameLoss)

/-- The oscillator's picture tick (R26, R28). -/
def Part.oscPicture (p : Part) : Part :=
  match p.clock.frame.oscillator with
  | none => p
  | some t => ((p.reach t).setFrame (p.clock.frame.oscTick t p.clock.rate.period)).pictureTick

/-- OSCILLATOR_PICTURE_TICK (R28). -/
def execOscillatorPictureTick (s : State) : Host.Outcome State Fault Refusal := .next (s.withPart Part.oscPicture)

/-- SET_TIMECODE (R31). -/
def execSetTimecode (tag : Word) (ff ss mm hh : Byte) (s : State) : Host.Outcome State Fault Refusal :=
  .next (s.withPart (Part.run (.setTimecode tag ff ss mm hh) fun i p =>
    let t := timecodeOf ff ss mm hh
    if t.inRange p.clock.rate ∧ !t.isDropped p.clock.rate then
      (p.setClock { p.clock with pendingTc := some t }).finish i tag []
    else p.refuse i tag .badField []))

/-! ## The word clock -/

def Part.setEdges (n : Nat) (p : Part) : Part := p.setClock { p.clock with edgeCount := n }

/-- A word clock edge arrives (R32, R33). -/
def Part.wordEdge (p : Part) : Part :=
  let r := p.clock.word
  if !p.clock.started then p
  else if r.locked then
    if sooner p.now (Config.wordClockPeriod / 2) r.lastAccepted then p.setWord (r.strayLocked p.now)
    else
      let p1 := p.setWord (r.accept p.now Config.wordClockLossTime)
      if p.clock.edgeCount + 1 < 48 then p1.setEdges (p.clock.edgeCount + 1) else (p1.setEdges 0).blockTick
  else if sooner p.now (Config.wordClockPeriod / 2) r.lastPulse then p.setWord (r.strayFree p.now)
  else
    let n := r.relockAfter p.now Config.wordClockPeriod
    if n < Config.wordClockRelock then p.setWord (r.relockTo p.now n)
    else
      let p1 := ((p.setWord (r.regain p.now Config.wordClockLossTime)).raise .reference 1).setEdges 0
      if sooner p.now (Config.blockPeriod / 2) r.lastOscTick then p1 else p1.blockTick

/-- WORD_CLOCK_EDGE (R32, R33). -/
def execWordClockEdge (dt : Nat) (s : State) : Host.Outcome State Fault Refusal :=
  .next (s.withPart fun p => (p.after dt).wordEdge)

/-- The word clock's loss timer expires (R33). -/
def Part.wordLoss (p : Part) : Part :=
  match p.clock.word.lossTimer with
  | none => p
  | some t => ((((p.reach t).setWord (p.clock.word.lose t Config.blockPeriod)).raise .reference 1).setEdges 0).blockTick

/-- WORD_CLOCK_LOSS (R33). -/
def execWordClockLoss (s : State) : Host.Outcome State Fault Refusal := .next (s.withPart Part.wordLoss)

/-- The oscillator's block tick (R26, R33). -/
def Part.oscBlock (p : Part) : Part :=
  match p.clock.word.oscillator with
  | none => p
  | some t => ((p.reach t).setWord (p.clock.word.oscTick t Config.blockPeriod)).blockTick

/-- OSCILLATOR_BLOCK_TICK (R33). -/
def execOscillatorBlockTick (s : State) : Host.Outcome State Fault Refusal := .next (s.withPart Part.oscBlock)

/-! ## The start of the clock (R26) -/

/-- The programme clock starts: both inputs FREE, the first free tick of each one nominal period on. -/
def Clock.start (c : Clock) (rate : Rate) (now : Nat) : Clock :=
  { c with
      started := true, rate := rate,
      frame := { c.frame with oscillator := some (now + rate.period) },
      word := { c.word with oscillator := some (now + Config.blockPeriod) } }

end Sys2Proof.Machine
end

