-- ==== Sys2Proof/Machine/Replay.lean ====
section
/-! DEFINITION. The replay controller (chapter 5): the ring extent, retirement and making room, opening,
reserving, cutting, settling and publishing pictures. -/

namespace Sys2Proof.Machine

namespace PictureRecord

/-- The bytes of ring space the record holds (R81): none for a GAP. -/
def space (r : PictureRecord) : Nat :=
  match r.body with
  | .opening _ len => len
  | .published _ len _ _ => len
  | .gap _ => 0

/-- The record may be retired (R83). -/
def retirable (r : PictureRecord) : Bool :=
  match r.body with
  | .gap _ => true
  | .published .. => r.pins == 0 && r.sends == 0
  | .opening .. => false

end PictureRecord

namespace Ring

/-- The ring's size Z, 0 while the extent is absent. -/
def size (r : Ring) : Nat := match r.extent with | some (_, z) => z | none => 0

/-- The ring's base. -/
def base (r : Ring) : Nat := match r.extent with | some (b, _) => b | none => 0

/-- Free bytes, Z minus used (R81). Design choice (assumption 46): 0 while the extent is absent, where Z has no value. -/
def free (r : Ring) : Nat := r.size - r.used

/-- A record of the index holds ring space. -/
def occupied (r : Ring) : Bool := r.index.any PictureRecord.pinnable

/-- A record with this number may be appended (R82). -/
def appendable (r : Ring) (n : Word) : Bool :=
  decide (r.index.length < Config.indexMax) &&
    (match r.index.getLast? with | none => true | some x => laterThan n x.number)

/-- The write point after `n` bytes more, wrapping at Z (R81). -/
def advance (r : Ring) (n : Nat) : Nat := (r.writePoint + n) % r.size

end Ring

/-- The replay window of a camera as the window table has it: base and size (R80). -/
def Part.replayWindow (p : Part) (k : Fin 8) : Nat × Nat :=
  let w := p.path.windows.nth (p.cameras.nth k).cfg.replayWin
  (w.base, w.size)

/-- The controller takes up the ring extent, at START CAMERA (which counts a mismatch) or at an open (R80). -/
def Part.takeExtent (k : Fin 8) (atStart : Bool) (p : Part) : Part :=
  let r := p.rings.nth k
  let w := p.replayWindow k
  if r.extent = some w then p
  else if r.extent.isNone || !r.occupied then
    p.updRing k fun r => { r with extent := some w, writePoint := 0 }
  else if atStart then
    (p.updRing k fun r => { r with mismatches := count r.mismatches }).raise .ring k.val
  else p

/-- The oldest record is retired (R83), and the retirement is reported to the clip controller. -/
def Part.retireOldest (k : Fin 8) (p : Part) : Part :=
  match (p.rings.nth k).index with
  | [] => p
  | oldest :: rest =>
    (p.updRing k fun r => { r with index := rest, used := r.used - oldest.space, retired := count r.retired }).reportRetirement k oldest.number

/-- Making room for `n` bytes (R84): retirements until free is enough, or until the oldest record may not be
retired. The fuel is the number of records. -/
def Part.makeRoomLoop (k : Fin 8) (n : Nat) : Nat → Part → Bool × Part
  | 0, p => (decide (n ≤ (p.rings.nth k).free), p)
  | fuel + 1, p =>
    if n ≤ (p.rings.nth k).free then (true, p)
    else match (p.rings.nth k).index with
      | [] => (false, p)
      | oldest :: _ => if oldest.retirable then Part.makeRoomLoop k n fuel (p.retireOldest k) else (false, p)

def Part.makeRoom (k : Fin 8) (n : Nat) (p : Part) : Bool × Part := p.makeRoomLoop k n (p.rings.nth k).index.length

/-- A cut is counted and the RING notice raised (R85 step 4, R88). -/
def Part.countCut (k : Fin 8) (p : Part) : Part :=
  (p.updRing k fun r => { r with cut := count r.cut }).raise .ring k.val

/-- The outcome of a picture open (R85): its ring start, or the cause of the failure. -/
inductive OpenResult where
  | opened (start : Nat)
  | failed (cause : SettleCause)
  deriving DecidableEq, Repr

/-- Step 3 of an open: a full index retires its oldest record if it may (R85). -/
def Part.indexPlace (k : Fin 8) (p : Part) : Bool × Part :=
  if (p.rings.nth k).index.length < Config.indexMax then (true, p)
  else match (p.rings.nth k).index with
    | [] => (true, p)
    | oldest :: _ => if oldest.retirable then (true, p.retireOldest k) else (false, p)

/-- Steps 5 to 7 of an open: force-close, record, reservation (R85). -/
def Part.appendOpening (k : Fin 8) (st : Stamp) (header : Nat) (p : Part) : Nat × Part :=
  let p1 := p.forceCloses k st.number
  let start := (p1.rings.nth k).writePoint
  let rec' : PictureRecord := ⟨st.number, st.timecode, st.block, .opening start header, p1.openClipsOn k, 0⟩
  (start, p1.updRing k fun r =>
    { r with index := r.index ++ [rec'], writePoint := r.advance header, used := r.used + header })

/-- The ring extent and write point stand as they did before a failed open (R85; assumption 36). -/
def Part.extentBack (k : Fin 8) (before : Ring) (p : Part) : Part :=
  p.updRing k fun r => { r with extent := before.extent, writePoint := before.writePoint }

/-- A picture is opened (R85). A failed open leaves its retirements and its cut behind, and no extent (assumption
36). -/
def Part.openPicture (k : Fin 8) (st : Stamp) (header : Nat) (p : Part) : OpenResult × Part :=
  let before := p.rings.nth k
  let p1 := p.takeExtent k false
  let inOrder := match (p1.rings.nth k).index.getLast? with | none => true | some x => laterThan st.number x.number
  if inOrder then
    let (placed, p2) := p1.indexPlace k
    if placed then
      let (room, p3) := p2.makeRoom k header
      if room then
        let (start, p4) := p3.appendOpening k st header
        (.opened start, p4)
      else (.failed (.gap .cut), (p3.extentBack k before).countCut k)
    else (.failed .lost, p2.extentBack k before)
  else (.failed .lost, p1.extentBack k before)

/-- A band's room is made: its place is the write point, which advances with used and the record's length (R87). -/
def Part.reserveBand (k : Fin 8) (n : Word) (s : Nat) (p : Part) : Nat × Part :=
  let place := (p.rings.nth k).writePoint
  (place, p.updRing k fun r =>
    { (r.updRecord n fun e =>
        match e.body with
        | .opening start len => { e with body := .opening start (len + s) }
        | _ => e) with writePoint := r.advance s, used := r.used + s })

/-- An OPENING record is rolled back to a GAP (R88, R89): the write point returns to its start, used falls
by its length, its ring fields and pins go. -/
def Part.rollBack (k : Fin 8) (n : Word) (cause : GapCause) (p : Part) : Part :=
  match (p.rings.nth k).find n with
  | some ⟨_, _, _, .opening start len, _, _⟩ =>
    p.updRing k fun r =>
      { (r.updRecord n fun e => { e with body := .gap cause, pins := 0 }) with writePoint := start, used := r.used - len }
  | _ => p

/-- Room cannot be made for a band: its picture is cut (R88). -/
def Part.cutPicture (k : Fin 8) (n : Word) (p : Part) : Part := (p.rollBack k n .cut).countCut k

/-- A picture is counted lost (R89). -/
def Part.countLost (k : Fin 8) (p : Part) : Part :=
  (p.updRing k fun r => { r with lost := count r.lost }).raise .ring k.val

/-- A torn or abandoned picture is settled with a cause (R89). -/
def Part.settlePicture (k : Fin 8) (st : Stamp) (cause : SettleCause) (p : Part) : Part :=
  match (p.rings.nth k).find st.number, cause with
  | some r, .gap g =>
    match r.body with
    | .opening _ _ => p.rollBack k st.number g
    | .published .. => p
    | .gap _ => p
  | some _, .lost => p
  | none, .lost => p.countLost k
  | none, .gap g =>
    if (p.rings.nth k).appendable st.number then
      p.updRing k fun r => { r with index := r.index ++ [⟨st.number, st.timecode, st.block, .gap g, 0, 0⟩] }
    else p.countLost k

/-- The picture's record becomes PUBLISHED and the picture may go home as a LIVE item (R90). -/
def Part.publishPicture (k : Fin 8) (n : Word) (total quantizer : Nat) (overFlag live : Bool) (p : Part) : Part :=
  let p1 := p.updRing k fun r => r.updRecord n fun e =>
    match e.body with
    | .opening start _ => { e with body := .published start total quantizer overFlag }
    | _ => e
  if live then p1.makeItem (.livePicture k n) else p1

end Sys2Proof.Machine
end

