-- ==== Sys2Proof/Machine/Frames.lean ====
section
/-! DEFINITION. The frame tracker (chapter 3): slot starts, held writes, band arrivals, tearing, abandoning,
alias reads and stopping; with the discard of the coder's job that these bring about (R75, R76). -/

namespace Sys2Proof.Machine

/-! ## Cameras and slots -/

namespace Camera

def slot (c : Camera) : SlotId → Slot
  | .a => c.slotA
  | .b => c.slotB

def putSlot (c : Camera) (i : SlotId) (s : Slot) : Camera :=
  match i with
  | .a => { c with slotA := s }
  | .b => { c with slotB := s }

end Camera

namespace CameraSettings

/-- The derived quantities of 3.1. -/
def bandCount (c : CameraSettings) : Nat := c.lines / 16
def bandSize (c : CameraSettings) : Nat := 16 * c.stride
def slotSize (c : CameraSettings) : Nat := c.lines * c.stride

/-- A slot's offset in the frame window. -/
def slotOffset (c : CameraSettings) : SlotId → Nat
  | .a => 0
  | .b => c.slotSize

/-- The minimum picture size of R44 for b bands of t tiles. -/
def minBudget (b t : Nat) : Nat := 64 + 8 * b + 16 * b * (t + 1)

end CameraSettings

/-- A slot's first byte in DRAM. -/
def Part.slotBase (p : Part) (k : Fin 8) (i : SlotId) : Nat :=
  let c := (p.cameras.nth k).cfg
  (p.path.windows.nth c.frameWin).base + c.slotOffset i

def Part.updSlot (k : Fin 8) (i : SlotId) (f : Slot → Slot) (p : Part) : Part :=
  p.updCamera k fun c => c.putSlot i (f (c.slot i))

def Part.countCamera (k : Fin 8) (f : CameraCounters → CameraCounters) (p : Part) : Part :=
  p.updCamera k fun c => { c with counts := f c.counts }

/-! ## Discarding the coder's job (R75, R76, R77) -/

/-- A discarded job ends: counted, with nothing reported (R76). -/
def Part.endDiscarded (j : JobRun) (p : Part) : Part :=
  (p.setCoder { p.coder with job := none }).updCoderCounts j.job.cam fun c => { c with discarded := count c.discarded }

/-- The job in progress is discarded: in CODING it runs on to its coded event; otherwise an offer not yet
granted is withdrawn and the job ends, and a transfer in progress runs to its end with the flag set (R76). -/
def Part.discardJob (p : Part) : Part :=
  match p.coder.job with
  | none => p
  | some j =>
    if j.discarded then p
    else
      let flagged := p.setCoder { p.coder with job := some { j with discarded := true } }
      if j.phase = .coding then flagged
      else if p.path.streamBusy coderStream then flagged
      else (p.withdraw coderStream).endDiscarded j

/-- The work of a picture goes: its queued jobs, its job in progress, and the camera's rate-control record
if that names it (R56, R57 steps 1 and 2, R77). -/
def Part.dropWork (k : Fin 8) (i : SlotId) (n : Word) (p : Part) : Part :=
  let p1 := p.setCoder { p.coder with queue := p.coder.queue.filter fun j => !(j.cam == k && j.slot == i && j.number == n) }
  let p2 := match p1.coder.job with
    | some j => if j.job.cam = k ∧ j.job.slot = i ∧ j.job.number = n then p1.discardJob else p1
    | none => p1
  match p2.coder.rates.nth k with
  | some r => if r.number = n then p2.setCoder { p2.coder with rates := p2.coder.rates.put k none } else p2
  | none => p2

/-! ## Slot starts (R47–R50) -/

/-- Pending settings take effect (R47 step 1). -/
def Camera.applyPending (c : Camera) : Camera :=
  match c.pending with
  | none => c
  | some s =>
    { c with cfg := { c.cfg with policy := s.policy, holdLimit := s.holdLimit, budget := s.budget, live := s.live }, pending := none }

/-- The slot start of a camera's record: new number, stamps, nothing arrived (R47 steps 2 to 5). -/
def Camera.startSlot (c : Camera) (i : SlotId) (t : Timecode) (block : Word) : Camera :=
  { (c.putSlot i ⟨.filling, some ⟨c.counter, t, block, c.cfg.live, c.cfg.budget⟩, 0, 0, false⟩) with
      counter := c.counter + 1, counts := { c.counts with slotStarts := count c.counts.slotStarts } }

/-- A slot start is taken (R47). -/
def Part.takeSlotStart (k : Fin 8) (i : SlotId) (p : Part) : Part :=
  (p.updCamera k fun c => c.applyPending.startSlot i p.clock.timecode p.clock.blockNumber).tally

/-- The picture in a slot is torn (R56). -/
def Part.tear (k : Fin 8) (i : SlotId) (p : Part) : Part :=
  let s := (p.cameras.nth k).slot i
  let p1 := match s.stamp with
    | none => p
    | some st =>
      let q := p.dropWork k i st.number
      if s.abandoned then q else q.settlePicture k st (.gap .torn)
  let p2 := p1.updSlot k i fun s => { s with state := .torn }
  (p2.countCamera k fun c => { c with torn := count c.torn }).raise .hold k.val

/-! ## Held writes (R50–R52) -/

/-- The head of a port queue changed. -/
def Port.updHead (q : Port) (f : Admitted → Admitted) : Port :=
  match q.queue with
  | [] => q
  | a :: rest => { q with queue := f a :: rest }

/-- A held write becomes an ordinary offered request (R15). -/
def Part.offerHeld (port : Fin 6) (tracked : Bool) (p : Part) : Part :=
  p.updPort port fun q => q.updHead fun a => { a with phase := .offered, tracked := tracked }

/-- The camera's held-write record goes, with its timer. -/
def Part.dropHeld (k : Fin 8) (p : Part) : Part := p.updCamera k fun c => { c with held := none }

/-- A slot goes to DONE, and a write held for it is released: its slot start is taken and it is offered
(R51, R55, R57). -/
def Part.slotDone (k : Fin 8) (i : SlotId) (p : Part) : Part :=
  let p1 := p.updSlot k i fun s => { s with state := .done }
  match (p1.cameras.nth k).held with
  | some h => if h.slot = i then ((p1.dropHeld k).takeSlotStart k i).offerHeld h.port true else p1
  | none => p1

/-- How a slot start of the write at the head of a port is judged at its check: it passes tracked, is
held, or passes untracked (R46–R50). -/
inductive StartResult where
  | pass (tracked : Bool)
  | hold
  deriving DecidableEq, Repr

/-- A slot start is judged by its slot's state and the camera's policy (R47–R50). -/
def Part.judgeStart (k : Fin 8) (i : SlotId) (port : Fin 6) (tag : BitVec 6) (p : Part) : StartResult × Part :=
  let c := p.cameras.nth k
  match (c.slot i).state with
  | .empty | .done | .torn => (.pass true, p.takeSlotStart k i)
  | .filling => (.pass true, (p.tear k i).takeSlotStart k i)
  | .coding =>
    match c.cfg.policy with
    | .drop => (.pass true, (p.tear k i).takeSlotStart k i)
    | .hold =>
      if c.held.isNone then
        (.hold, (p.updCamera k fun c => { c with held := some ⟨port, tag, i, p.now + c.cfg.holdLimit * Config.ms⟩ }).countCamera k
          fun c => { c with heldWrites := count c.heldWrites })
      else
        (.pass false, (p.countCamera k fun c => { c with strayStarts := count c.strayStarts }).raise .hold k.val)

/-- The slot of a RUNNING camera whose first line a write in a FRAME window covers (R46). -/
def Part.startOf (p : Part) (w : Fin 32) (r : Request) : Option (Fin 8 × SlotId) :=
  let win := p.path.windows.nth w
  if h : win.subject < 8 then
    let k : Fin 8 := ⟨win.subject, h⟩
    let c := p.cameras.nth k
    if c.state = .running ∧ c.cfg.frameWin = w then
      if r.covers (p.slotBase k .a) Config.lineBytes then some (k, .a)
      else if r.covers (p.slotBase k .b) Config.lineBytes then some (k, .b)
      else none
    else none
  else none

/-- The hold limit timer of a camera's held write expires (R51). The rule has the slot still CODING; a slot that is
FILLING again is torn as by any slot start (R48), and one that is not FILLING or CODING has no picture to tear
(assumption 38). -/
def Part.holdExpiry (k : Fin 8) (p : Part) : Part :=
  match (p.cameras.nth k).held with
  | none => p
  | some h =>
    let p1 := (p.reach h.timer).dropHeld k
    let p2 := p1.countCamera k fun c => { c with holdExpiries := count c.holdExpiries }
    let state := ((p2.cameras.nth k).slot h.slot).state
    let p3 := if state = .coding ∨ state = .filling then p2.tear k h.slot else p2
    (p3.takeSlotStart k h.slot).offerHeld h.port true

/-! ## Abandoning (R57) -/

/-- A picture is abandoned with a cause (R57). -/
def Part.abandon (k : Fin 8) (i : SlotId) (n : Word) (cause : SettleCause) (p : Part) : Part :=
  let s := (p.cameras.nth k).slot i
  match s.stamp with
  | none => p
  | some st =>
    if st.number ≠ n ∨ s.abandoned then p
    else
      let p1 := p.updSlot k i fun s => { s with abandoned := true }
      let p2 := (p1.dropWork k i n).settlePicture k st cause
      let p3 := if s.state = .coding then p2.slotDone k i else p2
      let p4 := p3.countCamera k fun c => { c with abandoned := count c.abandoned }
      if cause = .gap .queueFull then p4.raise .hold k.val else p4

/-! ## Band arrivals (R53, R54) -/

/-- The highest number of jobs the band queue has held (R79). -/
def Part.queueJob (j : BandJob) (p : Part) : Part :=
  p.setCoder { p.coder with queue := p.coder.queue ++ [j], highWater := max p.coder.highWater (p.coder.queue.length + 1) }

/-- A band write to a slot (R53, R54). -/
def Part.bandWrite (k : Fin 8) (i : SlotId) (b : Nat) (p : Part) : Part :=
  let c := p.cameras.nth k
  let s := c.slot i
  if s.state = .filling then
    if s.arrived = b then
      let p1 := p.updSlot k i fun s => { s with arrived := s.arrived + 1 }
      let p2 := match s.stamp with
        | none => p1
        | some st =>
          if s.abandoned then p1
          else if p1.coder.queue.length < Config.bandQueueMax then p1.queueJob ⟨k, i, st.number, b⟩
          else p1.abandon k i st.number (.gap .queueFull)
      if s.arrived + 1 = c.cfg.bandCount then
        if ((p2.cameras.nth k).slot i).abandoned then p2.slotDone k i
        else p2.updSlot k i fun s => { s with state := .coding }
      else p2
    else p.tear k i
  else p.countCamera k fun c => { c with strayBands := count c.strayBands }

/-- The band of a slot whose last line lies at a byte offset of the frame window (3.2). -/
def CameraSettings.bandAt (c : CameraSettings) (off : Nat) : Option (SlotId × Nat) :=
  let i : SlotId := if off < c.slotSize then .a else .b
  let o := off - c.slotOffset i
  if o < c.slotSize ∧ (o + Config.lineBytes) % c.bandSize = 0 then some (i, (o + Config.lineBytes) / c.bandSize - 1) else none

/-- A performed FRAME write is shown to the frame tracker: each line it covers that is a band's last line is
a band write (R46). -/
def Part.frameWrite (w : Fin 32) (r : Request) (p : Part) : Part :=
  let win := p.path.windows.nth w
  if h : win.subject < 8 then
    let k : Fin 8 := ⟨win.subject, h⟩
    if (p.cameras.nth k).state = .running ∧ (p.cameras.nth k).cfg.frameWin = w then
      (List.range r.count).foldl (fun p l =>
        let a := r.first + Config.lineBytes * l
        if r.covers a Config.lineBytes then
          match (p.cameras.nth k).cfg.bandAt (a - win.base) with
          | some (i, b) => p.bandWrite k i b
          | none => p
        else p) p
    else p
  else p

/-- The band coder reports a band coded and written; the slot's bands coded rises (R55). -/
def Part.bandCoded (k : Fin 8) (i : SlotId) (n : Word) (p : Part) : Part :=
  p.updSlot k i fun s =>
    match s.stamp with
    | some st => if st.number = n then { s with coded := s.coded + 1 } else s
    | none => s

/-! ## Alias reads (R58) -/

/-- A camera's latest DONE slot. -/
def Camera.latestDone (c : Camera) : Option SlotId :=
  if c.slotA.state = .done then
    if c.slotB.state = .done then
      match c.slotA.stamp, c.slotB.stamp with
      | some a, some b => if laterThan b.number a.number then some .b else some .a
      | _, _ => some .a
    else some .a
  else if c.slotB.state = .done then some .b
  else none

/-! ## Stopping (R59) -/

/-- The picture of a slot that STOP CAMERA's completion abandons: FILLING or CODING, not abandoned. -/
def Slot.unfinished (s : Slot) : Option Word :=
  if (s.state = .filling ∨ s.state = .coding) ∧ !s.abandoned then s.stamp.map (·.number) else none

/-- A slot's unfinished picture is abandoned with cause STOPPED. -/
def Part.abandonStopped (k : Fin 8) (i : SlotId) (p : Part) : Part :=
  match ((p.cameras.nth k).slot i).unfinished with
  | some n => p.abandon k i n (.gap .stopped)
  | none => p

/-- The order in which the slots are settled: the earlier picture number first. -/
def Camera.slotOrder (c : Camera) : List SlotId :=
  match c.slotA.unfinished, c.slotB.unfinished with
  | some a, some b => if laterThan a b then [.b, .a] else [.a, .b]
  | _, _ => [.a, .b]

/-- The stop of a camera completes (R59); the command's completion joins the pending completions. A slot has its numbers
"from the first slot start taken in the slot" (3.2), which does not say when they become absent again; deduced (assumption
44): with the slot made EMPTY here they are gone, until the first slot start after the next START CAMERA. -/
def Part.finishStop (k : Fin 8) (p : Part) : Part :=
  let p1 := (p.cameras.nth k).slotOrder.foldl (fun p i => p.abandonStopped k i) p
  (p1.updCamera k fun c =>
    { c with slotA := Slot.clear, slotB := Slot.clear, held := none, state := .stopped }).completeDeferred (.stopCamera k) .done

/-- The coder holds a job of the camera. -/
def Part.coderOn (p : Part) (k : Fin 8) : Bool :=
  match p.coder.job with | some j => j.job.cam == k | none => false

/-- STOP CAMERA's effect at its take (R59). -/
def Part.beginStop (k : Fin 8) (p : Part) : Part :=
  let p1 := (p.updCamera k fun c => { c with state := .stopping }).tally
  let p2 := p1.setCoder { p1.coder with queue := p1.coder.queue.filter fun j => j.cam != k }
  let p3 := if p2.coderOn k then p2.discardJob else p2
  let p4 := match (p3.cameras.nth k).held with
    | some h => (p3.dropHeld k).offerHeld h.port false
    | none => p3
  let p5 := p4.updCamera k fun c => { c with pending := none }
  if p5.coderOn k then p5 else p5.finishStop k

end Sys2Proof.Machine
end

