-- ==== Sys2Proof/Machine/Coder.lean ====
section
/-! DEFINITION. The band coder (chapter 4) and the camera commands (chapter 3): the take of a job, the phases
of the job in progress, the coded event, rate control, completion and publication; SET, START and STOP CAMERA;
the hold limit; FIND PICTURE. -/

namespace Sys2Proof.Machine

/-! ## The job's transfers (R63, R64, R70) -/

def Part.setJob (j : Option JobRun) (p : Part) : Part := p.setCoder { p.coder with job := j }

def Part.setRate (k : Fin 8) (r : Option RateRecord) (p : Part) : Part :=
  p.setCoder { p.coder with rates := p.coder.rates.put k r }

/-- The least coded size of a band of `t` tiles (R65, R66). -/
def minCoded (t : Nat) : Nat := 16 * (t + 1)

/-- The band target (R65): what is left of the budget shared among the bands left, at least the minimum. -/
def bandTarget (r : RateRecord) (b : Nat) : Nat :=
  let share : Int := ((r.budget : Int) - r.header - r.spent).fdiv ((r.bandCount : Int) - b)
  if share < minCoded r.tiles then minCoded r.tiles else share.toNat

/-- The next quantizer (R67). -/
def nextQuantizer (q t s : Nat) : Nat :=
  let d := t / 4
  if t + d < s then min (q + 1) 15 else if s + d < t then q - 1 else q

/-- The raw band a job names (R63): byte address and length. -/
def Part.bandSpan (p : Part) (j : BandJob) : Nat × Nat :=
  let size := (p.cameras.nth j.cam).cfg.bandSize
  (p.slotBase j.cam j.slot + j.band * size, size)

/-- The job enters READING and offers its first read. -/
def Part.startReading (j : JobRun) (p : Part) : Part :=
  match nextRead [p.bandSpan j.job] with
  | none => p.setJob (some { j with phase := .coding, reads := [], writes := [] })
  | some (r, _, left) =>
    (p.setJob (some { j with phase := .reading, reads := left, writes := [] })).offer coderStream r

/-- The job writes what it has still to write, with its first write offered. -/
def Part.startWrites (j : JobRun) (writes : List (Nat × List Byte)) (p : Part) : Part :=
  match nextWrite writes with
  | none => p.setJob (some { j with writes := [] })
  | some (r, left) => (p.setJob (some { j with writes := left })).offer coderStream r

/-! ## The take of a job (R62, R64, R65) -/

/-- The open succeeded: the rate-control record is made, the job enters HEADER with its target, and the
preliminary header's writes begin (R64, R65). -/
def Part.startPicture (j : BandJob) (st : Stamp) (start : Nat) (p : Part) : Part :=
  let c := p.cameras.nth j.cam
  let r : RateRecord :=
    { number := j.number, slot := j.slot, budget := st.budget, bandCount := c.cfg.bandCount, tiles := c.cfg.tiles,
      header := headerSize c.cfg.bandCount, spent := 0, quantizer := c.carried, bands := [], overFlag := false }
  let ring := p.rings.nth j.cam
  let run : JobRun :=
    { job := j, phase := .header, target := bandTarget r 0, quantizer := r.quantizer, size := none, place := none,
      discarded := false, reads := [], writes := [] }
  (p.setRate j.cam (some r)).startWrites run
    (ringWrites ring.base ring.size start (pictureHeader false j.cam r st.timecode st.block 0 0 false []))

/-- A band 0 job is taken (R64). -/
def Part.takeFirstBand (j : BandJob) (p : Part) : Part :=
  match (p.coder.rates.nth j.cam) with
  | some _ =>
    ((p.abandon j.cam j.slot j.number .lost).updCoderCounts j.cam fun c => { c with overlapped := count c.overlapped }).raise .hold j.cam.val
  | none =>
    match ((p.cameras.nth j.cam).slot j.slot).stamp with
    | none => p
    | some st =>
      match p.openPicture j.cam st (headerSize (p.cameras.nth j.cam).cfg.bandCount) with
      | (.failed cause, p1) =>
        (p1.abandon j.cam j.slot j.number cause).updCoderCounts j.cam fun c => { c with failedOpens := count c.failedOpens }
      | (.opened start, p1) => p1.startPicture j st start

/-- A job of band 1 or later is taken (R65); its picture's rate-control record is present. -/
def Part.takeLaterBand (j : BandJob) (p : Part) : Part :=
  match p.coder.rates.nth j.cam with
  | none => p
  | some r =>
    p.startReading
      { job := j, phase := .reading, target := bandTarget r j.band, quantizer := r.quantizer, size := none, place := none,
        discarded := false, reads := [], writes := [] }

/-- The IDLE coder takes the oldest job (R62). -/
def Part.takeJob (p : Part) : Part :=
  match p.coder.job, p.coder.queue with
  | none, j :: rest =>
    let p1 := p.setCoder { p.coder with queue := rest }
    if j.band = 0 then p1.takeFirstBand j else p1.takeLaterBand j
  | _, _ => p

/-- JOB_TAKE (R62). -/
def execJobTake (s : State) : Host.Outcome State Fault Refusal := .next (s.withPart Part.takeJob)

/-! ## The coded event (R66, R69) -/

/-- The coded tiles are ones R66 allows for this job: as many as the band's tiles, each at least 16 bytes and
a multiple of 16, and the whole no larger than the bound. -/
def RateRecord.allows (r : RateRecord) (bandSize : Nat) (tiles : List (List Byte)) : Bool :=
  tiles.length == r.tiles &&
    tiles.all (fun t => decide (16 ≤ t.length) && t.length % 16 == 0) &&
    decide (16 + tiles.flatten.length ≤ bandSize + minCoded r.tiles)

/-- The final picture header's writes, for the last band of a picture (R70): none for another band. -/
def Part.finalHeader (p : Part) (j : JobRun) (r : RateRecord) (s : Nat) : List (Nat × List Byte) :=
  if j.job.band + 1 = r.bandCount then
    let ring := p.rings.nth j.job.cam
    match ring.find j.job.number with
    | some ⟨_, t, block, .opening start _, _, _⟩ =>
      let spent := r.spent + s
      let overFlag := r.overFlag || decide (r.budget < r.header + spent)
      ringWrites ring.base ring.size start (pictureHeader true j.job.cam r t block (r.header + spent)
        (nextQuantizer j.quantizer j.target s) overFlag (r.bands ++ [(s, j.quantizer)]))
    | _ => []
  else []

/-- Room is asked for the coded band: it is written, or its picture is cut and abandoned (R69). Deduced (assumption 45):
the cut's job completes before the abandonment, whose step 2 (R57) so finds no job to mark discarded, and of the coder's
counters only the cut bands rise. -/
def Part.placeBand (j : JobRun) (r : RateRecord) (tiles : List (List Byte)) (p : Part) : Part :=
  let k := j.job.cam
  let s := 16 + tiles.flatten.length
  match p.makeRoom k s with
  | (true, p1) =>
    let (place, p2) := p1.reserveBand k j.job.number s
    let ring := p2.rings.nth k
    let band := codedBand j.job j.quantizer r.tiles tiles
    p2.startWrites { j with phase := .writing, size := some s, place := some place }
      (ringWrites ring.base ring.size place band ++ p2.finalHeader j r s)
  | (false, p1) =>
    let p2 := (p1.cutPicture k j.job.number).setJob none
    (p2.abandon k j.job.slot j.job.number (.gap .cut)).updCoderCounts k fun c => { c with cutBands := count c.cutBands }

/-- The coded event of the job in progress (R66, R69, R76). -/
def Part.codedEvent (tiles : List (List Byte)) (p : Part) : Part :=
  match p.coder.job with
  | none => p
  | some j =>
    if j.phase = .coding then
      if j.discarded then p.endDiscarded j
      else match p.coder.rates.nth j.job.cam with
        | none => p
        | some r =>
          if r.allows (p.cameras.nth j.job.cam).cfg.bandSize tiles then p.placeBand j r tiles else p
    else p

/-- CODED_EVENT (R66): the tiles are what the picture's content made of the band at its quantizer
(assumption 16). -/
def execCodedEvent (dt : Nat) (tiles : List (List Byte)) (s : State) : Host.Outcome State Fault Refusal :=
  .next (s.withPart fun p => (p.after dt).codedEvent tiles)

/-! ## The end of a job (R67, R68, R72, R74) -/

/-- The rate-control record after a band is written (R72 steps 1 to 3). -/
def RateRecord.bandWritten (r : RateRecord) (j : JobRun) (s : Nat) : RateRecord :=
  { r with
      bands := r.bands ++ [(s, j.quantizer)], spent := r.spent + s,
      overFlag := r.overFlag || decide (r.budget < r.header + (r.spent + s)),
      quantizer := nextQuantizer j.quantizer j.target s }

/-- The picture of a completed rate-control record is published, and its slot goes to DONE (R55, R74). -/
def Part.publish (k : Fin 8) (r : RateRecord) (p : Part) : Part :=
  let live := match ((p.cameras.nth k).slot r.slot).stamp with | some st => st.live | none => false
  let p1 := p.publishPicture k r.number (r.header + r.spent) r.quantizer r.overFlag live
  let p2 := p1.updCamera k fun c => { c with carried := r.quantizer }
  let p3 := p2.updCoderCounts k fun c =>
    { c with published := count c.published, overBudget := if r.overFlag then count c.overBudget else c.overBudget }
  (p3.setRate k none).slotDone k r.slot

/-- The completion of a written job (R72). -/
def Part.endWritten (j : JobRun) (s : Nat) (p : Part) : Part :=
  let k := j.job.cam
  match p.coder.rates.nth k with
  | none => p.setJob none
  | some r =>
    let r' := r.bandWritten j s
    let p1 := (p.setRate k (some r')).updCoderCounts k fun c => { c with codedBands := count c.codedBands }
    let p2 := p1.bandCoded k j.job.slot j.job.number
    let p3 := if j.job.band + 1 = r.bandCount then p2.publish k r' else p2
    p3.setJob none

/-- A transfer of the CODER stream completes (R63, R64, R70, R76). -/
def Part.coderTransfer (p : Part) : Part :=
  match p.coder.job with
  | none => p
  | some j =>
    if j.discarded then p.endDiscarded j
    else match j.phase with
      | .header =>
        match nextWrite j.writes with
        | some _ => p.startWrites j j.writes
        | none => p.startReading j
      | .reading =>
        match nextRead j.reads with
        | some (r, _, left) => (p.setJob (some { j with reads := left })).offer coderStream r
        | none => p.setJob (some { j with phase := .coding })
      | .coding => p
      | .writing =>
        match nextWrite j.writes, j.size with
        | some _, _ => p.startWrites j j.writes
        | none, some s => p.endWritten j s
        | none, none => p.setJob none

/-! ## The camera commands (R44, R45, R59) -/

/-- HOLD_LIMIT_EXPIRY (R51). -/
def execHoldLimitExpiry (k : Fin 8) (s : State) : Host.Outcome State Fault Refusal := .next (s.withPart (Part.holdExpiry k))

/-- The fields of SET CAMERA or of an image's camera entry, in range (R44 test 1). -/
def cameraFields (frameWin replayWin : Byte) (stride : Word) (lines : Half) (tiles policy : Byte) (holdLimit : Half)
    (budget : Word) (live : Byte) : Option CameraSettings :=
  match objectOf 32 frameWin, objectOf 32 replayWin, policyOf policy, flagOf live with
  | some fw, some rw, some pol, some lv =>
    let c : CameraSettings := ⟨fw, rw, stride.toNat, lines.toNat, tiles.toNat, pol, holdLimit.toNat, budget.toNat, lv⟩
    if 64 ≤ c.stride ∧ c.stride ≤ 65536 ∧ c.stride % 64 = 0 ∧ 16 ≤ c.lines ∧ c.lines ≤ 2160 ∧ c.lines % 16 = 0 ∧
        1 ≤ c.tiles ∧ c.tiles ≤ 60 ∧ 1 ≤ c.holdLimit ∧ c.holdLimit ≤ 200 ∧
        CameraSettings.minBudget c.bandCount c.tiles ≤ c.budget ∧ c.budget ≤ 64 * 1048576 then some c
    else none
  | _, _, _, _ => none

/-- Two settings differ in what only a STOPPED camera may change (R44 test 3). -/
def CameraSettings.sameGeometry (a b : CameraSettings) : Bool :=
  a.frameWin == b.frameWin && a.replayWin == b.replayWin && a.stride == b.stride && a.lines == b.lines && a.tiles == b.tiles

/-- The outcome of SET CAMERA's tests, in order (R44). -/
def Part.setCameraTest (p : Part) (camera : Byte) (fields : Option CameraSettings) : Except Result (Fin 8 × CameraSettings) :=
  match objectOf 8 camera, fields with
  | some k, some c =>
    let old := p.cameras.nth k
    if p.outstanding (.stopCamera k) then .error .busy
    else if old.state = .running ∧ !old.cfg.sameGeometry c then .error .state
    else if old.state = .running ∧ (p.path.windows.nth old.cfg.replayWin).size < c.budget then .error .badField
    else .ok (k, c)
  | _, _ => .error .badField

/-- SET_CAMERA (R44). -/
def execSetCamera (tag : Word) (camera frameWin replayWin : Byte) (stride : Word) (lines : Half) (tiles policy : Byte)
    (holdLimit : Half) (budget : Word) (live : Byte) (s : State) : Host.Outcome State Fault Refusal :=
  .next (s.withPart (Part.run (.setCamera tag camera frameWin replayWin stride lines tiles policy holdLimit budget live) fun i p =>
    match p.setCameraTest camera (cameraFields frameWin replayWin stride lines tiles policy holdLimit budget live) with
    | .error e => p.refuse i tag e []
    | .ok (k, c) =>
      (p.updCamera k fun r =>
        if r.state = .running then { r with pending := some ⟨c.policy, c.holdLimit, c.budget, c.live⟩ }
        else { r with cfg := c, pending := none }).finish i tag []))

/-- START CAMERA's window tests (R45 test 4), with the window table they are made against. -/
def cameraWindowsFit (windows : Table Window 32) (k : Fin 8) (c : CameraSettings) : Bool :=
  let f := windows.nth c.frameWin
  let r := windows.nth c.replayWin
  f.state == .opened && f.kind == .frame && f.subject == k.val && decide (2 * c.slotSize ≤ f.size) &&
    r.state == .opened && r.kind == .replay && r.subject == k.val && decide (c.budget ≤ r.size)

/-- A camera goes to RUNNING with both slots EMPTY; its ring takes up the replay window; tally follows (R45). -/
def Part.startRunning (k : Fin 8) (p : Part) : Part :=
  ((p.updCamera k fun c => { c with state := .running, slotA := Slot.clear, slotB := Slot.clear }).takeExtent k true).tally

/-- START_CAMERA (R45). -/
def execStartCamera (tag : Word) (camera : Byte) (s : State) : Host.Outcome State Fault Refusal :=
  .next (s.withPart (Part.run (.startCamera tag camera) fun i p =>
    match objectOf 8 camera with
    | none => p.refuse i tag .badField []
    | some k =>
      if p.outstanding (.stopCamera k) then p.refuse i tag .busy []
      else if (p.cameras.nth k).state ≠ .stopped then p.refuse i tag .state []
      else if !cameraWindowsFit p.path.windows k (p.cameras.nth k).cfg then p.refuse i tag .badField []
      else (p.startRunning k).finish i tag []))

/-- STOP_CAMERA (R59). -/
def execStopCamera (tag : Word) (camera : Byte) (s : State) : Host.Outcome State Fault Refusal :=
  .next (s.withPart (Part.run (.stopCamera tag camera) fun i p =>
    match objectOf 8 camera with
    | none => p.refuse i tag .badField []
    | some k =>
      if p.outstanding (.stopCamera k) then p.refuse i tag .busy []
      else if (p.cameras.nth k).state ≠ .running then p.refuse i tag .state []
      else (p.defer i tag (.stopCamera k)).beginStop k))

/-- STOP_CAMERA_COMPLETE (R59): the stop completes once the coder holds no job of the camera. -/
def execStopCameraComplete (k : Fin 8) (s : State) : Host.Outcome State Fault Refusal :=
  .next (s.withPart fun p =>
    if (p.cameras.nth k).state = .stopping ∧ !p.coderOn k then p.finishStop k else p)

/-! ## FIND PICTURE (R94) -/

/-- What FIND PICTURE asks for, when its fields are in range: by number or by timecode. -/
inductive PictureKey where
  | number (n : Word)
  | timecode (t : Timecode)
  deriving DecidableEq, Repr

/-- The record a key finds: the record of the number, or the newest record of the timecode. -/
def Ring.lookup (r : Ring) : PictureKey → Option PictureRecord
  | .number n => r.find n
  | .timecode t => r.index.reverse.find? fun e => e.timecode == t

/-- The timecode's fields are within the bounds FIND PICTURE tests: those of the rate, dropped numbers
allowed (R94). -/
def PictureKey.valid (r : Rate) : PictureKey → Bool
  | .number _ => true
  | .timecode t => t.inRange r

/-- Exactly one of a number and a timecode is given (R94). -/
def pictureKey (byNumber : Byte) (number : Word) (byTimecode ff ss mm hh : Byte) : Option PictureKey :=
  match flagOf byNumber, flagOf byTimecode with
  | some true, some false => some (.number number)
  | some false, some true => some (.timecode (timecodeOf ff ss mm hh))
  | _, _ => none

/-- FIND_PICTURE (R94). -/
def execFindPicture (tag : Word) (camera byNumber : Byte) (number : Word) (byTimecode ff ss mm hh : Byte) (s : State) :
    Host.Outcome State Fault Refusal :=
  .next (s.withPart (Part.run (.findPicture tag camera byNumber number byTimecode ff ss mm hh) fun i p =>
    match objectOf 8 camera, pictureKey byNumber number byTimecode ff ss mm hh with
    | some k, some key =>
      if key.valid p.clock.rate then
        let ring := p.rings.nth k
        match ring.lookup key with
        | some r => p.finish i tag (findFields ring.base r ++ findIndex ring.index)
        | none => p.refuse i tag .notFound (zeros 36 ++ findIndex ring.index)
      else p.refuse i tag .badField []
    | _, _ => p.refuse i tag .badField []))

end Sys2Proof.Machine
end

