-- ==== Sys2Proof/Machine/Clips.lean ====
section
/-! DEFINITION. The clip controller's commands (chapter 7): marking in and out, releasing, regaining and
deleting clips, labels, the start of a clip send, and the clip list mirror. -/

namespace Sys2Proof.Machine

/-! ## Marking in (R116 to R118) -/

/-- The lowest-numbered FREE position. -/
def Clips.freePosition (c : Clips) : Option (Fin 128) := (List.finRange 128).find? fun pos => (c.table.nth pos).isNone

/-- A record holds the clip number. -/
def Clips.holds (c : Clips) (n : Nat) : Bool :=
  c.table.list.any fun r => match r with | some r => r.number == n | none => false

/-- The first number after the last one, wrapping from 65,535 to 1, that no record holds (R116). -/
def Clips.nextNumber (c : Clips) : Nat :=
  match ((List.range 129).map fun i => (c.lastNumber + i) % 65535 + 1).find? fun n => !c.holds n with
  | some n => n
  | none => 1

/-- The earlier of two pictures that may be absent. -/
def earlier (a b : Option Word) : Option Word :=
  match a, b with
  | some x, some y => if laterThan x y then some y else some x
  | some x, none => some x
  | none, y => y

/-- The in point of a new clip on a camera (R118). -/
def Part.inPointOn (p : Part) (preroll : Nat) (k : Fin 8) : Word :=
  let index := (p.rings.nth k).index
  match index.head?, index.getLast? with
  | some oldest, some newest =>
    let n := newest.number - BitVec.ofNat 32 preroll
    if atOrAfter n oldest.number then n else oldest.number
  | _, _ =>
    let c := p.cameras.nth k
    (earlier c.slotA.unfinished c.slotB.unfinished).getD c.counter

/-- What MARK IN is given (R117). -/
structure MarkRequest where
  cameras : Byte
  preroll : Nat
  limit : Nat
  labels : List Nat
  origin : Option (Fin 8)
  deriving DecidableEq, Repr

/-- The BAD FIELD test of MARK IN. -/
def MarkRequest.valid (m : MarkRequest) : Bool :=
  m.cameras != 0 && decide (m.preroll ≤ 250) && decide (1 ≤ m.limit) && decide (m.limit ≤ 30000) &&
    decide (m.preroll < m.limit) && decide (m.labels.length ≤ Config.labelMax) && !m.labels.contains 0 &&
    m.labels.Nodup

/-- The record a passing MARK IN fills. -/
def Part.newClip (p : Part) (m : MarkRequest) : Clip :=
  { number := p.clips.nextNumber, state := .opened, cameras := m.cameras,
    inPoints := Table.make fun k => if m.cameras.getLsbD k.val then p.inPointOn m.preroll k else 0,
    out := none, passed := 0, inTimecode := p.clock.timecode, origin := m.origin, preroll := m.preroll,
    limit := m.limit, labels := m.labels, forced := false, send := .unsent, outstanding := 0, failed := 0,
    skipped := 0, cursors := 0 }

/-- The pins of a clip on its cameras, over the ranges its out points end; none leaves the ranges open (R91). -/
def Part.pinClip (c : Clip) (out : Option (Table Word 8)) (p : Part) : Part :=
  (camerasOf c.cameras).foldl (fun p k => p.addPins k (c.inPoints.nth k) (out.map fun t => t.nth k)) p

/-- A clip's pins go from its cameras (R91). -/
def Part.unpinClip (c : Clip) (p : Part) : Part :=
  (camerasOf c.cameras).foldl (fun p k => p.removePins k (c.inPoints.nth k) (c.out.map fun t => t.1.nth k)) p

/-- A refused MARK IN is counted. -/
def Part.countRefusedMark (p : Part) : Part :=
  p.setClips { p.clips with refusedMarks := count p.clips.refusedMarks }

/-- MARK IN (R117): the new clip at its position, or the refusal, with the part after it. -/
def Part.markIn (m : MarkRequest) (p : Part) : Except Result (Fin 128 × Clip) × Part :=
  if !m.valid then (.error .badField, p.countRefusedMark)
  else match p.clips.freePosition with
    | none => (.error .tableFull, p.countRefusedMark)
    | some pos =>
      if (camerasOf m.cameras).any fun k => (p.cameras.nth k).state == .running then
        let c := p.newClip m
        let p1 := p.setClips { p.clips with
          table := p.clips.table.put pos (some c), lastNumber := c.number, marks := count p.clips.marks }
        (.ok (pos, c), (p1.pinClip c none).touch pos)
      else (.error .state, p.countRefusedMark)

/-- Result data that gives a point per camera at its place (12.2). -/
def pointData (head : List Byte) (cameras : Byte) (pts : Table Word 8) : List Byte := padTo 4 head ++ pointBytes cameras pts

/-- MARK_IN (R117). -/
def execMarkIn (tag : Word) (cameras preroll limitPresent : Byte) (limit : Half) (labels : List Half) (s : State) :
    Host.Outcome State Fault Refusal :=
  .next (s.withPart (Part.run (.markIn tag cameras preroll limitPresent limit labels) fun i p =>
    match flagOf limitPresent with
    | none => p.countRefusedMark.refuse i tag .badField []
    | some given =>
      let m : MarkRequest :=
        ⟨cameras, preroll.toNat, if given then limit.toNat else Config.defaultLengthLimit, labels.map (·.toNat), none⟩
      match p.markIn m with
      | (.error e, p1) => p1.refuse i tag e []
      | (.ok (_, c), p1) => p1.finish i tag (pointData (u16 c.number) c.cameras c.inPoints)))

/-! ## Closing (R120) -/

/-- MARK OUT of an OPEN clip (R120). -/
def Part.markOut (pos : Fin 128) (c : Clip) (p : Part) : Part :=
  (p.editClip pos fun c => { c with state := .kept, out := some (p.closingPoints c, p.clock.timecode) }).clearOpenClip c.number

/-- MARK_OUT (R120). -/
def execMarkOut (tag : Word) (clip : Half) (s : State) : Host.Outcome State Fault Refusal :=
  .next (s.withPart (Part.run (.markOut tag clip) fun i p =>
    match p.clipAt clip.toNat with
    | none => p.refuse i tag .notFound []
    | some (pos, c) =>
      if c.state = .opened then
        (p.markOut pos c).finish i tag (pointData [] c.cameras (p.closingPoints c))
      else p.refuse i tag .state []))

/-! ## Releasing, regaining, deleting (R122 to R124) -/

/-- UNPIN of a KEPT clip (R122). -/
def Part.releaseClip (pos : Fin 128) (c : Clip) (p : Part) : Part :=
  let p1 := p.unpinClip c
  if c.passed = 0 then p1.editClip pos fun c => { c with state := .loose } else p1.loseClip pos

/-- UNPIN (R122). -/
def execUnpin (tag : Word) (clip : Half) (s : State) : Host.Outcome State Fault Refusal :=
  .next (s.withPart (Part.run (.unpin tag clip) fun i p =>
    match p.clipAt clip.toNat with
    | none => p.refuse i tag .notFound []
    | some (pos, c) =>
      if c.state = .kept then
        (p.releaseClip pos c).finish i tag [(if c.passed = 0 then ClipState.loose else ClipState.lost).code]
      else p.refuse i tag .state []))

/-- PIN (R123). -/
def execPin (tag : Word) (clip : Half) (s : State) : Host.Outcome State Fault Refusal :=
  .next (s.withPart (Part.run (.pin tag clip) fun i p =>
    match p.clipAt clip.toNat with
    | none => p.refuse i tag .notFound []
    | some (pos, c) =>
      if c.state = .lost then p.refuse i tag .gone []
      else if c.state ≠ .loose then p.refuse i tag .state []
      else ((p.pinClip c (c.out.map (·.1))).editClip pos fun c => { c with state := .kept }).finish i tag []))

/-- DELETE CLIP's effect (R124). -/
def Part.deleteClip (pos : Fin 128) (c : Clip) (p : Part) : Part :=
  let p1 := if c.state = .opened ∨ c.state = .kept then p.unpinClip c else p
  let p2 := if c.state = .opened then p1.clearOpenClip c.number else p1
  let p3 := if c.send = .sending then p2.cancelSend pos c.number else p2
  (p3.updClip pos fun _ => none).touch pos

/-- DELETE_CLIP (R124). -/
def execDeleteClip (tag : Word) (clip : Half) (s : State) : Host.Outcome State Fault Refusal :=
  .next (s.withPart (Part.run (.deleteClip tag clip) fun i p =>
    match p.clipAt clip.toNat with
    | none => p.refuse i tag .notFound []
    | some (pos, c) => (p.deleteClip pos c).finish i tag []))

/-! ## Labels (R125) -/

/-- ADD_LABEL (R125). -/
def execAddLabel (tag : Word) (clip code : Half) (s : State) : Host.Outcome State Fault Refusal :=
  .next (s.withPart (Part.run (.addLabel tag clip code) fun i p =>
    if code = 0 then p.refuse i tag .badField []
    else match p.clipAt clip.toNat with
      | none => p.refuse i tag .notFound []
      | some (pos, c) =>
        if code.toNat ∈ c.labels then p.refuse i tag .badField []
        else if Config.labelMax ≤ c.labels.length then p.refuse i tag .tableFull []
        else (p.editClip pos fun c => { c with labels := c.labels ++ [code.toNat] }).finish i tag []))

/-- REMOVE_LABEL (R125). -/
def execRemoveLabel (tag : Word) (clip code : Half) (s : State) : Host.Outcome State Fault Refusal :=
  .next (s.withPart (Part.run (.removeLabel tag clip code) fun i p =>
    if code = 0 then p.refuse i tag .badField []
    else match p.clipAt clip.toNat with
      | none => p.refuse i tag .notFound []
      | some (pos, c) =>
        if code.toNat ∈ c.labels then
          (p.editClip pos fun c => { c with labels := c.labels.filter fun l => l != code.toNat }).finish i tag []
        else p.refuse i tag .notFound []))

/-! ## The start of a clip send (R126, R136) -/

/-- SEND CLIP's effect: the account, the LABEL item, the cursors and their first steps. -/
def Part.sendClip (pos : Fin 128) (c : Clip) (outs : Table Word 8) (p : Part) : Part :=
  let p1 := p.editClip pos fun c =>
    { c with outstanding := 0, failed := 0, skipped := 0, cursors := (camerasOf c.cameras).length, send := .sending }
  let p2 := p1.makeLabel pos c.number (labelSnapshot c)
  ((p2.takeCursors pos c outs).stepCursors).testSendEnd pos

/-- SEND_CLIP (R126). -/
def execSendClip (tag : Word) (clip : Half) (s : State) : Host.Outcome State Fault Refusal :=
  .next (s.withPart (Part.run (.sendClip tag clip) fun i p =>
    match p.clipAt clip.toNat with
    | none => p.refuse i tag .notFound []
    | some (pos, c) =>
      match c.state, c.out with
      | .kept, some (outs, _) =>
        if c.send = .sending then p.refuse i tag .state []
        else if p.sender.freeCursors.length < (camerasOf c.cameras).length then p.refuse i tag .busy []
        else (p.sendClip pos c outs).finish i tag []
      | _, _ => p.refuse i tag .state []))

/-! ## The clip list mirror (R128, R129) -/

/-- A window of kind CLIP LIST has opened: every position is pending (R129). -/
def Part.mirrorAll (p : Part) : Part := p.setClips { p.clips with mirror := List.finRange 128 }

/-- The OPEN CLIP LIST window goes to DRAINING: an offer not yet granted is withdrawn and its position is
pending again (R129). -/
def Part.mirrorWithdraw (p : Part) : Part :=
  match p.clips.writing, p.path.streams.nth clipsStream with
  | some pos, some _ => ((p.withdraw clipsStream).setClips { p.clips with writing := none }).touch pos
  | _, _ => p

/-- The lowest pending position's image is taken and its write is offered (R128). -/
def Part.mirrorStart (p : Part) : Part :=
  match p.clips.writing, p.clips.mirror, p.path.openOf .clipList with
  | none, pos :: rest, some w =>
    if p.path.streamIdle clipsStream then
      (p.setClips { p.clips with mirror := rest, writing := some pos }).offer clipsStream
        (writeRequest ((p.path.windows.nth w).base + 256 * pos.val) (entryImage (p.clips.table.nth pos)))
    else p
  | _, _, _ => p

/-- MIRROR_WRITE_START (R128). -/
def execMirrorWriteStart (s : State) : Host.Outcome State Fault Refusal := .next (s.withPart Part.mirrorStart)

/-- A transfer of the CLIPS stream completes: the mirror write in progress ends (R128). -/
def Part.clipsTransfer (p : Part) : Part := p.setClips { p.clips with writing := none }

end Sys2Proof.Machine
end

