-- ==== Sys2Proof/Machine/Cue.lean ====
section
/-! DEFINITION. The cue line unit (2.3 to 2.5): raw changes, debounce, mark presses, and the commands that set
and drive a line. -/

namespace Sys2Proof.Machine

namespace CueMode

/-- The modes in which the pin is sampled and debounced. -/
def sampled : CueMode → Bool
  | .input | .mark => true
  | .off | .tally | .output => false

end CueMode

/-- A change of the raw level of a sampled line (R37). -/
def CueLine.rawChange (c : CueLine) (now : Nat) (high : Bool) : CueLine :=
  if c.cfg.mode.sampled ∧ c.raw ≠ high then
    { c with
        pin := high, raw := high,
        debounceTimer := if high = c.debounced then none else some (now + c.cfg.debounce * Config.ms) }
  else { c with pin := high }

/-- CUE_RAW_CHANGE (R37). -/
def execCueRawChange (dt : Nat) (line : Fin 8) (high : Bool) (s : State) : Host.Outcome State Fault Refusal :=
  .next (s.withPart fun p => (p.after dt).updCue line fun c => c.rawChange (p.now + dt) high)

/-- A mark press refused: counted and notified (R38). -/
def Part.refusedPress (line : Fin 8) (p : Part) : Part :=
  (p.updCue line fun c => { c with refusedPresses := count c.refusedPresses }).raise .cue line.val

/-- A mark press performs MARK IN (R38). -/
def Part.pressIn (line : Fin 8) (p : Part) : Part :=
  let c := (p.cues.nth line).cfg
  match p.markIn ⟨c.cameras, c.preroll, Config.defaultLengthLimit, [], some line⟩ with
  | (.ok (_, clip), p1) => p1.updCue line fun c => { c with openClip := some clip.number }
  | (.error _, p1) => p1.refusedPress line

/-- A mark press (R38). -/
def Part.markPress (line : Fin 8) (p : Part) : Part :=
  let p1 := p.updCue line fun c => { c with presses := count c.presses }
  match (p1.cues.nth line).openClip with
  | none => p1.pressIn line
  | some n =>
    match p1.clipAt n with
    | some (pos, c) => p1.markOut pos c
    | none => p1

/-- The debounced level takes the raw level (R37). -/
def CueLine.settle (c : CueLine) : CueLine := { c with debounced := c.raw, debounceTimer := none }

/-- The line's debounce timer expires (R37, R38). -/
def Part.debounceExpiry (line : Fin 8) (p : Part) : Part :=
  let c := p.cues.nth line
  match c.debounceTimer with
  | none => p
  | some t =>
    let p1 := (p.reach t).updCue line CueLine.settle
    if c.cfg.mode = .mark ∧ c.debounced ∧ !c.raw then p1.markPress line else p1

/-- DEBOUNCE_EXPIRY (R37). -/
def execDebounceExpiry (line : Fin 8) (s : State) : Host.Outcome State Fault Refusal :=
  .next (s.withPart (Part.debounceExpiry line))

/-- The fields of SET CUE LINE or of an image's cue line entry, in range (R36). -/
def cueFields (mode drive : Byte) (debounce : Half) (cameras preroll tally : Byte) : Option CueSettings :=
  match cueModeOf mode, driveOf drive with
  | some m, some d =>
    if m.sampled ∧ ¬(1 ≤ debounce.toNat ∧ debounce.toNat ≤ 50) then none
    else if m = .mark ∧ (cameras = 0 ∨ 250 < preroll.toNat) then none
    else if m = .tally ∧ 7 < tally.toNat then none
    else some ⟨m, d, debounce.toNat, cameras, preroll.toNat, tally.toNat⟩
  | _, _ => none

/-- A line takes new settings (R36): debounce abandoned, levels taken from the pin, output OFF, no open clip. -/
def CueLine.takeSettings (c : CueLine) (cfg : CueSettings) : CueLine :=
  { c with
      cfg := cfg, debounceTimer := none, outputOn := false, openClip := none,
      raw := if cfg.mode.sampled then c.pin else c.raw,
      debounced := if cfg.mode.sampled then c.pin else c.debounced }

/-- SET_CUE_LINE (R36). -/
def execSetCueLine (tag : Word) (line mode drive : Byte) (debounce : Half) (cameras preroll tally : Byte) (s : State) :
    Host.Outcome State Fault Refusal :=
  .next (s.withPart (Part.run (.setCueLine tag line mode drive debounce cameras preroll tally) fun i p =>
    match objectOf 8 line, cueFields mode drive debounce cameras preroll tally with
    | some l, some cfg => ((p.updCue l fun c => c.takeSettings cfg).tally).finish i tag []
    | _, _ => p.refuse i tag .badField []))

/-- DRIVE_CUE_LINE (R41). -/
def execDriveCueLine (tag : Word) (line value : Byte) (s : State) : Host.Outcome State Fault Refusal :=
  .next (s.withPart (Part.run (.driveCueLine tag line value) fun i p =>
    match objectOf 8 line, onOffOf value with
    | some l, some on =>
      if (p.cues.nth l).cfg.mode = .output then (p.updCue l fun c => { c with outputOn := on }).finish i tag []
      else p.refuse i tag .state []
    | _, _ => p.refuse i tag .badField []))

end Sys2Proof.Machine
end

