-- ==== Sys2Proof/Machine/Send.lean ====
section
/-! DEFINITION. The send engine's events and commands (chapter 8): stale items, cursor steps, builds, expiry,
the return messages taken from the lanes' FIFOs, SET CLASS and FLUSH CLASS. -/

namespace Sys2Proof.Machine

/-- An item still queued at its stale time is dropped and counted as a loss (R135). -/
def Part.itemStale (id : Nat) (p : Part) : Part :=
  match p.sender.item id with
  | none => p
  | some i =>
    if i.queued then
      (((p.reach i.stale).onClass i.kind.cls fun r => { r with droppedStale := count r.droppedStale }).lossOf i.kind.cls).dropFromQueue id
    else p

/-- ITEM_STALE (R135). -/
def execItemStale (item : Nat) (s : State) : Host.Outcome State Fault Refusal := .next (s.withPart (Part.itemStale item))

/-- CURSOR_STEP (R137). -/
def execCursorStep (s : State) : Host.Outcome State Fault Refusal := .next (s.withPart Part.stepCursors)

/-- BUILD_START (R138). -/
def execBuildStart (s : State) : Host.Outcome State Fault Refusal := .next (s.withPart Part.startBuild)

/-- An unsettled descriptor reaches its expiry time (R148). -/
def Part.descriptorExpiry (seq : Word) (p : Part) : Part :=
  match p.sender.unsettled seq with
  | none => p
  | some d =>
    (((p.reach d.expiry).settleDesc d .expired).onClass d.cls fun r => { r with expired := count r.expired }).lossOf d.cls

/-- DESCRIPTOR_EXPIRY (R148). -/
def execDescriptorExpiry (seq : Word) (s : State) : Host.Outcome State Fault Refusal :=
  .next (s.withPart (Part.descriptorExpiry seq))

/-! ## Return messages (R144 to R147) -/

def Part.countSend (f : SendCounters → SendCounters) (p : Part) : Part :=
  p.setSender { p.sender with counts := f p.sender.counts }

/-- A message leaves its FIFO, and a hold output asserted for want of a place is withdrawn (R144, R167). -/
def Lane.takeMessage (l : Lane) : Lane :=
  { l with
      fifo := l.fifo.tail,
      returnHold := match l.cfg.policy with | .holdOff => false | .overrun => l.returnHold }

/-- The message at the head of a lane's FIFO, when it is of the kind that `kind` selects, is taken; one for
another station is discarded and counted, and any other is acted on (R144). -/
def Part.takeMessage {α : Type} (l : Fin 4) (kind : MessageBody → Option α) (act : α → Part → Part) (p : Part) : Part :=
  match (p.lanes.nth l).fifo with
  | [] => p
  | m :: _ =>
    match kind m.body with
    | none => p
    | some x =>
      let p1 := p.updLane l Lane.takeMessage
      if m.station = p.loader.station ∨ m.station = 0 then act x p1
      else p1.countSend fun c => { c with otherStation := count c.otherStation }

/-- One number of a RECEIPT's range (R145). -/
def Part.receiptOf (p : Part) (seq : Word) : Part :=
  match p.sender.unsettled seq with
  | some d => (p.settleDesc d .receipted).countSend fun c => { c with receipts := count c.receipts }
  | none => p.countSend fun c => { c with staleReceipts := count c.staleReceipts }

/-- A RECEIPT is acted on (R145). -/
def Part.receipt (range : Word × Word) (p : Part) : Part :=
  let n := spanOf range.1 range.2
  if 512 ≤ n then p.countSend fun c => { c with wideReceipts := count c.wideReceipts }
  else ((List.range n).map fun i => range.1 + BitVec.ofNat 32 i).foldl Part.receiptOf p

/-- RECEIPT (R145). -/
def execReceipt (lane : Fin 4) (s : State) : Host.Outcome State Fault Refusal :=
  .next (s.withPart (Part.takeMessage lane
    (fun b => match b with | .receipt first last => some (first, last) | _ => none) Part.receipt))

/-- A RESEND is acted on (R146). -/
def Part.resend (seq : Word) (p : Part) : Part :=
  match p.sender.unsettled seq with
  | none => p.countSend fun c => { c with lateResends := count c.lateResends }
  | some d =>
    match d.state with
    | .awaitingReceipt =>
      if d.dispatches < 3 ∧ !d.noResend then
        (p.updDesc seq fun d => { d with state := .waiting, dispatches := d.dispatches + 1 }).countSend
          fun c => { c with resends := count c.resends }
      else p.countSend fun c => { c with lateResends := count c.lateResends }
    | .building | .queuedOnLane | .transmitting | .waiting =>
      p.countSend fun c => { c with duplicateResends := count c.duplicateResends }

/-- RESEND (R146). -/
def execResend (lane : Fin 4) (s : State) : Host.Outcome State Fault Refusal :=
  .next (s.withPart (Part.takeMessage lane (fun b => match b with | .resend seq => some seq | _ => none) Part.resend))

/-- A LANE TEST is acted on (R147). -/
def Part.laneTest (lane : Fin 4) (token : Word) (p : Part) : Part :=
  if p.eligible lane Config.echoBytes then
    (p.queueFrame lane ⟨.echo token, echoFrame p.loader.station token⟩).countSend
      fun c => { c with echoes := count c.echoes }
  else p.countSend fun c => { c with droppedEchoes := count c.droppedEchoes }

/-- LANE_TEST (R147). -/
def execLaneTest (lane : Fin 4) (s : State) : Host.Outcome State Fault Refusal :=
  .next (s.withPart (Part.takeMessage lane (fun b => match b with | .laneTest t => some t | _ => none) (Part.laneTest lane)))

/-! ## Class commands (R150, R151) -/

/-- The fields of SET CLASS or of an image's class entry, in range: interval and hold time (R150). -/
def classFields (interval hold : Half) : Option (Nat × Nat) :=
  if 1 ≤ interval.toNat ∧ interval.toNat ≤ 255 ∧ 1 ≤ hold.toNat ∧ hold.toNat ≤ 60000 then some (interval.toNat, hold.toNat)
  else none

/-- SET_CLASS (R150). -/
def execSetClass (tag : Word) (cls : Byte) (interval hold : Half) (s : State) : Host.Outcome State Fault Refusal :=
  .next (s.withPart (Part.run (.setClass tag cls interval hold) fun i p =>
    match objectOf 4 cls, classFields interval hold with
    | some c, some (n, h) => (p.updClass c fun r => { r with interval := n, hold := h }).finish i tag []
    | _, _ => p.refuse i tag .badField []))

/-- Every item in a class queue is flushed (R151). -/
def Part.flushClass (c : Fin 4) (p : Part) : Part :=
  let items := p.sender.queueOf (SendClass.ofIndex c)
  let p1 := items.foldl (fun p i => p.dropFromQueue i.id) p
  p1.updClass c fun r => { r with flushed := countBy items.length r.flushed, wait := 0 }

/-- FLUSH_CLASS (R151). -/
def execFlushClass (tag : Word) (cls : Byte) (s : State) : Host.Outcome State Fault Refusal :=
  .next (s.withPart (Part.run (.flushClass tag cls) fun i p =>
    match objectOf 4 cls with
    | none => p.refuse i tag .badField []
    | some c => (p.flushClass c).finish i tag (u16 (p.sender.queueOf (SendClass.ofIndex c)).length)))

end Sys2Proof.Machine
end

