-- ==== Sys2Proof/Machine/Lanes.lean ====
section
/-! DEFINITION. The lane controller (chapter 9): carrier, transmission, modem hold, breaks, the receive path
and the return FIFO, and the commands of a lane. -/

namespace Sys2Proof.Machine

/-! ## Settings (R156) -/

/-- The fields of SET LANE or of an image's lane entry, in range (R156 test 1). -/
def laneFields (divider window : Half) (filter depth policy : Byte) (initialOn : Bool) : Option LaneSettings :=
  match filterOf filter, fullPolicyOf policy with
  | some f, some pol =>
    if 2 ≤ divider.toNat ∧ 4 ≤ window.toNat ∧ window.toNat ≤ 256 ∧ (depth = 1 ∨ depth = 8) then
      some ⟨divider.toNat, window.toNat, f, depth.toNat, pol, initialOn⟩
    else none
  | _, _ => none

/-- SET_LANE (R156). -/
def execSetLane (tag : Word) (lane : Byte) (divider window : Half) (filter depth policy : Byte) (s : State) :
    Host.Outcome State Fault Refusal :=
  .next (s.withPart (Part.run (.setLane tag lane divider window filter depth policy) fun i p =>
    match objectOf 4 lane, laneFields divider window filter depth policy false with
    | some l, some c =>
      if p.outstanding (.laneOff l) then p.refuse i tag .busy []
      else if (p.lanes.nth l).state ≠ .off then p.refuse i tag .state []
      else (p.updLane l fun r => { r with cfg := { c with initialOn := r.cfg.initialOn } }).finish i tag []
    | _, _ => p.refuse i tag .badField []))

/-! ## Turning on (R157) -/

/-- A lane is turned on (R157). -/
def Lane.turnOn (l : Lane) (now : Nat) : Lane :=
  { l with
      state := .waitCarrier,
      breakEnd := match l.breakEnd with | some t => some t | none => some (now + l.breakTime),
      counts := { l.counts with breaksSent := count l.counts.breaksSent },
      filtered := l.carrier, filterTimer := none,
      settleTimer := if l.carrier then some (now + Config.settleTime) else none,
      receive := .between, fifo := [] }

/-- LANE_ON (R157). -/
def execLaneOn (tag : Word) (lane : Byte) (s : State) : Host.Outcome State Fault Refusal :=
  .next (s.withPart (Part.run (.laneOn tag lane) fun i p =>
    match objectOf 4 lane with
    | none => p.refuse i tag .badField []
    | some l =>
      if p.outstanding (.laneOff l) then p.refuse i tag .busy []
      else if (p.lanes.nth l).state ≠ .off then p.refuse i tag .state []
      else (p.updLane l fun r => r.turnOn p.now).finish i tag []))

/-! ## Failing and turning off (R160, R164) -/

/-- The frames a lane holds, the one transmitting first. -/
def Lane.held (l : Lane) : List TxFrame := (match l.sending with | some (f, _) => [f] | none => []) ++ l.queue

/-- The frame transmitting, if any, leaves the part broken off. -/
def Part.breakOff (l : Fin 4) (p : Part) : Part :=
  match (p.lanes.nth l).sending with
  | some (f, _) => p.emit (.frameBroken l f.kind)
  | none => p

/-- A lane in UP fails (R160). -/
def Part.laneFail (l : Fin 4) (p : Part) : Part :=
  let frames := (p.lanes.nth l).held
  let p1 := (p.breakOff l).updLane l fun r =>
    { r with
        state := .down, counts := { r.counts with carrierLosses := count r.counts.carrierLosses },
        sending := none, queue := [], settleTimer := none }
  (p1.returnFrames frames).raise .lane l.val

/-- The lane's receive path and timers stop, its line breaks off a frame, and its queue and FIFO empty
(R164 steps 1, 2 and 4; R169). -/
def Lane.cut (l : Lane) (now : Nat) : Lane :=
  { l with
      state := .off, filterTimer := none, settleTimer := none, receive := .between,
      breakEnd := if l.sending.isSome then some (now + l.breakTime) else l.breakEnd,
      sending := none, queue := [], fifo := [], returnHold := false }

/-- LANE OFF's effect at its take (R164). -/
def Part.turnOff (l : Fin 4) (p : Part) : Part :=
  let frames := (p.lanes.nth l).held
  let p1 := (p.breakOff l).updLane l fun r => { (r.cut p.now) with counts := ⟨0, 0, 0, 0, 0, 0⟩ }
  p1.returnFrames frames

/-- LANE_OFF (R164). -/
def execLaneOff (tag : Word) (lane : Byte) (s : State) : Host.Outcome State Fault Refusal :=
  .next (s.withPart (Part.run (.laneOff tag lane) fun i p =>
    match objectOf 4 lane with
    | none => p.refuse i tag .badField []
    | some l =>
      if p.outstanding (.laneOff l) then p.refuse i tag .busy []
      else
        let p1 := p.turnOff l
        if (p1.lanes.nth l).breakEnd.isSome then p1.defer i tag (.laneOff l) else p1.finish i tag []))

/-- The break on a lane's transmit line ends, and an outstanding LANE OFF completes (R164). With no break in progress
R161 applies; the settle time is longer than any break (R157), so a lane that is UP has none to end. -/
def Part.breakSentEnd (l : Fin 4) (p : Part) : Part :=
  match (p.lanes.nth l).breakEnd with
  | none => p
  | some t =>
    (((p.reach t).updLane l fun r => { r with breakEnd := none }).transmitStart l).completeDeferred (.laneOff l) .done

/-- BREAK_SENT_END (R164). -/
def execBreakSentEnd (lane : Fin 4) (s : State) : Host.Outcome State Fault Refusal := .next (s.withPart (Part.breakSentEnd lane))

/-! ## Carrier (R158 to R160) -/

/-- The filtered carrier takes a level (R159, R160). -/
def Part.filteredCarrier (l : Fin 4) (present : Bool) (p : Part) : Part :=
  let p1 := p.updLane l fun r => { r with filtered := present, filterTimer := none }
  if present then
    if (p.lanes.nth l).state = .waitCarrier ∨ (p.lanes.nth l).state = .down then
      p1.updLane l fun r => { r with settleTimer := some (p.now + Config.settleTime) }
    else p1
  else
    let p2 := p1.updLane l fun r => { r with settleTimer := none }
    if (p.lanes.nth l).state = .up then p2.laneFail l else p2

/-- The carrier detect input takes a level (R158). -/
def Part.carrierChange (l : Fin 4) (present : Bool) (p : Part) : Part :=
  let r := p.lanes.nth l
  let p1 := p.updLane l fun r => { r with carrier := present }
  if r.state = .off ∨ r.carrier = present then p1
  else match r.cfg.filter.width with
    | none => p1.filteredCarrier l present
    | some w =>
      p1.updLane l fun r => { r with filterTimer := if present = r.filtered then none else some (p.now + w) }

/-- CARRIER_CHANGE (R158). -/
def execCarrierChange (dt : Nat) (lane : Fin 4) (present : Bool) (s : State) : Host.Outcome State Fault Refusal :=
  .next (s.withPart fun p => (p.after dt).carrierChange lane present)

/-- The carrier filter timer expires (R158). -/
def Part.filterExpiry (l : Fin 4) (p : Part) : Part :=
  match (p.lanes.nth l).filterTimer with
  | none => p
  | some t => (p.reach t).filteredCarrier l (p.lanes.nth l).carrier

/-- CARRIER_FILTER_EXPIRY (R158). -/
def execCarrierFilterExpiry (lane : Fin 4) (s : State) : Host.Outcome State Fault Refusal :=
  .next (s.withPart (Part.filterExpiry lane))

/-- The settle timer expires (R159), and R161 applies as the lane goes UP. -/
def Part.settleExpiry (l : Fin 4) (p : Part) : Part :=
  match (p.lanes.nth l).settleTimer with
  | none => p
  | some t =>
    (((p.reach t).updLane l fun r => { r with state := .up, settleTimer := none }).transmitStart l).raise .lane l.val

/-- SETTLE_EXPIRY (R159). -/
def execSettleExpiry (lane : Fin 4) (s : State) : Host.Outcome State Fault Refusal := .next (s.withPart (Part.settleExpiry lane))

/-- MODEM_HOLD_CHANGE (R163): as the flag goes off, R161 applies at this event. -/
def execModemHoldChange (dt : Nat) (lane : Fin 4) (asserted : Bool) (s : State) : Host.Outcome State Fault Refusal :=
  .next (s.withPart fun p => ((p.after dt).updLane lane fun r => { r with modemHold := asserted }).transmitStart lane)

/-! ## Transmission (R161, R162) -/

/-- TRANSMIT_START (R161), as a step of its own: the events of R161 begin a transmission themselves, so this step
finds one to begin only in a state they have not led to. -/
def execTransmitStart (lane : Fin 4) (s : State) : Host.Outcome State Fault Refusal := .next (s.withPart (Part.transmitStart lane))

/-- A sent frame's descriptor awaits its receipt, or is removed if it was settled (R143). -/
def Part.frameSent (f : TxFrame) (p : Part) : Part :=
  match f.kind with
  | .echo _ => p
  | .link seq =>
    match p.sender.store.find? fun d => d.seq == seq with
    | none => p
    | some d =>
      if d.mark.isSome then p.removeDesc seq
      else p.updDesc seq fun d => { d with state := .awaitingReceipt, lane := none }

/-- A frame's transmission ends (R162), and the next queued frame begins at that same event (R161). -/
def Part.transmitComplete (l : Fin 4) (p : Part) : Part :=
  match (p.lanes.nth l).sending with
  | none => p
  | some (f, t) =>
    let p1 := (p.reach t).updLane l fun r =>
      { r with sending := none, counts := { r.counts with framesSent := count r.counts.framesSent } }
    ((p1.emit (.frame l f.bytes)).frameSent f).transmitStart l

/-- TRANSMIT_COMPLETE (R162). -/
def execTransmitComplete (lane : Fin 4) (s : State) : Host.Outcome State Fault Refusal :=
  .next (s.withPart (Part.transmitComplete lane))

/-! ## Breaks and messages received (R165 to R167) -/

def Lane.countFraming (l : Lane) : Lane := { l with counts := { l.counts with framingErrors := count l.counts.framingErrors } }

/-- The end of what the receive path was doing when a break comes (R165, R166; assumption 19): a message
partly received, or a run of discarded bytes, adds one framing error. -/
def Lane.endReceive (l : Lane) (afterRun : Bool) : Lane :=
  if l.receive = .gathering ∨ (l.receive = .between ∧ afterRun) then l.countFraming else l

/-- A break has been received (R165). -/
def Part.breakReceived (l : Fin 4) (afterRun : Bool) (p : Part) : Part :=
  let r := p.lanes.nth l
  if r.state = .off ∨ r.receive = .inBreak then p
  else
    let p1 := p.updLane l fun r => { (r.endReceive afterRun) with receive := .inBreak, settleTimer := none }
    if r.state = .up then p1.laneFail l else p1

/-- BREAK_RECEIVED (R165). -/
def execBreakReceived (dt : Nat) (lane : Fin 4) (afterRun : Bool) (s : State) : Host.Outcome State Fault Refusal :=
  .next (s.withPart fun p => (p.after dt).breakReceived lane afterRun)

/-- The receive line leaves its break condition (R165). -/
def Lane.breakOver (l : Lane) (now : Nat) : Lane :=
  if l.receive = .inBreak ∧ l.state ≠ .off then
    { l with
        receive := .between,
        settleTimer := if l.filtered ∧ l.state ≠ .up then some (now + Config.settleTime) else l.settleTimer }
  else l

/-- BREAK_RECEIVE_END (R165). -/
def execBreakReceiveEnd (dt : Nat) (lane : Fin 4) (s : State) : Host.Outcome State Fault Refusal :=
  .next (s.withPart fun p => (p.after dt).updLane lane fun r => r.breakOver (p.now + dt))

/-- A marker's first byte is received between messages (R166). -/
def Lane.beginMessage (l : Lane) (afterRun : Bool) : Lane :=
  if l.receive = .between ∧ l.state ≠ .off then { (if afterRun then l.countFraming else l) with receive := .gathering } else l

/-- MARKER_FIRST_BYTE (R166). -/
def execMarkerFirstByte (dt : Nat) (lane : Fin 4) (afterRun : Bool) (s : State) : Host.Outcome State Fault Refusal :=
  .next (s.withPart fun p => (p.after dt).updLane lane fun r => r.beginMessage afterRun)

/-- A good message is offered to the return FIFO (R167). -/
def Lane.enterFifo (l : Lane) (m : ReturnMessage) : Lane :=
  if l.fifo.length < l.cfg.depth then
    { l with
        fifo := l.fifo ++ [m],
        returnHold := match l.cfg.policy with
          | .holdOff => l.returnHold || decide (l.cfg.depth ≤ l.fifo.length + 1)
          | .overrun => l.returnHold }
  else { l with counts := { l.counts with overruns := count l.counts.overruns } }

/-- The bytes gathered end a message, which is checked (R166). -/
def Lane.messageEnd (l : Lane) (bytes : List Byte) : Lane :=
  if l.receive = .gathering ∧ l.state ≠ .off then
    match readMessage bytes with
    | .incomplete => l
    | .framing => { l.countFraming with receive := .between }
    | .check => { l with receive := .between, counts := { l.counts with checkErrors := count l.counts.checkErrors } }
    | .good m => { (l.enterFifo m) with receive := .between }
  else l

/-- RETURN_MESSAGE_END (R166). -/
def execReturnMessageEnd (dt : Nat) (lane : Fin 4) (bytes : List Byte) (s : State) : Host.Outcome State Fault Refusal :=
  .next (s.withPart fun p => (p.after dt).updLane lane fun r => r.messageEnd bytes)

end Sys2Proof.Machine
end

