-- ==== Sys2Proof/Machine/Path.lean ====
section
/-! DEFINITION. The memory path (chapter 1) but for the end of a transfer: admission, the head check, refusals,
grants, refresh, windows and quiescing. -/

namespace Sys2Proof.Machine

/-! ## Refusals (R5) -/

/-- A refusal is answered, counted, recorded and notified (R5). -/
def Part.refuseRequest (port : Fin 6) (tag : BitVec 6) (r : Request) (why : Reason) (p : Part) : Part :=
  ((p.emit (.refused port tag why)).updPort port fun q =>
    { q with refusals := count q.refusals, last := some ⟨why, r.first, r.kind⟩ }).raise .access port.val

/-- The head of a port queue leaves it. -/
def Port.popHead (q : Port) : Port := { q with queue := q.queue.tail }

/-! ## The head check (R3, R4, R8 to R14) -/

/-- How a request's check comes out. -/
inductive Verdict where
  | refuse (why : Reason)
  /-- offered, at the line given -/
  | pass (via : Option (Fin 32)) (line : Nat) (tracked : Bool)
  | hold (via : Fin 32)
  deriving DecidableEq, Repr

/-- A READ in an ALIAS window (R10, R58). -/
def Part.aliasVerdict (w : Fin 32) (r : Request) (p : Part) : Verdict :=
  let win := p.path.windows.nth w
  if h : win.subject < 8 then
    let k : Fin 8 := ⟨win.subject, h⟩
    match (p.cameras.nth k).latestDone with
    | none => .refuse .notReady
    | some i =>
      let off := r.first - win.base
      if (p.cameras.nth k).cfg.slotSize < off + r.bytes then .refuse .split
      else .pass (some w) ((p.slotBase k i + off) / Config.lineBytes) false
  else .refuse .notReady

/-- A WRITE in a FRAME window, which may be a slot start (R9). Only a write that R50 or R52 passes untracked is
untracked from its check on; whether any other is a band write is asked at its transfer (R46; assumption 14). -/
def Part.frameVerdict (port : Fin 6) (tag : BitVec 6) (w : Fin 32) (r : Request) (p : Part) : Verdict × Part :=
  match p.startOf w r with
  | none => (.pass (some w) r.line true, p)
  | some (k, i) =>
    match p.judgeStart k i port tag with
    | (.pass tracked, p1) => (.pass (some w) r.line tracked, p1)
    | (.hold, p1) => (.hold w, p1)

/-- Test 5 of the head check: the action of the window's kind (1.4.1). -/
def Part.kindVerdict (port : Fin 6) (tag : BitVec 6) (w : Fin 32) (r : Request) (p : Part) : Verdict × Part :=
  let win := p.path.windows.nth w
  let pass : Verdict := .pass (some w) r.line false
  match win.kind, r.kind with
  | .plain, _ | .sound, _ | .command, _ => (pass, p)
  | .frame, .read | .replay, .read | .programme, .read | .status, .read | .clipList, .read => (pass, p)
  | .frame, .write => p.frameVerdict port tag w r
  | .aliased, .read => (p.aliasVerdict w r, p)
  | .aliased, .write | .replay, .write | .programme, .write | .clipList, .write => (.refuse .denied, p)
  | .status, .write => (if r.onlyWithin win.base 8 then pass else .refuse .denied, p)

/-- The port is in the set a window gives for this direction (R4 test 4). -/
def Window.admits (w : Window) (port : Fin 6) (k : ReqKind) : Bool :=
  match k with
  | .read => w.readers.getLsbD port.val
  | .write => w.writers.getLsbD port.val

/-- The tests of the head check, in order (R4). -/
def Part.judge (port : Fin 6) (tag : BitVec 6) (r : Request) (p : Part) : Verdict × Part :=
  if Config.dramBytes < r.next then (.refuse .noMemory, p)
  else match p.path.place r.first r.next with
    | .split => (.refuse .split, p)
    | .openGround => (.pass none r.line false, p)
    | .inside w =>
      if (p.path.windows.nth w).state = .draining then (.refuse .closing, p)
      else if !(p.path.windows.nth w).admits port r.kind then (.refuse .denied, p)
      else p.kindVerdict port tag w r

/-- The head request, checked and passed, is offered. -/
def Admitted.passed (a : Admitted) (via : Option (Fin 32)) (line : Nat) (tracked : Bool) : Admitted :=
  { a with phase := .offered, via := via, target := line, tracked := tracked }

/-- The head request is checked, and after a refusal the next one, until a head passes, is held, or none is
left (R3). -/
def Part.checkHeads (port : Fin 6) : Nat → Part → Part
  | 0, p => p
  | fuel + 1, p =>
    match (p.path.ports.nth port).queue with
    | [] => p
    | a :: _ =>
      if a.phase = .waiting then
        match p.judge port a.tag a.req with
        | (.refuse why, p1) =>
          Part.checkHeads port fuel ((p1.refuseRequest port a.tag a.req why).updPort port Port.popHead)
        | (.pass via line tracked, p1) => p1.updPort port fun q => q.updHead fun a => a.passed via line tracked
        | (.hold w, p1) => p1.updPort port fun q => q.updHead fun a => { a with phase := .held, via := some w }
      else p

/-- The new head of a port queue, if any, is checked (R3). -/
def Part.checkHead (port : Fin 6) (p : Part) : Part := p.checkHeads port (p.path.ports.nth port).queue.length

/-! ## Admission (R1, R6) -/

/-- The fields of a client request are ones a request carries: 1 to 4 lines, and a WRITE's data and masks for
every byte of them (1.1). -/
def requestFits (kind : ReqKind) (cnt : Nat) (data : List (Byte × Bool)) : Bool :=
  decide (1 ≤ cnt) && decide (cnt ≤ 4) &&
    (match kind with | .read => data.isEmpty | .write => data.length == Config.lineBytes * cnt)

/-- The tag is in use by an unanswered request of the port. -/
def Port.tagUsed (q : Port) (tag : BitVec 6) : Bool := q.queue.any fun a => a.tag == tag

/-- A request is admitted behind those in the queue; at the head of an empty queue it is checked (R1, R3, R6). -/
def Part.letIn (port : Fin 6) (tag : BitVec 6) (r : Request) (p : Part) : Part :=
  let a : Admitted := ⟨tag, r, .waiting, p.path.countedIn r.first r.next, none, r.line, false⟩
  (p.updPort port fun q => { q with queue := q.queue ++ [a] }).checkHead port

/-- A client presents a request (R1). -/
def Part.present (port : Fin 6) (tag : BitVec 6) (r : Request) (p : Part) : Part :=
  if !p.path.readyLine port then p
  else if (p.path.ports.nth port).tagUsed tag then p.refuseRequest port tag r .tagInUse
  else p.letIn port tag r

/-- CLIENT_REQUEST (R1). A request that carries other than a request's fields is none: only time passes. -/
def execClientRequest (dt : Nat) (port : Fin 6) (tag : BitVec 6) (kind : ReqKind) (line cnt : Nat) (data : List (Byte × Bool))
    (s : State) : Host.Outcome State Fault Refusal :=
  .next (s.withPart fun p =>
    if requestFits kind cnt data then (p.after dt).present port tag ⟨kind, line, cnt, data⟩ else p.after dt)

/-! ## Grants (R17) -/

/-- The wait counts after a grant to a contender. -/
def Path.waitsAfter (p : Path) (c : Fin 11) : Table Nat 11 :=
  Table.make fun i => if i = c then 0 else if p.offers i then count (p.waits.nth i) else p.waits.nth i

/-- The channel goes to a contender. -/
def Part.grantTo (c : Fin 11) (p : Part) : Part :=
  let waits := p.path.waitsAfter c
  if h : c.val < 6 then
    let port : Fin 6 := ⟨c.val, h⟩
    (p.setPath { p.path with waits := waits, channel := .client port }).updPort port fun q =>
      q.updHead fun a => { a with phase := .granted }
  else
    let i : Fin 5 := ⟨c.val - 6, by omega⟩
    match p.path.streams.nth i with
    | none => p
    | some r => p.setPath { p.path with waits := waits, channel := .stream i r false, streams := p.path.streams.put i none }

/-- The scheduler grants the free channel (R17, R19). -/
def Part.schedule (p : Part) : Part :=
  if p.path.ready ∧ p.path.channel = .free ∧ p.path.refreshesDue = 0 then
    match p.path.choose with
    | some c => p.grantTo c
    | none => p
  else p

/-- GRANT (R17). -/
def execGrant (s : State) : Host.Outcome State Fault Refusal := .next (s.withPart Part.schedule)

/-! ## Refresh (R19) -/

/-- The refresh interval the active copy selects (R19, R20). -/
def Part.refreshInterval (p : Part) : Nat :=
  match p.loader.active with
  | some i => if i.fastRefresh then Config.refreshFast else Config.refreshSlow
  | none => Config.refreshSlow

/-- The free channel is taken by a due refresh (R19). -/
def Path.takeRefresh (p : Path) : Path :=
  if p.channel = .free ∧ p.refreshesDue ≠ 0 then { p with channel := .refresh } else p

/-- The refresh timer marks a refresh due (R19). -/
def Part.refreshDue (p : Part) : Part :=
  match p.path.refreshTimer with
  | none => p
  | some t =>
    (p.reach t).setPath
      { p.path with refreshTimer := some (t + p.refreshInterval), refreshesDue := p.path.refreshesDue + 1 }.takeRefresh

/-- REFRESH_DUE (R19). -/
def execRefreshDue (s : State) : Host.Outcome State Fault Refusal := .next (s.withPart Part.refreshDue)

/-- A refresh ends: the due count falls and the next due one takes the channel (R19). -/
def Part.refreshComplete (p : Part) : Part :=
  if p.path.channel = .refresh then
    p.setPath { p.path with channel := .free, refreshesDue := p.path.refreshesDue - 1 }.takeRefresh
  else p

/-- REFRESH_COMPLETE (R19). -/
def execRefreshComplete (dt : Nat) (s : State) : Host.Outcome State Fault Refusal :=
  .next (s.withPart fun p => (p.after dt).refreshComplete)

/-! ## Intervals (R20) -/

/-- A service interval of a contender, in range (R20). -/
def portInterval (interval : Half) : Option Nat :=
  if 1 ≤ interval.toNat ∧ interval.toNat ≤ 4095 then some interval.toNat else none

/-- SET_PORT_INTERVAL (R20). -/
def execSetPortInterval (tag : Word) (contender : Byte) (interval : Half) (s : State) : Host.Outcome State Fault Refusal :=
  .next (s.withPart (Part.run (.setPortInterval tag contender interval) fun i p =>
    match objectOf 11 contender, portInterval interval with
    | some c, some n => (p.setPath { p.path with intervals := p.path.intervals.put c n }).finish i tag []
    | _, _ => p.refuse i tag .badField []))

/-! ## Windows (R21, R22) -/

/-- The bytes a window of this kind must hold for rings of N and M records (R21). -/
def WindowKind.needs (k : WindowKind) (n m : Nat) : Nat :=
  match k with
  | .command => 64 + 64 * n
  | .status => 64 + 64 * m
  | .clipList => 32768
  | _ => 0

/-- The fields of OPEN WINDOW or of an image's window entry, in range (R21 test 1). -/
def windowFields (n m : Nat) (state : WindowState) (base size : Wide) (kind subject readSet writeSet : Byte) : Option Window :=
  match windowKindOf kind, portSetOf readSet, portSetOf writeSet with
  | some k, some rs, some ws =>
    let b := base.toNat
    let z := size.toNat
    if b % Config.windowUnit = 0 ∧ z % Config.windowUnit = 0 ∧ Config.windowUnit ≤ z ∧ b + z ≤ Config.dramBytes ∧
        (match subjectLimit k with | some l => decide (subject.toNat < l) | none => true) = true ∧ k.needs n m ≤ z then
      some ⟨state, b, z, k, if (subjectLimit k).isSome then subject.toNat else 0, rs, ws⟩
    else none
  | _, _, _ => none

/-- The kinds of which one window at most is OPEN or DRAINING (R21 test 5). -/
def WindowKind.single : WindowKind → Bool
  | .command | .status | .clipList => true
  | _ => false

/-- The new range shares a byte with an OPEN or DRAINING window. -/
def overlaps (windows : Table Window 32) (w : Window) : Bool :=
  windows.list.any fun x => x.live && x.touches w.base (w.base + w.size)

/-- The record counts N and M of the active copy. -/
def Part.ringSizes (p : Part) : Nat × Nat :=
  match p.loader.active with | some i => (i.n, i.m) | none => (Image.fallback.n, Image.fallback.m)

/-- The requests whose range lies in a newly opened window are counted in it (R6). -/
def Port.recount (q : Port) (w : Fin 32) (win : Window) : Port :=
  { q with queue := q.queue.map fun a => if win.holds a.req.first a.req.next then { a with counted := some w } else a }

/-- A window opens (R21, R6, R129). -/
def Part.openEntry (w : Fin 32) (win : Window) (p : Part) : Part :=
  let p1 := p.setPath { p.path with windows := p.path.windows.put w win, ports := p.path.ports.each fun q => q.recount w win }
  if win.kind = .clipList then p1.mirrorAll else p1

/-- OPEN_WINDOW (R21). -/
def execOpenWindow (tag : Word) (entry : Byte) (base size : Wide) (kind subject readSet writeSet : Byte) (s : State) :
    Host.Outcome State Fault Refusal :=
  .next (s.withPart (Part.run (.openWindow tag entry base size kind subject readSet writeSet) fun i p =>
    match objectOf 32 entry, windowFields p.ringSizes.1 p.ringSizes.2 .opened base size kind subject readSet writeSet with
    | some w, some win =>
      if p.outstanding (.closeWindow w) then p.refuse i tag .busy []
      else if (p.path.windows.nth w).state ≠ .closed then p.refuse i tag .state []
      else if overlaps p.path.windows win then p.refuse i tag .overlap []
      else if win.kind.single ∧ p.path.windows.list.any (fun x => x.live && x.kind == win.kind) then p.refuse i tag .inUse []
      else (p.openEntry w win).finish i tag []
    | _, _ => p.refuse i tag .badField []))

/-- The window is a PROGRAMME window, and a bus in the snapshot of a pass in progress, ACTIVE or IDLE, names it (R22,
R106; assumption 27). -/
def Part.passUses (p : Part) (w : Fin 32) : Bool :=
  (p.path.windows.nth w).kind == .programme &&
    match p.mixer.pass with
    | some q => q.buses.list.any fun b => b.cfg.win == w
    | none => false

/-- The window is one that CLOSE WINDOW refuses IN USE (R22 test 4). -/
def Part.windowInUse (p : Part) (w : Fin 32) : Bool :=
  (p.cameras.list.any fun c => c.state != .stopped && (c.cfg.frameWin == w || c.cfg.replayWin == w)) ||
    (p.mixer.sources.list.any fun x => x.cfg.on && x.cfg.win == w) ||
    (p.mixer.buses.list.any fun b => b.cfg.active && b.cfg.win == w) || p.passUses w ||
    (match p.cmd.rings with | some r => r.cmdWin == w || r.statWin == w | none => false)

/-- A write held in the window at the head of a port is refused CLOSING, its held-write record goes, and the
next request is checked (R22, R52). -/
def Part.refuseHeld (w : Fin 32) (p : Part) (port : Fin 6) : Part :=
  match (p.path.ports.nth port).queue with
  | [] => p
  | a :: _ =>
    if a.phase = .held ∧ a.via = some w then
      let p1 := p.setCameras (p.cameras.each fun c =>
        match c.held with
        | some h => if h.port = port then { c with held := none } else c
        | none => c)
      (((p1.refuseRequest port a.tag a.req .closing).updPort port Port.popHead)).checkHead port
    else p

/-- A window goes to DRAINING (R22, R129). -/
def Part.drainEntry (w : Fin 32) (p : Part) : Part :=
  let wasMirror := p.path.openOf .clipList = some w
  let p1 := p.updWindow w fun x => { x with state := .draining }
  let p2 := if wasMirror then p1.mirrorWithdraw else p1
  (List.finRange 6).foldl (Part.refuseHeld w) p2

/-- A DRAINING window whose in-flight count is 0 goes to CLOSED. -/
def Part.closeEntry (w : Fin 32) (p : Part) : Part := p.updWindow w fun x => { x with state := .closed }

/-- CLOSE_WINDOW (R22): with nothing in flight once the window drains, it completes at its take and never joins the
deferred list (R174). -/
def execCloseWindow (tag : Word) (entry : Byte) (s : State) : Host.Outcome State Fault Refusal :=
  .next (s.withPart (Part.run (.closeWindow tag entry) fun i p =>
    match objectOf 32 entry with
    | none => p.refuse i tag .badField []
    | some w =>
      if p.outstanding (.closeWindow w) then p.refuse i tag .busy []
      else if (p.path.windows.nth w).state = .closed then p.refuse i tag .state []
      else if p.windowInUse w then p.refuse i tag .inUse []
      else
        let p1 := p.drainEntry w
        if p1.path.inFlight w = 0 then (p1.closeEntry w).finish i tag [] else p1.defer i tag (.closeWindow w)))

/-- WINDOW_DRAINED (R22): the in-flight count has reached 0. -/
def execWindowDrained (w : Fin 32) (s : State) : Host.Outcome State Fault Refusal :=
  .next (s.withPart fun p =>
    if (p.path.windows.nth w).state = .draining ∧ p.path.inFlight w = 0 then
      (p.closeEntry w).completeDeferred (.closeWindow w) .done
    else p)

/-! ## Quiescing (R23, R24) -/

def Part.setQuiesce (q : Quiesce) (p : Part) : Part := p.setPath { p.path with quiesce := q }

/-- Every port queue is empty. -/
def Path.drained (p : Path) : Bool := p.ports.list.all fun q => q.queue.isEmpty

/-- QUIESCE (R23): with every queue empty, or in QUIESCED, it completes at its take and never joins the deferred list
(R174). -/
def execQuiesce (tag : Word) (s : State) : Host.Outcome State Fault Refusal :=
  .next (s.withPart (Part.run (.quiesce tag) fun i p =>
    if p.outstanding .quiesce then p.refuse i tag .busy []
    else if p.path.quiesce = .quiesced ∨ p.path.drained then (p.setQuiesce .quiesced).finish i tag []
    else (p.setQuiesce .quiescing).defer i tag .quiesce))

/-- QUIESCE_COMPLETE (R23). -/
def execQuiesceComplete (s : State) : Host.Outcome State Fault Refusal :=
  .next (s.withPart fun p =>
    if p.path.quiesce = .quiescing ∧ p.path.drained then (p.setQuiesce .quiesced).completeDeferred .quiesce .done else p)

/-- RESUME (R24). -/
def execResume (tag : Word) (s : State) : Host.Outcome State Fault Refusal :=
  .next (s.withPart (Part.run (.resume tag) fun i p =>
    if p.outstanding .quiesce then p.refuse i tag .busy [] else (p.setQuiesce .running).finish i tag []))

end Sys2Proof.Machine
end

