-- ==== Sys2Proof/Machine/Commands.lean ====
section
/-! DEFINITION. The command engine (chapter 10): tail and head words, command fetch, the status ring, the
reports' writes, and unknown commands. -/

namespace Sys2Proof.Machine

def Part.countCmd (f : CommandCounters → CommandCounters) (p : Part) : Part :=
  p.setCmd { p.cmd with counts := f p.cmd.counts }

/-! ## The watched words (R172, R176) -/

/-- The tail word's value is taken: the fetch tail, or a bad tail (R172). -/
def Part.takeTail (r : Rings) (t : Wide) (p : Part) : Part :=
  if r.n ≤ t.toNat then (p.countCmd fun c => { c with badTails := count c.badTails }).raise .command 0
  else p.setCmd { p.cmd with fetchTail := t.toNat }

/-- TAIL_WORD_WRITE (R172): the oldest value shown and not yet acted on. -/
def Part.tailWrite (p : Part) : Part :=
  match p.cmd.tailShown, p.cmd.rings with
  | t :: rest, some r => (p.setCmd { p.cmd with tailShown := rest }).takeTail r t
  | _, _ => p

def execTailWordWrite (s : State) : Host.Outcome State Fault Refusal := .next (s.withPart Part.tailWrite)

/-- A head value is accepted: below M, and from the taken head to the write index (R176). -/
def Commander.acceptsHead (c : Commander) (r : Rings) (h : Wide) : Bool :=
  decide (h.toNat < r.m) && decide ((h.toNat + r.m - c.takenHead) % r.m ≤ c.unconsumed r)

/-- The head word's value is taken: records are consumed, or a bad head (R176). -/
def Part.takeHead (r : Rings) (h : Wide) (p : Part) : Part :=
  if p.cmd.acceptsHead r h then p.setCmd { p.cmd with takenHead := h.toNat }
  else (p.countCmd fun c => { c with badHeads := count c.badHeads }).raise .command 1

/-- HEAD_WORD_WRITE (R176): the oldest value shown and not yet acted on. -/
def Part.headWrite (p : Part) : Part :=
  match p.cmd.headShown, p.cmd.rings with
  | h :: rest, some r => (p.setCmd { p.cmd with headShown := rest }).takeHead r h
  | _, _ => p

def execHeadWordWrite (s : State) : Host.Outcome State Fault Refusal := .next (s.withPart Part.headWrite)

/-! ## Fetching (R173) -/

/-- The COMMAND stream is free for the engine's next request: nothing offered, nothing in progress, no command
in hand and none running. -/
def Part.commandIdle (p : Part) : Bool :=
  p.path.streamIdle commandStream && p.cmd.use.isNone && p.cmd.inHand.isNone && p.cmd.report.isNone && p.cmd.status.isNone

/-- A fetch read may be offered (R173, R178). -/
def Part.mayFetch (p : Part) (r : Rings) : Bool :=
  p.commandIdle && p.cmd.head != p.cmd.fetchTail && decide (p.cmd.deferred.length < Config.deferredMax) &&
    !p.outstanding .engineReset && p.cmd.completions.isEmpty && p.cmd.notices.isEmpty &&
    decide (p.cmd.unconsumed r + p.cmd.completions.length + 2 ≤ r.m)

/-- The engine offers a read of the record at the head (R173). -/
def Part.fetch (p : Part) : Part :=
  match p.cmd.rings with
  | none => p
  | some r =>
    if p.mayFetch r then
      (p.setCmd { p.cmd with use := some .fetch }).offer commandStream (readRequest (r.cmdBase + 64 + 64 * p.cmd.head) 64)
    else p

/-- COMMAND_FETCH (R173). -/
def execCommandFetch (s : State) : Host.Outcome State Fault Refusal := .next (s.withPart Part.fetch)

/-- The fetch's transfer completes: the command is taken and stands in the engine's hand (R173, R174). -/
def Part.takeCommand (r : Rings) (record : List Byte) (p : Part) : Part :=
  (p.setCmd { p.cmd with
    use := none, head := (p.cmd.head + 1) % r.n, inHand := some (p.cmd.head, decodeRecord record) }).countCmd
      fun c => { c with taken := count c.taken }

/-- UNKNOWN_COMMAND (R174). -/
def execUnknownCommand (tag : Word) (kind : Half) (s : State) : Host.Outcome State Fault Refusal :=
  .next (s.withPart (Part.run (.unknownCommand tag kind) fun i p => p.refuse i tag .badKind []))

/-! ## Reports (R175) -/

/-- The range a report would take may take it: lines of DRAM, wholly in open ground or in an OPEN PLAIN
window. -/
def Part.reportFits (p : Part) (at' : Wide) (lines : Nat) : Bool :=
  at'.toNat % Config.lineBytes == 0 && decide (at'.toNat + Config.lineBytes * lines ≤ Config.dramBytes) &&
    (match p.path.place at'.toNat (at'.toNat + Config.lineBytes * lines) with
     | .openGround => true
     | .inside w => (p.path.windows.nth w).state == .opened && (p.path.windows.nth w).kind == .plain
     | .split => false)

/-- The next report write is offered, or the command has run (R175). -/
def Part.reportNext (x : Report) (p : Part) : Part :=
  match nextWrite x.writes with
  | some (r, left) =>
    (p.setCmd { p.cmd with use := some .report, report := some { x with writes := left } }).offer commandStream r
  | none => (p.setCmd { p.cmd with use := none, report := none }).finish x.ring x.tag (u16 x.lines)

/-- A report's values have been read; its writes begin (R175). -/
def Part.startReport (i : Nat) (tag : Word) (at' : Wide) (lines : Nat) (values : List Byte) (p : Part) : Part :=
  p.reportNext ⟨i, tag, lines, [(at'.toNat, padTo (Config.lineBytes * lines) values)]⟩

/-! ## The status ring (R177, R178, R180) -/

/-- The counter a notice carries (10.5). -/
def Part.snapshot (p : Part) : Cause × Nat → Nat
  | (.reference, n) => if n = 0 then p.clock.frame.losses else p.clock.word.losses
  | (.lane, n) => if h : n < 4 then (p.lanes.nth ⟨n, h⟩).counts.carrierLosses else 0
  | (.ring, n) => if h : n < 8 then (p.rings.nth ⟨n, h⟩).cut else 0
  | (.clip, _) => p.clips.events
  | (.access, n) => if h : n < 6 then (p.path.ports.nth ⟨n, h⟩).refusals else 0
  | (.hold, n) => if h : n < 8 then (p.cameras.nth ⟨n, h⟩).counts.torn else 0
  | (.mix, n) => if h : n < 64 then (p.mixer.sources.nth ⟨n, h⟩).late else p.mixer.lateTicks
  | (.send, n) => if h : n < 4 then (p.sender.classes.nth ⟨n, h⟩).losses else 0
  | (.cue, n) => if h : n < 8 then (p.cues.nth ⟨n, h⟩).refusedPresses else 0
  | (.command, n) => if n = 0 then p.cmd.counts.badTails else p.cmd.counts.badHeads

/-- The record's write is offered; then the write index word takes the next slot (R178). -/
def Part.writeStatus (r : Rings) (record : List Byte) (ofReset : Bool) (p : Part) : Part :=
  (p.setCmd { p.cmd with use := some .status, status := some (.record ((p.cmd.writeIndex + 1) % r.m) ofReset) }).offer
    commandStream (writeRequest (r.statBase + 64 + 64 * p.cmd.writeIndex) record)

/-- The write of the write index word is offered (R178). -/
def Part.writeIndexWord (r : Rings) (next : Nat) (ofReset : Bool) (p : Part) : Part :=
  (p.setCmd { p.cmd with use := some .status, status := some (.index next ofReset) }).offer commandStream
    (writeRequest (r.statBase + 8) (u64 next))

/-- The oldest pending completion, or else the first notice, is written into the ring (R178, R180). The last
pending completion while an ENGINE RESET is outstanding is the reset's own (R183, R184). -/
def Part.startStatus (p : Part) : Part :=
  match p.cmd.rings with
  | none => p
  | some r =>
    if p.commandIdle ∧ p.cmd.roomForRecord r then
      match p.cmd.completions, p.cmd.notices with
      | c :: rest, _ =>
        (p.setCmd { p.cmd with completions := rest }).writeStatus r c.record (rest.isEmpty && p.outstanding .engineReset)
      | [], n :: rest =>
        ((p.setCmd { p.cmd with notices := rest }).countCmd fun c => { c with written := count c.written }).writeStatus r
          (noticeRecord n.1 n.2 (p.snapshot n)) false
      | [], [] => p
    else p

/-- STATUS_WRITE_START (R178). -/
def execStatusWriteStart (s : State) : Host.Outcome State Fault Refusal := .next (s.withPart Part.startStatus)

/-- A request of a status write completes: the record's, then the write index word's (R178, R181, R184). -/
def Part.statusTransfer (r : Rings) (p : Part) : Part :=
  match p.cmd.status with
  | some (.record next ofReset) => p.writeIndexWord r next ofReset
  | some (.index next ofReset) =>
    p.setCmd { p.cmd with use := none, status := none, writeIndex := next, resetWritten := p.cmd.resetWritten || ofReset }
  | none => p.setCmd { p.cmd with use := none }

/-- A transfer of the COMMAND stream completes, a read with its data. -/
def Part.commandTransfer (data : List Byte) (p : Part) : Part :=
  match p.cmd.use, p.cmd.rings with
  | some .fetch, some r => p.takeCommand r data
  | some .report, _ => match p.cmd.report with | some x => p.reportNext x | none => p.setCmd { p.cmd with use := none }
  | some .status, some r => p.statusTransfer r
  | _, _ => p

/-- The command engine takes up the rings at image application: its first status write is the write index
word, value 0 (R171). -/
def Part.takeRings (r : Rings) (p : Part) : Part :=
  (p.setCmd { Commander.clear with rings := some r }).writeIndexWord r 0 false

end Sys2Proof.Machine
end

