-- ==== Sys2Proof/Machine/Reports.lean ====
section
/-! DEFINITION. READ COUNTERS and READ METERS (R182, R113): the six groups' values in the order their rules
list them, each in its type's width (12.2; assumption 28 where the layout tables are silent), and what a read
clears. -/

namespace Sys2Proof.Machine

/-- The bytes of every object of a table, in ascending number. -/
def perObject {α : Type} {n : Nat} (t : Table α n) (f : α → List Byte) : List Byte := t.list.flatMap f

def flag (b : Bool) : List Byte := [boolCode b]

/-- A group read: its lines, its values, and the part with its counters cleared. -/
structure Group where
  lines : Nat
  values : Part → List Byte
  /-- what every read of the group does -/
  always : Part → Part
  clear : Part → Part

/-! ## Group 0: ports and the command engine -/

def LastRefusal.bytes (r : LastRefusal) : List Byte := [r.reason.code] ++ u64 r.address ++ [reqKindCode r.kind]

/-- A port's values (R182, R5). Design choice (assumption 28): the refusal counter, then the last refusal record, then the
READs and the WRITEs performed, in the order R5 gives them, port by port; R182's table names the counters first. -/
def Port.bytes (q : Port) : List Byte :=
  u16 q.refusals ++ optional 10 (q.last.map LastRefusal.bytes) ++ u16 q.reads ++ u16 q.writes

/-- Every cause and subject a notice may have, in priority order. Design choice (assumption 28): the notice pending set is
reported as one flag byte for each of them in this order; 12.2 gives the set no layout. -/
def noticeFlags : List (Cause × Nat) :=
  let of (c : Cause) (n : Nat) := (List.range n).map fun i => (c, i)
  of .reference 2 ++ of .lane 4 ++ of .ring 8 ++ of .clip 128 ++ of .access 6 ++ of .hold 8 ++ of .mix 65 ++
    of .send 4 ++ of .cue 8 ++ of .command 2

def Deferred.bytes (d : Deferred) : List Byte := u16 d.kind.code ++ u16 d.ring

/-- The port report's part of the commander (R182). Design choice (assumption 28): the deferred commands always take eight
places of four bytes, unused places zero, after their number; 12.2 fixes no places for this list. -/
def Commander.bytes (c : Commander) : List Byte :=
  u16 c.head ++ u16 c.fetchTail ++ u16 c.writeIndex ++ u16 c.takenHead ++
  u8 c.deferred.length ++ padTo 32 (c.deferred.flatMap Deferred.bytes) ++ u16 c.completions.length ++
  noticeFlags.flatMap (fun n => flag (c.notices.contains n)) ++
  u16 c.counts.taken ++ u16 c.counts.refused ++ u16 c.counts.badTails ++ u16 c.counts.badHeads ++
  u16 c.counts.written ++ u16 c.counts.absorbed

def Part.eachPort (f : Port → Port) (p : Part) : Part := p.setPath { p.path with ports := p.path.ports.each f }

def portGroup : Group where
  lines := 8
  values p := perObject p.path.ports Port.bytes ++ p.cmd.bytes
  always p := p.eachPort fun q => { q with last := none }
  clear p := (p.eachPort fun q => { q with refusals := 0, reads := 0, writes := 0 }).countCmd fun _ => ⟨0, 0, 0, 0, 0, 0⟩

/-! ## Group 1: cameras, coder, rings -/

def CameraSettings.bytes (c : CameraSettings) : List Byte :=
  u8 c.frameWin.val ++ u8 c.replayWin.val ++ u32 c.stride ++ u16 c.lines ++ u8 c.tiles ++ [c.policy.code] ++
  u16 c.holdLimit ++ u32 c.budget ++ flag c.live

def PendingSettings.bytes (c : PendingSettings) : List Byte := [c.policy.code] ++ u16 c.holdLimit ++ u32 c.budget ++ flag c.live

/-- A slot's record (R60). Design choice (assumption 28): picture number, timecode and block number, present together,
share one presence byte; R192 does not say whether each takes its own. -/
def Slot.bytes (s : Slot) : List Byte :=
  [s.state.code] ++ optional 12 (s.stamp.map fun t => word t.number ++ t.timecode.bytes ++ word t.block) ++
  u8 s.arrived ++ u8 s.coded ++ flag s.abandoned

def HeldWrite.bytes (h : HeldWrite) : List Byte := u8 h.port.val ++ u8 h.tag.toNat ++ [h.slot.code]

def Camera.bytes (c : Camera) : List Byte :=
  [c.state.code] ++ c.cfg.bytes ++ optional 8 (c.pending.map PendingSettings.bytes) ++ word c.counter ++ u8 c.carried ++
  c.slotA.bytes ++ c.slotB.bytes ++ optional 3 (c.held.map HeldWrite.bytes) ++
  u16 c.counts.slotStarts ++ u16 c.counts.heldWrites ++ u16 c.counts.holdExpiries ++ u16 c.counts.torn ++
  u16 c.counts.abandoned ++ u16 c.counts.strayBands ++ u16 c.counts.strayStarts

def JobRun.bytes (j : JobRun) : List Byte :=
  u8 j.job.cam.val ++ [j.job.slot.code] ++ word j.job.number ++ u8 j.job.band ++ [j.phase.code] ++ u32 j.target ++
  u8 j.quantizer ++ flag j.discarded

def RateRecord.bytes (r : RateRecord) : List Byte := word r.number ++ u32 r.spent ++ u8 r.quantizer ++ flag r.overFlag

def CoderCounters.bytes (c : CoderCounters) : List Byte :=
  u16 c.codedBands ++ u16 c.published ++ u16 c.overBudget ++ u16 c.discarded ++ u16 c.failedOpens ++ u16 c.overlapped ++ u16 c.cutBands

/-- The coder's part of the camera report (R79). Design choice (assumption 28): all eight cameras' rate-control records
stand first, then all eight sets of counters; R79's two items may be read camera by camera as well. -/
def Coder.bytes (c : Coder) : List Byte :=
  flag c.job.isSome ++ optional 14 (c.job.map JobRun.bytes) ++ u16 c.queue.length ++ u16 c.highWater ++
  perObject c.rates (fun r => optional 10 (r.map RateRecord.bytes)) ++ perObject c.counts CoderCounters.bytes

/-- The oldest and newest record's numbers, when the index is not empty. -/
def Ring.ends (r : Ring) : Option (List Byte) :=
  match r.index.head?, r.index.getLast? with
  | some a, some b => some (word a.number ++ word b.number)
  | _, _ => none

/-- A replay ring's record (R95). Design choice (assumption 28): the ring's base and size share one presence byte, and
so do the numbers of the oldest and newest record; R192 does not say whether each takes its own. Design choice (assumption
42): the write point, used and free are byte counts, 4 bytes each (12.1), and in a ring larger than 4 GiB, which R21 allows,
a larger value is given by its low 32 bits. -/
def Ring.bytes (r : Ring) : List Byte :=
  optional 16 (r.extent.map fun e => u64 e.1 ++ u64 e.2) ++ u32 r.writePoint ++ u32 r.used ++ u32 r.free ++
  u16 r.index.length ++ optional 8 r.ends ++ u16 r.retired ++ u16 r.cut ++ u16 r.lost ++ u16 r.mismatches

def clearCameras (p : Part) : Part := p.setCameras (p.cameras.each fun c => { c with counts := ⟨0, 0, 0, 0, 0, 0, 0⟩ })

def clearCoder (p : Part) : Part :=
  p.setCoder { p.coder with counts := Table.all ⟨0, 0, 0, 0, 0, 0, 0⟩, highWater := p.coder.queue.length }

def clearRings (p : Part) : Part :=
  p.setRings (p.rings.each fun r => { r with retired := 0, cut := 0, lost := 0, mismatches := 0 })

def cameraGroup : Group where
  lines := 64
  values p := perObject p.cameras Camera.bytes ++ p.coder.bytes ++ perObject p.rings Ring.bytes
  always p := p
  clear p := clearRings (clearCoder (clearCameras p))

/-! ## Group 2: sources and the mixer -/

/-- Fresh flags, slot 0 in the lowest bit of the first byte. -/
def freshBytes (f : BitVec 64) : List Byte := u64 f.toNat

def Source.bytes (s : Source) : List Byte :=
  flag s.cfg.on ++ u8 s.cfg.win.val ++ u16 s.cfg.ring ++ u8 s.cfg.offset ++ u8 s.cfg.width ++ freshBytes s.fresh ++
  u16 s.late ++ u16 s.overruns

def Contribution.bytes (c : Contribution) : List Byte :=
  u8 c.source.val ++ u16 c.current ++ u16 c.target ++ u16 c.step ++ flag c.leaving

/-- A bus's values in the source and mixer report (R114, 12.2). R114 names the bus's record fields and excludes only the meters,
and the record of 6.3 has the output slot records among its fields. DEDUCED, the model's choice (assumption 28): they are left out,
because 16 or more records for each of 16 buses do not fit in what the other values leave of the 96 lines 12.2 gives the group. -/
def Bus.bytes (b : Bus) : List Byte :=
  flag b.cfg.active ++ u8 b.cfg.win.val ++ u16 b.cfg.ring ++ u16 b.cfg.master ++ flag b.cfg.send ++ u16 b.cfg.divider ++
  u8 b.contributions.length ++ padTo 256 (b.contributions.flatMap Contribution.bytes) ++ u16 b.itemsHanded ++ u16 b.shortFrames

def Mixer.bytes (m : Mixer) : List Byte :=
  [m.state.code] ++ optional 5 (m.pass.map fun q => word q.block ++ [q.phase.code]) ++ u16 m.lateTicks ++
  perObject m.sources Source.bytes ++ perObject m.buses Bus.bytes

def Mixer.cleared (m : Mixer) : Mixer :=
  { m with
      lateTicks := 0, sources := m.sources.each fun s => { s with late := 0, overruns := 0 },
      buses := m.buses.each fun b => { b with itemsHanded := 0, shortFrames := 0 } }

def mixerGroup : Group where
  lines := 96
  values p := p.mixer.bytes
  always p := p
  clear p := p.setMixer p.mixer.cleared

/-! ## Group 3: lanes -/

/-- A lane's values in the lane report (R170). Design choice (assumption 28): R170 asks "whether a break is being sent or
received" and gives no layout for it; the model writes two flag bytes, break sent first, then break received. The hold
output and the filtered carrier are coded in the order their values are listed (assumption 12). -/
def Part.laneBytes (p : Part) (l : Fin 4) : List Byte :=
  let r := p.lanes.nth l
  [r.state.code] ++ u16 r.cfg.divider ++ u16 r.cfg.window ++ [r.cfg.filter.code] ++ u8 r.cfg.depth ++ [r.cfg.policy.code] ++
  flag r.cfg.initialOn ++ flag r.modemHold ++ flag (!r.returnHold) ++ flag (!r.filtered) ++ flag r.breakEnd.isSome ++
  flag (r.receive == .inBreak) ++ u16 (p.counted l).length ++ u32 (p.inFlightBytes l) ++ u16 r.fifo.length ++
  u16 r.counts.framesSent ++ u16 r.counts.breaksSent ++ u16 r.counts.checkErrors ++ u16 r.counts.framingErrors ++
  u16 r.counts.overruns ++ u16 r.counts.carrierLosses

def laneGroup : Group where
  lines := 4
  values p := (List.finRange 4).flatMap p.laneBytes
  always p := p
  clear p := p.setLanes (p.lanes.each fun l => { l with counts := ⟨0, 0, 0, 0, 0, 0⟩ })

/-! ## Group 4: the send engine and the clip controller -/

def Sender.classBytes (s : Sender) (c : Fin 4) : List Byte :=
  let r := s.classes.nth c
  u16 r.interval ++ u16 r.hold ++ u16 r.wait ++ u16 (s.queueOf (SendClass.ofIndex c)).length ++ u16 r.made ++ u16 r.replaced ++
  u16 r.droppedFull ++ u16 r.droppedStale ++ u16 r.flushed ++ u16 r.overtaken ++ u16 r.finished ++ u16 r.failed ++
  u16 r.expired ++ u16 r.losses

def Cursor.bytes (c : Cursor) : List Byte :=
  u16 c.clip ++ u8 c.cam.val ++ word c.next ++ word c.outPoint ++ u16 c.outstanding

/-- The number of descriptors in a state. -/
def Sender.inState (s : Sender) (x : DescState) : Nat := (s.store.filter fun d => d.state == x).length

def Sender.bytes (s : Sender) : List Byte :=
  (List.finRange 4).flatMap s.classBytes ++ perObject s.cursors (fun c => optional 13 (c.map Cursor.bytes)) ++
  u16 (s.inState .building) ++ u16 (s.inState .queuedOnLane) ++ u16 (s.inState .transmitting) ++
  u16 (s.inState .awaitingReceipt) ++ u16 (s.inState .waiting) ++ u16 s.redispatch.length ++ flag s.build.isSome ++ word s.seq ++
  u16 s.counts.receipts ++ u16 s.counts.staleReceipts ++ u16 s.counts.wideReceipts ++ u16 s.counts.resends ++
  u16 s.counts.duplicateResends ++ u16 s.counts.lateResends ++ u16 s.counts.echoes ++ u16 s.counts.droppedEchoes ++
  u16 s.counts.otherStation

def Clips.bytes (c : Clips) : List Byte :=
  u16 c.marks ++ u16 c.refusedMarks ++ u16 c.forceCloses ++ u16 c.lostClips ++ u16 c.partialSends ++ u16 c.events ++
  u16 (c.table.list.filter (·.isSome)).length ++ u16 c.lastNumber ++ u16 c.mirror.length

def Sender.cleared (s : Sender) : Sender :=
  { s with
      classes := s.classes.each fun r => { ClassRecord.initial r.interval r.hold with wait := r.wait },
      counts := ⟨0, 0, 0, 0, 0, 0, 0, 0, 0⟩ }

def Clips.cleared (c : Clips) : Clips :=
  { c with marks := 0, refusedMarks := 0, forceCloses := 0, lostClips := 0, partialSends := 0, events := 0 }

def sendGroup : Group where
  lines := 8
  values p := p.sender.bytes ++ p.clips.bytes
  always p := p
  clear p := (p.setSender p.sender.cleared).setClips p.clips.cleared

/-! ## Group 5: cue lines and the programme clock -/

/-- A level's code: HIGH 0, LOW 1, as listed (2.3). -/
def levelCode (high : Bool) : Byte := boolCode (!high)

/-- A cue line's values (R42). The level of a line that is neither INPUT nor MARK, and the output state of one that is
neither TALLY nor OUTPUT, is one byte 0 with no presence byte, the model's choice where the layout is silent
(assumption 28). -/
def CueLine.bytes (c : CueLine) : List Byte :=
  [c.cfg.mode.code] ++
  (match c.cfg.mode with | .input | .mark => [levelCode c.debounced] | _ => [0]) ++
  (match c.cfg.mode with | .tally | .output => [boolCode (!c.outputOn)] | _ => [0]) ++
  optional 2 (c.openClip.map u16) ++ u16 c.presses ++ u16 c.refusedPresses

def Reference.counterBytes (r : Reference) : List Byte := u16 r.losses ++ u16 r.regains ++ u16 r.strays

def Clock.bytes (c : Clock) : List Byte :=
  flag (!c.frame.locked) ++ flag (!c.word.locked) ++ c.timecode.bytes ++ optional 4 (c.pendingTc.map Timecode.bytes) ++
  Sys2Proof.Machine.word c.pictureTicks ++ Sys2Proof.Machine.word c.blockNumber ++ c.frame.counterBytes ++ c.word.counterBytes

def Reference.cleared (r : Reference) : Reference := { r with losses := 0, regains := 0, strays := 0 }

def cueGroup : Group where
  lines := 4
  values p := perObject p.cues CueLine.bytes ++ p.clock.bytes
  always p := p
  clear p :=
    (p.setCues (p.cues.each fun c => { c with presses := 0, refusedPresses := 0 })).setClock
      { p.clock with frame := p.clock.frame.cleared, word := p.clock.word.cleared }

/-! ## The commands -/

/-- The six groups (R182). -/
def groupOf (b : Byte) : Option Group :=
  if b = 0 then some portGroup else if b = 1 then some cameraGroup else if b = 2 then some mixerGroup
  else if b = 3 then some laneGroup else if b = 4 then some sendGroup else if b = 5 then some cueGroup else none

/-- READ_COUNTERS (R182). -/
def execReadCounters (tag : Word) (group clear : Byte) (report : Wide) (s : State) : Host.Outcome State Fault Refusal :=
  .next (s.withPart (Part.run (.readCounters tag group clear report) fun i p =>
    match groupOf group, flagOf clear with
    | some g, some wipe =>
      if p.reportFits report g.lines then
        let p1 := g.always p
        (if wipe then g.clear p1 else p1).startReport i tag report g.lines (g.values p)
      else p.refuse i tag .badField []
    | _, _ => p.refuse i tag .badField []))

/-- A bus's pair in the READ METERS report (12.2). -/
def Bus.meterBytes (b : Bus) : List Byte := u32 b.peak ++ u16 b.clips ++ [0, 0]

/-- Every bus's meters at 0 (R113). -/
def Part.clearMeters (p : Part) : Part :=
  p.setMixer { p.mixer with buses := p.mixer.buses.each fun b => { b with peak := 0, clips := 0 } }

/-- READ_METERS (R113). -/
def execReadMeters (tag : Word) (report : Wide) (s : State) : Host.Outcome State Fault Refusal :=
  .next (s.withPart (Part.run (.readMeters tag report) fun i p =>
    if p.reportFits report 2 then
      p.clearMeters.startReport i tag report 2 (perObject p.mixer.buses Bus.meterBytes)
    else p.refuse i tag .badField []))

end Sys2Proof.Machine
end

