-- ==== Sys2Proof/Machine/Image.lean ====
section
/-! DEFINITION. The configuration image (Record Layouts 12.7): its sections read in the layouts of the commands
whose arguments they carry, and the seven checks of R186 and R194. -/

namespace Sys2Proof.Machine

open Sys2Proof.Record

/-- The marker "OJ26". -/
def imageMarker : List Byte := [0x4F, 0x4A, 0x32, 0x36]

/-- The bytes an image of this length has in the flash. -/
def imageBytes (flash : Memory) (len : Nat) : List Byte := flash.readBytes flashBlank 0 len

/-- The image length its header carries. -/
def imageLength (flash : Memory) : Nat := leNat (flash.readBytes flashBlank 4 4)

/-- The check value over the image, its own field counted as zeros (R193). -/
def imageCheck (bytes : List Byte) : Word := crc (bytes.take 8 ++ zeros 4 ++ bytes.drop 12)

/-- The marker and the check value of an image hold (R186 checks 1 and 3; R191). An image that does not reach to the
end of its check value field holds none (assumption 41). -/
def imageSound (bytes : List Byte) : Bool :=
  bytes.take 4 == imageMarker && decide (12 ≤ bytes.length) && Record.word bytes 8 == imageCheck bytes

/-- Checks 1 to 3 of R186 on the bytes of an image. -/
def imageWhole (bytes : List Byte) : Bool :=
  imageSound bytes && decide (32 ≤ bytes.length) && decide (bytes.length ≤ Config.imageMax)

/-- The section of a kind, when it stands exactly once in the list and lies within the image (R194). -/
def sectionOf (bytes : List Byte) (kind : Byte) : Option (List Byte) :=
  let entries := (List.range (byte bytes 12).toNat).map fun i => (bytes.drop (32 + 8 * i)).take 8
  match entries.filter fun e => byte e 0 == kind with
  | [e] =>
    let off := (half e 4).toNat
    let len := (half e 6).toNat
    if off + len ≤ bytes.length then some ((bytes.drop off).take len) else none
  | _ => none

/-- The section list is nine entries within the image, so that no kind is unknown (R194). -/
def sectionsListed (bytes : List Byte) : Bool := (byte bytes 12).toNat == 9 && decide (32 + 8 * 9 ≤ bytes.length)

/-- The `k` entries of `size` bytes of a section whose length they take. -/
def entriesOf (sec : List Byte) (size k : Nat) : Option (List (List Byte)) :=
  if sec.length = size * k then some ((List.range k).map fun i => (sec.drop (size * i)).take size) else none

/-- A table from a list of exactly its length. -/
def tableOf {α : Type} (n : Nat) (xs : List α) : Option (Table α n) :=
  if h : xs.length = n then some ⟨⟨xs⟩, h⟩ else none

/-- The entries of a section, each read by `f`, as a table. -/
def readTable {α : Type} (n size : Nat) (sec : List Byte) (f : List Byte → Option α) : Option (Table α n) :=
  (entriesOf sec size n).bind fun es => (es.mapM f).bind fun xs => tableOf n xs

/-- A power of two from 16 to 1,024. -/
def ringCount (h : Half) : Option Nat :=
  if h.toNat ∈ [16, 32, 64, 128, 256, 512, 1024] then some h.toNat else none

/-- A window entry: its state, then OPEN WINDOW's arguments. -/
def windowEntry (n m : Nat) (e : List Byte) : Option Window :=
  match flagOf (byte e 0), objectOf 32 (byte e 1) with
  | some opened, some _ =>
    windowFields n m (if opened then .opened else .closed) (wide e 2) (wide e 10) (byte e 18) (byte e 19) (byte e 20) (byte e 21)
  | _, _ => none

/-- A cue line entry: SET CUE LINE's arguments. -/
def cueEntry (e : List Byte) : Option CueSettings :=
  (objectOf 8 (byte e 0)).bind fun _ => cueFields (byte e 1) (byte e 2) (half e 3) (byte e 5) (byte e 6) (byte e 7)

/-- A camera entry: its state, then SET CAMERA's arguments. -/
def cameraEntry (e : List Byte) : Option (Bool × CameraSettings) :=
  match flagOf (byte e 0), objectOf 8 (byte e 1),
      cameraFields (byte e 2) (byte e 3) (Record.word e 4) (half e 8) (byte e 10) (byte e 11) (half e 12) (Record.word e 14) (byte e 18) with
  | some run, some _, some c => some (run, c)
  | _, _, _ => none

/-- A source entry: SET SOURCE's arguments. -/
def sourceEntry (e : List Byte) : Option SourceSettings :=
  (objectOf 64 (byte e 0)).bind fun _ => sourceFields (byte e 1) (byte e 2) (half e 3) (byte e 5) (byte e 6)

/-- A contribution of a bus entry: source, target gain and ramp step, at current gain 0 (R100). -/
def contributionEntry (e : List Byte) : Option Contribution :=
  match objectOf 64 (byte e 0) with
  | some s => if half e 3 = 0 then none else some ⟨s, 0, (half e 1).toNat, (half e 3).toNat, false⟩
  | none => none

/-- One bus entry at the front of the bytes, and the bytes after it. -/
def busEntry (bytes : List Byte) : Option ((BusSettings × List Contribution) × List Byte) :=
  let cnt := (byte bytes 10).toNat
  if bytes.length < 11 + 5 * cnt ∨ Config.contributionMax < cnt then none
  else match objectOf 16 (byte bytes 0),
      busFields (byte bytes 1) (byte bytes 2) (half bytes 3) (half bytes 5) (byte bytes 7) (half bytes 8),
      ((List.range cnt).map fun i => (bytes.drop (11 + 5 * i)).take 5).mapM contributionEntry with
    | some _, some c, some l => some ((c, l), bytes.drop (11 + 5 * cnt))
    | _, _, _ => none

/-- The bus entries of a section, which they fill. -/
def busEntries : Nat → List Byte → Option (List (BusSettings × List Contribution))
  | 0, bytes => if bytes.isEmpty then some [] else none
  | k + 1, bytes =>
    (busEntry bytes).bind fun x => (busEntries k x.2).map fun rest => x.1 :: rest

/-- A class entry: SET CLASS's arguments. -/
def classEntry (e : List Byte) : Option (Nat × Nat) := (objectOf 4 (byte e 0)).bind fun _ => classFields (half e 1) (half e 3)

/-- A lane entry: SET LANE's arguments and the initial state. -/
def laneEntry (e : List Byte) : Option LaneSettings :=
  match objectOf 4 (byte e 0), flagOf (byte e 8) with
  | some _, some on => laneFields (half e 1) (half e 3) (byte e 5) (byte e 6) (byte e 7) on
  | _, _ => none

/-- The fields of the GLOBAL section that other sections do not carry. -/
structure GlobalFields where
  rate : Rate
  n : Nat
  m : Nat
  fast : Bool
  station : Nat
  mixerOn : Bool
  timing : List Byte
  deriving DecidableEq, Repr

/-- The GLOBAL section (R194). -/
def globalFields (sec : List Byte) : Option GlobalFields :=
  match rateOf (byte sec 0), ringCount (half sec 1), ringCount (half sec 3), flagOf (byte sec 5), flagOf (byte sec 7) with
  | some rate, some n, some m, some fast, some mixerOn =>
    if sec.length = 72 ∧ (byte sec 6).toNat ≤ 15 then some ⟨rate, n, m, fast, (byte sec 6).toNat, mixerOn, sec.drop 8⟩ else none
  | _, _, _, _, _ => none

/-- Check 4 of R186 with R194: every section present, of its length, with every field in range. -/
def parseImage (bytes : List Byte) : Option Image :=
  if !sectionsListed bytes then none
  else do
    let g ← (sectionOf bytes 0).bind globalFields
    let intervals ← (sectionOf bytes 1).bind fun sec => readTable 11 2 sec fun e => portInterval (half e 0)
    let windows ← (sectionOf bytes 2).bind fun sec => readTable 32 22 sec (windowEntry g.n g.m)
    let cues ← (sectionOf bytes 3).bind fun sec => readTable 8 8 sec cueEntry
    let cameras ← (sectionOf bytes 4).bind fun sec => readTable 8 19 sec cameraEntry
    let sources ← (sectionOf bytes 5).bind fun sec => readTable 64 7 sec sourceEntry
    let buses ← (sectionOf bytes 6).bind fun sec => (busEntries 16 sec).bind (tableOf 16)
    let classes ← (sectionOf bytes 7).bind fun sec => readTable 4 5 sec classEntry
    let lanes ← (sectionOf bytes 8).bind fun sec => readTable 4 9 sec laneEntry
    return {
      rate := g.rate, n := g.n, m := g.m, fastRefresh := g.fast, station := g.station, mixerOn := g.mixerOn, timing := g.timing,
      intervals := intervals, windows := windows, cues := cues, cameras := cameras, sources := sources, buses := buses,
      classes := classes, lanes := lanes }

/-- No window of the list that is OPEN shares a byte with a later OPEN one. -/
def disjointWindows : List Window → Bool
  | [] => true
  | w :: rest =>
    (!w.live || rest.all fun x => !(x.live && x.touches w.base (w.base + w.size))) && disjointWindows rest

/-- How many windows of a kind are OPEN. -/
def openCount (windows : Table Window 32) (k : WindowKind) : Nat := (windows.list.filter fun w => w.live && w.kind == k).length

/-- Sources in strictly ascending order. -/
def ascending : List Contribution → Bool
  | a :: b :: rest => decide (a.source < b.source) && ascending (b :: rest)
  | _ => true

/-- Checks 5 and 6 of R186. -/
def Image.consistent (i : Image) : Bool :=
  disjointWindows i.windows.list && openCount i.windows .command == 1 && openCount i.windows .status == 1 &&
    decide (openCount i.windows .clipList ≤ 1) &&
    ((List.finRange 8).all fun k => !(i.cameras.nth k).1 || cameraWindowsFit i.windows k (i.cameras.nth k).2) &&
    ((List.finRange 64).all fun s => !(i.sources.nth s).on || sourceWindowFits i.windows s (i.sources.nth s)) &&
    ((List.finRange 16).all fun b => !(i.buses.nth b).1.active || busWindowFits i.windows b (i.buses.nth b).1) &&
    (i.buses.list.all fun b => ascending b.2) && decide ((i.buses.list.filter fun b => b.1.send).length ≤ Config.sendBusMax)

/-- The station number (R168). -/
def stationOf (field : Nat) (stn1 stn0 : Bool) : Nat := 4 * field + 2 * stn1.toNat + stn0.toNat

/-- The image the flash holds, when it passes every check in order (R186). -/
def checkedImage (flash : Memory) (stn1 stn0 : Bool) : Option Image :=
  let len := imageLength flash
  if len ≤ Config.imageMax ∧ imageWhole (imageBytes flash len) then
    match parseImage (imageBytes flash len) with
    | some i => if i.consistent ∧ stationOf i.station stn1 stn0 ≠ 0 then some i else none
    | none => none
  else none

end Sys2Proof.Machine
end

