-- ==== Sys2Proof/Machine/Transfer.lean ====
section
/-! DEFINITION. The end of a granted DRAM transfer (R18): the data moves, a client's response leaves, the
watchers see a performed write, and the owner of an engine stream goes on. -/

namespace Sys2Proof.Machine

/-- The channel is free again, and a due refresh takes it (R18, R19). -/
def Part.freeChannel (p : Part) : Part := p.setPath { p.path with channel := .free }

/-- The DRAM after a request's data is moved at a line (R18). -/
def moved (dram : Memory) (r : Request) (line : Nat) : Memory :=
  match r.kind with
  | .read => dram
  | .write => dram.writeMasked dramBlank (Config.lineBytes * line) r.data

/-- The data a request's transfer returns. -/
def fetched (dram : Memory) (r : Request) (line : Nat) : List Byte :=
  match r.kind with
  | .read => dram.readBytes dramBlank (Config.lineBytes * line) r.bytes
  | .write => []

/-- The value of a watched word: 8 bytes at an address (R172, R176). -/
def watchedWord (dram : Memory) (a : Nat) : Wide := BitVec.ofNat 64 (leNat (dram.readBytes dramBlank a 8))

/-- The watchers of the window's kind are shown a performed WRITE (R9, R11, R13, R14); `dram` is the DRAM
with the write in it. -/
def Part.watch (a : Admitted) (dram : Memory) (p : Part) : Part :=
  match a.req.kind, a.via with
  | .write, some w =>
    let win := p.path.windows.nth w
    match win.kind with
    | .frame => if a.tracked then p.frameWrite w a.req else p
    | .sound => p.soundWrite w a.req
    | .command =>
      if a.req.covers win.base 8 ∧ (p.cmd.rings.any fun r => r.cmdWin == w) then
        p.setCmd { p.cmd with tailShown := p.cmd.tailShown ++ [watchedWord dram win.base] }
      else p
    | .status =>
      if a.req.covers win.base 8 ∧ (p.cmd.rings.any fun r => r.statWin == w) then
        p.setCmd { p.cmd with headShown := p.cmd.headShown ++ [watchedWord dram win.base] }
      else p
    | .plain | .aliased | .replay | .programme | .clipList => p
  | _, _ => p

/-- A port's performed request is counted and leaves the queue. -/
def Port.performed (q : Port) (k : ReqKind) : Port :=
  match k with
  | .read => { q.popHead with reads := count q.reads }
  | .write => { q.popHead with writes := count q.writes }

/-- A client request's transfer completes (R18): response, watchers, counts, queue, and the next head's check. -/
def Part.clientDone (port : Fin 6) (a : Admitted) (data : List Byte) (dram : Memory) (p : Part) : Part :=
  let p1 := (p.emit (.ok port a.tag data)).watch a dram
  (p1.updPort port fun q => q.performed a.req.kind).checkHead port

/-- An engine stream's transfer completes: its owner is told (R18). -/
def Part.streamDone (i : Fin 5) (data : List Byte) (p : Part) : Part :=
  if i = coderStream then p.coderTransfer
  else if i = mixerStream then p.mixerTransfer data
  else if i = senderStream then p.senderTransfer data
  else if i = commandStream then p.commandTransfer data
  else p.clipsTransfer

/-- A due refresh takes the channel that a transfer has left (R19). -/
def Part.afterTransfer (p : Part) : Part := p.setPath p.path.takeRefresh

/-- TRANSFER_COMPLETE (R18). -/
def execTransferComplete (dt : Nat) (s : State) : Host.Outcome State Fault Refusal :=
  let p := s.part.after dt
  match p.path.channel with
  | .free | .refresh => .next { s with part := p }
  | .client port =>
    match (p.path.ports.nth port).queue with
    | [] => .next { s with part := p.freeChannel.afterTransfer }
    | a :: _ =>
      if Config.dramBytes < Config.lineBytes * a.target + a.req.bytes then .fault .beyondDram
      else
        let dram := moved s.dram a.req a.target
        .next { s with
          dram := dram
          part := ((p.freeChannel.clientDone port a (fetched s.dram a.req a.target) dram).afterTransfer) }
  | .stream i r orphan =>
    if Config.dramBytes < r.next then .fault .beyondDram
    else
      let data := fetched s.dram r r.line
      .next { s with
        dram := moved s.dram r r.line
        part := (if orphan then p.freeChannel else p.freeChannel.streamDone i data).afterTransfer }

end Sys2Proof.Machine
end

