-- ==== Sys2Proof/Machine/Startup.lean ====
section
/-! DEFINITION. Start-up (chapter 11): power-on, the read of the image, its application or FALLBACK,
calibration, the fault line and load mode; and what application and ENGINE RESET share. -/

namespace Sys2Proof.Machine

/-! ## Power-on (R185) -/

/-- What a lane keeps of its outside at power-on: its input levels. -/
def Lane.repower (old fresh : Lane) : Lane := { fresh with carrier := old.carrier, modemHold := old.modemHold }

/-- Power-on reset: every block clear, the straps sampled, the outside levels as they are (R185). -/
def Part.repower (modeLoad stn1 stn0 : Bool) (p : Part) : Part :=
  { Part.reset with
      now := p.now, outputs := p.outputs,
      loader := { Part.reset.loader with
        state := if modeLoad then .load else .reading, modeLoad := modeLoad, stn1 := stn1, stn0 := stn0 },
      cues := Table.make fun l => CueLine.initial (Part.reset.cues.nth l).cfg (p.cues.nth l).pin,
      lanes := Table.make fun l => (p.lanes.nth l).repower (Part.reset.lanes.nth l) }

/-- POWER_ON (R185): the DRAM's contents are undefined until written (assumption 1). -/
def execPowerOn (dt : Nat) (modeLoad stn1 stn0 : Bool) (s : State) : Host.Outcome State Fault Refusal :=
  .next { s with dram := [], part := (s.part.after dt).repower modeLoad stn1 stn0 }

/-! ## The active copy's settings (R187, R183) -/

/-- The cameras the copy marks RUNNING are started (R43). -/
def Part.startCameras (i : Image) (p : Part) : Part :=
  (List.finRange 8).foldl (fun p k => if (i.cameras.nth k).1 then p.startRunning k else p) p

/-- The lanes whose initial state is ON are turned on (R155, R169). -/
def Part.startLanes (p : Part) : Part :=
  p.setLanes (p.lanes.each fun l => if l.cfg.initialOn then l.turnOn p.now else l)

/-- Every block but the clock, the send engine's counter, the lanes and the command engine takes its state from
the active copy (R7, R20, R35, R43, R78, R93, R97, R100, R104, R115, R152). -/
def Part.applyCopy (i : Image) (p : Part) : Part :=
  let p1 := p.setPath { p.path with
    windows := i.windows, intervals := i.intervals, waits := Table.all 0,
    ports := p.path.ports.each fun q => { q with refusals := 0, reads := 0, writes := 0, last := none } }
  let p2 := p1.setCues (Table.make fun l => CueLine.initial (i.cues.nth l) (p.cues.nth l).pin)
  let p3 := p2.setCameras (i.cameras.each fun c => Camera.initial c.2)
  let p4 := (p3.setCoder Coder.clear).setRings (Table.all Ring.clear)
  let p5 := p4.setMixer ⟨if i.mixerOn then .running else .stopped, none, i.sources.each Source.initial,
    i.buses.each fun b => Bus.initial b.1 b.2, 0⟩
  let p6 := p5.setClips Clips.clear
  p6.setSender { p6.sender with
    items := [], classes := i.classes.each fun c => ClassRecord.initial c.1 c.2, cursors := Table.all none, store := [],
    build := none, counts := ⟨0, 0, 0, 0, 0, 0, 0, 0, 0⟩ }

/-- The OPEN window of a kind in the copy. -/
def Image.windowOf (i : Image) (k : WindowKind) : Option (Fin 32) :=
  (List.finRange 32).find? fun w => (i.windows.nth w).state == .opened && (i.windows.nth w).kind == k

/-- The two rings the copy gives (R171); none in FALLBACK. -/
def Image.rings (i : Image) : Option Rings :=
  match i.windowOf .command, i.windowOf .status with
  | some c, some t => some ⟨c, t, (i.windows.nth c).base, (i.windows.nth t).base, i.n, i.m⟩
  | _, _ => none

/-! ## The application event and FALLBACK (R186, R187, R189) -/

def Part.setLoaderState (x : LoaderState) (p : Part) : Part := p.setLoader { p.loader with state := x }

/-- Every block takes its state from the copy, the clock starts and calibration begins (R187, R188). R185 has the clock not
started until memory is READY, R26 and R187 start it at this event; deduced (assumption 43): it starts here. -/
def Part.application (i : Image) (station : Nat) (next : LoaderState) (p : Part) : Part :=
  let p1 := (p.setLoader { p.loader with active := some i, station := station, calibrating := true, state := next }).applyCopy i
  let p2 := p1.setClock (p1.clock.start i.rate p1.now)
  let p3 := p2.setLanes (Table.make fun l => (p2.lanes.nth l).repower (Lane.initial (i.lanes.nth l)))
  let p4 := ((p3.startCameras i).startLanes).tally
  match i.rings with
  | some r => p4.takeRings r
  | none => p4

/-- The fault line toggles from here on, LOW first (R189, R191; assumption 20). -/
def Part.startToggling (p : Part) : Part :=
  p.setLoader { p.loader with faultHigh := false, faultTimer := some (p.now + Config.faultHalfPeriod) }

/-- The image read ends: the image is applied, or the loader goes to FALLBACK (R186). -/
def Part.imageRead (flash : Memory) (p : Part) : Part :=
  if p.loader.state = .reading then
    match checkedImage flash p.loader.stn1 p.loader.stn0 with
    | some i => p.application i (stationOf i.station p.loader.stn1 p.loader.stn0) .calibrating
    | none => (p.application Image.fallback (stationOf 0 p.loader.stn1 p.loader.stn0) .fallback).startToggling
  else p

/-- IMAGE_READ_COMPLETE (R186). -/
def execImageReadComplete (dt : Nat) (s : State) : Host.Outcome State Fault Refusal :=
  .next (s.withPart fun p => (p.after dt).imageRead s.flash)

/-! ## Calibration (R188) -/

/-- PASS: memory is READY and the refresh timer starts (R188, R19). -/
def Part.memoryReady (p : Part) : Part :=
  let p1 := p.setLoader { p.loader with
    calibrating := false, state := if p.loader.state = .fallback then .fallback else .running }
  p1.setPath { p1.path with ready := true, refreshTimer := some (p1.now + p1.refreshInterval) }

/-- FAIL: the attempt is counted; the third leads to DRAM FAULT (R188). -/
def Part.calibrationFailed (p : Part) : Part :=
  if p.loader.attempts + 1 < 3 then p.setLoader { p.loader with attempts := p.loader.attempts + 1 }
  else p.setLoader { p.loader with
    attempts := p.loader.attempts + 1, calibrating := false, state := .dramFault, faultHigh := true, faultTimer := none }

/-- CALIBRATION_COMPLETE (R188). DRAM contents at READY are undefined across every range (assumption 1). -/
def execCalibrationComplete (dt : Nat) (pass : Bool) (s : State) : Host.Outcome State Fault Refusal :=
  let p := s.part.after dt
  if p.loader.calibrating then
    if pass then .next { s with dram := [], part := p.memoryReady } else .next { s with part := p.calibrationFailed }
  else .next { s with part := p }

/-! ## The fault line (R189, R191) -/

/-- The toggling fault line changes level. -/
def Part.toggleFault (p : Part) : Part :=
  match p.loader.faultTimer with
  | none => p
  | some t =>
    (p.reach t).setLoader { p.loader with faultHigh := !p.loader.faultHigh, faultTimer := some (t + Config.faultHalfPeriod) }

/-- FAULT_LINE_TOGGLE (R189). -/
def execFaultLineToggle (s : State) : Host.Outcome State Fault Refusal := .next (s.withPart Part.toggleFault)

/-! ## Load mode (R190, R191) -/

/-- The answer characters. -/
def Part.answer (character : Byte) (p : Part) : Part := p.emit (.answer character)
def ansPlus : Byte := 0x2B
def ansBang : Byte := 0x21
def ansHash : Byte := 0x23
def ansQuery : Byte := 0x3F
def ansEquals : Byte := 0x3D
def ansX : Byte := 0x58

/-- The load fails and the fault line begins to toggle (R191). -/
def Part.loadFails (p : Part) : Part := (p.setLoader { p.loader with load := .failed }).startToggling

/-- A START in a state that takes one (R190): the flash is erased over the length. Design choice (assumption 24): the
last accepted DATA record of an earlier load is forgotten here, so that only records of this load count as repeats; R190
does not say. -/
def State.acceptStart (len : Nat) (s : State) : State :=
  { s with
      flash := s.flash.erase 0 len,
      part := s.part.setLoader { s.part.loader with
        load := .receiving, position := 0, length := len, erasing := true, lastData := none, faultHigh := false, faultTimer := none } }

/-- A DATA at the load position is written, read back and compared (R190, assumption 17). -/
def State.writeData (offset : Nat) (bytes readBack : List Byte) (s : State) : State :=
  let p := s.part
  { s with
      flash := s.flash.writeBytes flashBlank offset readBack,
      part :=
        if readBack = bytes then
          (p.setLoader { p.loader with position := p.loader.position + bytes.length, lastData := some (offset, bytes) }).answer ansPlus
        else p.loadFails.answer ansHash }

/-- The END check: the flash's image has its marker, the START length and its check value, and nothing else is asked
of it (R191). -/
def State.endCheck (s : State) : Bool :=
  decide (imageLength s.flash = s.part.loader.length) && imageSound (imageBytes s.flash s.part.loader.length)

/-- A good load record is handled according to the load state (R190, R191). -/
def State.handleRecord (r : LoadRecord) (s : State) : State :=
  let l := s.part.loader
  match l.load, r with
  | .receiving, .start _ => s.withPart (Part.answer ansBang)
  | .receiving, .data offset bytes readBack =>
    if l.lastData = some (offset, bytes) then s.withPart (Part.answer ansPlus)
    else if offset = l.position ∧ offset + bytes.length ≤ l.length then s.writeData offset bytes readBack
    else s.withPart (Part.answer ansBang)
  | .receiving, .finish =>
    if l.position = l.length then
      if s.endCheck then s.withPart fun p => (p.setLoader { p.loader with load := .complete }).answer ansEquals
      else s.withPart fun p => p.loadFails.answer ansX
    else s.withPart (Part.answer ansBang)
  | _, .start len => if 1 ≤ len ∧ len ≤ Config.imageMax then s.acceptStart len else s.withPart (Part.answer ansBang)
  | _, _ => s.withPart (Part.answer ansBang)

/-- A load record's last byte is received in load mode: it is bad, waits, or is handled (R190). -/
def State.loadRecord (good : Bool) (r : LoadRecord) (s : State) : State :=
  if s.part.loader.state ≠ .load then s
  else if !good then s.withPart (Part.answer ansQuery)
  else if s.part.loader.erasing then
    if s.part.loader.waiting.isSome then s.withPart (Part.answer ansQuery)
    else s.withPart fun p => p.setLoader { p.loader with waiting := some r }
  else s.handleRecord r

/-- The record's check value matches and no byte of it had a framing error. -/
def recordGood (kind : Byte) (fields : List Byte) (framing : Bool) (check : Word) : Bool :=
  !framing && crc (loadCovered kind fields) == check

/-- LOAD_START (R190). -/
def execLoadStart (dt : Nat) (framing : Bool) (length check : Word) (s : State) : Host.Outcome State Fault Refusal :=
  .next ((s.withPart (Part.after dt)).loadRecord (recordGood 0 (word length) framing check) (.start length.toNat))

/-- The erase has ended: "+", and a record that waited is handled (R190, assumption 24). -/
def State.eraseDone (s : State) : State :=
  if s.part.loader.erasing then
    let s1 := s.withPart fun p => p.setLoader { p.loader with erasing := false, waiting := none }
    let s2 := if s.part.loader.load = .receiving then s1.withPart (Part.answer ansPlus) else s1
    match s.part.loader.waiting with
    | some r => s2.handleRecord r
    | none => s2
  else s

/-- ERASE_COMPLETE (R190). -/
def execEraseComplete (dt : Nat) (s : State) : Host.Outcome State Fault Refusal :=
  .next (s.withPart (Part.after dt)).eraseDone

/-- A DATA record's bytes, and what the flash gives back for them, are as many as a record carries. -/
def dataFits (bytes readBack : List Byte) : Bool :=
  decide (1 ≤ bytes.length) && decide (bytes.length ≤ 256) && readBack.length == bytes.length

/-- LOAD_DATA (R190). -/
def execLoadData (dt : Nat) (framing : Bool) (offset : Word) (bytes : List Byte) (check : Word) (readBack : List Byte) (s : State) :
    Host.Outcome State Fault Refusal :=
  let s1 := s.withPart (Part.after dt)
  if dataFits bytes readBack then
    .next (s1.loadRecord (recordGood 1 (word offset ++ bytes) framing check) (.data offset.toNat bytes readBack))
  else .next s1

/-- LOAD_END (R191). -/
def execLoadEnd (dt : Nat) (framing : Bool) (check : Word) (s : State) : Host.Outcome State Fault Refusal :=
  .next ((s.withPart (Part.after dt)).loadRecord (recordGood 2 [] framing check) .finish)

/-- A break aborts a load in progress (R191). -/
def Part.maintenanceBreak (p : Part) : Part :=
  if p.loader.state = .load ∧ p.loader.load = .receiving then p.loadFails else p

/-- MAINTENANCE_BREAK (R191). -/
def execMaintenanceBreak (dt : Nat) (s : State) : Host.Outcome State Fault Refusal :=
  .next (s.withPart fun p => (p.after dt).maintenanceBreak)

end Sys2Proof.Machine
end

