-- ==== Sys2Proof/Machine/Reset.lean ====
section
/-! DEFINITION. ENGINE RESET and its completion (R183, R184), with what each block's chapter states of it. -/

namespace Sys2Proof.Machine

/-- Every outstanding deferred command is completed CANCELLED, in the order taken (R183 step 1). -/
def Part.cancelDeferred (p : Part) : Part :=
  let p1 := p.setCmd { p.cmd with deferred := [] }
  p.cmd.deferred.foldl (fun p d => p.complete d.ring d.tag .cancelled []) p1

/-- The streams' offers go, and a transfer of a stream in progress runs on unused (R25, R78, R112, R129, R152). -/
def Part.dropStreams (p : Part) : Part :=
  p.setPath { p.path with
    streams := Table.all none,
    channel := match p.path.channel with
      | .stream i r _ => .stream i r true
      | c => c }

/-- The frames transmitting on the lanes leave the part broken off. -/
def Part.breakOffAll (p : Part) : Part := (List.finRange 4).foldl (fun p l => p.breakOff l) p

/-- A lane at ENGINE RESET: cut, with the active copy's settings and its counters at 0 (R169). The break of a cut
frame is timed with the divider in force before the reset (assumption 39). -/
def Lane.engineReset (l : Lane) (now : Nat) (cfg : LaneSettings) : Lane :=
  { (l.cut now) with cfg := cfg, counts := ⟨0, 0, 0, 0, 0, 0⟩ }

/-- Every block applies the active copy (R183 step 3). -/
def Part.reapply (i : Image) (p : Part) : Part :=
  let p1 := (p.dropStreams.breakOffAll).applyCopy i
  let p2 := p1.setLanes (Table.make fun l => (p1.lanes.nth l).engineReset p1.now (i.lanes.nth l))
  ((p2.startCameras i).startLanes).tally

/-- The command engine's counters and pending notices go (R183 step 2). -/
def Part.clearCommander (p : Part) : Part :=
  p.setCmd { p.cmd with counts := ⟨0, 0, 0, 0, 0, 0⟩, notices := [] }

/-- The reset's steps (R183). -/
def Part.engineReset (ring : Nat) (tag : Word) (p : Part) : Part :=
  let p1 := p.cancelDeferred.clearCommander
  let p2 := match p1.loader.active with
    | some i => p1.reapply i
    | none => p1
  (p2.defer ring tag .engineReset).complete ring tag .done []

/-- ENGINE_RESET (R183). -/
def execEngineReset (tag : Word) (s : State) : Host.Outcome State Fault Refusal :=
  .next (s.withPart (Part.run (.engineReset tag) fun i p =>
    if p.outstanding .engineReset then p.refuse i tag .busy []
    else if p.path.quiesce ≠ .quiesced then p.refuse i tag .state []
    else p.engineReset i tag))

/-- The write index update of the reset's own completion has landed: the reset leaves the deferred list and
the ports return to RUNNING (R184). -/
def Part.endReset (p : Part) : Part :=
  if p.cmd.resetWritten ∧ p.outstanding .engineReset then
    (p.setCmd { p.cmd with
      deferred := p.cmd.deferred.filter fun d => d.kind != .engineReset, resetWritten := false }).setQuiesce .running
  else p

/-- ENGINE_RESET_COMPLETE (R184). -/
def execEngineResetComplete (s : State) : Host.Outcome State Fault Refusal := .next (s.withPart Part.endReset)

end Sys2Proof.Machine
end

