-- ==== Sys2Proof/Machine/Dispatch.lean ====
section
/-! DEFINITION. The dispatch of a command to its meaning: one arm per constructor. -/

namespace Sys2Proof.Machine

def exec (i : Instr) (s : State) : Host.Outcome State Fault Refusal :=
  match i with
  -- Start-up and load mode
  | .powerOn dt modeLoad stn1 stn0 => Sys2Proof.Machine.execPowerOn dt modeLoad stn1 stn0 s
  | .imageReadComplete dt => Sys2Proof.Machine.execImageReadComplete dt s
  | .calibrationComplete dt pass => Sys2Proof.Machine.execCalibrationComplete dt pass s
  | .faultLineToggle => Sys2Proof.Machine.execFaultLineToggle s
  | .loadStart dt framing length check => Sys2Proof.Machine.execLoadStart dt framing length check s
  | .eraseComplete dt => Sys2Proof.Machine.execEraseComplete dt s
  | .loadData dt framing offset bytes check readBack => Sys2Proof.Machine.execLoadData dt framing offset bytes check readBack s
  | .loadEnd dt framing check => Sys2Proof.Machine.execLoadEnd dt framing check s
  | .maintenanceBreak dt => Sys2Proof.Machine.execMaintenanceBreak dt s
  -- The memory path
  | .clientRequest dt port tag kind line count data => Sys2Proof.Machine.execClientRequest dt port tag kind line count data s
  | .grant => Sys2Proof.Machine.execGrant s
  | .transferComplete dt => Sys2Proof.Machine.execTransferComplete dt s
  | .refreshDue => Sys2Proof.Machine.execRefreshDue s
  | .refreshComplete dt => Sys2Proof.Machine.execRefreshComplete dt s
  | .setPortInterval tag contender interval => Sys2Proof.Machine.execSetPortInterval tag contender interval s
  | .openWindow tag entry base size kind subject readSet writeSet => Sys2Proof.Machine.execOpenWindow tag entry base size kind subject readSet writeSet s
  | .closeWindow tag entry => Sys2Proof.Machine.execCloseWindow tag entry s
  | .windowDrained w => Sys2Proof.Machine.execWindowDrained w s
  | .quiesce tag => Sys2Proof.Machine.execQuiesce tag s
  | .quiesceComplete => Sys2Proof.Machine.execQuiesceComplete s
  | .resume tag => Sys2Proof.Machine.execResume tag s
  -- The programme clock and the cue lines
  | .frameReferencePulse dt => Sys2Proof.Machine.execFrameReferencePulse dt s
  | .frameReferenceLoss => Sys2Proof.Machine.execFrameReferenceLoss s
  | .oscillatorPictureTick => Sys2Proof.Machine.execOscillatorPictureTick s
  | .setTimecode tag ff ss mm hh => Sys2Proof.Machine.execSetTimecode tag ff ss mm hh s
  | .wordClockEdge dt => Sys2Proof.Machine.execWordClockEdge dt s
  | .wordClockLoss => Sys2Proof.Machine.execWordClockLoss s
  | .oscillatorBlockTick => Sys2Proof.Machine.execOscillatorBlockTick s
  | .cueRawChange dt line high => Sys2Proof.Machine.execCueRawChange dt line high s
  | .debounceExpiry line => Sys2Proof.Machine.execDebounceExpiry line s
  | .setCueLine tag line mode drive debounce cameras preroll tally => Sys2Proof.Machine.execSetCueLine tag line mode drive debounce cameras preroll tally s
  | .driveCueLine tag line value => Sys2Proof.Machine.execDriveCueLine tag line value s
  -- Frame stores
  | .setCamera tag camera frameWin replayWin stride lines tiles policy holdLimit budget live => Sys2Proof.Machine.execSetCamera tag camera frameWin replayWin stride lines tiles policy holdLimit budget live s
  | .startCamera tag camera => Sys2Proof.Machine.execStartCamera tag camera s
  | .stopCamera tag camera => Sys2Proof.Machine.execStopCamera tag camera s
  | .stopCameraComplete camera => Sys2Proof.Machine.execStopCameraComplete camera s
  | .holdLimitExpiry camera => Sys2Proof.Machine.execHoldLimitExpiry camera s
  -- The band coder and the picture index
  | .jobTake => Sys2Proof.Machine.execJobTake s
  | .codedEvent dt tiles => Sys2Proof.Machine.execCodedEvent dt tiles s
  | .findPicture tag camera byNumber number byTimecode ff ss mm hh => Sys2Proof.Machine.execFindPicture tag camera byNumber number byTimecode ff ss mm hh s
  -- Sound
  | .setSource tag source state window ring offset width => Sys2Proof.Machine.execSetSource tag source state window ring offset width s
  | .setBus tag bus state window ring master send divider => Sys2Proof.Machine.execSetBus tag bus state window ring master send divider s
  | .setGain tag bus source target step => Sys2Proof.Machine.execSetGain tag bus source target step s
  | .removeSource tag bus source => Sys2Proof.Machine.execRemoveSource tag bus source s
  | .startMixer tag => Sys2Proof.Machine.execStartMixer tag s
  | .stopMixer tag => Sys2Proof.Machine.execStopMixer tag s
  | .stopMixerComplete => Sys2Proof.Machine.execStopMixerComplete s
  | .readMeters tag report => Sys2Proof.Machine.execReadMeters tag report s
  -- Clips and labels
  | .markIn tag cameras preroll limitPresent limit labels => Sys2Proof.Machine.execMarkIn tag cameras preroll limitPresent limit labels s
  | .markOut tag clip => Sys2Proof.Machine.execMarkOut tag clip s
  | .unpin tag clip => Sys2Proof.Machine.execUnpin tag clip s
  | .pin tag clip => Sys2Proof.Machine.execPin tag clip s
  | .deleteClip tag clip => Sys2Proof.Machine.execDeleteClip tag clip s
  | .addLabel tag clip code => Sys2Proof.Machine.execAddLabel tag clip code s
  | .removeLabel tag clip code => Sys2Proof.Machine.execRemoveLabel tag clip code s
  | .sendClip tag clip => Sys2Proof.Machine.execSendClip tag clip s
  | .mirrorWriteStart => Sys2Proof.Machine.execMirrorWriteStart s
  -- The send engine
  | .itemStale item => Sys2Proof.Machine.execItemStale item s
  | .cursorStep => Sys2Proof.Machine.execCursorStep s
  | .buildStart => Sys2Proof.Machine.execBuildStart s
  | .descriptorExpiry seq => Sys2Proof.Machine.execDescriptorExpiry seq s
  | .returnMessageEnd dt lane bytes => Sys2Proof.Machine.execReturnMessageEnd dt lane bytes s
  | .receipt lane => Sys2Proof.Machine.execReceipt lane s
  | .resend lane => Sys2Proof.Machine.execResend lane s
  | .laneTest lane => Sys2Proof.Machine.execLaneTest lane s
  | .setClass tag cls interval hold => Sys2Proof.Machine.execSetClass tag cls interval hold s
  | .flushClass tag cls => Sys2Proof.Machine.execFlushClass tag cls s
  -- Trunk lanes
  | .setLane tag lane divider window filter depth policy => Sys2Proof.Machine.execSetLane tag lane divider window filter depth policy s
  | .laneOn tag lane => Sys2Proof.Machine.execLaneOn tag lane s
  | .laneOff tag lane => Sys2Proof.Machine.execLaneOff tag lane s
  | .breakSentEnd lane => Sys2Proof.Machine.execBreakSentEnd lane s
  | .carrierChange dt lane present => Sys2Proof.Machine.execCarrierChange dt lane present s
  | .carrierFilterExpiry lane => Sys2Proof.Machine.execCarrierFilterExpiry lane s
  | .settleExpiry lane => Sys2Proof.Machine.execSettleExpiry lane s
  | .modemHoldChange dt lane asserted => Sys2Proof.Machine.execModemHoldChange dt lane asserted s
  | .transmitStart lane => Sys2Proof.Machine.execTransmitStart lane s
  | .transmitComplete lane => Sys2Proof.Machine.execTransmitComplete lane s
  | .breakReceived dt lane afterRun => Sys2Proof.Machine.execBreakReceived dt lane afterRun s
  | .breakReceiveEnd dt lane => Sys2Proof.Machine.execBreakReceiveEnd dt lane s
  | .markerFirstByte dt lane afterRun => Sys2Proof.Machine.execMarkerFirstByte dt lane afterRun s
  -- Command and status rings
  | .tailWordWrite => Sys2Proof.Machine.execTailWordWrite s
  | .headWordWrite => Sys2Proof.Machine.execHeadWordWrite s
  | .commandFetch => Sys2Proof.Machine.execCommandFetch s
  | .unknownCommand tag kind => Sys2Proof.Machine.execUnknownCommand tag kind s
  | .statusWriteStart => Sys2Proof.Machine.execStatusWriteStart s
  | .readCounters tag group clear report => Sys2Proof.Machine.execReadCounters tag group clear report s
  | .engineReset tag => Sys2Proof.Machine.execEngineReset tag s
  | .engineResetComplete => Sys2Proof.Machine.execEngineResetComplete s

end Sys2Proof.Machine
end

