-- ==== Sys2Proof/WellFormed.lean ====
section
/-! DEFINITION. Which command terms are ones the outside can send: the sizes the types of Syntax.lean do not
already fix. -/

namespace Sys2Proof

/-- A client request's fields: 1 to 4 lines, and for a WRITE one byte and one enable for every byte of them,
for a READ none (1.1). -/
def requestWf (kind : ReqKind) (cnt : Nat) (data : List (Byte × Bool)) : Bool :=
  decide (1 ≤ cnt) && decide (cnt ≤ 4) &&
    (match kind with | .read => data.isEmpty | .write => data.length == 64 * cnt)

/-- A DATA load record carries 1 to 256 bytes, and as many are read back (R190). -/
def loadDataWf (bytes readBack : List Byte) : Bool :=
  decide (1 ≤ bytes.length) && decide (bytes.length ≤ 256) && readBack.length == bytes.length

/-- Coded tiles: 1 to 60, each at least 16 bytes and a multiple of 16 (R66, 3.1). -/
def tilesWf (tiles : List (List Byte)) : Bool :=
  decide (1 ≤ tiles.length) && decide (tiles.length ≤ 60) && tiles.all fun t => decide (16 ≤ t.length) && t.length % 16 == 0

/-- A gathered message has no more bytes than its longest kind, and at least its marker and kind (12.5). -/
def messageWf (bytes : List Byte) : Bool := decide (3 ≤ bytes.length) && decide (bytes.length ≤ 16)

/-- The label codes a command record has room for (12.2). -/
def labelsWf (labels : List Half) : Bool := decide (labels.length ≤ 25)

/-- A kind code that names no command (12.2). -/
def unknownKind (kind : Half) : Bool := decide (kind.toNat = 0) || decide (34 < kind.toNat)

/-- A command term is well formed. -/
def Instr.wf : Instr → Bool
  | .clientRequest _ _ _ kind _ cnt data => requestWf kind cnt data
  | .loadData _ _ _ bytes _ readBack => loadDataWf bytes readBack
  | .codedEvent _ tiles => tilesWf tiles
  | .returnMessageEnd _ _ bytes => messageWf bytes
  | .markIn _ _ _ _ _ labels => labelsWf labels
  | .unknownCommand _ kind => unknownKind kind
  | _ => true

end Sys2Proof
end

