-- ==== Sys2Proof/Safety.lean ====
section
/-! DEFINITION. What counts as a safe state and a safe run, and the words the statements use: a command in the
engine's hand, how its run ends, and the conditions the manual puts on a state. -/

/-- The commands at which blocks take their state from the reset state or from an image. -/
def Sys2Proof.Instr.takesAnImage : Instr → Bool
  | .powerOn .. | .imageReadComplete _ | .engineReset _ => true
  | _ => false

namespace Sys2Proof.Machine

/-! ## Safe states and runs -/

/-- Both addressed stores are in their canonical form. -/
def State.memoriesWf (s : State) : Bool := Memory.wf dramBlank s.dram && Memory.wf flashBlank s.flash

/-- What the channel is transferring lies within the DRAM. -/
def State.transferInRange (s : State) : Bool :=
  match s.part.path.channel with
  | .free | .refresh => true
  | .client port =>
    match (s.part.path.ports.nth port).queue with
    | [] => true
    | a :: _ => decide (Config.lineBytes * a.target + a.req.bytes ≤ Config.dramBytes)
  | .stream _ r _ => decide (r.next ≤ Config.dramBytes)

/-- The next step does not stop. -/
def State.goesOn (s : State) : Prop := ∃ s', step s = .next s'

/-- `n` steps from a state, none of which stops. -/
inductive Reaches : Nat → State → State → Prop where
  | refl (s : State) : Reaches 0 s s
  | step {n : Nat} {s t u : State} (h : Reaches n s t) (hs : step t = .next u) : Reaches (n + 1) s u

/-! ## A command's run (R174, R175) -/

/-- The command engine holds this command, taken from the record at ring index `i` and about to run. -/
def State.taken (s : State) (i : Nat) (c : Instr) : Prop := s.part.cmd.inHand = some (i, c)

/-- The command has left the engine's hand and its completion, with this result and data, is the newest of the
pending completions. -/
def Commander.ended (c : Commander) (i : Nat) (tag : Word) (r : Result) (data : List Byte) : Commander :=
  { c with inHand := none, completions := c.completions ++ [⟨i, tag, r, data⟩] }

/-- The part once an immediate command has run: DONE, with its result data. -/
def Part.answered (p : Part) (i : Nat) (tag : Word) (data : List Byte) : Part :=
  { p with cmd := p.cmd.ended i tag .done data }

/-- The part once a command is refused: nothing changes but the command's end and the commands refused counter. -/
def Part.turnedAway (p : Part) (i : Nat) (tag : Word) (r : Result) (data : List Byte) : Part :=
  { p with cmd := { p.cmd.ended i tag r data with counts := { p.cmd.counts with refused := count p.cmd.counts.refused } } }

/-- The part once a deferred command has been taken: it stands at the tail of the deferred list. -/
def Part.deferring (p : Part) (i : Nat) (tag : Word) (k : DeferredKind) : Part :=
  { p with cmd := { p.cmd with inHand := none, deferred := p.cmd.deferred ++ [⟨i, tag, k⟩] } }

/-- A state whose part alone has changed. -/
def State.becomes (s : State) (p : Part) : State := { s with part := p }

/-- A command refused, with no result data. -/
def State.refuses (s : State) (i : Nat) (tag : Word) (r : Result) : State := s.becomes (s.part.turnedAway i tag r [])

/-- The part with the command that was in hand gone from it and nothing else changed. -/
def Part.handEmpty (p : Part) : Part := { p with cmd := { p.cmd with inHand := none } }

/-- The outstanding deferred command on an object completes DONE: it leaves the list, and its completion is the
newest pending one. -/
def Commander.completed (c : Commander) (d : Deferred) : Commander :=
  { c with deferred := c.deferred.filter fun e => e.kind != d.kind, completions := c.completions ++ [⟨d.ring, d.tag, .done, []⟩] }

/-- This deferred command is the one outstanding on its object. -/
def Commander.awaits (c : Commander) (d : Deferred) : Prop := (c.deferred.find? fun e => e.kind == d.kind) = some d

/-! ## The memory path -/

/-- No two windows that are OPEN or DRAINING share a byte. -/
def windowsDisjoint (ws : Table Window 32) : Prop :=
  ∀ a b : Fin 32, (ws.nth a).live = true → (ws.nth b).live = true → a ≠ b →
    (ws.nth a).base + (ws.nth a).size ≤ (ws.nth b).base ∨ (ws.nth b).base + (ws.nth b).size ≤ (ws.nth a).base

/-- The window table and, where one is in force, the active copy's window table have no two windows that overlap. -/
def State.windowsApart (s : State) : Prop :=
  windowsDisjoint s.part.path.windows ∧ ∀ i, s.part.loader.active = some i → windowsDisjoint i.windows

/-- One port, or one window, of the path replaced. -/
def Path.putPort (x : Path) (port : Fin 6) (q : Port) : Path := { x with ports := x.ports.put port q }
def Path.putWindow (x : Path) (w : Fin 32) (win : Window) : Path := { x with windows := x.windows.put w win }

/-- An engine stream of the path has this request as its next one. -/
def Path.offering (x : Path) (i : Fin 5) (r : Request) : Path := { x with streams := x.streams.put i (some r) }

/-- The path once a transfer has ended: the channel is free, or a due refresh has taken it. -/
def Path.freed (x : Path) : Path := { x with channel := if x.refreshesDue = 0 then .free else .refresh }

/-- The part with another path. -/
def Part.withPath (p : Part) (x : Path) : Part := { p with path := x }

/-- The channel carries this transfer of an engine stream, whose result is wanted, and it lies within the DRAM. -/
def State.streaming (s : State) (i : Fin 5) (q : Request) : Prop :=
  s.part.path.channel = .stream i q false ∧ 64 * q.line + 64 * q.count ≤ 8589934592

/-- The data a transfer of these lines returns: for a READ the bytes as they stand. -/
def State.returned (s : State) (k : ReqKind) (line lines : Nat) : List Byte :=
  match k with
  | .read => (List.range (64 * lines)).map fun x => s.dramByte (64 * line + x)
  | .write => []

/-- The channel carries the transfer of a client's only request, a WRITE that lies within the DRAM and was checked in
this window. -/
def State.clientWriting (s : State) (port : Fin 6) (a : Admitted) (w : Fin 32) : Prop :=
  s.part.path.channel = .client port ∧ (s.part.path.ports.nth port).queue = [a] ∧ a.via = some w ∧
    64 * a.target + 64 * a.req.count ≤ 8589934592 ∧ a.req.kind = .write ∧ requestWf .write a.req.count a.req.data = true

/-- The part once a client's only request, a WRITE, has been performed and answered, before any watcher acts. -/
def State.clientWritten (s : State) (dt : Nat) (port : Fin 6) (a : Admitted) : Part :=
  { s.part with
    now := s.part.now + dt
    outputs := s.part.outputs ++ [.ok port a.tag []]
    path := s.part.path.freed.putPort port { (s.part.path.ports.nth port) with
      queue := [], writes := count (s.part.path.ports.nth port).writes } }

/-- The part with another queue at a port. -/
def Part.withQueue (p : Part) (port : Fin 6) (q : List Admitted) : Part :=
  p.withPath (p.path.putPort port { (p.path.ports.nth port) with queue := q })

/-- The request waits in its queue as its admission left it (R1). -/
def Admitted.waits (a : Admitted) : Prop :=
  a.phase = .waiting ∧ a.via = none ∧ a.target = a.req.line ∧ a.tracked = false ∧
    requestWf a.req.kind a.req.count a.req.data = true

/-- The part once a request, become the head of a port's queue with nothing behind it, is checked (R3): what CLIENT_REQUEST
makes of the same request at the same port with its ready line asserted and its queue empty. -/
def Part.headAlone (p : Part) (port : Fin 6) (a : Admitted) : Part :=
  let asked := (p.withQueue port []).withPath { (p.withQueue port []).path with quiesce := .running, ready := true }
  match exec (.clientRequest 0 port a.tag a.req.kind a.req.line a.req.count a.req.data) (State.reset.becomes asked) with
  | .next u => u.part.withPath { u.part.path with quiesce := p.path.quiesce, ready := p.path.ready }
  | _ => p

/-- The part once these requests have moved up to the head of a port's queue (R3): the first is checked; where it is refused
the next one becomes the head and is checked, and where it passes or is held it stands at the head, counted in the window it
was counted in at its admission (R6), and those behind it wait. -/
def Part.linedUp (port : Fin 6) : List Admitted → Part → Part
  | [], p => p.withQueue port []
  | a :: rest, p =>
    let q := p.headAlone port a
    match (q.path.ports.nth port).queue with
    | [] => Part.linedUp port rest q
    | h :: _ => q.withQueue port ({ h with counted := a.counted } :: rest)

/-- The part once a write held in a draining window at the head of a port is answered CLOSING (R22, R52): the held-write record
of the port goes, the refusal is counted, recorded and notified (R5), and the requests behind it line up (R3). -/
def Part.closesHeld (w : Fin 32) (p : Part) (port : Fin 6) : Part :=
  match (p.path.ports.nth port).queue with
  | [] => p
  | a :: rest =>
    if a.phase = .held ∧ a.via = some w then
      (Part.refuseRequest port a.tag a.req .closing { p with
        cameras := p.cameras.each fun c => { c with held := c.held.filter fun h => h.port ≠ port } }).linedUp port rest
    else p

/-- How far a wait count stands past its interval. -/
def Path.excess (p : Path) (c : Fin 11) : Int := (p.waits.nth c : Int) - (p.intervals.nth c : Int)

/-- The contender R17 grants the channel to. -/
def Path.grantee (p : Path) (c : Fin 11) : Prop :=
  p.offers c = true ∧
  ((∃ d, p.offers d = true ∧ p.intervals.nth d ≤ p.waits.nth d) →
    p.intervals.nth c ≤ p.waits.nth c ∧
      ∀ d, p.offers d = true → p.intervals.nth d ≤ p.waits.nth d → p.excess d < p.excess c ∨ (p.excess d = p.excess c ∧ c ≤ d)) ∧
  ((¬ ∃ d, p.offers d = true ∧ p.intervals.nth d ≤ p.waits.nth d) →
    ∀ d, p.offers d = true → p.intervals.nth c < p.intervals.nth d ∨ (p.intervals.nth c = p.intervals.nth d ∧ c ≤ d))

/-- The wait counts after the channel is granted to `c` (R17). -/
def Path.waitsGranted (p : Path) (c : Fin 11) : Table Nat 11 :=
  Table.make fun d => if d = c then 0 else if p.offers d then count (p.waits.nth d) else p.waits.nth d

/-- The fields OPEN WINDOW accepts, for rings of `n` and `m` records (R21 test 1). -/
def openable (n m base size kind subject readSet writeSet : Nat) : Prop :=
  base % 65536 = 0 ∧ size % 65536 = 0 ∧ 65536 ≤ size ∧ base + size ≤ 8589934592 ∧ kind ≤ 8 ∧
    (kind = 1 ∨ kind = 2 ∨ kind = 4 → subject ≤ 7) ∧ (kind = 3 → subject ≤ 63) ∧ (kind = 5 → subject ≤ 15) ∧
    (kind = 6 → 64 + 64 * n ≤ size) ∧ (kind = 7 → 64 + 64 * m ≤ size) ∧ (kind = 8 → 32768 ≤ size) ∧
    readSet < 64 ∧ writeSet < 64

/-- A window CLOSE WINDOW refuses IN USE (R22 test 4). -/
def Part.usesWindow (p : Part) (w : Fin 32) : Prop :=
  (∃ k, (p.cameras.nth k).state ≠ .stopped ∧ ((p.cameras.nth k).cfg.frameWin = w ∨ (p.cameras.nth k).cfg.replayWin = w)) ∨
  (∃ n, (p.mixer.sources.nth n).cfg.on = true ∧ (p.mixer.sources.nth n).cfg.win = w) ∨
  (∃ b, (p.mixer.buses.nth b).cfg.active = true ∧ (p.mixer.buses.nth b).cfg.win = w) ∨
  ((p.path.windows.nth w).kind = .programme ∧ ∃ q, p.mixer.pass = some q ∧ ∃ b, (q.buses.nth b).cfg.win = w) ∨
  (∃ r, p.cmd.rings = some r ∧ (r.cmdWin = w ∨ r.statWin = w))

/-! ## Slots and pictures -/

/-- The slot is the camera's latest DONE slot (R58). -/
def Camera.latest (c : Camera) (i : SlotId) : Prop :=
  (c.slot i).state = .done ∧ ∀ j, j ≠ i → (c.slot j).state = .done →
    ∃ a b, (c.slot i).stamp = some a ∧ (c.slot j).stamp = some b ∧ laterThan a.number b.number = true

/-- The camera's settings once its pending settings, if any, have taken effect (R47 step 1). -/
def Camera.settled (c : Camera) : CameraSettings :=
  match c.pending with
  | none => c.cfg
  | some x => { c.cfg with policy := x.policy, holdLimit := x.holdLimit, budget := x.budget, live := x.live }

/-- The camera once a slot start is taken at a timecode and a block number (R47). -/
def Camera.begun (c : Camera) (i : SlotId) (t : Timecode) (block : Word) : Camera :=
  { (c.putSlot i ⟨.filling, some ⟨c.counter, t, block, c.settled.live, c.settled.budget⟩, 0, 0, false⟩) with
    cfg := c.settled, pending := none, counter := c.counter + 1
    counts := { c.counts with slotStarts := count c.counts.slotStarts } }

/-- The first byte of a slot, and the last line of a band of it, in a frame window at this base. -/
def CameraSettings.slotAt (c : CameraSettings) (base : Nat) (i : SlotId) : Nat :=
  base + (match i with | .a => 0 | .b => c.lines * c.stride)
def CameraSettings.bandEnd (c : CameraSettings) (base : Nat) (i : SlotId) (b : Nat) : Nat :=
  c.slotAt base i + (b + 1) * (16 * c.stride) - 64

/-- The geometry a camera's rules give it (R44): whole lines of DRAM, whole bands. -/
def CameraSettings.shaped (c : CameraSettings) : Prop :=
  64 ≤ c.stride ∧ c.stride % 64 = 0 ∧ 16 ≤ c.lines ∧ c.lines % 16 = 0

/-- The picture a job or a record belongs to. -/
def BandJob.of (j : BandJob) (k : Fin 8) (i : SlotId) (n : Word) : Prop := j.cam = k ∧ j.slot = i ∧ j.number = n

/-- A picture number that a slot holds, FILLING or CODING and not abandoned (R118). -/
def Camera.holds (c : Camera) (n : Word) : Prop :=
  ∃ i st, ((c.slot i).state = .filling ∨ (c.slot i).state = .coding) ∧ (c.slot i).abandoned = false ∧
    (c.slot i).stamp = some st ∧ st.number = n

/-- The picture a stop leaves unfinished in a slot: FILLING or CODING, its abandoned flag clear (R59). -/
def Slot.leaves (d : Slot) : List Stamp :=
  if (d.state = .filling ∨ d.state = .coding) ∧ d.abandoned = false then d.stamp.toList else []

/-- The pictures a stop settles, the one with the earlier number first (R59). -/
def Camera.leaves (c : Camera) : List Stamp :=
  match c.slotA.leaves, c.slotB.leaves with
  | [a], [b] => if laterThan a.number b.number then [b, a] else [a, b]
  | a, b => a ++ b

/-- A ring once a picture is settled with a gap cause (R89): an OPENING record is rolled back, a GAP or PUBLISHED one stands,
and a picture with no record gets a GAP record where one may be appended (R82), or is counted lost. -/
def Ring.settled (g : GapCause) (r : Ring) (st : Stamp) : Ring :=
  match r.find st.number with
  | some ⟨_, _, _, .opening start len, _, _⟩ => { r with
      index := r.index.map fun x => if x.number = st.number then { x with body := .gap g, pins := 0 } else x
      writePoint := start, used := r.used - len }
  | some _ => r
  | none =>
    if r.index.length < 4096 ∧ (r.index.getLast?.all fun x => laterThan st.number x.number) = true then
      { r with index := r.index ++ [⟨st.number, st.timecode, st.block, .gap g, 0, 0⟩] }
    else { r with lost := count r.lost }

/-- What the completion of a stop, whose command stands at ring index `i` with this tag, makes of a part (R59): the slots'
pictures are settled STOPPED, each counted abandoned and no longer in rate control, a lost one notified; both slots are EMPTY,
the camera STOPPED, the command completed; everything else stands. -/
def Part.stops (k : Fin 8) (i : Nat) (tag : Word) (p q : Part) : Prop :=
  let c := p.cameras.nth k
  q = { p with
    cameras := p.cameras.put k { c with
      state := .stopped, slotA := Slot.clear, slotB := Slot.clear
      counts := { c.counts with abandoned := c.leaves.foldl (fun n _ => count n) c.counts.abandoned } }
    rings := p.rings.put k (c.leaves.foldl (Ring.settled .stopped) (p.rings.nth k))
    coder := { p.coder with
      rates := p.coder.rates.upd k fun x => x.filter fun r => !(c.leaves.map (·.number)).contains r.number }
    cmd := { p.cmd with
      deferred := p.cmd.deferred.filter fun d => d.kind != .stopCamera k
      completions := p.cmd.completions ++ [⟨i, tag, .done, []⟩]
      notices := q.cmd.notices, counts := q.cmd.counts } } ∧
  (∀ x, x ∈ p.cmd.notices → x ∈ q.cmd.notices) ∧
  ((q.rings.nth k).lost ≠ (p.rings.nth k).lost → (Cause.ring, k.val) ∈ q.cmd.notices)

/-- A cue table once every TALLY line follows its camera (R40): ON exactly while that camera is RUNNING with its live-send flag
on; every other line, and all else of a TALLY line, stands. -/
def tallied (cameras : Table Camera 8) (cues : Table CueLine 8) : Table CueLine 8 :=
  Table.make fun l =>
    let c := cues.nth l
    if c.cfg.mode = .tally then
      { c with outputOn := decide (∃ k : Fin 8, c.cfg.tally = k.val ∧ (cameras.nth k).state = .running ∧ (cameras.nth k).cfg.live = true) }
    else c

/-! ## Trunk lanes -/

/-- What R161 makes of a part at an event: where the lane is UP, not held, neither transmitting nor in a break, its oldest
queued frame leaves the queue and begins, to end 8 bit periods a byte later, its descriptor TRANSMITTING; otherwise the part
stands. -/
def Part.begins (l : Fin 4) (p q : Part) : Prop :=
  let r := p.lanes.nth l
  ((r.queue = [] ∨ r.state ≠ .up ∨ r.modemHold = true ∨ r.sending ≠ none ∨ r.breakEnd ≠ none) → q = p) ∧
  (∀ f rest, r.queue = f :: rest → r.state = .up → r.modemHold = false → r.sending = none → r.breakEnd = none →
    q = { p with
      lanes := p.lanes.put l { r with
        queue := rest, sending := some (f, p.now + 8 * f.bytes.length * (12 * r.cfg.divider)) }
      sender := match f.kind with
        | .link seq => { p.sender with store := p.sender.store.map fun d =>
            if d.seq = seq then { d with state := .transmitting } else d }
        | .echo _ => p.sender })

/-! ## Items and descriptors -/

/-- No two items share a name, and no two descriptors a sequence number. -/
def Sender.distinct (x : Sender) : Prop := (x.items.map (·.id)).Nodup ∧ (x.store.map (·.seq)).Nodup

/-- What the return of these frames from a lane makes of the resend store (R143): the unsettled descriptor of such a frame
waits for another lane, or is gone where it is never to be resent; a settled one is gone; any other descriptor stands. -/
def Sender.returns (x : Sender) (frames : List TxFrame) (y : Sender) : Prop :=
  (∀ d f, d ∈ y.store → f ∈ frames → f.kind = .link d.seq → d.state = .waiting ∧ d.lane = none) ∧
  ((x.store.map (·.seq)).Nodup → ∀ d, d ∈ x.store →
    ((∃ f, f ∈ frames ∧ f.kind = .link d.seq) →
      (d.mark = none → d.noResend = false → { d with state := .waiting, lane := none } ∈ y.store) ∧
      ((d.mark ≠ none ∨ d.noResend = true) → ∀ e, e ∈ y.store → e.seq ≠ d.seq)) ∧
    ((∀ f, f ∈ frames → f.kind ≠ .link d.seq) → d ∈ y.store))

/-- The LIVE item of a camera that gives way to a newer picture (R133 step 1): the first in the LIVE queue that has not begun
dispatch. -/
def Sender.giving (x : Sender) (k : Fin 8) : Option Item :=
  x.items.find? fun i => i.queued && i.dispatched == 0 && (match i.kind with | .livePicture cam _ => cam == k | _ => false)

/-- A camera's ring with the send count of a picture's record changed (R92). -/
def Ring.sending (r : Ring) (n : Word) (f : Nat → Nat) : Ring :=
  { r with index := r.index.map fun e => if e.number = n then { e with sends := f e.sends } else e }

/-- The part once an item has given way (R133 step 1): removed, its send reference released (R92), the LIVE class's replaced
counter risen. -/
def Part.givesWay (it : Item) (p : Part) : Part := { p with
  rings := match it.kind.picture with | some (k, n) => p.rings.upd k fun r => r.sending n (· - 1) | none => p.rings
  sender := { p.sender with
    items := p.sender.items.filter fun x => x.id != it.id
    classes := p.sender.classes.upd 1 fun r => { r with replaced := count r.replaced } } }

/-- The part once an item is made (R132, R133 steps 3 and 4): its send reference is taken (R92), it stands at the tail of its
class queue, with its place, length and stale time fixed, and the class's items made counter has risen. -/
def Part.itemMade (kind : ItemKind) (address base size length : Nat) (p : Part) : Part :=
  let cls := kind.cls.index
  let stale := p.now + 3000000 * (p.sender.classes.nth cls).hold
  { p with
    rings := match kind.picture with | some (k, n) => p.rings.upd k fun r => r.sending n (· + 1) | none => p.rings
    sender := { p.sender with
      items := p.sender.items ++ [⟨p.sender.nextItem, kind, true, address, base, size, length, (length + 1023) / 1024, 0, 0,
        false, p.now, stale, kind.link.isSome⟩]
      nextItem := p.sender.nextItem + 1
      classes := p.sender.classes.upd cls fun r => { r with made := count r.made } } }

/-- A clip record of a send once it has been tested for its end (R127): with no cursor running and no item outstanding the
send is SENT, or PARTIAL where an item failed or a picture was skipped. -/
def Clip.sendTested (c : Clip) : Clip :=
  if c.cursors = 0 ∧ c.outstanding = 0 then { c with send := if c.failed = 0 ∧ c.skipped = 0 then .sent else .partly } else c

/-- The clip controller once it is told that an item of a clip ended, and whether the send ended PARTIAL (R127): where the
position holds that clip SENDING, an item fewer is outstanding, one more failed if it did, the send is tested for its end, and
the position joins the mirror's pending set; a send that ends PARTIAL is counted. -/
def Clips.toldEnd (x : Clips) (pos : Fin 128) (clip : Nat) (failed : Bool) : Clips × Bool :=
  match x.table.nth pos with
  | none => (x, false)
  | some c =>
    if c.number = clip ∧ c.send = .sending then
      let told := Clip.sendTested { c with
        outstanding := c.outstanding - 1, failed := if failed then count c.failed else c.failed }
      let partly := told.send == .partly
      ({ x with
        table := x.table.put pos (some told), mirror := insertPos pos x.mirror
        partialSends := if partly then count x.partialSends else x.partialSends
        events := if partly then count x.events else x.events }, partly)
    else (x, false)

/-- The part once the clip controller is told so; a send that ends PARTIAL raises the CLIP notice (R127). -/
def Part.tellsEnd (pos : Fin 128) (clip : Nat) (failed : Bool) (p : Part) : Part :=
  let told := p.clips.toldEnd pos clip failed
  if told.2 then Part.raise .clip pos.val { p with clips := told.1 } else { p with clips := told.1 }

/-- The part once an item has ended, finished or failed (R134): its send reference is released (R92), its class's finished or
failed counter has risen, the clip controller is told where its clip link is present, the cursor that made it has an item
fewer outstanding, and it is removed; nothing else changes. -/
def Part.itemEnds (it : Item) (failed : Bool) (p : Part) : Part :=
  let told : Part := match it.kind.link with
    | some (pos, clip) => if it.linked then p.tellsEnd pos clip failed else p
    | none => p
  { told with
    rings := match it.kind.picture with | some (k, n) => p.rings.upd k fun r => r.sending n (· - 1) | none => p.rings
    sender := { p.sender with
      items := p.sender.items.filter fun x => x.id != it.id
      classes := p.sender.classes.upd it.kind.cls.index fun r =>
        if failed then { r with failed := count r.failed } else { r with finished := count r.finished }
      cursors := match it.kind with
        | .clipPicture pos clip cursor cam _ => p.sender.cursors.upd cursor fun c => c.map fun c =>
            if c.pos = pos ∧ c.clip = clip ∧ c.cam = cam then { c with outstanding := c.outstanding - 1 } else c
        | _ => p.sender.cursors } }

/-- The part once an item's undispatched fragments are dropped (R134): the item leaves its queue and has failed, and with no
fragment dispatched and unsettled it ends at once. -/
def Part.itemDropped (it : Item) (p : Part) : Part :=
  if it.settled = it.dispatched then p.itemEnds it true
  else { p with sender := { p.sender with
    items := p.sender.items.map fun x => if x.id = it.id then { x with queued := false, failed := true } else x } }

/-- The part once a fragment of an item is settled (R134): the item counts it, has failed unless it was receipted, and ends
where it has left its queue and this was the last fragment it waited for. -/
def Part.fragmentEnds (id : Nat) (m : Settlement) (p : Part) : Part :=
  match p.sender.item id with
  | none => p
  | some it =>
    if it.queued = false ∧ it.settled + 1 = it.dispatched then p.itemEnds it (it.failed || m != .receipted)
    else { p with sender := { p.sender with
      items := p.sender.items.map fun x =>
        if x.id = id then { x with settled := x.settled + 1, failed := x.failed || m != .receipted } else x } }

/-- The part once a descriptor is settled (R142, R145, R148): in BUILDING and TRANSMITTING it keeps its place with its mark; in
any other state it is removed, its frame with it where that waits in a transmit queue; and its item counts the fragment. -/
def Part.settles (d : Descriptor) (m : Settlement) (p : Part) : Part :=
  Part.fragmentEnds d.item m { p with
    lanes := if d.state = .queuedOnLane then
        p.lanes.each fun l => { l with queue := l.queue.filter fun f => f.kind != .link d.seq }
      else p.lanes
    sender := { p.sender with
      store := if d.state = .building ∨ d.state = .transmitting then
          p.sender.store.map fun x => if x.seq = d.seq then { x with mark := some m } else x
        else p.sender.store.filter fun x => x.seq != d.seq } }

/-- The part once a lane has returned a link frame (R143): a settled descriptor is removed; an unsettled one with its
no-resend flag is settled DROPPED and removed, its item counting the fragment; any other waits for another lane. -/
def Part.frameReturned (p : Part) (seq : Word) : Part :=
  match p.sender.store.find? fun d => d.seq == seq with
  | none => p
  | some d =>
    let gone : Part := { p with sender := { p.sender with store := p.sender.store.filter fun x => x.seq != seq } }
    if d.mark ≠ none then gone
    else if d.noResend = true then Part.fragmentEnds d.item .dropped gone
    else { p with sender := { p.sender with
      store := p.sender.store.map fun x => if x.seq = seq then { x with state := .waiting, lane := none } else x } }

/-- The part once a lane has returned these frames, in this order (R143, R160); an ECHO frame is not returned. -/
def Part.framesReturned (p : Part) (frames : List TxFrame) : Part :=
  (frames.filterMap fun f => match f.kind with | .link seq => some seq | .echo _ => none).foldl Part.frameReturned p

/-- A number of a RECEIPT's range is acted on (R145): the unsettled descriptor that carries it is settled RECEIPTED and
counted; a number that no such descriptor carries counts as stale. -/
def Part.receipted (p : Part) (seq : Word) : Part :=
  match p.sender.unsettled seq with
  | some d =>
    let q := p.settles d .receipted
    { q with sender := { q.sender with counts := { q.sender.counts with receipts := count q.sender.counts.receipts } } }
  | none => { p with sender := { p.sender with
      counts := { p.sender.counts with staleReceipts := count p.sender.counts.staleReceipts } } }

/-! ## The configuration image (R186, R194, 12.7) -/

/-- The number in the `k` bytes at an address, least significant first (12.1). -/
def numAt (b : Nat → Byte) (a k : Nat) : Nat := ((List.range k).map fun i => 256 ^ i * (b (a + i)).toNat).sum

/-- Checks 1 to 3: the marker "OJ26" at 0 to 3, a length at 4 to 7 from the header's 32 bytes to 65,536, and at 8 to 11 the check
value of the image's bytes with that field counted as zeros. -/
def imageHeaded (b : Nat → Byte) (len : Nat) : Prop :=
  b 0 = 0x4F ∧ b 1 = 0x4A ∧ b 2 = 0x32 ∧ b 3 = 0x36 ∧ numAt b 4 4 = len ∧ 32 ≤ len ∧ len ≤ 65536 ∧
    numAt b 8 4 = (crc ((List.range len).map fun a => if 8 ≤ a ∧ a < 12 then 0 else b a)).toNat

/-- Of the nine entries of the section list exactly one has this kind; it places the section here, within the image. -/
def sectionPlaced (b : Nat → Byte) (len : Nat) (kind : Byte) (off size : Nat) : Prop :=
  ∃ i : Fin 9, (∀ j : Fin 9, b (32 + 8 * j.val) = kind ↔ j = i) ∧
    numAt b (36 + 8 * i.val) 2 = off ∧ numAt b (38 + 8 * i.val) 2 = size ∧ off + size ≤ len

/-- The section list: nine sections, one of each kind, each of the length its contents take. -/
def sectionsPlaced (b : Nat → Byte) (len : Nat) (off : Fin 9 → Nat) (busBytes : Nat) : Prop :=
  b 12 = 9 ∧ 104 ≤ len ∧
    sectionPlaced b len 0 (off 0) 72 ∧ sectionPlaced b len 1 (off 1) (2 * 11) ∧ sectionPlaced b len 2 (off 2) (22 * 32) ∧
    sectionPlaced b len 3 (off 3) (8 * 8) ∧ sectionPlaced b len 4 (off 4) (19 * 8) ∧ sectionPlaced b len 5 (off 5) (7 * 64) ∧
    sectionPlaced b len 6 (off 6) busBytes ∧ sectionPlaced b len 7 (off 7) (5 * 4) ∧ sectionPlaced b len 8 (off 8) (9 * 4)

/-- The GLOBAL section at an address gives these settings, each in range. -/
def globalGiven (b : Nat → Byte) (a : Nat) (i : Image) : Prop :=
  rateOf (b a) = some i.rate ∧
    (∃ e, 4 ≤ e ∧ e ≤ 10 ∧ numAt b (a + 1) 2 = 2 ^ e ∧ i.n = 2 ^ e) ∧ (∃ e, 4 ≤ e ∧ e ≤ 10 ∧ numAt b (a + 3) 2 = 2 ^ e ∧ i.m = 2 ^ e) ∧
    (b (a + 5)).toNat ≤ 1 ∧ i.fastRefresh = decide ((b (a + 5)).toNat = 1) ∧
    (b (a + 6)).toNat ≤ 15 ∧ i.station = (b (a + 6)).toNat ∧
    (b (a + 7)).toNat ≤ 1 ∧ i.mixerOn = decide ((b (a + 7)).toNat = 1) ∧ i.timing = (List.range 64).map fun x => b (a + 8 + x)

/-- A WINDOWS entry: the state, then OPEN WINDOW's arguments, in the range R21 tests, for rings of `n` and `m` records; a kind that
names no subject, whose byte R21 ignores, stands with subject 0. -/
def windowGiven (b : Nat → Byte) (n m a : Nat) (w : Window) : Prop :=
  let kind := (b (a + 18)).toNat
  (b a).toNat ≤ 1 ∧ (b (a + 1)).toNat ≤ 31 ∧
    openable n m (numAt b (a + 2) 8) (numAt b (a + 10) 8) kind (b (a + 19)).toNat (b (a + 20)).toNat (b (a + 21)).toNat ∧
    w.state = (if (b a).toNat = 1 then .opened else .closed) ∧ w.base = numAt b (a + 2) 8 ∧ w.size = numAt b (a + 10) 8 ∧
    windowKindOf (b (a + 18)) = some w.kind ∧ w.subject = (if 1 ≤ kind ∧ kind ≤ 5 then (b (a + 19)).toNat else 0) ∧
    w.readers = b (a + 20) ∧ w.writers = b (a + 21)

/-- A CUE LINES entry: SET CUE LINE's arguments, in the range R36 tests. -/
def cueGiven (b : Nat → Byte) (a : Nat) (c : CueSettings) : Prop :=
  (b a).toNat ≤ 7 ∧ cueModeOf (b (a + 1)) = some c.mode ∧ driveOf (b (a + 2)) = some c.drive ∧
    c.debounce = numAt b (a + 3) 2 ∧ c.cameras = b (a + 5) ∧ c.preroll = (b (a + 6)).toNat ∧ c.tally = (b (a + 7)).toNat ∧
    (c.mode = .input ∨ c.mode = .mark → 1 ≤ c.debounce ∧ c.debounce ≤ 50) ∧
    (c.mode = .mark → c.cameras ≠ 0 ∧ c.preroll ≤ 250) ∧ (c.mode = .tally → c.tally ≤ 7)

/-- A CAMERAS entry: the state, then SET CAMERA's arguments, in the range R44 tests. -/
def cameraGiven (b : Nat → Byte) (a : Nat) (x : Bool × CameraSettings) : Prop :=
  let c := x.2
  (b a).toNat ≤ 1 ∧ x.1 = decide ((b a).toNat = 1) ∧ (b (a + 1)).toNat ≤ 7 ∧
    c.frameWin.val = (b (a + 2)).toNat ∧ c.replayWin.val = (b (a + 3)).toNat ∧ c.stride = numAt b (a + 4) 4 ∧
    c.lines = numAt b (a + 8) 2 ∧ c.tiles = (b (a + 10)).toNat ∧ policyOf (b (a + 11)) = some c.policy ∧
    c.holdLimit = numAt b (a + 12) 2 ∧ c.budget = numAt b (a + 14) 4 ∧
    (b (a + 18)).toNat ≤ 1 ∧ c.live = decide ((b (a + 18)).toNat = 1) ∧
    64 ≤ c.stride ∧ c.stride ≤ 65536 ∧ c.stride % 64 = 0 ∧ 16 ≤ c.lines ∧ c.lines ≤ 2160 ∧ c.lines % 16 = 0 ∧
    1 ≤ c.tiles ∧ c.tiles ≤ 60 ∧ 1 ≤ c.holdLimit ∧ c.holdLimit ≤ 200 ∧
    64 + 8 * (c.lines / 16) + 16 * (c.lines / 16) * (c.tiles + 1) ≤ c.budget ∧ c.budget ≤ 67108864

/-- A SOURCES entry: SET SOURCE's arguments, in the range R98 tests. -/
def sourceGiven (b : Nat → Byte) (a : Nat) (c : SourceSettings) : Prop :=
  (b a).toNat ≤ 63 ∧ (b (a + 1)).toNat ≤ 1 ∧ c.on = decide ((b (a + 1)).toNat = 1) ∧ c.win.val = (b (a + 2)).toNat ∧
    c.ring = numAt b (a + 3) 2 ∧ c.offset = (b (a + 5)).toNat ∧ c.width = (b (a + 6)).toNat ∧
    4 ≤ c.ring ∧ c.ring ≤ 64 ∧ c.offset < c.ring ∧ (c.width = 16 ∨ c.width = 20 ∨ c.width = 24)

/-- A contribution of a BUSES entry: the source, its target gain and its ramp step, at gain 0 (R100), in the range R102 tests. -/
def contributionGiven (b : Nat → Byte) (a : Nat) (c : Contribution) : Prop :=
  c.source.val = (b a).toNat ∧ c.current = 0 ∧ c.target = numAt b (a + 1) 2 ∧ c.step = numAt b (a + 3) 2 ∧ c.step ≠ 0 ∧ c.leaving = false

/-- A BUSES entry: SET BUS's arguments, in the range R101 tests, a contribution count, and so many contributions, 32 at most. -/
def busGiven (b : Nat → Byte) (a : Nat) (x : BusSettings × List Contribution) : Prop :=
  let c := x.1
  (b a).toNat ≤ 15 ∧ (b (a + 1)).toNat ≤ 1 ∧ c.active = decide ((b (a + 1)).toNat = 1) ∧ c.win.val = (b (a + 2)).toNat ∧
    c.ring = numAt b (a + 3) 2 ∧ c.master = numAt b (a + 5) 2 ∧
    (b (a + 7)).toNat ≤ 1 ∧ c.send = decide ((b (a + 7)).toNat = 1) ∧ c.divider = numAt b (a + 8) 2 ∧
    16 ≤ c.ring ∧ c.ring ≤ 256 ∧ 1 ≤ c.divider ∧ c.divider ≤ 20 ∧ c.divider ≤ c.ring ∧
    x.2.length = (b (a + 10)).toNat ∧ x.2.length ≤ 32 ∧
    ∀ i e, x.2[i]? = some e → contributionGiven b (a + 11 + 5 * i) e

/-- A CLASSES entry: SET CLASS's arguments, in the range R150 tests. -/
def classGiven (b : Nat → Byte) (a : Nat) (c : Nat × Nat) : Prop :=
  (b a).toNat ≤ 3 ∧ c.1 = numAt b (a + 1) 2 ∧ c.2 = numAt b (a + 3) 2 ∧ 1 ≤ c.1 ∧ c.1 ≤ 255 ∧ 1 ≤ c.2 ∧ c.2 ≤ 60000

/-- A LANES entry: SET LANE's arguments, in the range R156 tests, and the initial state. -/
def laneGiven (b : Nat → Byte) (a : Nat) (c : LaneSettings) : Prop :=
  (b a).toNat ≤ 3 ∧ c.divider = numAt b (a + 1) 2 ∧ c.window = numAt b (a + 3) 2 ∧ filterOf (b (a + 5)) = some c.filter ∧
    c.depth = (b (a + 6)).toNat ∧ fullPolicyOf (b (a + 7)) = some c.policy ∧
    (b (a + 8)).toNat ≤ 1 ∧ c.initialOn = decide ((b (a + 8)).toNat = 1) ∧
    2 ≤ c.divider ∧ 4 ≤ c.window ∧ c.window ≤ 256 ∧ (c.depth = 1 ∨ c.depth = 8)

/-- Check 4: the sections, wherever the list places them, give the settings of a copy, every field in range. The 16 bus entries
follow one another, each as long as its contributions make it, and fill their section. -/
def imageFields (b : Nat → Byte) (len : Nat) (i : Image) : Prop :=
  ∃ (off : Fin 9 → Nat) (bus : Nat → Nat),
    bus 0 = off 6 ∧ (∀ x : Fin 16, bus (x.val + 1) = bus x.val + 11 + 5 * (b (bus x.val + 10)).toNat) ∧
    sectionsPlaced b len off (bus 16 - off 6) ∧ globalGiven b (off 0) i ∧
    (∀ c : Fin 11, i.intervals.nth c = numAt b (off 1 + 2 * c.val) 2 ∧ 1 ≤ i.intervals.nth c ∧ i.intervals.nth c ≤ 4095) ∧
    (∀ w : Fin 32, windowGiven b i.n i.m (off 2 + 22 * w.val) (i.windows.nth w)) ∧
    (∀ l : Fin 8, cueGiven b (off 3 + 8 * l.val) (i.cues.nth l)) ∧
    (∀ k : Fin 8, cameraGiven b (off 4 + 19 * k.val) (i.cameras.nth k)) ∧
    (∀ n : Fin 64, sourceGiven b (off 5 + 7 * n.val) (i.sources.nth n)) ∧
    (∀ x : Fin 16, busGiven b (bus x.val) (i.buses.nth x)) ∧
    (∀ c : Fin 4, classGiven b (off 7 + 5 * c.val) (i.classes.nth c)) ∧
    (∀ l : Fin 4, laneGiven b (off 8 + 9 * l.val) (i.lanes.nth l))

/-- START CAMERA's window tests against an image's windows (R45 test 4). -/
def cameraFits (i : Image) (k : Fin 8) (c : CameraSettings) : Prop :=
  let f := i.windows.nth c.frameWin
  let r := i.windows.nth c.replayWin
  f.state = .opened ∧ f.kind = .frame ∧ f.subject = k.val ∧ 2 * (c.lines * c.stride) ≤ f.size ∧
    r.state = .opened ∧ r.kind = .replay ∧ r.subject = k.val ∧ c.budget ≤ r.size

/-- Checks 5 and 6: what the settings must be to one another. -/
def imageAgrees (i : Image) : Prop :=
  let open' (k : WindowKind) (w : Fin 32) := (i.windows.nth w).state = .opened ∧ (i.windows.nth w).kind = k
  windowsDisjoint i.windows ∧
    (∃ c, ∀ w, open' .command w ↔ w = c) ∧ (∃ c, ∀ w, open' .status w ↔ w = c) ∧
    (∀ v w, open' .clipList v → open' .clipList w → v = w) ∧
    (∀ k, (i.cameras.nth k).1 = true → cameraFits i k (i.cameras.nth k).2) ∧
    (∀ n, (i.sources.nth n).on = true →
      open' .sound (i.sources.nth n).win ∧ (i.windows.nth (i.sources.nth n).win).subject = n.val) ∧
    (∀ b, (i.buses.nth b).1.active = true →
      open' .programme (i.buses.nth b).1.win ∧ (i.windows.nth (i.buses.nth b).1.win).subject = b.val) ∧
    (∀ b, (i.buses.nth b).2.Pairwise fun x y => x.source < y.source) ∧
    (i.buses.list.filter fun b => b.1.send).length ≤ 4

/-- The bytes of a flash hold an image that passes every check, with these settings (R186): check 7 is the station number, formed
from the image's field and the two straps, not 0. -/
def imageHeld (b : Nat → Byte) (stn1 stn0 : Bool) (i : Image) : Prop :=
  ∃ len, imageHeaded b len ∧ imageFields b len i ∧ imageAgrees i ∧ 4 * i.station + 2 * stn1.toNat + stn0.toNat ≠ 0

/-! ## Deferred commands -/

/-- No deferred command on this object is outstanding. -/
def Part.noneOutstanding (p : Part) (k : DeferredKind) : Prop := ∀ d, d ∈ p.cmd.deferred → d.kind ≠ k

end Sys2Proof.Machine
end

