-- ==== Sys2Proof/Certificates/Slice0/Obligations.lean ====
section
/-! DEFINITION. The statements for the provers: what the commands do, from the manual's numbered rules. A
statement about a software command speaks of the state in which the command engine holds that command
(`State.taken`), and gives the whole next state, so that what it does not name is unchanged. -/

open Sys2Proof Sys2Proof.Machine

/-! ## The machine -/

/-- A step runs the command at the front of the queue, on the state with the queue's rest. -/
def Obligations.StepRunsTheFrontCommand : Prop :=
  ∀ (c : Instr) (rest : List Instr) (s : State), step { s with pending := c :: rest } = exec c { s with pending := rest }

/-- Only a transfer that runs beyond the DRAM stops the machine: every other command answers a next state, with
the rest of the queue as it was. -/
def Obligations.OnlyATransferBeyondTheDramStops : Prop :=
  ∀ (c : Instr) (s : State),
    ((∃ dt, c = .transferComplete dt) → s.transferInRange = true) → ∃ t, exec c s = .next t ∧ t.pending = s.pending

/-- The frame of every command: DRAM contents change at a transfer's end, at power-on and when calibration passes; the
flash at a load record and at the end of an erase, which lets a waiting record be handled; the loader at the steps of
chapter 11; the clock at its own steps, SET TIMECODE and READ COUNTERS; the rings at power-on and at the image's end. The
window table, the intervals, and the settings of cue lines, sources, buses, classes and lanes change at the commands named,
and where the blocks take their state from an image: at power-on, at the image's end and at ENGINE RESET. -/
def Obligations.OnlyTheseCommandsChangeStoresAndSettings : Prop :=
  ∀ (c : Instr) (s t : State), exec c s = .next t →
    ((∀ dt a b d, c ≠ .powerOn dt a b d) → (∀ dt, c ≠ .calibrationComplete dt true) → (∀ dt, c ≠ .transferComplete dt) →
      t.dram = s.dram) ∧
    ((∀ dt f l k, c ≠ .loadStart dt f l k) → (∀ dt f o bs k rb, c ≠ .loadData dt f o bs k rb) →
      (∀ dt, c ≠ .eraseComplete dt) → t.flash = s.flash) ∧
    (match c with
      | .powerOn .. | .imageReadComplete _ | .calibrationComplete .. | .faultLineToggle | .loadStart .. | .eraseComplete _
      | .loadData .. | .loadEnd .. | .maintenanceBreak _ => True
      | _ => t.part.loader = s.part.loader) ∧
    (match c with
      | .powerOn .. | .imageReadComplete _ | .frameReferencePulse _ | .frameReferenceLoss | .oscillatorPictureTick
      | .setTimecode .. | .wordClockEdge _ | .wordClockLoss | .oscillatorBlockTick | .readCounters .. => True
      | _ => t.part.clock = s.part.clock) ∧
    (match c with
      | .powerOn .. | .imageReadComplete _ => True
      | _ => t.part.cmd.rings = s.part.cmd.rings) ∧
    (c.takesAnImage = false →
      ((∀ g e b z k j r w, c ≠ .openWindow g e b z k j r w) → (∀ g e, c ≠ .closeWindow g e) → (∀ w, c ≠ .windowDrained w) →
        t.part.path.windows = s.part.path.windows) ∧
      ((∀ g x n, c ≠ .setPortInterval g x n) → t.part.path.intervals = s.part.path.intervals) ∧
      ((∀ g l m d b k r y, c ≠ .setCueLine g l m d b k r y) → ∀ l, (t.part.cues.nth l).cfg = (s.part.cues.nth l).cfg) ∧
      ((∀ g n x w r o y, c ≠ .setSource g n x w r o y) → ∀ n, (t.part.mixer.sources.nth n).cfg = (s.part.mixer.sources.nth n).cfg) ∧
      ((∀ g b x w r m y d, c ≠ .setBus g b x w r m y d) → ∀ b, (t.part.mixer.buses.nth b).cfg = (s.part.mixer.buses.nth b).cfg) ∧
      ((∀ g x n h, c ≠ .setClass g x n h) → ∀ x, (t.part.sender.classes.nth x).interval = (s.part.sender.classes.nth x).interval ∧
        (t.part.sender.classes.nth x).hold = (s.part.sender.classes.nth x).hold) ∧
      ((∀ g l d w f x y, c ≠ .setLane g l d w f x y) → ∀ l, (t.part.lanes.nth l).cfg = (s.part.lanes.nth l).cfg))

/-- A software command that the command engine does not hold, about to run, changes nothing (the model's choice,
assumption 6). -/
def Obligations.ACommandNotTakenChangesNothing : Prop :=
  ∀ (c : Instr) (s : State), (encodeRecord c).isSome = true → (∀ i, ¬ s.taken i c) → exec c s = .next s

/-- The addressed stores keep their canonical form at every step. -/
def Obligations.EveryStepKeepsTheStoresCanonical : Prop :=
  ∀ s t : State, s.memoriesWf = true → step s = .next t → t.memoriesWf = true

/-- Reset: no command waits, both stores list nothing and are canonical, no window overlaps another, the loader is
in RESET, every ready line is withdrawn and the attention line too; every queue is empty: each port's, the bands', the class
queues with every item, the resend store, each lane's frames and messages, the deferred commands, completions and notices;
and no job, pass, build, band coding, mirror write or transmission is in progress. That DRAM and flash list nothing at reset
is the model's choice (DRAM: assumptions 1 and 3; flash: assumption 3). -/
def Obligations.ResetLeavesThePartClear : Prop :=
  State.reset.pending = [] ∧ State.reset.memoriesWf = true ∧ State.reset.windowsApart ∧
    State.reset.part.loader.state = .reset ∧ State.reset.part.path.quiesce = .running ∧
    (∀ p : Fin 6, State.reset.part.path.readyLine p = false ∧ (State.reset.part.path.ports.nth p).queue = []) ∧
    State.reset.part.coder.queue = [] ∧ State.reset.part.cmd.completions = [] ∧ State.reset.part.cmd.notices = [] ∧
    State.reset.part.attention = false ∧ State.reset.dram = [] ∧ State.reset.flash = [] ∧
    State.reset.part.cmd.deferred = [] ∧ State.reset.part.cmd.inHand = none ∧ State.reset.part.coder.job = none ∧
    State.reset.part.sender.items = [] ∧ State.reset.part.sender.store = [] ∧ State.reset.part.sender.build = none ∧
    State.reset.part.mixer.pass = none ∧ State.reset.part.clips.writing = none ∧
    (∀ l : Fin 4, (State.reset.part.lanes.nth l).queue = [] ∧ (State.reset.part.lanes.nth l).sending = none ∧
      (State.reset.part.lanes.nth l).fifo = []) ∧
    (∀ k : Fin 8, (State.reset.part.rings.nth k).index = []) ∧ (∀ i : Fin 5, State.reset.part.path.streams.nth i = none) ∧
    State.reset.part.path.channel = .free

/-- Reading a command record gives back the command whose record it is, every field at every value. -/
def Obligations.ARecordSpellsItsCommand : Prop :=
  ∀ (c : Instr) (r : List Byte), c.wf = true → encodeRecord c = some r → r.length = 64 ∧ decodeRecord r = c

/-! ## Chapter 1: the memory path -/

/-- Admission (R1, R5, R6): while the ready line is withdrawn nothing is admitted; a tag in use is answered REFUSED
TAG IN USE at once, counted, recorded and notified; any other request joins the queue behind those in it, counted in
the window its range lies in.
The head check (R4, R8, R10 to R14, R58): a request that reaches the head of an empty queue is refused by the first test
that fails, and offered if none does; a WRITE in a STATUS window may enable the head word's bytes alone, and a READ in an
ALIAS window is offered at the same place of the camera's latest DONE slot, or refused NOT READY or SPLIT. A refusal is
answered, counted, recorded and notified (R5). A FRAME window's WRITE that covers no slot's first line of a RUNNING camera
whose frame window it is passes at once, tracked to its transfer (R46, R9); that it is asked only there whether it is a band
write is the model's reading (assumption 14); one that covers such a line is the subject of ASlotStartIsTakenHeldOrReleased. -/
def Obligations.AClientRequestIsAdmittedAndChecked : Prop :=
  (
  ∀ (s : State) (dt : Nat) (port : Fin 6) (tag : BitVec 6) (kind : ReqKind) (line cnt : Nat) (data : List (Byte × Bool)),
    requestWf kind cnt data = true → windowsDisjoint s.part.path.windows →
    let q := s.part.path.ports.nth port
    let p := { s.part with now := s.part.now + dt }
    ((16 ≤ q.queue.length ∨ s.part.path.quiesce ≠ .running ∨ s.part.path.ready = false) →
      exec (.clientRequest dt port tag kind line cnt data) s = .next (s.becomes p)) ∧
    (q.queue.length < 16 → s.part.path.quiesce = .running → s.part.path.ready = true →
      ((∃ a, a ∈ q.queue ∧ a.tag = tag) →
        exec (.clientRequest dt port tag kind line cnt data) s = .next (s.becomes
          (Part.raise .access port.val { p with
            outputs := p.outputs ++ [.refused port tag .tagInUse],
            path := p.path.putPort port { q with refusals := count q.refusals, last := some ⟨.tagInUse, 64 * line, kind⟩ } }))) ∧
      ((∀ a, a ∈ q.queue → a.tag ≠ tag) → q.queue ≠ [] → (∀ a, q.queue.head? = some a → a.phase ≠ .waiting) →
        ∃ w : Option (Fin 32),
          (∀ v, w = some v ↔ (s.part.path.windows.nth v).live = true ∧
            (s.part.path.windows.nth v).holds (64 * line) (64 * line + 64 * cnt) = true) ∧
          exec (.clientRequest dt port tag kind line cnt data) s = .next (s.becomes (p.withPath (p.path.putPort port
            { q with queue := q.queue ++ [⟨tag, ⟨kind, line, cnt, data⟩, .waiting, w, none, line, false⟩] })))))) ∧
  (
  ∀ (s : State) (dt : Nat) (port : Fin 6) (tag : BitVec 6) (kind : ReqKind) (line cnt : Nat) (data : List (Byte × Bool)),
    requestWf kind cnt data = true → windowsDisjoint s.part.path.windows →
    s.part.path.quiesce = .running → s.part.path.ready = true → (s.part.path.ports.nth port).queue = [] →
    let p := { s.part with now := s.part.now + dt }
    let r : Request := ⟨kind, line, cnt, data⟩
    let lo := 64 * line
    let hi := 64 * line + 64 * cnt
    let refused (why : Reason) :=
      exec (.clientRequest dt port tag kind line cnt data) s = .next (s.becomes (p.refuseRequest port tag r why))
    let offeredAt (at' : Nat) (w : Option (Fin 32)) :=
      exec (.clientRequest dt port tag kind line cnt data) s = .next (s.becomes (p.withPath (p.path.putPort port
        { (p.path.ports.nth port) with queue := [⟨tag, r, .offered, w, w, at', false⟩] })))
    let offered := offeredAt line
    (8589934592 < hi → refused .noMemory) ∧
    (hi ≤ 8589934592 →
      (∀ w, (p.path.windows.nth w).live = true → (p.path.windows.nth w).touches lo hi = true →
        (p.path.windows.nth w).holds lo hi = false → refused .split) ∧
      ((∀ w, (p.path.windows.nth w).live = true → (p.path.windows.nth w).touches lo hi = false) → offered none) ∧
      (∀ w, (p.path.windows.nth w).live = true → (p.path.windows.nth w).holds lo hi = true →
        ((p.path.windows.nth w).state = .draining → refused .closing) ∧
        ((p.path.windows.nth w).state = .opened →
          ((p.path.windows.nth w).admits port kind = false → refused .denied) ∧
          ((p.path.windows.nth w).admits port kind = true →
            ((p.path.windows.nth w).kind = .plain ∨ (p.path.windows.nth w).kind = .sound ∨
              (p.path.windows.nth w).kind = .command → offered (some w)) ∧
            (kind = .read → ((p.path.windows.nth w).kind = .frame ∨ (p.path.windows.nth w).kind = .replay ∨
              (p.path.windows.nth w).kind = .programme ∨ (p.path.windows.nth w).kind = .status ∨
              (p.path.windows.nth w).kind = .clipList) → offered (some w)) ∧
            (kind = .write → (p.path.windows.nth w).kind = .frame →
              (∀ k : Fin 8, (p.path.windows.nth w).subject = k.val → (s.part.cameras.nth k).state = .running →
                (s.part.cameras.nth k).cfg.frameWin = w →
                ∀ i, r.covers ((s.part.cameras.nth k).cfg.slotAt (p.path.windows.nth w).base i) 64 = false) →
              exec (.clientRequest dt port tag kind line cnt data) s = .next (s.becomes (p.withPath (p.path.putPort port
                { (p.path.ports.nth port) with queue := [⟨tag, r, .offered, some w, some w, line, true⟩] })))) ∧
            (kind = .write → (p.path.windows.nth w).kind = .status →
              let base := (p.path.windows.nth w).base
              let headOnly := ∀ n b, data[n]? = some (b, true) → base ≤ lo + n ∧ lo + n < base + 8
              (headOnly → offered (some w)) ∧ (¬ headOnly → refused .denied)) ∧
            (kind = .read → (p.path.windows.nth w).kind = .aliased → ∀ k : Fin 8, (p.path.windows.nth w).subject = k.val →
              let c := s.part.cameras.nth k
              let off := lo - (p.path.windows.nth w).base
              ((∀ i, (c.slot i).state ≠ .done) → refused .notReady) ∧
              (∀ i, c.latest i →
                (c.cfg.lines * c.cfg.stride < off + 64 * cnt → refused .split) ∧
                (off + 64 * cnt ≤ c.cfg.lines * c.cfg.stride →
                  offeredAt ((c.cfg.slotAt (s.part.path.windows.nth c.cfg.frameWin).base i + off) / 64) (some w)))) ∧
            (kind = .write → ((p.path.windows.nth w).kind = .aliased ∨ (p.path.windows.nth w).kind = .replay ∨
              (p.path.windows.nth w).kind = .programme ∨ (p.path.windows.nth w).kind = .clipList) → refused .denied)))))) ∧
  (∀ (p : Part) (port : Fin 6) (tag : BitVec 6) (r : Request) (why : Reason),
    p.refuseRequest port tag r why = Part.raise .access port.val { p with
      outputs := p.outputs ++ [.refused port tag why]
      path := p.path.putPort port { (p.path.ports.nth port) with
        refusals := count (p.path.ports.nth port).refusals, last := some ⟨why, 64 * r.line, r.kind⟩ } })

/-- The scheduler (R17): the free channel goes to the overdue contender furthest past its interval, else to the one
with the smallest interval; the grantee's wait count returns to 0 and every other offering contender's rises. -/
def Obligations.AGrantFollowsTheServiceIntervals : Prop :=
  ∀ s : State,
    ((s.part.path.ready = false ∨ s.part.path.channel ≠ .free ∨ s.part.path.refreshesDue ≠ 0 ∨
        ∀ c, s.part.path.offers c = false) → exec .grant s = .next s) ∧
    (s.part.path.ready = true → s.part.path.channel = .free → s.part.path.refreshesDue = 0 →
      ∀ c, s.part.path.grantee c →
        (∀ port : Fin 6, c.val = port.val →
          exec .grant s = .next (s.becomes { s.part with path := { s.part.path with
            waits := s.part.path.waitsGranted c, channel := .client port,
            ports := s.part.path.ports.put port
              ((s.part.path.ports.nth port).updHead fun a => { a with phase := .granted }) } })) ∧
        (∀ i : Fin 5, c.val = i.val + 6 → ∃ r, s.part.path.streams.nth i = some r ∧
          exec .grant s = .next (s.becomes { s.part with path := { s.part.path with
            waits := s.part.path.waitsGranted c, channel := .stream i r false,
            streams := s.part.path.streams.put i none } })))

/-- A transfer moves its data (R18): a WRITE changes exactly the bytes its masks enable in the lines it names; a
READ changes none. A client's response carries the data as it stood.
The end of a client's transfer in open ground with nothing behind it (R18): the request is answered, counted and
leaves the queue, and the channel is free, or goes to a due refresh. With requests behind it (R3) the same happens, and they
line up: the next one becomes the head and is checked as a request that arrives at an empty queue is
(AClientRequestIsAdmittedAndChecked, ASlotStartIsTakenHeldOrReleased), one refused giving way to the one behind it, until one
passes, is held, or none is left.
A performed WRITE in a FRAME window is shown to the frame tracker (R46, R53, R54): the last line of the next band of a
FILLING slot is a band arrival, which queues a job, or abandons the picture QUEUE FULL where 64 are queued, and the last
band ends FILLING; another band tears the picture; in any other state it is stray. An untracked write, and one that ends no
band, touches no slot. -/
def Obligations.ATransferMovesTheEnabledBytesAndEndsItsRequest : Prop :=
  (
  ∀ (s : State) (dt : Nat), s.memoriesWf = true →
    (∀ port a rest, s.part.path.channel = .client port → (s.part.path.ports.nth port).queue = a :: rest →
      64 * a.target + 64 * a.req.count ≤ 8589934592 →
      ∃ t more, exec (.transferComplete dt) s = .next t ∧
        t.part.outputs = s.part.outputs ++
          [.ok port a.tag (match a.req.kind with
            | .read => (List.range (64 * a.req.count)).map fun k => s.dramByte (64 * a.target + k)
            | .write => [])] ++ more ∧
        ∀ x, t.dramByte x =
          if a.req.kind = .write ∧ 64 * a.target ≤ x ∧ x < 64 * a.target + a.req.data.length then
            (match a.req.data[x - 64 * a.target]? with | some (b, true) => b | _ => s.dramByte x)
          else s.dramByte x) ∧
    (∀ i r orphan, s.part.path.channel = .stream i r orphan → 64 * r.line + 64 * r.count ≤ 8589934592 →
      ∃ t, exec (.transferComplete dt) s = .next t ∧
        ∀ x, t.dramByte x =
          if r.kind = .write ∧ 64 * r.line ≤ x ∧ x < 64 * r.line + r.data.length then
            (match r.data[x - 64 * r.line]? with | some (b, true) => b | _ => s.dramByte x)
          else s.dramByte x)) ∧
  (
  ∀ (s : State) (dt : Nat) (port : Fin 6) (a : Admitted),
    s.part.path.channel = .client port → (s.part.path.ports.nth port).queue = [a] → a.via = none →
    64 * a.target + 64 * a.req.count ≤ 8589934592 →
    ∃ t, exec (.transferComplete dt) s = .next t ∧
      t.part = { s.part with
        now := s.part.now + dt
        outputs := s.part.outputs ++ [.ok port a.tag (match a.req.kind with
          | .read => (List.range (64 * a.req.count)).map fun k => s.dramByte (64 * a.target + k)
          | .write => [])]
        path := { s.part.path with
          channel := if s.part.path.refreshesDue = 0 then .free else .refresh
          ports := s.part.path.ports.put port { (s.part.path.ports.nth port) with
            queue := []
            reads := if a.req.kind = .read then count (s.part.path.ports.nth port).reads else (s.part.path.ports.nth port).reads
            writes := if a.req.kind = .write then count (s.part.path.ports.nth port).writes else (s.part.path.ports.nth port).writes } } }) ∧
  (
  ∀ (s : State) (dt : Nat) (port : Fin 6) (a : Admitted) (rest : List Admitted),
    s.part.path.channel = .client port → (s.part.path.ports.nth port).queue = a :: rest → (∀ b, b ∈ rest → b.waits) →
    64 * a.target + 64 * a.req.count ≤ 8589934592 →
    ∃ t u, exec (.transferComplete dt) s = .next t ∧
      exec (.transferComplete dt) (s.becomes (s.part.withQueue port [a])) = .next u ∧
      t = u.becomes (u.part.linedUp port rest)) ∧
  (
  ∀ (s : State) (dt : Nat) (port : Fin 6) (a : Admitted) (w : Fin 32) (k : Fin 8), s.clientWriting port a w →
    let win := s.part.path.windows.nth w
    let c := s.part.cameras.nth k
    let bands := c.cfg.lines / 16
    let done := s.clientWritten dt port a
    win.kind = .frame → win.subject = k.val →
    ∃ t, exec (.transferComplete dt) s = .next t ∧
      ((a.tracked = false ∨ c.state ≠ .running ∨ c.cfg.frameWin ≠ w) → t.part = done) ∧
      (a.tracked = true → c.state = .running → c.cfg.frameWin = w → win.base % 64 = 0 → c.cfg.shaped →
        ((∀ i b, b < bands → a.req.covers (c.cfg.bandEnd win.base i b) 64 = false) → t.part = done) ∧
        (∀ i b, b < bands → a.req.covers (c.cfg.bandEnd win.base i b) 64 = true →
          let d := c.slot i
          let ended (abandoned : Bool) : SlotState := if b + 1 = bands then (if abandoned then .done else .coding) else .filling
          let mine (n : Word) (j : BandJob) := j.of k i n
          (∀ st, d.state = .filling → d.arrived = b → d.abandoned = false → d.stamp = some st →
            (s.part.coder.queue.length < 64 → t.part = { done with
              cameras := s.part.cameras.put k (c.putSlot i { d with arrived := b + 1, state := ended false })
              coder := { s.part.coder with
                queue := s.part.coder.queue ++ [⟨k, i, st.number, b⟩]
                highWater := max s.part.coder.highWater (s.part.coder.queue.length + 1) } }) ∧
            (64 ≤ s.part.coder.queue.length → (∀ h, c.held = some h → h.slot ≠ i) →
              ((t.part.cameras.nth k).slot i).state = ended true ∧ ((t.part.cameras.nth k).slot i).abandoned = true ∧
              ((t.part.cameras.nth k).slot i).arrived = b + 1 ∧
              (t.part.cameras.nth k).counts.abandoned = count c.counts.abandoned ∧ (Cause.hold, k.val) ∈ t.part.cmd.notices ∧
              (∀ j, j ∈ t.part.coder.queue ↔ j ∈ s.part.coder.queue ∧ ¬ mine st.number j))) ∧
          (d.state = .filling → d.arrived = b → d.abandoned = true → (∀ h, c.held = some h → h.slot ≠ i) →
            t.part = { done with
              cameras := s.part.cameras.put k (c.putSlot i { d with arrived := b + 1, state := ended true }) }) ∧
          (∀ st, d.state = .filling → d.arrived ≠ b → d.stamp = some st →
            ((t.part.cameras.nth k).slot i).state = .torn ∧ (t.part.cameras.nth k).counts.torn = count c.counts.torn ∧
            (t.part.cameras.nth k).counter = c.counter ∧ (Cause.hold, k.val) ∈ t.part.cmd.notices ∧
            (∀ j, j ∈ t.part.coder.queue ↔ j ∈ s.part.coder.queue ∧ ¬ mine st.number j)) ∧
          (d.state ≠ .filling → t.part = { done with
            cameras := s.part.cameras.put k { c with counts := { c.counts with strayBands := count c.counts.strayBands } } }))))

/-- Refresh (R19): each interval marks one refresh due; the free channel goes to a due refresh at once, a busy one
does not; a refresh complete takes one off the count, and the next due one takes the channel. -/
def Obligations.RefreshesAreCountedAndTakeTheFreeChannel : Prop :=
  ∀ s : State,
    (∀ t, s.part.path.refreshTimer = some t →
      exec .refreshDue s = .next (s.becomes { s.part with
        now := max s.part.now t
        path := { s.part.path with
          refreshTimer := some (t + s.part.refreshInterval)
          refreshesDue := s.part.path.refreshesDue + 1
          channel := if s.part.path.channel = .free then .refresh else s.part.path.channel } })) ∧
    (∀ dt n, s.part.path.channel = .refresh → s.part.path.refreshesDue = n + 1 →
      exec (.refreshComplete dt) s = .next (s.becomes { s.part with
        now := s.part.now + dt
        path := { s.part.path with refreshesDue := n, channel := if n = 0 then .free else .refresh } }))

/-- SET PORT INTERVAL (R20): the contender's interval is replaced and its wait count kept; BAD FIELD out of range. -/
def Obligations.SetPortIntervalReplacesTheInterval : Prop :=
  ∀ (s : State) (i : Nat) (tag : Word) (contender : Byte) (interval : Half),
    s.taken i (.setPortInterval tag contender interval) →
    (∀ c : Fin 11, contender.toNat = c.val → 1 ≤ interval.toNat → interval.toNat ≤ 4095 →
      exec (.setPortInterval tag contender interval) s = .next (s.becomes (Part.answered
        { s.part with path := { s.part.path with intervals := s.part.path.intervals.put c interval.toNat } } i tag []))) ∧
    (10 < contender.toNat ∨ interval.toNat = 0 ∨ 4095 < interval.toNat →
      exec (.setPortInterval tag contender interval) s = .next (s.refuses i tag .badField))

/-- OPEN WINDOW (R21, R6): the tests in order; then the entry takes the fields and goes to OPEN, and counts the
requests whose range lies in it; as a CLIP LIST window opens, every position of the clip list mirror becomes pending
(R129). That a port set with a bit above port 5 is BAD FIELD is the model's reading (assumption 11). -/
def Obligations.OpenWindowAppliesItsTestsThenOpens : Prop :=
  ∀ (s : State) (i : Nat) (tag : Word) (entry : Byte) (base size : Wide) (kind subject readSet writeSet : Byte),
    s.taken i (.openWindow tag entry base size kind subject readSet writeSet) →
    let ok := openable s.part.ringSizes.1 s.part.ringSizes.2 base.toNat size.toNat kind.toNat subject.toNat readSet.toNat writeSet.toNat
    let run := exec (.openWindow tag entry base size kind subject readSet writeSet) s
    let overlap := ∃ x, (s.part.path.windows.nth x).live = true ∧
      base.toNat < (s.part.path.windows.nth x).base + (s.part.path.windows.nth x).size ∧
      (s.part.path.windows.nth x).base < base.toNat + size.toNat
    let second (k : WindowKind) := (k = .command ∨ k = .status ∨ k = .clipList) ∧
      ∃ x, (s.part.path.windows.nth x).live = true ∧ (s.part.path.windows.nth x).kind = k
    (31 < entry.toNat ∨ ¬ ok → run = .next (s.refuses i tag .badField)) ∧
    (∀ (w : Fin 32) (k : WindowKind), entry.toNat = w.val → ok → windowKindOf kind = some k →
      (¬ s.part.noneOutstanding (.closeWindow w) → run = .next (s.refuses i tag .busy)) ∧
      (s.part.noneOutstanding (.closeWindow w) →
        ((s.part.path.windows.nth w).state ≠ .closed → run = .next (s.refuses i tag .state)) ∧
        ((s.part.path.windows.nth w).state = .closed →
          (overlap → run = .next (s.refuses i tag .overlap)) ∧
          (¬ overlap →
            (second k → run = .next (s.refuses i tag .inUse)) ∧
            (¬ second k → ∃ named,
              (kind.toNat = 1 ∨ kind.toNat = 2 ∨ kind.toNat = 3 ∨ kind.toNat = 4 ∨ kind.toNat = 5 → named = subject.toNat) ∧
              run = .next (s.becomes (Part.answered { s.part with
                path := { s.part.path with
                  windows := s.part.path.windows.put w ⟨.opened, base.toNat, size.toNat, k, named, readSet, writeSet⟩
                  ports := s.part.path.ports.each fun q => { q with queue := q.queue.map fun a =>
                    if base.toNat ≤ 64 * a.req.line ∧ 64 * a.req.line + 64 * a.req.count ≤ base.toNat + size.toNat then
                      { a with counted := some w }
                    else a } }
                clips := if k = .clipList then { s.part.clips with mirror := List.finRange 128 } else s.part.clips } i tag [])))))))

/-- CLOSE WINDOW and WINDOW DRAINED (R22, R174): the tests in order; then the entry drains, with every write held in it
answered CLOSING, its held-write record gone (R52) and the requests behind it lining up (R3); with nothing in flight it closes
and the command completes at its take, and with requests in flight the command is deferred until WINDOW DRAINED finds none. As
the OPEN CLIP LIST window drains, a mirror write offered and not yet granted is withdrawn and its position is pending again;
one already granted stands (R129; that every position is pending as such a window opens stands in
OpenWindowAppliesItsTestsThenOpens). That the PROGRAMME window a bus of the snapshot names is IN USE while the pass runs,
whether the bus is ACTIVE or IDLE there, is the model's reading (assumption 27). -/
def Obligations.CloseWindowDrainsThenCloses : Prop :=
  ∀ s : State,
    (∀ (i : Nat) (tag : Word) (entry : Byte), s.taken i (.closeWindow tag entry) →
      let run := exec (.closeWindow tag entry) s
      (31 < entry.toNat → run = .next (s.refuses i tag .badField)) ∧
      (∀ w : Fin 32, entry.toNat = w.val →
        (¬ s.part.noneOutstanding (.closeWindow w) → run = .next (s.refuses i tag .busy)) ∧
        (s.part.noneOutstanding (.closeWindow w) →
          ((s.part.path.windows.nth w).state = .closed → run = .next (s.refuses i tag .state)) ∧
          ((s.part.path.windows.nth w).state ≠ .closed →
            (s.part.usesWindow w → run = .next (s.refuses i tag .inUse)) ∧
            (¬ s.part.usesWindow w →
              let now' (state : WindowState) := { (s.part.path.windows.nth w) with state := state }
              ∃ t, run = .next t ∧ t.dram = s.dram ∧
              (t.part.path.inFlight w ≠ 0 → t.part.path.windows = s.part.path.windows.put w (now' .draining) ∧
                t.part.cmd.deferred = s.part.cmd.deferred ++ [⟨i, tag, .closeWindow w⟩] ∧
                t.part.cmd.completions = s.part.cmd.completions) ∧
              (t.part.path.inFlight w = 0 → t.part.path.windows = s.part.path.windows.put w (now' .closed) ∧
                t.part.cmd.deferred = s.part.cmd.deferred ∧
                t.part.cmd.completions = s.part.cmd.completions ++ [⟨i, tag, .done, []⟩]) ∧
              (∀ port a rest, (s.part.path.ports.nth port).queue = a :: rest → a.phase = .held → a.via = some w →
                .refused port a.tag .closing ∈ t.part.outputs) ∧
              ((∀ port a rest b, (s.part.path.ports.nth port).queue = a :: rest → a.phase = .held → a.via = some w →
                  b ∈ rest → b.waits) →
                let ends (c : Clips) (x : Table (Option Request) 5) :=
                  let draining : Part :=
                    { s.part with clips := c, path := { (s.part.path.putWindow w (now' .draining)) with streams := x } }
                  let q := (List.finRange 6).foldl (Part.closesHeld w) draining
                  (q.path.inFlight w ≠ 0 → t = s.becomes (Part.deferring q i tag (.closeWindow w))) ∧
                  (q.path.inFlight w = 0 →
                    t = s.becomes (Part.answered { q with path := q.path.putWindow w (now' .closed) } i tag []));
                ((s.part.path.openOf .clipList ≠ some w ∨ s.part.clips.writing = none ∨
                  s.part.path.streams.nth clipsStream = none) → ends s.part.clips s.part.path.streams) ∧
                (∀ pos r, s.part.path.openOf .clipList = some w → s.part.clips.writing = some pos →
                  s.part.path.streams.nth clipsStream = some r →
                  ends { s.part.clips with writing := none, mirror := insertPos pos s.part.clips.mirror }
                    (s.part.path.streams.put clipsStream none)))))))) ∧
    (∀ w : Fin 32,
      (((s.part.path.windows.nth w).state ≠ .draining ∨ s.part.path.inFlight w ≠ 0) → exec (.windowDrained w) s = .next s) ∧
      (∀ d, (s.part.path.windows.nth w).state = .draining → s.part.path.inFlight w = 0 → d.kind = .closeWindow w →
        s.part.cmd.awaits d →
        exec (.windowDrained w) s = .next (s.becomes { s.part with
          path := s.part.path.putWindow w { (s.part.path.windows.nth w) with state := .closed }
          cmd := s.part.cmd.completed d })))

/-- No two windows that are OPEN or DRAINING overlap, in the table and in the active copy: every step keeps it. -/
def Obligations.EveryStepKeepsTheWindowsApart : Prop :=
  ∀ s t : State, s.windowsApart → step s = .next t → t.windowsApart

/-- QUIESCE, its completion and RESUME (R23, R24, R174): in QUIESCED, and over empty queues, QUIESCE completes at its take;
over a request it is deferred until every queue is empty. That empty queues let it complete at the take, with no step
between, is the model's reading (assumption 10). -/
def Obligations.QuiesceAndResumeMoveThePortsState : Prop :=
  ∀ s : State,
    (∀ i tag, s.taken i (.quiesce tag) →
      (¬ s.part.noneOutstanding .quiesce → exec (.quiesce tag) s = .next (s.refuses i tag .busy)) ∧
      (s.part.noneOutstanding .quiesce → s.part.path.quiesce = .quiesced →
        exec (.quiesce tag) s = .next (s.becomes (s.part.answered i tag []))) ∧
      (s.part.noneOutstanding .quiesce → s.part.path.quiesce = .running →
        ((∃ port, (s.part.path.ports.nth port).queue ≠ []) →
          exec (.quiesce tag) s = .next (s.becomes (Part.deferring
            { s.part with path := { s.part.path with quiesce := .quiescing } } i tag .quiesce))) ∧
        ((∀ port, (s.part.path.ports.nth port).queue = []) →
          exec (.quiesce tag) s = .next (s.becomes (Part.answered
            { s.part with path := { s.part.path with quiesce := .quiesced } } i tag []))))) ∧
    (∀ d, d.kind = .quiesce → s.part.cmd.awaits d → s.part.path.quiesce = .quiescing →
      (∀ port, (s.part.path.ports.nth port).queue = []) →
      exec .quiesceComplete s = .next (s.becomes { s.part with
        path := { s.part.path with quiesce := .quiesced }, cmd := s.part.cmd.completed d })) ∧
    (∀ i tag, s.taken i (.resume tag) →
      (¬ s.part.noneOutstanding .quiesce → exec (.resume tag) s = .next (s.refuses i tag .busy)) ∧
      (s.part.noneOutstanding .quiesce →
        exec (.resume tag) s = .next (s.becomes (Part.answered
          { s.part with path := { s.part.path with quiesce := .running } } i tag []))))

/-- Raising a notice (R179, R180): a notice already pending is only counted absorbed; any other joins the pending
set, which stays in the order of cause priority and then subject. -/
def Obligations.ARaisedNoticeIsPendingOnce : Prop :=
  ∀ (p : Part) (c : Cause) (n : Nat),
    ((c, n) ∈ p.cmd.notices → p.raise c n = { p with cmd := { p.cmd with
      counts := { p.cmd.counts with absorbed := count p.cmd.counts.absorbed } } }) ∧
    ((c, n) ∉ p.cmd.notices → ∃ l, p.raise c n = { p with cmd := { p.cmd with notices := l } } ∧
      (∀ x, x ∈ l ↔ x = (c, n) ∨ x ∈ p.cmd.notices) ∧ l.length = p.cmd.notices.length + 1 ∧
      (p.cmd.notices.Pairwise (fun a b => noticeBefore a b = true) → l.Pairwise fun a b => noticeBefore a b = true))

/-! ## Chapter 2: the programme clock and the cue lines -/

/-- A frame reference pulse (R27, R29): in LOCKED a pulse too soon is a stray edge and any other is accepted, restarts
the loss timer and ticks; in FREE it counts toward relock, and the third in tolerance regains the reference.
That the pulse which regains it is the previous accepted pulse for the next is the model's reading (assumption 48), and so is
what is judged where no pulse, accepted pulse or oscillator tick came before (assumption 49).
Loss of the frame reference and the oscillator's ticks (R28), and what a picture tick does (R27): the count rises
by one and the timecode takes the pending value, or advances. -/
def Obligations.AFrameReferenceIsJudgedAndLost : Prop :=
  (
  ∀ (s : State) (dt : Nat), s.part.clock.started = true →
    let p := { s.part with now := s.part.now + dt }
    let r := s.part.clock.frame
    let per := s.part.clock.rate.period
    let run := exec (.frameReferencePulse dt) s
    let keeps (x : Reference) := run = .next (s.becomes { p with clock := { p.clock with frame := x } })
    let locks (x : Reference) (c : Clock) := run = .next (s.becomes (Part.raise .reference 0 { p with clock := { c with frame := x } }))
    (r.locked = true →
      (∀ a, r.lastAccepted = some a → p.now < a + per / 2 → keeps { r with strays := count r.strays, lastPulse := some p.now }) ∧
      ((∀ a, r.lastAccepted = some a → a + per / 2 ≤ p.now) →
        run = .next (s.becomes { p with clock := { p.clock.pictureTick with
          frame := { r with lastPulse := some p.now, lastAccepted := some p.now, lossTimer := some (p.now + 2 * per) } } }))) ∧
    (r.locked = false →
      (∀ a, r.lastPulse = some a → p.now < a + per / 2 →
        keeps { r with strays := count r.strays, relock := 0, lastPulse := some p.now }) ∧
      (∀ a, r.lastPulse = some a → a + per / 2 ≤ p.now →
        (r.relock = 0 ∨ ¬ (99 * per ≤ 100 * (p.now - a) ∧ 100 * (p.now - a) ≤ 101 * per) →
          keeps { r with relock := 1, lastPulse := some p.now }) ∧
        (r.relock ≠ 0 → 99 * per ≤ 100 * (p.now - a) → 100 * (p.now - a) ≤ 101 * per →
          (r.relock + 1 < 3 → keeps { r with relock := r.relock + 1, lastPulse := some p.now }) ∧
          (r.relock + 1 = 3 →
            let x : Reference := { r with
              locked := true, relock := 0, regains := count r.regains, oscillator := none,
              lastPulse := some p.now, lastAccepted := some p.now, lossTimer := some (p.now + 2 * per) }
            (∀ o, r.lastOscTick = some o → p.now < o + per / 2 → locks x p.clock) ∧
            ((∀ o, r.lastOscTick = some o → o + per / 2 ≤ p.now) → locks x p.clock.pictureTick)))) ∧
      (r.lastPulse = none → keeps { r with relock := 1, lastPulse := some p.now }))) ∧
  (
  ∀ s : State,
    let per := s.part.clock.rate.period
    let r := s.part.clock.frame
    let ticked : Clock := { s.part.clock with
      pictureTicks := s.part.clock.pictureTicks + 1
      pendingTc := none
      timecode := s.part.clock.pendingTc.getD (s.part.clock.timecode.advance s.part.clock.rate) }
    (∀ t, r.lossTimer = some t → exec .frameReferenceLoss s = .next (s.becomes (Part.raise .reference 0 { s.part with
      now := max s.part.now t
      clock := { ticked with frame := { r with
        locked := false, losses := count r.losses, lossTimer := none, oscillator := some (t + per), lastOscTick := some t } } }))) ∧
    (∀ t, r.oscillator = some t → exec .oscillatorPictureTick s = .next (s.becomes { s.part with
      now := max s.part.now t
      clock := { ticked with frame := { r with oscillator := some (t + per), lastOscTick := some t } } })) ∧
    s.part.clock.pictureTick = ticked)

/-- Timecode (R30): it advances by one picture, each field carrying into the next at its last value, and at the two
rates of 1001 periods the first numbers of every minute but the tenth ones are skipped. A picture tick carries the pending
timecode where there is one, and advances the timecode otherwise.
SET TIMECODE (R31): a value in range that is no dropped number becomes the pending timecode; any other is refused
BAD FIELD. -/
def Obligations.TimecodeAdvancesAndIsSet : Prop :=
  (
  ∀ (rate : Rate) (t : Timecode),
    let last := match rate with | .p25 => 24 | .p30d => 29 | .p50 => 49 | .p60d => 59
    let dropped := match rate with | .p25 => 0 | .p30d => 2 | .p50 => 0 | .p60d => 4
    let minute (hh mm : Nat) : Timecode := ⟨hh, mm, 0, if mm % 10 = 0 then 0 else dropped⟩
    (t.ff < last → t.advance rate = { t with ff := t.ff + 1 }) ∧
    (last ≤ t.ff →
      (t.ss < 59 → t.advance rate = { t with ss := t.ss + 1, ff := 0 }) ∧
      (59 ≤ t.ss →
        (t.mm < 59 → t.advance rate = minute t.hh (t.mm + 1)) ∧
        (59 ≤ t.mm → t.hh < 23 → t.advance rate = minute (t.hh + 1) 0) ∧
        (59 ≤ t.mm → 23 ≤ t.hh → t.advance rate = ⟨0, 0, 0, 0⟩))) ∧
    (t.inRange rate = true → t.isDropped rate = false →
      (t.advance rate).inRange rate = true ∧ (t.advance rate).isDropped rate = false)) ∧
  (∀ c : Clock, c.pictureTick.timecode = (match c.pendingTc with | some v => v | none => c.timecode.advance c.rate) ∧
    c.pictureTick.pendingTc = none) ∧
  (
  ∀ (s : State) (i : Nat) (tag : Word) (ff ss mm hh : Byte), s.taken i (.setTimecode tag ff ss mm hh) →
    let rate := s.part.clock.rate
    let last := match rate with | .p25 => 24 | .p30d => 29 | .p50 => 49 | .p60d => 59
    let dropped := match rate with | .p25 => 0 | .p30d => 2 | .p50 => 0 | .p60d => 4
    let legal := hh.toNat ≤ 23 ∧ mm.toNat ≤ 59 ∧ ss.toNat ≤ 59 ∧ ff.toNat ≤ last ∧
      ¬ (ss.toNat = 0 ∧ mm.toNat % 10 ≠ 0 ∧ ff.toNat < dropped)
    (legal → exec (.setTimecode tag ff ss mm hh) s = .next (s.becomes (Part.answered { s.part with
      clock := { s.part.clock with pendingTc := some ⟨hh.toNat, mm.toNat, ss.toNat, ff.toNat⟩ } } i tag []))) ∧
    (¬ legal → exec (.setTimecode tag ff ss mm hh) s = .next (s.refuses i tag .badField)))

/-- A word clock edge (R32, R33): in LOCKED an edge too soon is a stray edge, each other counts, and the 48th ticks; in
FREE it counts toward relock, and the 144th in tolerance regains the word clock with the edge count at 0.
That the edge which regains it is the previous accepted edge for the next is the model's reading (assumption 48), and so is
what is judged where no edge, accepted edge or oscillator tick came before (assumption 49).
Loss of the word clock and the oscillator's block ticks (R33), and what a block tick does (R32, R105): the block
number rises by one and the number before it goes to the mixer, which counts the tick late if a pass is in progress
and takes nothing from it unless RUNNING. -/
def Obligations.AWordClockIsJudgedAndLost : Prop :=
  (
  ∀ (s : State) (dt : Nat), s.part.clock.started = true →
    let p := { s.part with now := s.part.now + dt }
    let r := s.part.clock.word
    let run := exec (.wordClockEdge dt) s
    let keeps (x : Reference) := run = .next (s.becomes { p with clock := { p.clock with word := x } })
    let took : Reference := { r with lastPulse := some p.now, lastAccepted := some p.now, lossTimer := some (p.now + 6000000) }
    (r.locked = true →
      (∀ a, r.lastAccepted = some a → p.now < a + 31250 → keeps { r with strays := count r.strays, lastPulse := some p.now }) ∧
      ((∀ a, r.lastAccepted = some a → a + 31250 ≤ p.now) →
        (p.clock.edgeCount < 47 →
          run = .next (s.becomes { p with clock := { p.clock with word := took, edgeCount := p.clock.edgeCount + 1 } })) ∧
        (p.clock.edgeCount = 47 →
          run = .next (s.becomes (Part.blockTick { p with clock := { p.clock with word := took, edgeCount := 0 } }))))) ∧
    (r.locked = false →
      (∀ a, r.lastPulse = some a → p.now < a + 31250 →
        keeps { r with strays := count r.strays, relock := 0, lastPulse := some p.now }) ∧
      (∀ a, r.lastPulse = some a → a + 31250 ≤ p.now →
        (r.relock = 0 ∨ ¬ (99 * 62500 ≤ 100 * (p.now - a) ∧ 100 * (p.now - a) ≤ 101 * 62500) →
          keeps { r with relock := 1, lastPulse := some p.now }) ∧
        (r.relock ≠ 0 → 99 * 62500 ≤ 100 * (p.now - a) → 100 * (p.now - a) ≤ 101 * 62500 →
          (r.relock + 1 < 144 → keeps { r with relock := r.relock + 1, lastPulse := some p.now }) ∧
          (r.relock + 1 = 144 →
            let q := Part.raise .reference 1 { p with clock := { p.clock with
              word := { took with locked := true, relock := 0, regains := count r.regains, oscillator := none }
              edgeCount := 0 } }
            (∀ o, r.lastOscTick = some o → p.now < o + 1500000 → run = .next (s.becomes q)) ∧
            ((∀ o, r.lastOscTick = some o → o + 1500000 ≤ p.now) → run = .next (s.becomes q.blockTick))))) ∧
      (r.lastPulse = none → keeps { r with relock := 1, lastPulse := some p.now }))) ∧
  (
  ∀ s : State,
    let r := s.part.clock.word
    (∀ t, r.lossTimer = some t → exec .wordClockLoss s = .next (s.becomes (Part.blockTick
      (Part.setEdges 0 (Part.raise .reference 1 { s.part with
        now := max s.part.now t
        clock := { s.part.clock with word := { r with
          locked := false, losses := count r.losses, lossTimer := none, oscillator := some (t + 3000000), lastOscTick := some t } } }))))) ∧
    (∀ t, r.oscillator = some t → exec .oscillatorBlockTick s = .next (s.becomes (Part.blockTick { s.part with
      now := max s.part.now t
      clock := { s.part.clock with word := { r with oscillator := some (t + 3000000), lastOscTick := some t } } }))) ∧
    ∀ p : Part,
      let q := { p with clock := { p.clock with blockNumber := p.clock.blockNumber + 1 } }
      (p.mixer.state ≠ .running → p.blockTick = q) ∧
      (∀ x, p.mixer.state = .running → p.mixer.pass = some x →
        p.blockTick = Part.raise .mix 64 { q with mixer := { p.mixer with lateTicks := count p.mixer.lateTicks } }) ∧
      (p.mixer.state = .running → p.mixer.pass = none → p.blockTick = q.startPass p.clock.blockNumber))

/-- Cue line pins (R34): an output drives its pin by its state and drive; in OFF, INPUT and MARK the pin is released. -/
def Obligations.ACuePinFollowsItsOutputState : Prop :=
  ∀ c : CueLine,
    (c.cfg.mode = .tally ∨ c.cfg.mode = .output →
      (c.cfg.drive = .pushPull → c.drive = if c.outputOn then .high else .low) ∧
      (c.cfg.drive = .openDrain → c.drive = if c.outputOn then .low else .released)) ∧
    (c.cfg.mode = .off ∨ c.cfg.mode = .input ∨ c.cfg.mode = .mark → c.drive = .released)

/-- Debounce (R37, R38): a change of the raw level starts or restarts the timer, or stops it where the level is back;
the expiry takes the raw level as the debounced one, and on a MARK line a change from HIGH to LOW is a mark press: MARK
OUT on the line's open clip, or MARK IN. -/
def Obligations.ALevelCountsOnceItHasHeldSteady : Prop :=
  ∀ (s : State) (line : Fin 8),
    let c := s.part.cues.nth line
    (∀ dt high, (c.cfg.mode = .input ∨ c.cfg.mode = .mark) → c.raw ≠ high →
      exec (.cueRawChange dt line high) s = .next (s.becomes { s.part with
        now := s.part.now + dt
        cues := s.part.cues.put line { c with
          pin := high, raw := high,
          debounceTimer := if high = c.debounced then none else some (s.part.now + dt + 3000000 * c.cfg.debounce) } })) ∧
    (∀ dt high, (c.cfg.mode = .off ∨ c.cfg.mode = .tally ∨ c.cfg.mode = .output ∨ c.raw = high) →
      exec (.cueRawChange dt line high) s = .next (s.becomes { s.part with
        now := s.part.now + dt, cues := s.part.cues.put line { c with pin := high } })) ∧
    (∀ t, c.debounceTimer = some t →
      let settled := { s.part with
        now := max s.part.now t
        cues := s.part.cues.put line { c with debounced := c.raw, debounceTimer := none } }
      let pressed := { settled with
        cues := s.part.cues.put line { c with debounced := c.raw, debounceTimer := none, presses := count c.presses } }
      ((c.cfg.mode ≠ .mark ∨ c.debounced = false ∨ c.raw = true) →
        exec (.debounceExpiry line) s = .next (s.becomes settled)) ∧
      (c.cfg.mode = .mark → c.debounced = true → c.raw = false →
        (∀ n pos clip, c.openClip = some n → s.part.clipAt n = some (pos, clip) →
          exec (.debounceExpiry line) s = .next (s.becomes (pressed.markOut pos clip))) ∧
        (c.openClip = none →
          (∀ pos clip p, pressed.markIn ⟨c.cfg.cameras, c.cfg.preroll, 3000, [], some line⟩ = (.ok (pos, clip), p) →
            exec (.debounceExpiry line) s = .next (s.becomes (p.updCue line fun x => { x with openClip := some clip.number }))) ∧
          (∀ e p, pressed.markIn ⟨c.cfg.cameras, c.cfg.preroll, 3000, [], some line⟩ = (.error e, p) →
            exec (.debounceExpiry line) s = .next (s.becomes (Part.raise .cue line.val
              (p.updCue line fun x => { x with refusedPresses := count x.refusedPresses })))))))

/-- SET CUE LINE (R36, R40): the record takes the fields, debounce is abandoned, a sampled line takes its level, the
output goes OFF, a TALLY line follows its camera, and the open clip goes. Every other TALLY line shows its own camera, and a
line in another mode stands. That a drive code that names no drive is BAD
FIELD in every mode is the model's reading (assumption 11). -/
def Obligations.SetCueLineReplacesTheRecord : Prop :=
  ∀ (s : State) (i : Nat) (tag : Word) (line mode drive : Byte) (debounce : Half) (cameras preroll tally : Byte),
    s.taken i (.setCueLine tag line mode drive debounce cameras preroll tally) →
    let run := exec (.setCueLine tag line mode drive debounce cameras preroll tally) s
    let legal := line.toNat ≤ 7 ∧ mode.toNat ≤ 4 ∧ drive.toNat ≤ 1 ∧
      (mode.toNat = 1 ∨ mode.toNat = 2 → 1 ≤ debounce.toNat ∧ debounce.toNat ≤ 50) ∧
      (mode.toNat = 2 → cameras ≠ 0 ∧ preroll.toNat ≤ 250) ∧ (mode.toNat = 3 → tally.toNat ≤ 7)
    (¬ legal → run = .next (s.refuses i tag .badField)) ∧
    (legal → ∀ (l : Fin 8) (m : CueMode) (d : Drive), line.toNat = l.val → cueModeOf mode = some m → driveOf drive = some d →
      ∃ t, run = .next (s.becomes (Part.answered { s.part with cues := t } i tag [])) ∧
        (t.nth l = { (s.part.cues.nth l) with
          cfg := ⟨m, d, debounce.toNat, cameras, preroll.toNat, tally.toNat⟩
          debounceTimer := none
          openClip := none
          raw := if m = .input ∨ m = .mark then (s.part.cues.nth l).pin else (s.part.cues.nth l).raw
          debounced := if m = .input ∨ m = .mark then (s.part.cues.nth l).pin else (s.part.cues.nth l).debounced
          outputOn := decide (m = .tally ∧ ∃ k : Fin 8, tally.toNat = k.val ∧
            (s.part.cameras.nth k).state = .running ∧ (s.part.cameras.nth k).cfg.live = true) }) ∧
        ∀ x, x ≠ l → t.nth x = (tallied s.part.cameras s.part.cues).nth x)

/-- DRIVE CUE LINE (R41): the output state of an OUTPUT line takes the value; BAD FIELD above 7 and STATE in another
mode. The codes, ON 0 and OFF 1, are the model's reading (assumption 12). -/
def Obligations.DriveCueLineSetsTheOutputState : Prop :=
  ∀ (s : State) (i : Nat) (tag : Word) (line value : Byte), s.taken i (.driveCueLine tag line value) →
    (7 < line.toNat ∨ 1 < value.toNat → exec (.driveCueLine tag line value) s = .next (s.refuses i tag .badField)) ∧
    (∀ l : Fin 8, line.toNat = l.val → value.toNat ≤ 1 →
      ((s.part.cues.nth l).cfg.mode ≠ .output → exec (.driveCueLine tag line value) s = .next (s.refuses i tag .state)) ∧
      ((s.part.cues.nth l).cfg.mode = .output →
        exec (.driveCueLine tag line value) s = .next (s.becomes (Part.answered
          { s.part with cues := s.part.cues.put l { (s.part.cues.nth l) with outputOn := decide (value.toNat = 0) } } i tag []))))

/-! ## Chapter 3: frame stores -/

/-- SET CAMERA (R44): the tests in order; a STOPPED camera takes all the fields, a RUNNING one keeps its geometry and
takes the rest as pending settings.
START CAMERA (R45, R80): the tests in order; the camera goes to RUNNING with both slots EMPTY, its ring takes up the
replay window, and tally lines follow. The ring takes the window's base and size as its extent, with write point 0, where
its extent is absent or differs and no record of its index holds ring space; an extent that equals the window is kept with
the write point; where a record holds ring space and the extent differs, the ring keeps extent, write point and index, and
the mismatch is counted and notified. No other ring changes. That a live code above 1 is BAD FIELD is the model's reading
(assumption 11). -/
def Obligations.SetCameraAndStartCameraApplyTheirTests : Prop :=
  (
  ∀ (s : State) (i : Nat) (tag : Word) (camera frameWin replayWin : Byte) (stride : Word) (lines : Half)
    (tiles policy : Byte) (holdLimit : Half) (budget : Word) (live : Byte),
    s.taken i (.setCamera tag camera frameWin replayWin stride lines tiles policy holdLimit budget live) →
    let run := exec (.setCamera tag camera frameWin replayWin stride lines tiles policy holdLimit budget live) s
    let legal := camera.toNat ≤ 7 ∧ frameWin.toNat ≤ 31 ∧ replayWin.toNat ≤ 31 ∧
      64 ≤ stride.toNat ∧ stride.toNat ≤ 65536 ∧ stride.toNat % 64 = 0 ∧
      16 ≤ lines.toNat ∧ lines.toNat ≤ 2160 ∧ lines.toNat % 16 = 0 ∧ 1 ≤ tiles.toNat ∧ tiles.toNat ≤ 60 ∧
      policy.toNat ≤ 1 ∧ 1 ≤ holdLimit.toNat ∧ holdLimit.toNat ≤ 200 ∧ live.toNat ≤ 1 ∧
      64 + 8 * (lines.toNat / 16) + 16 * (lines.toNat / 16) * (tiles.toNat + 1) ≤ budget.toNat ∧ budget.toNat ≤ 67108864
    (¬ legal → run = .next (s.refuses i tag .badField)) ∧
    (legal → ∀ (k : Fin 8) (fw rw : Fin 32) (pol : Policy),
      camera.toNat = k.val → frameWin.toNat = fw.val → replayWin.toNat = rw.val →
      pol = (if policy.toNat = 0 then Policy.hold else Policy.drop) →
      let c := s.part.cameras.nth k
      let same := c.cfg.frameWin = fw ∧ c.cfg.replayWin = rw ∧ c.cfg.stride = stride.toNat ∧ c.cfg.lines = lines.toNat ∧
        c.cfg.tiles = tiles.toNat
      (¬ s.part.noneOutstanding (.stopCamera k) → run = .next (s.refuses i tag .busy)) ∧
      (s.part.noneOutstanding (.stopCamera k) →
        (c.state = .running → ¬ same → run = .next (s.refuses i tag .state)) ∧
        (c.state = .running → same →
          ((s.part.path.windows.nth rw).size < budget.toNat → run = .next (s.refuses i tag .badField)) ∧
          (budget.toNat ≤ (s.part.path.windows.nth rw).size →
            run = .next (s.becomes (Part.answered { s.part with cameras := s.part.cameras.put k { c with
              pending := some ⟨pol, holdLimit.toNat, budget.toNat, decide (live.toNat = 1)⟩ } } i tag [])))) ∧
        (c.state ≠ .running →
          run = .next (s.becomes (Part.answered { s.part with cameras := s.part.cameras.put k { c with
            cfg := ⟨fw, rw, stride.toNat, lines.toNat, tiles.toNat, pol, holdLimit.toNat, budget.toNat, decide (live.toNat = 1)⟩
            pending := none } } i tag [])))))) ∧
  (
  ∀ (s : State) (i : Nat) (tag : Word) (camera : Byte), s.taken i (.startCamera tag camera) →
    let run := exec (.startCamera tag camera) s
    (7 < camera.toNat → run = .next (s.refuses i tag .badField)) ∧
    (∀ k : Fin 8, camera.toNat = k.val →
      let c := s.part.cameras.nth k
      let f := s.part.path.windows.nth c.cfg.frameWin
      let r := s.part.path.windows.nth c.cfg.replayWin
      let fit := f.state = .opened ∧ f.kind = .frame ∧ f.subject = k.val ∧ 2 * (c.cfg.lines * c.cfg.stride) ≤ f.size ∧
        r.state = .opened ∧ r.kind = .replay ∧ r.subject = k.val ∧ c.cfg.budget ≤ r.size
      let g := s.part.rings.nth k
      let kept := ∃ e, e ∈ g.index ∧ ∀ cause, e.body ≠ .gap cause
      let equal := g.extent = some (r.base, r.size)
      (¬ s.part.noneOutstanding (.stopCamera k) → run = .next (s.refuses i tag .busy)) ∧
      (s.part.noneOutstanding (.stopCamera k) →
        (c.state ≠ .stopped → run = .next (s.refuses i tag .state)) ∧
        (c.state = .stopped → ¬ fit → run = .next (s.refuses i tag .badField)) ∧
        (c.state = .stopped → fit → ∃ t, run = .next t ∧ t.dram = s.dram ∧ t.flash = s.flash ∧
          t.part.cameras = s.part.cameras.put k { c with state := .running, slotA := Slot.clear, slotB := Slot.clear } ∧
          (¬ (s.part.rings.nth k).occupied → (t.part.rings.nth k).extent = some (r.base, r.size)) ∧
          (equal → t.part.rings.nth k = g) ∧
          (¬ equal → (g.extent = none ∨ ¬ kept) →
            t.part.rings.nth k = { g with extent := some (r.base, r.size), writePoint := 0 }) ∧
          (¬ equal → g.extent ≠ none → kept → t.part.rings.nth k = { g with mismatches := count g.mismatches } ∧
            (Cause.ring, k.val) ∈ t.part.cmd.notices) ∧
          ((equal ∨ g.extent = none ∨ ¬ kept) → t.part.cmd.notices = s.part.cmd.notices) ∧
          (∀ j, j ≠ k → t.part.rings.nth j = s.part.rings.nth j) ∧
          t.part.cmd.completions = s.part.cmd.completions ++ [⟨i, tag, .done, []⟩] ∧ t.part.path = s.part.path ∧
          t.part.cues = tallied t.part.cameras s.part.cues ∧
          (∀ l, (s.part.cues.nth l).cfg.mode = .tally → (s.part.cues.nth l).cfg.tally = k.val →
            (t.part.cues.nth l).outputOn = c.cfg.live)))))

/-- The slot start a passing write is (R46 to R50), for either slot: to a slot in EMPTY, DONE or TORN it is taken, with
pending settings and the stamps of the moment, and the write is offered; to a slot in FILLING, or in CODING under DROP, the
picture there is torn first; to a slot in CODING under HOLD the write is held if the camera holds none, and passes
untracked and counted stray if it holds one. A slot start taken carries the pending settings to the camera's TALLY lines: each
follows the live-send flag in force from here on (R40, R47); no other cue line changes, and none at a held or stray start.
The hold limit (R51): the held-write record goes, the expiry is counted, the picture still CODING is torn, the slot
start is taken, and the write is offered. That a slot FILLING again at the expiry is torn too is the model's reading
(assumption 38). -/
def Obligations.ASlotStartIsTakenHeldOrReleased : Prop :=
  (
  ∀ (s : State) (dt : Nat) (port : Fin 6) (tag : BitVec 6) (line cnt : Nat) (data : List (Byte × Bool)) (w : Fin 32) (k : Fin 8)
    (i : SlotId),
    requestWf .write cnt data = true → windowsDisjoint s.part.path.windows →
    s.part.path.quiesce = .running → s.part.path.ready = true → (s.part.path.ports.nth port).queue = [] →
    let win := s.part.path.windows.nth w
    let c := s.part.cameras.nth k
    let d := c.slot i
    let r : Request := ⟨.write, line, cnt, data⟩
    win.state = .opened → win.kind = .frame → win.subject = k.val → win.writers.getLsbD port.val = true →
    win.holds (64 * line) (64 * line + 64 * cnt) = true → 64 * line + 64 * cnt ≤ 8589934592 →
    c.state = .running → c.cfg.frameWin = w → r.covers (c.cfg.slotAt win.base i) 64 = true →
    (i = .b → r.covers (c.cfg.slotAt win.base .a) 64 = false) →
    let begun := c.begun i s.part.clock.timecode s.part.clock.blockNumber
    ∃ t, exec (.clientRequest dt port tag .write line cnt data) s = .next t ∧ t.dram = s.dram ∧ t.flash = s.flash ∧
      let stands (phase : ReqPhase) (tracked : Bool) :=
        (t.part.path.ports.nth port).queue = [⟨tag, r, phase, some w, some w, line, tracked⟩]
      ((d.state = .empty ∨ d.state = .done ∨ d.state = .torn) →
        t.part.cameras = s.part.cameras.put k begun ∧ stands .offered true ∧ t.part.cues = tallied t.part.cameras s.part.cues ∧
        t.part.coder = s.part.coder ∧ t.part.rings = s.part.rings) ∧
      (∀ st, (d.state = .filling ∨ (d.state = .coding ∧ c.cfg.policy = .drop)) → d.stamp = some st →
        t.part.cameras = s.part.cameras.put k { begun with counts := { begun.counts with torn := count c.counts.torn } } ∧
        stands .offered true ∧ (Cause.hold, k.val) ∈ t.part.cmd.notices ∧ t.part.cues = tallied t.part.cameras s.part.cues ∧
        (∀ j, j ∈ t.part.coder.queue ↔ j ∈ s.part.coder.queue ∧ ¬ j.of k i st.number) ∧
        (∀ run, t.part.coder.job = some run → run.job.of k i st.number → run.discarded = true) ∧
        (∀ e start len, d.abandoned = false → (s.part.rings.nth k).find st.number = some e → e.body = .opening start len →
          (t.part.rings.nth k).find st.number = some { e with body := .gap .torn, pins := 0 })) ∧
      (d.state = .coding → c.cfg.policy = .hold → c.held = none →
        t.part.cameras = s.part.cameras.put k { c with
          held := some ⟨port, tag, i, s.part.now + dt + 3000000 * c.cfg.holdLimit⟩
          counts := { c.counts with heldWrites := count c.counts.heldWrites } } ∧
        stands .held false ∧ t.part.cues = s.part.cues) ∧
      (d.state = .coding → c.cfg.policy = .hold → c.held ≠ none →
        t.part.cameras = s.part.cameras.put k { c with
          counts := { c.counts with strayStarts := count c.counts.strayStarts } } ∧
        stands .offered false ∧ (Cause.hold, k.val) ∈ t.part.cmd.notices ∧ t.part.cues = s.part.cues)) ∧
  (
  ∀ (s : State) (k : Fin 8) (h : HeldWrite) (a : Admitted) (rest : List Admitted),
    let c := s.part.cameras.nth k
    c.held = some h → (s.part.path.ports.nth h.port).queue = a :: rest →
    ∃ t, exec (.holdLimitExpiry k) s = .next t ∧ t.part.now = max s.part.now h.timer ∧ t.dram = s.dram ∧ t.flash = s.flash ∧
      (t.part.cameras.nth k).held = none ∧ (t.part.cameras.nth k).pending = none ∧
      (t.part.cameras.nth k).counts.holdExpiries = count c.counts.holdExpiries ∧
      (t.part.cameras.nth k).counts.slotStarts = count c.counts.slotStarts ∧
      (t.part.cameras.nth k).counts.torn =
        (if (c.slot h.slot).state = .coding ∨ (c.slot h.slot).state = .filling then count c.counts.torn else c.counts.torn) ∧
      (t.part.cameras.nth k).counter = c.counter + 1 ∧
      ((t.part.cameras.nth k).slot h.slot).state = .filling ∧ ((t.part.cameras.nth k).slot h.slot).arrived = 0 ∧
      (((t.part.cameras.nth k).slot h.slot).stamp.map fun x => (x.number, x.timecode, x.block)) =
        some (c.counter, s.part.clock.timecode, s.part.clock.blockNumber) ∧
      (t.part.path.ports.nth h.port).queue = { a with phase := .offered, tracked := true } :: rest ∧
      (t.part.cameras.nth k).cfg = c.settled ∧ t.part.cues = tallied t.part.cameras s.part.cues ∧
      ∀ j, j ≠ k → t.part.cameras.nth j = s.part.cameras.nth j)

/-- STOP CAMERA and its completion (R59, R57, R76, R89): the tests in order; the camera goes to STOPPING and its tally lines
go off (R40), every other TALLY line showing its own camera and no other cue line changing; its queued jobs and pending
settings go, those of other cameras staying in order, and a held write is let through, offered to its path and untracked
(R52). A job of the camera in the coder is marked discarded: it runs on in CODING or while a transfer of it is in progress,
and the stop waits for it; otherwise its offer is withdrawn, it ends counted, and the stop completes at once, as it does where
the coder holds no job of the camera. At its completion (`Part.stops`) every picture FILLING or CODING and not abandoned is
settled GAP STOPPED, the earlier number first, the abandoned counter rising for each; the camera is STOPPED with both slots
EMPTY and no write held, its counter, carried quantizer and other counters kept, and the command is completed DONE. That an
EMPTY slot has no picture number, timecode or block number from this completion on is the model's reading (assumption 44). -/
def Obligations.AStoppedCameraKeepsNoWork : Prop :=
  ∀ s : State,
    (∀ (i : Nat) (tag : Word) (camera : Byte), s.taken i (.stopCamera tag camera) →
      (7 < camera.toNat → exec (.stopCamera tag camera) s = .next (s.refuses i tag .badField)) ∧
      (∀ k : Fin 8, camera.toNat = k.val →
        (¬ s.part.noneOutstanding (.stopCamera k) → exec (.stopCamera tag camera) s = .next (s.refuses i tag .busy)) ∧
        (s.part.noneOutstanding (.stopCamera k) → (s.part.cameras.nth k).state ≠ .running →
          exec (.stopCamera tag camera) s = .next (s.refuses i tag .state)) ∧
        (s.part.noneOutstanding (.stopCamera k) → (s.part.cameras.nth k).state = .running →
          let c := s.part.cameras.nth k
          let lasts (run : JobRun) := run.discarded = true ∨ run.phase = .coding ∨ ∃ r, s.part.path.channel = .stream coderStream r false
          ∃ t m, exec (.stopCamera tag camera) s = .next t ∧ t.dram = s.dram ∧ t.flash = s.flash ∧
            m = { s.part.deferring i tag (.stopCamera k) with
              cameras := s.part.cameras.put k { c with state := .stopping, pending := none, held := none }
              cues := tallied m.cameras s.part.cues
              path := { s.part.path with
                ports := match c.held with
                  | none => s.part.path.ports
                  | some h => s.part.path.ports.upd h.port fun q => { q with queue := match q.queue with
                    | [] => []
                    | a :: rest => { a with phase := .offered, tracked := false } :: rest }
                streams := m.path.streams }
              coder := { m.coder with
                queue := s.part.coder.queue.filter fun j => j.cam != k
                rates := s.part.coder.rates, highWater := s.part.coder.highWater } } ∧
            (∀ l, (s.part.cues.nth l).cfg.mode = .tally → (s.part.cues.nth l).cfg.tally = k.val →
              (m.cues.nth l).outputOn = false) ∧
            (∀ run, s.part.coder.job = some run → run.job.cam = k →
              (lasts run → m.coder.job = some { run with discarded := true } ∧ m.coder.counts = s.part.coder.counts ∧
                m.path.streams = s.part.path.streams ∧ t.part = m) ∧
              (¬ lasts run → m.coder.job = none ∧
                m.coder.counts = (s.part.coder.counts.upd k fun x => { x with discarded := count x.discarded }) ∧
                m.path.streams = s.part.path.streams.put coderStream none ∧ m.stops k i tag t.part)) ∧
            ((∀ run, s.part.coder.job = some run → run.job.cam ≠ k) → m.coder.job = s.part.coder.job ∧
              m.coder.counts = s.part.coder.counts ∧ m.path.streams = s.part.path.streams ∧ m.stops k i tag t.part) ∧
            ((t.part.cameras.nth k).state = .stopping ∧ t.part.coderOn k = true ∧
                t.part.cmd.deferred = s.part.cmd.deferred ++ [⟨i, tag, .stopCamera k⟩] ∨
              (t.part.cameras.nth k).state = .stopped ∧ t.part.coderOn k = false ∧
                (t.part.cameras.nth k).slotA = Slot.clear ∧ (t.part.cameras.nth k).slotB = Slot.clear ∧
                t.part.cmd.deferred = s.part.cmd.deferred ∧
                t.part.cmd.completions = s.part.cmd.completions ++ [⟨i, tag, .done, []⟩])))) ∧
    (∀ k : Fin 8,
      ((s.part.cameras.nth k).state ≠ .stopping ∨ s.part.coderOn k = true → exec (.stopCameraComplete k) s = .next s) ∧
      (∀ d, (s.part.cameras.nth k).state = .stopping → s.part.coderOn k = false → d.kind = .stopCamera k →
        s.part.cmd.awaits d →
        ∃ t, exec (.stopCameraComplete k) s = .next t ∧ t.dram = s.dram ∧ t.flash = s.flash ∧
          (t.part.cameras.nth k).state = .stopped ∧
          (t.part.cameras.nth k).slotA = Slot.clear ∧ (t.part.cameras.nth k).slotB = Slot.clear ∧
          ((s.part.cameras.nth k).held = none → (t.part.cameras.nth k).counter = (s.part.cameras.nth k).counter) ∧
          (t.part.cameras.nth k).carried = (s.part.cameras.nth k).carried ∧
          t.part.cmd.deferred = (s.part.cmd.deferred.filter fun e => e.kind != .stopCamera k) ∧
          t.part.cmd.completions = s.part.cmd.completions ++ [⟨d.ring, d.tag, .done, []⟩] ∧
          (t.part.coder.queue.filter fun j => j.cam != k) = (s.part.coder.queue.filter fun j => j.cam != k) ∧
          ((s.part.cameras.nth k).held = none → (∀ j, j ∈ s.part.coder.queue → j.cam ≠ k) →
            s.part.stops k d.ring d.tag t.part)))

/-! ## Chapter 4: the band coder -/

/-- The take of a job (R62 to R65): a BUSY coder or an empty queue takes nothing; a job of band 1 or later enters READING at
the target and quantizer of its picture's record, with the read of its first lines offered; a job of band 0 finds an older
picture's record and is dropped, counted overlapped with HOLD raised, its picture abandoned as LOST where the slot still holds
it and it is not abandoned (R57, R64, R89: its queued jobs go, it is counted lost with RING raised unless it has a record,
counted abandoned, and a slot in CODING goes to DONE, a write held for it being released into it, R51), or opens its picture
(R85, whose open RingRoomIsMadeAndGivenBack gives) and enters HEADER, with the first write of the preliminary header (12.3)
offered and the rest of it to follow, from the record's ring start on and past the ring's end at offset 0 (how the writes are
cut stands in ACodedBandIsPlacedOrItsPictureIsCut), or, where the open fails, is dropped: the failed open is counted and the
picture abandoned with the open's cause, its queued jobs gone, a GAP record appended for CUT where the index takes one and the
picture counted lost otherwise (R57, R64, R85, R89). That the first read is of four lines, or of the whole band if that is
less, is the model's choice (assumption 15; R63 says at most four). -/
def Obligations.TheIdleCoderTakesTheOldestJob : Prop :=
  ∀ s : State,
    ((s.part.coder.job ≠ none ∨ s.part.coder.queue = []) → exec .jobTake s = .next s) ∧
    (∀ (j : BandJob) (rest : List BandJob) (r : RateRecord),
      s.part.coder.job = none → s.part.coder.queue = j :: rest → j.band ≠ 0 → s.part.coder.rates.nth j.cam = some r →
      let c := s.part.cameras.nth j.cam
      let first := (s.part.path.windows.nth c.cfg.frameWin).base +
        (match j.slot with | .a => 0 | .b => c.cfg.lines * c.cfg.stride) + j.band * (16 * c.cfg.stride)
      0 < c.cfg.stride → c.cfg.stride % 64 = 0 → first % 64 = 0 →
      exec .jobTake s = .next (s.becomes { s.part with
        coder := { s.part.coder with
          queue := rest
          job := some ⟨j, .reading, bandTarget r j.band, r.quantizer, none, none, false,
            if 16 * c.cfg.stride ≤ 256 then [] else [(first + 256, 16 * c.cfg.stride - 256)], []⟩ }
        path := s.part.path.offering coderStream ⟨.read, first / 64, min (16 * c.cfg.stride) 256 / 64, []⟩ })) ∧
    (∀ (j : BandJob) (rest : List BandJob) (r : RateRecord),
      s.part.coder.job = none → s.part.coder.queue = j :: rest → j.band = 0 → s.part.coder.rates.nth j.cam = some r →
      r.number ≠ j.number →
      (∃ t, exec .jobTake s = .next t ∧ t.part.coder.job = none ∧ t.part.coder.rates.nth j.cam = some r ∧
        (t.part.coder.counts.nth j.cam).overlapped = count (s.part.coder.counts.nth j.cam).overlapped ∧
        (Cause.hold, j.cam.val) ∈ t.part.cmd.notices) ∧
      let k := j.cam
      let i := j.slot
      let c := s.part.cameras.nth k
      let d := c.slot i
      let ring := s.part.rings.nth k
      let here := ∃ st, d.stamp = some st ∧ st.number = j.number ∧ d.abandoned = false
      let left := rest.filter fun x => decide (x.cam ≠ k ∨ x.slot ≠ i ∨ x.number ≠ j.number)
      let counted (x : Camera) : Camera := { x with counts := { x.counts with abandoned := count x.counts.abandoned } }
      let overlapped (queue : List BandJob) : Coder := { s.part.coder with
        queue := queue, counts := s.part.coder.counts.upd k fun x => { x with overlapped := count x.overlapped } }
      let lost : Part := match ring.find j.number with
        | some _ => s.part
        | none => Part.raise .ring k.val { s.part with rings := s.part.rings.put k { ring with lost := count ring.lost } }
      (¬ here → exec .jobTake s = .next (s.becomes (Part.raise .hold k.val { s.part with coder := overlapped rest }))) ∧
      (here → (d.state ≠ .coding ∨ ∀ h, c.held = some h → h.slot ≠ i) →
        exec .jobTake s = .next (s.becomes (Part.raise .hold k.val { lost with
          coder := overlapped left
          cameras := s.part.cameras.put k (counted (c.putSlot i
            { d with abandoned := true, state := if d.state = .coding then .done else d.state })) }))) ∧
      (∀ h a others, here → d.state = .coding → c.held = some h → h.slot = i →
        (s.part.path.ports.nth h.port).queue = a :: others →
        let taken := s.part.cameras.put k
          (counted ({ c with held := none }.begun i s.part.clock.timecode s.part.clock.blockNumber))
        exec .jobTake s = .next (s.becomes (Part.raise .hold k.val { lost with
          coder := overlapped left
          cameras := taken
          path := s.part.path.putPort h.port { (s.part.path.ports.nth h.port) with
            queue := { a with phase := .offered, tracked := true } :: others }
          cues := tallied taken s.part.cues })))) ∧
    (∀ (j : BandJob) (rest : List BandJob) (st : Stamp) (start : Nat) (p : Part),
      s.part.coder.job = none → s.part.coder.queue = j :: rest → j.band = 0 → s.part.coder.rates.nth j.cam = none →
      ((s.part.cameras.nth j.cam).slot j.slot).stamp = some st →
      Part.openPicture j.cam st (64 + 8 * ((s.part.cameras.nth j.cam).cfg.lines / 16))
        { s.part with coder := { s.part.coder with queue := rest } } = (.opened start, p) →
      let c := s.part.cameras.nth j.cam
      let bands := c.cfg.lines / 16
      let record : RateRecord := ⟨j.number, j.slot, st.budget, bands, c.cfg.tiles, 64 + 8 * bands, 0, c.carried, [], false⟩
      let ring := p.rings.nth j.cam
      let header : List Byte := [0] ++ leBytes 1 j.cam.val ++ leBytes 1 bands ++ leBytes 1 c.cfg.tiles ++
        leBytes 4 j.number.toNat ++ st.timecode.bytes ++ leBytes 4 st.block.toNat ++ leBytes 4 st.budget ++ zeros 4 ++ [0, 0] ++
        zeros 38 ++ zeros (8 * bands)
      ∃ r left, nextWrite (if start + header.length ≤ ring.size then [(ring.base + start, header)]
          else [(ring.base + start, header.take (ring.size - start)), (ring.base, header.drop (ring.size - start))]) =
          some (r, left) ∧
        p.coder = { s.part.coder with queue := rest } ∧ p.path = s.part.path ∧ p.cameras = s.part.cameras ∧
        exec .jobTake s = .next (s.becomes { p with
          coder := { s.part.coder with
            queue := rest
            rates := s.part.coder.rates.put j.cam (some record)
            job := some ⟨j, .header, bandTarget record 0, c.carried, none, none, false, [], left⟩ }
          path := s.part.path.offering coderStream r })) ∧
    (∀ (j : BandJob) (rest : List BandJob) (st : Stamp) (cause : SettleCause) (p : Part),
      let k := j.cam
      let c := s.part.cameras.nth k
      let d := c.slot j.slot
      s.part.coder.job = none → s.part.coder.queue = j :: rest → j.band = 0 → s.part.coder.rates.nth k = none →
      d.stamp = some st → st.number = j.number → d.abandoned = false →
      Part.openPicture k st (64 + 8 * (c.cfg.lines / 16)) { s.part with coder := { s.part.coder with queue := rest } } =
        (.failed cause, p) →
      ∃ t, exec .jobTake s = .next t ∧ t.dram = s.dram ∧ (cause = .lost ∨ cause = .gap .cut) ∧
        t.part.coder.job = none ∧ t.part.coder.rates.nth k = none ∧
        (t.part.coder.counts.nth k).failedOpens = count (s.part.coder.counts.nth k).failedOpens ∧
        (∀ x, x ∈ t.part.coder.queue ↔ x ∈ rest ∧ ¬ x.of k j.slot j.number) ∧
        (t.part.cameras.nth k).counts.abandoned = count c.counts.abandoned ∧
        (d.state = .filling → (t.part.cameras.nth k).slot j.slot = { d with abandoned := true }) ∧
        (d.state = .coding → (∀ h, c.held = some h → h.slot ≠ j.slot) →
          (t.part.cameras.nth k).slot j.slot = { d with state := .done, abandoned := true }) ∧
        (t.part.rings.nth k).cut = (if cause = .gap .cut then count (s.part.rings.nth k).cut else (s.part.rings.nth k).cut) ∧
        (cause = .gap .cut → (Cause.ring, k.val) ∈ t.part.cmd.notices) ∧
        ((p.rings.nth k).find st.number = none →
          (cause = .gap .cut → (p.rings.nth k).appendable st.number = true → t.part.rings.nth k = { (p.rings.nth k) with
            index := (p.rings.nth k).index ++ [⟨st.number, st.timecode, st.block, .gap .cut, 0, 0⟩] }) ∧
          ((cause = .lost ∨ (p.rings.nth k).appendable st.number = false) →
            t.part.rings.nth k = { (p.rings.nth k) with lost := count (p.rings.nth k).lost } ∧
            (Cause.ring, k.val) ∈ t.part.cmd.notices)))

/-- Rate control (R65, R67): the target shares what is left of the budget among the bands left, at least the minimum;
the quantizer moves one step when the size lies more than a quarter of the target away. -/
def Obligations.RateControlStepsTheQuantizer : Prop :=
  (∀ (r : RateRecord) (b : Nat), b < r.bandCount →
    let share := ((r.budget : Int) - r.header - r.spent).fdiv ((r.bandCount : Int) - b)
    let least := 16 * (r.tiles + 1)
    (share < least → bandTarget r b = least) ∧ (least ≤ share → (bandTarget r b : Int) = share) ∧
    ((least : Int) ≤ share → (r.spent : Int) + r.header + bandTarget r b * (r.bandCount - b) ≤ r.budget)) ∧
  (∀ q t n : Nat, q ≤ 15 →
    (t + t / 4 < n → nextQuantizer q t n = if q = 15 then 15 else q + 1) ∧
    (n < t - t / 4 → nextQuantizer q t n = if q = 0 then 0 else q - 1) ∧
    (t - t / 4 ≤ n → n ≤ t + t / 4 → nextQuantizer q t n = q) ∧ nextQuantizer q t n ≤ 15)

/-- The coded event (R66, R69, R76, R87, R70): a discarded job ends with nothing reported; when room is made, the band's place
is the write point, which moves past it with used and the record's length, and the job enters WRITING with the first write of
the coded band (its 16-byte header and its tiles, 12.3) offered and the rest to follow, then, for the last band of a picture
whose record is OPENING, the final header at the record's ring start, each going on at ring offset 0 past the ring's end; when
not, the picture is cut and the job ends. At a cut of a picture whose record is OPENING (R69, R77, R88, R89) that record
becomes GAP CUT, its pins dropped, the write point goes back to its ring start and used falls by its length, the cut is
counted and RING raised; and where the slot still holds the picture, not abandoned, its queued jobs and its rate-control
record go, it is counted abandoned, and a slot in CODING goes to DONE, a write held for it being released into it (R51), while
one in FILLING stays so. That the job has completed before and counts no discarded job is the model's reading (assumption 45).
A list of spans to write gives its next request (R64, R70): up to four lines, its masks enabling exactly the span's bytes. The
CODER stream's transfers (R63, R64, R70, R72, R74, R90): a discarded job ends; the header's and the band's writes and the
band's reads follow one another; after the last, READING, CODING or the end of the job. At the end the band is counted and the
rate-control record moves on; at the last band the picture is PUBLISHED, the slot is DONE, a write held for it is released
(R51), and a picture stamped live goes home as a LIVE item, whose making is what `Part.makeItem` does to the part with the
picture PUBLISHED (O43 says what that is), its record's send count one more (R92, R133 step 3). That a read or a write takes
four lines, counted from the line of its span's first byte, or what is left if that is less, is the model's choice (assumption
15; R63, R64 and R70 say at most four). -/
def Obligations.ACodedBandIsPlacedOrItsPictureIsCut : Prop :=
  (
  ∀ (s : State) (dt : Nat) (tiles : List (List Byte)) (j : JobRun), s.part.coder.job = some j → j.phase = .coding →
    (j.discarded = true → exec (.codedEvent dt tiles) s = .next (s.becomes { s.part with
      now := s.part.now + dt
      coder := { s.part.coder with
        job := none
        counts := s.part.coder.counts.upd j.job.cam fun c => { c with discarded := count c.discarded } } })) ∧
    (∀ r, j.discarded = false → s.part.coder.rates.nth j.job.cam = some r →
      tiles.length = r.tiles → (∀ t, t ∈ tiles → 16 ≤ t.length ∧ t.length % 16 = 0) →
      16 + tiles.flatten.length ≤ 16 * (s.part.cameras.nth j.job.cam).cfg.stride + 16 * (r.tiles + 1) →
      let n := 16 + tiles.flatten.length
      let k := j.job.cam
      (∀ p, Part.makeRoom k n { s.part with now := s.part.now + dt } = (true, p) →
        let ring := p.rings.nth k
        let band : List Byte := leBytes 1 k.val ++ leBytes 1 j.job.band ++ leBytes 1 j.quantizer ++ leBytes 1 r.tiles ++
          leBytes 4 j.job.number.toNat ++ leBytes 4 n ++ zeros 4 ++ tiles.flatten
        let laid (start : Nat) (bs : List Byte) : List (Nat × List Byte) :=
          if start + bs.length ≤ ring.size then [(ring.base + start, bs)]
          else [(ring.base + start, bs.take (ring.size - start)), (ring.base, bs.drop (ring.size - start))]
        let final (e : PictureRecord) : List Byte := [1] ++ leBytes 1 k.val ++ leBytes 1 r.bandCount ++ leBytes 1 r.tiles ++
          leBytes 4 r.number.toNat ++ e.timecode.bytes ++ leBytes 4 e.block.toNat ++ leBytes 4 r.budget ++
          leBytes 4 (r.header + (r.spent + n)) ++ leBytes 1 (nextQuantizer j.quantizer j.target n) ++
          [if r.overFlag = true ∨ r.budget < r.header + (r.spent + n) then 1 else 0] ++ zeros 38 ++
          padTo (8 * r.bandCount) ((r.bands ++ [(n, j.quantizer)]).flatMap fun x => leBytes 4 x.1 ++ leBytes 1 x.2 ++ zeros 3)
        let goes (writes : List (Nat × List Byte)) := ∃ q left, nextWrite writes = some (q, left) ∧
          p.coder = s.part.coder ∧ p.path = s.part.path ∧ p.cameras = s.part.cameras ∧
          exec (.codedEvent dt tiles) s = .next (s.becomes { p with
            rings := p.rings.put k { ring with
              index := ring.index.map fun x => if x.number = j.job.number then
                (match x.body with | .opening start len => { x with body := .opening start (len + n) } | _ => x) else x
              writePoint := (ring.writePoint + n) % ring.size
              used := ring.used + n }
            coder := { s.part.coder with job := some { j with
              phase := .writing, size := some n, place := some ring.writePoint, writes := left } }
            path := s.part.path.offering coderStream q })
        ((j.job.band + 1 ≠ r.bandCount ∨
            ∀ e start len, ring.find j.job.number = some e → e.body ≠ .opening start len) → goes (laid ring.writePoint band)) ∧
        (∀ e start len, j.job.band + 1 = r.bandCount → ring.find j.job.number = some e → e.body = .opening start len →
          goes (laid ring.writePoint band ++ laid start (final e)))) ∧
      (∀ p, Part.makeRoom k n { s.part with now := s.part.now + dt } = (false, p) →
        (∃ t, exec (.codedEvent dt tiles) s = .next t ∧ t.part.coder.job = none ∧
          (t.part.coder.counts.nth k).cutBands = count (s.part.coder.counts.nth k).cutBands ∧
          (t.part.rings.nth k).cut = count (p.rings.nth k).cut ∧ (Cause.ring, k.val) ∈ t.part.cmd.notices) ∧
        (∀ e start len, (p.rings.nth k).find j.job.number = some e → e.body = .opening start len →
          let ring := p.rings.nth k
          let c := s.part.cameras.nth k
          let i := j.job.slot
          let d := c.slot i
          let cut : Part := Part.raise .ring k.val { p with rings := p.rings.put k { ring with
            index := ring.index.map fun x => if x.number = j.job.number then { x with body := .gap .cut, pins := 0 } else x
            writePoint := start, used := ring.used - len, cut := count ring.cut } }
          let ended : Coder := { s.part.coder with
            job := none, counts := s.part.coder.counts.upd k fun x => { x with cutBands := count x.cutBands } }
          let cleared : Coder := { ended with
            queue := s.part.coder.queue.filter fun x => decide (x.cam ≠ k ∨ x.slot ≠ i ∨ x.number ≠ j.job.number)
            rates := if r.number = j.job.number then s.part.coder.rates.put k none else s.part.coder.rates }
          let counted (x : Camera) : Camera := { x with counts := { x.counts with abandoned := count x.counts.abandoned } }
          let here := ∃ st, d.stamp = some st ∧ st.number = j.job.number ∧ d.abandoned = false
          p.coder = s.part.coder ∧ p.cameras = s.part.cameras ∧ p.path = s.part.path ∧
          (¬ here → exec (.codedEvent dt tiles) s = .next (s.becomes { cut with coder := ended })) ∧
          (here → (d.state ≠ .coding ∨ ∀ h, c.held = some h → h.slot ≠ i) →
            exec (.codedEvent dt tiles) s = .next (s.becomes { cut with
              coder := cleared
              cameras := s.part.cameras.put k (counted (c.putSlot i
                { d with abandoned := true, state := if d.state = .coding then .done else d.state })) })) ∧
          (∀ h a others, here → d.state = .coding → c.held = some h → h.slot = i →
            (s.part.path.ports.nth h.port).queue = a :: others →
            let taken := s.part.cameras.put k
              (counted ({ c with held := none }.begun i s.part.clock.timecode s.part.clock.blockNumber))
            exec (.codedEvent dt tiles) s = .next (s.becomes { cut with
              coder := cleared
              cameras := taken
              path := s.part.path.putPort h.port { (s.part.path.ports.nth h.port) with
                queue := { a with phase := .offered, tracked := true } :: others }
              cues := tallied taken s.part.cues })))))) ∧
  (
  ∀ (a : Nat) (bs : List Byte) (rest : List (Nat × List Byte)),
    let o := a % 64
    let n := min bs.length (256 - o)
    let lines := (o + n + 63) / 64
    lines ≤ 4 ∧ nextWrite ((a, bs) :: rest) = some (⟨.write, a / 64, lines, (List.range (64 * lines)).map fun x =>
        if o ≤ x ∧ x < o + n then (bs.getD (x - o) 0, true) else (0, false)⟩,
      if bs.length ≤ 256 - o then rest else (a + n, bs.drop n) :: rest)) ∧
  (
  ∀ (s : State) (dt : Nat) (q : Request) (j : JobRun), s.streaming coderStream q → s.part.coder.job = some j →
    let k := j.job.cam
    let c := s.part.cameras.nth k
    let freed := s.part.path.freed
    let after (x : Coder) (y : Path) : Part := { s.part with now := s.part.now + dt, coder := x, path := y }
    let ends (p : Part) := ∃ t, exec (.transferComplete dt) s = .next t ∧ t.part = p
    let going (x : JobRun) : Coder := { s.part.coder with job := some x }
    (j.discarded = true → ends (after { s.part.coder with
      job := none
      counts := s.part.coder.counts.upd k fun x => { x with discarded := count x.discarded } } freed)) ∧
    (j.discarded = false →
      (∀ r left, (j.phase = .header ∨ j.phase = .writing) → nextWrite j.writes = some (r, left) →
        ends (after (going { j with writes := left }) (freed.offering coderStream r))) ∧
      (j.phase = .header → j.writes = [] →
        let first := c.cfg.slotAt (s.part.path.windows.nth c.cfg.frameWin).base j.job.slot + j.job.band * (16 * c.cfg.stride)
        0 < c.cfg.stride → c.cfg.stride % 64 = 0 → first % 64 = 0 →
        ends (after (going { j with
            phase := .reading
            reads := if 16 * c.cfg.stride ≤ 256 then [] else [(first + 256, 16 * c.cfg.stride - 256)] })
          (freed.offering coderStream ⟨.read, first / 64, min (16 * c.cfg.stride) 256 / 64, []⟩))) ∧
      (∀ r cur left, j.phase = .reading → nextRead j.reads = some (r, cur, left) →
        ends (after (going { j with reads := left }) (freed.offering coderStream r))) ∧
      (j.phase = .reading → j.reads = [] → ends (after (going { j with phase := .coding }) freed)) ∧
      (∀ n r, j.phase = .writing → j.writes = [] → j.size = some n → s.part.coder.rates.nth k = some r →
        let done : RateRecord := { r with
          bands := r.bands ++ [(n, j.quantizer)]
          spent := r.spent + n
          overFlag := r.overFlag || decide (r.budget < r.header + r.spent + n)
          quantizer := nextQuantizer j.quantizer j.target n }
        let coded (x : CoderCounters) : CoderCounters := { x with codedBands := count x.codedBands }
        let d := c.slot j.job.slot
        let told := c.putSlot j.job.slot
          (if d.stamp.map (·.number) = some j.job.number then { d with coded := d.coded + 1 } else d)
        (j.job.band + 1 ≠ r.bandCount → ends { (after { s.part.coder with
            job := none, rates := s.part.coder.rates.put k (some done), counts := s.part.coder.counts.upd k coded } freed) with
          cameras := s.part.cameras.put k told }) ∧
        (j.job.band + 1 = r.bandCount → ∃ t, exec (.transferComplete dt) s = .next t ∧
          t.part.coder = { s.part.coder with
            job := none
            rates := s.part.coder.rates.put k none
            counts := s.part.coder.counts.upd k fun x => { (coded x) with
              published := count x.published, overBudget := if done.overFlag then count x.overBudget else x.overBudget } } ∧
          (t.part.cameras.nth k).carried = done.quantizer ∧
          (∀ e start len, (s.part.rings.nth k).find r.number = some e → e.body = .opening start len →
            ∃ x, (t.part.rings.nth k).find r.number = some x ∧ x.pins = e.pins ∧
              x.body = .published start (done.header + done.spent) done.quantizer done.overFlag) ∧
          ((∀ h, c.held = some h → h.slot ≠ r.slot) → t.part.path = freed ∧ t.part.cues = s.part.cues ∧
            t.part.cameras = s.part.cameras.put k (let x := { told with carried := done.quantizer }
              x.putSlot r.slot { (x.slot r.slot) with state := .done })) ∧
          (∀ h a rest, c.held = some h → h.slot = r.slot → (s.part.path.ports.nth h.port).queue = a :: rest →
            (t.part.path.ports.nth h.port).queue = { a with phase := .offered, tracked := true } :: rest ∧
            (t.part.cameras.nth k).held = none ∧ (t.part.cameras.nth k).cfg = c.settled ∧
            t.part.cues = tallied t.part.cameras s.part.cues ∧ ((t.part.cameras.nth k).slot r.slot).state = .filling ∧
            (t.part.cameras.nth k).counter = c.counter + 1) ∧
          (∀ st, (c.slot r.slot).stamp = some st →
            let published : Part := { s.part with
              now := s.part.now + dt
              rings := s.part.rings.upd k fun g => { g with index := g.index.map fun x => if x.number = r.number then
                (match x.body with
                  | .opening start _ => { x with body := .published start (done.header + done.spent) done.quantizer done.overFlag }
                  | _ => x) else x } }
            let home : Part := if st.live then published.makeItem (.livePicture k r.number) else published
            t.part.sender = home.sender ∧ t.part.rings = home.rings ∧ t.part.cmd = home.cmd ∧
            (∀ e start len, (s.part.rings.nth k).find r.number = some e → e.body = .opening start len →
              ∃ x, (t.part.rings.nth k).find r.number = some x ∧ (st.live = false → x.sends = e.sends) ∧
                (st.live = true → e.sends < 65535 → (s.part.sender.queueOf .live).length < 32 →
                  (∀ it, it ∈ s.part.sender.items → it.queued = true → it.kind ≠ .livePicture k r.number) →
                  x.sends = e.sends + 1)) ∧
            (st.live = false → t.part.sender = s.part.sender) ∧
            (∀ e start len, st.live = true → (s.part.rings.nth k).find r.number = some e → e.body = .opening start len →
              e.sends < 65535 → (s.part.sender.queueOf .live).length < 32 →
              ∃ it, it ∈ t.part.sender.items ∧ it.queued = true ∧ it.kind = .livePicture k r.number ∧
                it.length = done.header + done.spent ∧ it.dispatched = 0))))))

/-- FIND PICTURE (R94): it names a record by number, or the newest record by timecode, and changes nothing; the completion
carries the record and the index's ends in the layout of 12.2, DONE, or the ends alone, NOT FOUND. That a presence byte above
1 is BAD FIELD is the model's reading (assumption 11); that a ring start of 2^32 or more is given by its low 32 bits is its
choice (assumption 42). -/
def Obligations.FindPictureReadsTheIndex : Prop :=
  ∀ (s : State) (i : Nat) (tag : Word) (camera byNumber : Byte) (number : Word) (byTimecode ff ss mm hh : Byte),
    s.taken i (.findPicture tag camera byNumber number byTimecode ff ss mm hh) →
    let run := exec (.findPicture tag camera byNumber number byTimecode ff ss mm hh) s
    let t := timecodeOf ff ss mm hh
    let legal := camera.toNat ≤ 7 ∧ (byNumber = 1 ∧ byTimecode = 0 ∨
      byNumber = 0 ∧ byTimecode = 1 ∧ t.hh ≤ 23 ∧ t.mm ≤ 59 ∧ t.ss ≤ 59 ∧ t.ff ≤ s.part.clock.rate.last)
    (¬ legal → run = .next (s.refuses i tag .badField)) ∧
    (legal → ∀ k : Fin 8, camera.toNat = k.val →
      let ring := s.part.rings.nth k
      let wanted (e : PictureRecord) : Bool := if byNumber = 1 then e.number == number else e.timecode == t
      let cut (start len : Nat) : List Byte := leBytes 8 (ring.base + start) ++ leBytes 4 start ++ leBytes 4 len
      let fields (e : PictureRecord) : List Byte :=
        leBytes 4 e.number.toNat ++ leBytes 1 e.timecode.ff ++ leBytes 1 e.timecode.ss ++ leBytes 1 e.timecode.mm ++
        leBytes 1 e.timecode.hh ++ leBytes 4 e.block.toNat ++
        (match e.body with
          | .opening start len => [0, 0, 0, 0] ++ cut start len
          | .published start len q overFlag => [1, 0] ++ leBytes 1 q ++ [if overFlag then 1 else 0] ++ cut start len
          | .gap .torn => [2, 0, 0, 0] ++ zeros 16
          | .gap .cut => [2, 1, 0, 0] ++ zeros 16
          | .gap .stopped => [2, 2, 0, 0] ++ zeros 16
          | .gap .queueFull => [2, 3, 0, 0] ++ zeros 16) ++
        leBytes 2 e.pins ++ leBytes 2 e.sends
      let ends : List Byte := leBytes 2 ring.index.length ++ [0, 0] ++
        (match ring.index.head?, ring.index.getLast? with
          | some oldest, some newest => leBytes 4 oldest.number.toNat ++ leBytes 4 newest.number.toNat
          | _, _ => zeros 8)
      (∀ e, findFields ring.base e = fields e) ∧ findIndex ring.index = ends ∧
      (∀ e older newer, ring.index = older ++ e :: newer → wanted e = true →
        (byNumber = 1 → ∀ x, x ∈ older → wanted x = false) → (byNumber = 0 → ∀ x, x ∈ newer → wanted x = false) →
        run = .next (s.becomes (s.part.answered i tag (fields e ++ ends)))) ∧
      ((∀ e, e ∈ ring.index → wanted e = false) →
        run = .next (s.becomes (s.part.turnedAway i tag .notFound (zeros 36 ++ ends)))))

/-! ## Chapter 5: replay rings -/

/-- Making room (R83, R84): records are retired from the oldest on, only ones that may be retired and each only while the
free bytes are too few; the used bytes fall by the retired records' spaces and by nothing else; it succeeds exactly when the
free bytes then suffice, and touches no other camera's ring; each retirement is reported to the clips in turn (R121), and
nothing else of the part changes.
A picture open that succeeds (R80, R85) takes up the replay window where the ring may, retires the oldest record of a full
index and what the header's room needs, reports each retirement, force-closes the clips the picture would lengthen beyond
their limits (R119), and appends an OPENING record with the slot's stamps at the write point, pinned once for each clip still
OPEN on the camera; the write point and used move by the header's size.
A picture open that fails (R85) leaves its retirements and, where it is CUT, the cut counter and the RING notice; the used
bytes fall by the retired records' spaces alone. That it leaves the ring extent and the write point as they stood is the
model's reading (assumption 36).
A cut or torn picture gives back its ring space (R88, R89): the record becomes a GAP with no pins, the write point
returns to its start and the bytes it used are free again; every other record stands.
That a ring whose extent is absent has 0 bytes free is the model's choice (assumption 46). -/
def Obligations.RingRoomIsMadeAndGivenBack : Prop :=
  (
  ∀ (p q : Part) (k : Fin 8) (n : Nat) (ok : Bool), p.makeRoom k n = (ok, q) →
    ∃ gone : List PictureRecord, (p.rings.nth k).index = gone ++ (q.rings.nth k).index ∧
      (∀ e, e ∈ gone → e.retirable = true) ∧
      q.rings.nth k = { (p.rings.nth k) with
        index := (q.rings.nth k).index
        used := (p.rings.nth k).used - (gone.map PictureRecord.space).sum
        retired := gone.foldl (fun c _ => count c) (p.rings.nth k).retired } ∧
      (∀ g e h, gone = g ++ e :: h → (p.rings.nth k).size - ((p.rings.nth k).used - (g.map PictureRecord.space).sum) < n) ∧
      (ok = true → n ≤ (q.rings.nth k).free) ∧
      (ok = false → (q.rings.nth k).free < n ∧ ∀ e rest, (q.rings.nth k).index = e :: rest → e.retirable = false) ∧
      (n ≤ (p.rings.nth k).free → gone = [] ∧ ok = true) ∧
      (∀ j, j ≠ k → q.rings.nth j = p.rings.nth j) ∧ q.path = p.path ∧ q.cameras = p.cameras ∧ q.coder = p.coder ∧
      q = { (gone.foldl (fun x e => x.reportRetirement k e.number) p) with rings := q.rings }) ∧
  (
  ∀ (p q : Part) (k : Fin 8) (st : Stamp) (n start : Nat), p.openPicture k st n = (.opened start, q) →
    let w := p.path.windows.nth (p.cameras.nth k).cfg.replayWin
    let before := p.rings.nth k
    let r : Ring := if before.extent = some (w.base, w.size) ∨ (before.extent ≠ none ∧ before.occupied = true) then before
      else { before with extent := some (w.base, w.size), writePoint := 0 }
    start = r.writePoint ∧ (∀ x, r.index.getLast? = some x → laterThan st.number x.number = true) ∧
    ∃ gone kept : List PictureRecord, r.index = gone ++ kept ∧ (∀ e, e ∈ gone → e.retirable = true) ∧
      (r.index.length ≤ 4096 → kept.length < 4096) ∧
      (∀ g e h, gone = g ++ e :: h → r.size - (r.used - (g.map PictureRecord.space).sum) < n ∨
        (g = [] ∧ 4096 ≤ r.index.length)) ∧
      let used := r.used - (gone.map PictureRecord.space).sum
      n ≤ r.size - used ∧
      let after : Ring := { r with
        index := kept, used := used, retired := gone.foldl (fun c _ => count c) r.retired }
      let told : Part := { (gone.foldl (fun x e => x.reportRetirement k e.number) p) with rings := p.rings.put k after }
      let pins := (q.clips.table.list.filter fun c => c.any fun c => c.state == .opened && c.cameras.getLsbD k.val).length
      q = { told.forceCloses k st.number with
        rings := p.rings.put k { after with
          index := kept ++ [⟨st.number, st.timecode, st.block, .opening start n, pins, 0⟩]
          writePoint := (start + n) % r.size
          used := used + n } }) ∧
  (
  ∀ (p q : Part) (k : Fin 8) (st : Stamp) (n : Nat) (cause : SettleCause), p.openPicture k st n = (.failed cause, q) →
    ∃ gone : List PictureRecord, (p.rings.nth k).index = gone ++ (q.rings.nth k).index ∧ (∀ e, e ∈ gone → e.retirable = true) ∧
      q.rings.nth k = { (p.rings.nth k) with
        index := (q.rings.nth k).index
        used := (p.rings.nth k).used - (gone.map PictureRecord.space).sum
        retired := gone.foldl (fun c _ => count c) (p.rings.nth k).retired
        cut := if cause = .gap .cut then count (p.rings.nth k).cut else (p.rings.nth k).cut } ∧
      (cause = .gap .cut → (Cause.ring, k.val) ∈ q.cmd.notices) ∧ (cause ≠ .gap .cut → cause = .lost ∧ q = p) ∧
      q.clips = (gone.foldl (fun x e => x.reportRetirement k e.number) p).clips ∧
      (∀ j, j ≠ k → q.rings.nth j = p.rings.nth j) ∧ q.path = p.path ∧ q.cameras = p.cameras ∧ q.coder = p.coder) ∧
  (
  ∀ (p : Part) (k : Fin 8) (n : Word) (g : GapCause) (e : PictureRecord) (start len : Nat),
    (p.rings.nth k).find n = some e → e.body = .opening start len →
    (p.rollBack k n g).rings.nth k = { (p.rings.nth k) with
      index := (p.rings.nth k).index.map fun x => if x.number = n then { x with body := .gap g, pins := 0 } else x
      writePoint := start
      used := (p.rings.nth k).used - len } ∧
    ∀ j, j ≠ k → (p.rollBack k n g).rings.nth j = p.rings.nth j)

/-! ## Chapter 6: sound -/

/-- SET SOURCE (R98): the tests in order; the record takes the fields, the counters are kept, and a change between OFF
and ON clears every fresh flag.
SET BUS (R101): the tests in order; the record takes the fields, and its list, meters and counters are kept. As the bus goes
from IDLE to ACTIVE every block its slot records hold is reported overtaken, in ascending slot, the order the list of records
keeps, each report doing what StaleItemsAndExpiredDescriptorsAreDropped says of `Part.overtaken` (R149), and every slot record
becomes absent; nothing else changes. That a state or send code above 1 is BAD FIELD is the model's reading (assumption 11). -/
def Obligations.SetSourceAndSetBusReplaceTheRecord : Prop :=
  (
  ∀ (s : State) (i : Nat) (tag : Word) (source state window : Byte) (ring : Half) (offset width : Byte),
    s.taken i (.setSource tag source state window ring offset width) →
    let run := exec (.setSource tag source state window ring offset width) s
    let legal := source.toNat ≤ 63 ∧ state.toNat ≤ 1 ∧ window.toNat ≤ 31 ∧ 4 ≤ ring.toNat ∧ ring.toNat ≤ 64 ∧
      offset.toNat < ring.toNat ∧ (width.toNat = 16 ∨ width.toNat = 20 ∨ width.toNat = 24)
    (¬ legal → run = .next (s.refuses i tag .badField)) ∧
    (legal → ∀ (n : Fin 64) (w : Fin 32), source.toNat = n.val → window.toNat = w.val →
      let old := s.part.mixer.sources.nth n
      let win := s.part.path.windows.nth w
      let moved := old.cfg.on = true ∧ state.toNat = 1 ∧ (old.cfg.win ≠ w ∨ old.cfg.ring ≠ ring.toNat)
      let unfit := state.toNat = 1 ∧ ¬ (win.state = .opened ∧ win.kind = .sound ∧ win.subject = n.val)
      (moved → run = .next (s.refuses i tag .state)) ∧
      (¬ moved → unfit → run = .next (s.refuses i tag .badField)) ∧
      (¬ moved → ¬ unfit → run = .next (s.becomes (Part.answered { s.part with mixer := { s.part.mixer with
        sources := s.part.mixer.sources.put n { old with
          cfg := ⟨decide (state.toNat = 1), w, ring.toNat, offset.toNat, width.toNat⟩
          fresh := if old.cfg.on = decide (state.toNat = 1) then old.fresh else 0 } } } i tag []))))) ∧
  (
  ∀ (s : State) (i : Nat) (tag : Word) (bus state window : Byte) (ring master : Half) (send : Byte) (divider : Half),
    s.taken i (.setBus tag bus state window ring master send divider) →
    let run := exec (.setBus tag bus state window ring master send divider) s
    let legal := bus.toNat ≤ 15 ∧ state.toNat ≤ 1 ∧ window.toNat ≤ 31 ∧ 16 ≤ ring.toNat ∧ ring.toNat ≤ 256 ∧
      send.toNat ≤ 1 ∧ 1 ≤ divider.toNat ∧ divider.toNat ≤ 20 ∧ divider.toNat ≤ ring.toNat
    (¬ legal → run = .next (s.refuses i tag .badField)) ∧
    (legal → ∀ (b : Fin 16) (w : Fin 32), bus.toNat = b.val → window.toNat = w.val →
      let old := s.part.mixer.buses.nth b
      let win := s.part.path.windows.nth w
      let cfg : BusSettings := ⟨decide (state.toNat = 1), w, ring.toNat, master.toNat, decide (send.toNat = 1), divider.toNat⟩
      let moved := old.cfg.active = true ∧ (old.cfg.win ≠ w ∨ old.cfg.ring ≠ ring.toNat)
      let unfit := state.toNat = 1 ∧ ¬ (win.state = .opened ∧ win.kind = .programme ∧ win.subject = b.val)
      let full := send.toNat = 1 ∧ old.cfg.send = false ∧
        4 ≤ (s.part.mixer.buses.list.filter fun x => x.cfg.send).length
      (moved → run = .next (s.refuses i tag .state)) ∧
      (¬ moved → unfit → run = .next (s.refuses i tag .badField)) ∧
      (¬ moved → ¬ unfit → full → run = .next (s.refuses i tag .tableFull)) ∧
      (¬ moved → ¬ unfit → ¬ full → ¬ (state.toNat = 1 ∧ old.cfg.active = false) →
        run = .next (s.becomes (Part.answered { s.part with mixer := { s.part.mixer with
          buses := s.part.mixer.buses.put b { old with cfg := cfg } } } i tag []))) ∧
      (¬ moved → ¬ unfit → ¬ full → state.toNat = 1 → old.cfg.active = false →
        let reported : Part := old.slots.foldl (fun p x => Part.overtaken b x.2 p) s.part
        run = .next (s.becomes (Part.answered { reported with mixer := { s.part.mixer with
          buses := s.part.mixer.buses.put b { old with cfg := cfg, slots := [] } } } i tag [])) ∧
        (s.part.sender.distinct →
          reported.path = s.part.path ∧ reported.rings = s.part.rings ∧ reported.clips = s.part.clips))))

/-- SET GAIN and REMOVE SOURCE (R102, R103): an entry of the bus's list takes a target and a step, a new entry enters
at gain 0 at its place in source order while the list has room, and a removed one takes target 0 and the leaving flag. -/
def Obligations.GainCommandsEditTheContributionList : Prop :=
  ∀ s : State,
    (∀ (i : Nat) (tag : Word) (bus source : Byte) (target step : Half), s.taken i (.setGain tag bus source target step) →
      let run := exec (.setGain tag bus source target step) s
      (15 < bus.toNat ∨ 63 < source.toNat ∨ step.toNat = 0 → run = .next (s.refuses i tag .badField)) ∧
      (∀ (b : Fin 16) (n : Fin 64), bus.toNat = b.val → source.toNat = n.val → step.toNat ≠ 0 →
        let r := s.part.mixer.buses.nth b
        let gives (l : List Contribution) := run = .next (s.becomes (Part.answered { s.part with mixer := { s.part.mixer with
          buses := s.part.mixer.buses.put b { r with contributions := l } } } i tag []))
        ((∃ c, c ∈ r.contributions ∧ c.source = n) → gives (r.contributions.map fun c =>
          if c.source = n then { c with target := target.toNat, step := step.toNat, leaving := false } else c)) ∧
        ((∀ c, c ∈ r.contributions → c.source ≠ n) → 32 ≤ r.contributions.length → run = .next (s.refuses i tag .tableFull)) ∧
        ((∀ c, c ∈ r.contributions → c.source ≠ n) → r.contributions.length < 32 → ∃ before after,
          r.contributions = before ++ after ∧ gives (before ++ ⟨n, 0, target.toNat, step.toNat, false⟩ :: after) ∧
          (∀ c, c ∈ before → c.source ≤ n) ∧ ∀ c, after.head? = some c → n < c.source))) ∧
    (∀ (i : Nat) (tag : Word) (bus source : Byte), s.taken i (.removeSource tag bus source) →
      let run := exec (.removeSource tag bus source) s
      (15 < bus.toNat ∨ 63 < source.toNat → run = .next (s.refuses i tag .badField)) ∧
      (∀ (b : Fin 16) (n : Fin 64), bus.toNat = b.val → source.toNat = n.val →
        let r := s.part.mixer.buses.nth b
        ((∀ c, c ∈ r.contributions → c.source ≠ n) → run = .next (s.refuses i tag .notFound)) ∧
        ((∃ c, c ∈ r.contributions ∧ c.source = n) → run = .next (s.becomes (Part.answered { s.part with
          mixer := { s.part.mixer with buses := s.part.mixer.buses.put b { r with contributions := r.contributions.map fun c =>
            if c.source = n then { c with target := 0, leaving := true } else c } } } i tag [])))))

/-- START MIXER, STOP MIXER and its completion (R104, R111).
A pass from its first read to its completion (R107 to R110): each read's samples join the pass and the next read is
offered; after the last, the mix event computes, meters and writes every bus ACTIVE in the snapshot, and overtakes what its
slot held; the writes follow one another; after the last, a bus whose divider comes round hands its item, or counts a short
frame, and leaving entries at gain 0 go. An output sample is the sum of the samples by their gains and then by the master
gain, each time scaled by 16,384 toward minus infinity, and clamped. That only the buses ACTIVE in the snapshot are computed,
metered and written is the model's reading (assumption 27), and so is that the divider test and the blocks of a handed item
take n + 1 as a plain sum (assumption 32). -/
def Obligations.TheMixerStartsAndStopsBetweenPasses : Prop :=
  (
  ∀ s : State,
    let goes (x : MixerState) : Part := { s.part with mixer := { s.part.mixer with state := x } }
    (∀ i tag, s.taken i (.startMixer tag) →
      (¬ s.part.noneOutstanding .stopMixer → exec (.startMixer tag) s = .next (s.refuses i tag .busy)) ∧
      (s.part.noneOutstanding .stopMixer →
        (s.part.mixer.state = .running → exec (.startMixer tag) s = .next (s.refuses i tag .state)) ∧
        (s.part.mixer.state ≠ .running →
          exec (.startMixer tag) s = .next (s.becomes ((goes .running).answered i tag []))))) ∧
    (∀ i tag, s.taken i (.stopMixer tag) →
      (¬ s.part.noneOutstanding .stopMixer → exec (.stopMixer tag) s = .next (s.refuses i tag .busy)) ∧
      (s.part.noneOutstanding .stopMixer →
        (s.part.mixer.state = .stopped → exec (.stopMixer tag) s = .next (s.refuses i tag .state)) ∧
        (s.part.mixer.state ≠ .stopped → s.part.mixer.pass = none →
          exec (.stopMixer tag) s = .next (s.becomes ((goes .stopped).answered i tag []))) ∧
        (s.part.mixer.state ≠ .stopped → s.part.mixer.pass ≠ none →
          exec (.stopMixer tag) s = .next (s.becomes ((goes .stopping).deferring i tag .stopMixer))))) ∧
    (∀ d, s.part.mixer.state = .stopping → s.part.mixer.pass = none → d.kind = .stopMixer → s.part.cmd.awaits d →
      exec .stopMixerComplete s = .next (s.becomes { (goes .stopped) with cmd := s.part.cmd.completed d }))) ∧
  (
  ∀ (s : State) (dt : Nat) (q : Request) (x : Pass), s.streaming mixerStream q → s.part.mixer.pass = some x →
    let freed := s.part.path.freed
    let ends (y : Pass) (r : Request) := ∃ t, exec (.transferComplete dt) s = .next t ∧ t.part = { s.part with
      now := s.part.now + dt
      mixer := { s.part.mixer with pass := some y }
      path := freed.offering mixerStream r }
    let data := s.returned q.kind q.line q.count
    let got (n : Fin 64) : List Int := (List.range 48).map fun i =>
      sampleOf (x.sources.nth n).cfg.width (BitVec.ofNat 32 (leNat ((data.drop (4 * i)).take 4)))
    let conf (b : Fin 16) := (x.buses.nth b).cfg
    (∀ n k m l more, x.phase = .reading → x.toRead = (n, k) :: (m, l) :: more →
      let a := (x.sources.nth m).base + 192 * l
      ends { x with samples := x.samples ++ [(n, got n)], toRead := (m, l) :: more }
        ⟨.read, a / 64, (a % 64 + 192 + 63) / 64, []⟩) ∧
    (∀ n k first others, x.phase = .reading → x.toRead = [(n, k)] →
      ((List.finRange 16).filter fun b => (conf b).active) = first :: others →
      let samples := x.samples ++ [(n, got n)]
      let block (b : Fin 16) : List Int := (List.range 48).map (mixSample (x.buses.nth b).gains samples (conf b).master)
      let clamped (b : Fin 16) := (block b).map clampSample
      let slot (b : Fin 16) := x.block.toNat % (conf b).ring
      let at' (b : Fin 16) := (x.buses.nth b).base + 192 * slot b
      let bytes (b : Fin 16) : List Byte := (clamped b).flatMap fun v => leBytes 4 (sampleWord v).toNat
      ∃ t, exec (.transferComplete dt) s = .next t ∧ t.part.mixer.sources = s.part.mixer.sources ∧
        t.part.mixer.pass = some { x with
          phase := .writing, samples := samples, toRead := [], toWrite := (first :: others).map fun b => (at' b, bytes b) } ∧
        t.part.path = freed.offering mixerStream (writeRequest (at' first) (bytes first)) ∧
        (∀ b, (conf b).active = false → t.part.mixer.buses.nth b = s.part.mixer.buses.nth b) ∧
        (∀ b, (conf b).active = true → ∃ slots, slotRecord slots (slot b) = some x.block ∧
          (∀ y, y ≠ slot b → slotRecord slots y = slotRecord (s.part.mixer.buses.nth b).slots y) ∧
          t.part.mixer.buses.nth b = { (s.part.mixer.buses.nth b) with
            slots := slots
            peak := (clamped b).foldl (fun m v => max m v.natAbs) (s.part.mixer.buses.nth b).peak
            clips := min ((s.part.mixer.buses.nth b).clips + ((block b).filter fun v => clampSample v != v).length) 65535 }) ∧
        (∀ b m it, (conf b).active = true → slotRecord (s.part.mixer.buses.nth b).slots (slot b) = some m →
          it ∈ t.part.sender.items → it.coversBlock b m = true → it.queued = false ∧ it.failed = true) ∧
        ((∀ b, (conf b).active = true → slotRecord (s.part.mixer.buses.nth b).slots (slot b) = none) →
          t.part.sender = s.part.sender)) ∧
    (∀ w a bs more, x.phase = .writing → x.toWrite = w :: (a, bs) :: more →
      ends { x with toWrite := (a, bs) :: more } (writeRequest a bs)) ∧
    (x.phase = .writing → x.toWrite.length ≤ 1 →
      let n := x.block.toNat
      let sends (b : Fin 16) := (conf b).active = true ∧ (conf b).send = true ∧ (s.part.mixer.buses.nth b).cfg.active = true ∧
        (s.part.mixer.buses.nth b).cfg.send = true ∧ (n + 1) % (conf b).divider = 0
      let holds (b : Fin 16) := ∀ i, i < (conf b).divider →
        slotRecord (s.part.mixer.buses.nth b).slots ((n + 1 - (conf b).divider + i) % (conf b).ring) =
          some (BitVec.ofNat 32 (n + 1 - (conf b).divider + i))
      ∃ t, exec (.transferComplete dt) s = .next t ∧ t.part.path = freed ∧ t.part.mixer.pass = none ∧
        t.part.mixer.state = s.part.mixer.state ∧ t.part.mixer.sources = s.part.mixer.sources ∧
        t.part.mixer.lateTicks = s.part.mixer.lateTicks ∧
        ∀ b : Fin 16,
          let kept : Bus := { (s.part.mixer.buses.nth b) with
            contributions := (s.part.mixer.buses.nth b).contributions.filter fun y => !(y.leaving && y.current == 0) }
          (¬ sends b → t.part.mixer.buses.nth b = kept) ∧
          (sends b → ¬ holds b → t.part.mixer.buses.nth b = { kept with shortFrames := count kept.shortFrames }) ∧
          (sends b → holds b → t.part.mixer.buses.nth b = { kept with itemsHanded := count kept.itemsHanded } ∧
            ((s.part.sender.queueOf .audio).length + 16 ≤ 32 → ∃ it, it ∈ t.part.sender.items ∧ it.queued = true ∧
              it.kind = .audioFrame b (BitVec.ofNat 32 (n + 1 - (conf b).divider)) (conf b).divider (x.buses.nth b).base
                (conf b).ring ∧ it.length = 192 * (conf b).divider)))) ∧
  (∀ (gains : List (Fin 64 × Nat)) (samples : List (Fin 64 × List Int)) (master i : Nat),
    mixSample gains samples master i = ((gains.map fun g =>
      match samples.find? fun y => y.1 == g.1 with
      | some y => y.2.getD i 0 * (g.2 : Int)
      | none => 0).sum / 16384 * (master : Int)) / 16384)

/-- A pass's start (R106): a source in the list of an ACTIVE bus gives its fresh slot, or is late; an ON source that no
ACTIVE bus lists has its slot drained; an OFF source is untouched. The slot is the plain sum of block number and offset
modulo the ring, the model's reading at the wrap of the block number (assumption 32).
Every contribution of every bus ramps; the snapshot holds each bus's settings, window base and gains after the ramp, and
each source's settings and window base; the plan names the used sources in ascending number, each late one notified; the
first planned read is offered (R107). With none planned, the mix event follows at once: every block is silent, the buses
ACTIVE in the snapshot are written, or, with none ACTIVE, the pass completes. That only those are metered and written is
the model's reading (assumption 27).
A block written (R99): a performed WRITE that covers the last line of a slot of an ON source's ring sets the slot's fresh
flag, or is an overrun, counted and notified, where the flag is set already. That a write in a SOUND window which the
source's record does not name changes nothing is the model's reading (assumption 14).
Samples and gains (R96, R106, R108): a sample is its word's value at the width, a written word reads back as its
sample, the clamp keeps the range, and a ramp moves the current gain by its step toward the target and never past it. -/
def Obligations.APassTakesFreshSlotsAndSamplesStayInRange : Prop :=
  (
  ∀ (p : Part) (n : Word) (x : Fin 64),
    let r := p.mixer.sources.nth x
    let t := (p.startPass n).mixer.sources.nth x
    let k := (n.toNat + r.cfg.offset) % r.cfg.ring
    let used := ∃ b : Fin 16, (p.mixer.buses.nth b).cfg.active = true ∧ ∃ c, c ∈ (p.mixer.buses.nth b).contributions ∧ c.source = x
    (r.cfg.on = false → t = r) ∧
    (r.cfg.on = true → used → r.fresh.getLsbD k = true → t = { r with fresh := clearFresh r.fresh k }) ∧
    (r.cfg.on = true → used → r.fresh.getLsbD k = false → t = { r with late := count r.late }) ∧
    (r.cfg.on = true → ¬ used → t = { r with fresh := clearFresh r.fresh k })) ∧
  (
  ∀ (p : Part) (n : Word),
    let q := p.startPass n
    let bus (b : Fin 16) := p.mixer.buses.nth b
    let src (x : Fin 64) := p.mixer.sources.nth x
    let base (w : Fin 32) := (p.path.windows.nth w).base
    let slot (x : Fin 64) := (n.toNat + (src x).cfg.offset) % (src x).cfg.ring
    let fresh (x : Fin 64) : Bool := (src x).fresh.getLsbD (slot x)
    let used (x : Fin 64) : Bool := (src x).cfg.on &&
      (List.finRange 16).any fun b => (bus b).cfg.active && (bus b).contributions.any fun c => c.source == x
    let plan := ((List.finRange 64).filter used).map fun x => (x, slot x, fresh x)
    let reads := ((List.finRange 64).filter fun x => used x && fresh x).map fun x => (x, slot x)
    let active := (List.finRange 16).filter fun b => (bus b).cfg.active
    let ramped (b : Fin 16) : Bus := { (bus b) with contributions := (bus b).contributions.map Contribution.ramped }
    let at' (b : Fin 16) := base (bus b).cfg.win + 192 * (n.toNat % (bus b).cfg.ring)
    let writes := active.map fun b => (at' b, zeros 192)
    let snapshot (y : Pass) := (∀ b, y.buses.nth b =
        ⟨(bus b).cfg, base (bus b).cfg.win, (bus b).contributions.map fun c => (c.source, c.ramped.current)⟩) ∧
      ∀ x, y.sources.nth x = ⟨(src x).cfg, base (src x).cfg.win⟩
    q.mixer.state = p.mixer.state ∧ q.mixer.lateTicks = p.mixer.lateTicks ∧
    (∀ x, used x = true → fresh x = false → (Cause.mix, x.val) ∈ q.cmd.notices) ∧
    (∀ x k others, reads = (x, k) :: others → ∃ y, q.mixer.pass = some y ∧ snapshot y ∧ y.block = n ∧ y.phase = .reading ∧
      y.plan = plan ∧ y.toRead = reads ∧ y.samples = [] ∧ y.toWrite = [] ∧
      (let a := base (src x).cfg.win + 192 * k
       q.path = p.path.offering mixerStream ⟨.read, a / 64, (a % 64 + 192 + 63) / 64, []⟩) ∧
      (∀ b, q.mixer.buses.nth b = ramped b) ∧ q.sender = p.sender ∧
      ((∀ z, used z = true → fresh z = true) → q.cmd = p.cmd)) ∧
    (reads = [] → active = [] → q.mixer.pass = none ∧ q.path = p.path ∧ q.sender = p.sender ∧
      ∀ b, q.mixer.buses.nth b = { (ramped b) with
        contributions := (ramped b).contributions.filter fun c => !(c.leaving && c.current == 0) }) ∧
    (∀ first others, reads = [] → active = first :: others → ∃ y, q.mixer.pass = some y ∧ snapshot y ∧ y.block = n ∧
      y.phase = .writing ∧ y.plan = plan ∧ y.toRead = [] ∧ y.samples = [] ∧ y.toWrite = writes ∧
      q.path = p.path.offering mixerStream (writeRequest (at' first) (zeros 192)) ∧
      (∀ b, (bus b).cfg.active = false → q.mixer.buses.nth b = ramped b) ∧
      (∀ b, (bus b).cfg.active = true → ∃ slots,
        slotRecord slots (n.toNat % (bus b).cfg.ring) = some n ∧
        (∀ j, j ≠ n.toNat % (bus b).cfg.ring → slotRecord slots j = slotRecord (bus b).slots j) ∧
        q.mixer.buses.nth b = { (ramped b) with slots := slots, clips := min (bus b).clips 65535 }) ∧
      (∀ b m it, (bus b).cfg.active = true → slotRecord (bus b).slots (n.toNat % (bus b).cfg.ring) = some m →
        it ∈ q.sender.items → it.coversBlock b m = true → it.queued = false ∧ it.failed = true) ∧
      ((∀ b, (bus b).cfg.active = true → slotRecord (bus b).slots (n.toNat % (bus b).cfg.ring) = none) →
        q.sender = p.sender))) ∧
  (
  ∀ (s : State) (dt : Nat) (port : Fin 6) (a : Admitted) (w : Fin 32) (n : Fin 64), s.clientWriting port a w →
    let win := s.part.path.windows.nth w
    let x := s.part.mixer.sources.nth n
    let done := s.clientWritten dt port a
    let wrote (k : Nat) : Bool := decide (k < x.cfg.ring) && a.req.covers (win.base + 192 * k + 128) 64
    win.kind = .sound → win.subject = n.val →
    ∃ t, exec (.transferComplete dt) s = .next t ∧
      ((x.cfg.on = false ∨ x.cfg.win ≠ w) → t.part = done) ∧
      (x.cfg.on = true → x.cfg.win = w → x.cfg.ring ≤ 64 → win.base % 64 = 0 →
        t.part.path = done.path ∧ t.part.outputs = done.outputs ∧ t.part.mixer.buses = s.part.mixer.buses ∧
        (∀ m, m ≠ n → t.part.mixer.sources.nth m = s.part.mixer.sources.nth m) ∧
        (t.part.mixer.sources.nth n).cfg = x.cfg ∧ (t.part.mixer.sources.nth n).late = x.late ∧
        (∀ k, k < 64 → (t.part.mixer.sources.nth n).fresh.getLsbD k = (x.fresh.getLsbD k || wrote k)) ∧
        (t.part.mixer.sources.nth n).overruns =
          ((List.range x.cfg.ring).filter fun k => x.fresh.getLsbD k && wrote k).foldl (fun c _ => count c) x.overruns ∧
        ((∃ k, wrote k = true ∧ x.fresh.getLsbD k = true) → (Cause.mix, n.val) ∈ t.part.cmd.notices))) ∧
  (
  (∀ (width : Nat) (w : Word), width = 16 ∨ width = 20 ∨ width = 24 →
    -8388608 ≤ sampleOf width w ∧ sampleOf width w ≤ 8388607 ∧ sampleOf width w ≤ w.toInt / 256 ∧
      w.toInt / 256 - sampleOf width w < 2 ^ (24 - width) ∧ sampleOf width w % 2 ^ (24 - width) = 0) ∧
  (∀ v : Int, -8388608 ≤ clampSample v ∧ clampSample v ≤ 8388607 ∧
    (-8388608 ≤ v → v ≤ 8388607 → clampSample v = v ∧ sampleOf 24 (sampleWord v) = v)) ∧
  (∀ c : Contribution,
    (c.current + c.step ≤ c.target → c.ramped = { c with current := c.current + c.step }) ∧
    (c.target + c.step ≤ c.current → c.ramped = { c with current := c.current - c.step }) ∧
    (c.current ≤ c.target + c.step → c.target ≤ c.current + c.step → c.ramped = { c with current := c.target })))

/-! ## Chapter 7: clips and labels -/

/-- MARK IN (R116 to R118): the tests in order; the lowest FREE position takes an OPEN clip under the first number after
the last one that no record holds, wrapping from 65,535 to 1; its in points, from the index or, where that is empty, from
the camera's slots and picture counter, and its pins are set on each camera of its set, and the completion gives number and
in points. That a limit presence byte above 1 is BAD FIELD is the model's reading (assumption 11). -/
def Obligations.MarkInOpensAClip : Prop :=
  ∀ (s : State) (i : Nat) (tag : Word) (cameras preroll limitPresent : Byte) (limit : Half) (labels : List Half),
    s.taken i (.markIn tag cameras preroll limitPresent limit labels) →
    let run := exec (.markIn tag cameras preroll limitPresent limit labels) s
    let bound := if limitPresent = 1 then limit.toNat else 3000
    let legal := limitPresent.toNat ≤ 1 ∧ cameras ≠ 0 ∧ preroll.toNat ≤ 250 ∧ 1 ≤ bound ∧ bound ≤ 30000 ∧
      preroll.toNat < bound ∧ labels.length ≤ 8 ∧ (∀ l, l ∈ labels → l ≠ 0) ∧ labels.Nodup
    let refused (r : Result) := run = .next (s.becomes (Part.turnedAway { s.part with
      clips := { s.part.clips with refusedMarks := count s.part.clips.refusedMarks } } i tag r []))
    let anyRunning := ∃ k : Fin 8, cameras.getLsbD k.val = true ∧ (s.part.cameras.nth k).state = .running
    (¬ legal → refused .badField) ∧
    (legal → (∀ pos, s.part.clips.table.nth pos ≠ none) → refused .tableFull) ∧
    (legal → ∀ pos, s.part.clips.table.nth pos = none → (∀ x, x < pos → s.part.clips.table.nth x ≠ none) →
      (¬ anyRunning → refused .state) ∧
      (anyRunning → ∃ t c, run = .next t ∧ t.part.clips.table = s.part.clips.table.put pos (some c) ∧
        (∀ x y, s.part.clips.table.nth x = some y → y.number ≠ c.number) ∧
        (∃ past, past ≤ 128 ∧ c.number = (s.part.clips.lastNumber + past) % 65535 + 1 ∧
          ∀ m, m < past → ∃ x y, s.part.clips.table.nth x = some y ∧ y.number = (s.part.clips.lastNumber + m) % 65535 + 1) ∧
        t.part.clips.lastNumber = c.number ∧ t.part.clips.marks = count s.part.clips.marks ∧ pos ∈ t.part.clips.mirror ∧
        c.state = .opened ∧ c.cameras = cameras ∧ c.preroll = preroll.toNat ∧ c.limit = bound ∧
        c.labels = labels.map (·.toNat) ∧ c.origin = none ∧ c.inTimecode = s.part.clock.timecode ∧
        (∀ k : Fin 8, cameras.getLsbD k.val = true →
          (∀ oldest newest, (s.part.rings.nth k).index.head? = some oldest → (s.part.rings.nth k).index.getLast? = some newest →
            let back := newest.number - BitVec.ofNat 32 preroll.toNat
            c.inPoints.nth k = if atOrAfter back oldest.number then back else oldest.number) ∧
          ((s.part.rings.nth k).index = [] →
            ((∀ n, ¬ (s.part.cameras.nth k).holds n) → c.inPoints.nth k = (s.part.cameras.nth k).counter) ∧
            ((∃ n, (s.part.cameras.nth k).holds n) → (s.part.cameras.nth k).holds (c.inPoints.nth k) ∧
              ∀ n, (s.part.cameras.nth k).holds n → laterThan (c.inPoints.nth k) n = false)) ∧
          (t.part.rings.nth k).index = (s.part.rings.nth k).index.map fun e =>
            if e.pinnable && atOrAfter e.number (c.inPoints.nth k) then { e with pins := e.pins + 1 } else e) ∧
        (∀ k : Fin 8, cameras.getLsbD k.val = false → t.part.rings.nth k = s.part.rings.nth k) ∧
        t.part.cmd.completions = s.part.cmd.completions ++
          [⟨i, tag, .done, padTo 4 (leBytes 2 c.number) ++ pointBytes cameras c.inPoints⟩]))

/-- MARK OUT (R120, R39): an OPEN clip goes to KEPT with the closing points and the timecode of the moment, its
position is to be mirrored, and a cue line whose open clip it was has none. The closing point on a camera (7.1) is the newest
record's number where the index holds one at or after the in point, else one before the in point; outside the set it is 0.
UNPIN and PIN (R122, R123): UNPIN takes a KEPT clip's pins and makes it LOOSE, or LOST where a retirement has
passed an in point; PIN gives a LOOSE clip its pins again; a LOST one is GONE.
DELETE CLIP (R124, R134, R136): the position is FREE, the pins of an OPEN or KEPT clip go, whether or not it is SENDING, no
cue line names it; of a clip that is SENDING no cursor walks on, no item is linked to it afterwards, and every item that was
linked to its position and number has left its class queue, while no other item has joined one.
The opening of a picture force-closes every OPEN clip of the camera whose span would pass its limit (R119), and no other.
A retirement at or after a clip's in point sets its passed flag and makes a LOOSE clip LOST (R121), and touches no other. That
an open makes these force-closes, and making room these reports, stands in RingRoomIsMadeAndGivenBack. -/
def Obligations.ClipsAreKeptUnpinnedPinnedAndDeleted : Prop :=
  (
  ∀ (s : State) (i : Nat) (tag : Word) (clip : Half), s.taken i (.markOut tag clip) →
    (s.part.clipAt clip.toNat = none → exec (.markOut tag clip) s = .next (s.refuses i tag .notFound)) ∧
    (∀ pos c, s.part.clipAt clip.toNat = some (pos, c) →
      (c.state ≠ .opened → exec (.markOut tag clip) s = .next (s.refuses i tag .state)) ∧
      (c.state = .opened → exec (.markOut tag clip) s = .next (s.becomes (Part.answered { s.part with
        clips := { s.part.clips with
          table := s.part.clips.table.put pos
            (some { c with state := .kept, out := some (s.part.closingPoints c, s.part.clock.timecode) })
          mirror := insertPos pos s.part.clips.mirror }
        cues := s.part.cues.each fun l => if l.openClip = some c.number then { l with openClip := none } else l }
        i tag (zeros 4 ++ pointBytes c.cameras (s.part.closingPoints c))))))) ∧
  (
  ∀ (p : Part) (c : Clip) (k : Fin 8),
    let index := (p.rings.nth k).index
    let point := (p.closingPoints c).nth k
    (c.cameras.getLsbD k.val = false → point = 0) ∧
    (c.cameras.getLsbD k.val = true →
      (∀ e newest, e ∈ index → atOrAfter e.number (c.inPoints.nth k) = true → index.getLast? = some newest →
        point = newest.number) ∧
      ((∀ e, e ∈ index → atOrAfter e.number (c.inPoints.nth k) = false) → point = c.inPoints.nth k - 1))) ∧
  (
  ∀ s : State,
    (∀ (i : Nat) (tag : Word) (clip : Half), s.taken i (.unpin tag clip) →
      (s.part.clipAt clip.toNat = none → exec (.unpin tag clip) s = .next (s.refuses i tag .notFound)) ∧
      (∀ pos c, s.part.clipAt clip.toNat = some (pos, c) →
        (c.state ≠ .kept → exec (.unpin tag clip) s = .next (s.refuses i tag .state)) ∧
        (c.state = .kept → ∃ t, exec (.unpin tag clip) s = .next t ∧ pos ∈ t.part.clips.mirror ∧
          t.part.clips.table = s.part.clips.table.put pos (some { c with state := if c.passed = 0 then .loose else .lost }) ∧
          (c.passed ≠ 0 → t.part.clips.lostClips = count s.part.clips.lostClips ∧ (Cause.clip, pos.val) ∈ t.part.cmd.notices) ∧
          (∀ k : Fin 8, (t.part.rings.nth k).index = if c.cameras.getLsbD k.val then
            (s.part.rings.nth k).index.map (PictureRecord.repin (c.inPoints.nth k) (c.out.map fun o => o.1.nth k) (· - 1))
            else (s.part.rings.nth k).index) ∧
          t.part.cmd.completions = s.part.cmd.completions ++ [⟨i, tag, .done, [if c.passed = 0 then 3 else 4]⟩]))) ∧
    (∀ (i : Nat) (tag : Word) (clip : Half), s.taken i (.pin tag clip) →
      (s.part.clipAt clip.toNat = none → exec (.pin tag clip) s = .next (s.refuses i tag .notFound)) ∧
      (∀ pos c, s.part.clipAt clip.toNat = some (pos, c) →
        (c.state = .lost → exec (.pin tag clip) s = .next (s.refuses i tag .gone)) ∧
        (c.state = .opened ∨ c.state = .kept → exec (.pin tag clip) s = .next (s.refuses i tag .state)) ∧
        (c.state = .loose → ∃ t, exec (.pin tag clip) s = .next t ∧ pos ∈ t.part.clips.mirror ∧
          t.part.clips.table = s.part.clips.table.put pos (some { c with state := .kept }) ∧
          (∀ k : Fin 8, (t.part.rings.nth k).index = if c.cameras.getLsbD k.val then
            (s.part.rings.nth k).index.map (PictureRecord.repin (c.inPoints.nth k) (c.out.map fun o => o.1.nth k) (· + 1))
            else (s.part.rings.nth k).index) ∧
          t.part.cmd.completions = s.part.cmd.completions ++ [⟨i, tag, .done, []⟩])))) ∧
  (
  ∀ (s : State) (i : Nat) (tag : Word) (clip : Half), s.taken i (.deleteClip tag clip) →
    (s.part.clipAt clip.toNat = none → exec (.deleteClip tag clip) s = .next (s.refuses i tag .notFound)) ∧
    (∀ pos c, s.part.clipAt clip.toNat = some (pos, c) →
      ∃ t, exec (.deleteClip tag clip) s = .next t ∧ t.part.clips.table = s.part.clips.table.put pos none ∧
        pos ∈ t.part.clips.mirror ∧ t.part.cmd.completions = s.part.cmd.completions ++ [⟨i, tag, .done, []⟩] ∧
        (c.state = .opened → ∀ l, (t.part.cues.nth l).openClip ≠ some c.number) ∧
        (c.send = .sending →
          (∀ x cur, t.part.sender.cursors.nth x = some cur → ¬ (cur.pos = pos ∧ cur.clip = c.number)) ∧
          (∀ it, it ∈ t.part.sender.items → it.linked = true → it.kind.link ≠ some (pos, c.number)) ∧
          (∀ it, it ∈ s.part.sender.items → it.linked = true → it.kind.link = some (pos, c.number) → it.queued = true →
            ∀ x, x ∈ t.part.sender.items → x.id = it.id → x.queued = false) ∧
          (∀ x, x ∈ t.part.sender.items → x.queued = true → ∃ it, it ∈ s.part.sender.items ∧ it.id = x.id ∧ it.kind = x.kind ∧
            it.queued = true ∧ ¬ (it.linked = true ∧ it.kind.link = some (pos, c.number))) ∧
          (∀ k : Fin 8, (t.part.rings.nth k).index.map (fun e => (e.number, e.pins)) =
            (if c.cameras.getLsbD k.val ∧ (c.state = .opened ∨ c.state = .kept) then
              (s.part.rings.nth k).index.map (PictureRecord.repin (c.inPoints.nth k) (c.out.map fun o => o.1.nth k) (· - 1))
            else (s.part.rings.nth k).index).map fun e => (e.number, e.pins))) ∧
        (c.send ≠ .sending → t.part.sender = s.part.sender ∧
          ∀ k : Fin 8, (t.part.rings.nth k).index =
            if c.cameras.getLsbD k.val ∧ (c.state = .opened ∨ c.state = .kept) then
              (s.part.rings.nth k).index.map (PictureRecord.repin (c.inPoints.nth k) (c.out.map fun o => o.1.nth k) (· - 1))
            else (s.part.rings.nth k).index))) ∧
  (
  ∀ (p : Part) (k : Fin 8) (n : Word),
    let q := p.forceCloses k n
    let beyond (c : Clip) := c.state = .opened ∧ c.cameras.getLsbD k.val = true ∧ atOrAfter n (c.inPoints.nth k) = true ∧
      c.limit < (n - c.inPoints.nth k).toNat + 1
    q.rings = p.rings ∧ q.sender = p.sender ∧
    ∀ pos : Fin 128,
      (p.clips.table.nth pos = none → q.clips.table.nth pos = none) ∧
      (∀ c, p.clips.table.nth pos = some c →
        (¬ beyond c → q.clips.table.nth pos = some c) ∧
        (beyond c → q.clips.table.nth pos = some { c with
            state := .kept, forced := true, out := some ((p.closingPoints c).put k (n - 1), p.clock.timecode) } ∧
          pos ∈ q.clips.mirror ∧ (Cause.clip, pos.val) ∈ q.cmd.notices ∧
          ∀ l, (q.cues.nth l).openClip ≠ some c.number))) ∧
  (
  ∀ (p : Part) (k : Fin 8) (n : Word),
    let q := p.reportRetirement k n
    let passes (c : Clip) := c.cameras.getLsbD k.val = true ∧ atOrAfter n (c.inPoints.nth k) = true
    q.rings = p.rings ∧ q.sender = p.sender ∧
    ∀ pos : Fin 128,
      (p.clips.table.nth pos = none → q.clips.table.nth pos = none) ∧
      (∀ c, p.clips.table.nth pos = some c →
        (¬ passes c → q.clips.table.nth pos = some c) ∧
        (passes c → q.clips.table.nth pos = some { c with
            passed := c.passed ||| BitVec.ofNat 8 (2 ^ k.val), state := if c.state = .loose then .lost else c.state } ∧
          (c.passed.getLsbD k.val = false → pos ∈ q.clips.mirror) ∧
          (c.state = .loose → pos ∈ q.clips.mirror ∧ (Cause.clip, pos.val) ∈ q.cmd.notices))))

/-- ADD LABEL and REMOVE LABEL (R125). -/
def Obligations.LabelsAreAddedAndRemoved : Prop :=
  ∀ s : State,
    let edited (pos : Fin 128) (c : Clip) (ls : List Nat) (i : Nat) (tag : Word) := s.becomes (Part.answered { s.part with
      clips := { s.part.clips with
        table := s.part.clips.table.put pos (some { c with labels := ls })
        mirror := insertPos pos s.part.clips.mirror } } i tag [])
    (∀ (i : Nat) (tag : Word) (clip code : Half), s.taken i (.addLabel tag clip code) →
      (code = 0 → exec (.addLabel tag clip code) s = .next (s.refuses i tag .badField)) ∧
      (code ≠ 0 → s.part.clipAt clip.toNat = none → exec (.addLabel tag clip code) s = .next (s.refuses i tag .notFound)) ∧
      (∀ pos c, code ≠ 0 → s.part.clipAt clip.toNat = some (pos, c) →
        (code.toNat ∈ c.labels → exec (.addLabel tag clip code) s = .next (s.refuses i tag .badField)) ∧
        (code.toNat ∉ c.labels → 8 ≤ c.labels.length → exec (.addLabel tag clip code) s = .next (s.refuses i tag .tableFull)) ∧
        (code.toNat ∉ c.labels → c.labels.length < 8 →
          exec (.addLabel tag clip code) s = .next (edited pos c (c.labels ++ [code.toNat]) i tag)))) ∧
    (∀ (i : Nat) (tag : Word) (clip code : Half), s.taken i (.removeLabel tag clip code) →
      (code = 0 → exec (.removeLabel tag clip code) s = .next (s.refuses i tag .badField)) ∧
      (code ≠ 0 → s.part.clipAt clip.toNat = none → exec (.removeLabel tag clip code) s = .next (s.refuses i tag .notFound)) ∧
      (∀ pos c, code ≠ 0 → s.part.clipAt clip.toNat = some (pos, c) →
        (code.toNat ∉ c.labels → exec (.removeLabel tag clip code) s = .next (s.refuses i tag .notFound)) ∧
        (code.toNat ∈ c.labels →
          exec (.removeLabel tag clip code) s = .next (edited pos c (c.labels.filter fun l => l != code.toNat) i tag))))

/-- SEND CLIP (R126, R136): the tests in order; the clip's account starts from 0 with a cursor running for each camera of
its set, in ascending order on the lowest free cursors, and one LABEL item made of its snapshot (12.4), which joins the LABEL
queue, or is dropped, counted and notified, and fails, where that is full; then the cursors step (R137, whose single step
ACursorMakesItsNextPicture gives) and the send is tested for its end (R127). While its LABEL item is queued the clip is
SENDING. -/
def Obligations.SendClipStartsAnAccount : Prop :=
  (
  ∀ (c : Clip) (outs : Table Word 8) (tc : Timecode), c.state = .kept → c.out = some (outs, tc) →
    let stamp (t : Timecode) : List Byte := leBytes 1 t.ff ++ leBytes 1 t.ss ++ leBytes 1 t.mm ++ leBytes 1 t.hh
    let points (t : Table Word 8) : List Byte := (List.finRange 8).flatMap fun k =>
      if c.cameras.getLsbD k.val then leBytes 4 (t.nth k).toNat else zeros 4
    labelSnapshot c =
      [(2 : Byte), 0] ++ leBytes 2 c.number ++ [c.cameras, 0] ++
      leBytes 1 (match c.origin with | none => 8 | some l => l.val) ++
      [if c.forced then 1 else 0] ++ leBytes 1 c.preroll ++ leBytes 1 c.labels.length ++ leBytes 2 c.limit ++ stamp c.inTimecode ++
      [1, 0, 0, 0] ++ stamp tc ++ padTo 16 (c.labels.flatMap fun l => leBytes 2 l) ++ zeros 8 ++
      points c.inPoints ++ points outs ++ zeros 16) ∧
  ∀ (s : State) (i : Nat) (tag : Word) (clip : Half), s.taken i (.sendClip tag clip) →
    let run := exec (.sendClip tag clip) s
    (s.part.clipAt clip.toNat = none → run = .next (s.refuses i tag .notFound)) ∧
    (∀ pos c, s.part.clipAt clip.toNat = some (pos, c) →
      (c.state ≠ .kept → run = .next (s.refuses i tag .state)) ∧
      (∀ outs tc, c.state = .kept → c.out = some (outs, tc) →
        (c.send = .sending → run = .next (s.refuses i tag .state)) ∧
        (c.send ≠ .sending →
          ((s.part.sender.freeCursors.length < (camerasOf c.cameras).length) → run = .next (s.refuses i tag .busy)) ∧
          ((camerasOf c.cameras).length ≤ s.part.sender.freeCursors.length →
            let full := 16 ≤ (s.part.sender.queueOf .label).length
            let account (outstanding failed : Nat) : Clip := { c with
              outstanding := outstanding, failed := failed, skipped := 0, cursors := (camerasOf c.cameras).length, send := .sending }
            let started (x : Clip) (y : Sender) : Part := { s.part.handEmpty with
              clips := { s.part.clips with
                table := s.part.clips.table.put pos (some x), mirror := insertPos pos s.part.clips.mirror }
              sender := y }
            let label : Item :=
              { id := s.part.sender.nextItem, kind := .label pos c.number (labelSnapshot c), queued := true, address := 0,
                ringBase := 0, ringSize := 0, length := (labelSnapshot c).length,
                fragments := ((labelSnapshot c).length + 1023) / 1024, dispatched := 0, settled := 0, failed := false,
                made := s.part.now, stale := s.part.now + 3000000 * (s.part.sender.classes.nth 2).hold, linked := true }
            let goes (p : Part) := run = .next (s.becomes (Part.answered (p.stepCursors.testSendEnd pos) i tag []))
            ∃ cursors : Table (Option Cursor) 8,
              (∀ (n : Nat) (cam x : Fin 8), (camerasOf c.cameras)[n]? = some cam → s.part.sender.freeCursors[n]? = some x →
                cursors.nth x = some ⟨pos, c.number, cam, c.inPoints.nth cam, outs.nth cam, 0⟩) ∧
              (∀ x : Fin 8, (∀ n, n < (camerasOf c.cameras).length → s.part.sender.freeCursors[n]? ≠ some x) →
                cursors.nth x = s.part.sender.cursors.nth x) ∧
              (¬ full → goes (started (account 1 0) { s.part.sender with
                cursors := cursors
                items := s.part.sender.items ++ [label]
                nextItem := s.part.sender.nextItem + 1
                classes := s.part.sender.classes.upd 2 fun r => { r with made := count r.made } })) ∧
              (full → c.cameras ≠ 0 → goes (Part.raise .send 2 (started (account 0 1) { s.part.sender with
                cursors := cursors
                classes := s.part.sender.classes.upd 2 fun r => { r with
                  droppedFull := count r.droppedFull, losses := count r.losses } }))) ∧
              ∃ t x, run = .next t ∧ t.part.clips.table.nth pos = some x ∧ x.number = c.number ∧ x.state = .kept ∧
                (x.send = .sending ∨ x.send = .sent ∨ x.send = .partly) ∧ pos ∈ t.part.clips.mirror ∧
                (¬ full → x.send = .sending ∧ 1 ≤ x.outstanding ∧ x.failed = 0 ∧ label ∈ t.part.sender.items) ∧
                t.part.cmd.completions = s.part.cmd.completions ++ [⟨i, tag, .done, []⟩] ∧
                t.part.path = s.part.path ∧ t.part.lanes = s.part.lanes ∧ t.dram = s.dram))))

/-- The clip list mirror (R128): with no entry write in progress, the lowest pending position leaves the set and the
write of its image (12.4) to its place in the OPEN CLIP LIST window is offered; at the end of the write's transfer none is in
progress. The pending set is an ascending list without repeats: every position, as it stands from power-on, is one, a position
that joins such a list leaves it one, holding that position and those it held, and its head lies below all the others. -/
def Obligations.TheMirrorWritesTheLowestPendingPosition : Prop :=
  (∀ (s : State) (dt : Nat) (q : Request), s.streaming clipsStream q →
    ∃ t, exec (.transferComplete dt) s = .next t ∧ t.part = { s.part with
      now := s.part.now + dt, clips := { s.part.clips with writing := none }, path := s.part.path.freed }) ∧
  ((List.finRange 128).Pairwise (· < ·) ∧ State.reset.part.clips.mirror = List.finRange 128 ∧
    ∀ (pos : Fin 128) (l : List (Fin 128)), l.Pairwise (· < ·) →
      (insertPos pos l).Pairwise (· < ·) ∧ (∀ x, x ∈ insertPos pos l ↔ x = pos ∨ x ∈ l) ∧
      (∀ first rest, l = first :: rest → rest.Pairwise (· < ·) ∧ ∀ x, x ∈ rest → first < x)) ∧
  ∀ s : State,
    ((s.part.clips.writing ≠ none ∨ s.part.clips.mirror = [] ∨
      ∀ w, ¬ ((s.part.path.windows.nth w).state = .opened ∧ (s.part.path.windows.nth w).kind = .clipList)) →
      exec .mirrorWriteStart s = .next s) ∧
    (∀ pos rest w, s.part.clips.writing = none → s.part.clips.mirror = pos :: rest →
      s.part.path.openOf .clipList = some w → s.part.path.streamIdle clipsStream = true →
      exec .mirrorWriteStart s = .next (s.becomes { s.part with
        clips := { s.part.clips with mirror := rest, writing := some pos }
        path := s.part.path.offering clipsStream
          (writeRequest ((s.part.path.windows.nth w).base + 256 * pos.val) (entryImage (s.part.clips.table.nth pos))) })) ∧
    entryImage none = zeros 256 ∧
    (∀ c : Clip,
      let stamp (t : Timecode) : List Byte := leBytes 1 t.ff ++ leBytes 1 t.ss ++ leBytes 1 t.mm ++ leBytes 1 t.hh
      let points (t : Table Word 8) : List Byte := (List.finRange 8).flatMap fun k =>
        if c.cameras.getLsbD k.val then leBytes 4 (t.nth k).toNat else zeros 4
      entryImage (some c) =
        leBytes 1 (match c.state with | .opened => 1 | .kept => 2 | .loose => 3 | .lost => 4) ++
        leBytes 1 (match c.send with | .unsent => 0 | .sending => 1 | .sent => 2 | .partly => 3) ++ leBytes 2 c.number ++
        [c.cameras, c.passed] ++ leBytes 1 (match c.origin with | none => 8 | some l => l.val) ++
        [if c.forced then 1 else 0] ++ leBytes 1 c.preroll ++ leBytes 1 c.labels.length ++ leBytes 2 c.limit ++
        stamp c.inTimecode ++ (match c.out with | none => zeros 8 | some (_, t) => [1, 0, 0, 0] ++ stamp t) ++
        padTo 16 (c.labels.flatMap fun l => leBytes 2 l) ++
        leBytes 2 c.outstanding ++ leBytes 2 c.failed ++ leBytes 2 c.skipped ++ leBytes 1 c.cursors ++ [0] ++
        points c.inPoints ++ (match c.out with | none => zeros 32 | some (outs, _) => points outs) ++ zeros 144)

/-! ## Chapter 8: the send engine -/

/-- An item still queued at its stale time is dropped (R135): it leaves its class queue, the class's dropped-stale and loss
counters rise and the SEND notice is raised; any other item is left alone.
An unsettled descriptor's expiry (R148): in BUILDING and TRANSMITTING it is marked, in any other state it is removed; its
class's expired and loss counters rise and the SEND notice is raised.
A block overtaken (R149): every AUDIO FRAME item of the bus that covers it leaves its queue and fails, counted overtaken and
lost; its descriptor in BUILDING is marked DROPPED, those WAITING are removed, and the others are sent no more than once;
every other item and descriptor stands.
What the drop of an item's undispatched fragments and the settlement of a descriptor make of the whole part is
`Part.itemDropped` and `Part.settles` (R134, R142): an item with no fragment left to wait for ends, its send reference
released (R92), the finished or failed counter of its class risen, the clip controller told (R127) and the cursor that made it
counting one fewer outstanding, and it is removed; an item that waits counts the settled fragment. An overtaken item, an AUDIO
FRAME, holds no reference and no clip link; it ends failed where every fragment it dispatched is settled by then. That the
overtaken and loss counters rise for every covering item at every report, also for one an earlier report found, is the model's
reading (assumption 18). -/
def Obligations.StaleItemsAndExpiredDescriptorsAreDropped : Prop :=
  (
  ∀ (s : State) (id : Nat),
    (s.part.sender.item id = none → exec (.itemStale id) s = .next s) ∧
    (∀ it, s.part.sender.item id = some it →
      (it.queued = false → exec (.itemStale id) s = .next s) ∧
      (it.queued = true → exec (.itemStale id) s = .next (s.becomes (Part.itemDropped it (Part.raise .send it.kind.cls.index.val
        { s.part with
          now := max s.part.now it.stale
          sender := { s.part.sender with classes := s.part.sender.classes.upd it.kind.cls.index fun r =>
            { r with droppedStale := count r.droppedStale, losses := count r.losses } } })))) ∧
      (it.queued = true → ∃ t, exec (.itemStale id) s = .next t ∧ t.part.now = max s.part.now it.stale ∧
        (∀ x, x ∈ t.part.sender.items → x.id = id → x.queued = false ∧ x.failed = true) ∧
        (it.settled = it.dispatched → ∀ x, x ∈ t.part.sender.items → x.id ≠ id) ∧
        (t.part.sender.classes.nth it.kind.cls.index).droppedStale =
          count (s.part.sender.classes.nth it.kind.cls.index).droppedStale ∧
        (t.part.sender.classes.nth it.kind.cls.index).losses = count (s.part.sender.classes.nth it.kind.cls.index).losses ∧
        (Cause.send, it.kind.cls.index.val) ∈ t.part.cmd.notices ∧
        t.part.sender.store = s.part.sender.store ∧ t.part.lanes = s.part.lanes ∧ t.part.path = s.part.path))) ∧
  (
  ∀ (s : State) (seq : Word),
    (s.part.sender.unsettled seq = none → exec (.descriptorExpiry seq) s = .next s) ∧
    (∀ d, s.part.sender.unsettled seq = some d →
      let settled := Part.settles d .expired { s.part with now := max s.part.now d.expiry }
      exec (.descriptorExpiry seq) s = .next (s.becomes (Part.raise .send d.cls.index.val { settled with
        sender := { settled.sender with classes := settled.sender.classes.upd d.cls.index fun r =>
          { r with expired := count r.expired, losses := count r.losses } } }))) ∧
    (∀ d, s.part.sender.unsettled seq = some d → ∃ t, exec (.descriptorExpiry seq) s = .next t ∧
      t.part.now = max s.part.now d.expiry ∧ t.part.sender.unsettled seq = none ∧
      (t.part.sender.store.filter fun x => x.seq != seq) = (s.part.sender.store.filter fun x => x.seq != seq) ∧
      ((d.state = .queuedOnLane ∨ d.state = .awaitingReceipt ∨ d.state = .waiting) → ∀ x, x ∈ t.part.sender.store → x.seq ≠ seq) ∧
      (d.state = .queuedOnLane → ∀ (l : Fin 4) f, f ∈ (t.part.lanes.nth l).queue → f.kind ≠ .link seq) ∧
      ((d.state = .building ∨ d.state = .transmitting) → ∃ x, x ∈ t.part.sender.store ∧ x.seq = seq ∧ x.mark = some .expired) ∧
      (t.part.sender.classes.nth d.cls.index).expired = count (s.part.sender.classes.nth d.cls.index).expired ∧
      (t.part.sender.classes.nth d.cls.index).losses = count (s.part.sender.classes.nth d.cls.index).losses ∧
      (Cause.send, d.cls.index.val) ∈ t.part.cmd.notices)) ∧
  (
  ∀ (p : Part) (b : Fin 16) (m : Word), p.sender.distinct →
    let q := p.overtaken b m
    let struck := p.sender.items.filter fun it => it.coversBlock b m
    let its (d : Descriptor) := ∃ it, it ∈ struck ∧ it.id = d.item
    (struck = [] → q = p) ∧
    (struck ≠ [] → (Cause.send, 0) ∈ q.cmd.notices) ∧
    (q.sender.classes.nth 0).overtaken = struck.foldl (fun n _ => count n) (p.sender.classes.nth 0).overtaken ∧
    (q.sender.classes.nth 0).losses = struck.foldl (fun n _ => count n) (p.sender.classes.nth 0).losses ∧
    (∀ it, it ∈ q.sender.items → it.coversBlock b m = true → it.queued = false ∧ it.failed = true) ∧
    (∀ it, it ∈ p.sender.items → it.coversBlock b m = true → it.dispatched = it.settled →
      (∀ d, d ∈ p.sender.store → d.item = it.id → d.mark ≠ none) → ∀ x, x ∈ q.sender.items → x.id ≠ it.id) ∧
    (∀ it, it ∈ p.sender.items → it.coversBlock b m = false → it ∈ q.sender.items) ∧
    (∀ d, d ∈ p.sender.store → (¬ its d ∨ d.mark ≠ none) → d ∈ q.sender.store) ∧
    (∀ d, d ∈ p.sender.store → its d → d.mark = none →
      (d.state = .building → { d with mark := some .dropped } ∈ q.sender.store) ∧
      (d.state = .waiting → ∀ x, x ∈ q.sender.store → x.seq ≠ d.seq) ∧
      ((d.state = .queuedOnLane ∨ d.state = .transmitting ∨ d.state = .awaitingReceipt) →
        { d with noResend := true } ∈ q.sender.store)) ∧
    q.rings = p.rings ∧ q.clips = p.clips ∧ q.sender.cursors = p.sender.cursors ∧
    (let dropped (it : Item) := (p.sender.store.filter fun d =>
        d.item == it.id && d.mark.isNone && (d.state == .building || d.state == .waiting)).length
     (∀ it, it ∈ struck → it.settled + dropped it ≤ it.dispatched) →
       (q.sender.classes.nth 0).finished = (p.sender.classes.nth 0).finished ∧
       (q.sender.classes.nth 0).failed =
         (struck.filter fun it => it.settled + dropped it == it.dispatched).foldl (fun n _ => count n) (p.sender.classes.nth 0).failed ∧
       ∀ it, it ∈ struck →
         (it.settled + dropped it = it.dispatched → ∀ x, x ∈ q.sender.items → x.id ≠ it.id) ∧
         (it.settled + dropped it < it.dispatched →
           { it with queued := false, failed := true, settled := it.settled + dropped it } ∈ q.sender.items)))

/-- Cursor steps (R137): with no cursor able to step nothing changes. The one cursor in use, at a published picture it
can take, makes a CLIP PICTURE item of it that joins the CLIP queue; a GAP record before that picture is passed over with no
report, and numbers before the oldest record are each reported skipped. It ends, reported done, where it is past its out
point, where its index is empty or wholly after its out point, those numbers reported skipped, where the next record lies after
its out point, and where the record at its out point is a GAP; the send ends with it if no item is outstanding (R127).
Several cursors that are each able to make an item, with places for all, make one each first, in ascending cursor number.
At its fourth outstanding item a cursor stops: the record's send count has risen by one (R92), the item stands at its queue's
tail, and the cursor has moved past the number or, past its out point, is free.
The making of a picture's item (R132, R133): the LIVE item of the camera that has not begun dispatch gives way, its reference
released and counted replaced; with the queue full the new one is dropped, counted dropped full and lost, and SEND raised; else
the record's send count rises by one and the item joins the tail of its queue with its place, length and stale time fixed. -/
def Obligations.ACursorMakesItsNextPicture : Prop :=
  (
  ∀ s : State,
    ((∀ x c, s.part.sender.cursors.nth x = some c → s.part.cursorMove c = .wait) → exec .cursorStep s = .next s) ∧
    (∀ (x : Fin 8) (c : Cursor) (oldest : PictureRecord),
      s.part.sender.cursors.nth x = some c → (∀ y, y ≠ x → s.part.sender.cursors.nth y = none) →
      laterThan c.next c.outPoint = false → c.outstanding < 4 →
      (s.part.rings.nth c.cam).index.head? = some oldest →
      let account := s.part.clips.table.nth c.pos
      let walked (k : Clip) := k.number = c.clip ∧ k.send = .sending ∧ 1 ≤ k.cursors
      let makes (r : PictureRecord) (skipped : Nat) := ∀ start len q overFlag, r.body = .published start len q overFlag →
        r.sends < 65535 → (s.part.sender.queueOf .clip).length < 16 →
        ∃ t it, exec .cursorStep s = .next t ∧ it ∈ t.part.sender.items ∧ it.queued = true ∧ it.dispatched = 0 ∧
          it.kind = .clipPicture c.pos c.clip x c.cam r.number ∧ it.length = len ∧ it.id = s.part.sender.nextItem ∧
          (∀ k, account = some k → walked k → c.outstanding = 3 → ∃ y, t.part.clips.table.nth c.pos = some y ∧
            y.skipped = (if skipped = 0 then k.skipped else min (k.skipped + skipped) 65535) ∧ y.outstanding = count k.outstanding ∧ y.send = .sending) ∧
          (c.outstanding = 3 →
            t.part.rings = s.part.rings.upd c.cam (Ring.sending · r.number (· + 1)) ∧
            t.part.sender.items = s.part.sender.items ++ [it] ∧
            t.part.sender.cursors = s.part.sender.cursors.put x (if laterThan (r.number + 1) c.outPoint then none
              else some { c with next := r.number + 1, outstanding := 4 })) ∧
          t.part.path = s.part.path ∧ t.part.lanes = s.part.lanes ∧ t.part.cmd.completions = s.part.cmd.completions
      (∀ r before after, atOrAfter c.next oldest.number = true →
        (s.part.rings.nth c.cam).index = before ++ r :: after → (∀ e, e ∈ before → atOrAfter e.number c.next = false) →
        (∀ e, e ∈ before → e.number ≠ r.number) →
        atOrAfter r.number c.next = true → laterThan r.number c.outPoint = false → makes r 0) ∧
      (∀ gap r before after cause, atOrAfter c.next oldest.number = true →
        (s.part.rings.nth c.cam).index = before ++ gap :: r :: after → (∀ e, e ∈ before → atOrAfter e.number c.next = false) →
        atOrAfter gap.number c.next = true → gap.body = .gap cause → laterThan gap.number c.outPoint = false →
        (∀ e, e ∈ before ++ [gap] → atOrAfter e.number (gap.number + 1) = false) →
        atOrAfter (gap.number + 1) oldest.number = true → laterThan (gap.number + 1) c.outPoint = false →
        atOrAfter r.number (gap.number + 1) = true → laterThan r.number c.outPoint = false → makes r 0) ∧
      (atOrAfter c.next oldest.number = false → atOrAfter c.outPoint oldest.number = true →
        laterThan oldest.number c.outPoint = false → makes oldest (oldest.number - c.next).toNat))) ∧
  (
  ∀ (s : State) (x : Fin 8) (c : Cursor),
    s.part.sender.cursors.nth x = some c → (∀ y, y ≠ x → s.part.sender.cursors.nth y = none) →
    let index := (s.part.rings.nth c.cam).index
    let first := index.find? fun e => atOrAfter e.number c.next
    let ends (skipped : Nat) := ∃ t, exec .cursorStep s = .next t ∧
      t.part.sender = { s.part.sender with cursors := s.part.sender.cursors.put x none } ∧ t.part.rings = s.part.rings ∧
      t.part.path = s.part.path ∧ t.part.lanes = s.part.lanes ∧
      ∀ k, s.part.clips.table.nth c.pos = some k → k.number = c.clip → k.send = .sending → 1 ≤ k.cursors →
        let told : Clip := { k with
          cursors := k.cursors - 1, skipped := if skipped = 0 then k.skipped else min (k.skipped + skipped) 65535 }
        let done' := told.cursors = 0 ∧ told.outstanding = 0
        c.pos ∈ t.part.clips.mirror ∧
        (¬ done' → t.part.clips.table = s.part.clips.table.put c.pos (some told)) ∧
        (done' → told.failed = 0 → told.skipped = 0 →
          t.part.clips.table = s.part.clips.table.put c.pos (some { told with send := .sent })) ∧
        (done' → (told.failed ≠ 0 ∨ told.skipped ≠ 0) →
          t.part.clips.table = s.part.clips.table.put c.pos (some { told with send := .partly }) ∧
          (Cause.clip, c.pos.val) ∈ t.part.cmd.notices)
    let numbers := (c.outPoint - c.next).toNat + 1
    (laterThan c.next c.outPoint = true → ends 0) ∧
    (laterThan c.next c.outPoint = false → c.outstanding < 4 →
      (index = [] → ends numbers) ∧
      (∀ oldest, index.head? = some oldest →
        (atOrAfter c.next oldest.number = false → atOrAfter c.outPoint oldest.number = false → ends numbers) ∧
        (∀ r, atOrAfter c.next oldest.number = true → first = some r →
          (laterThan r.number c.outPoint = true → ends 0) ∧
          (∀ cause, r.body = .gap cause → r.number = c.outPoint → ends 0))))) ∧
  (
  ∀ (s : State) (number : Fin 8 → Word),
    let walking := (List.finRange 8).filter fun x => (s.part.sender.cursors.nth x).isSome
    (∀ x c, s.part.sender.cursors.nth x = some c → s.part.cursorMove c = .make (number x)) →
    (s.part.sender.queueOf .clip).length + walking.length ≤ 16 →
    (∀ k e, e ∈ (s.part.rings.nth k).index → e.sends < 65500) →
    ∃ t more, exec .cursorStep s = .next t ∧ t.part.sender.items.map (·.kind) = s.part.sender.items.map (·.kind) ++
      (walking.filterMap fun x => (s.part.sender.cursors.nth x).map fun c => .clipPicture c.pos c.clip x c.cam (number x)) ++ more) ∧
  (
  ∀ (p : Part) (kind : ItemKind) (k : Fin 8) (n : Word), kind.picture = some (k, n) →
    let older := match kind with | .livePicture .. => p.sender.giving k | _ => none
    let left := match older with | some o => p.givesWay o | none => p
    let queue := left.sender.queueOf kind.cls
    let places := match kind.cls with | .audio | .live => 32 | .label | .clip => 16
    (places ≤ queue.length → p.makeItem kind = Part.raise .send kind.cls.index.val { left with sender := { left.sender with
      classes := left.sender.classes.upd kind.cls.index fun r =>
        { r with droppedFull := count r.droppedFull, losses := count r.losses } } }) ∧
    (∀ e start len q overFlag base size, queue.length < places → (left.rings.nth k).find n = some e →
      e.body = .published start len q overFlag → e.sends < 65535 → (left.rings.nth k).extent = some (base, size) →
      p.makeItem kind = left.itemMade kind (base + start) base size len))

/-- The start of a build (R138 to R141): one build at a time; a WAITING descriptor goes first, on the eligible lane with
the fewest bytes in flight, or nothing starts, and one of a LABEL, which needs no read, is built at once; then the next
fragment of the chosen class's head item, under the next sequence number, or nothing where no lane is eligible for it. At a new
frame the item's dispatched count rises, the item leaving its queue at its last fragment; the descriptor, with the fragment's
length, spans and held bytes, is BUILDING on the lane; the chosen class's wait count is 0 and those of the other classes with
an item rise; and the build's first read is offered, or, for a LABEL, the frame is built at once and joins the lane's queue,
beginning there if the lane is idle (R161).
The choices of the send engine (R139, R140): the class furthest past its interval if any is overdue, else the one
with the smallest interval; the eligible lane with the fewest bytes in flight; ties to the lowest number. A class is
chosen whenever a class queue holds an item, and a lane whenever one is eligible.
The SENDER stream's transfers (R141): the bytes read join the frame's payload and the next read is offered; after the last,
a descriptor settled meanwhile is removed, and otherwise the frame joins its lane's transmit queue, where it begins at that
same event if the lane is idle (R161), or waits for another lane where that is not UP. The frame is laid out as 12.5 has
it, its check value over all between marker and check. That a build's read takes at most four
lines, counted from the line of its span's first byte, is the model's choice of cut (assumption 15), and so is that a
fragment index or count above 65,535 is given by its low 16 bits (assumption 47). -/
def Obligations.ABuildStartsOnTheChosenClassAndLane : Prop :=
  (
  ∀ s : State,
    (s.part.sender.build ≠ none → exec .buildStart s = .next s) ∧
    (∀ d rest, s.part.sender.build = none → s.part.sender.redispatch = d :: rest →
      (s.part.laneFor d.frameLength = none → exec .buildStart s = .next s) ∧
      (∀ l r cur left, s.part.laneFor d.frameLength = some l → nextRead d.spans = some (r, cur, left) →
        exec .buildStart s = .next (s.becomes { s.part with
          sender := { s.part.sender with
            store := s.part.sender.store.map fun x => if x.seq = d.seq then { x with state := .building, lane := some l } else x
            build := some ⟨d.seq, l, left, cur, d.held⟩ }
          path := s.part.path.offering senderStream r })) ∧
      (∀ l it, s.part.laneFor d.frameLength = some l → d.spans = [] → s.part.sender.item d.item = some it →
        (s.part.sender.store.find? fun x => x.seq == d.seq) = some d →
        ∃ q, exec .buildStart s = .next (s.becomes q) ∧ Part.begins l { s.part with
          sender := { s.part.sender with
            store := s.part.sender.store.map fun x => if x.seq = d.seq then { x with state := .queuedOnLane, lane := some l } else x
            build := none }
          lanes := s.part.lanes.put l { (s.part.lanes.nth l) with queue := (s.part.lanes.nth l).queue ++
            [⟨.link d.seq, linkFrame s.part.loader.station d it.kind d.held⟩] } } q)) ∧
    (∀ c it queue, s.part.sender.build = none → s.part.sender.redispatch = [] → s.part.sender.store.length < 512 →
      s.part.sender.chooseClass = some c → s.part.sender.queueOf (SendClass.ofIndex c) = it :: queue →
      s.part.laneFor (it.fragmentLength it.dispatched + 32) = none → exec .buildStart s = .next s) ∧
    (∀ c it queue l, s.part.sender.build = none → s.part.sender.redispatch = [] → s.part.sender.store.length < 512 →
      (∀ d, d ∈ s.part.sender.store → d.seq ≠ s.part.sender.seq) →
      s.part.sender.chooseClass = some c → s.part.sender.queueOf (SendClass.ofIndex c) = it :: queue →
      s.part.laneFor (it.fragmentLength it.dispatched + 32) = some l →
      ∃ t d, exec .buildStart s = .next t ∧ t.part.sender.store.map (·.seq) = s.part.sender.store.map (·.seq) ++ [s.part.sender.seq] ∧
        t.part.sender.seq = s.part.sender.seq + 1 ∧ d ∈ t.part.sender.store ∧ d.seq = s.part.sender.seq ∧
        d.item = it.id ∧ d.fragment = it.dispatched ∧ d.lane = some l ∧ d.dispatches = 1 ∧
        d.expiry = s.part.now + 3000000 * (s.part.sender.classes.nth c).hold ∧ d.frameLength = it.fragmentLength it.dispatched + 32 ∧
        (t.part.sender.classes.nth c).wait = 0 ∧
        (∀ e, e ≠ c → s.part.sender.queueOf (SendClass.ofIndex e) ≠ [] →
          (t.part.sender.classes.nth e).wait = count (s.part.sender.classes.nth e).wait)) ∧
    (∀ c it queue l, s.part.sender.build = none → s.part.sender.redispatch = [] → s.part.sender.store.length < 512 →
      s.part.sender.chooseClass = some c → s.part.sender.queueOf (SendClass.ofIndex c) = it :: queue →
      s.part.laneFor (it.fragmentLength it.dispatched + 32) = some l →
      let k := it.dispatched
      let d : Descriptor :=
        { seq := s.part.sender.seq, item := it.id, cls := it.kind.cls, fragment := k, fragments := it.fragments
          spans := it.fragmentSpans k, held := it.fragmentHeld k, frameLength := it.fragmentLength k + 32, lane := some l
          state := .building, mark := none, dispatches := 1
          expiry := s.part.now + 3000000 * (s.part.sender.classes.nth c).hold, noResend := false }
      let started (x : Descriptor) (b : Option Build) : Sender := { s.part.sender with
        items := s.part.sender.items.map fun x =>
          if x.id = it.id then { x with dispatched := x.dispatched + 1, queued := decide (k + 1 < x.fragments) } else x
        classes := Table.make fun e =>
          let r := s.part.sender.classes.nth e
          if e = c then { r with wait := 0 }
          else if s.part.sender.queueOf (SendClass.ofIndex e) ≠ [] then { r with wait := count r.wait } else r
        store := s.part.sender.store ++ [x]
        seq := s.part.sender.seq + 1
        build := b }
      (∀ r cur left, nextRead d.spans = some (r, cur, left) → exec .buildStart s = .next (s.becomes { s.part with
        sender := started d (some ⟨d.seq, l, left, cur, d.held⟩)
        path := s.part.path.offering senderStream r })) ∧
      (d.spans = [] → s.part.sender.item it.id = some it → (∀ x, x ∈ s.part.sender.store → x.seq ≠ d.seq) →
        ∃ q, exec .buildStart s = .next (s.becomes q) ∧ Part.begins l { s.part with
          sender := started { d with state := .queuedOnLane } none
          lanes := s.part.lanes.put l { (s.part.lanes.nth l) with queue := (s.part.lanes.nth l).queue ++
            [⟨.link d.seq, linkFrame s.part.loader.station d it.kind d.held⟩] } } q)) ∧
    (∀ (it : Item) (k : Nat),
      let n := it.fragmentLength k
      let o := (it.address - it.ringBase + 1024 * k) % it.ringSize
      n = min 1024 (it.length - 1024 * k) ∧
      (∀ pos clip snapshot, it.kind = .label pos clip snapshot →
        it.fragmentSpans k = [] ∧ it.fragmentHeld k = (snapshot.drop (1024 * k)).take 1024) ∧
      ((∀ pos clip snapshot, it.kind ≠ .label pos clip snapshot) → it.fragmentHeld k = [] ∧
        it.fragmentSpans k = if o + n ≤ it.ringSize then [(it.ringBase + o, n)]
          else [(it.ringBase + o, it.ringSize - o), (it.ringBase, o + n - it.ringSize)])) ∧
    ((s.part.sender.build = none ∧ s.part.sender.redispatch = [] ∧
      (512 ≤ s.part.sender.store.length ∨ s.part.sender.chooseClass = none)) → exec .buildStart s = .next s)) ∧
  (
  (∀ (x : Sender) (c : Fin 4), x.queueOf (SendClass.ofIndex c) ≠ [] → ∃ d, x.chooseClass = some d) ∧
  (∀ (p : Part) (n : Nat) (m : Fin 4),
    (p.eligible m n = true ↔ (p.lanes.nth m).state = .up ∧ (p.lanes.nth m).modemHold = false ∧ (p.counted m).length < 8 ∧
      p.inFlightBytes m + n ≤ 1024 * (p.lanes.nth m).cfg.window) ∧
    (p.eligible m n = true → ∃ l, p.laneFor n = some l)) ∧
  (∀ (x : Sender) (c : Fin 4), x.chooseClass = some c →
    let busy (d : Fin 4) := x.queueOf (SendClass.ofIndex d) ≠ []
    let excess (d : Fin 4) : Int := (x.classes.nth d).wait - (x.classes.nth d).interval
    busy c ∧
    ((∃ d, busy d ∧ 0 ≤ excess d) → 0 ≤ excess c ∧
      ∀ d, busy d → excess d < excess c ∨ (excess d = excess c ∧ c ≤ d)) ∧
    ((∀ d, busy d → excess d < 0) → ∀ d, busy d →
      (x.classes.nth c).interval < (x.classes.nth d).interval ∨ ((x.classes.nth c).interval = (x.classes.nth d).interval ∧ c ≤ d))) ∧
  (∀ (p : Part) (n : Nat) (l : Fin 4), p.laneFor n = some l →
    (p.lanes.nth l).state = .up ∧ (p.lanes.nth l).modemHold = false ∧ (p.counted l).length < 8 ∧
    p.inFlightBytes l + n ≤ 1024 * (p.lanes.nth l).cfg.window ∧
    ∀ m, p.eligible m n = true → p.inFlightBytes l < p.inFlightBytes m ∨ (p.inFlightBytes l = p.inFlightBytes m ∧ l ≤ m))) ∧
  (
  ∀ (s : State) (dt : Nat) (q : Request) (b : Build), s.streaming senderStream q → s.part.sender.build = some b →
    let got := b.got ++ ((s.returned q.kind q.line q.count).drop (b.current.1 % 64)).take b.current.2
    let ends (x : Sender) (l : Table Lane 4) (y : Path) := ∃ t, exec (.transferComplete dt) s = .next t ∧ t.part =
      { s.part with now := s.part.now + dt, sender := x, lanes := l, path := y }
    let store (f : Descriptor → Descriptor) : Sender := { s.part.sender with
      build := none, store := s.part.sender.store.map fun x => if x.seq = b.seq then f x else x }
    let lane := s.part.lanes.nth b.lane
    (∀ r cur left, nextRead b.reads = some (r, cur, left) →
      ends { s.part.sender with build := some { b with reads := left, current := cur, got := got } } s.part.lanes
        (s.part.path.freed.offering senderStream r)) ∧
    (∀ d, b.reads = [] → (s.part.sender.store.find? fun x => x.seq == b.seq) = some d →
      (d.mark ≠ none → ends { s.part.sender with
        build := none, store := s.part.sender.store.filter fun x => x.seq != b.seq } s.part.lanes s.part.path.freed) ∧
      (d.mark = none → lane.state ≠ .up →
        ends (store fun x => { x with state := .waiting, lane := none }) s.part.lanes s.part.path.freed) ∧
      (∀ it, d.mark = none → lane.state = .up → s.part.sender.item d.item = some it →
        ∃ t, exec (.transferComplete dt) s = .next t ∧ Part.begins b.lane { s.part with
          now := s.part.now + dt
          sender := store fun x => { x with state := .queuedOnLane }
          lanes := s.part.lanes.put b.lane { lane with
            queue := lane.queue ++ [⟨.link b.seq, linkFrame s.part.loader.station d it.kind got⟩] }
          path := s.part.path.freed } t.part))) ∧
  (
  ∀ (station : Nat) (d : Descriptor) (kind : ItemKind) (fragment : List Byte),
    let identity : List Byte := match kind with
      | .audioFrame bus first blocks _ _ => leBytes 1 bus.val ++ zeros 3 ++ leBytes 4 first.toNat ++ leBytes 1 blocks ++ zeros 3
      | .livePicture cam number => leBytes 1 cam.val ++ zeros 3 ++ leBytes 4 number.toNat ++ zeros 4
      | .label _ clip _ => zeros 8 ++ leBytes 2 clip ++ zeros 2
      | .clipPicture _ clip _ cam number => leBytes 1 cam.val ++ zeros 3 ++ leBytes 4 number.toNat ++ leBytes 2 clip ++ zeros 2
    let covered : List Byte := leBytes 1 0 ++ leBytes 1 (match d.cls with | .audio => 0 | .live => 1 | .label => 2 | .clip => 3) ++
      leBytes 1 station ++
      leBytes 1 d.dispatches ++ leBytes 2 fragment.length ++ leBytes 4 d.seq.toNat ++ leBytes 2 d.fragment ++
      leBytes 2 d.fragments ++ identity ++ fragment
    linkFrame station d kind fragment = [0xC3, 0x3C] ++ covered ++ leBytes 4 (crc covered).toNat)

/-- Return messages taken from a lane's FIFO (R144 to R147): the head leaves it and its place is free; one for another station
is only counted; a RECEIPT settles every unsettled descriptor of its range, or is wide; the numbers of its range are acted on
in ascending order, each a receipt or, where no unsettled descriptor carries it, stale, and counted so; a settled descriptor
keeps its place in BUILDING and TRANSMITTING with the mark RECEIPTED and is removed in any other state, and its item counts
the fragment and ends at the last (`Part.receipted`: R134, R142, R145); a RESEND sends an AWAITING descriptor back to WAITING
at most twice more; a LANE TEST is echoed on its own lane while that is eligible, the echo beginning at once if the lane is
idle (R161), and else only counted. An ECHO frame is laid out as 12.5 has it; that its header fields but kind, station and
token are zero is the model's choice (assumption 21). -/
def Obligations.AReturnMessageIsActedOn : Prop :=
  (
  ∀ (station : Nat) (token : Word),
    let covered : List Byte := [1, 0] ++ leBytes 1 station ++ zeros 3 ++ leBytes 4 token.toNat ++ zeros 16 ++ zeros 32
    echoFrame station token = [0xC3, 0x3C] ++ covered ++ leBytes 4 (crc covered).toNat) ∧
  ∀ (s : State) (l : Fin 4) (m : ReturnMessage) (rest : List ReturnMessage), (s.part.lanes.nth l).fifo = m :: rest →
    let lane := s.part.lanes.nth l
    let taken : Part := { s.part with lanes := s.part.lanes.put l { lane with
      fifo := rest, returnHold := if lane.cfg.policy = .holdOff then false else lane.returnHold } }
    let counting (f : SendCounters → SendCounters) := s.becomes { taken with
      sender := { s.part.sender with counts := f s.part.sender.counts } }
    let mine := m.station = s.part.loader.station ∨ m.station = 0
    let cmd : Instr := match m.body with | .receipt .. => .receipt l | .resend .. => .resend l | .laneTest .. => .laneTest l
    (¬ mine → exec cmd s = .next (counting fun c => { c with otherStation := count c.otherStation })) ∧
    (mine → ∀ first last, m.body = .receipt first last →
      (512 ≤ (last - first).toNat + 1 → exec (.receipt l) s = .next (counting fun c => { c with wideReceipts := count c.wideReceipts })) ∧
      ((last - first).toNat + 1 < 512 → ∃ t, exec (.receipt l) s = .next t ∧ (t.part.lanes.nth l).fifo = rest ∧
        (∀ n, n ≤ (last - first).toNat → t.part.sender.unsettled (first + BitVec.ofNat 32 n) = none) ∧
        (t.part.sender.store.filter fun d => decide ((last - first).toNat < (d.seq - first).toNat)) =
          (s.part.sender.store.filter fun d => decide ((last - first).toNat < (d.seq - first).toNat)) ∧
        (let range := (List.range ((last - first).toNat + 1)).map fun n => first + BitVec.ofNat 32 n
          let carried := range.filter fun seq => (s.part.sender.unsettled seq).isSome
          let stale := range.filter fun seq => (s.part.sender.unsettled seq).isNone
          t = s.becomes (range.foldl Part.receipted taken) ∧
          t.part.sender.counts = { s.part.sender.counts with
            receipts := carried.foldl (fun n _ => count n) s.part.sender.counts.receipts
            staleReceipts := stale.foldl (fun n _ => count n) s.part.sender.counts.staleReceipts } ∧
          ∀ d, d.seq ∈ range → s.part.sender.unsettled d.seq = some d →
            ((d.state = .building ∨ d.state = .transmitting) → { d with mark := some .receipted } ∈ t.part.sender.store) ∧
            ((d.state = .queuedOnLane ∨ d.state = .awaitingReceipt ∨ d.state = .waiting) →
              ∀ x, x ∈ t.part.sender.store → x.seq ≠ d.seq)) ∧
        (first = last → s.part.sender.unsettled first = none →
          t = counting fun c => { c with staleReceipts := count c.staleReceipts }) ∧
        (first = last → s.part.sender.unsettled first ≠ none →
          t.part.sender.counts = { s.part.sender.counts with receipts := count s.part.sender.counts.receipts }))) ∧
    (mine → ∀ seq, m.body = .resend seq →
      (s.part.sender.unsettled seq = none → exec (.resend l) s = .next (counting fun c => { c with lateResends := count c.lateResends })) ∧
      (∀ d, s.part.sender.unsettled seq = some d →
        (d.state = .awaitingReceipt → d.dispatches < 3 → d.noResend = false → exec (.resend l) s = .next (s.becomes { taken with
          sender := { s.part.sender with
            store := s.part.sender.store.map fun x =>
              if x.seq = seq then { x with state := .waiting, dispatches := x.dispatches + 1 } else x
            counts := { s.part.sender.counts with resends := count s.part.sender.counts.resends } } })) ∧
        (d.state = .awaitingReceipt → (3 ≤ d.dispatches ∨ d.noResend = true) →
          exec (.resend l) s = .next (counting fun c => { c with lateResends := count c.lateResends })) ∧
        (d.state ≠ .awaitingReceipt →
          exec (.resend l) s = .next (counting fun c => { c with duplicateResends := count c.duplicateResends })))) ∧
    (mine → ∀ token, m.body = .laneTest token →
      (taken.eligible l 64 = false → exec (.laneTest l) s = .next (counting fun c => { c with droppedEchoes := count c.droppedEchoes })) ∧
      (taken.eligible l 64 = true → ∃ q, exec (.laneTest l) s = .next (s.becomes q) ∧ Part.begins l { taken with
        lanes := s.part.lanes.put l { (taken.lanes.nth l) with
          queue := lane.queue ++ [⟨.echo token, echoFrame s.part.loader.station token⟩] }
        sender := { s.part.sender with counts := { s.part.sender.counts with echoes := count s.part.sender.counts.echoes } } } q))

/-- SET CLASS and FLUSH CLASS (R150, R151): a class's settings are replaced; every item of the class queue, oldest first, has
its undispatched fragments dropped, and ends where it waits for no fragment (`Part.itemDropped`: R134, R92, R127), the wait count
is 0, and the items are counted flushed and told in the completion. -/
def Obligations.ClassCommandsSetAndFlush : Prop :=
  ∀ s : State,
    (∀ (i : Nat) (tag : Word) (cls : Byte) (interval hold : Half), s.taken i (.setClass tag cls interval hold) →
      let run := exec (.setClass tag cls interval hold) s
      let legal := cls.toNat ≤ 3 ∧ 1 ≤ interval.toNat ∧ interval.toNat ≤ 255 ∧ 1 ≤ hold.toNat ∧ hold.toNat ≤ 60000
      (¬ legal → run = .next (s.refuses i tag .badField)) ∧
      (legal → ∀ c : Fin 4, cls.toNat = c.val → run = .next (s.becomes (Part.answered { s.part with
        sender := { s.part.sender with classes := s.part.sender.classes.put c { (s.part.sender.classes.nth c) with
          interval := interval.toNat, hold := hold.toNat } } } i tag [])))) ∧
    (∀ (i : Nat) (tag : Word) (cls : Byte), s.taken i (.flushClass tag cls) →
      (3 < cls.toNat → exec (.flushClass tag cls) s = .next (s.refuses i tag .badField)) ∧
      (∀ c : Fin 4, cls.toNat = c.val → s.part.sender.distinct →
        let queue := s.part.sender.queueOf (SendClass.ofIndex c)
        let flushed := queue.foldl (fun p it => Part.itemDropped it p) s.part
        exec (.flushClass tag cls) s = .next (s.becomes (Part.answered { flushed with
          sender := { flushed.sender with classes := flushed.sender.classes.upd c fun r =>
            { r with flushed := min (r.flushed + queue.length) 65535, wait := 0 } } } i tag (leBytes 2 queue.length)))) ∧
      (∀ c : Fin 4, cls.toNat = c.val → ∃ t, exec (.flushClass tag cls) s = .next t ∧
        t.part.sender.queueOf (SendClass.ofIndex c) = [] ∧
        (∀ x, x ∈ s.part.sender.items → (∀ y, y ∈ s.part.sender.queueOf (SendClass.ofIndex c) → y.id ≠ x.id) →
          x ∈ t.part.sender.items) ∧
        (t.part.sender.classes.nth c).wait = 0 ∧
        (t.part.sender.classes.nth c).flushed =
          min ((s.part.sender.classes.nth c).flushed + (s.part.sender.queueOf (SendClass.ofIndex c)).length) 65535 ∧
        t.part.sender.store = s.part.sender.store ∧ t.part.lanes = s.part.lanes ∧
        t.part.cmd.completions = s.part.cmd.completions ++
          [⟨i, tag, .done, leBytes 2 (s.part.sender.queueOf (SendClass.ofIndex c)).length⟩]))

/-! ## Chapter 9: trunk lanes -/

/-- SET LANE and LANE ON (R156, R157): the tests in order; a lane that is OFF takes its settings, or goes to
WAIT-CARRIER with a break on its line, its filtered carrier taken from its input, and an empty receive path. -/
def Obligations.ALaneIsSetAndTurnedOn : Prop :=
  ∀ s : State,
    (∀ (i : Nat) (tag : Word) (lane : Byte) (divider window : Half) (filter depth policy : Byte),
      s.taken i (.setLane tag lane divider window filter depth policy) →
      let run := exec (.setLane tag lane divider window filter depth policy) s
      let legal := lane.toNat ≤ 3 ∧ 2 ≤ divider.toNat ∧ 4 ≤ window.toNat ∧ window.toNat ≤ 256 ∧ filter.toNat ≤ 3 ∧
        (depth.toNat = 1 ∨ depth.toNat = 8) ∧ policy.toNat ≤ 1
      (¬ legal → run = .next (s.refuses i tag .badField)) ∧
      (legal → ∀ (l : Fin 4) f p, lane.toNat = l.val → filterOf filter = some f → fullPolicyOf policy = some p →
        (¬ s.part.noneOutstanding (.laneOff l) → run = .next (s.refuses i tag .busy)) ∧
        (s.part.noneOutstanding (.laneOff l) →
          ((s.part.lanes.nth l).state ≠ .off → run = .next (s.refuses i tag .state)) ∧
          ((s.part.lanes.nth l).state = .off → run = .next (s.becomes (Part.answered { s.part with
            lanes := s.part.lanes.put l { (s.part.lanes.nth l) with
              cfg := ⟨divider.toNat, window.toNat, f, depth.toNat, p, (s.part.lanes.nth l).cfg.initialOn⟩ } } i tag [])))))) ∧
    (∀ (i : Nat) (tag : Word) (lane : Byte), s.taken i (.laneOn tag lane) →
      let run := exec (.laneOn tag lane) s
      (3 < lane.toNat → run = .next (s.refuses i tag .badField)) ∧
      (∀ l : Fin 4, lane.toNat = l.val →
        let r := s.part.lanes.nth l
        (¬ s.part.noneOutstanding (.laneOff l) → run = .next (s.refuses i tag .busy)) ∧
        (s.part.noneOutstanding (.laneOff l) → r.state ≠ .off → run = .next (s.refuses i tag .state)) ∧
        (s.part.noneOutstanding (.laneOff l) → r.state = .off → run = .next (s.becomes (Part.answered { s.part with
          lanes := s.part.lanes.put l { r with
            state := .waitCarrier
            breakEnd := some (r.breakEnd.getD (s.part.now + 256 * (12 * r.cfg.divider)))
            counts := { r.counts with breaksSent := count r.counts.breaksSent }
            filtered := r.carrier
            filterTimer := none
            settleTimer := if r.carrier then some (s.part.now + 300000000) else none
            receive := .between
            fifo := [] } } i tag [])))))

/-- LANE OFF and the end of its break (R164): the lane goes to OFF with its queue, FIFO, receive path, timers and
counters clear, and a frame broken off leaves a break behind; of the descriptors of its frames an unsettled one without the
no-resend flag waits for another lane, a settled one or one with that flag is gone (R143), and every other descriptor stands;
the command completes at once with no break, else at the break's end. With the break over R161 applies, as at every event. -/
def Obligations.LaneOffEmptiesTheLane : Prop :=
  ∀ s : State,
    (∀ (i : Nat) (tag : Word) (lane : Byte), s.taken i (.laneOff tag lane) →
      (3 < lane.toNat → exec (.laneOff tag lane) s = .next (s.refuses i tag .badField)) ∧
      (∀ l : Fin 4, lane.toNat = l.val →
        (¬ s.part.noneOutstanding (.laneOff l) → exec (.laneOff tag lane) s = .next (s.refuses i tag .busy)) ∧
        (s.part.noneOutstanding (.laneOff l) →
          let r := s.part.lanes.nth l
          let ending := if r.sending.isSome then some (s.part.now + 256 * (12 * r.cfg.divider)) else r.breakEnd
          ∃ t, exec (.laneOff tag lane) s = .next t ∧
            t.part.lanes = s.part.lanes.put l { r with
              state := .off, filterTimer := none, settleTimer := none, receive := .between, breakEnd := ending,
              sending := none, queue := [], fifo := [], returnHold := false, counts := ⟨0, 0, 0, 0, 0, 0⟩ } ∧
            (ending = none → t.part.cmd.completions = s.part.cmd.completions ++ [⟨i, tag, .done, []⟩]) ∧
            (ending ≠ none → t.part.cmd.deferred = s.part.cmd.deferred ++ [⟨i, tag, .laneOff l⟩]) ∧
            s.part.sender.returns r.held t.part.sender ∧
            t.part.path = s.part.path ∧ t.dram = s.dram))) ∧
    (∀ (l : Fin 4) (e : Nat), (s.part.lanes.nth l).breakEnd = some e →
      let done' : Part := { s.part with
        now := max s.part.now e, lanes := s.part.lanes.put l { (s.part.lanes.nth l) with breakEnd := none } }
      (∀ d, d.kind = .laneOff l → s.part.cmd.awaits d →
        ∃ q, exec (.breakSentEnd l) s = .next (s.becomes q) ∧ Part.begins l { done' with cmd := s.part.cmd.completed d } q) ∧
      (s.part.noneOutstanding (.laneOff l) → ∃ q, exec (.breakSentEnd l) s = .next (s.becomes q) ∧ Part.begins l done' q))

/-- Carrier, settling and modem hold (R158, R159, R163): a change of the input starts, restarts or stops the filter
timer, and with the filter OFF the filtered carrier follows every change at that change; the filter's expiry takes the level.
On a lane that waits, a filtered carrier that comes starts the settle timer, and one that goes stops it; the settle timer's
expiry takes the lane to UP. As the lane goes UP, and as the hold flag goes off, a frame queued on an idle
lane begins at that same event (R161).
A lane in UP fails when its filtered carrier goes or a break comes (R160, R165): it goes to DOWN with its queue
empty, the loss is counted and notified, a frame transmitting is broken off, and the descriptor of every frame it held is
WAITING again, marked for no lane, or, settled already or never to be resent, gone (R143), with what its item counts then
(`Part.framesReturned`: R134); nothing else changes. That a break adds one framing error for a message partly received or a run
of discarded bytes, and none else, is the model's reading (assumption 19). -/
def Obligations.ALaneComesUpAndFails : Prop :=
  (
  ∀ (s : State) (l : Fin 4),
    let r := s.part.lanes.nth l
    let later (dt : Nat) (x : Lane) := s.becomes { s.part with now := s.part.now + dt, lanes := s.part.lanes.put l x }
    (∀ dt present, (r.state = .off ∨ r.carrier = present) →
      exec (.carrierChange dt l present) s = .next (later dt { r with carrier := present })) ∧
    (∀ dt present w, r.state ≠ .off → r.carrier ≠ present → r.cfg.filter.width = some w →
      exec (.carrierChange dt l present) s = .next (later dt { r with
        carrier := present
        filterTimer := if present = r.filtered then none else some (s.part.now + dt + w) })) ∧
    (∀ dt, (r.state = .waitCarrier ∨ r.state = .down) → r.carrier = false → r.cfg.filter = .none →
      exec (.carrierChange dt l true) s = .next (later dt { r with
        carrier := true, filtered := true, filterTimer := none, settleTimer := some (s.part.now + dt + 300000000) })) ∧
    (∀ dt, (r.state = .waitCarrier ∨ r.state = .down) → r.carrier = true → r.cfg.filter = .none →
      exec (.carrierChange dt l false) s = .next (later dt { r with
        carrier := false, filtered := false, filterTimer := none, settleTimer := none })) ∧
    (∀ dt, r.state = .up → r.carrier = false → r.cfg.filter = .none →
      exec (.carrierChange dt l true) s = .next (later dt { r with carrier := true, filtered := true, filterTimer := none })) ∧
    (r.filterTimer = none → exec (.carrierFilterExpiry l) s = .next s) ∧
    (r.settleTimer = none → exec (.settleExpiry l) s = .next s) ∧
    (∀ t, r.filterTimer = some t →
      let at' (x : Lane) := s.becomes { s.part with now := max s.part.now t, lanes := s.part.lanes.put l x }
      ((r.state = .waitCarrier ∨ r.state = .down) → r.carrier = true → exec (.carrierFilterExpiry l) s = .next (at' { r with
        filtered := true, filterTimer := none, settleTimer := some (max s.part.now t + 300000000) })) ∧
      ((r.state = .up ∨ r.state = .off) → r.carrier = true → exec (.carrierFilterExpiry l) s = .next (at' { r with
        filtered := true, filterTimer := none })) ∧
      (r.state ≠ .up → r.carrier = false → exec (.carrierFilterExpiry l) s = .next (at' { r with
        filtered := false, filterTimer := none, settleTimer := none }))) ∧
    (∀ t, r.settleTimer = some t → ∃ q, exec (.settleExpiry l) s = .next (s.becomes (Part.raise .lane l.val q)) ∧
      Part.begins l { s.part with
        now := max s.part.now t, lanes := s.part.lanes.put l { r with state := .up, settleTimer := none } } q) ∧
    (∀ dt, exec (.modemHoldChange dt l true) s = .next (later dt { r with modemHold := true })) ∧
    (∀ dt, ∃ q, exec (.modemHoldChange dt l false) s = .next (s.becomes q) ∧ Part.begins l { s.part with
      now := s.part.now + dt, lanes := s.part.lanes.put l { r with modemHold := false } } q)) ∧
  (
  ∀ (s : State) (l : Fin 4), (s.part.lanes.nth l).state = .up →
    let r := s.part.lanes.nth l
    let fails (c : Instr) (time : Nat) (x : Lane) := ∃ t, exec c s = .next t ∧
      t = s.becomes (Part.raise .lane l.val (Part.framesReturned { s.part with
        now := time
        outputs := s.part.outputs ++ (match r.sending with | some (f, _) => [.frameBroken l f.kind] | none => [])
        lanes := s.part.lanes.put l { x with
          state := .down, queue := [], sending := none, settleTimer := none
          counts := { x.counts with carrierLosses := count x.counts.carrierLosses } } } r.held)) ∧
      (Cause.lane, l.val) ∈ t.part.cmd.notices ∧ s.part.sender.returns r.held t.part.sender
    (∀ t, r.filterTimer = some t → r.carrier = false →
      fails (.carrierFilterExpiry l) (max s.part.now t) { r with filtered := false, filterTimer := none }) ∧
    (∀ dt, r.cfg.filter = .none → r.carrier = true → fails (.carrierChange dt l false) (s.part.now + dt) { r with
      carrier := false, filtered := false, filterTimer := none }) ∧
    (∀ dt afterRun, r.receive ≠ .inBreak → fails (.breakReceived dt l afterRun) (s.part.now + dt) { r with
      receive := .inBreak
      counts := if r.receive = .gathering ∨ afterRun = true then
        { r.counts with framingErrors := count r.counts.framingErrors } else r.counts }))

/-- Transmission (R161, R162, R143): the oldest queued frame begins while the lane is UP, not held, and its line idle, and
takes 8 bit periods a byte; at its end the frame has left, is counted, and its descriptor awaits its receipt, and the next
queued frame begins at that same event, with no idle time between. -/
def Obligations.FramesGoOutInQueueOrder : Prop :=
  ∀ (s : State) (l : Fin 4),
    let r := s.part.lanes.nth l
    (∃ q, exec (.transmitStart l) s = .next (s.becomes q) ∧ Part.begins l s.part q) ∧
    (∀ f e, r.sending = some (f, e) →
      let sent (x : Sender) := ∃ q, exec (.transmitComplete l) s = .next (s.becomes q) ∧ Part.begins l { s.part with
        now := max s.part.now e
        outputs := s.part.outputs ++ [.frame l f.bytes]
        lanes := s.part.lanes.put l { r with sending := none, counts := { r.counts with framesSent := count r.counts.framesSent } }
        sender := x } q
      (∀ token, f.kind = .echo token → sent s.part.sender) ∧
      (∀ seq d, f.kind = .link seq → (s.part.sender.store.find? fun x => x.seq == seq) = some d →
        (d.mark = none → sent { s.part.sender with
          store := s.part.sender.store.map fun x => if x.seq = seq then { x with state := .awaitingReceipt, lane := none } else x }) ∧
        (d.mark ≠ none → sent { s.part.sender with store := s.part.sender.store.filter fun x => x.seq != seq })))

/-- The receive path (R165 to R167): a marker's first byte begins a message; a good message enters the FIFO, asserting
the hold output when it fills under HOLD-OFF, or is an overrun; a bad check or marker is counted; a break ends what the
path was doing, in UP as in WAIT CARRIER and DOWN, and leaves the FIFO's messages, and its end starts the settle timer of a
lane that waits with its carrier there. That a break adds one
framing error for a message partly received or a run of discarded bytes, and none else, is the model's reading (assumption
19).
A return message reads as it is laid out (12.5, R193): marker, kind, station, fields least significant byte first,
and the 32-bit check over all but marker and check; the check takes each byte least significant bit first into a register of
ones and inverts it at the end; the check of the digits 1 to 9 is CBF43926 hexadecimal. -/
def Obligations.ReturnMessagesAreReadAndGathered : Prop :=
  (
  ∀ (s : State) (l : Fin 4) (dt : Nat),
    let r := s.part.lanes.nth l
    let later (x : Lane) := s.becomes { s.part with now := s.part.now + dt, lanes := s.part.lanes.put l x }
    let framed : LaneCounters := { r.counts with framingErrors := count r.counts.framingErrors }
    (r.state ≠ .off → r.receive = .between → ∀ afterRun, exec (.markerFirstByte dt l afterRun) s = .next (later { r with
      receive := .gathering, counts := if afterRun then framed else r.counts })) ∧
    (r.state ≠ .off → r.receive = .gathering →
      (∀ bytes, readMessage bytes = .framing →
        exec (.returnMessageEnd dt l bytes) s = .next (later { r with receive := .between, counts := framed })) ∧
      (∀ bytes, readMessage bytes = .check → exec (.returnMessageEnd dt l bytes) s = .next (later { r with
        receive := .between, counts := { r.counts with checkErrors := count r.counts.checkErrors } })) ∧
      (∀ bytes m, readMessage bytes = .good m →
        (r.fifo.length < r.cfg.depth → exec (.returnMessageEnd dt l bytes) s = .next (later { r with
          receive := .between
          fifo := r.fifo ++ [m]
          returnHold := if r.cfg.policy = .holdOff then r.returnHold || decide (r.cfg.depth ≤ r.fifo.length + 1) else r.returnHold })) ∧
        (r.cfg.depth ≤ r.fifo.length → exec (.returnMessageEnd dt l bytes) s = .next (later { r with
          receive := .between, counts := { r.counts with overruns := count r.counts.overruns } })))) ∧
    (∀ afterRun, (r.state = .waitCarrier ∨ r.state = .down) → r.receive ≠ .inBreak →
      exec (.breakReceived dt l afterRun) s = .next (later { r with
        receive := .inBreak
        settleTimer := none
        counts := if r.receive = .gathering ∨ afterRun = true then framed else r.counts })) ∧
    (∀ afterRun, r.state = .up → r.receive ≠ .inBreak → ∃ t, exec (.breakReceived dt l afterRun) s = .next t ∧
      (t.part.lanes.nth l).receive = .inBreak ∧ (t.part.lanes.nth l).fifo = r.fifo ∧
      (t.part.lanes.nth l).counts = { r.counts with
        framingErrors := if r.receive = .gathering ∨ afterRun = true then count r.counts.framingErrors else r.counts.framingErrors
        carrierLosses := count r.counts.carrierLosses }) ∧
    (∀ afterRun, (r.state = .off ∨ r.receive = .inBreak) → exec (.breakReceived dt l afterRun) s = .next (later r)) ∧
    (r.state ≠ .off → r.receive = .inBreak → exec (.breakReceiveEnd dt l) s = .next (later { r with
      receive := .between
      settleTimer := if r.filtered = true ∧ r.state ≠ .up then some (s.part.now + dt + 300000000) else r.settleTimer }))) ∧
  (
  (∀ (station : Byte) (a b : Word),
    let sealed (fields : List Byte) : List Byte := [0x5A, 0xA5] ++ fields ++ leBytes 4 (crc fields).toNat
    readMessage (sealed ([0, station] ++ leBytes 4 a.toNat ++ leBytes 4 b.toNat)) = .good ⟨station.toNat, .receipt a b⟩ ∧
    readMessage (sealed ([1, station] ++ leBytes 4 a.toNat)) = .good ⟨station.toNat, .resend a⟩ ∧
    readMessage (sealed ([2, station] ++ leBytes 4 a.toNat)) = .good ⟨station.toNat, .laneTest a⟩ ∧
    (∀ c : Word, c ≠ crc ([1, station] ++ leBytes 4 a.toNat) →
      readMessage ([0x5A, 0xA5, 1, station] ++ leBytes 4 a.toNat ++ leBytes 4 c.toNat) = .check)) ∧
  (∀ bytes : List Byte, crc bytes = ~~~ (bytes.flatMap fun b => (List.range 8).map fun i => b.getLsbD i).foldl
    (fun (r : Word) bit => if r.getLsbD 0 ≠ bit then (r >>> 1) ^^^ 0xEDB88320#32 else r >>> 1) 0xFFFFFFFF#32) ∧
  crc [0x31, 0x32, 0x33, 0x34, 0x35, 0x36, 0x37, 0x38, 0x39] = 0xCBF43926#32)

/-! ## Chapter 10: command and status rings -/

/-- The watched words (R172, R176): a tail value below N becomes the fetch tail, any other is a bad tail; a head value
from the taken head to the write index becomes the taken head, any other is a bad head.
The attention line (R181) is asserted exactly while the write index and the taken head differ: a head value taken that
consumes every written record withdraws it, one that leaves records keeps it asserted, and a bad head or a tail leaves it as it
is. -/
def Obligations.TailAndHeadWordsAreTakenOrCounted : Prop :=
  ∀ (s : State) (r : Rings), s.part.cmd.rings = some r →
    let c := s.part.cmd
    (s.part.attention = true ↔ c.writeIndex ≠ c.takenHead) ∧
    (c.tailShown = [] → exec .tailWordWrite s = .next s) ∧
    (∀ t rest, c.tailShown = t :: rest →
      (t.toNat < r.n → exec .tailWordWrite s = .next (s.becomes { s.part with
        cmd := { c with tailShown := rest, fetchTail := t.toNat } })) ∧
      (r.n ≤ t.toNat → exec .tailWordWrite s = .next (s.becomes (Part.raise .command 0 { s.part with
        cmd := { c with tailShown := rest, counts := { c.counts with badTails := count c.counts.badTails } } }))) ∧
      (∃ u, exec .tailWordWrite s = .next u ∧ u.part.attention = s.part.attention)) ∧
    (c.headShown = [] → exec .headWordWrite s = .next s) ∧
    (∀ h rest, c.headShown = h :: rest →
      let good := h.toNat < r.m ∧ (h.toNat + r.m - c.takenHead) % r.m ≤ (c.writeIndex + r.m - c.takenHead) % r.m
      (good → exec .headWordWrite s = .next (s.becomes { s.part with
        cmd := { c with headShown := rest, takenHead := h.toNat } })) ∧
      (¬ good → exec .headWordWrite s = .next (s.becomes (Part.raise .command 1 { s.part with
        cmd := { c with headShown := rest, counts := { c.counts with badHeads := count c.counts.badHeads } } }))) ∧
      (∃ u, exec .headWordWrite s = .next u ∧
        (good → (u.part.attention = true ↔ c.writeIndex ≠ h.toNat)) ∧
        (¬ good → u.part.attention = s.part.attention)))

/-- Fetching (R173, R178): with no command in hand and the COMMAND stream idle, a record past the head is read when fewer
than eight deferred commands and no ENGINE RESET are outstanding, nothing waits to be written, and the status ring has
room.
A kind that names no command (R174): refused BAD KIND, with nothing else changed. -/
def Obligations.AFetchWaitsForRoomAndAnUnknownKindIsRefused : Prop :=
  (
  ∀ (s : State) (r : Rings), s.part.cmd.rings = some r →
    let c := s.part.cmd
    let may := s.part.path.streamIdle commandStream = true ∧ c.use = none ∧ c.inHand = none ∧ c.report = none ∧ c.status = none ∧
      c.head ≠ c.fetchTail ∧ c.deferred.length < 8 ∧ s.part.noneOutstanding .engineReset ∧ c.completions = [] ∧
      c.notices = [] ∧ (c.writeIndex + r.m - c.takenHead) % r.m + 2 ≤ r.m
    (may → exec .commandFetch s = .next (s.becomes { s.part with
      cmd := { c with use := some .fetch }
      path := s.part.path.offering commandStream ⟨.read, (r.cmdBase + 64 + 64 * c.head) / 64,
        ((r.cmdBase + 64 + 64 * c.head) % 64 + 64 + 63) / 64, []⟩ })) ∧
    (¬ may → exec .commandFetch s = .next s)) ∧
  (
  ∀ (s : State) (i : Nat) (tag : Word) (kind : Half), s.taken i (.unknownCommand tag kind) →
    exec (.unknownCommand tag kind) s = .next (s.refuses i tag .badKind))

/-- The COMMAND stream's transfers (R173, R174, R178): a fetched record is taken, and the command it spells stands in the
engine's hand with its ring index; a status record's write is followed by the write index word's, and only then does the write
index move, from which event the attention line is asserted exactly while the new write index differs from the taken head
(R181), where the other transfers of the stream leave the line as it is; a report's writes follow one another, each next one
offered as the one before ends, cut into four lines as the model chooses (assumption 15; R175 says up to four), and after the
last the command completes DONE with the report's length in lines (R175).
The words the engine watches (R172, R176): a performed WRITE that covers the tail word of the live COMMAND window, or the head
word of the live STATUS window, shows the engine the word as it then stands; any other WRITE there shows nothing. -/
def Obligations.ACommandTransferMovesTheRings : Prop :=
  (
  ∀ (s : State) (dt : Nat) (port : Fin 6) (a : Admitted) (w : Fin 32), s.clientWriting port a w →
    let win := s.part.path.windows.nth w
    let c := s.part.cmd
    let done := s.clientWritten dt port a
    let covered := a.req.covers win.base 8 = true
    (win.kind = .command ∨ win.kind = .status) →
    ∃ t, exec (.transferComplete dt) s = .next t ∧
      let shown : Wide := BitVec.ofNat 64 (leNat ((List.range 8).map fun x => t.dramByte (win.base + x)))
      (win.kind = .command →
        (covered → (∃ r, c.rings = some r ∧ r.cmdWin = w) →
          t.part = { done with cmd := { c with tailShown := c.tailShown ++ [shown] } }) ∧
        ((¬ covered ∨ ∀ r, c.rings = some r → r.cmdWin ≠ w) → t.part = done)) ∧
      (win.kind = .status →
        (covered → (∃ r, c.rings = some r ∧ r.statWin = w) →
          t.part = { done with cmd := { c with headShown := c.headShown ++ [shown] } }) ∧
        ((¬ covered ∨ ∀ r, c.rings = some r → r.statWin ≠ w) → t.part = done))) ∧
  ∀ (s : State) (dt : Nat) (q : Request) (r : Rings), s.part.path.channel = .stream commandStream q false →
    64 * q.line + 64 * q.count ≤ 8589934592 → s.part.cmd.rings = some r →
    let c := s.part.cmd
    let data := match q.kind with
      | .read => (List.range (64 * q.count)).map fun k => s.dramByte (64 * q.line + k)
      | .write => []
    let freed : Path := { s.part.path with channel := if s.part.path.refreshesDue = 0 then .free else .refresh }
    let after (x : Commander) (y : Path) : Part := { s.part with now := s.part.now + dt, cmd := x, path := y }
    (c.use = some .fetch → ∃ t, exec (.transferComplete dt) s = .next t ∧ t.part.attention = s.part.attention ∧
      t.part = after { c with
      use := none, head := (c.head + 1) % r.n, inHand := some (c.head, decodeRecord data),
      counts := { c.counts with taken := count c.counts.taken } } freed) ∧
    (∀ next ofReset, c.use = some .status → c.status = some (.record next ofReset) →
      ∃ t, exec (.transferComplete dt) s = .next t ∧ t.part.attention = s.part.attention ∧
        t.part = after { c with status := some (.index next ofReset) }
        (freed.offering commandStream (writeRequest (r.statBase + 8) (leBytes 8 next)))) ∧
    (∀ next ofReset, c.use = some .status → c.status = some (.index next ofReset) →
      ∃ t, exec (.transferComplete dt) s = .next t ∧ (t.part.attention = true ↔ next ≠ c.takenHead) ∧ t.part = after { c with
        use := none, status := none, writeIndex := next, resetWritten := c.resetWritten || ofReset } freed) ∧
    (∀ x, c.use = some .report → c.report = some x →
      (∀ a bytes, x.writes = [(a, bytes)] → a % 64 = 0 → ∃ t, exec (.transferComplete dt) s = .next t ∧ t.part = after { c with
        report := some { x with writes := if bytes.length ≤ 256 then [] else [(a + 256, bytes.drop 256)] } }
        (freed.offering commandStream (writeRequest a (bytes.take 256)))) ∧
      (x.writes = [] → ∃ t, exec (.transferComplete dt) s = .next t ∧ t.part = after { c with
        use := none, report := none, completions := c.completions ++ [⟨x.ring, x.tag, .done, leBytes 2 x.lines⟩] } freed))

/-- Status records (R177, R178, R180): with room for one, the oldest pending completion is written first, and with none
pending the first notice; the record goes to the slot of the write index, which is to move to the next.
An ENGINE RESET's own completion stands behind every CANCELLED one (R183 step 4), and the write index update of its record,
and of no record before it, ends the reset (R184): while a reset is outstanding the record of the last pending completion is
marked as the one that ends it, and no other is, nor is one of a notice. That the last pending completion is then the reset's
is the model's reading (assumption 33). -/
def Obligations.CompletionsAreWrittenBeforeNotices : Prop :=
  ∀ (s : State) (r : Rings), s.part.cmd.rings = some r →
    let c := s.part.cmd
    let may := s.part.path.streamIdle commandStream = true ∧ c.use = none ∧ c.inHand = none ∧ c.report = none ∧ c.status = none ∧
      (c.writeIndex + r.m - c.takenHead) % r.m + 2 ≤ r.m
    let writes (x : Commander) (ofReset : Bool) (record : List Byte) := s.becomes { s.part with
      cmd := { x with use := some .status, status := some (.record ((c.writeIndex + 1) % r.m) ofReset) }
      path := s.part.path.offering commandStream (writeRequest (r.statBase + 64 + 64 * c.writeIndex) record) }
    (¬ may → exec .statusWriteStart s = .next s) ∧
    (may →
      (c.completions = [] → c.notices = [] → exec .statusWriteStart s = .next s) ∧
      (∀ x rest, c.completions = x :: rest → ∃ ofReset, exec .statusWriteStart s = .next
        (writes { c with completions := rest } ofReset
          ([1, x.result.code] ++ leBytes 2 x.ring ++ leBytes 4 x.tag.toNat ++ zeros 8 ++ padTo 48 x.data)) ∧
        (ofReset = true ↔ rest = [] ∧ ¬ s.part.noneOutstanding .engineReset)) ∧
      (∀ n rest, c.completions = [] → c.notices = n :: rest → exec .statusWriteStart s = .next
        (writes { c with notices := rest, counts := { c.counts with written := count c.counts.written } } false
          (padTo 64 ([2, BitVec.ofNat 8 n.1.priority] ++ leBytes 2 n.2 ++ leBytes 2 (s.part.snapshot n))))))

/-- READ METERS and READ COUNTERS (R113, R175, R182): a report range that is not lines of open ground or of an OPEN PLAIN
window is refused BAD FIELD; else the values are read, the meters, or with clear the group's counters, go to 0, and the
report's first write is offered, of four lines or of the whole report if that is less, which is the model's choice
(assumption 15; R175 says up to four). That a clear flag above 1, and an address that is not a line's or runs beyond the DRAM, is
BAD FIELD is the model's reading (assumption 11). Every read of the port group makes the last refusals absent (R5). A clear
sets to 0 the counters named here for each group, the band queue's high-water mark to its present length (R79), and nothing
else. What a report holds is spelled out group by group: the ports' and the command engine's values (R5, R182), cameras, slots,
held writes, coder and rings (R60, R79, R95), sources and buses (R114), lanes (R170), classes, cursors, descriptors and the clip
controller (R153, R130), cue lines and the clock (R42), each in its type's width, with the codes of 12.1 and the kind codes of
12.2. The model's choices among them: the order in which the values and the objects stand, the width of a count for which 12.1
names none, values present together under one presence byte, one flag byte for each cause and subject of the notice pending set,
eight places of four bytes for the deferred commands, one byte 0 where a cue line's mode has no level, the output slot records
left out, and two flag bytes for a break sent and a break received (assumption 28); a byte count by its low 32 bits (assumption
42); free 0 while a ring has no extent (assumption 46); when a slot's numbers are absent (assumption 44); and the codes of levels,
of hold and of the filtered carrier, in the order their values are listed (assumption 12). -/
def Obligations.ReportsAreReadAtOneInstant : Prop :=
  ∀ s : State,
    let fits (a n : Nat) := a % 64 = 0 ∧ a + 64 * n ≤ 8589934592 ∧
      ((∀ w, (s.part.path.windows.nth w).live = true → (s.part.path.windows.nth w).touches a (a + 64 * n) = false) ∨
        ∃ w, s.part.path.place a (a + 64 * n) = .inside w ∧ (s.part.path.windows.nth w).state = .opened ∧
          (s.part.path.windows.nth w).kind = .plain)
    let reporting (p : Part) (i : Nat) (tag : Word) (a n : Nat) (values : List Byte) : Part := { p with
      cmd := { p.cmd with
        inHand := none
        use := some .report
        report := some ⟨i, tag, n, if n ≤ 4 then [] else [(a + 256, (padTo (64 * n) values).drop 256)]⟩ }
      path := p.path.offering commandStream (writeRequest a ((padTo (64 * n) values).take 256)) }
    (∀ (i : Nat) (tag : Word) (report : Wide), s.taken i (.readMeters tag report) →
      (¬ fits report.toNat 2 → exec (.readMeters tag report) s = .next (s.refuses i tag .badField)) ∧
      (fits report.toNat 2 → exec (.readMeters tag report) s = .next (s.becomes (reporting { s.part with
        mixer := { s.part.mixer with buses := s.part.mixer.buses.each fun b => { b with peak := 0, clips := 0 } } }
        i tag report.toNat 2 (s.part.mixer.buses.list.flatMap fun b => leBytes 4 b.peak ++ leBytes 2 b.clips ++ [0, 0]))))) ∧
    (∀ (i : Nat) (tag : Word) (group clear : Byte) (report : Wide), s.taken i (.readCounters tag group clear report) →
      let run := exec (.readCounters tag group clear report) s
      (5 < group.toNat ∨ 1 < clear.toNat → run = .next (s.refuses i tag .badField)) ∧
      (∀ g, groupOf group = some g → clear.toNat ≤ 1 →
        (¬ fits report.toNat g.lines → run = .next (s.refuses i tag .badField)) ∧
        (fits report.toNat g.lines →
          (clear = 0 → run = .next (s.becomes (reporting (g.always s.part) i tag report.toNat g.lines (g.values s.part.handEmpty)))) ∧
          (clear = 1 → run = .next (s.becomes
            (reporting (g.clear (g.always s.part)) i tag report.toNat g.lines (g.values s.part.handEmpty)))))) ∧
      (∀ (g : Group) (p : Part), groupOf group = some g →
        let given (width : Nat) (x : Option (List Byte)) : List Byte := match x with
          | none => zeros (1 + width)
          | some bytes => 1 :: bytes
        let settings (x : PendingSettings) : List Byte :=
          [x.policy.code] ++ leBytes 2 x.holdLimit ++ leBytes 4 x.budget ++ [boolCode x.live]
        let slot (x : Slot) : List Byte :=
          [x.state.code] ++
          given 12 (x.stamp.map fun y => leBytes 4 y.number.toNat ++ leBytes 1 y.timecode.ff ++ leBytes 1 y.timecode.ss ++
            leBytes 1 y.timecode.mm ++ leBytes 1 y.timecode.hh ++ leBytes 4 y.block.toNat) ++
          leBytes 1 x.arrived ++ leBytes 1 x.coded ++ [boolCode x.abandoned]
        let reference (x : Reference) : List Byte := leBytes 2 x.losses ++ leBytes 2 x.regains ++ leBytes 2 x.strays
        let inState (x : DescState) : List Byte := leBytes 2 (p.sender.store.filter fun d => d.state == x).length
        (group ≠ 0 → g.always p = p) ∧
        (group = 0 → g.values p =
          ((List.finRange 6).flatMap fun k =>
            let r := p.path.ports.nth k
            leBytes 2 r.refusals ++
            given 10 (r.last.map fun y => [y.reason.code] ++ leBytes 8 y.address ++ [reqKindCode y.kind]) ++
            leBytes 2 r.reads ++ leBytes 2 r.writes) ++
          leBytes 2 p.cmd.head ++ leBytes 2 p.cmd.fetchTail ++ leBytes 2 p.cmd.writeIndex ++ leBytes 2 p.cmd.takenHead ++
          leBytes 1 p.cmd.deferred.length ++
          padTo 32 (p.cmd.deferred.flatMap fun d => leBytes 2 d.kind.code ++ leBytes 2 d.ring) ++
          leBytes 2 p.cmd.completions.length ++
          ([(Cause.reference, 2), (.lane, 4), (.ring, 8), (.clip, 128), (.access, 6), (.hold, 8), (.mix, 65), (.send, 4),
            (.cue, 8), (.command, 2)].flatMap fun x =>
              (List.range x.2).map fun n => boolCode (p.cmd.notices.contains (x.1, n))) ++
          leBytes 2 p.cmd.counts.taken ++ leBytes 2 p.cmd.counts.refused ++ leBytes 2 p.cmd.counts.badTails ++
          leBytes 2 p.cmd.counts.badHeads ++ leBytes 2 p.cmd.counts.written ++ leBytes 2 p.cmd.counts.absorbed) ∧
        (group = 1 → g.values p =
          ((List.finRange 8).flatMap fun k =>
            let r := p.cameras.nth k
            [r.state.code] ++ leBytes 1 r.cfg.frameWin.val ++ leBytes 1 r.cfg.replayWin.val ++ leBytes 4 r.cfg.stride ++
            leBytes 2 r.cfg.lines ++ leBytes 1 r.cfg.tiles ++
            settings ⟨r.cfg.policy, r.cfg.holdLimit, r.cfg.budget, r.cfg.live⟩ ++ given 8 (r.pending.map settings) ++
            leBytes 4 r.counter.toNat ++ leBytes 1 r.carried ++ slot r.slotA ++ slot r.slotB ++
            given 3 (r.held.map fun y => leBytes 1 y.port.val ++ leBytes 1 y.tag.toNat ++ [y.slot.code]) ++
            leBytes 2 r.counts.slotStarts ++ leBytes 2 r.counts.heldWrites ++ leBytes 2 r.counts.holdExpiries ++
            leBytes 2 r.counts.torn ++ leBytes 2 r.counts.abandoned ++ leBytes 2 r.counts.strayBands ++
            leBytes 2 r.counts.strayStarts) ++
          [boolCode p.coder.job.isSome] ++
          given 14 (p.coder.job.map fun y =>
            leBytes 1 y.job.cam.val ++ [y.job.slot.code] ++ leBytes 4 y.job.number.toNat ++ leBytes 1 y.job.band ++
            [y.phase.code] ++ leBytes 4 y.target ++ leBytes 1 y.quantizer ++ [boolCode y.discarded]) ++
          leBytes 2 p.coder.queue.length ++ leBytes 2 p.coder.highWater ++
          ((List.finRange 8).flatMap fun k => given 10 ((p.coder.rates.nth k).map fun y =>
            leBytes 4 y.number.toNat ++ leBytes 4 y.spent ++ leBytes 1 y.quantizer ++ [boolCode y.overFlag])) ++
          ((List.finRange 8).flatMap fun k =>
            let n := p.coder.counts.nth k
            leBytes 2 n.codedBands ++ leBytes 2 n.published ++ leBytes 2 n.overBudget ++ leBytes 2 n.discarded ++
            leBytes 2 n.failedOpens ++ leBytes 2 n.overlapped ++ leBytes 2 n.cutBands) ++
          ((List.finRange 8).flatMap fun k =>
            let r := p.rings.nth k
            given 16 (r.extent.map fun y => leBytes 8 y.1 ++ leBytes 8 y.2) ++
            leBytes 4 r.writePoint ++ leBytes 4 r.used ++
            leBytes 4 (match r.extent with | none => 0 | some y => y.2 - r.used) ++ leBytes 2 r.index.length ++
            given 8 (match r.index.head?, r.index.getLast? with
              | some first, some last => some (leBytes 4 first.number.toNat ++ leBytes 4 last.number.toNat)
              | _, _ => none) ++
            leBytes 2 r.retired ++ leBytes 2 r.cut ++ leBytes 2 r.lost ++ leBytes 2 r.mismatches)) ∧
        (group = 2 → g.values p =
          [p.mixer.state.code] ++ given 5 (p.mixer.pass.map fun y => leBytes 4 y.block.toNat ++ [y.phase.code]) ++
          leBytes 2 p.mixer.lateTicks ++
          ((List.finRange 64).flatMap fun k =>
            let r := p.mixer.sources.nth k
            [boolCode r.cfg.on] ++ leBytes 1 r.cfg.win.val ++ leBytes 2 r.cfg.ring ++ leBytes 1 r.cfg.offset ++
            leBytes 1 r.cfg.width ++ leBytes 8 r.fresh.toNat ++ leBytes 2 r.late ++ leBytes 2 r.overruns) ++
          ((List.finRange 16).flatMap fun k =>
            let r := p.mixer.buses.nth k
            [boolCode r.cfg.active] ++ leBytes 1 r.cfg.win.val ++ leBytes 2 r.cfg.ring ++ leBytes 2 r.cfg.master ++
            [boolCode r.cfg.send] ++ leBytes 2 r.cfg.divider ++ leBytes 1 r.contributions.length ++
            padTo 256 (r.contributions.flatMap fun y =>
              leBytes 1 y.source.val ++ leBytes 2 y.current ++ leBytes 2 y.target ++ leBytes 2 y.step ++ [boolCode y.leaving]) ++
            leBytes 2 r.itemsHanded ++ leBytes 2 r.shortFrames)) ∧
        (group = 4 → g.values p =
          ((List.finRange 4).flatMap fun k =>
            let r := p.sender.classes.nth k
            leBytes 2 r.interval ++ leBytes 2 r.hold ++ leBytes 2 r.wait ++
            leBytes 2 (p.sender.queueOf (SendClass.ofIndex k)).length ++
            leBytes 2 r.made ++ leBytes 2 r.replaced ++ leBytes 2 r.droppedFull ++ leBytes 2 r.droppedStale ++
            leBytes 2 r.flushed ++ leBytes 2 r.overtaken ++ leBytes 2 r.finished ++ leBytes 2 r.failed ++
            leBytes 2 r.expired ++ leBytes 2 r.losses) ++
          ((List.finRange 8).flatMap fun k => given 13 ((p.sender.cursors.nth k).map fun y =>
            leBytes 2 y.clip ++ leBytes 1 y.cam.val ++ leBytes 4 y.next.toNat ++ leBytes 4 y.outPoint.toNat ++
            leBytes 2 y.outstanding)) ++
          inState .building ++ inState .queuedOnLane ++ inState .transmitting ++ inState .awaitingReceipt ++ inState .waiting ++
          leBytes 2 p.sender.redispatch.length ++ [boolCode p.sender.build.isSome] ++ leBytes 4 p.sender.seq.toNat ++
          leBytes 2 p.sender.counts.receipts ++ leBytes 2 p.sender.counts.staleReceipts ++
          leBytes 2 p.sender.counts.wideReceipts ++ leBytes 2 p.sender.counts.resends ++
          leBytes 2 p.sender.counts.duplicateResends ++ leBytes 2 p.sender.counts.lateResends ++
          leBytes 2 p.sender.counts.echoes ++ leBytes 2 p.sender.counts.droppedEchoes ++
          leBytes 2 p.sender.counts.otherStation ++
          leBytes 2 p.clips.marks ++ leBytes 2 p.clips.refusedMarks ++ leBytes 2 p.clips.forceCloses ++
          leBytes 2 p.clips.lostClips ++ leBytes 2 p.clips.partialSends ++ leBytes 2 p.clips.events ++
          leBytes 2 (p.clips.table.list.filter (·.isSome)).length ++ leBytes 2 p.clips.lastNumber ++
          leBytes 2 p.clips.mirror.length) ∧
        (group = 5 → g.values p =
          ((List.finRange 8).flatMap fun k =>
            let r := p.cues.nth k
            [r.cfg.mode.code] ++
            [if r.cfg.mode = .input ∨ r.cfg.mode = .mark then boolCode (!r.debounced) else 0] ++
            [if r.cfg.mode = .tally ∨ r.cfg.mode = .output then boolCode (!r.outputOn) else 0] ++
            given 2 (r.openClip.map fun y => leBytes 2 y) ++ leBytes 2 r.presses ++ leBytes 2 r.refusedPresses) ++
          [boolCode (!p.clock.frame.locked), boolCode (!p.clock.word.locked)] ++
          leBytes 1 p.clock.timecode.ff ++ leBytes 1 p.clock.timecode.ss ++ leBytes 1 p.clock.timecode.mm ++
          leBytes 1 p.clock.timecode.hh ++
          given 4 (p.clock.pendingTc.map fun y => leBytes 1 y.ff ++ leBytes 1 y.ss ++ leBytes 1 y.mm ++ leBytes 1 y.hh) ++
          leBytes 4 p.clock.pictureTicks.toNat ++ leBytes 4 p.clock.blockNumber.toNat ++
          reference p.clock.frame ++ reference p.clock.word) ∧
        (group = 0 → g.always p = { p with path := { p.path with ports := p.path.ports.each fun q => { q with last := none } } } ∧
          g.clear p = { p with
            path := { p.path with ports := p.path.ports.each fun q => { q with refusals := 0, reads := 0, writes := 0 } }
            cmd := { p.cmd with counts :=
              { taken := 0, refused := 0, badTails := 0, badHeads := 0, written := 0, absorbed := 0 } } }) ∧
        (group = 1 → g.clear p = { p with
          cameras := p.cameras.each fun c => { c with counts :=
            { slotStarts := 0, heldWrites := 0, holdExpiries := 0, torn := 0, abandoned := 0, strayBands := 0, strayStarts := 0 } }
          coder := { p.coder with
            counts := p.coder.counts.each fun _ =>
              { codedBands := 0, published := 0, overBudget := 0, discarded := 0, failedOpens := 0, overlapped := 0, cutBands := 0 }
            highWater := p.coder.queue.length }
          rings := p.rings.each fun r => { r with retired := 0, cut := 0, lost := 0, mismatches := 0 } }) ∧
        (group = 2 → g.clear p = { p with mixer := { p.mixer with
          lateTicks := 0
          sources := p.mixer.sources.each fun x => { x with late := 0, overruns := 0 }
          buses := p.mixer.buses.each fun b => { b with itemsHanded := 0, shortFrames := 0 } } }) ∧
        (group = 3 → g.clear p = { p with lanes := p.lanes.each fun l => { l with counts :=
            { framesSent := 0, breaksSent := 0, checkErrors := 0, framingErrors := 0, overruns := 0, carrierLosses := 0 } } } ∧
          g.values p = (List.finRange 4).flatMap fun l =>
            let r := p.lanes.nth l
            [r.state.code] ++ leBytes 2 r.cfg.divider ++ leBytes 2 r.cfg.window ++ [r.cfg.filter.code] ++ leBytes 1 r.cfg.depth ++
            [r.cfg.policy.code, boolCode r.cfg.initialOn, boolCode r.modemHold, boolCode (!r.returnHold), boolCode (!r.filtered),
              boolCode r.breakEnd.isSome, boolCode (r.receive == .inBreak)] ++
            leBytes 2 (p.counted l).length ++ leBytes 4 (p.inFlightBytes l) ++ leBytes 2 r.fifo.length ++
            leBytes 2 r.counts.framesSent ++ leBytes 2 r.counts.breaksSent ++ leBytes 2 r.counts.checkErrors ++
            leBytes 2 r.counts.framingErrors ++ leBytes 2 r.counts.overruns ++ leBytes 2 r.counts.carrierLosses) ∧
        (group = 4 → g.clear p = { p with
          sender := { p.sender with
            classes := p.sender.classes.each fun r => { r with
              made := 0, replaced := 0, droppedFull := 0, droppedStale := 0, flushed := 0, overtaken := 0, finished := 0
              failed := 0, expired := 0, losses := 0 }
            counts :=
              { receipts := 0, staleReceipts := 0, wideReceipts := 0, resends := 0, duplicateResends := 0
                lateResends := 0, echoes := 0, droppedEchoes := 0, otherStation := 0 } }
          clips := { p.clips with
            marks := 0, refusedMarks := 0, forceCloses := 0, lostClips := 0, partialSends := 0, events := 0 } }) ∧
        (group = 5 → g.clear p = { p with
          cues := p.cues.each fun c => { c with presses := 0, refusedPresses := 0 }
          clock := { p.clock with
            frame := { p.clock.frame with losses := 0, regains := 0, strays := 0 }
            word := { p.clock.word with losses := 0, regains := 0, strays := 0 } } })) ∧
      (∀ g, groupOf group = some g → g.lines =
        if group = 0 then 8 else if group = 1 then 64 else if group = 2 then 96 else if group = 3 then 4
        else if group = 4 then 8 else 4)) ∧
    ([Reason.tagInUse, .noMemory, .split, .closing, .denied, .notReady].map Reason.code = [0, 1, 2, 3, 4, 5] ∧
      [ReqKind.read, .write].map reqKindCode = [0, 1] ∧
      [DeferredKind.quiesce, .stopMixer, .engineReset].map DeferredKind.code = [4, 18, 34] ∧
      (∀ w, (DeferredKind.closeWindow w).code = 3) ∧ (∀ k, (DeferredKind.stopCamera k).code = 11) ∧
      (∀ l, (DeferredKind.laneOff l).code = 33) ∧
      [CameraState.stopped, .running, .stopping].map CameraState.code = [0, 1, 2] ∧
      [Policy.hold, .drop].map Policy.code = [0, 1] ∧ [SlotId.a, .b].map SlotId.code = [0, 1] ∧
      [SlotState.empty, .filling, .coding, .done, .torn].map SlotState.code = [0, 1, 2, 3, 4] ∧
      [JobPhase.header, .reading, .coding, .writing].map JobPhase.code = [0, 1, 2, 3] ∧
      [MixerState.stopped, .running, .stopping].map MixerState.code = [0, 1, 2] ∧
      [PassPhase.reading, .writing].map PassPhase.code = [0, 1] ∧
      [LaneState.off, .waitCarrier, .up, .down].map LaneState.code = [0, 1, 2, 3] ∧
      [CarrierFilter.none, .half, .five, .fifty].map CarrierFilter.code = [0, 1, 2, 3] ∧
      [FullPolicy.holdOff, .overrun].map FullPolicy.code = [0, 1] ∧
      [CueMode.off, .input, .mark, .tally, .output].map CueMode.code = [0, 1, 2, 3, 4] ∧
      [false, true].map boolCode = [0, 1])

/-- ENGINE RESET and its completion (R183, R184, R25): BUSY, then STATE unless the ports are QUIESCED; every deferred
command completes CANCELLED in the order taken and the reset's own completion follows them, counters and notices go, head, fetch
tail, write index, taken head and rings are kept, with all else the command engine holds, the blocks take their state from the
active copy, and DRAM, clock, refresh, sequence counter and the levels on the input pins are kept. What the blocks hold then is
given whole: the window table, intervals, wait counts of 0, no stream's offer, a stream's transfer running on unused (R25) and
every port's counters and last refusal cleared, its queue kept (R7, R20); the cue lines (R35); the cameras with both slots
EMPTY, no write held, picture counter 0 and carried quantizer 8, those marked RUNNING running (R43); the rings empty, a RUNNING
camera's with its replay window as extent (R80, R93); the coder and the clip controller with nothing (R78, R115), every position
of the mirror pending; the mixer (R97, R100, R104); the send engine with nothing but its sequence counter (R152); and the lanes
OFF, nothing on them but the break of a frame cut off, which leaves broken off, those with initial state ON turned on (R155,
R169). That the break of a cut frame is timed with the divider in force before the reset is the model's reading (assumption 39).
Once its completion has landed, the ports return to RUNNING. -/
def Obligations.EngineResetAppliesTheActiveCopy : Prop :=
  ∀ s : State,
    (∀ i tag, s.taken i (.engineReset tag) →
      (¬ s.part.noneOutstanding .engineReset → exec (.engineReset tag) s = .next (s.refuses i tag .busy)) ∧
      (s.part.noneOutstanding .engineReset → s.part.path.quiesce ≠ .quiesced →
        exec (.engineReset tag) s = .next (s.refuses i tag .state)) ∧
      (∀ copy, s.part.noneOutstanding .engineReset → s.part.path.quiesce = .quiesced → s.part.loader.active = some copy →
        ∃ t, exec (.engineReset tag) s = .next t ∧ t.dram = s.dram ∧ t.flash = s.flash ∧
          t.part.cmd = { s.part.cmd with
            inHand := none
            deferred := [⟨i, tag, .engineReset⟩], notices := [], counts := ⟨0, 0, 0, 0, 0, 0⟩
            completions := s.part.cmd.completions ++
              (s.part.cmd.deferred.map fun d => ⟨d.ring, d.tag, .cancelled, []⟩) ++ [⟨i, tag, .done, []⟩] } ∧
          t.part.now = s.part.now ∧ t.part.loader = s.part.loader ∧ t.part.clock = s.part.clock ∧
          t.part.path = { s.part.path with
            windows := copy.windows, intervals := copy.intervals, waits := Table.all 0, streams := Table.all none
            channel := match s.part.path.channel with
              | .stream x q _ => .stream x q true
              | c => c
            ports := s.part.path.ports.each fun q => { q with refusals := 0, reads := 0, writes := 0, last := none } } ∧
          (∀ l, t.part.cues.nth l =
            ⟨copy.cues.nth l, (s.part.cues.nth l).pin, (s.part.cues.nth l).pin, (s.part.cues.nth l).pin,
              decide ((copy.cues.nth l).mode = .tally ∧ ∃ k : Fin 8, (copy.cues.nth l).tally = k.val ∧
                (copy.cameras.nth k).1 = true ∧ (copy.cameras.nth k).2.live = true), none, 0, 0, none⟩) ∧
          (∀ k, t.part.cameras.nth k =
            ⟨if (copy.cameras.nth k).1 then .running else .stopped, (copy.cameras.nth k).2, 0, 8, none, Slot.clear, Slot.clear, none,
              ⟨0, 0, 0, 0, 0, 0, 0⟩⟩) ∧
          (∀ k, let w := copy.windows.nth (copy.cameras.nth k).2.replayWin
            t.part.rings.nth k =
              ⟨if (copy.cameras.nth k).1 then some (w.base, w.size) else none, 0, 0, [], 0, 0, 0, 0⟩) ∧
          t.part.coder = State.reset.part.coder ∧ t.part.clips = State.reset.part.clips ∧
          t.part.mixer = ⟨if copy.mixerOn then .running else .stopped, none,
            copy.sources.each fun x => ⟨x, 0, 0, 0⟩, copy.buses.each fun x => ⟨x.1, x.2, [], 0, 0, 0, 0⟩, 0⟩ ∧
          t.part.sender = { s.part.sender with
            items := [], store := [], build := none, cursors := Table.all none
            classes := copy.classes.each fun x => ⟨x.1, x.2, 0, 0, 0, 0, 0, 0, 0, 0, 0, 0, 0⟩
            counts := ⟨0, 0, 0, 0, 0, 0, 0, 0, 0⟩ } ∧
          (∀ l, let r := s.part.lanes.nth l
            let c := copy.lanes.nth l
            let off : Lane := { r with
              state := .off, cfg := c, filterTimer := none, settleTimer := none, receive := .between
              queue := [], fifo := [], sending := none, returnHold := false
              breakEnd := if r.sending = none then r.breakEnd else some (s.part.now + 256 * (12 * r.cfg.divider))
              counts := ⟨0, 0, 0, 0, 0, 0⟩ }
            t.part.lanes.nth l = if c.initialOn then { off with
              state := .waitCarrier
              breakEnd := match off.breakEnd with
                | some x => some x
                | none => some (s.part.now + 256 * (12 * c.divider))
              counts := ⟨0, 1, 0, 0, 0, 0⟩
              filtered := r.carrier
              settleTimer := if r.carrier then some (s.part.now + 300000000) else none } else off) ∧
          t.part.outputs = s.part.outputs ++ (List.finRange 4).flatMap fun l =>
            match (s.part.lanes.nth l).sending with
            | some (f, _) => [.frameBroken l f.kind]
            | none => [])) ∧
    ((s.part.cmd.resetWritten = false ∨ s.part.noneOutstanding .engineReset) → exec .engineResetComplete s = .next s) ∧
    (s.part.cmd.resetWritten = true → ¬ s.part.noneOutstanding .engineReset →
      exec .engineResetComplete s = .next (s.becomes { s.part with
        cmd := { s.part.cmd with deferred := s.part.cmd.deferred.filter fun d => d.kind != .engineReset, resetWritten := false }
        path := { s.part.path with quiesce := .running } }))

/-! ## Chapter 11: start-up -/

/-- Power-on (R185): every block is clear, the straps are sampled, and the loader goes to READING or to LOAD. What DRAM holds
then is undefined until written (assumption 1). That a clear block holds its State.reset values is the model's choice where
the spec gives a setting no value before the application (assumption 4; for the filtered carrier assumption 40), and so is
that the levels on the cue pins, the carrier inputs and the modem holds stand through POWER_ON (assumption 5). What the checks
accept (R186, R194, 12.7) is `imageHeld`: an image is taken where the flash holds one, and FALLBACK follows where it holds
none, so that each check that fails refuses it: the marker, the length, the check value (`imageHeaded`); the section list,
nine sections of one kind each, of their lengths, within the image (`sectionsPlaced`), and every field, at the place the
layout gives it, in the range its command tests (`globalGiven` and the entries, `imageFields`); the OPEN windows disjoint, one
COMMAND, one STATUS and at most one CLIP LIST, the windows of RUNNING cameras, ON sources and ACTIVE buses, the contribution
lists ascending, four send flags at most (`imageAgrees`); and the station number not 0 (R168). That the entry's place in its
section, and not the number it carries, names the object is the model's reading (assumption 13), and so are the codes of the
states and flags that 12.1 gives no table (assumption 12).
The end of the image read (R186, R187, R189): an image that passes every check is applied and calibration begins: the cameras
it marks RUNNING are RUNNING with both slots EMPTY, their rings taking up the replay window (R43, R45, R80), and the others
STOPPED; the lanes whose initial state is ON are turned on as LANE ON turns one on (R155, R157), in WAIT CARRIER with a break
on the line and the filtered carrier taken from the input, and the others OFF; the send queues, the clips and the coder are
empty; and the command engine takes up the rings of the image's COMMAND and STATUS windows and writes the write index word, 0,
first (R171); any other leads to FALLBACK, with every window CLOSED and every camera, source, bus and lane stopped, the send
classes at their FALLBACK settings (R152), and the fault line toggling; either way the programme clock starts at the rate in
force. That it starts at this event (R26, R187) and not at memory READY, before which R185 has it not started, is the model's
reading (assumption 43). -/
def Obligations.PowerOnThenTheImageOrFallback : Prop :=
  (
  ∀ (s : State) (dt : Nat) (load stn1 stn0 : Bool), ∃ t, exec (.powerOn dt load stn1 stn0) s = .next t ∧
    t.pending = s.pending ∧ t.flash = s.flash ∧
    t.part.loader = { State.reset.part.loader with
      state := if load then .load else .reading, modeLoad := load, stn1 := stn1, stn0 := stn0 } ∧
    t.part.path = State.reset.part.path ∧ t.part.clock = State.reset.part.clock ∧ t.part.cameras = State.reset.part.cameras ∧
    t.part.coder = State.reset.part.coder ∧ t.part.rings = State.reset.part.rings ∧ t.part.mixer = State.reset.part.mixer ∧
    t.part.clips = State.reset.part.clips ∧ t.part.sender = State.reset.part.sender ∧ t.part.cmd = State.reset.part.cmd ∧
    (∀ l, t.part.lanes.nth l = { (State.reset.part.lanes.nth l) with
      carrier := (s.part.lanes.nth l).carrier, modemHold := (s.part.lanes.nth l).modemHold }) ∧
    (∀ c, let pin := (s.part.cues.nth c).pin
      t.part.cues.nth c = ⟨(State.reset.part.cues.nth c).cfg, pin, pin, pin, false, none, 0, 0, none⟩)) ∧
  (
  ∀ (flash : Memory) (stn1 stn0 : Bool),
    let b (a : Nat) : Byte := flash.readByte 255 a
    ∀ copy, checkedImage flash stn1 stn0 = some copy ↔ imageHeld b stn1 stn0 copy) ∧
  (
  ∀ (s : State) (dt : Nat), s.part.loader.state = .reading →
    (∀ copy, checkedImage s.flash s.part.loader.stn1 s.part.loader.stn0 = some copy →
      ∃ t, exec (.imageReadComplete dt) s = .next t ∧ t.dram = s.dram ∧ t.flash = s.flash ∧
        t.part.loader.state = .calibrating ∧ t.part.loader.calibrating = true ∧ t.part.loader.active = some copy ∧
        t.part.loader.station = 4 * copy.station + 2 * s.part.loader.stn1.toNat + s.part.loader.stn0.toNat ∧
        t.part.path.windows = copy.windows ∧ t.part.path.intervals = copy.intervals ∧
        t.part.clock.started = true ∧ t.part.clock.rate = copy.rate ∧
        t.part.clock.frame.oscillator = some (s.part.now + dt + copy.rate.period) ∧
        t.part.clock.word.oscillator = some (s.part.now + dt + 3000000) ∧
        (∀ k, t.part.cameras.nth k = { Camera.initial (copy.cameras.nth k).2 with
          state := if (copy.cameras.nth k).1 then .running else .stopped }) ∧
        (∀ k, let w := copy.windows.nth (copy.cameras.nth k).2.replayWin
          t.part.rings.nth k = { Ring.clear with
            extent := if (copy.cameras.nth k).1 then some (w.base, w.size) else none }) ∧
        (∀ l, let c := copy.lanes.nth l
          let off : Lane := { Lane.initial c with
            carrier := (s.part.lanes.nth l).carrier, modemHold := (s.part.lanes.nth l).modemHold }
          t.part.lanes.nth l = if c.initialOn then { off with
            state := .waitCarrier
            breakEnd := some (s.part.now + dt + 256 * (12 * c.divider))
            counts := ⟨0, 1, 0, 0, 0, 0⟩
            filtered := off.carrier
            settleTimer := if off.carrier then some (s.part.now + dt + 300000000) else none } else off) ∧
        t.part.coder = State.reset.part.coder ∧ t.part.clips = State.reset.part.clips ∧
        t.part.sender.items = [] ∧ t.part.sender.store = [] ∧ t.part.sender.build = none ∧
        (∀ x, t.part.sender.cursors.nth x = none) ∧ t.part.sender.seq = s.part.sender.seq ∧
        (t.part.mixer.state = if copy.mixerOn then .running else .stopped) ∧ t.part.mixer.pass = none ∧
        (∀ n, t.part.mixer.sources.nth n = ⟨copy.sources.nth n, 0, 0, 0⟩) ∧
        (∀ b, t.part.mixer.buses.nth b = ⟨(copy.buses.nth b).1, (copy.buses.nth b).2, [], 0, 0, 0, 0⟩) ∧
        (∀ x, t.part.sender.classes.nth x =
          ⟨(copy.classes.nth x).1, (copy.classes.nth x).2, 0, 0, 0, 0, 0, 0, 0, 0, 0, 0, 0⟩) ∧
        (∀ l, t.part.cues.nth l =
          ⟨copy.cues.nth l, (s.part.cues.nth l).pin, (s.part.cues.nth l).pin, (s.part.cues.nth l).pin,
            decide ((copy.cues.nth l).mode = .tally ∧ ∃ k : Fin 8, (copy.cues.nth l).tally = k.val ∧
              (copy.cameras.nth k).1 = true ∧ (copy.cameras.nth k).2.live = true), none, 0, 0, none⟩) ∧
        ∃ cw sw : Fin 32,
          (∀ w, (copy.windows.nth w).state = .opened ∧ (copy.windows.nth w).kind = .command ↔ w = cw) ∧
          (∀ w, (copy.windows.nth w).state = .opened ∧ (copy.windows.nth w).kind = .status ↔ w = sw) ∧
          t.part.cmd = { State.reset.part.cmd with
            rings := some ⟨cw, sw, (copy.windows.nth cw).base, (copy.windows.nth sw).base, copy.n, copy.m⟩
            use := some .status
            status := some (.index 0 false) } ∧
          t.part.path.streams.nth commandStream =
            some (writeRequest ((copy.windows.nth sw).base + 8) (leBytes 8 0))) ∧
    (checkedImage s.flash s.part.loader.stn1 s.part.loader.stn0 = none →
      ∃ t, exec (.imageReadComplete dt) s = .next t ∧ t.dram = s.dram ∧ t.flash = s.flash ∧
        t.part.loader.state = .fallback ∧ t.part.loader.calibrating = true ∧
        t.part.loader.faultTimer = some (s.part.now + dt + 375000000) ∧
        (∀ w, (t.part.path.windows.nth w).state = .closed) ∧ (∀ c, t.part.path.intervals.nth c = 8) ∧
        t.part.clock.started = true ∧ t.part.clock.rate = .p25 ∧
        (∀ k, (t.part.cameras.nth k).state = .stopped) ∧ (∀ c, (t.part.cues.nth c).cfg.mode = .off) ∧
        (∀ n, (t.part.mixer.sources.nth n).cfg.on = false) ∧ (∀ b, (t.part.mixer.buses.nth b).cfg.active = false) ∧
        (∀ l, (t.part.lanes.nth l).state = .off) ∧ t.part.cmd.rings = s.part.cmd.rings ∧ t.part.mixer.state = .stopped ∧
        t.part.loader.station = 2 * s.part.loader.stn1.toNat + s.part.loader.stn0.toNat ∧
        t.part.cameras = State.reset.part.cameras ∧ t.part.rings = State.reset.part.rings ∧ t.part.coder = State.reset.part.coder ∧
        t.part.mixer = State.reset.part.mixer ∧ t.part.clips = State.reset.part.clips ∧ t.part.sender.items = [] ∧
        t.part.sender.store = [] ∧ t.part.sender.build = none ∧ (∀ x, t.part.sender.cursors.nth x = none) ∧
        (∀ c : Fin 4, ((t.part.sender.classes.nth c).interval, (t.part.sender.classes.nth c).hold) =
          if c = 0 then (1, 150) else if c = 1 then (2, 300) else if c = 2 then (8, 5000) else (16, 30000))))

/-- Calibration and the fault line (R188, R189): PASS makes memory READY and starts the refresh timer; two failures try
again and a third is DRAM FAULT; a toggling fault line changes level every 125 ms. -/
def Obligations.CalibrationMakesMemoryReadyOrFaults : Prop :=
  ∀ s : State,
    (∀ dt pass, s.part.loader.calibrating = false →
      exec (.calibrationComplete dt pass) s = .next (s.becomes { s.part with now := s.part.now + dt })) ∧
    (∀ dt, s.part.loader.calibrating = true → ∃ t, exec (.calibrationComplete dt true) s = .next t ∧
      t.part = { s.part with
        now := s.part.now + dt
        loader := { s.part.loader with
          calibrating := false, state := if s.part.loader.state = .fallback then .fallback else .running }
        path := { s.part.path with ready := true, refreshTimer := some (s.part.now + dt + s.part.refreshInterval) } }) ∧
    (∀ dt, s.part.loader.calibrating = true → s.part.loader.attempts < 2 →
      exec (.calibrationComplete dt false) s = .next (s.becomes { s.part with
        now := s.part.now + dt, loader := { s.part.loader with attempts := s.part.loader.attempts + 1 } })) ∧
    (∀ dt, s.part.loader.calibrating = true → s.part.loader.attempts = 2 →
      exec (.calibrationComplete dt false) s = .next (s.becomes { s.part with
        now := s.part.now + dt
        loader := { s.part.loader with
          attempts := 3, calibrating := false, state := .dramFault, faultHigh := true, faultTimer := none } })) ∧
    (s.part.loader.faultTimer = none → exec .faultLineToggle s = .next s) ∧
    (∀ t, s.part.loader.faultTimer = some t → exec .faultLineToggle s = .next (s.becomes { s.part with
      now := max s.part.now t
      loader := { s.part.loader with faultHigh := !s.part.loader.faultHigh, faultTimer := some (t + 375000000) } }))

/-- The answers of a load (R190, R191): a record with a framing error or a wrong check is answered "?", a good START begins a
load and erases its length; a DATA record at the load position is written and answered "+", or "#" where the flash gives other
bytes back, and a repeat of the last is answered "+" and not written; END checks the whole; a record that comes during an
erase waits, is handled at its end as if it came then, and a second one is answered "?". DATA and END outside a load, in
AWAITING START, COMPLETE and FAILED, are answered "!"; the end of an erase that a break has overtaken answers nothing, its
load having failed, and lets a waiting record be handled. END's check of the whole is that the flash holds the marker, the
START length in the length field and the check value (R193) of the image's bytes, its own field counted as zeros; that an
image too short to hold its check value field fails is the model's reading (assumption 41). The model's choices in this:
erased bytes read FFH (assumption 3), a fault line that begins to toggle is LOW first (assumption 20), what the flash gives
back comes with the DATA record (assumption 17), and an erase runs on through a break, the record waiting handled at its end
(assumption 24). -/
def Obligations.LoadRecordsAreAnswered : Prop :=
  ∀ s : State, s.part.loader.state = .load →
    let l := s.part.loader
    let answers (dt : Nat) (x : Byte) (y : Loader) := s.becomes { s.part with
      now := s.part.now + dt, loader := y, outputs := s.part.outputs ++ [.answer x] }
    let check (kind : Byte) (fields : List Byte) := crc ([kind] ++ leBytes 2 fields.length ++ fields)
    (∀ dt framing n k, framing = true ∨ k ≠ check 0 (leBytes 4 n.toNat) →
      exec (.loadStart dt framing n k) s = .next (answers dt 0x3F l)) ∧
    (∀ dt framing o bs k rb, loadDataWf bs rb = true → framing = true ∨ k ≠ check 1 (leBytes 4 o.toNat ++ bs) →
      exec (.loadData dt framing o bs k rb) s = .next (answers dt 0x3F l)) ∧
    (∀ dt framing k, framing = true ∨ k ≠ check 2 [] → exec (.loadEnd dt framing k) s = .next (answers dt 0x3F l)) ∧
    (∀ dt (n : Word), l.erasing = false → l.load ≠ .receiving →
      (1 ≤ n.toNat → n.toNat ≤ 65536 → ∃ t, exec (.loadStart dt false n (check 0 (leBytes 4 n.toNat))) s = .next t ∧
        t.dram = s.dram ∧ (∀ a, t.flash.readByte 255 a = if a < n.toNat then 255 else s.flash.readByte 255 a) ∧
        t.part = { s.part with now := s.part.now + dt, loader := { l with
          load := .receiving, position := 0, length := n.toNat, erasing := true, lastData := none,
          faultHigh := false, faultTimer := none } }) ∧
      (n.toNat = 0 ∨ 65536 < n.toNat →
        exec (.loadStart dt false n (check 0 (leBytes 4 n.toNat))) s = .next (answers dt 0x21 l))) ∧
    (∀ dt (n : Word), l.erasing = false → l.load = .receiving →
      exec (.loadStart dt false n (check 0 (leBytes 4 n.toNat))) s = .next (answers dt 0x21 l)) ∧
    (∀ dt, l.erasing = true → l.load = .receiving → l.waiting = none →
      exec (.eraseComplete dt) s = .next (answers dt 0x2B { l with erasing := false, waiting := none })) ∧
    (∀ dt (o : Word) bs, loadDataWf bs bs = true → s.memoriesWf = true → l.erasing = false → l.load = .receiving →
      l.lastData ≠ some (o.toNat, bs) →
      (o.toNat = l.position → o.toNat + bs.length ≤ l.length →
        ∃ t, exec (.loadData dt false o bs (check 1 (leBytes 4 o.toNat ++ bs)) bs) s = .next t ∧ t.dram = s.dram ∧
          (∀ a, t.flash.readByte 255 a =
            if o.toNat ≤ a then (bs[a - o.toNat]?).getD (s.flash.readByte 255 a) else s.flash.readByte 255 a) ∧
          t.part = { s.part with
            now := s.part.now + dt
            outputs := s.part.outputs ++ [.answer 0x2B]
            loader := { l with position := l.position + bs.length, lastData := some (o.toNat, bs) } }) ∧
      (o.toNat ≠ l.position ∨ l.length < o.toNat + bs.length →
        exec (.loadData dt false o bs (check 1 (leBytes 4 o.toNat ++ bs)) bs) s = .next (answers dt 0x21 l))) ∧
    (∀ dt (o : Word) bs rb, loadDataWf bs rb = true → l.erasing = false → l.load = .receiving →
      let run := exec (.loadData dt false o bs (check 1 (leBytes 4 o.toNat ++ bs)) rb) s
      (l.lastData = some (o.toNat, bs) → run = .next (answers dt 0x2B l)) ∧
      (l.lastData ≠ some (o.toNat, bs) → o.toNat = l.position → o.toNat + bs.length ≤ l.length → rb ≠ bs → s.memoriesWf = true →
        ∃ t, run = .next t ∧ t.dram = s.dram ∧
          (∀ a, t.flash.readByte 255 a =
            if o.toNat ≤ a then (rb[a - o.toNat]?).getD (s.flash.readByte 255 a) else s.flash.readByte 255 a) ∧
          t.part = { s.part with
            now := s.part.now + dt
            outputs := s.part.outputs ++ [.answer 0x23]
            loader := { l with load := .failed, faultHigh := false, faultTimer := some (s.part.now + dt + 375000000) } })) ∧
    (l.erasing = true →
      let waits (dt : Nat) (c : Instr) (r : LoadRecord) :=
        (l.waiting = none → exec c s = .next (s.becomes { s.part with
          now := s.part.now + dt, loader := { l with waiting := some r } })) ∧
        (l.waiting ≠ none → exec c s = .next (answers dt 0x3F l))
      (∀ dt (n : Word), waits dt (.loadStart dt false n (check 0 (leBytes 4 n.toNat))) (.start n.toNat)) ∧
      (∀ dt (o : Word) bs rb, loadDataWf bs rb = true →
        waits dt (.loadData dt false o bs (check 1 (leBytes 4 o.toNat ++ bs)) rb) (.data o.toNat bs rb)) ∧
      (∀ dt, waits dt (.loadEnd dt false (check 2 [])) .finish)) ∧
    (∀ dt r, l.erasing = true → l.load = .receiving → l.waiting = some r →
      exec (.eraseComplete dt) s =
        .next ((answers dt 0x2B { l with erasing := false, waiting := none }).handleRecord r)) ∧
    (∀ dt, l.erasing = false → exec (.eraseComplete dt) s = .next (s.becomes { s.part with now := s.part.now + dt })) ∧
    (∀ dt, l.erasing = true → l.load ≠ .receiving →
      let ended := s.becomes { s.part with now := s.part.now + dt, loader := { l with erasing := false, waiting := none } }
      (l.waiting = none → exec (.eraseComplete dt) s = .next ended) ∧
      (∀ r, l.waiting = some r → exec (.eraseComplete dt) s = .next (ended.handleRecord r))) ∧
    (l.erasing = false →
      (∀ n : Word, exec (.loadStart 0 false n (check 0 (leBytes 4 n.toNat))) s = .next (s.handleRecord (.start n.toNat))) ∧
      (∀ (o : Word) bs rb, loadDataWf bs rb = true →
        exec (.loadData 0 false o bs (check 1 (leBytes 4 o.toNat ++ bs)) rb) s = .next (s.handleRecord (.data o.toNat bs rb))) ∧
      exec (.loadEnd 0 false (check 2 [])) s = .next (s.handleRecord .finish)) ∧
    (l.erasing = false → l.load ≠ .receiving →
      (∀ dt (o : Word) bs rb, loadDataWf bs rb = true →
        exec (.loadData dt false o bs (check 1 (leBytes 4 o.toNat ++ bs)) rb) s = .next (answers dt 0x21 l)) ∧
      (∀ dt, exec (.loadEnd dt false (check 2 [])) s = .next (answers dt 0x21 l))) ∧
    (let at' (a : Nat) : Byte := s.flash.readByte 255 a
     let image := (List.range l.length).map at'
     let number (a : Nat) : Nat := (at' a).toNat + 256 * (at' (a + 1)).toNat + 65536 * (at' (a + 2)).toNat +
       16777216 * (at' (a + 3)).toNat
     s.endCheck = true ↔ 12 ≤ l.length ∧ at' 0 = 0x4F ∧ at' 1 = 0x4A ∧ at' 2 = 0x32 ∧ at' 3 = 0x36 ∧
       number 4 = l.length ∧ number 8 = (crc (image.take 8 ++ zeros 4 ++ image.drop 12)).toNat) ∧
    (∀ dt, l.erasing = false → l.load = .receiving →
      (l.position ≠ l.length → exec (.loadEnd dt false (check 2 [])) s = .next (answers dt 0x21 l)) ∧
      (l.position = l.length → s.endCheck = true →
        exec (.loadEnd dt false (check 2 [])) s = .next (answers dt 0x3D { l with load := .complete })) ∧
      (l.position = l.length → s.endCheck = false →
        exec (.loadEnd dt false (check 2 [])) s = .next (answers dt 0x58 { l with
          load := .failed, faultHigh := false, faultTimer := some (s.part.now + dt + 375000000) }))) ∧
    (∀ dt, l.load = .receiving → exec (.maintenanceBreak dt) s = .next (s.becomes { s.part with
      now := s.part.now + dt
      loader := { l with load := .failed, faultHigh := false, faultTimer := some (s.part.now + dt + 375000000) } })) ∧
    (∀ dt, l.load ≠ .receiving → exec (.maintenanceBreak dt) s = .next (s.becomes { s.part with now := s.part.now + dt }))
end

