-- ==== Sys2Proof/Laws/State.lean ====
section
/-! SUPPORT. One lemma per block of the part and per setter, true by unfolding, so that no proof unfolds a
record update; and the same for the whole state. -/

namespace Sys2Proof.Machine

namespace Part

variable (p : Part)

@[simp] theorem setPath_now (x : Path) : (p.setPath x).now = p.now := rfl
@[simp] theorem setPath_outputs (x : Path) : (p.setPath x).outputs = p.outputs := rfl
@[simp] theorem setPath_loader (x : Path) : (p.setPath x).loader = p.loader := rfl
@[simp] theorem setPath_path (x : Path) : (p.setPath x).path = x := rfl
@[simp] theorem setPath_clock (x : Path) : (p.setPath x).clock = p.clock := rfl
@[simp] theorem setPath_cues (x : Path) : (p.setPath x).cues = p.cues := rfl
@[simp] theorem setPath_cameras (x : Path) : (p.setPath x).cameras = p.cameras := rfl
@[simp] theorem setPath_coder (x : Path) : (p.setPath x).coder = p.coder := rfl
@[simp] theorem setPath_rings (x : Path) : (p.setPath x).rings = p.rings := rfl
@[simp] theorem setPath_mixer (x : Path) : (p.setPath x).mixer = p.mixer := rfl
@[simp] theorem setPath_clips (x : Path) : (p.setPath x).clips = p.clips := rfl
@[simp] theorem setPath_sender (x : Path) : (p.setPath x).sender = p.sender := rfl
@[simp] theorem setPath_lanes (x : Path) : (p.setPath x).lanes = p.lanes := rfl
@[simp] theorem setPath_cmd (x : Path) : (p.setPath x).cmd = p.cmd := rfl

@[simp] theorem setClock_now (x : Clock) : (p.setClock x).now = p.now := rfl
@[simp] theorem setClock_outputs (x : Clock) : (p.setClock x).outputs = p.outputs := rfl
@[simp] theorem setClock_loader (x : Clock) : (p.setClock x).loader = p.loader := rfl
@[simp] theorem setClock_path (x : Clock) : (p.setClock x).path = p.path := rfl
@[simp] theorem setClock_clock (x : Clock) : (p.setClock x).clock = x := rfl
@[simp] theorem setClock_cues (x : Clock) : (p.setClock x).cues = p.cues := rfl
@[simp] theorem setClock_cameras (x : Clock) : (p.setClock x).cameras = p.cameras := rfl
@[simp] theorem setClock_coder (x : Clock) : (p.setClock x).coder = p.coder := rfl
@[simp] theorem setClock_rings (x : Clock) : (p.setClock x).rings = p.rings := rfl
@[simp] theorem setClock_mixer (x : Clock) : (p.setClock x).mixer = p.mixer := rfl
@[simp] theorem setClock_clips (x : Clock) : (p.setClock x).clips = p.clips := rfl
@[simp] theorem setClock_sender (x : Clock) : (p.setClock x).sender = p.sender := rfl
@[simp] theorem setClock_lanes (x : Clock) : (p.setClock x).lanes = p.lanes := rfl
@[simp] theorem setClock_cmd (x : Clock) : (p.setClock x).cmd = p.cmd := rfl

@[simp] theorem setCoder_now (x : Coder) : (p.setCoder x).now = p.now := rfl
@[simp] theorem setCoder_outputs (x : Coder) : (p.setCoder x).outputs = p.outputs := rfl
@[simp] theorem setCoder_loader (x : Coder) : (p.setCoder x).loader = p.loader := rfl
@[simp] theorem setCoder_path (x : Coder) : (p.setCoder x).path = p.path := rfl
@[simp] theorem setCoder_clock (x : Coder) : (p.setCoder x).clock = p.clock := rfl
@[simp] theorem setCoder_cues (x : Coder) : (p.setCoder x).cues = p.cues := rfl
@[simp] theorem setCoder_cameras (x : Coder) : (p.setCoder x).cameras = p.cameras := rfl
@[simp] theorem setCoder_coder (x : Coder) : (p.setCoder x).coder = x := rfl
@[simp] theorem setCoder_rings (x : Coder) : (p.setCoder x).rings = p.rings := rfl
@[simp] theorem setCoder_mixer (x : Coder) : (p.setCoder x).mixer = p.mixer := rfl
@[simp] theorem setCoder_clips (x : Coder) : (p.setCoder x).clips = p.clips := rfl
@[simp] theorem setCoder_sender (x : Coder) : (p.setCoder x).sender = p.sender := rfl
@[simp] theorem setCoder_lanes (x : Coder) : (p.setCoder x).lanes = p.lanes := rfl
@[simp] theorem setCoder_cmd (x : Coder) : (p.setCoder x).cmd = p.cmd := rfl

@[simp] theorem setMixer_now (x : Mixer) : (p.setMixer x).now = p.now := rfl
@[simp] theorem setMixer_outputs (x : Mixer) : (p.setMixer x).outputs = p.outputs := rfl
@[simp] theorem setMixer_loader (x : Mixer) : (p.setMixer x).loader = p.loader := rfl
@[simp] theorem setMixer_path (x : Mixer) : (p.setMixer x).path = p.path := rfl
@[simp] theorem setMixer_clock (x : Mixer) : (p.setMixer x).clock = p.clock := rfl
@[simp] theorem setMixer_cues (x : Mixer) : (p.setMixer x).cues = p.cues := rfl
@[simp] theorem setMixer_cameras (x : Mixer) : (p.setMixer x).cameras = p.cameras := rfl
@[simp] theorem setMixer_coder (x : Mixer) : (p.setMixer x).coder = p.coder := rfl
@[simp] theorem setMixer_rings (x : Mixer) : (p.setMixer x).rings = p.rings := rfl
@[simp] theorem setMixer_mixer (x : Mixer) : (p.setMixer x).mixer = x := rfl
@[simp] theorem setMixer_clips (x : Mixer) : (p.setMixer x).clips = p.clips := rfl
@[simp] theorem setMixer_sender (x : Mixer) : (p.setMixer x).sender = p.sender := rfl
@[simp] theorem setMixer_lanes (x : Mixer) : (p.setMixer x).lanes = p.lanes := rfl
@[simp] theorem setMixer_cmd (x : Mixer) : (p.setMixer x).cmd = p.cmd := rfl

@[simp] theorem setClips_now (x : Clips) : (p.setClips x).now = p.now := rfl
@[simp] theorem setClips_outputs (x : Clips) : (p.setClips x).outputs = p.outputs := rfl
@[simp] theorem setClips_loader (x : Clips) : (p.setClips x).loader = p.loader := rfl
@[simp] theorem setClips_path (x : Clips) : (p.setClips x).path = p.path := rfl
@[simp] theorem setClips_clock (x : Clips) : (p.setClips x).clock = p.clock := rfl
@[simp] theorem setClips_cues (x : Clips) : (p.setClips x).cues = p.cues := rfl
@[simp] theorem setClips_cameras (x : Clips) : (p.setClips x).cameras = p.cameras := rfl
@[simp] theorem setClips_coder (x : Clips) : (p.setClips x).coder = p.coder := rfl
@[simp] theorem setClips_rings (x : Clips) : (p.setClips x).rings = p.rings := rfl
@[simp] theorem setClips_mixer (x : Clips) : (p.setClips x).mixer = p.mixer := rfl
@[simp] theorem setClips_clips (x : Clips) : (p.setClips x).clips = x := rfl
@[simp] theorem setClips_sender (x : Clips) : (p.setClips x).sender = p.sender := rfl
@[simp] theorem setClips_lanes (x : Clips) : (p.setClips x).lanes = p.lanes := rfl
@[simp] theorem setClips_cmd (x : Clips) : (p.setClips x).cmd = p.cmd := rfl

@[simp] theorem setSender_now (x : Sender) : (p.setSender x).now = p.now := rfl
@[simp] theorem setSender_outputs (x : Sender) : (p.setSender x).outputs = p.outputs := rfl
@[simp] theorem setSender_loader (x : Sender) : (p.setSender x).loader = p.loader := rfl
@[simp] theorem setSender_path (x : Sender) : (p.setSender x).path = p.path := rfl
@[simp] theorem setSender_clock (x : Sender) : (p.setSender x).clock = p.clock := rfl
@[simp] theorem setSender_cues (x : Sender) : (p.setSender x).cues = p.cues := rfl
@[simp] theorem setSender_cameras (x : Sender) : (p.setSender x).cameras = p.cameras := rfl
@[simp] theorem setSender_coder (x : Sender) : (p.setSender x).coder = p.coder := rfl
@[simp] theorem setSender_rings (x : Sender) : (p.setSender x).rings = p.rings := rfl
@[simp] theorem setSender_mixer (x : Sender) : (p.setSender x).mixer = p.mixer := rfl
@[simp] theorem setSender_clips (x : Sender) : (p.setSender x).clips = p.clips := rfl
@[simp] theorem setSender_sender (x : Sender) : (p.setSender x).sender = x := rfl
@[simp] theorem setSender_lanes (x : Sender) : (p.setSender x).lanes = p.lanes := rfl
@[simp] theorem setSender_cmd (x : Sender) : (p.setSender x).cmd = p.cmd := rfl

@[simp] theorem setCmd_now (x : Commander) : (p.setCmd x).now = p.now := rfl
@[simp] theorem setCmd_outputs (x : Commander) : (p.setCmd x).outputs = p.outputs := rfl
@[simp] theorem setCmd_loader (x : Commander) : (p.setCmd x).loader = p.loader := rfl
@[simp] theorem setCmd_path (x : Commander) : (p.setCmd x).path = p.path := rfl
@[simp] theorem setCmd_clock (x : Commander) : (p.setCmd x).clock = p.clock := rfl
@[simp] theorem setCmd_cues (x : Commander) : (p.setCmd x).cues = p.cues := rfl
@[simp] theorem setCmd_cameras (x : Commander) : (p.setCmd x).cameras = p.cameras := rfl
@[simp] theorem setCmd_coder (x : Commander) : (p.setCmd x).coder = p.coder := rfl
@[simp] theorem setCmd_rings (x : Commander) : (p.setCmd x).rings = p.rings := rfl
@[simp] theorem setCmd_mixer (x : Commander) : (p.setCmd x).mixer = p.mixer := rfl
@[simp] theorem setCmd_clips (x : Commander) : (p.setCmd x).clips = p.clips := rfl
@[simp] theorem setCmd_sender (x : Commander) : (p.setCmd x).sender = p.sender := rfl
@[simp] theorem setCmd_lanes (x : Commander) : (p.setCmd x).lanes = p.lanes := rfl
@[simp] theorem setCmd_cmd (x : Commander) : (p.setCmd x).cmd = x := rfl

@[simp] theorem setLoader_now (x : Loader) : (p.setLoader x).now = p.now := rfl
@[simp] theorem setLoader_outputs (x : Loader) : (p.setLoader x).outputs = p.outputs := rfl
@[simp] theorem setLoader_loader (x : Loader) : (p.setLoader x).loader = x := rfl
@[simp] theorem setLoader_path (x : Loader) : (p.setLoader x).path = p.path := rfl
@[simp] theorem setLoader_clock (x : Loader) : (p.setLoader x).clock = p.clock := rfl
@[simp] theorem setLoader_cues (x : Loader) : (p.setLoader x).cues = p.cues := rfl
@[simp] theorem setLoader_cameras (x : Loader) : (p.setLoader x).cameras = p.cameras := rfl
@[simp] theorem setLoader_coder (x : Loader) : (p.setLoader x).coder = p.coder := rfl
@[simp] theorem setLoader_rings (x : Loader) : (p.setLoader x).rings = p.rings := rfl
@[simp] theorem setLoader_mixer (x : Loader) : (p.setLoader x).mixer = p.mixer := rfl
@[simp] theorem setLoader_clips (x : Loader) : (p.setLoader x).clips = p.clips := rfl
@[simp] theorem setLoader_sender (x : Loader) : (p.setLoader x).sender = p.sender := rfl
@[simp] theorem setLoader_lanes (x : Loader) : (p.setLoader x).lanes = p.lanes := rfl
@[simp] theorem setLoader_cmd (x : Loader) : (p.setLoader x).cmd = p.cmd := rfl

@[simp] theorem setNow_now (x : Nat) : (p.setNow x).now = x := rfl
@[simp] theorem setNow_outputs (x : Nat) : (p.setNow x).outputs = p.outputs := rfl
@[simp] theorem setNow_loader (x : Nat) : (p.setNow x).loader = p.loader := rfl
@[simp] theorem setNow_path (x : Nat) : (p.setNow x).path = p.path := rfl
@[simp] theorem setNow_clock (x : Nat) : (p.setNow x).clock = p.clock := rfl
@[simp] theorem setNow_cues (x : Nat) : (p.setNow x).cues = p.cues := rfl
@[simp] theorem setNow_cameras (x : Nat) : (p.setNow x).cameras = p.cameras := rfl
@[simp] theorem setNow_coder (x : Nat) : (p.setNow x).coder = p.coder := rfl
@[simp] theorem setNow_rings (x : Nat) : (p.setNow x).rings = p.rings := rfl
@[simp] theorem setNow_mixer (x : Nat) : (p.setNow x).mixer = p.mixer := rfl
@[simp] theorem setNow_clips (x : Nat) : (p.setNow x).clips = p.clips := rfl
@[simp] theorem setNow_sender (x : Nat) : (p.setNow x).sender = p.sender := rfl
@[simp] theorem setNow_lanes (x : Nat) : (p.setNow x).lanes = p.lanes := rfl
@[simp] theorem setNow_cmd (x : Nat) : (p.setNow x).cmd = p.cmd := rfl

@[simp] theorem setCues_now (x : Table CueLine 8) : (p.setCues x).now = p.now := rfl
@[simp] theorem setCues_outputs (x : Table CueLine 8) : (p.setCues x).outputs = p.outputs := rfl
@[simp] theorem setCues_loader (x : Table CueLine 8) : (p.setCues x).loader = p.loader := rfl
@[simp] theorem setCues_path (x : Table CueLine 8) : (p.setCues x).path = p.path := rfl
@[simp] theorem setCues_clock (x : Table CueLine 8) : (p.setCues x).clock = p.clock := rfl
@[simp] theorem setCues_cues (x : Table CueLine 8) : (p.setCues x).cues = x := rfl
@[simp] theorem setCues_cameras (x : Table CueLine 8) : (p.setCues x).cameras = p.cameras := rfl
@[simp] theorem setCues_coder (x : Table CueLine 8) : (p.setCues x).coder = p.coder := rfl
@[simp] theorem setCues_rings (x : Table CueLine 8) : (p.setCues x).rings = p.rings := rfl
@[simp] theorem setCues_mixer (x : Table CueLine 8) : (p.setCues x).mixer = p.mixer := rfl
@[simp] theorem setCues_clips (x : Table CueLine 8) : (p.setCues x).clips = p.clips := rfl
@[simp] theorem setCues_sender (x : Table CueLine 8) : (p.setCues x).sender = p.sender := rfl
@[simp] theorem setCues_lanes (x : Table CueLine 8) : (p.setCues x).lanes = p.lanes := rfl
@[simp] theorem setCues_cmd (x : Table CueLine 8) : (p.setCues x).cmd = p.cmd := rfl

@[simp] theorem setCameras_now (x : Table Camera 8) : (p.setCameras x).now = p.now := rfl
@[simp] theorem setCameras_outputs (x : Table Camera 8) : (p.setCameras x).outputs = p.outputs := rfl
@[simp] theorem setCameras_loader (x : Table Camera 8) : (p.setCameras x).loader = p.loader := rfl
@[simp] theorem setCameras_path (x : Table Camera 8) : (p.setCameras x).path = p.path := rfl
@[simp] theorem setCameras_clock (x : Table Camera 8) : (p.setCameras x).clock = p.clock := rfl
@[simp] theorem setCameras_cues (x : Table Camera 8) : (p.setCameras x).cues = p.cues := rfl
@[simp] theorem setCameras_cameras (x : Table Camera 8) : (p.setCameras x).cameras = x := rfl
@[simp] theorem setCameras_coder (x : Table Camera 8) : (p.setCameras x).coder = p.coder := rfl
@[simp] theorem setCameras_rings (x : Table Camera 8) : (p.setCameras x).rings = p.rings := rfl
@[simp] theorem setCameras_mixer (x : Table Camera 8) : (p.setCameras x).mixer = p.mixer := rfl
@[simp] theorem setCameras_clips (x : Table Camera 8) : (p.setCameras x).clips = p.clips := rfl
@[simp] theorem setCameras_sender (x : Table Camera 8) : (p.setCameras x).sender = p.sender := rfl
@[simp] theorem setCameras_lanes (x : Table Camera 8) : (p.setCameras x).lanes = p.lanes := rfl
@[simp] theorem setCameras_cmd (x : Table Camera 8) : (p.setCameras x).cmd = p.cmd := rfl

@[simp] theorem setRings_now (x : Table Ring 8) : (p.setRings x).now = p.now := rfl
@[simp] theorem setRings_outputs (x : Table Ring 8) : (p.setRings x).outputs = p.outputs := rfl
@[simp] theorem setRings_loader (x : Table Ring 8) : (p.setRings x).loader = p.loader := rfl
@[simp] theorem setRings_path (x : Table Ring 8) : (p.setRings x).path = p.path := rfl
@[simp] theorem setRings_clock (x : Table Ring 8) : (p.setRings x).clock = p.clock := rfl
@[simp] theorem setRings_cues (x : Table Ring 8) : (p.setRings x).cues = p.cues := rfl
@[simp] theorem setRings_cameras (x : Table Ring 8) : (p.setRings x).cameras = p.cameras := rfl
@[simp] theorem setRings_coder (x : Table Ring 8) : (p.setRings x).coder = p.coder := rfl
@[simp] theorem setRings_rings (x : Table Ring 8) : (p.setRings x).rings = x := rfl
@[simp] theorem setRings_mixer (x : Table Ring 8) : (p.setRings x).mixer = p.mixer := rfl
@[simp] theorem setRings_clips (x : Table Ring 8) : (p.setRings x).clips = p.clips := rfl
@[simp] theorem setRings_sender (x : Table Ring 8) : (p.setRings x).sender = p.sender := rfl
@[simp] theorem setRings_lanes (x : Table Ring 8) : (p.setRings x).lanes = p.lanes := rfl
@[simp] theorem setRings_cmd (x : Table Ring 8) : (p.setRings x).cmd = p.cmd := rfl

@[simp] theorem setLanes_now (x : Table Lane 4) : (p.setLanes x).now = p.now := rfl
@[simp] theorem setLanes_outputs (x : Table Lane 4) : (p.setLanes x).outputs = p.outputs := rfl
@[simp] theorem setLanes_loader (x : Table Lane 4) : (p.setLanes x).loader = p.loader := rfl
@[simp] theorem setLanes_path (x : Table Lane 4) : (p.setLanes x).path = p.path := rfl
@[simp] theorem setLanes_clock (x : Table Lane 4) : (p.setLanes x).clock = p.clock := rfl
@[simp] theorem setLanes_cues (x : Table Lane 4) : (p.setLanes x).cues = p.cues := rfl
@[simp] theorem setLanes_cameras (x : Table Lane 4) : (p.setLanes x).cameras = p.cameras := rfl
@[simp] theorem setLanes_coder (x : Table Lane 4) : (p.setLanes x).coder = p.coder := rfl
@[simp] theorem setLanes_rings (x : Table Lane 4) : (p.setLanes x).rings = p.rings := rfl
@[simp] theorem setLanes_mixer (x : Table Lane 4) : (p.setLanes x).mixer = p.mixer := rfl
@[simp] theorem setLanes_clips (x : Table Lane 4) : (p.setLanes x).clips = p.clips := rfl
@[simp] theorem setLanes_sender (x : Table Lane 4) : (p.setLanes x).sender = p.sender := rfl
@[simp] theorem setLanes_lanes (x : Table Lane 4) : (p.setLanes x).lanes = x := rfl
@[simp] theorem setLanes_cmd (x : Table Lane 4) : (p.setLanes x).cmd = p.cmd := rfl

@[simp] theorem emit_now (x : Output) : (p.emit x).now = p.now := rfl
@[simp] theorem emit_outputs (x : Output) : (p.emit x).outputs = p.outputs ++ [x] := rfl
@[simp] theorem emit_loader (x : Output) : (p.emit x).loader = p.loader := rfl
@[simp] theorem emit_path (x : Output) : (p.emit x).path = p.path := rfl
@[simp] theorem emit_clock (x : Output) : (p.emit x).clock = p.clock := rfl
@[simp] theorem emit_cues (x : Output) : (p.emit x).cues = p.cues := rfl
@[simp] theorem emit_cameras (x : Output) : (p.emit x).cameras = p.cameras := rfl
@[simp] theorem emit_coder (x : Output) : (p.emit x).coder = p.coder := rfl
@[simp] theorem emit_rings (x : Output) : (p.emit x).rings = p.rings := rfl
@[simp] theorem emit_mixer (x : Output) : (p.emit x).mixer = p.mixer := rfl
@[simp] theorem emit_clips (x : Output) : (p.emit x).clips = p.clips := rfl
@[simp] theorem emit_sender (x : Output) : (p.emit x).sender = p.sender := rfl
@[simp] theorem emit_lanes (x : Output) : (p.emit x).lanes = p.lanes := rfl
@[simp] theorem emit_cmd (x : Output) : (p.emit x).cmd = p.cmd := rfl

@[simp] theorem after_now (dt : Nat) : (p.after dt).now = p.now + dt := rfl
@[simp] theorem after_outputs (dt : Nat) : (p.after dt).outputs = p.outputs := rfl
@[simp] theorem after_loader (dt : Nat) : (p.after dt).loader = p.loader := rfl
@[simp] theorem after_path (dt : Nat) : (p.after dt).path = p.path := rfl
@[simp] theorem after_clock (dt : Nat) : (p.after dt).clock = p.clock := rfl
@[simp] theorem after_cues (dt : Nat) : (p.after dt).cues = p.cues := rfl
@[simp] theorem after_cameras (dt : Nat) : (p.after dt).cameras = p.cameras := rfl
@[simp] theorem after_coder (dt : Nat) : (p.after dt).coder = p.coder := rfl
@[simp] theorem after_rings (dt : Nat) : (p.after dt).rings = p.rings := rfl
@[simp] theorem after_mixer (dt : Nat) : (p.after dt).mixer = p.mixer := rfl
@[simp] theorem after_clips (dt : Nat) : (p.after dt).clips = p.clips := rfl
@[simp] theorem after_sender (dt : Nat) : (p.after dt).sender = p.sender := rfl
@[simp] theorem after_lanes (dt : Nat) : (p.after dt).lanes = p.lanes := rfl
@[simp] theorem after_cmd (dt : Nat) : (p.after dt).cmd = p.cmd := rfl

@[simp] theorem reach_now (t : Nat) : (p.reach t).now = max p.now t := rfl
@[simp] theorem reach_outputs (t : Nat) : (p.reach t).outputs = p.outputs := rfl
@[simp] theorem reach_loader (t : Nat) : (p.reach t).loader = p.loader := rfl
@[simp] theorem reach_path (t : Nat) : (p.reach t).path = p.path := rfl
@[simp] theorem reach_clock (t : Nat) : (p.reach t).clock = p.clock := rfl
@[simp] theorem reach_cues (t : Nat) : (p.reach t).cues = p.cues := rfl
@[simp] theorem reach_cameras (t : Nat) : (p.reach t).cameras = p.cameras := rfl
@[simp] theorem reach_coder (t : Nat) : (p.reach t).coder = p.coder := rfl
@[simp] theorem reach_rings (t : Nat) : (p.reach t).rings = p.rings := rfl
@[simp] theorem reach_mixer (t : Nat) : (p.reach t).mixer = p.mixer := rfl
@[simp] theorem reach_clips (t : Nat) : (p.reach t).clips = p.clips := rfl
@[simp] theorem reach_sender (t : Nat) : (p.reach t).sender = p.sender := rfl
@[simp] theorem reach_lanes (t : Nat) : (p.reach t).lanes = p.lanes := rfl
@[simp] theorem reach_cmd (t : Nat) : (p.reach t).cmd = p.cmd := rfl

end Part

namespace State

variable (s : State) (f : Part → Part)

@[simp] theorem withPart_pending : (s.withPart f).pending = s.pending := rfl
@[simp] theorem withPart_dram : (s.withPart f).dram = s.dram := rfl
@[simp] theorem withPart_flash : (s.withPart f).flash = s.flash := rfl
@[simp] theorem withPart_part : (s.withPart f).part = f s.part := rfl

end State

end Sys2Proof.Machine
end

