-- ==== Sys2Proof/Laws/Answers.lean ====
section
/-! SUPPORT. What raising a notice and answering a command can do: each changes the command engine and nothing
else of the part. -/

namespace Sys2Proof.Machine

/-- A raise sets the flag, or counts itself absorbed (R179). -/
def Commander.raised (c : Commander) (n : Cause × Nat) : Commander :=
  if n ∈ c.notices then { c with counts := { c.counts with absorbed := count c.counts.absorbed } }
  else { c with notices := insertNotice n c.notices }

theorem raise_eq (c : Cause) (n : Nat) (p : Part) : p.raise c n = p.setCmd (p.cmd.raised (c, n)) := by
  unfold Part.raise Commander.raised
  split <;> rfl

theorem complete_eq (i : Nat) (tag : Word) (r : Result) (data : List Byte) (p : Part) :
    p.complete i tag r data = p.setCmd { p.cmd with completions := p.cmd.completions ++ [⟨i, tag, r, data⟩] } := rfl

theorem finish_eq (i : Nat) (tag : Word) (data : List Byte) (p : Part) :
    p.finish i tag data = p.setCmd { p.cmd with completions := p.cmd.completions ++ [⟨i, tag, .done, data⟩] } := rfl

theorem refuse_eq (i : Nat) (tag : Word) (r : Result) (data : List Byte) (p : Part) :
    p.refuse i tag r data = p.setCmd { p.cmd with
      counts := { p.cmd.counts with refused := count p.cmd.counts.refused },
      completions := p.cmd.completions ++ [⟨i, tag, r, data⟩] } := rfl

theorem defer_eq (i : Nat) (tag : Word) (k : DeferredKind) (p : Part) :
    p.defer i tag k = p.setCmd { p.cmd with deferred := p.cmd.deferred ++ [⟨i, tag, k⟩] } := rfl

/-- A command in the engine's hand runs, with the hand empty. -/
theorem run_taken {c : Instr} {i : Nat} {p : Part} (h : p.cmd.inHand = some (i, c)) (body : Nat → Part → Part) :
    Part.run c body p = body i (p.setCmd { p.cmd with inHand := none }) := by
  simp [Part.run, h]

/-- A command not in the engine's hand does nothing. -/
theorem run_other {c : Instr} {p : Part} (h : ∀ i, p.cmd.inHand ≠ some (i, c)) (body : Nat → Part → Part) :
    Part.run c body p = p := by
  unfold Part.run
  split
  · rfl
  · next i held hh =>
    split
    · next e => exact absurd (e ▸ hh) (h i)
    · rfl

namespace Part

variable (p : Part)

@[simp] theorem raise_now (c : Cause) (n : Nat) : (p.raise c n).now = p.now := by rw [raise_eq]; rfl
@[simp] theorem raise_outputs (c : Cause) (n : Nat) : (p.raise c n).outputs = p.outputs := by rw [raise_eq]; rfl
@[simp] theorem raise_loader (c : Cause) (n : Nat) : (p.raise c n).loader = p.loader := by rw [raise_eq]; rfl
@[simp] theorem raise_path (c : Cause) (n : Nat) : (p.raise c n).path = p.path := by rw [raise_eq]; rfl
@[simp] theorem raise_clock (c : Cause) (n : Nat) : (p.raise c n).clock = p.clock := by rw [raise_eq]; rfl
@[simp] theorem raise_cues (c : Cause) (n : Nat) : (p.raise c n).cues = p.cues := by rw [raise_eq]; rfl
@[simp] theorem raise_cameras (c : Cause) (n : Nat) : (p.raise c n).cameras = p.cameras := by rw [raise_eq]; rfl
@[simp] theorem raise_coder (c : Cause) (n : Nat) : (p.raise c n).coder = p.coder := by rw [raise_eq]; rfl
@[simp] theorem raise_rings (c : Cause) (n : Nat) : (p.raise c n).rings = p.rings := by rw [raise_eq]; rfl
@[simp] theorem raise_mixer (c : Cause) (n : Nat) : (p.raise c n).mixer = p.mixer := by rw [raise_eq]; rfl
@[simp] theorem raise_clips (c : Cause) (n : Nat) : (p.raise c n).clips = p.clips := by rw [raise_eq]; rfl
@[simp] theorem raise_sender (c : Cause) (n : Nat) : (p.raise c n).sender = p.sender := by rw [raise_eq]; rfl
@[simp] theorem raise_lanes (c : Cause) (n : Nat) : (p.raise c n).lanes = p.lanes := by rw [raise_eq]; rfl
@[simp] theorem raise_cmd (c : Cause) (n : Nat) : (p.raise c n).cmd = p.cmd.raised (c, n) := by rw [raise_eq]; rfl
@[simp] theorem complete_now (i : Nat) (t : Word) (r : Result) (d : List Byte) : (p.complete i t r d).now = p.now := rfl
@[simp] theorem complete_outputs (i : Nat) (t : Word) (r : Result) (d : List Byte) : (p.complete i t r d).outputs = p.outputs := rfl
@[simp] theorem complete_loader (i : Nat) (t : Word) (r : Result) (d : List Byte) : (p.complete i t r d).loader = p.loader := rfl
@[simp] theorem complete_path (i : Nat) (t : Word) (r : Result) (d : List Byte) : (p.complete i t r d).path = p.path := rfl
@[simp] theorem complete_clock (i : Nat) (t : Word) (r : Result) (d : List Byte) : (p.complete i t r d).clock = p.clock := rfl
@[simp] theorem complete_cues (i : Nat) (t : Word) (r : Result) (d : List Byte) : (p.complete i t r d).cues = p.cues := rfl
@[simp] theorem complete_cameras (i : Nat) (t : Word) (r : Result) (d : List Byte) : (p.complete i t r d).cameras = p.cameras := rfl
@[simp] theorem complete_coder (i : Nat) (t : Word) (r : Result) (d : List Byte) : (p.complete i t r d).coder = p.coder := rfl
@[simp] theorem complete_rings (i : Nat) (t : Word) (r : Result) (d : List Byte) : (p.complete i t r d).rings = p.rings := rfl
@[simp] theorem complete_mixer (i : Nat) (t : Word) (r : Result) (d : List Byte) : (p.complete i t r d).mixer = p.mixer := rfl
@[simp] theorem complete_clips (i : Nat) (t : Word) (r : Result) (d : List Byte) : (p.complete i t r d).clips = p.clips := rfl
@[simp] theorem complete_sender (i : Nat) (t : Word) (r : Result) (d : List Byte) : (p.complete i t r d).sender = p.sender := rfl
@[simp] theorem complete_lanes (i : Nat) (t : Word) (r : Result) (d : List Byte) : (p.complete i t r d).lanes = p.lanes := rfl
@[simp] theorem finish_now (i : Nat) (t : Word) (d : List Byte) : (p.finish i t d).now = p.now := rfl
@[simp] theorem finish_outputs (i : Nat) (t : Word) (d : List Byte) : (p.finish i t d).outputs = p.outputs := rfl
@[simp] theorem finish_loader (i : Nat) (t : Word) (d : List Byte) : (p.finish i t d).loader = p.loader := rfl
@[simp] theorem finish_path (i : Nat) (t : Word) (d : List Byte) : (p.finish i t d).path = p.path := rfl
@[simp] theorem finish_clock (i : Nat) (t : Word) (d : List Byte) : (p.finish i t d).clock = p.clock := rfl
@[simp] theorem finish_cues (i : Nat) (t : Word) (d : List Byte) : (p.finish i t d).cues = p.cues := rfl
@[simp] theorem finish_cameras (i : Nat) (t : Word) (d : List Byte) : (p.finish i t d).cameras = p.cameras := rfl
@[simp] theorem finish_coder (i : Nat) (t : Word) (d : List Byte) : (p.finish i t d).coder = p.coder := rfl
@[simp] theorem finish_rings (i : Nat) (t : Word) (d : List Byte) : (p.finish i t d).rings = p.rings := rfl
@[simp] theorem finish_mixer (i : Nat) (t : Word) (d : List Byte) : (p.finish i t d).mixer = p.mixer := rfl
@[simp] theorem finish_clips (i : Nat) (t : Word) (d : List Byte) : (p.finish i t d).clips = p.clips := rfl
@[simp] theorem finish_sender (i : Nat) (t : Word) (d : List Byte) : (p.finish i t d).sender = p.sender := rfl
@[simp] theorem finish_lanes (i : Nat) (t : Word) (d : List Byte) : (p.finish i t d).lanes = p.lanes := rfl
@[simp] theorem refuse_now (i : Nat) (t : Word) (r : Result) (d : List Byte) : (p.refuse i t r d).now = p.now := rfl
@[simp] theorem refuse_outputs (i : Nat) (t : Word) (r : Result) (d : List Byte) : (p.refuse i t r d).outputs = p.outputs := rfl
@[simp] theorem refuse_loader (i : Nat) (t : Word) (r : Result) (d : List Byte) : (p.refuse i t r d).loader = p.loader := rfl
@[simp] theorem refuse_path (i : Nat) (t : Word) (r : Result) (d : List Byte) : (p.refuse i t r d).path = p.path := rfl
@[simp] theorem refuse_clock (i : Nat) (t : Word) (r : Result) (d : List Byte) : (p.refuse i t r d).clock = p.clock := rfl
@[simp] theorem refuse_cues (i : Nat) (t : Word) (r : Result) (d : List Byte) : (p.refuse i t r d).cues = p.cues := rfl
@[simp] theorem refuse_cameras (i : Nat) (t : Word) (r : Result) (d : List Byte) : (p.refuse i t r d).cameras = p.cameras := rfl
@[simp] theorem refuse_coder (i : Nat) (t : Word) (r : Result) (d : List Byte) : (p.refuse i t r d).coder = p.coder := rfl
@[simp] theorem refuse_rings (i : Nat) (t : Word) (r : Result) (d : List Byte) : (p.refuse i t r d).rings = p.rings := rfl
@[simp] theorem refuse_mixer (i : Nat) (t : Word) (r : Result) (d : List Byte) : (p.refuse i t r d).mixer = p.mixer := rfl
@[simp] theorem refuse_clips (i : Nat) (t : Word) (r : Result) (d : List Byte) : (p.refuse i t r d).clips = p.clips := rfl
@[simp] theorem refuse_sender (i : Nat) (t : Word) (r : Result) (d : List Byte) : (p.refuse i t r d).sender = p.sender := rfl
@[simp] theorem refuse_lanes (i : Nat) (t : Word) (r : Result) (d : List Byte) : (p.refuse i t r d).lanes = p.lanes := rfl
@[simp] theorem defer_now (i : Nat) (t : Word) (k : DeferredKind) : (p.defer i t k).now = p.now := rfl
@[simp] theorem defer_outputs (i : Nat) (t : Word) (k : DeferredKind) : (p.defer i t k).outputs = p.outputs := rfl
@[simp] theorem defer_loader (i : Nat) (t : Word) (k : DeferredKind) : (p.defer i t k).loader = p.loader := rfl
@[simp] theorem defer_path (i : Nat) (t : Word) (k : DeferredKind) : (p.defer i t k).path = p.path := rfl
@[simp] theorem defer_clock (i : Nat) (t : Word) (k : DeferredKind) : (p.defer i t k).clock = p.clock := rfl
@[simp] theorem defer_cues (i : Nat) (t : Word) (k : DeferredKind) : (p.defer i t k).cues = p.cues := rfl
@[simp] theorem defer_cameras (i : Nat) (t : Word) (k : DeferredKind) : (p.defer i t k).cameras = p.cameras := rfl
@[simp] theorem defer_coder (i : Nat) (t : Word) (k : DeferredKind) : (p.defer i t k).coder = p.coder := rfl
@[simp] theorem defer_rings (i : Nat) (t : Word) (k : DeferredKind) : (p.defer i t k).rings = p.rings := rfl
@[simp] theorem defer_mixer (i : Nat) (t : Word) (k : DeferredKind) : (p.defer i t k).mixer = p.mixer := rfl
@[simp] theorem defer_clips (i : Nat) (t : Word) (k : DeferredKind) : (p.defer i t k).clips = p.clips := rfl
@[simp] theorem defer_sender (i : Nat) (t : Word) (k : DeferredKind) : (p.defer i t k).sender = p.sender := rfl
@[simp] theorem defer_lanes (i : Nat) (t : Word) (k : DeferredKind) : (p.defer i t k).lanes = p.lanes := rfl

/-- Completing a deferred command changes the command engine alone. -/
theorem completeDeferred_eq (k : DeferredKind) (r : Result) : ∃ c, p.completeDeferred k r = p.setCmd c := by
  unfold completeDeferred
  split
  · exact ⟨p.cmd, rfl⟩
  · exact ⟨_, rfl⟩

@[simp] theorem completeDeferred_now (k : DeferredKind) (r : Result) : (p.completeDeferred k r).now = p.now := by
  obtain ⟨c, h⟩ := completeDeferred_eq p k r; rw [h]; rfl
@[simp] theorem completeDeferred_outputs (k : DeferredKind) (r : Result) : (p.completeDeferred k r).outputs = p.outputs := by
  obtain ⟨c, h⟩ := completeDeferred_eq p k r; rw [h]; rfl
@[simp] theorem completeDeferred_loader (k : DeferredKind) (r : Result) : (p.completeDeferred k r).loader = p.loader := by
  obtain ⟨c, h⟩ := completeDeferred_eq p k r; rw [h]; rfl
@[simp] theorem completeDeferred_path (k : DeferredKind) (r : Result) : (p.completeDeferred k r).path = p.path := by
  obtain ⟨c, h⟩ := completeDeferred_eq p k r; rw [h]; rfl
@[simp] theorem completeDeferred_clock (k : DeferredKind) (r : Result) : (p.completeDeferred k r).clock = p.clock := by
  obtain ⟨c, h⟩ := completeDeferred_eq p k r; rw [h]; rfl
@[simp] theorem completeDeferred_cues (k : DeferredKind) (r : Result) : (p.completeDeferred k r).cues = p.cues := by
  obtain ⟨c, h⟩ := completeDeferred_eq p k r; rw [h]; rfl
@[simp] theorem completeDeferred_cameras (k : DeferredKind) (r : Result) : (p.completeDeferred k r).cameras = p.cameras := by
  obtain ⟨c, h⟩ := completeDeferred_eq p k r; rw [h]; rfl
@[simp] theorem completeDeferred_coder (k : DeferredKind) (r : Result) : (p.completeDeferred k r).coder = p.coder := by
  obtain ⟨c, h⟩ := completeDeferred_eq p k r; rw [h]; rfl
@[simp] theorem completeDeferred_rings (k : DeferredKind) (r : Result) : (p.completeDeferred k r).rings = p.rings := by
  obtain ⟨c, h⟩ := completeDeferred_eq p k r; rw [h]; rfl
@[simp] theorem completeDeferred_mixer (k : DeferredKind) (r : Result) : (p.completeDeferred k r).mixer = p.mixer := by
  obtain ⟨c, h⟩ := completeDeferred_eq p k r; rw [h]; rfl
@[simp] theorem completeDeferred_clips (k : DeferredKind) (r : Result) : (p.completeDeferred k r).clips = p.clips := by
  obtain ⟨c, h⟩ := completeDeferred_eq p k r; rw [h]; rfl
@[simp] theorem completeDeferred_sender (k : DeferredKind) (r : Result) : (p.completeDeferred k r).sender = p.sender := by
  obtain ⟨c, h⟩ := completeDeferred_eq p k r; rw [h]; rfl
@[simp] theorem completeDeferred_lanes (k : DeferredKind) (r : Result) : (p.completeDeferred k r).lanes = p.lanes := by
  obtain ⟨c, h⟩ := completeDeferred_eq p k r; rw [h]; rfl

end Part

end Sys2Proof.Machine
end

