-- ==== Sys2Proof/Laws/Settings.lean ====
section
/-! SUPPORT. What the operations leave alone: the loader, the clock, the window table, the intervals, the live rings and
every setting of a cue line, source, bus, class and lane change only at the few commands that set them. One lemma for each
operation says that it keeps them. -/

namespace Sys2Proof.Machine

/-- What only its own commands change. -/
structure Settings where
  loader : Loader
  clock : Clock
  windows : Table Window 32
  intervals : Table Nat 11
  rings : Option Rings
  cues : Table CueSettings 8
  sources : Table SourceSettings 64
  buses : Table BusSettings 16
  classes : Table (Nat × Nat) 4
  lanes : Table LaneSettings 4

/-- The settings of the part as they stand. -/
def Part.settings (p : Part) : Settings where
  loader := p.loader
  clock := p.clock
  windows := p.path.windows
  intervals := p.path.intervals
  rings := p.cmd.rings
  cues := p.cues.each (·.cfg)
  sources := p.mixer.sources.each (·.cfg)
  buses := p.mixer.buses.each (·.cfg)
  classes := p.sender.classes.each fun c => (c.interval, c.hold)
  lanes := p.lanes.each (·.cfg)

end Sys2Proof.Machine

namespace Sys2Proof.Table

variable {α β γ : Type} {n : Nat}

theorem ext_nth {s t : Table α n} (h : ∀ i, s.nth i = t.nth i) : s = t :=
  Vector.ext fun i hi => h ⟨i, hi⟩

@[simp] theorem each_put {t : Table α n} {i : Fin n} {x : α} {g : α → β} (h : g x = g (t.nth i)) : (t.put i x).each g = t.each g := by
  refine ext_nth fun j => ?_
  simp only [nth_each, nth_put]
  split
  · next e => rw [h, e]
  · rfl

@[simp] theorem each_upd {t : Table α n} {i : Fin n} {f : α → α} {g : α → β} (h : ∀ x, g (f x) = g x) : (t.upd i f).each g = t.each g :=
  each_put (h _)

@[simp] theorem each_each (t : Table α n) (f : α → β) (g : β → γ) : (t.each f).each g = t.each fun x => g (f x) :=
  ext_nth fun i => by simp

@[simp] theorem each_same {t : Table α n} {f : α → α} {g : α → β} (h : ∀ x, g (f x) = g x) : (t.each f).each g = t.each g :=
  ext_nth fun i => by simp [h]

theorem make_same {t : Table α n} {f : Fin n → α} {g : α → β} (h : ∀ i, g (f i) = g (t.nth i)) : (Table.make f).each g = t.each g :=
  ext_nth fun i => by simp [h]

end Sys2Proof.Table

namespace Sys2Proof.Machine

variable (p : Part)

@[simp] theorem settings_setClips (x : Clips) : (p.setClips x).settings = p.settings := rfl
@[simp] theorem settings_setCoder (x : Coder) : (p.setCoder x).settings = p.settings := rfl
@[simp] theorem settings_setCameras (x : Table Camera 8) : (p.setCameras x).settings = p.settings := rfl
@[simp] theorem settings_setRings (x : Table Ring 8) : (p.setRings x).settings = p.settings := rfl
@[simp] theorem settings_setNow (x : Nat) : (p.setNow x).settings = p.settings := rfl
@[simp] theorem settings_emit (x : Output) : (p.emit x).settings = p.settings := rfl

variable {p}

@[simp] theorem settings_setCmd {x : Commander} (h : x.rings = p.cmd.rings) : (p.setCmd x).settings = p.settings := by
  simp [Part.settings, h]

@[simp] theorem settings_setPath {x : Path} (h : x.windows = p.path.windows) (h' : x.intervals = p.path.intervals) :
    (p.setPath x).settings = p.settings := by
  simp [Part.settings, h, h']

@[simp] theorem settings_setMixer {x : Mixer} (h : x.sources.each (·.cfg) = p.mixer.sources.each (·.cfg))
    (h' : x.buses.each (·.cfg) = p.mixer.buses.each (·.cfg)) : (p.setMixer x).settings = p.settings := by
  simp [Part.settings, h, h']

@[simp] theorem settings_setSender {x : Sender}
    (h : x.classes.each (fun c => (c.interval, c.hold)) = p.sender.classes.each fun c => (c.interval, c.hold)) :
    (p.setSender x).settings = p.settings := by
  simp [Part.settings, h]

@[simp] theorem settings_setCues {x : Table CueLine 8} (h : x.each (·.cfg) = p.cues.each (·.cfg)) : (p.setCues x).settings = p.settings := by
  simp [Part.settings, h]

@[simp] theorem settings_setLanes {x : Table Lane 4} (h : x.each (·.cfg) = p.lanes.each (·.cfg)) : (p.setLanes x).settings = p.settings := by
  simp [Part.settings, h]

@[simp] theorem settings_updClass {i : Fin 4} {f : ClassRecord → ClassRecord} (h : ∀ c, ((f c).interval, (f c).hold) = (c.interval, c.hold)) :
    (p.updClass i f).settings = p.settings := settings_setSender (Table.each_upd h)

@[simp] theorem settings_onClass {i : SendClass} {f : ClassRecord → ClassRecord} (h : ∀ c, ((f c).interval, (f c).hold) = (c.interval, c.hold)) :
    (p.onClass i f).settings = p.settings := settings_updClass h

@[simp] theorem settings_updLane {i : Fin 4} {f : Lane → Lane} (h : ∀ x, (f x).cfg = x.cfg) : (p.updLane i f).settings = p.settings :=
  settings_setLanes (Table.each_upd h)

@[simp] theorem settings_updCue {i : Fin 8} {f : CueLine → CueLine} (h : ∀ x, (f x).cfg = x.cfg) : (p.updCue i f).settings = p.settings :=
  settings_setCues (Table.each_upd h)

@[simp] theorem settings_updSource {i : Fin 64} {f : Source → Source} (h : ∀ x, (f x).cfg = x.cfg) :
    (p.updSource i f).settings = p.settings := settings_setMixer (Table.each_upd h) rfl

@[simp] theorem settings_updBus {i : Fin 16} {f : Bus → Bus} (h : ∀ x, (f x).cfg = x.cfg) : (p.updBus i f).settings = p.settings :=
  settings_setMixer rfl (Table.each_upd h)

@[simp] theorem settings_foldl {α : Type} {f : Part → α → Part} (h : ∀ p x, (f p x).settings = p.settings) (l : List α) :
    (l.foldl f p).settings = p.settings := by
  induction l generalizing p with
  | nil => rfl
  | cons a l ih => exact (ih (p := f p a)).trans (h p a)

/-- A pair's part keeps the settings where its second component does. -/
theorem settings_of {α : Type} {x : α × Part} {a : α} {q : Part} (h : x = (a, q)) (hx : x.2.settings = p.settings) :
    q.settings = p.settings := by
  rw [h] at hx
  exact hx

@[simp] theorem settings_updPort (p : Part) (i : Fin 6) (f : Port → Port) : (Part.updPort p i f).settings = p.settings := by
  unfold Part.updPort
  (try dsimp only)
  all_goals simp

@[simp] theorem settings_updCamera (p : Part) (i : Fin 8) (f : Camera → Camera) : (Part.updCamera p i f).settings = p.settings := by
  unfold Part.updCamera
  all_goals simp

@[simp] theorem settings_updRing (p : Part) (i : Fin 8) (f : Ring → Ring) : (Part.updRing p i f).settings = p.settings := by
  unfold Part.updRing
  all_goals simp

@[simp] theorem settings_updClip (p : Part) (i : Fin 128) (f : Option Clip → Option Clip) : (Part.updClip p i f).settings = p.settings := by
  unfold Part.updClip
  (try dsimp only)
  all_goals simp

@[simp] theorem settings_updCoderCounts (p : Part) (i : Fin 8) (f : CoderCounters → CoderCounters) : (Part.updCoderCounts p i f).settings = p.settings := by
  unfold Part.updCoderCounts
  (try dsimp only)
  all_goals simp

@[simp] theorem settings_after (dt : Nat) (p : Part) : (Part.after dt p).settings = p.settings := by
  unfold Part.after
  all_goals simp

@[simp] theorem settings_reach (t : Nat) (p : Part) : (Part.reach t p).settings = p.settings := by
  unfold Part.reach
  all_goals simp

@[simp] theorem settings_raise (c : Cause) (subject : Nat) (p : Part) : (Part.raise c subject p).settings = p.settings := by
  unfold Part.raise
  (try dsimp only)
  (repeat' split)
  all_goals simp

@[simp] theorem settings_complete (i : Nat) (tag : Word) (r : Result) (data : List Byte) (p : Part) : (Part.complete i tag r data p).settings = p.settings := by
  unfold Part.complete
  (try dsimp only)
  all_goals simp

@[simp] theorem settings_finish (i : Nat) (tag : Word) (data : List Byte) (p : Part) : (Part.finish i tag data p).settings = p.settings := by
  unfold Part.finish
  all_goals simp

@[simp] theorem settings_refuse (i : Nat) (tag : Word) (r : Result) (data : List Byte) (p : Part) : (Part.refuse i tag r data p).settings = p.settings := by
  unfold Part.refuse
  (try dsimp only)
  all_goals simp

@[simp] theorem settings_defer (i : Nat) (tag : Word) (k : DeferredKind) (p : Part) : (Part.defer i tag k p).settings = p.settings := by
  unfold Part.defer
  (try dsimp only)
  all_goals simp

@[simp] theorem settings_completeDeferred (k : DeferredKind) (r : Result) (p : Part) : (Part.completeDeferred k r p).settings = p.settings := by
  unfold Part.completeDeferred
  (try dsimp only)
  (repeat' split)
  all_goals simp

/-- A software command keeps the settings when its body does. -/
@[simp] theorem settings_run {c : Instr} {body : Nat → Part → Part} (h : ∀ i p, (body i p).settings = p.settings) (p : Part) :
    (Part.run c body p).settings = p.settings := by
  unfold Part.run
  (repeat' split)
  all_goals simp [h]

@[simp] theorem settings_offer (i : Fin 5) (r : Request) (p : Part) : (Part.offer i r p).settings = p.settings := by
  unfold Part.offer
  (try dsimp only)
  all_goals simp

@[simp] theorem settings_withdraw (i : Fin 5) (p : Part) : (Part.withdraw i p).settings = p.settings := by
  unfold Part.withdraw
  (try dsimp only)
  all_goals simp

@[simp] theorem settings_tally (p : Part) : p.tally.settings = p.settings :=
  settings_setCues (Table.each_same fun c => by split <;> rfl)

@[simp] theorem settings_addPins (k : Fin 8) (inPoint : Word) (outPoint : Option Word) (p : Part) : (Part.addPins k inPoint outPoint p).settings = p.settings := by
  unfold Part.addPins
  all_goals simp

@[simp] theorem settings_removePins (k : Fin 8) (inPoint : Word) (outPoint : Option Word) (p : Part) : (Part.removePins k inPoint outPoint p).settings = p.settings := by
  unfold Part.removePins
  all_goals simp

@[simp] theorem settings_takeReference (k : Fin 8) (n : Word) (p : Part) : (Part.takeReference k n p).settings = p.settings := by
  unfold Part.takeReference
  all_goals simp

@[simp] theorem settings_releaseReference (k : Fin 8) (n : Word) (p : Part) : (Part.releaseReference k n p).settings = p.settings := by
  unfold Part.releaseReference
  all_goals simp

@[simp] theorem settings_touch (pos : Fin 128) (p : Part) : (Part.touch pos p).settings = p.settings := by
  unfold Part.touch
  (try dsimp only)
  all_goals simp

@[simp] theorem settings_editClip (pos : Fin 128) (f : Clip → Clip) (p : Part) : (Part.editClip pos f p).settings = p.settings := by
  unfold Part.editClip
  all_goals simp

@[simp] theorem settings_clipEvent (pos : Fin 128) (p : Part) : (Part.clipEvent pos p).settings = p.settings := by
  unfold Part.clipEvent
  (try dsimp only)
  all_goals simp

@[simp] theorem settings_clearOpenClip (number : Nat) (p : Part) : (p.clearOpenClip number).settings = p.settings :=
  settings_setCues (Table.each_same fun c => by split <;> rfl)

@[simp] theorem settings_forceClose (k : Fin 8) (n : Word) (pos : Fin 128) (c : Clip) (p : Part) : (Part.forceClose k n pos c p).settings = p.settings := by
  unfold Part.forceClose
  (try dsimp only)
  all_goals simp

@[simp] theorem settings_forceCloses (k : Fin 8) (n : Word) (p : Part) : (Part.forceCloses k n p).settings = p.settings :=
  settings_foldl (fun p pos => by (repeat' split) <;> simp) _

@[simp] theorem settings_loseClip (pos : Fin 128) (p : Part) : (Part.loseClip pos p).settings = p.settings := by
  unfold Part.loseClip
  (try dsimp only)
  all_goals simp

@[simp] theorem settings_retirementReaches (k : Fin 8) (n : Word) (pos : Fin 128) (p : Part) : (Part.retirementReaches k n pos p).settings = p.settings := by
  unfold Part.retirementReaches
  (try dsimp only)
  (repeat' split)
  all_goals simp

@[simp] theorem settings_reportRetirement (k : Fin 8) (n : Word) (p : Part) : (Part.reportRetirement k n p).settings = p.settings := by
  unfold Part.reportRetirement
  all_goals simp

@[simp] theorem settings_testSendEnd (pos : Fin 128) (p : Part) : (Part.testSendEnd pos p).settings = p.settings := by
  unfold Part.testSendEnd
  (try dsimp only)
  (repeat' split)
  all_goals simp

@[simp] theorem settings_reportSend (pos : Fin 128) (number : Nat) (r : SendReport) (p : Part) : (Part.reportSend pos number r p).settings = p.settings := by
  unfold Part.reportSend
  (repeat' split)
  all_goals simp

@[simp] theorem settings_updItem (id : Nat) (f : Item → Item) (p : Part) : (Part.updItem id f p).settings = p.settings := by
  unfold Part.updItem
  (try dsimp only)
  all_goals simp

@[simp] theorem settings_lossOf (c : SendClass) (p : Part) : (Part.lossOf c p).settings = p.settings := by
  unfold Part.lossOf
  all_goals simp

@[simp] theorem settings_cursorItemEnded (kind : ItemKind) (p : Part) : (Part.cursorItemEnded kind p).settings = p.settings := by
  unfold Part.cursorItemEnded
  (try dsimp only)
  (repeat' split)
  all_goals simp

@[simp] theorem settings_releaseItem (kind : ItemKind) (p : Part) : (Part.releaseItem kind p).settings = p.settings := by
  unfold Part.releaseItem
  (repeat' split)
  all_goals simp

@[simp] theorem settings_reportItem (i : Item) (r : SendReport) (p : Part) : (Part.reportItem i r p).settings = p.settings := by
  unfold Part.reportItem
  (repeat' split)
  all_goals simp

@[simp] theorem settings_endItem (i : Item) (p : Part) : (Part.endItem i p).settings = p.settings := by
  unfold Part.endItem
  (try dsimp only)
  (repeat' split)
  all_goals simp

@[simp] theorem settings_testItemEnd (id : Nat) (p : Part) : (Part.testItemEnd id p).settings = p.settings := by
  unfold Part.testItemEnd
  (repeat' split)
  all_goals simp

@[simp] theorem settings_dropFromQueue (id : Nat) (p : Part) : (Part.dropFromQueue id p).settings = p.settings := by
  unfold Part.dropFromQueue
  all_goals simp

@[simp] theorem settings_replaceLive (k : Fin 8) (p : Part) : (Part.replaceLive k p).settings = p.settings := by
  unfold Part.replaceLive
  (try dsimp only)
  (repeat' split)
  all_goals simp

@[simp] theorem settings_queueItem (kind : ItemKind) (pl : Payload) (p : Part) : (Part.queueItem kind pl p).settings = p.settings := by
  unfold Part.queueItem
  (try dsimp only)
  all_goals simp

@[simp] theorem settings_dropFull (cls : SendClass) (p : Part) : (Part.dropFull cls p).settings = p.settings := by
  unfold Part.dropFull
  all_goals simp

@[simp] theorem settings_makeItem (kind : ItemKind) (p : Part) : (Part.makeItem kind p).settings = p.settings := by
  unfold Part.makeItem
  (try dsimp only)
  (repeat' split)
  all_goals simp

@[simp] theorem settings_makeLabel (pos : Fin 128) (clip : Nat) (snapshot : List Byte) (p : Part) : (Part.makeLabel pos clip snapshot p).settings = p.settings := by
  unfold Part.makeLabel
  (try dsimp only)
  (repeat' split)
  all_goals simp

@[simp] theorem settings_updDesc (seq : Word) (f : Descriptor → Descriptor) (p : Part) : (Part.updDesc seq f p).settings = p.settings := by
  unfold Part.updDesc
  (try dsimp only)
  all_goals simp

@[simp] theorem settings_removeDesc (seq : Word) (p : Part) : (Part.removeDesc seq p).settings = p.settings := by
  unfold Part.removeDesc
  (try dsimp only)
  all_goals simp

@[simp] theorem settings_unqueueFrame (seq : Word) (p : Part) : (Part.unqueueFrame seq p).settings = p.settings := by
  unfold Part.unqueueFrame
  all_goals simp

@[simp] theorem settings_fragmentSettled (id : Nat) (m : Settlement) (p : Part) : (Part.fragmentSettled id m p).settings = p.settings := by
  unfold Part.fragmentSettled
  all_goals simp

@[simp] theorem settings_settleDesc (d : Descriptor) (m : Settlement) (p : Part) : (Part.settleDesc d m p).settings = p.settings := by
  unfold Part.settleDesc
  (try dsimp only)
  (repeat' split)
  all_goals simp

@[simp] theorem settings_returnFrame (seq : Word) (p : Part) : (Part.returnFrame seq p).settings = p.settings := by
  unfold Part.returnFrame
  (repeat' split)
  all_goals simp

@[simp] theorem settings_returnFrames (fs : List TxFrame) (p : Part) : (Part.returnFrames fs p).settings = p.settings :=
  settings_foldl (fun p f => by split <;> simp) _

@[simp] theorem settings_overtakeDesc (d : Descriptor) (p : Part) : (Part.overtakeDesc d p).settings = p.settings := by
  unfold Part.overtakeDesc
  (repeat' split)
  all_goals simp

@[simp] theorem settings_overtakeItem (i : Item) (p : Part) : (Part.overtakeItem i p).settings = p.settings := by
  unfold Part.overtakeItem
  (try dsimp only)
  all_goals simp

@[simp] theorem settings_overtaken (bus : Fin 16) (m : Word) (p : Part) : (Part.overtaken bus m p).settings = p.settings := by
  unfold Part.overtaken
  all_goals simp

@[simp] theorem settings_putCursor (i : Fin 8) (c : Option Cursor) (p : Part) : (Part.putCursor i c p).settings = p.settings := by
  unfold Part.putCursor
  (try dsimp only)
  all_goals simp

@[simp] theorem settings_cursorPasses (i : Fin 8) (fuel : Nat) (p : Part) : (Part.cursorPasses i fuel p).settings = p.settings := by
  induction fuel generalizing p with
  | zero => rfl
  | succ n ih =>
    unfold Part.cursorPasses
    (repeat' split)
    all_goals simp [ih]

@[simp] theorem settings_cursorMakes (i : Fin 8) (p : Part) : (Part.cursorMakes i p).settings = p.settings := by
  unfold Part.cursorMakes
  (repeat' split)
  all_goals simp

@[simp] theorem settings_cursorTurn (p : Part) (i : Fin 8) : (Part.cursorTurn p i).settings = p.settings := by
  unfold Part.cursorTurn
  (repeat' split)
  all_goals simp

@[simp] theorem settings_cursorRound (p : Part) : (Part.cursorRound p).settings = p.settings := by
  unfold Part.cursorRound
  all_goals simp

@[simp] theorem settings_cursorRounds (n : Nat) (p : Part) : (Part.cursorRounds n p).settings = p.settings := by
  induction n generalizing p with
  | zero => rfl
  | succ n ih => simp [Part.cursorRounds, ih]

@[simp] theorem settings_stepCursors (p : Part) : p.stepCursors.settings = p.settings := settings_cursorRounds 6 p

@[simp] theorem settings_takeCursors (pos : Fin 128) (c : Clip) (outs : Table Word 8) (p : Part) : (Part.takeCursors pos c outs p).settings = p.settings := by
  unfold Part.takeCursors
  all_goals simp

@[simp] theorem settings_orphanItem (i : Item) (p : Part) : (Part.orphanItem i p).settings = p.settings := by
  unfold Part.orphanItem
  (try dsimp only)
  (repeat' split)
  all_goals simp

@[simp] theorem settings_cancelSend (pos : Fin 128) (clip : Nat) (p : Part) : (Part.cancelSend pos clip p).settings = p.settings := by
  unfold Part.cancelSend
  (try dsimp only)
  all_goals simp

@[simp] theorem settings_classGranted (c : Fin 4) (p : Part) : (Part.classGranted c p).settings = p.settings :=
  settings_setSender (Table.make_same fun i => by dsimp only; (repeat' split) <;> rfl)

@[simp] theorem settings_transmitStart (l : Fin 4) (p : Part) : (Part.transmitStart l p).settings = p.settings := by
  unfold Part.transmitStart
  (try dsimp only)
  (repeat' split)
  all_goals simp

@[simp] theorem settings_queueFrame (l : Fin 4) (f : TxFrame) (p : Part) : (Part.queueFrame l f p).settings = p.settings := by
  simp [Part.queueFrame]

@[simp] theorem settings_buildComplete (seq : Word) (lane : Fin 4) (got : List Byte) (p : Part) : (Part.buildComplete seq lane got p).settings = p.settings := by
  unfold Part.buildComplete
  (try dsimp only)
  (repeat' split)
  all_goals simp

@[simp] theorem settings_buildNext (seq : Word) (lane : Fin 4) (reads : List (Nat × Nat)) (got : List Byte) (p : Part) : (Part.buildNext seq lane reads got p).settings = p.settings := by
  unfold Part.buildNext
  (try dsimp only)
  (repeat' split)
  all_goals simp

@[simp] theorem settings_senderTransfer (data : List Byte) (p : Part) : (Part.senderTransfer data p).settings = p.settings := by
  unfold Part.senderTransfer
  (repeat' split)
  all_goals simp

@[simp] theorem settings_startRedispatch (d : Descriptor) (l : Fin 4) (p : Part) : (Part.startRedispatch d l p).settings = p.settings := by
  unfold Part.startRedispatch
  all_goals simp

@[simp] theorem settings_startFragment (c : Fin 4) (i : Item) (l : Fin 4) (p : Part) : (Part.startFragment c i l p).settings = p.settings := by
  unfold Part.startFragment
  (try dsimp only)
  all_goals simp

@[simp] theorem settings_startBuild (p : Part) : (Part.startBuild p).settings = p.settings := by
  unfold Part.startBuild
  (repeat' split)
  all_goals simp

@[simp] theorem settings_takeExtent (k : Fin 8) (atStart : Bool) (p : Part) : (Part.takeExtent k atStart p).settings = p.settings := by
  unfold Part.takeExtent
  (try dsimp only)
  (repeat' split)
  all_goals simp

@[simp] theorem settings_retireOldest (k : Fin 8) (p : Part) : (Part.retireOldest k p).settings = p.settings := by
  unfold Part.retireOldest
  (repeat' split)
  all_goals simp

@[simp] theorem settings_makeRoomLoop (k : Fin 8) (n fuel : Nat) (p : Part) :
    (Part.makeRoomLoop k n fuel p).2.settings = p.settings := by
  induction fuel generalizing p with
  | zero => rfl
  | succ m ih =>
    unfold Part.makeRoomLoop
    (repeat' split)
    all_goals simp [ih]

@[simp] theorem settings_makeRoom (k : Fin 8) (n : Nat) (p : Part) : (Part.makeRoom k n p).2.settings = p.settings :=
  settings_makeRoomLoop k n _ p

@[simp] theorem settings_countCut (k : Fin 8) (p : Part) : (Part.countCut k p).settings = p.settings := by
  unfold Part.countCut
  all_goals simp

@[simp] theorem settings_indexPlace (k : Fin 8) (p : Part) : (Part.indexPlace k p).2.settings = p.settings := by
  unfold Part.indexPlace
  (repeat' split)
  all_goals simp

@[simp] theorem settings_appendOpening (k : Fin 8) (st : Stamp) (header : Nat) (p : Part) : (Part.appendOpening k st header p).2.settings = p.settings := by
  unfold Part.appendOpening
  (try dsimp only)
  all_goals simp

@[simp] theorem settings_extentBack (k : Fin 8) (before : Ring) (p : Part) : (Part.extentBack k before p).settings = p.settings := by
  unfold Part.extentBack
  all_goals simp

@[simp] theorem settings_openPicture (k : Fin 8) (st : Stamp) (header : Nat) (p : Part) : (Part.openPicture k st header p).2.settings = p.settings := by
  unfold Part.openPicture
  (try dsimp only)
  (repeat' split)
  all_goals simp

@[simp] theorem settings_reserveBand (k : Fin 8) (n : Word) (s : Nat) (p : Part) : (Part.reserveBand k n s p).2.settings = p.settings := by
  unfold Part.reserveBand
  (try dsimp only)
  all_goals simp

@[simp] theorem settings_rollBack (k : Fin 8) (n : Word) (cause : GapCause) (p : Part) : (Part.rollBack k n cause p).settings = p.settings := by
  unfold Part.rollBack
  (try dsimp only)
  (repeat' split)
  all_goals simp

@[simp] theorem settings_cutPicture (k : Fin 8) (n : Word) (p : Part) : (Part.cutPicture k n p).settings = p.settings := by
  unfold Part.cutPicture
  all_goals simp

@[simp] theorem settings_countLost (k : Fin 8) (p : Part) : (Part.countLost k p).settings = p.settings := by
  unfold Part.countLost
  all_goals simp

@[simp] theorem settings_settlePicture (k : Fin 8) (st : Stamp) (cause : SettleCause) (p : Part) : (Part.settlePicture k st cause p).settings = p.settings := by
  unfold Part.settlePicture
  (repeat' split)
  all_goals simp

@[simp] theorem settings_publishPicture (k : Fin 8) (n : Word) (total quantizer : Nat) (overFlag live : Bool) (p : Part) : (Part.publishPicture k n total quantizer overFlag live p).settings = p.settings := by
  unfold Part.publishPicture
  (try dsimp only)
  (repeat' split)
  all_goals simp

@[simp] theorem settings_updSlot (k : Fin 8) (i : SlotId) (f : Slot → Slot) (p : Part) : (Part.updSlot k i f p).settings = p.settings := by
  unfold Part.updSlot
  all_goals simp

@[simp] theorem settings_countCamera (k : Fin 8) (f : CameraCounters → CameraCounters) (p : Part) : (Part.countCamera k f p).settings = p.settings := by
  unfold Part.countCamera
  all_goals simp

@[simp] theorem settings_endDiscarded (j : JobRun) (p : Part) : (Part.endDiscarded j p).settings = p.settings := by
  unfold Part.endDiscarded
  (try dsimp only)
  all_goals simp

@[simp] theorem settings_discardJob (p : Part) : (Part.discardJob p).settings = p.settings := by
  unfold Part.discardJob
  (try dsimp only)
  (repeat' split)
  all_goals simp

@[simp] theorem settings_dropWork (k : Fin 8) (i : SlotId) (n : Word) (p : Part) : (Part.dropWork k i n p).settings = p.settings := by
  unfold Part.dropWork
  (try dsimp only)
  (repeat' split)
  all_goals simp

@[simp] theorem settings_takeSlotStart (k : Fin 8) (i : SlotId) (p : Part) : (Part.takeSlotStart k i p).settings = p.settings := by
  unfold Part.takeSlotStart
  all_goals simp

@[simp] theorem settings_tear (k : Fin 8) (i : SlotId) (p : Part) : (Part.tear k i p).settings = p.settings := by
  unfold Part.tear
  (try dsimp only)
  (repeat' split)
  all_goals simp

@[simp] theorem settings_offerHeld (port : Fin 6) (tracked : Bool) (p : Part) : (Part.offerHeld port tracked p).settings = p.settings := by
  unfold Part.offerHeld
  all_goals simp

@[simp] theorem settings_dropHeld (k : Fin 8) (p : Part) : (Part.dropHeld k p).settings = p.settings := by
  unfold Part.dropHeld
  all_goals simp

@[simp] theorem settings_slotDone (k : Fin 8) (i : SlotId) (p : Part) : (Part.slotDone k i p).settings = p.settings := by
  unfold Part.slotDone
  (try dsimp only)
  (repeat' split)
  all_goals simp

@[simp] theorem settings_judgeStart (k : Fin 8) (i : SlotId) (port : Fin 6) (tag : BitVec 6) (p : Part) : (Part.judgeStart k i port tag p).2.settings = p.settings := by
  unfold Part.judgeStart
  (try dsimp only)
  (repeat' split)
  all_goals simp

@[simp] theorem settings_holdExpiry (k : Fin 8) (p : Part) : (Part.holdExpiry k p).settings = p.settings := by
  unfold Part.holdExpiry
  (try dsimp only)
  (repeat' split)
  all_goals simp

@[simp] theorem settings_abandon (k : Fin 8) (i : SlotId) (n : Word) (cause : SettleCause) (p : Part) : (Part.abandon k i n cause p).settings = p.settings := by
  unfold Part.abandon
  (try dsimp only)
  (repeat' split)
  all_goals simp

@[simp] theorem settings_queueJob (j : BandJob) (p : Part) : (Part.queueJob j p).settings = p.settings := by
  unfold Part.queueJob
  (try dsimp only)
  all_goals simp

@[simp] theorem settings_bandWrite (k : Fin 8) (i : SlotId) (b : Nat) (p : Part) : (Part.bandWrite k i b p).settings = p.settings := by
  unfold Part.bandWrite
  (try dsimp only)
  (repeat' split)
  all_goals simp

@[simp] theorem settings_frameWrite (w : Fin 32) (r : Request) (p : Part) : (Part.frameWrite w r p).settings = p.settings := by
  unfold Part.frameWrite
  dsimp only
  split
  · split
    · exact settings_foldl (fun p l => by (repeat' split) <;> simp) _
    · rfl
  · rfl

@[simp] theorem settings_bandCoded (k : Fin 8) (i : SlotId) (n : Word) (p : Part) : (Part.bandCoded k i n p).settings = p.settings := by
  unfold Part.bandCoded
  all_goals simp

@[simp] theorem settings_abandonStopped (k : Fin 8) (i : SlotId) (p : Part) : (Part.abandonStopped k i p).settings = p.settings := by
  unfold Part.abandonStopped
  (repeat' split)
  all_goals simp

@[simp] theorem settings_finishStop (k : Fin 8) (p : Part) : (Part.finishStop k p).settings = p.settings := by
  unfold Part.finishStop
  (try dsimp only)
  all_goals simp

@[simp] theorem settings_beginStop (k : Fin 8) (p : Part) : (Part.beginStop k p).settings = p.settings := by
  unfold Part.beginStop
  (try dsimp only)
  (repeat' split)
  all_goals simp

@[simp] theorem settings_setJob (j : Option JobRun) (p : Part) : (Part.setJob j p).settings = p.settings := by
  unfold Part.setJob
  (try dsimp only)
  all_goals simp

@[simp] theorem settings_setRate (k : Fin 8) (r : Option RateRecord) (p : Part) : (Part.setRate k r p).settings = p.settings := by
  unfold Part.setRate
  (try dsimp only)
  all_goals simp

@[simp] theorem settings_startReading (j : JobRun) (p : Part) : (Part.startReading j p).settings = p.settings := by
  unfold Part.startReading
  (repeat' split)
  all_goals simp

@[simp] theorem settings_startWrites (j : JobRun) (writes : List (Nat × List Byte)) (p : Part) : (Part.startWrites j writes p).settings = p.settings := by
  unfold Part.startWrites
  (repeat' split)
  all_goals simp

@[simp] theorem settings_startPicture (j : BandJob) (st : Stamp) (start : Nat) (p : Part) : (Part.startPicture j st start p).settings = p.settings := by
  unfold Part.startPicture
  (try dsimp only)
  all_goals simp

@[simp] theorem settings_takeFirstBand (j : BandJob) (p : Part) : (Part.takeFirstBand j p).settings = p.settings := by
  unfold Part.takeFirstBand
  (repeat' split)
  · simp
  · rfl
  · next q h => simp [settings_of h (settings_openPicture ..)]
  · next q h => simp [settings_of h (settings_openPicture ..)]

@[simp] theorem settings_takeLaterBand (j : BandJob) (p : Part) : (Part.takeLaterBand j p).settings = p.settings := by
  unfold Part.takeLaterBand
  (repeat' split)
  all_goals simp

@[simp] theorem settings_takeJob (p : Part) : (Part.takeJob p).settings = p.settings := by
  unfold Part.takeJob
  (try dsimp only)
  (repeat' split)
  all_goals simp

@[simp] theorem settings_placeBand (j : JobRun) (r : RateRecord) (tiles : List (List Byte)) (p : Part) :
    (Part.placeBand j r tiles p).settings = p.settings := by
  unfold Part.placeBand
  dsimp only
  split
  · next q h => simp [settings_of h (settings_makeRoom ..)]
  · next q h => simp [settings_of h (settings_makeRoom ..)]

@[simp] theorem settings_codedEvent (tiles : List (List Byte)) (p : Part) : (Part.codedEvent tiles p).settings = p.settings := by
  unfold Part.codedEvent
  (repeat' split)
  all_goals simp

@[simp] theorem settings_publish (k : Fin 8) (r : RateRecord) (p : Part) : (Part.publish k r p).settings = p.settings := by
  unfold Part.publish
  (try dsimp only)
  (repeat' split)
  all_goals simp

@[simp] theorem settings_endWritten (j : JobRun) (s : Nat) (p : Part) : (Part.endWritten j s p).settings = p.settings := by
  unfold Part.endWritten
  (try dsimp only)
  (repeat' split)
  all_goals simp

@[simp] theorem settings_coderTransfer (p : Part) : (Part.coderTransfer p).settings = p.settings := by
  unfold Part.coderTransfer
  (repeat' split)
  all_goals simp

@[simp] theorem settings_startRunning (k : Fin 8) (p : Part) : (Part.startRunning k p).settings = p.settings := by
  unfold Part.startRunning
  all_goals simp

@[simp] theorem settings_blockWritten (s : Fin 64) (k : Nat) (p : Part) : (Part.blockWritten s k p).settings = p.settings := by
  unfold Part.blockWritten
  (repeat' split)
  all_goals simp

@[simp] theorem settings_soundWrite (w : Fin 32) (r : Request) (p : Part) : (Part.soundWrite w r p).settings = p.settings := by
  unfold Part.soundWrite
  dsimp only
  split
  · split
    · exact settings_foldl (fun p l => by (repeat' split) <;> simp) _
    · rfl
  · rfl

@[simp] theorem settings_setPass (x : Option Pass) (p : Part) : (Part.setPass x p).settings = p.settings := by
  unfold Part.setPass
  (try dsimp only)
  all_goals simp

@[simp] theorem settings_meterBus (b : Fin 16) (block : List Int) (p : Part) : (Part.meterBus b block p).settings = p.settings := by
  unfold Part.meterBus
  all_goals simp

@[simp] theorem settings_overtakeSlot (n : Word) (ring : Nat) (b : Fin 16) (p : Part) : (Part.overtakeSlot n ring b p).settings = p.settings := by
  unfold Part.overtakeSlot
  (try dsimp only)
  (repeat' split)
  all_goals simp

@[simp] theorem settings_handAudio (q : Pass) (p : Part) (b : Fin 16) : (Part.handAudio q p b).settings = p.settings := by
  unfold Part.handAudio
  (try dsimp only)
  (repeat' split)
  all_goals simp

@[simp] theorem settings_passComplete (q : Pass) (p : Part) : (Part.passComplete q p).settings = p.settings := by
  have h : ∀ b : Bus, b.dropLeaving.cfg = b.cfg := fun b => rfl
  unfold Part.passComplete
  dsimp only
  rw [settings_setPass]
  refine Eq.trans (b := ((List.finRange 16).foldl (Part.handAudio q) p).settings) (settings_setMixer rfl (Table.each_same h)) ?_
  exact settings_foldl (fun p b => settings_handAudio q p b) _

@[simp] theorem settings_writeNext (q : Pass) (writes : List (Nat × List Byte)) (p : Part) : (Part.writeNext q writes p).settings = p.settings := by
  unfold Part.writeNext
  (repeat' split)
  all_goals simp

@[simp] theorem settings_mixEvent (q : Pass) (p : Part) : (Part.mixEvent q p).settings = p.settings := by
  unfold Part.mixEvent
  (try dsimp only)
  all_goals simp

@[simp] theorem settings_readNext (q : Pass) (reads : List (Fin 64 × Nat)) (p : Part) : (Part.readNext q reads p).settings = p.settings := by
  unfold Part.readNext
  (repeat' split)
  all_goals simp

@[simp] theorem settings_planSources (n : Word) (buses : Table BusSnapshot 16) (l : List (Fin 64))
    (acc : List (Fin 64 × Nat × Bool) × Part) : (l.foldl (Part.planSource n buses) acc).2.settings = acc.2.settings := by
  induction l generalizing acc with
  | nil => rfl
  | cons a l ih =>
    rw [List.foldl_cons, ih]
    unfold Part.planSource
    dsimp only
    (repeat' split)
    all_goals simp

@[simp] theorem settings_startPass (n : Word) (p : Part) : (Part.startPass n p).settings = p.settings := by
  unfold Part.startPass
  rw [settings_readNext, settings_planSources]
  simp

@[simp] theorem settings_mixerTick (n : Word) (p : Part) : (Part.mixerTick n p).settings = p.settings := by
  unfold Part.mixerTick
  (try dsimp only)
  (repeat' split)
  all_goals simp

@[simp] theorem settings_mixerTransfer (data : List Byte) (p : Part) : (Part.mixerTransfer data p).settings = p.settings := by
  unfold Part.mixerTransfer
  (repeat' split)
  all_goals simp

@[simp] theorem settings_restartBus (b : Fin 16) (p : Part) : (Part.restartBus b p).settings = p.settings := by
  unfold Part.restartBus
  (try dsimp only)
  all_goals simp

@[simp] theorem settings_setMixerState (x : MixerState) (p : Part) : (Part.setMixerState x p).settings = p.settings := by
  unfold Part.setMixerState
  (try dsimp only)
  all_goals simp

@[simp] theorem settings_pinClip (c : Clip) (out : Option (Table Word 8)) (p : Part) : (Part.pinClip c out p).settings = p.settings := by
  unfold Part.pinClip
  all_goals simp

@[simp] theorem settings_unpinClip (c : Clip) (p : Part) : (Part.unpinClip c p).settings = p.settings := by
  unfold Part.unpinClip
  all_goals simp

@[simp] theorem settings_countRefusedMark (p : Part) : (Part.countRefusedMark p).settings = p.settings := by
  unfold Part.countRefusedMark
  (try dsimp only)
  all_goals simp

@[simp] theorem settings_markIn (m : MarkRequest) (p : Part) : (Part.markIn m p).2.settings = p.settings := by
  unfold Part.markIn
  (try dsimp only)
  (repeat' split)
  all_goals simp

@[simp] theorem settings_markOut (pos : Fin 128) (c : Clip) (p : Part) : (Part.markOut pos c p).settings = p.settings := by
  unfold Part.markOut
  all_goals simp

@[simp] theorem settings_releaseClip (pos : Fin 128) (c : Clip) (p : Part) : (Part.releaseClip pos c p).settings = p.settings := by
  unfold Part.releaseClip
  (try dsimp only)
  (repeat' split)
  all_goals simp

@[simp] theorem settings_deleteClip (pos : Fin 128) (c : Clip) (p : Part) : (Part.deleteClip pos c p).settings = p.settings := by
  unfold Part.deleteClip
  (try dsimp only)
  (repeat' split)
  all_goals simp

@[simp] theorem settings_sendClip (pos : Fin 128) (c : Clip) (outs : Table Word 8) (p : Part) : (Part.sendClip pos c outs p).settings = p.settings := by
  unfold Part.sendClip
  (try dsimp only)
  all_goals simp

@[simp] theorem settings_mirrorAll (p : Part) : (Part.mirrorAll p).settings = p.settings := by
  unfold Part.mirrorAll
  (try dsimp only)
  all_goals simp

@[simp] theorem settings_mirrorWithdraw (p : Part) : (Part.mirrorWithdraw p).settings = p.settings := by
  unfold Part.mirrorWithdraw
  (try dsimp only)
  (repeat' split)
  all_goals simp

@[simp] theorem settings_mirrorStart (p : Part) : (Part.mirrorStart p).settings = p.settings := by
  unfold Part.mirrorStart
  (try dsimp only)
  (repeat' split)
  all_goals simp

@[simp] theorem settings_clipsTransfer (p : Part) : (Part.clipsTransfer p).settings = p.settings := by
  unfold Part.clipsTransfer
  (try dsimp only)
  all_goals simp

@[simp] theorem settings_refusedPress (line : Fin 8) (p : Part) : (Part.refusedPress line p).settings = p.settings := by
  unfold Part.refusedPress
  all_goals simp

@[simp] theorem settings_pressIn (line : Fin 8) (p : Part) : (Part.pressIn line p).settings = p.settings := by
  unfold Part.pressIn
  dsimp only
  split
  · next q h => simp [settings_of h (settings_markIn ..)]
  · next q h => simp [settings_of h (settings_markIn ..)]

@[simp] theorem settings_markPress (line : Fin 8) (p : Part) : (Part.markPress line p).settings = p.settings := by
  unfold Part.markPress
  (try dsimp only)
  (repeat' split)
  all_goals simp

@[simp] theorem settings_debounceExpiry (line : Fin 8) (p : Part) : (Part.debounceExpiry line p).settings = p.settings := by
  have h : ∀ c : CueLine, c.settle.cfg = c.cfg := fun c => rfl
  unfold Part.debounceExpiry
  dsimp only
  (repeat' split)
  all_goals simp [h]

@[simp] theorem settings_itemStale (id : Nat) (p : Part) : (Part.itemStale id p).settings = p.settings := by
  unfold Part.itemStale
  (repeat' split)
  all_goals simp

@[simp] theorem settings_descriptorExpiry (seq : Word) (p : Part) : (Part.descriptorExpiry seq p).settings = p.settings := by
  unfold Part.descriptorExpiry
  (repeat' split)
  all_goals simp

@[simp] theorem settings_countSend (f : SendCounters → SendCounters) (p : Part) : (Part.countSend f p).settings = p.settings := by
  unfold Part.countSend
  (try dsimp only)
  all_goals simp

@[simp] theorem settings_takeMessage {α : Type} (l : Fin 4) (kind : MessageBody → Option α) {act : α → Part → Part}
    (h : ∀ x p, (act x p).settings = p.settings) (p : Part) : (Part.takeMessage l kind act p).settings = p.settings := by
  have h' : ∀ x : Lane, x.takeMessage.cfg = x.cfg := fun x => rfl
  unfold Part.takeMessage
  dsimp only
  (repeat' split)
  all_goals simp [h, h']

@[simp] theorem settings_receiptOf (p : Part) (seq : Word) : (Part.receiptOf p seq).settings = p.settings := by
  unfold Part.receiptOf
  (repeat' split)
  all_goals simp

@[simp] theorem settings_receipt (range : Word × Word) (p : Part) : (Part.receipt range p).settings = p.settings := by
  unfold Part.receipt
  (try dsimp only)
  (repeat' split)
  all_goals simp

@[simp] theorem settings_resend (seq : Word) (p : Part) : (Part.resend seq p).settings = p.settings := by
  unfold Part.resend
  (repeat' split)
  all_goals simp

@[simp] theorem settings_laneTest (lane : Fin 4) (token : Word) (p : Part) : (Part.laneTest lane token p).settings = p.settings := by
  unfold Part.laneTest
  (repeat' split)
  all_goals simp

@[simp] theorem settings_flushClass (c : Fin 4) (p : Part) : (Part.flushClass c p).settings = p.settings := by
  unfold Part.flushClass
  (try dsimp only)
  all_goals simp

@[simp] theorem settings_breakOff (l : Fin 4) (p : Part) : (Part.breakOff l p).settings = p.settings := by
  unfold Part.breakOff
  (repeat' split)
  all_goals simp

@[simp] theorem settings_laneFail (l : Fin 4) (p : Part) : (Part.laneFail l p).settings = p.settings := by
  unfold Part.laneFail
  (try dsimp only)
  all_goals simp

@[simp] theorem settings_turnOff (l : Fin 4) (p : Part) : (Part.turnOff l p).settings = p.settings := by
  have h : ∀ (x : Lane) (n : Nat), (x.cut n).cfg = x.cfg := fun x n => rfl
  unfold Part.turnOff
  simp [h]

@[simp] theorem settings_breakSentEnd (l : Fin 4) (p : Part) : (Part.breakSentEnd l p).settings = p.settings := by
  unfold Part.breakSentEnd
  (repeat' split)
  all_goals simp

@[simp] theorem settings_filteredCarrier (l : Fin 4) (present : Bool) (p : Part) : (Part.filteredCarrier l present p).settings = p.settings := by
  unfold Part.filteredCarrier
  (try dsimp only)
  (repeat' split)
  all_goals simp

@[simp] theorem settings_carrierChange (l : Fin 4) (present : Bool) (p : Part) : (Part.carrierChange l present p).settings = p.settings := by
  unfold Part.carrierChange
  (try dsimp only)
  (repeat' split)
  all_goals simp

@[simp] theorem settings_filterExpiry (l : Fin 4) (p : Part) : (Part.filterExpiry l p).settings = p.settings := by
  unfold Part.filterExpiry
  (repeat' split)
  all_goals simp

@[simp] theorem settings_settleExpiry (l : Fin 4) (p : Part) : (Part.settleExpiry l p).settings = p.settings := by
  unfold Part.settleExpiry
  (repeat' split)
  all_goals simp

@[simp] theorem settings_frameSent (f : TxFrame) (p : Part) : (Part.frameSent f p).settings = p.settings := by
  unfold Part.frameSent
  (repeat' split)
  all_goals simp

@[simp] theorem settings_transmitComplete (l : Fin 4) (p : Part) : (Part.transmitComplete l p).settings = p.settings := by
  unfold Part.transmitComplete
  (try dsimp only)
  (repeat' split)
  all_goals simp

@[simp] theorem settings_breakReceived (l : Fin 4) (afterRun : Bool) (p : Part) :
    (Part.breakReceived l afterRun p).settings = p.settings := by
  have h : ∀ (x : Lane), (x.endReceive afterRun).cfg = x.cfg := fun x => by unfold Lane.endReceive; split <;> rfl
  unfold Part.breakReceived
  dsimp only
  (repeat' split)
  all_goals simp [h]

@[simp] theorem settings_refuseRequest (port : Fin 6) (tag : BitVec 6) (r : Request) (why : Reason) (p : Part) : (Part.refuseRequest port tag r why p).settings = p.settings := by
  unfold Part.refuseRequest
  all_goals simp

@[simp] theorem settings_frameVerdict (port : Fin 6) (tag : BitVec 6) (w : Fin 32) (r : Request) (p : Part) :
    (Part.frameVerdict port tag w r p).2.settings = p.settings := by
  unfold Part.frameVerdict
  (repeat' split)
  · rfl
  · next q h => simp [settings_of h (settings_judgeStart ..)]
  · next q h => simp [settings_of h (settings_judgeStart ..)]

@[simp] theorem settings_kindVerdict (port : Fin 6) (tag : BitVec 6) (w : Fin 32) (r : Request) (p : Part) : (Part.kindVerdict port tag w r p).2.settings = p.settings := by
  unfold Part.kindVerdict
  (try dsimp only)
  (repeat' split)
  all_goals simp

@[simp] theorem settings_judge (port : Fin 6) (tag : BitVec 6) (r : Request) (p : Part) : (Part.judge port tag r p).2.settings = p.settings := by
  unfold Part.judge
  (repeat' split)
  all_goals simp

@[simp] theorem settings_checkHeads (port : Fin 6) (fuel : Nat) (p : Part) : (Part.checkHeads port fuel p).settings = p.settings := by
  induction fuel generalizing p with
  | zero => rfl
  | succ m ih =>
    unfold Part.checkHeads
    (repeat' split)
    · rfl
    · next h => simp [ih, settings_of h (settings_judge ..)]
    · next h => simp [settings_of h (settings_judge ..)]
    · next h => simp [settings_of h (settings_judge ..)]
    · rfl

@[simp] theorem settings_checkHead (port : Fin 6) (p : Part) : (Part.checkHead port p).settings = p.settings :=
  settings_checkHeads port _ p

@[simp] theorem settings_letIn (port : Fin 6) (tag : BitVec 6) (r : Request) (p : Part) : (Part.letIn port tag r p).settings = p.settings := by
  unfold Part.letIn
  (try dsimp only)
  all_goals simp

@[simp] theorem settings_present (port : Fin 6) (tag : BitVec 6) (r : Request) (p : Part) : (Part.present port tag r p).settings = p.settings := by
  unfold Part.present
  (repeat' split)
  all_goals simp

@[simp] theorem settings_grantTo (c : Fin 11) (p : Part) : (Part.grantTo c p).settings = p.settings := by
  unfold Part.grantTo
  (try dsimp only)
  (repeat' split)
  all_goals simp

@[simp] theorem settings_schedule (p : Part) : (Part.schedule p).settings = p.settings := by
  unfold Part.schedule
  (repeat' split)
  all_goals simp

@[simp] theorem takeRefresh_windows (x : Path) : x.takeRefresh.windows = x.windows := by unfold Path.takeRefresh; split <;> rfl
@[simp] theorem takeRefresh_intervals (x : Path) : x.takeRefresh.intervals = x.intervals := by unfold Path.takeRefresh; split <;> rfl

@[simp] theorem settings_refreshDue (p : Part) : p.refreshDue.settings = p.settings := by
  unfold Part.refreshDue
  dsimp only
  split
  · rfl
  · exact settings_setPath (p := Part.reach _ p) (by simp [Part.reach]) (by simp [Part.reach])

@[simp] theorem settings_refreshComplete (p : Part) : (Part.refreshComplete p).settings = p.settings := by
  unfold Part.refreshComplete
  (try dsimp only)
  (repeat' split)
  all_goals simp

@[simp] theorem settings_refuseHeld (w : Fin 32) (p : Part) (port : Fin 6) : (Part.refuseHeld w p port).settings = p.settings := by
  unfold Part.refuseHeld
  (try dsimp only)
  (repeat' split)
  all_goals simp

@[simp] theorem settings_setQuiesce (q : Quiesce) (p : Part) : (Part.setQuiesce q p).settings = p.settings := by
  unfold Part.setQuiesce
  (try dsimp only)
  all_goals simp

@[simp] theorem settings_countCmd (f : CommandCounters → CommandCounters) (p : Part) : (Part.countCmd f p).settings = p.settings := by
  unfold Part.countCmd
  (try dsimp only)
  all_goals simp

@[simp] theorem settings_takeTail (r : Rings) (t : Wide) (p : Part) : (Part.takeTail r t p).settings = p.settings := by
  unfold Part.takeTail
  (try dsimp only)
  (repeat' split)
  all_goals simp

@[simp] theorem settings_tailWrite (p : Part) : (Part.tailWrite p).settings = p.settings := by
  unfold Part.tailWrite
  (try dsimp only)
  (repeat' split)
  all_goals simp

@[simp] theorem settings_takeHead (r : Rings) (h : Wide) (p : Part) : (Part.takeHead r h p).settings = p.settings := by
  unfold Part.takeHead
  (try dsimp only)
  (repeat' split)
  all_goals simp

@[simp] theorem settings_headWrite (p : Part) : (Part.headWrite p).settings = p.settings := by
  unfold Part.headWrite
  (try dsimp only)
  (repeat' split)
  all_goals simp

@[simp] theorem settings_fetch (p : Part) : (Part.fetch p).settings = p.settings := by
  unfold Part.fetch
  (try dsimp only)
  (repeat' split)
  all_goals simp

@[simp] theorem settings_takeCommand (r : Rings) (record : List Byte) (p : Part) : (Part.takeCommand r record p).settings = p.settings := by
  unfold Part.takeCommand
  (try dsimp only)
  all_goals simp

@[simp] theorem settings_reportNext (x : Report) (p : Part) : (Part.reportNext x p).settings = p.settings := by
  unfold Part.reportNext
  (try dsimp only)
  (repeat' split)
  all_goals simp

@[simp] theorem settings_startReport (i : Nat) (tag : Word) (at' : Wide) (lines : Nat) (values : List Byte) (p : Part) : (Part.startReport i tag at' lines values p).settings = p.settings := by
  unfold Part.startReport
  all_goals simp

@[simp] theorem settings_writeStatus (r : Rings) (record : List Byte) (ofReset : Bool) (p : Part) : (Part.writeStatus r record ofReset p).settings = p.settings := by
  unfold Part.writeStatus
  (try dsimp only)
  all_goals simp

@[simp] theorem settings_writeIndexWord (r : Rings) (next : Nat) (ofReset : Bool) (p : Part) : (Part.writeIndexWord r next ofReset p).settings = p.settings := by
  unfold Part.writeIndexWord
  (try dsimp only)
  all_goals simp

@[simp] theorem settings_startStatus (p : Part) : (Part.startStatus p).settings = p.settings := by
  unfold Part.startStatus
  (try dsimp only)
  (repeat' split)
  all_goals simp

@[simp] theorem settings_statusTransfer (r : Rings) (p : Part) : (Part.statusTransfer r p).settings = p.settings := by
  unfold Part.statusTransfer
  (try dsimp only)
  (repeat' split)
  all_goals simp

@[simp] theorem settings_commandTransfer (data : List Byte) (p : Part) : (Part.commandTransfer data p).settings = p.settings := by
  unfold Part.commandTransfer
  (try dsimp only)
  (repeat' split)
  all_goals simp

@[simp] theorem settings_freeChannel (p : Part) : (Part.freeChannel p).settings = p.settings := by
  unfold Part.freeChannel
  (try dsimp only)
  all_goals simp

@[simp] theorem settings_watch (a : Admitted) (dram : Memory) (p : Part) : (Part.watch a dram p).settings = p.settings := by
  unfold Part.watch
  (try dsimp only)
  (repeat' split)
  all_goals simp

@[simp] theorem settings_clientDone (port : Fin 6) (a : Admitted) (data : List Byte) (dram : Memory) (p : Part) : (Part.clientDone port a data dram p).settings = p.settings := by
  unfold Part.clientDone
  (try dsimp only)
  all_goals simp

@[simp] theorem settings_streamDone (i : Fin 5) (data : List Byte) (p : Part) : (Part.streamDone i data p).settings = p.settings := by
  unfold Part.streamDone
  (repeat' split)
  all_goals simp

@[simp] theorem settings_afterTransfer (p : Part) : (Part.afterTransfer p).settings = p.settings := by
  unfold Part.afterTransfer
  all_goals simp

@[simp] theorem settings_eachPort (f : Port → Port) (p : Part) : (Part.eachPort f p).settings = p.settings := by
  unfold Part.eachPort
  (try dsimp only)
  all_goals simp

@[simp] theorem settings_clearCameras (p : Part) : (clearCameras p).settings = p.settings := by
  unfold clearCameras
  all_goals simp

@[simp] theorem settings_clearCoder (p : Part) : (clearCoder p).settings = p.settings := by
  unfold clearCoder
  (try dsimp only)
  all_goals simp

@[simp] theorem settings_clearRings (p : Part) : (clearRings p).settings = p.settings := by
  unfold clearRings
  all_goals simp

@[simp] theorem settings_clearMeters (p : Part) : (Part.clearMeters p).settings = p.settings := by
  unfold Part.clearMeters
  (try dsimp only)
  all_goals simp

@[simp] theorem settings_startCameras (i : Image) (p : Part) : (Part.startCameras i p).settings = p.settings :=
  settings_foldl (fun p k => by split <;> simp) _

@[simp] theorem settings_startLanes (p : Part) : p.startLanes.settings = p.settings :=
  settings_setLanes (Table.each_same fun l => by split <;> rfl)

@[simp] theorem settings_answer (character : Byte) (p : Part) : (Part.answer character p).settings = p.settings := by
  unfold Part.answer
  all_goals simp

@[simp] theorem settings_cancelDeferred (p : Part) : (Part.cancelDeferred p).settings = p.settings := by
  unfold Part.cancelDeferred
  (try dsimp only)
  all_goals simp

@[simp] theorem settings_dropStreams (p : Part) : (Part.dropStreams p).settings = p.settings := by
  unfold Part.dropStreams
  (try dsimp only)
  (repeat' split)
  all_goals simp

@[simp] theorem settings_breakOffAll (p : Part) : (Part.breakOffAll p).settings = p.settings := by
  unfold Part.breakOffAll
  all_goals simp

@[simp] theorem settings_clearCommander (p : Part) : (Part.clearCommander p).settings = p.settings := by
  unfold Part.clearCommander
  (try dsimp only)
  all_goals simp

@[simp] theorem settings_endReset (p : Part) : (Part.endReset p).settings = p.settings := by
  unfold Part.endReset
  (try dsimp only)
  (repeat' split)
  all_goals simp

end Sys2Proof.Machine
end

