-- ==== Sys2Proof/Laws/Runs.lean ====
section
/-! SUPPORT. How a software command that the engine holds runs, and the tests its rule makes, in the words of Safety.lean:
the proofs of the command statements begin with these. -/

namespace Sys2Proof.Table

variable {α : Type} {n : Nat}

/-- What stands at a place, put there, changes nothing. -/
@[simp] theorem put_nth (t : Table α n) (i : Fin n) : t.put i (t.nth i) = t := by
  refine ext_nth fun j => ?_
  rw [nth_put]
  split
  · next e => rw [e]
  · rfl

/-- Of two values put at one place the later stands. -/
@[simp] theorem put_put (t : Table α n) (i : Fin n) (x y : α) : (t.put i x).put i y = t.put i y := by
  refine ext_nth fun j => ?_
  simp only [nth_put]
  split <;> rfl

end Sys2Proof.Table

namespace Sys2Proof.Machine

/-- A command in hand runs its body on the part with the hand empty. -/
theorem withPart_run {c : Instr} {i : Nat} {s : State} (h : s.taken i c) (body : Nat → Part → Part) :
    s.withPart (Part.run c body) = s.becomes (body i s.part.handEmpty) := by
  unfold State.withPart
  rw [run_taken h]
  rfl

/-- A command in hand that is refused. -/
theorem becomes_refuse (s : State) (i : Nat) (tag : Word) (r : Result) :
    s.becomes (s.part.handEmpty.refuse i tag r []) = s.refuses i tag r := rfl

/-- A command in hand that is refused with result data. -/
theorem handEmpty_refuse (p : Part) (i : Nat) (tag : Word) (r : Result) (data : List Byte) :
    p.handEmpty.refuse i tag r data = p.turnedAway i tag r data := rfl

/-- A command in hand that completes with nothing else changed. -/
theorem handEmpty_finish (p : Part) (i : Nat) (tag : Word) (data : List Byte) : p.handEmpty.finish i tag data = p.answered i tag data := rfl

/-- A command in hand that is deferred with nothing else changed. -/
theorem handEmpty_defer (p : Part) (i : Nat) (tag : Word) (k : DeferredKind) : p.handEmpty.defer i tag k = p.deferring i tag k := rfl

@[simp] theorem handEmpty_outstanding (p : Part) (k : DeferredKind) : p.handEmpty.outstanding k = p.outstanding k := rfl
@[simp] theorem handEmpty_now (p : Part) : p.handEmpty.now = p.now := rfl
@[simp] theorem handEmpty_outputs (p : Part) : p.handEmpty.outputs = p.outputs := rfl
@[simp] theorem handEmpty_loader (p : Part) : p.handEmpty.loader = p.loader := rfl
@[simp] theorem handEmpty_path (p : Part) : p.handEmpty.path = p.path := rfl
@[simp] theorem handEmpty_clock (p : Part) : p.handEmpty.clock = p.clock := rfl
@[simp] theorem handEmpty_cues (p : Part) : p.handEmpty.cues = p.cues := rfl
@[simp] theorem handEmpty_cameras (p : Part) : p.handEmpty.cameras = p.cameras := rfl
@[simp] theorem handEmpty_coder (p : Part) : p.handEmpty.coder = p.coder := rfl
@[simp] theorem handEmpty_rings (p : Part) : p.handEmpty.rings = p.rings := rfl
@[simp] theorem handEmpty_mixer (p : Part) : p.handEmpty.mixer = p.mixer := rfl
@[simp] theorem handEmpty_clips (p : Part) : p.handEmpty.clips = p.clips := rfl
@[simp] theorem handEmpty_sender (p : Part) : p.handEmpty.sender = p.sender := rfl
@[simp] theorem handEmpty_lanes (p : Part) : p.handEmpty.lanes = p.lanes := rfl
@[simp] theorem handEmpty_clipAt (p : Part) (n : Nat) : p.handEmpty.clipAt n = p.clipAt n := rfl

theorem outstanding_eq_false (p : Part) (k : DeferredKind) : p.outstanding k = false ↔ p.noneOutstanding k := by
  simp [Part.outstanding, Part.noneOutstanding]

theorem outstanding_eq_true (p : Part) (k : DeferredKind) : p.outstanding k = true ↔ ¬ p.noneOutstanding k := by
  rw [← outstanding_eq_false]
  simp

theorem objectOf_eq_some {n : Nat} {b : Byte} {k : Fin n} : objectOf n b = some k ↔ b.toNat = k.val := by
  unfold objectOf
  split
  · simp [Fin.ext_iff]
  · next h =>
    have := k.isLt
    simp only [reduceCtorEq, false_iff]
    omega

theorem objectOf_eq_none {n : Nat} {b : Byte} : objectOf n b = none ↔ n ≤ b.toNat := by
  unfold objectOf
  split
  · simp only [reduceCtorEq, false_iff]
    omega
  · simp only [true_iff]
    omega

theorem flagOf_eq_none {b : Byte} : flagOf b = none ↔ 1 < b.toNat := by
  unfold flagOf
  split
  · simp_all
  · split
    · simp_all
    · next h0 h1 =>
      have a0 : b.toNat ≠ 0 := fun e => h0 (BitVec.eq_of_toNat_eq e)
      have a1 : b.toNat ≠ 1 := fun e => h1 (BitVec.eq_of_toNat_eq e)
      simp only [true_iff]
      omega

/-- Every port queue is empty. -/
theorem drained_iff (x : Path) : x.drained = true ↔ ∀ port, (x.ports.nth port).queue = [] := by
  simp only [Path.drained, Table.list, List.all_eq_true]
  constructor
  · intro h port
    have := h (x.ports.nth port) (by simp [Table.nth])
    simpa using this
  · intro h q hq
    obtain ⟨k, hk, rfl⟩ := List.getElem_of_mem hq
    have := h ⟨k, by simpa using hk⟩
    simpa [Table.nth] using this

/-- A stream offers its next request, which it does not while a transfer of it is in progress (R16). -/
theorem offers_stream (x : Path) (i : Fin 5) :
    x.offers ⟨i.val + 6, by omega⟩ = ((x.streams.nth i).isSome && !x.transferring i) := by
  unfold Path.offers
  rw [dif_neg (by simp)]
  rfl

/-- Giving a ring's extent and write point back after a take-up that changed nothing else leaves the part as it was. -/
theorem extentBack_takeExtent (p : Part) (k : Fin 8) : (p.takeExtent k false).extentBack k (p.rings.nth k) = p := by
  unfold Part.takeExtent Part.extentBack Part.updRing Part.setRings
  simp only [Bool.false_eq_true, if_false, Table.upd]
  split
  · rw [Table.put_nth]
  · split
    · simp only [Table.nth_put_same, Table.put_put]
      rw [Table.put_nth]
    · rw [Table.put_nth]

end Sys2Proof.Machine
end

