-- ==== Sys2Proof/Laws/Checks.lean ====
section
/-! SUPPORT. The head check in the words of Safety.lean: it neither reads nor changes the port queues but for the head it
checks, so the requests of a queue line up one by one; and tally. -/

namespace Sys2Proof.Machine

/-! ## Tally -/

/-- What a TALLY line shows. -/
theorem tallyOn_eq (p : Part) (n : Nat) :
    p.tallyOn n = decide (∃ k : Fin 8, n = k.val ∧ (p.cameras.nth k).state = .running ∧ (p.cameras.nth k).cfg.live = true) := by
  unfold Part.tallyOn
  by_cases h : n < 8
  · rw [dif_pos h, Bool.eq_iff_iff]
    simp only [Bool.and_eq_true, beq_iff_eq, decide_eq_true_eq]
    constructor
    · exact fun hs => ⟨⟨n, h⟩, rfl, hs⟩
    · rintro ⟨k, rfl, hs⟩
      exact hs
  · rw [dif_neg h]
    refine (decide_eq_false ?_).symm
    rintro ⟨k, rfl, _⟩
    exact h k.isLt

/-- Tally changes the cue table alone, as the cameras stand. -/
theorem tally_eq (p : Part) : p.tally = { p with cues := tallied p.cameras p.cues } := by
  unfold Part.tally Part.setCues tallied
  congr 1
  refine Table.ext_nth fun l => ?_
  simp only [Table.nth_each, Table.nth_make, tallyOn_eq]

/-! ## The head check and the queues -/

/-- The part with other port records, and another state of memory and ports. -/
def Part.door (p : Part) (x : Table Port 6) (ready : Bool) (q : Quiesce) : Part :=
  p.withPath { p.path with ports := x, ready := ready, quiesce := q }

variable (p : Part) (x : Table Port 6) (ready : Bool) (q : Quiesce)

theorem raise_door (c : Cause) (n : Nat) : (p.door x ready q).raise c n = (p.raise c n).door x ready q := by
  unfold Part.raise
  change (if (c, n) ∈ p.cmd.notices then _ else _) = _
  by_cases h : (c, n) ∈ p.cmd.notices
  · rw [if_pos h, if_pos h]; rfl
  · rw [if_neg h, if_neg h]; rfl

theorem discardJob_door : (p.door x ready q).discardJob = p.discardJob.door x ready q := by
  simp only [Part.discardJob]
  change (match p.coder.job with | none => _ | some j => _) = _
  cases p.coder.job with
  | none => rfl
  | some j =>
    simp only
    by_cases hd : j.discarded = true
    · rw [if_pos hd, if_pos hd]
    · rw [if_neg hd, if_neg hd]
      by_cases hc : j.phase = .coding
      · rw [if_pos hc, if_pos hc]; rfl
      · rw [if_neg hc, if_neg hc]
        change (if p.path.streamBusy coderStream = true then _ else _) = _
        by_cases hb : p.path.streamBusy coderStream = true
        · rw [if_pos hb, if_pos hb]; rfl
        · rw [if_neg hb, if_neg hb]; rfl

theorem dropWork_door (k : Fin 8) (i : SlotId) (n : Word) :
    (p.door x ready q).dropWork k i n = (p.dropWork k i n).door x ready q := by
  let p1 : Part := p.setCoder { p.coder with queue := p.coder.queue.filter fun j => !(j.cam == k && j.slot == i && j.number == n) }
  let drop (a : Part) : Part := match a.coder.job with
    | some j => if j.job.cam = k ∧ j.job.slot = i ∧ j.job.number = n then a.discardJob else a
    | none => a
  let unrate (a : Part) : Part := match a.coder.rates.nth k with
    | some r => if r.number = n then a.setCoder { a.coder with rates := a.coder.rates.put k none } else a
    | none => a
  have hdrop : ∀ a : Part, drop (a.door x ready q) = (drop a).door x ready q := by
    intro a
    change (match a.coder.job with | some j => _ | none => _) = _
    simp only [drop]
    cases a.coder.job with
    | none => rfl
    | some j =>
      by_cases h : j.job.cam = k ∧ j.job.slot = i ∧ j.job.number = n
      · simp only [if_pos h]; exact discardJob_door a x ready q
      · simp only [if_neg h]
  have hrate : ∀ a : Part, unrate (a.door x ready q) = (unrate a).door x ready q := by
    intro a
    change (match a.coder.rates.nth k with | some r => _ | none => _) = _
    simp only [unrate]
    cases a.coder.rates.nth k with
    | none => rfl
    | some r =>
      by_cases h : r.number = n
      · simp only [if_pos h]; rfl
      · simp only [if_neg h]
  change unrate (drop (p1.door x ready q)) = (unrate (drop p1)).door x ready q
  rw [hdrop, hrate]

theorem rollBack_door (k : Fin 8) (n : Word) (g : GapCause) :
    (p.door x ready q).rollBack k n g = (p.rollBack k n g).door x ready q := by
  unfold Part.rollBack
  change (match (p.rings.nth k).find n with | some ⟨_, _, _, .opening start len, _, _⟩ => _ | _ => _) = _
  cases (p.rings.nth k).find n with
  | none => rfl
  | some r => obtain ⟨_, _, _, body, _, _⟩ := r; cases body <;> rfl

theorem settlePicture_door (k : Fin 8) (st : Stamp) (cause : SettleCause) :
    (p.door x ready q).settlePicture k st cause = (p.settlePicture k st cause).door x ready q := by
  have hlost : (p.door x ready q).countLost k = (p.countLost k).door x ready q := 
    raise_door (p.updRing k fun r => { r with lost := count r.lost }) x ready q .ring k.val
  unfold Part.settlePicture
  change (match (p.rings.nth k).find st.number, cause with | some r, .gap g => _ | some _, .lost => _ | none, .lost => _ | none, .gap g => _) = _
  cases (p.rings.nth k).find st.number with
  | some r =>
    cases cause with
    | lost => rfl
    | gap g =>
      simp only
      cases r.body with
      | opening => exact rollBack_door p x ready q k st.number g
      | published => rfl
      | gap => rfl
  | none =>
    cases cause with
    | lost => exact hlost
    | gap g =>
      change (if (p.rings.nth k).appendable st.number = true then _ else _) = _
      simp only
      by_cases h : (p.rings.nth k).appendable st.number = true
      · simp only [if_pos h]; rfl
      · simp only [if_neg h]; exact hlost

theorem takeSlotStart_door (k : Fin 8) (i : SlotId) :
    (p.door x ready q).takeSlotStart k i = (p.takeSlotStart k i).door x ready q := rfl

theorem tear_door (k : Fin 8) (i : SlotId) : (p.door x ready q).tear k i = (p.tear k i).door x ready q := by
  let gone (a : Part) : Part := match ((p.cameras.nth k).slot i).stamp with
    | none => a
    | some st => if ((p.cameras.nth k).slot i).abandoned then a.dropWork k i st.number
      else (a.dropWork k i st.number).settlePicture k st (.gap .torn)
  let rest (a : Part) : Part :=
    ((a.updSlot k i fun s => { s with state := .torn }).countCamera k fun c => { c with torn := count c.torn }).raise .hold k.val
  have hgone : gone (p.door x ready q) = (gone p).door x ready q := by
    simp only [gone]
    cases ((p.cameras.nth k).slot i).stamp with
    | none => rfl
    | some st =>
      simp only
      by_cases h : ((p.cameras.nth k).slot i).abandoned = true
      · rw [if_pos h, if_pos h, dropWork_door]
      · rw [if_neg h, if_neg h, dropWork_door, settlePicture_door]
  have hrest : ∀ a : Part, rest (a.door x ready q) = (rest a).door x ready q := fun a =>
    raise_door ((a.updSlot k i fun s => { s with state := .torn }).countCamera k fun c => { c with torn := count c.torn }) x ready q .hold k.val
  change rest (gone (p.door x ready q)) = (rest (gone p)).door x ready q
  rw [hgone, hrest]

/-- How a slot start is judged has nothing to do with the port records. -/
theorem judgeStart_door (k : Fin 8) (i : SlotId) (port : Fin 6) (tag : BitVec 6) :
    (p.door x ready q).judgeStart k i port tag =
      ((p.judgeStart k i port tag).1, (p.judgeStart k i port tag).2.door x ready q) := by
  have hc : (p.door x ready q).cameras = p.cameras := rfl
  unfold Part.judgeStart
  rw [hc]
  simp only
  cases ((p.cameras.nth k).slot i).state with
  | empty | done | torn => rfl
  | filling => simp only [tear_door]; rfl
  | coding =>
    cases (p.cameras.nth k).cfg.policy with
    | drop => simp only [tear_door]; rfl
    | hold =>
      simp only
      by_cases h : (p.cameras.nth k).held.isNone = true
      · rw [if_pos h, if_pos h]; rfl
      · rw [if_neg h, if_neg h]
        refine Prod.ext rfl ?_
        exact raise_door (p.countCamera k fun c => { c with strayStarts := count c.strayStarts }) x ready q .hold k.val

theorem frameVerdict_door (port : Fin 6) (tag : BitVec 6) (w : Fin 32) (r : Request) :
    (p.door x ready q).frameVerdict port tag w r =
      ((p.frameVerdict port tag w r).1, (p.frameVerdict port tag w r).2.door x ready q) := by
  unfold Part.frameVerdict
  change (match p.startOf w r with | none => _ | some (k, i) => _) = _
  cases p.startOf w r with
  | none => rfl
  | some ki =>
    obtain ⟨k, i⟩ := ki
    simp only [judgeStart_door]
    cases p.judgeStart k i port tag with
    | mk v a => cases v <;> rfl

theorem kindVerdict_door (port : Fin 6) (tag : BitVec 6) (w : Fin 32) (r : Request) :
    (p.door x ready q).kindVerdict port tag w r =
      ((p.kindVerdict port tag w r).1, (p.kindVerdict port tag w r).2.door x ready q) := by
  have hw : (p.door x ready q).path.windows = p.path.windows := rfl
  unfold Part.kindVerdict
  rw [hw]
  simp only
  cases (p.path.windows.nth w).kind <;> cases r.kind <;> first | rfl | exact frameVerdict_door p x ready q port tag w r

/-- The tests of the head check have nothing to do with the port records, and leave them as they are. -/
theorem judge_door (port : Fin 6) (tag : BitVec 6) (r : Request) :
    (p.door x ready q).judge port tag r = ((p.judge port tag r).1, (p.judge port tag r).2.door x ready q) := by
  have hw : (p.door x ready q).path.windows = p.path.windows := rfl
  have hp : (p.door x ready q).path.place r.first r.next = p.path.place r.first r.next := rfl
  unfold Part.judge
  rw [hw, hp]
  by_cases h0 : Config.dramBytes < r.next
  · rw [if_pos h0, if_pos h0]
  rw [if_neg h0, if_neg h0]
  cases p.path.place r.first r.next with
  | openGround => rfl
  | split => rfl
  | inside w =>
    simp only
    by_cases h1 : (p.path.windows.nth w).state = .draining
    · rw [if_pos h1, if_pos h1]
    rw [if_neg h1, if_neg h1]
    by_cases h2 : (!(p.path.windows.nth w).admits port r.kind) = true
    · rw [if_pos h2, if_pos h2]
    rw [if_neg h2, if_neg h2, kindVerdict_door]
/-- What the tests leave of memory and ports is what stood there. -/
theorem judge_keeps (port : Fin 6) (tag : BitVec 6) (r : Request) :
    (p.judge port tag r).2 = (p.judge port tag r).2.door p.path.ports p.path.ready p.path.quiesce :=
  congrArg Prod.snd (judge_door p p.path.ports p.path.ready p.path.quiesce port tag r)

/-! ## The requests of a queue line up -/

theorem withQueue_withQueue (port : Fin 6) (y z : List Admitted) : (p.withQueue port y).withQueue port z = p.withQueue port z := by
  simp [Part.withQueue, Part.withPath, Path.putPort]

theorem withQueue_self (port : Fin 6) : p.withQueue port (p.path.ports.nth port).queue = p := by
  change p.withPath { p.path with ports := p.path.ports.put port (p.path.ports.nth port) } = p
  rw [Table.put_nth]
  rfl

@[simp] theorem withQueue_queue (port : Fin 6) (y : List Admitted) : ((p.withQueue port y).path.ports.nth port).queue = y := by
  simp [Part.withQueue, Part.withPath, Path.putPort]

/-- A request alone at the head, once the tests have said how its check comes out. -/
def Part.headJudged (p : Part) (port : Fin 6) (a : Admitted) : Part :=
  match p.judge port a.tag a.req with
  | (.refuse why, p1) => (p1.withQueue port []).refuseRequest port a.tag a.req why
  | (.pass via line tracked, p1) =>
    p1.withQueue port [{ (a.passed via line tracked) with counted := p.path.countedIn a.req.first a.req.next }]
  | (.hold w, p1) =>
    p1.withQueue port [{ a with phase := .held, via := some w, counted := p.path.countedIn a.req.first a.req.next }]

/-- A waiting head is judged: refused and gone, or passed, or held. -/
theorem checkHeads_waiting (port : Fin 6) (n : Nat) (a : Admitted) (rest : List Admitted)
    (hq : (p.path.ports.nth port).queue = a :: rest) (hp : a.phase = .waiting) :
    p.checkHeads port (n + 1) = match p.judge port a.tag a.req with
        | (.refuse why, p1) =>
          Part.checkHeads port n ((p1.refuseRequest port a.tag a.req why).updPort port Port.popHead)
        | (.pass via line tracked, p1) => p1.updPort port fun q => q.updHead fun a => a.passed via line tracked
        | (.hold w, p1) => p1.updPort port fun q => q.updHead fun a => { a with phase := .held, via := some w } := by
  conv => lhs; unfold Part.checkHeads
  rw [hq]
  exact if_pos hp

theorem emit_door (o : Output) (x : Table Port 6) (ready : Bool) (q : Quiesce) :
    (p.door x ready q).emit o = (p.emit o).door x ready q := rfl

theorem withQueue_door (port : Fin 6) (y : List Admitted) (x : Table Port 6) (ready : Bool) (q : Quiesce) :
    (p.door x ready q).withQueue port y = p.door (x.put port { (x.nth port) with queue := y }) ready q := rfl

/-- A refusal, with the port records it leaves last. -/
theorem refuseRequest_door (port : Fin 6) (tag : BitVec 6) (r : Request) (why : Reason) :
    p.refuseRequest port tag r why = ((p.emit (.refused port tag why)).raise .access port.val).door
      (p.path.ports.upd port fun q => { q with refusals := count q.refusals, last := some ⟨why, r.first, r.kind⟩ })
      p.path.ready p.path.quiesce := by
  rw [← raise_door]
  rfl

/-- A request presented to an open, empty port is checked at once. -/
theorem present_empty (port : Fin 6) (tag : BitVec 6) (r : Request) (hr : p.path.ready = true) (hq : p.path.quiesce = .running)
    (h : (p.path.ports.nth port).queue = []) :
    p.present port tag r = 
      (p.withQueue port [⟨tag, r, .waiting, p.path.countedIn r.first r.next, none, r.line, false⟩]).checkHeads port 1 := by
  unfold Part.present
  rw [if_neg (by simp [Path.readyLine, hr, hq, h, Config.portQueueMax]), if_neg (by simp [Port.tagUsed, h])]
  unfold Part.letIn Part.checkHead
  have hu : (p.updPort port fun q => { q with queue := q.queue ++ [⟨tag, r, .waiting, p.path.countedIn r.first r.next, none, r.line, false⟩] }) =
      p.withQueue port [⟨tag, r, .waiting, p.path.countedIn r.first r.next, none, r.line, false⟩] := by
    simp [Part.updPort, Part.withQueue, Part.withPath, Part.setPath, Table.upd, Path.putPort, h]
  simp only [hu, withQueue_queue]
  rfl

/-- The check of a request alone at the head is the head check's tests and their outcome. -/
theorem headAlone_eq (port : Fin 6) (a : Admitted) (h : a.waits) : p.headAlone port a = p.headJudged port a := by
  obtain ⟨tag, r, phase, counted, via, target, tracked⟩ := a
  obtain ⟨hp, hv, ht, hk, hw⟩ := h
  simp only at hp hv ht hk hw
  subst hp hv ht hk
  have hfit : requestFits r.kind r.count r.data = true := hw
  let e : Admitted := ⟨tag, r, .waiting, p.path.countedIn r.first r.next, none, r.line, false⟩
  let asked := (p.withQueue port []).withPath { (p.withQueue port []).path with quiesce := .running, ready := true }
  let full := (p.withQueue port [e]).path.ports
  have hrun : p.headAlone port ⟨tag, r, .waiting, counted, none, r.line, false⟩ =
      (asked.present port tag r).withPath { (asked.present port tag r).path with quiesce := p.path.quiesce, ready := p.path.ready } := by
    unfold Part.headAlone
    simp only [exec, execClientRequest, State.withPart, hfit, if_true]
    rfl
  have hdoor : asked.withQueue port [e] = p.door full true .running := by
    simp [asked, full, Part.withQueue, Part.withPath, Path.putPort, Part.door]
  have hask : asked.present port tag r = (p.door full true .running).checkHeads port 1 := by
    have := present_empty asked port tag r rfl rfl (withQueue_queue p port [])
    rw [this]
    exact congrArg (Part.checkHeads port 1) hdoor
  rw [hrun, hask]
  have hq : ((p.door full true .running).path.ports.nth port).queue = [e] := by
    exact withQueue_queue p port [e]
  rw [checkHeads_waiting _ port 0 e [] hq rfl]
  simp only [e, judge_door]
  unfold Part.headJudged
  simp only
  have hk := judge_keeps p port tag r
  generalize p.judge port tag r = v at hk
  obtain ⟨v, p1⟩ := v
  simp only at hk
  cases v with
  | refuse why =>
    simp only
    rw [hk]
    unfold Part.checkHeads
    simp only [withQueue_door, refuseRequest_door, emit_door, raise_door]
    simp [Part.updPort, Part.withPath, Part.setPath, Part.door, Table.upd, Port.popHead, full, Part.withQueue, Path.putPort]
  | pass via line tracked =>
    simp only
    rw [hk]
    simp [Part.updPort, Part.withQueue, Part.withPath, Part.setPath, Part.door, Table.upd, Path.putPort, full, e, Port.updHead, Admitted.passed]
  | hold w =>
    simp only
    rw [hk]
    simp [Part.updPort, Part.withQueue, Part.withPath, Part.setPath, Part.door, Table.upd, Path.putPort, full, e, Port.updHead]

/-- A queue's requests line up whatever queue stood there before. -/
theorem linedUp_withQueue (port : Fin 6) (y z : List Admitted) : (p.withQueue port y).linedUp port z = p.linedUp port z := by
  cases z with
  | nil => exact withQueue_withQueue p port y []
  | cons a rest =>
    have h : (p.withQueue port y).headAlone port a = p.headAlone port a := by
      unfold Part.headAlone
      rw [withQueue_withQueue]
      rfl
    unfold Part.linedUp
    rw [h]

/-- The head check of a queue of waiting requests lines them up (R3). -/
theorem checkHeads_linedUp (port : Fin 6) : ∀ (y : List Admitted) (p : Part), (∀ a, a ∈ y → a.waits) →
    (p.path.ports.nth port).queue = y → p.checkHeads port y.length = p.linedUp port y
  | [], p, _, hq => by
    have := withQueue_self p port
    rw [hq] at this
    exact this.symm
  | a :: rest, p, hw, hq => by
    have ha := hw a (List.mem_cons_self ..)
    rw [List.length_cons, checkHeads_waiting p port rest.length a rest hq ha.1]
    unfold Part.linedUp
    rw [headAlone_eq p port a ha]
    unfold Part.headJudged
    have hk := judge_keeps p port a.tag a.req
    generalize p.judge port a.tag a.req = v at hk
    obtain ⟨v, p1⟩ := v
    simp only at hk
    cases v with
    | refuse why =>
      have hqueue : (((p1.withQueue port []).refuseRequest port a.tag a.req why).path.ports.nth port).queue = [] := by
        rw [refuseRequest_door]
        simp [Part.door, Part.withPath, Table.upd]
      simp only [hqueue]
      have hreal : ((p1.refuseRequest port a.tag a.req why).updPort port Port.popHead) =
          ((p1.withQueue port []).refuseRequest port a.tag a.req why).withQueue port rest := by
        rw [hk]
        simp only [withQueue_door, refuseRequest_door, emit_door, raise_door]
        simp [Part.updPort, Part.withPath, Part.setPath, Part.door, Table.upd, Port.popHead, hq]
      rw [hreal, checkHeads_linedUp port rest _ (fun b hb => hw b (List.mem_cons_of_mem _ hb)) (withQueue_queue _ port rest),
        linedUp_withQueue]
    | pass via line tracked =>
      simp only [withQueue_queue]
      rw [hk]
      simp [Part.updPort, Part.withQueue, Part.withPath, Part.setPath, Part.door, Table.upd, Path.putPort, Port.updHead, hq, Admitted.passed]
    | hold w =>
      simp only [withQueue_queue]
      rw [hk]
      simp [Part.updPort, Part.withQueue, Part.withPath, Part.setPath, Part.door, Table.upd, Path.putPort, Port.updHead, hq]

/-- The check of a queue whose head waits, with requests waiting behind it (R3). -/
theorem checkHead_linedUp (port : Fin 6) (hw : ∀ a, a ∈ (p.path.ports.nth port).queue → a.waits) :
    p.checkHead port = p.linedUp port (p.path.ports.nth port).queue :=
  checkHeads_linedUp port _ p hw rfl

end Sys2Proof.Machine
end

