-- ==== Sys2Proof/Laws/Choices.lean ====
section
/-! SUPPORT. The small laws of the lists the engines choose from: the mirror's pending set, the preferred contender, class and
lane, and the writes of a span. -/

namespace Sys2Proof.Machine

/-- A position that joins the pending set is in it, with those it held. -/
theorem mem_insertPos {n : Nat} (pos : Fin n) (l : List (Fin n)) (x : Fin n) : x ∈ insertPos pos l ↔ x = pos ∨ x ∈ l := by
  induction l with
  | nil => simp [insertPos]
  | cons y rest ih =>
    unfold insertPos
    split
    · simp
    · split
      · next h => subst h; simp
      · simp only [List.mem_cons, ih]
        constructor <;> rintro (h | h | h) <;> simp [h]

/-- The pending set stays ascending, without repeats. -/
theorem insertPos_ascending {n : Nat} (pos : Fin n) (l : List (Fin n)) (h : l.Pairwise (· < ·)) : (insertPos pos l).Pairwise (· < ·) := by
  induction l with
  | nil => simp [insertPos]
  | cons y rest ih =>
    have h' := List.pairwise_cons.mp h
    unfold insertPos
    split
    · next hl => exact List.pairwise_cons.mpr ⟨fun z hz => by
        rcases List.mem_cons.mp hz with e | e
        · exact e ▸ hl
        · exact Fin.lt_trans hl (h'.1 z e), h⟩
    · split
      · exact h
      · next h1 h2 =>
        refine List.pairwise_cons.mpr ⟨fun z hz => ?_, ih h'.2⟩
        rcases (mem_insertPos pos rest z).mp hz with e | e
        · subst e; omega
        · exact h'.1 z e

/-- Something is preferred of a list that is not empty. -/
theorem preferred_isSome {α : Type} (better : α → α → Bool) {l : List α} (h : l ≠ []) : ∃ x, preferred better l = some x := by
  cases l with
  | nil => exact absurd rfl h
  | cons x rest =>
    unfold preferred
    split
    · exact ⟨_, rfl⟩
    · split <;> exact ⟨_, rfl⟩

/-- A lane is chosen whenever one is eligible (R140). -/
theorem Part.laneFor_some (p : Part) (n : Nat) (m : Fin 4) (h : p.eligible m n = true) : ∃ l, p.laneFor n = some l :=
  preferred_isSome _ (List.ne_nil_of_mem (List.mem_filter.mpr ⟨List.mem_finRange m, h⟩))

/-- A class is chosen whenever a class queue holds an item (R139). -/
theorem Sender.chooseClass_some (x : Sender) (c : Fin 4) (h : x.queueOf (SendClass.ofIndex c) ≠ []) : ∃ d, x.chooseClass = some d := by
  unfold Sender.chooseClass
  dsimp only
  split
  · refine preferred_isSome _ (List.ne_nil_of_mem (a := c) (List.mem_filter.mpr ⟨List.mem_finRange c, ?_⟩))
    cases hq : x.queueOf (SendClass.ofIndex c) with
    | nil => exact absurd hq h
    | cons => rfl
  · next hh => exact preferred_isSome _ (by simpa using hh)


/-- The next request of a list of spans to write: up to four lines, enabling exactly the bytes of its span (R64, R70). -/
theorem nextWrite_cons (a : Nat) (bs : List Byte) (rest : List (Nat × List Byte)) :
    let o := a % 64
    let n := min bs.length (256 - o)
    let lines := (o + n + 63) / 64
    lines ≤ 4 ∧ nextWrite ((a, bs) :: rest) = some (⟨.write, a / 64, lines, (List.range (64 * lines)).map fun x =>
        if o ≤ x ∧ x < o + n then (bs.getD (x - o) 0, true) else (0, false)⟩,
      if bs.length ≤ 256 - o then rest else (a + n, bs.drop n) :: rest) := by
  dsimp only
  refine ⟨by omega, ?_⟩
  obtain ⟨n, hn⟩ : ∃ n, n = chunk a bs.length := ⟨_, rfl⟩
  have hm : min bs.length (256 - a % 64) = n := hn.symm
  have hn' := hm
  simp only [hm]
  unfold nextWrite
  simp only [← hn]
  unfold writeRequest unitsOf
  simp only [Config.lineBytes]
  have hl : (bs.take n).length = n := by rw [List.length_take]; omega
  simp only [hl]
  congr 2
  · congr 1
    have e : (a % 64 + n + 64 - 1) = (a % 64 + n + 63) := by omega
    rw [e]
    apply List.ext_getElem
    · simp; omega
    · intro i h1 h2
      simp only [List.getElem_map, List.getElem_range]
      by_cases c1 : i < a % 64
      · rw [List.getElem_append_left (by simp; omega), List.getElem_append_left (by simp; omega), if_neg (by omega)]
        simp
      · by_cases c2 : i < a % 64 + n
        · rw [List.getElem_append_left (by simp; omega), List.getElem_append_right (by simp; omega), if_pos (by omega)]
          simp [List.getD, List.getElem?_eq_getElem (show i - a % 64 < bs.length by omega)]
        · rw [List.getElem_append_right (by simp; omega), if_neg (by omega)]
          simp
  · by_cases c : bs.length ≤ 256 - a % 64
    · rw [if_pos c, if_pos (by omega)]
    · rw [if_neg c, if_neg (by omega)]

end Sys2Proof.Machine
end

