-- ==== Sys2Proof/Laws/Returns.lean ====
section
/-! SUPPORT. What the return of frames from a lane makes of the resend store (R143), said once for LANE OFF and for a lane
that fails. -/

namespace Sys2Proof.Machine

theorem Part.editClip_sender (pos : Fin 128) (f : Clip → Clip) (p : Part) : (p.editClip pos f).sender = p.sender := rfl
theorem Part.testSendEnd_sender (pos : Fin 128) (p : Part) : (p.testSendEnd pos).sender = p.sender := by
  unfold Part.testSendEnd Part.clipEvent
  repeat' split
  all_goals first | rfl | (rw [Part.raise_sender]; rfl)
theorem Part.reportSend_sender (pos : Fin 128) (n : Nat) (r : SendReport) (p : Part) : (p.reportSend pos n r).sender = p.sender := by
  unfold Part.reportSend
  repeat' split
  all_goals first | rfl | rw [Part.testSendEnd_sender]; rfl
theorem Part.reportItem_sender (i : Item) (r : SendReport) (p : Part) : (p.reportItem i r).sender = p.sender := by
  unfold Part.reportItem
  repeat' split
  all_goals first | rfl | rw [Part.reportSend_sender]
theorem Part.releaseItem_sender (k : ItemKind) (p : Part) : (p.releaseItem k).sender = p.sender := by
  unfold Part.releaseItem; split <;> rfl
theorem Part.cursorItemEnded_store (k : ItemKind) (p : Part) : (p.cursorItemEnded k).sender.store = p.sender.store := by
  unfold Part.cursorItemEnded; split <;> rfl
theorem Part.endItem_store (i : Item) (p : Part) : (p.endItem i).sender.store = p.sender.store := by
  unfold Part.endItem
  show (Part.cursorItemEnded _ _).sender.store = _
  rw [Part.cursorItemEnded_store, Part.reportItem_sender]
  show (Part.releaseItem _ _).sender.store = _
  rw [Part.releaseItem_sender]
theorem Part.testItemEnd_store (id : Nat) (p : Part) : (p.testItemEnd id).sender.store = p.sender.store := by
  unfold Part.testItemEnd
  repeat' split
  all_goals first | rfl | rw [Part.endItem_store]
/-- Counting a fragment, and the end of its item, leave the store as it was. -/
theorem Part.fragmentSettled_store (id : Nat) (m : Settlement) (p : Part) : (p.fragmentSettled id m).sender.store = p.sender.store := by
  unfold Part.fragmentSettled
  rw [Part.testItemEnd_store]; rfl

/-- The store once a frame has been returned. -/
def returnedStore (x : List Descriptor) (seq : Word) : List Descriptor :=
  match x.find? fun d => d.seq == seq with
  | none => x
  | some d => if d.mark.isSome ∨ d.noResend = true then x.filter fun d => d.seq != seq
    else x.map fun d => if d.seq = seq then { d with state := .waiting, lane := none } else d

/-- What the return of one frame makes of it. -/
theorem Part.returnFrame_store (seq : Word) (p : Part) : (p.returnFrame seq).sender.store = returnedStore p.sender.store seq := by
  unfold Part.returnFrame returnedStore
  cases p.sender.store.find? fun d => d.seq == seq with
  | none => rfl
  | some d =>
    dsimp only
    cases d.mark <;> cases d.noResend <;> simp [Part.fragmentSettled_store, Part.removeDesc, Part.updDesc, Part.setSender]

/-- Sequence numbers stay distinct. -/
theorem returnedStore_distinct (x : List Descriptor) (seq : Word) (h : (x.map (·.seq)).Nodup) : ((returnedStore x seq).map (·.seq)).Nodup := by
  unfold returnedStore
  split
  · exact h
  · split
    · exact h.sublist (List.Sublist.map _ List.filter_sublist)
    · rw [List.map_map]
      have : ((fun d : Descriptor => d.seq) ∘ fun d => if d.seq = seq then { d with state := .waiting, lane := none } else d) = (·.seq) := by
        funext d; simp only [Function.comp]; split <;> rfl
      rw [this]; exact h
/-- The descriptor of a sequence number is the one found by it. -/
theorem find_descriptor {x : List Descriptor} (h : (x.map (·.seq)).Nodup) {d : Descriptor} (hd : d ∈ x) : (x.find? fun e => e.seq == d.seq) = some d := by
  induction x with
  | nil => cases hd
  | cons a rest ih =>
    have h' := List.nodup_cons.mp h
    rcases List.mem_cons.mp hd with e | e
    · subst e; simp
    · rw [List.find?_cons_of_neg, ih h'.2 e]
      intro hh
      exact h'.1 (by show a.seq ∈ _; rw [eq_of_beq hh]; exact List.mem_map_of_mem e)
/-- Another frame's descriptor stands. -/
theorem mem_returnedStore_other {x : List Descriptor} {seq : Word} {d : Descriptor} (hd : d ∈ x) (hs : d.seq ≠ seq) : d ∈ returnedStore x seq := by
  unfold returnedStore
  split
  · exact hd
  · split
    · exact List.mem_filter.mpr ⟨hd, by simpa using hs⟩
    · exact List.mem_map.mpr ⟨d, hd, by simp [hs]⟩
/-- An unsettled descriptor that may be resent waits. -/
theorem returnedStore_waits {x : List Descriptor} (h : (x.map (·.seq)).Nodup) {d : Descriptor} (hd : d ∈ x) (hm : d.mark = none) (hn : d.noResend = false) :
    { d with state := .waiting, lane := none } ∈ returnedStore x d.seq := by
  unfold returnedStore
  rw [find_descriptor h hd]
  simp only [hm, hn]
  exact List.mem_map.mpr ⟨d, hd, by simp [hm, hn]⟩
/-- A settled descriptor, or one never to be resent, goes. -/
theorem returnedStore_goes {x : List Descriptor} (h : (x.map (·.seq)).Nodup) {d : Descriptor} (hd : d ∈ x) (hm : d.mark ≠ none ∨ d.noResend = true) :
    ∀ e, e ∈ returnedStore x d.seq → e.seq ≠ d.seq := by
  unfold returnedStore
  rw [find_descriptor h hd]
  have : d.mark.isSome = true ∨ d.noResend = true := by
    rcases hm with h | h
    · left; cases hh : d.mark <;> simp_all
    · exact .inr h
  simp only [if_pos this]
  intro e he
  simpa using (List.mem_filter.mp he).2
/-- A descriptor that is gone stays gone. -/
theorem returnedStore_gone {x : List Descriptor} {seq s2 : Word} (h : ∀ e, e ∈ x → e.seq ≠ s2) : ∀ e, e ∈ returnedStore x seq → e.seq ≠ s2 := by
  intro e he
  unfold returnedStore at he
  split at he
  · exact h e he
  · split at he
    · exact h e (List.mem_filter.mp he).1
    · obtain ⟨d, hd, rfl⟩ := List.mem_map.mp he
      have := h d hd
      split <;> simpa using this

/-- Whatever descriptor still has the number of a returned frame waits for another lane. -/
theorem returnedStore_self (x : List Descriptor) (seq : Word) :
    ∀ d, d ∈ returnedStore x seq → d.seq = seq → d.state = .waiting ∧ d.lane = none := by
  intro d hd hs
  unfold returnedStore at hd
  split at hd
  · next h => exact absurd hs (by simpa using List.find?_eq_none.mp h d hd)
  · split at hd
    · exact absurd hs (by simpa using (List.mem_filter.mp hd).2)
    · obtain ⟨e, _, rfl⟩ := List.mem_map.mp hd
      by_cases c : e.seq = seq
      · simp [c]
      · simp [c] at hs

/-- A descriptor that waits goes on waiting. -/
theorem returnedStore_still {x : List Descriptor} {s2 : Word} (seq : Word)
    (h : ∀ d, d ∈ x → d.seq = s2 → d.state = .waiting ∧ d.lane = none) :
    ∀ d, d ∈ returnedStore x seq → d.seq = s2 → d.state = .waiting ∧ d.lane = none := by
  intro d hd hs
  by_cases c : d.seq = seq
  · exact returnedStore_self x seq d hd c
  · unfold returnedStore at hd
    split at hd
    · exact h d hd hs
    · split at hd
      · exact h d (List.mem_filter.mp hd).1 hs
      · obtain ⟨e, he, rfl⟩ := List.mem_map.mp hd
        by_cases c2 : e.seq = seq
        · simp [c2] at c
        · simp only [c2, if_false] at hs ⊢
          exact h e he hs

/-- The same over several frames. -/
theorem Part.returnFrames_still {s2 : Word} (fs : List TxFrame) (p : Part)
    (h : ∀ d, d ∈ p.sender.store → d.seq = s2 → d.state = .waiting ∧ d.lane = none) :
    ∀ d, d ∈ (p.returnFrames fs).sender.store → d.seq = s2 → d.state = .waiting ∧ d.lane = none := by
  induction fs generalizing p with
  | nil => exact h
  | cons f rest ih =>
    apply ih
    cases hk : f.kind with
    | echo _ => simp only [hk]; exact h
    | link seq => simp only [hk]; rw [Part.returnFrame_store]; exact returnedStore_still seq h

theorem Part.returnFrames_wait (fs : List TxFrame) (p : Part) (d : Descriptor) (f : TxFrame) (hd : d ∈ (p.returnFrames fs).sender.store)
    (hf : f ∈ fs) (hk : f.kind = .link d.seq) : d.state = .waiting ∧ d.lane = none := by
  induction fs generalizing p with
  | nil => cases hf
  | cons g rest ih =>
    rcases List.mem_cons.mp hf with rfl | hf
    · refine Part.returnFrames_still rest (p.returnFrame d.seq) ?_ d ?_ rfl
      · rw [Part.returnFrame_store]; exact returnedStore_self _ _
      · have e : p.returnFrames (f :: rest) = (p.returnFrame d.seq).returnFrames rest := by
          show Part.returnFrames rest (match f.kind with | .link seq => p.returnFrame seq | .echo _ => p) = _
          rw [hk]
        rw [← e]; exact hd
    · exact ih _ hd hf

/-- What the return of a lane's frames makes of the resend store where sequence numbers are distinct. -/
theorem Part.returnFrames_distinct (fs : List TxFrame) (p : Part) : (p.sender.store.map (·.seq)).Nodup → ∀ d, d ∈ p.sender.store →
    ((∃ f, f ∈ fs ∧ f.kind = .link d.seq) →
      (d.mark = none → d.noResend = false → { d with state := .waiting, lane := none } ∈ (p.returnFrames fs).sender.store) ∧
      ((d.mark ≠ none ∨ d.noResend = true) → ∀ e, e ∈ (p.returnFrames fs).sender.store → e.seq ≠ d.seq)) ∧
    ((∀ f, f ∈ fs → f.kind ≠ .link d.seq) → d ∈ (p.returnFrames fs).sender.store) := by
  induction fs generalizing p with
  | nil =>
    intro h d hd
    exact ⟨fun h => (by obtain ⟨f, hf, _⟩ := h; cases hf), fun _ => hd⟩
  | cons f rest ih =>
    intro h d hd
    have hstep : (p.returnFrames (f :: rest)) = Part.returnFrames rest (match f.kind with | .link seq => p.returnFrame seq | .echo _ => p) := rfl
    rw [hstep]
    cases hk : f.kind with
    | echo tok =>
      have := ih p h d hd
      refine ⟨fun ⟨g, hg, e⟩ => this.1 ⟨g, ?_, e⟩, fun hall => this.2 fun g hg => hall g (List.mem_cons_of_mem _ hg)⟩
      rcases List.mem_cons.mp hg with e' | e'
      · subst e'; rw [hk] at e; cases e
      · exact e'
    | link seq =>
      dsimp only
      have ih' := ih (p.returnFrame seq)
      rw [Part.returnFrame_store] at ih'
      have ih' := ih' (returnedStore_distinct _ _ h)
      constructor
      · rintro ⟨g, hg, e⟩
        constructor
        · intro hm hn
          by_cases c : seq = d.seq
          · subst c
            have w := returnedStore_waits h hd hm hn
            have := ih' _ w
            by_cases c2 : ∃ f, f ∈ rest ∧ f.kind = .link d.seq
            · exact (this.1 c2).1 hm hn
            · exact this.2 fun f hf e => c2 ⟨f, hf, e⟩
          · have w := mem_returnedStore_other hd (seq := seq) (fun e => c e.symm)
            refine ((ih' d w).1 ⟨g, ?_, e⟩).1 hm hn
            rcases List.mem_cons.mp hg with e' | e'
            · subst e'; rw [hk] at e; cases e; exact absurd rfl c
            · exact e'
        · intro hm
          by_cases c : seq = d.seq
          · subst c
            have w := returnedStore_goes h hd hm
            -- gone stays gone
            have : ∀ (fs : List TxFrame) (q : Part), (∀ e, e ∈ q.sender.store → e.seq ≠ d.seq) → ∀ e, e ∈ (q.returnFrames fs).sender.store → e.seq ≠ d.seq := by
              intro fs
              induction fs with
              | nil => intro q hq; exact hq
              | cons f fs ih2 =>
                intro q hq
                apply ih2
                cases hf : f.kind with
                | echo _ => simp only [hf]; exact hq
                | link s2 => simp only [hf]; rw [Part.returnFrame_store]; exact returnedStore_gone hq
            exact this rest _ (by rw [Part.returnFrame_store]; exact w)
          · have w := mem_returnedStore_other hd (seq := seq) (fun e => c e.symm)
            refine ((ih' d w).1 ⟨g, ?_, e⟩).2 hm
            rcases List.mem_cons.mp hg with e' | e'
            · subst e'; rw [hk] at e; cases e; exact absurd rfl c
            · exact e'
      · intro hall
        have c : d.seq ≠ seq := fun e => hall f (List.mem_cons_self) (by rw [hk, e])
        exact (ih' d (mem_returnedStore_other hd c)).2 fun g hg => hall g (List.mem_cons_of_mem _ hg)
/-- What the return of a lane's frames makes of the resend store (R143). -/
theorem Part.returns_returnFrames (fs : List TxFrame) (p : Part) : p.sender.returns fs (p.returnFrames fs).sender :=
  ⟨fun d f hd hf hk => Part.returnFrames_wait fs p d f hd hf hk, Part.returnFrames_distinct fs p⟩

end Sys2Proof.Machine
end

