-- ==== Sys2Proof/Laws/Ends.lean ====
section
/-! SUPPORT. What the end of an item (R134), the drop of its undispatched fragments and the settlement of a descriptor (R142,
R145, R148), and the return of a lane's frames (R143), make of a part, each said once as the whole next part in the words of Safety.lean. -/

namespace Sys2Proof.Machine

/-- A position that has just joined the mirror's pending set joins it no second time. -/
theorem insertPos_twice {n : Nat} (x : Fin n) (l : List (Fin n)) : insertPos x (insertPos x l) = insertPos x l := by
  induction l with
  | nil => simp [insertPos]
  | cons y rest ih =>
    by_cases h : x < y
    · simp [insertPos, h]
    · by_cases e : x = y
      · subst e; simp [insertPos]
      · simp [insertPos, h, e, ih]

/-- An edit of a clip that is there. -/
theorem Part.editClip_eq {pos : Fin 128} {p : Part} {c : Clip} (h : p.clips.table.nth pos = some c) (f : Clip → Clip) :
    p.editClip pos f = p.setClips { p.clips with
      table := p.clips.table.put pos (some (f c)), mirror := insertPos pos p.clips.mirror } := by
  unfold Part.editClip Part.updClip Part.touch Table.upd
  rw [h]
  rfl

/-- The test for the end of a send that is under way, whole (R127). -/
theorem Part.testSendEnd_eq {pos : Fin 128} {p : Part} {c : Clip} (h : p.clips.table.nth pos = some c) (hs : c.send = .sending) :
    p.testSendEnd pos =
      if c.cursors = 0 ∧ c.outstanding = 0 then
        if c.failed = 0 ∧ c.skipped = 0 then p.setClips { p.clips with
          table := p.clips.table.put pos (some { c with send := .sent }), mirror := insertPos pos p.clips.mirror }
        else (p.setClips { p.clips with
          table := p.clips.table.put pos (some { c with send := .partly }), mirror := insertPos pos p.clips.mirror
          partialSends := count p.clips.partialSends, events := count p.clips.events }).raise .clip pos.val
      else p := by
  unfold Part.testSendEnd
  rw [h]
  simp only [hs, true_and]
  split
  · split
    · rw [Part.editClip_eq h]
    · rw [Part.editClip_eq h]; rfl
  · rfl

/-- An item's finish or failure, reported to the clip controller (R127). -/
theorem Part.reportSend_end (pos : Fin 128) (clip : Nat) (failed : Bool) (p : Part) :
    p.reportSend pos clip (if failed then .failed else .finished) = p.tellsEnd pos clip failed := by
  unfold Part.reportSend Part.tellsEnd Clips.toldEnd
  cases h : p.clips.table.nth pos with
  | none => rfl
  | some c =>
    dsimp only
    split
    · next hs =>
      have he : SendReport.apply (if failed then .failed else .finished) c =
          { c with outstanding := c.outstanding - 1, failed := if failed then count c.failed else c.failed } := by
        cases failed <;> rfl
      rw [Part.editClip_eq h, he]
      generalize hc : ({ c with outstanding := c.outstanding - 1, failed := if failed then count c.failed else c.failed } : Clip) = d
      have hd : d.send = .sending := by rw [← hc]; exact hs.2
      rw [Part.testSendEnd_eq (c := d) (Table.nth_put_same _ _ _) hd]
      unfold Clip.sendTested
      split
      · split <;> simp [Part.setClips, insertPos_twice]
      · simp [hd, Part.setClips]
    · rfl

/-- The clip controller is told the same whatever the rings and the send engine hold. -/
theorem Part.tellsEnd_elsewhere (pos : Fin 128) (clip : Nat) (failed : Bool) (p : Part) (x : Table Ring 8) (y : Sender) :
    Part.tellsEnd pos clip failed { p with rings := x, sender := y } = { (p.tellsEnd pos clip failed) with rings := x, sender := y } := by
  unfold Part.tellsEnd
  dsimp only
  split
  · simp only [raise_eq]; rfl
  · rfl

/-- The clip controller's news leaves the rings and the send engine. -/
theorem Part.tellsEnd_rings (pos : Fin 128) (clip : Nat) (failed : Bool) (p : Part) : (p.tellsEnd pos clip failed).rings = p.rings := by
  unfold Part.tellsEnd
  dsimp only
  split
  · rw [raise_eq]; rfl
  · rfl

/-- The clip controller is told the same whatever the send engine holds. -/
theorem Part.tellsEnd_sender (pos : Fin 128) (clip : Nat) (failed : Bool) (p : Part) (y : Sender) :
    Part.tellsEnd pos clip failed { p with sender := y } = { (p.tellsEnd pos clip failed) with sender := y } := by
  have h := Part.tellsEnd_elsewhere pos clip failed p p.rings y
  have e : Part.tellsEnd pos clip failed p = { (p.tellsEnd pos clip failed) with rings := p.rings } := by
    conv => rhs; rw [← Part.tellsEnd_rings pos clip failed p]
  rw [e]
  exact h

/-- What an item's end makes of the replay rings (R92, R134). -/
theorem Part.releaseItem_eq (kind : ItemKind) (p : Part) : p.releaseItem kind = { p with
    rings := match kind.picture with | some (k, n) => p.rings.upd k fun r => r.sending n (· - 1) | none => p.rings } := by
  unfold Part.releaseItem
  cases kind.picture <;> rfl

/-- What an item's end makes of the cursors (R134). -/
theorem Part.cursorItemEnded_eq (kind : ItemKind) (p : Part) : p.cursorItemEnded kind = { p with sender := { p.sender with
    cursors := match kind with
      | .clipPicture pos clip cursor cam _ => p.sender.cursors.upd cursor fun c => c.map fun c =>
          if c.pos = pos ∧ c.clip = clip ∧ c.cam = cam then { c with outstanding := c.outstanding - 1 } else c
      | _ => p.sender.cursors } } := by
  unfold Part.cursorItemEnded
  cases kind with
  | clipPicture pos clip cursor cam n =>
    dsimp only [Part.setSender, Table.upd]
    cases p.sender.cursors.nth cursor with
    | none => rfl
    | some c => by_cases h : c.pos = pos ∧ c.clip = clip ∧ c.cam = cam <;> simp [h]
  | _ => rfl

/-- What an item's end reports (R127, R134). -/
theorem Part.reportItem_eq (it : Item) (failed : Bool) (p : Part) :
    p.reportItem it (if failed then .failed else .finished) =
      match it.kind.link with
      | some (pos, clip) => if it.linked then p.tellsEnd pos clip failed else p
      | none => p := by
  unfold Part.reportItem
  cases it.kind.link with
  | none => rfl
  | some x => cases it.linked with
    | false => rfl
    | true => exact Part.reportSend_end x.1 x.2 failed p

/-- The end of an item, whole (R134). -/
theorem Part.endItem_eq (it : Item) (p : Part) : p.endItem it = p.itemEnds it it.failed := by
  unfold Part.endItem
  rw [Part.releaseItem_eq]
  simp only [Part.reportItem_eq, Part.cursorItemEnded_eq]
  unfold Part.itemEnds Part.onClass Part.updClass Part.setSender
  cases h : it.kind.link with
  | none => rfl
  | some x =>
    cases hl : it.linked with
    | false => rfl
    | true =>
      simp only [if_true, Part.tellsEnd_elsewhere]
      all_goals rfl

/-- The items left once those of a name are removed are the same whatever a change has made of those. -/
theorem items_filter_map (items : List Item) (id : Nat) (f : Item → Item) (hf : ∀ x, (f x).id = x.id) :
    (items.map fun x => if x.id = id then f x else x).filter (fun x => x.id != id) = items.filter fun x => x.id != id := by
  induction items with
  | nil => rfl
  | cons x rest ih =>
    by_cases h : x.id = id
    · simp only [List.map_cons, h, if_true]
      rw [List.filter_cons_of_neg (by simp [hf, h]), List.filter_cons_of_neg (by simp [h])]
      exact ih
    · simp only [List.map_cons, h, if_false]
      rw [List.filter_cons_of_pos (by simp [h]), List.filter_cons_of_pos (by simp [h]), ih]

/-- The end of an item is the same whatever a change has made of the items of its name. -/
theorem Part.itemEnds_updItem (it : Item) (f : Item → Item) (hf : ∀ x, (f x).id = x.id) (hk : (f it).kind = it.kind)
    (hl : (f it).linked = it.linked) (failed : Bool) (p : Part) :
    (p.updItem it.id f).itemEnds (f it) failed = p.itemEnds it failed := by
  unfold Part.itemEnds
  simp only [hf, hk, hl]
  unfold Part.updItem Part.setSender
  simp only [items_filter_map _ _ _ hf]
  cases it.kind.link with
  | none => rfl
  | some x =>
    cases it.linked with
    | false => rfl
    | true => simp only [if_true, Part.tellsEnd_sender]

/-- The item of a name, once the items of that name are changed. -/
theorem item_map (items : List Item) (id : Nat) (f : Item → Item) (hf : ∀ x, (f x).id = x.id) :
    (items.map fun x => if x.id = id then f x else x).find? (fun i => i.id == id) = (items.find? fun i => i.id == id).map f := by
  induction items with
  | nil => rfl
  | cons x rest ih =>
    by_cases h : x.id = id
    · simp [h, hf]
    · simp only [List.map_cons, h, if_false]
      rw [List.find?_cons_of_neg (by simp [h]), List.find?_cons_of_neg (by simp [h]), ih]

/-- A change of the items of a name that none has changes nothing. -/
theorem Part.updItem_absent {id : Nat} {p : Part} (h : p.sender.item id = none) (f : Item → Item) : p.updItem id f = p := by
  unfold Part.updItem Part.setSender
  have : (p.sender.items.map fun i => if i.id = id then f i else i) = p.sender.items := by
    conv => rhs; rw [← List.map_id p.sender.items]
    refine List.map_congr_left fun x hx => if_neg ?_
    simpa using List.find?_eq_none.mp h x hx
  rw [this]

/-- A change of an item, followed by the test for its end (R134). -/
theorem Part.testItemEnd_updItem {id : Nat} {p : Part} {it : Item} (h : p.sender.item id = some it) (f : Item → Item)
    (hf : ∀ x, (f x).id = x.id) (hk : (f it).kind = it.kind) (hl : (f it).linked = it.linked) :
    (p.updItem id f).testItemEnd id =
      if (f it).queued = false ∧ (f it).settled = (f it).dispatched then p.itemEnds it (f it).failed else p.updItem id f := by
  have hid : it.id = id := by simpa using List.find?_some h
  have hi : (p.updItem id f).sender.item id = some (f it) := by
    show (p.sender.items.map _).find? _ = _
    rw [item_map _ _ _ hf]
    show (p.sender.item id).map f = _
    rw [h]; rfl
  unfold Part.testItemEnd
  rw [hi]
  simp only [Bool.not_eq_true']
  split
  · rw [Part.endItem_eq]; subst hid; exact Part.itemEnds_updItem it f hf hk hl _ p
  · rfl

/-- The drop of an item's undispatched fragments, whole (R134). -/
theorem Part.dropFromQueue_eq {id : Nat} {p : Part} {it : Item} (h : p.sender.item id = some it) :
    p.dropFromQueue id = p.itemDropped it := by
  have hid : it.id = id := by simpa using List.find?_some h
  unfold Part.dropFromQueue Part.itemDropped
  rw [Part.testItemEnd_updItem h (fun i => { i with queued := false, failed := true }) (fun _ => rfl) rfl rfl]
  simp only [true_and]
  subst hid
  rfl

/-- The settlement of a fragment, whole (R134). -/
theorem Part.fragmentSettled_eq (id : Nat) (m : Settlement) (p : Part) : p.fragmentSettled id m = p.fragmentEnds id m := by
  unfold Part.fragmentSettled Part.fragmentEnds
  cases h : p.sender.item id with
  | none => rw [Part.updItem_absent h]; unfold Part.testItemEnd; rw [h]
  | some it =>
    rw [Part.testItemEnd_updItem h (fun i => { i with settled := i.settled + 1, failed := i.failed || m != .receipted })
      (fun _ => rfl) rfl rfl]
    rfl

/-- The settlement of a descriptor, whole (R142, R145, R148). -/
theorem Part.settleDesc_eq (d : Descriptor) (m : Settlement) (p : Part) : p.settleDesc d m = p.settles d m := by
  unfold Part.settleDesc Part.settles
  rw [Part.fragmentSettled_eq]
  cases d.state <;> rfl

/-- A number of a RECEIPT's range, whole (R145). -/
theorem Part.receiptOf_eq (p : Part) (seq : Word) : p.receiptOf seq = p.receipted seq := by
  unfold Part.receiptOf Part.receipted
  cases p.sender.unsettled seq with
  | none => rfl
  | some d => dsimp only; rw [Part.settleDesc_eq]; rfl

/-- The return of one frame, whole (R143). -/
theorem Part.returnFrame_eq (seq : Word) (p : Part) : p.returnFrame seq = p.frameReturned seq := by
  unfold Part.returnFrame Part.frameReturned
  cases p.sender.store.find? fun d => d.seq == seq with
  | none => rfl
  | some d =>
    dsimp only
    cases d.mark <;> simp [Part.fragmentSettled_eq, Part.removeDesc, Part.updDesc, Part.setSender]

/-- The return of a lane's frames, whole (R143, R160). -/
theorem Part.returnFrames_eq (frames : List TxFrame) (p : Part) : p.returnFrames frames = p.framesReturned frames := by
  unfold Part.returnFrames Part.framesReturned
  induction frames generalizing p with
  | nil => rfl
  | cons f rest ih =>
    rw [List.foldl_cons, ih, List.filterMap_cons]
    cases f.kind with
    | echo _ => rfl
    | link seq => simp only [List.foldl_cons, Part.returnFrame_eq]

end Sys2Proof.Machine
end

