-- ==== Sys2Proof/Laws/Frames.lean ====
section
/-! SUPPORT. The commands that set nothing: each leaves the loader, the clock, the windows, the intervals, the rings and every
setting as they were. One lemma for each command. -/

namespace Sys2Proof.Machine

/-- The part of an outcome's next state has these settings. -/
def NextKeeps (c : Instr) (s : State) : Prop :=
  match exec c s with
  | .next t => t.part.settings = s.part.settings
  | _ => True

theorem NextKeeps.next {c : Instr} {s t : State} (h : NextKeeps c s) (he : exec c s = .next t) : t.part.settings = s.part.settings := by
  unfold NextKeeps at h
  rw [he] at h
  exact h

@[simp] theorem Lane.messageEnd_cfg (r : Lane) (bs : List Byte) : (r.messageEnd bs).cfg = r.cfg := by
  unfold Lane.messageEnd Lane.enterFifo Lane.countFraming
  (repeat' split) <;> rfl

@[simp] theorem Lane.beginMessage_cfg (r : Lane) (x : Bool) : (r.beginMessage x).cfg = r.cfg := by
  unfold Lane.beginMessage Lane.countFraming
  (repeat' split) <;> rfl

@[simp] theorem Lane.breakOver_cfg (r : Lane) (now : Nat) : (r.breakOver now).cfg = r.cfg := by
  unfold Lane.breakOver
  split <;> rfl

@[simp] theorem CueLine.rawChange_cfg (c : CueLine) (now : Nat) (x : Bool) : (c.rawChange now x).cfg = c.cfg := by
  unfold CueLine.rawChange
  (repeat' split) <;> rfl

theorem keeps_clientRequest (dt : Nat) (port : Fin 6) (tag : BitVec 6) (kind : ReqKind) (line count : Nat) (data : List (Byte × Bool)) (s : State) : NextKeeps (.clientRequest dt port tag kind line count data) s := by
  simp [NextKeeps, exec, execClientRequest]
  split <;> simp

theorem keeps_grant (s : State) : NextKeeps (.grant) s := by
  simp [NextKeeps, exec, execGrant]

theorem keeps_refreshDue (s : State) : NextKeeps (.refreshDue) s := by
  simp [NextKeeps, exec, execRefreshDue]

theorem keeps_refreshComplete (dt : Nat) (s : State) : NextKeeps (.refreshComplete dt) s := by
  simp [NextKeeps, exec, execRefreshComplete]

theorem keeps_quiesce (tag : Word) (s : State) : NextKeeps (.quiesce tag) s :=
  settings_run (fun i p => by (try dsimp only) <;> (repeat' split) <;> simp) _

theorem keeps_quiesceComplete (s : State) : NextKeeps (.quiesceComplete) s := by
  simp [NextKeeps, exec, execQuiesceComplete]
  split <;> simp

theorem keeps_resume (tag : Word) (s : State) : NextKeeps (.resume tag) s :=
  settings_run (fun i p => by (try dsimp only) <;> (repeat' split) <;> simp) _

theorem keeps_cueRawChange (dt : Nat) (line : Fin 8) (high : Bool) (s : State) : NextKeeps (.cueRawChange dt line high) s := by
  simp [NextKeeps, exec, execCueRawChange]

theorem keeps_debounceExpiry (line : Fin 8) (s : State) : NextKeeps (.debounceExpiry line) s := by
  simp [NextKeeps, exec, execDebounceExpiry]

theorem keeps_driveCueLine (tag : Word) (line value : Byte) (s : State) : NextKeeps (.driveCueLine tag line value) s :=
  settings_run (fun i p => by (try dsimp only) <;> (repeat' split) <;> simp) _

theorem keeps_setCamera (tag : Word) (camera frameWin replayWin : Byte) (stride : Word) (lines : Half) (tiles policy : Byte) (holdLimit : Half) (budget : Word) (live : Byte) (s : State) : NextKeeps (.setCamera tag camera frameWin replayWin stride lines tiles policy holdLimit budget live) s :=
  settings_run (fun i p => by (try dsimp only) <;> (repeat' split) <;> simp) _

theorem keeps_startCamera (tag : Word) (camera : Byte) (s : State) : NextKeeps (.startCamera tag camera) s :=
  settings_run (fun i p => by (try dsimp only) <;> (repeat' split) <;> simp) _

theorem keeps_stopCamera (tag : Word) (camera : Byte) (s : State) : NextKeeps (.stopCamera tag camera) s :=
  settings_run (fun i p => by (try dsimp only) <;> (repeat' split) <;> simp) _

theorem keeps_stopCameraComplete (camera : Fin 8) (s : State) : NextKeeps (.stopCameraComplete camera) s := by
  simp [NextKeeps, exec, execStopCameraComplete]
  split <;> simp

theorem keeps_holdLimitExpiry (camera : Fin 8) (s : State) : NextKeeps (.holdLimitExpiry camera) s := by
  simp [NextKeeps, exec, execHoldLimitExpiry]

theorem keeps_jobTake (s : State) : NextKeeps (.jobTake) s := by
  simp [NextKeeps, exec, execJobTake]

theorem keeps_codedEvent (dt : Nat) (tiles : List (List Byte)) (s : State) : NextKeeps (.codedEvent dt tiles) s := by
  simp [NextKeeps, exec, execCodedEvent]

theorem keeps_findPicture (tag : Word) (camera byNumber : Byte) (number : Word) (byTimecode ff ss mm hh : Byte) (s : State) : NextKeeps (.findPicture tag camera byNumber number byTimecode ff ss mm hh) s :=
  settings_run (fun i p => by (try dsimp only) <;> (repeat' split) <;> simp) _

theorem keeps_setGain (tag : Word) (bus source : Byte) (target step : Half) (s : State) : NextKeeps (.setGain tag bus source target step) s :=
  settings_run (fun i p => by (try dsimp only) <;> (repeat' split) <;> simp <;> exact settings_updBus fun _ => rfl) _

theorem keeps_removeSource (tag : Word) (bus source : Byte) (s : State) : NextKeeps (.removeSource tag bus source) s :=
  settings_run (fun i p => by (try dsimp only) <;> (repeat' split) <;> simp <;> exact settings_updBus fun _ => rfl) _

theorem keeps_startMixer (tag : Word) (s : State) : NextKeeps (.startMixer tag) s :=
  settings_run (fun i p => by (try dsimp only) <;> (repeat' split) <;> simp) _

theorem keeps_stopMixer (tag : Word) (s : State) : NextKeeps (.stopMixer tag) s :=
  settings_run (fun i p => by (try dsimp only) <;> (repeat' split) <;> simp) _

theorem keeps_stopMixerComplete (s : State) : NextKeeps (.stopMixerComplete) s := by
  simp [NextKeeps, exec, execStopMixerComplete]
  split <;> simp

theorem keeps_readMeters (tag : Word) (report : Wide) (s : State) : NextKeeps (.readMeters tag report) s :=
  settings_run (fun i p => by (try dsimp only) <;> (repeat' split) <;> simp) _

theorem keeps_markIn (tag : Word) (cameras preroll limitPresent : Byte) (limit : Half) (labels : List Half) (s : State) : NextKeeps (.markIn tag cameras preroll limitPresent limit labels) s :=
  settings_run (fun i p => by
    dsimp only
    (repeat' split)
    · simp
    · next h => simp [settings_of h (settings_markIn _ _)]
    · next h => simp [settings_of h (settings_markIn _ _)]) _

theorem keeps_markOut (tag : Word) (clip : Half) (s : State) : NextKeeps (.markOut tag clip) s :=
  settings_run (fun i p => by (try dsimp only) <;> (repeat' split) <;> simp) _

theorem keeps_unpin (tag : Word) (clip : Half) (s : State) : NextKeeps (.unpin tag clip) s :=
  settings_run (fun i p => by (try dsimp only) <;> (repeat' split) <;> simp) _

theorem keeps_pin (tag : Word) (clip : Half) (s : State) : NextKeeps (.pin tag clip) s :=
  settings_run (fun i p => by (try dsimp only) <;> (repeat' split) <;> simp) _

theorem keeps_deleteClip (tag : Word) (clip : Half) (s : State) : NextKeeps (.deleteClip tag clip) s :=
  settings_run (fun i p => by (try dsimp only) <;> (repeat' split) <;> simp) _

theorem keeps_addLabel (tag : Word) (clip code : Half) (s : State) : NextKeeps (.addLabel tag clip code) s :=
  settings_run (fun i p => by (try dsimp only) <;> (repeat' split) <;> simp) _

theorem keeps_removeLabel (tag : Word) (clip code : Half) (s : State) : NextKeeps (.removeLabel tag clip code) s :=
  settings_run (fun i p => by (try dsimp only) <;> (repeat' split) <;> simp) _

theorem keeps_sendClip (tag : Word) (clip : Half) (s : State) : NextKeeps (.sendClip tag clip) s :=
  settings_run (fun i p => by (try dsimp only) <;> (repeat' split) <;> simp) _

theorem keeps_mirrorWriteStart (s : State) : NextKeeps (.mirrorWriteStart) s := by
  simp [NextKeeps, exec, execMirrorWriteStart]

theorem keeps_itemStale (item : Nat) (s : State) : NextKeeps (.itemStale item) s := by
  simp [NextKeeps, exec, execItemStale]

theorem keeps_cursorStep (s : State) : NextKeeps (.cursorStep) s := by
  simp [NextKeeps, exec, execCursorStep]

theorem keeps_buildStart (s : State) : NextKeeps (.buildStart) s := by
  simp [NextKeeps, exec, execBuildStart]

theorem keeps_descriptorExpiry (seq : Word) (s : State) : NextKeeps (.descriptorExpiry seq) s := by
  simp [NextKeeps, exec, execDescriptorExpiry]

theorem keeps_returnMessageEnd (dt : Nat) (lane : Fin 4) (bytes : List Byte) (s : State) : NextKeeps (.returnMessageEnd dt lane bytes) s := by
  simp [NextKeeps, exec, execReturnMessageEnd]

theorem keeps_receipt (lane : Fin 4) (s : State) : NextKeeps (.receipt lane) s := by
  simp [NextKeeps, exec, execReceipt]

theorem keeps_resend (lane : Fin 4) (s : State) : NextKeeps (.resend lane) s := by
  simp [NextKeeps, exec, execResend]

theorem keeps_laneTest (lane : Fin 4) (s : State) : NextKeeps (.laneTest lane) s := by
  simp [NextKeeps, exec, execLaneTest]

theorem keeps_flushClass (tag : Word) (cls : Byte) (s : State) : NextKeeps (.flushClass tag cls) s :=
  settings_run (fun i p => by (try dsimp only) <;> (repeat' split) <;> simp) _

theorem keeps_laneOn (tag : Word) (lane : Byte) (s : State) : NextKeeps (.laneOn tag lane) s :=
  settings_run (fun i p => by (try dsimp only) <;> (repeat' split) <;> simp <;> exact settings_updLane fun _ => rfl) _

theorem keeps_laneOff (tag : Word) (lane : Byte) (s : State) : NextKeeps (.laneOff tag lane) s :=
  settings_run (fun i p => by (try dsimp only) <;> (repeat' split) <;> simp) _

theorem keeps_breakSentEnd (lane : Fin 4) (s : State) : NextKeeps (.breakSentEnd lane) s := by
  simp [NextKeeps, exec, execBreakSentEnd]

theorem keeps_carrierChange (dt : Nat) (lane : Fin 4) (present : Bool) (s : State) : NextKeeps (.carrierChange dt lane present) s := by
  simp [NextKeeps, exec, execCarrierChange]

theorem keeps_carrierFilterExpiry (lane : Fin 4) (s : State) : NextKeeps (.carrierFilterExpiry lane) s := by
  simp [NextKeeps, exec, execCarrierFilterExpiry]

theorem keeps_settleExpiry (lane : Fin 4) (s : State) : NextKeeps (.settleExpiry lane) s := by
  simp [NextKeeps, exec, execSettleExpiry]

theorem keeps_modemHoldChange (dt : Nat) (lane : Fin 4) (asserted : Bool) (s : State) : NextKeeps (.modemHoldChange dt lane asserted) s := by
  simp [NextKeeps, exec, execModemHoldChange]

theorem keeps_transmitStart (lane : Fin 4) (s : State) : NextKeeps (.transmitStart lane) s := by
  simp [NextKeeps, exec, execTransmitStart]

theorem keeps_transmitComplete (lane : Fin 4) (s : State) : NextKeeps (.transmitComplete lane) s := by
  simp [NextKeeps, exec, execTransmitComplete]

theorem keeps_breakReceived (dt : Nat) (lane : Fin 4) (afterRun : Bool) (s : State) : NextKeeps (.breakReceived dt lane afterRun) s := by
  simp [NextKeeps, exec, execBreakReceived]

theorem keeps_breakReceiveEnd (dt : Nat) (lane : Fin 4) (s : State) : NextKeeps (.breakReceiveEnd dt lane) s := by
  simp [NextKeeps, exec, execBreakReceiveEnd]

theorem keeps_markerFirstByte (dt : Nat) (lane : Fin 4) (afterRun : Bool) (s : State) : NextKeeps (.markerFirstByte dt lane afterRun) s := by
  simp [NextKeeps, exec, execMarkerFirstByte]

theorem keeps_tailWordWrite (s : State) : NextKeeps (.tailWordWrite) s := by
  simp [NextKeeps, exec, execTailWordWrite]

theorem keeps_headWordWrite (s : State) : NextKeeps (.headWordWrite) s := by
  simp [NextKeeps, exec, execHeadWordWrite]

theorem keeps_commandFetch (s : State) : NextKeeps (.commandFetch) s := by
  simp [NextKeeps, exec, execCommandFetch]

theorem keeps_unknownCommand (tag : Word) (kind : Half) (s : State) : NextKeeps (.unknownCommand tag kind) s :=
  settings_run (fun i p => by (try dsimp only) <;> (repeat' split) <;> simp) _

theorem keeps_statusWriteStart (s : State) : NextKeeps (.statusWriteStart) s := by
  simp [NextKeeps, exec, execStatusWriteStart]

theorem keeps_engineResetComplete (s : State) : NextKeeps (.engineResetComplete) s := by
  simp [NextKeeps, exec, execEngineResetComplete]

theorem keeps_transferComplete (dt : Nat) (s : State) : NextKeeps (.transferComplete dt) s := by
  unfold NextKeeps
  split
  · next t he =>
    simp only [exec, execTransferComplete] at he
    repeat' split at he
    all_goals cases he
    all_goals simp
  · trivial

end Sys2Proof.Machine
end

