-- ==== Sys2Proof/Laws/Images.lean ====
section
/-! SUPPORT. The configuration image in the words of Safety.lean: what the bytes of a section give, one lemma per kind of
entry, and how a section's entries make a table. -/

namespace Sys2Proof.Machine

open Sys2Proof.Record

/-! ## Bytes at an address -/

/-- The `n` bytes from an address on. -/
def bytesFrom (b : Nat → Byte) (a n : Nat) : List Byte := (List.range n).map fun i => b (a + i)

variable (b : Nat → Byte)

@[simp] theorem bytesFrom_length (a n : Nat) : (bytesFrom b a n).length = n := by simp [bytesFrom]

theorem bytesFrom_succ (a n : Nat) : bytesFrom b a (n + 1) = b a :: bytesFrom b (a + 1) n := by
  simp [bytesFrom, List.range_succ_eq_map, Function.comp_def, Nat.add_assoc, Nat.add_comm 1]

theorem bytesFrom_getElem? (a n i : Nat) : (bytesFrom b a n)[i]? = if i < n then some (b (a + i)) else none := by
  by_cases h : i < n
  · simp [bytesFrom, h]
  · simp [bytesFrom, h]

/-- A piece of the bytes is the bytes at a later address. -/
theorem bytesFrom_piece {a n o k : Nat} (h : o + k ≤ n) : ((bytesFrom b a n).drop o).take k = bytesFrom b (a + o) k := by
  refine List.ext_getElem? fun i => ?_
  rw [List.getElem?_take, List.getElem?_drop, bytesFrom_getElem?, bytesFrom_getElem?, Nat.add_assoc]
  by_cases hi : i < k
  · rw [if_pos hi, if_pos (by omega), if_pos hi]
  · rw [if_neg hi, if_neg hi]

theorem bytesFrom_drop {a n o : Nat} (h : o ≤ n) : (bytesFrom b a n).drop o = bytesFrom b (a + o) (n - o) := by
  have := bytesFrom_piece b (a := a) (n := n) (o := o) (k := n - o) (by omega)
  rwa [List.take_of_length_le (by simp)] at this

theorem byte_bytesFrom {a n o : Nat} (h : o < n) : byte (bytesFrom b a n) o = b (a + o) := by
  unfold byte
  rw [List.getD_eq_getElem?_getD, bytesFrom_getElem?, if_pos h]
  rfl

/-- What the flash gives is its bytes at the address. -/
theorem readBytes_bytesFrom (v : Byte) (m : Memory) (a n : Nat) : m.readBytes v a n = bytesFrom (fun x => m.readByte v x) a n := by
  induction n generalizing a with
  | zero => rfl
  | succ n ih => rw [bytesFrom_succ, Memory.readBytes, ih]

theorem numAt_succ (a k : Nat) : numAt b a (k + 1) = (b a).toNat + 256 * numAt b (a + 1) k := by
  have : ∀ (l : List Nat), (l.map fun i => 256 ^ (i + 1) * (b (a + (i + 1))).toNat).sum =
      256 * (l.map fun i => 256 ^ i * (b (a + 1 + i)).toNat).sum := by
    intro l
    induction l with
    | nil => rfl
    | cons x l ih =>
      rw [List.map_cons, List.sum_cons, List.map_cons, List.sum_cons, ih, Nat.mul_add, Nat.pow_succ,
        show a + (x + 1) = a + 1 + x by omega]
      congr 1
      rw [Nat.mul_comm (256 ^ x) 256, Nat.mul_assoc]
  simp only [numAt, List.range_succ_eq_map, List.map_cons, List.sum_cons, List.map_map, Function.comp_def]
  rw [this]
  simp

/-- The number the bytes spell. -/
theorem leNat_bytesFrom (a k : Nat) : leNat (bytesFrom b a k) = numAt b a k := by
  induction k generalizing a with
  | zero => rfl
  | succ k ih => rw [bytesFrom_succ, leNat, ih, numAt_succ]

theorem numAt_lt (a k : Nat) : numAt b a k < 256 ^ k := by
  induction k generalizing a with
  | zero => simp [numAt]
  | succ k ih =>
    rw [numAt_succ, Nat.pow_succ]
    have := ih (a + 1)
    have := (b a).isLt
    omega

theorem half_bytesFrom {a n o : Nat} (h : o + 2 ≤ n) : (half (bytesFrom b a n) o).toNat = numAt b (a + o) 2 := by
  unfold half
  rw [bytesFrom_piece b h, leNat_bytesFrom, BitVec.toNat_ofNat]
  exact Nat.mod_eq_of_lt (numAt_lt b (a + o) 2)

theorem word_bytesFrom {a n o : Nat} (h : o + 4 ≤ n) : (Record.word (bytesFrom b a n) o).toNat = numAt b (a + o) 4 := by
  unfold Record.word
  rw [bytesFrom_piece b h, leNat_bytesFrom, BitVec.toNat_ofNat]
  exact Nat.mod_eq_of_lt (numAt_lt b (a + o) 4)

theorem wide_bytesFrom {a n o : Nat} (h : o + 8 ≤ n) : (wide (bytesFrom b a n) o).toNat = numAt b (a + o) 8 := by
  unfold wide
  rw [bytesFrom_piece b h, leNat_bytesFrom, BitVec.toNat_ofNat]
  exact Nat.mod_eq_of_lt (numAt_lt b (a + o) 8)

/-! ## Entries -/

theorem flagOf_eq_some {x : Byte} {v : Bool} : flagOf x = some v ↔ x.toNat ≤ 1 ∧ v = decide (x.toNat = 1) := by
  unfold flagOf
  by_cases h0 : x = 0
  · subst h0; simp [eq_comm]
  · by_cases h1 : x = 1
    · subst h1; simp [eq_comm]
    · rw [if_neg h0, if_neg h1]
      have : x.toNat ≠ 0 := fun h => h0 (BitVec.eq_of_toNat_eq h)
      have : x.toNat ≠ 1 := fun h => h1 (BitVec.eq_of_toNat_eq h)
      constructor
      · simp
      · omega

theorem objectOf_of_lt {n : Nat} {x : Byte} (h : x.toNat < n) : objectOf n x = some ⟨x.toNat, h⟩ := dif_pos h

theorem classEntry_iff (a : Nat) (c : Nat × Nat) : classEntry (bytesFrom b a 5) = some c ↔ classGiven b a c := by
  obtain ⟨x, y⟩ := c
  unfold classEntry classGiven classFields
  rw [byte_bytesFrom b (by omega), half_bytesFrom b (by omega), half_bytesFrom b (by omega)]
  simp only [Option.bind_eq_some_iff, Nat.add_zero]
  constructor
  · rintro ⟨k, hk, h⟩
    rw [objectOf_eq_some] at hk
    have := k.isLt
    split at h
    · cases h
      exact ⟨by omega, rfl, rfl, by omega⟩
    · exact absurd h (by simp)
  · rintro ⟨h0, h1, h2, h3⟩
    subst h1 h2
    exact ⟨⟨(b a).toNat, by omega⟩, objectOf_eq_some.2 rfl, by rw [if_pos (by omega)]⟩

theorem laneEntry_iff (a : Nat) (c : LaneSettings) : laneEntry (bytesFrom b a 9) = some c ↔ laneGiven b a c := by
  obtain ⟨dv, wn, fl, dp, pl, on⟩ := c
  unfold laneEntry laneGiven laneFields
  rw [byte_bytesFrom b (by omega), half_bytesFrom b (by omega), half_bytesFrom b (by omega), byte_bytesFrom b (by omega),
    byte_bytesFrom b (by omega), byte_bytesFrom b (by omega), byte_bytesFrom b (by omega)]
  simp only [Nat.add_zero]
  constructor
  · intro h
    split at h
    · next k on' hk hon =>
      rw [objectOf_eq_some] at hk
      rw [flagOf_eq_some] at hon
      have := k.isLt
      split at h
      · next f p hf hp =>
        split at h
        · next hr =>
          cases h
          refine ⟨by omega, rfl, rfl, hf, rfl, hp, hon.1, hon.2, hr.1, hr.2.1, hr.2.2.1, ?_⟩
          rcases hr.2.2.2 with h | h <;> rw [h] <;> decide
        · exact absurd h (by simp)
      · exact absurd h (by simp)
    · exact absurd h (by simp)
  · rintro ⟨h0, h1, h2, h3, h4, h5, h6, h7, h8⟩
    subst h1 h2 h4
    rw [objectOf_of_lt (n := 4) (by omega), flagOf_eq_some.2 ⟨h6, h7⟩, h3, h5]
    simp only
    rw [if_pos ⟨h8.1, h8.2.1, h8.2.2.1, h8.2.2.2.imp (fun h => BitVec.eq_of_toNat_eq h) (fun h => BitVec.eq_of_toNat_eq h)⟩]

theorem sourceEntry_iff (a : Nat) (c : SourceSettings) : sourceEntry (bytesFrom b a 7) = some c ↔ sourceGiven b a c := by
  obtain ⟨on, wn, ring, off, wd⟩ := c
  unfold sourceEntry sourceGiven sourceFields stateOf
  rw [byte_bytesFrom b (by omega), half_bytesFrom b (by omega), byte_bytesFrom b (by omega),
    byte_bytesFrom b (by omega), byte_bytesFrom b (by omega), byte_bytesFrom b (by omega)]
  simp only [Option.bind_eq_some_iff, Nat.add_zero]
  constructor
  · rintro ⟨k, hk, h⟩
    rw [objectOf_eq_some] at hk
    have := k.isLt
    split at h
    · next on' w hon hw =>
      rw [flagOf_eq_some] at hon
      rw [objectOf_eq_some] at hw
      split at h
      · next hr =>
        cases h
        refine ⟨by omega, hon.1, hon.2, hw.symm, rfl, rfl, rfl, hr.1, hr.2.1, hr.2.2.1, ?_⟩
        rcases hr.2.2.2 with h | h | h <;> rw [h] <;> decide
      · exact absurd h (by simp)
    · exact absurd h (by simp)
  · rintro ⟨h0, h1, h2, h3, h4, h5, h6, h7, h8, h9, h10⟩
    subst h4 h5 h6
    refine ⟨⟨(b a).toNat, by omega⟩, objectOf_eq_some.2 rfl, ?_⟩
    rw [objectOf_eq_some.2 h3.symm, flagOf_eq_some.2 ⟨h1, h2⟩]
    simp only
    rw [if_pos ⟨h7, h8, h9, h10.imp (fun h => BitVec.eq_of_toNat_eq h) (Or.imp (fun h => BitVec.eq_of_toNat_eq h) fun h => BitVec.eq_of_toNat_eq h)⟩]

theorem cueEntry_iff (a : Nat) (c : CueSettings) : cueEntry (bytesFrom b a 8) = some c ↔ cueGiven b a c := by
  obtain ⟨m, d, db, cs, pr, tl⟩ := c
  unfold cueEntry cueGiven cueFields
  rw [byte_bytesFrom b (by omega), byte_bytesFrom b (by omega), byte_bytesFrom b (by omega), half_bytesFrom b (by omega),
    byte_bytesFrom b (by omega), byte_bytesFrom b (by omega), byte_bytesFrom b (by omega)]
  simp only [Option.bind_eq_some_iff, Nat.add_zero]
  constructor
  · rintro ⟨k, hk, h⟩
    rw [objectOf_eq_some] at hk
    have := k.isLt
    split at h
    · rename_i m' d' hm hd
      split at h
      · exact absurd h (by simp)
      split at h
      · exact absurd h (by simp)
      split at h
      · exact absurd h (by simp)
      next h1 h2 h3 =>
      cases h
      refine ⟨by omega, hm, hd, rfl, rfl, rfl, rfl, ?_, ?_, ?_⟩
      · intro hs
        have : m.sampled = true := by rcases hs with rfl | rfl <;> rfl
        exact Decidable.not_not.1 fun hn => h1 ⟨this, hn⟩
      · rintro rfl
        refine ⟨fun he => h2 ⟨rfl, .inl he⟩, ?_⟩
        exact Nat.not_lt.1 fun he => h2 ⟨rfl, .inr he⟩
      · rintro rfl
        exact Nat.not_lt.1 fun he => h3 ⟨rfl, he⟩
    · exact absurd h (by simp)
  · rintro ⟨h0, hm, hd, h1, h2, h3, h4, h5, h6, h7⟩
    subst h1 h2 h3 h4
    refine ⟨⟨(b a).toNat, by omega⟩, objectOf_eq_some.2 rfl, ?_⟩
    rw [hm, hd]
    simp only
    rw [if_neg, if_neg, if_neg]
    · rintro ⟨rfl, h⟩
      exact Nat.not_lt.2 (h7 rfl) h
    · rintro ⟨rfl, h | h⟩
      · exact (h6 rfl).1 h
      · exact Nat.not_lt.2 (h6 rfl).2 h
    · rintro ⟨hs, h⟩
      refine h (h5 ?_)
      cases m <;> first | exact .inl rfl | exact .inr rfl | exact absurd hs (by decide)

theorem cameraFields_eq_some {fw rw' : Byte} {st : Word} {ln : Half} {ti po : Byte} {hl : Half} {bu : Word} {lv : Byte} {c : CameraSettings} :
    cameraFields fw rw' st ln ti po hl bu lv = some c ↔
      (c.frameWin.val = fw.toNat ∧ c.replayWin.val = rw'.toNat ∧ c.stride = st.toNat ∧ c.lines = ln.toNat ∧ c.tiles = ti.toNat ∧
        policyOf po = some c.policy ∧ c.holdLimit = hl.toNat ∧ c.budget = bu.toNat ∧ lv.toNat ≤ 1 ∧ c.live = decide (lv.toNat = 1)) ∧
      64 ≤ c.stride ∧ c.stride ≤ 65536 ∧ c.stride % 64 = 0 ∧ 16 ≤ c.lines ∧ c.lines ≤ 2160 ∧ c.lines % 16 = 0 ∧
      1 ≤ c.tiles ∧ c.tiles ≤ 60 ∧ 1 ≤ c.holdLimit ∧ c.holdLimit ≤ 200 ∧
      64 + 8 * (c.lines / 16) + 16 * (c.lines / 16) * (c.tiles + 1) ≤ c.budget ∧ c.budget ≤ 67108864 := by
  unfold cameraFields
  constructor
  · intro h
    split at h
    · rename_i f r p l hf hr hp hl
      rw [objectOf_eq_some] at hf hr
      rw [flagOf_eq_some] at hl
      simp only at h
      split at h
      · next ht =>
        cases h
        exact ⟨⟨hf.symm, hr.symm, rfl, rfl, rfl, hp, rfl, rfl, hl.1, hl.2⟩, ht⟩
      · exact absurd h (by simp)
    · exact absurd h (by simp)
  · rintro ⟨⟨h0, h1, h2, h3, h4, h5, h6, h7, h8, h9⟩, ht⟩
    rw [objectOf_eq_some.2 h0.symm, objectOf_eq_some.2 h1.symm, h5, flagOf_eq_some.2 ⟨h8, h9⟩]
    simp only
    rw [← h2, ← h3, ← h4, ← h6, ← h7]
    exact if_pos ht

theorem cameraEntry_iff (a : Nat) (x : Bool × CameraSettings) : cameraEntry (bytesFrom b a 19) = some x ↔ cameraGiven b a x := by
  obtain ⟨run, c⟩ := x
  have hh : ∀ o, o + 2 ≤ 19 → (half (bytesFrom b a 19) o).toNat = numAt b (a + o) 2 := fun o h => half_bytesFrom b h
  have hw : ∀ o, o + 4 ≤ 19 → (Record.word (bytesFrom b a 19) o).toNat = numAt b (a + o) 4 := fun o h => word_bytesFrom b h
  have hb : ∀ o, o < 19 → byte (bytesFrom b a 19) o = b (a + o) := fun o h => byte_bytesFrom b h
  unfold cameraEntry cameraGiven
  constructor
  · intro h
    split at h
    · rename_i r k c' hr hk hc
      cases h
      rw [flagOf_eq_some, hb 0 (by omega)] at hr
      rw [objectOf_eq_some, hb 1 (by omega)] at hk
      rw [cameraFields_eq_some, hb 2 (by omega), hb 3 (by omega), hw 4 (by omega), hh 8 (by omega), hb 10 (by omega), hb 11 (by omega),
        hh 12 (by omega), hw 14 (by omega), hb 18 (by omega)] at hc
      obtain ⟨⟨h0, h1, h2, h3, h4, h5, h6, h7, h8, h9⟩, ht⟩ := hc
      have := k.isLt
      exact ⟨hr.1, hr.2, by omega, h0, h1, h2, h3, h4, h5, h6, h7, h8, h9, ht⟩
    · exact absurd h (by simp)
  · rintro ⟨hr, hr', hk, h0, h1, h2, h3, h4, h5, h6, h7, h8, h9, ht⟩
    have hc : cameraFields (byte (bytesFrom b a 19) 2) (byte (bytesFrom b a 19) 3) (Record.word (bytesFrom b a 19) 4)
        (half (bytesFrom b a 19) 8) (byte (bytesFrom b a 19) 10) (byte (bytesFrom b a 19) 11) (half (bytesFrom b a 19) 12)
        (Record.word (bytesFrom b a 19) 14) (byte (bytesFrom b a 19) 18) = some c := by
      rw [cameraFields_eq_some, hb 2 (by omega), hb 3 (by omega), hw 4 (by omega), hh 8 (by omega), hb 10 (by omega), hb 11 (by omega),
        hh 12 (by omega), hw 14 (by omega), hb 18 (by omega)]
      exact ⟨⟨h0, h1, h2, h3, h4, h5, h6, h7, h8, h9⟩, ht⟩
    rw [hc, hb 0 (by omega), hb 1 (by omega), Nat.add_zero, flagOf_eq_some.2 ⟨hr, hr'⟩, objectOf_of_lt (n := 8) (show (b (a + 1)).toNat < 8 by omega)]

theorem windowKindOf_eq_some {x : Byte} {k : WindowKind} : windowKindOf x = some k →
    (subjectLimit k = (if x.toNat = 1 ∨ x.toNat = 2 ∨ x.toNat = 4 then some 8 else if x.toNat = 3 then some 64
      else if x.toNat = 5 then some 16 else none)) ∧
    (∀ n m, k.needs n m = if x.toNat = 6 then 64 + 64 * n else if x.toNat = 7 then 64 + 64 * m else if x.toNat = 8 then 32768 else 0) ∧
    x.toNat ≤ 8 := by
  intro h
  unfold windowKindOf at h
  repeat
    split at h
    · next hx => subst hx; cases h; exact ⟨rfl, fun _ _ => rfl, by decide⟩
  exact absurd h (by simp)

theorem windowKindOf_isSome {x : Byte} (h : x.toNat ≤ 8) : ∃ k, windowKindOf x = some k := by
  have hx : x = BitVec.ofNat 8 x.toNat := by simp
  rw [hx]
  have : x.toNat < 9 := by omega
  generalize x.toNat = n at this
  match n, this with
  | 0, _ | 1, _ | 2, _ | 3, _ | 4, _ | 5, _ | 6, _ | 7, _ | 8, _ => exact ⟨_, rfl⟩

theorem windowFields_eq_some {n m : Nat} {state : WindowState} {base size : Wide} {kind subject rs ws : Byte} {w : Window} :
    windowFields n m state base size kind subject rs ws = some w ↔
      openable n m base.toNat size.toNat kind.toNat subject.toNat rs.toNat ws.toNat ∧ w.state = state ∧ w.base = base.toNat ∧
      w.size = size.toNat ∧ windowKindOf kind = some w.kind ∧
      w.subject = (if 1 ≤ kind.toNat ∧ kind.toNat ≤ 5 then subject.toNat else 0) ∧ w.readers = rs ∧ w.writers = ws := by
  obtain ⟨wst, wb, wz, wk, wsub, wr, ww⟩ := w
  unfold windowFields portSetOf openable
  cases hk : windowKindOf kind with
  | none =>
    simp only [reduceCtorEq, false_and, and_false]
  | some k =>
    obtain ⟨hl, hn, h8⟩ := windowKindOf_eq_some hk
    by_cases hr : rs.toNat < 64
    · by_cases hw : ws.toNat < 64
      · simp only [if_pos hr, if_pos hw, hl, hn, Config.windowUnit, Config.dramBytes]
        generalize kind.toNat = x at h8
        match x, h8 with
        | 0, _ | 1, _ | 2, _ | 3, _ | 4, _ | 5, _ | 6, _ | 7, _ | 8, _ =>
          simp
          constructor
          · rintro ⟨h, rfl, rfl, rfl, rfl, rfl, rfl, rfl⟩
            refine ⟨?_, rfl, rfl, rfl, rfl, rfl, rfl, rfl⟩
            omega
          · rintro ⟨h, rfl, rfl, rfl, rfl, rfl, rfl, rfl⟩
            refine ⟨?_, rfl, rfl, rfl, rfl, rfl, rfl, rfl⟩
            omega
      · simp [hw, hr]
    · simp [hr]

theorem windowEntry_iff (n m a : Nat) (w : Window) : windowEntry n m (bytesFrom b a 22) = some w ↔ windowGiven b n m a w := by
  have hw : ∀ o, o + 8 ≤ 22 → (wide (bytesFrom b a 22) o).toNat = numAt b (a + o) 8 := fun o h => wide_bytesFrom b h
  have hb : ∀ o, o < 22 → byte (bytesFrom b a 22) o = b (a + o) := fun o h => byte_bytesFrom b h
  unfold windowEntry windowGiven
  constructor
  · intro h
    split at h
    · rename_i o k ho hk
      rw [flagOf_eq_some, hb 0 (by omega)] at ho
      rw [objectOf_eq_some, hb 1 (by omega)] at hk
      rw [windowFields_eq_some, hw 2 (by omega), hw 10 (by omega), hb 18 (by omega), hb 19 (by omega), hb 20 (by omega),
        hb 21 (by omega)] at h
      obtain ⟨h0, h1, h2, h3, h4, h5, h6, h7⟩ := h
      have := k.isLt
      refine ⟨ho.1, by omega, h0, ?_, h2, h3, h4, h5, h6, h7⟩
      rw [h1, ho.2]
      simp
    · exact absurd h (by simp)
  · rintro ⟨ho, hk, h0, h1, h2, h3, h4, h5, h6, h7⟩
    rw [hb 0 (by omega), hb 1 (by omega), Nat.add_zero, flagOf_eq_some.2 ⟨ho, rfl⟩, objectOf_of_lt (n := 32) (show (b (a + 1)).toNat < 32 by omega)]
    simp only
    rw [windowFields_eq_some, hw 2 (by omega), hw 10 (by omega), hb 18 (by omega), hb 19 (by omega), hb 20 (by omega), hb 21 (by omega)]
    refine ⟨h0, ?_, h2, h3, h4, h5, h6, h7⟩
    rw [h1]
    simp

theorem contributionEntry_iff (a : Nat) (c : Contribution) :
    contributionEntry (bytesFrom b a 5) = some c ↔ contributionGiven b a c := by
  obtain ⟨src, cur, tg, st, lv⟩ := c
  have hs : (half (bytesFrom b a 5) 3).toNat = numAt b (a + 3) 2 := half_bytesFrom b (by omega)
  unfold contributionEntry contributionGiven
  rw [byte_bytesFrom b (by omega), half_bytesFrom b (by omega), hs]
  simp only [Nat.add_zero]
  have hz : half (bytesFrom b a 5) 3 = 0 ↔ numAt b (a + 3) 2 = 0 := by
    rw [← hs]
    exact ⟨fun h => by rw [h]; rfl, fun h => BitVec.eq_of_toNat_eq h⟩
  constructor
  · intro h
    split at h
    · rename_i k hk
      rw [objectOf_eq_some] at hk
      split at h
      · exact absurd h (by simp)
      · next hne =>
        cases h
        exact ⟨hk.symm, rfl, rfl, rfl, fun h => hne (hz.2 h), rfl⟩
    · exact absurd h (by simp)
  · rintro ⟨h0, h1, h2, h3, h4, h5⟩
    rw [objectOf_eq_some.2 h0.symm]
    simp only at *
    subst h1 h2 h3 h5
    rw [if_neg (fun h => h4 (hz.1 h))]

/-! ## Lists of entries -/

theorem mapM_eq_some {α β : Type} (f : α → Option β) : ∀ (l : List α) (r : List β), l.mapM f = some r ↔ l.map f = r.map some
  | [], r => by cases r <;> simp
  | x :: l, r => by
    rw [List.mapM_cons]
    cases r with
    | nil => cases f x <;> cases l.mapM f <;> simp
    | cons y r =>
      have ih := mapM_eq_some f l r
      cases hx : f x with
      | none => simp [hx]
      | some z =>
        cases hl : l.mapM f with
        | none => simp [hx, ← ih, hl]
        | some t => simp [hx, ← ih, hl]

theorem busFields_eq_some {state window : Byte} {ring master : Half} {send : Byte} {divider : Half} {c : BusSettings} :
    busFields state window ring master send divider = some c ↔
      state.toNat ≤ 1 ∧ c.active = decide (state.toNat = 1) ∧ c.win.val = window.toNat ∧ c.ring = ring.toNat ∧ c.master = master.toNat ∧
      send.toNat ≤ 1 ∧ c.send = decide (send.toNat = 1) ∧ c.divider = divider.toNat ∧
      16 ≤ c.ring ∧ c.ring ≤ 256 ∧ 1 ≤ c.divider ∧ c.divider ≤ 20 ∧ c.divider ≤ c.ring := by
  unfold busFields stateOf
  constructor
  · intro h
    split at h
    · rename_i x w y hx hw hy
      rw [flagOf_eq_some] at hx hy
      rw [objectOf_eq_some] at hw
      split at h
      · next ht =>
        cases h
        exact ⟨hx.1, hx.2, hw.symm, rfl, rfl, hy.1, hy.2, rfl, ht⟩
      · exact absurd h (by simp)
    · exact absurd h (by simp)
  · rintro ⟨h0, h1, h2, h3, h4, h5, h6, h7, ht⟩
    rw [flagOf_eq_some.2 ⟨h0, h1⟩, flagOf_eq_some.2 ⟨h5, h6⟩, objectOf_eq_some.2 h2.symm]
    simp only
    rw [← h3, ← h4, ← h7]
    exact if_pos ht

theorem list_getElem? {α : Type} {n : Nat} (t : Table α n) (i : Fin n) : t.list[i.val]? = some (t.nth i) := by
  unfold Table.list Table.nth
  simp

theorem list_length {α : Type} {n : Nat} (t : Table α n) : t.list.length = n := by simp [Table.list]

theorem tableOf_eq_some {α : Type} {n : Nat} {l : List α} {t : Table α n} : tableOf n l = some t ↔ l = t.list := by
  unfold tableOf
  constructor
  · intro h
    split at h
    · cases h; rfl
    · exact absurd h (by simp)
  · rintro rfl
    rw [dif_pos (list_length t)]
    rfl

/-- The entries of a section make a table, each at its place. -/
theorem readTable_iff {α : Type} (n size a len : Nat) (f : List Byte → Option α) (t : Table α n) :
    readTable n size (bytesFrom b a len) f = some t ↔
      len = size * n ∧ ∀ i : Fin n, f (bytesFrom b (a + size * i.val) size) = some (t.nth i) := by
  have hentries : len = size * n → ((List.range n).map fun i => ((bytesFrom b a len).drop (size * i)).take size) =
      (List.range n).map fun i => bytesFrom b (a + size * i) size := by
    rintro rfl
    refine List.map_congr_left fun i hi => ?_
    have : i + 1 ≤ n := List.mem_range.1 hi
    have := Nat.mul_le_mul_left size this
    rw [Nat.mul_add, Nat.mul_one] at this
    exact bytesFrom_piece b this
  have hall : ((List.range n).map fun i => f (bytesFrom b (a + size * i) size)) = t.list.map some ↔
      ∀ i : Fin n, f (bytesFrom b (a + size * i.val) size) = some (t.nth i) := by
    constructor
    · intro h i
      have := congrArg (fun l => l[i.val]?) h
      simpa [list_getElem?] using this
    · intro h
      refine List.ext_getElem? fun i => ?_
      by_cases hi : i < n
      · have := h ⟨i, hi⟩
        simp only at this
        simp [hi, this, list_getElem? t ⟨i, hi⟩]
      · rw [List.getElem?_eq_none (by simpa using hi), List.getElem?_eq_none (by simpa [list_length] using hi)]
  unfold readTable entriesOf
  rw [bytesFrom_length]
  by_cases hl : len = size * n
  · rw [if_pos hl, hentries hl, Option.bind_some]
    simp only [Option.bind_eq_some_iff, mapM_eq_some, tableOf_eq_some, List.map_map, Function.comp_def]
    constructor
    · rintro ⟨l, h, rfl⟩
      exact ⟨hl, hall.1 h⟩
    · rintro ⟨_, h⟩
      exact ⟨t.list, hall.2 h, rfl⟩
  · rw [if_neg hl]
    simp [hl]

/-! ## Sections -/

/-- The section list holds nine entries within the image. -/
theorem sectionsListed_iff {len : Nat} (h : 13 ≤ len) : sectionsListed (bytesFrom b 0 len) = true ↔ b 12 = 9 ∧ 104 ≤ len := by
  unfold sectionsListed
  rw [byte_bytesFrom b (by omega), bytesFrom_length]
  simp only [Bool.and_eq_true, beq_iff_eq, decide_eq_true_eq, Nat.zero_add]
  constructor
  · rintro ⟨h9, hl⟩
    exact ⟨BitVec.eq_of_toNat_eq h9, by omega⟩
  · rintro ⟨h9, hl⟩
    rw [h9]
    exact ⟨rfl, by omega⟩

/-- One index of a range stands alone in it with a property. -/
theorem filter_range_eq_singleton {n i : Nat} (p : Nat → Bool) :
    (List.range n).filter p = [i] ↔ i < n ∧ ∀ j, j < n → (p j = true ↔ j = i) := by
  constructor
  · intro h
    have hm : ∀ j, (j < n ∧ p j = true) ↔ j = i := by
      intro j
      have := @List.mem_filter _ p (List.range n) j
      rw [h, List.mem_singleton, List.mem_range] at this
      exact this.symm
    exact ⟨((hm i).2 rfl).1, fun j hj => ⟨fun hp => (hm j).1 ⟨hj, hp⟩, fun he => ((hm j).2 he).2⟩⟩
  · rintro ⟨hi, h⟩
    have hnd : ((List.range n).filter p).Nodup := List.nodup_range.filter _
    have hmem : ∀ j, j ∈ (List.range n).filter p ↔ j = i := by
      intro j
      rw [List.mem_filter, List.mem_range]
      exact ⟨fun hj => (h j hj.1).1 hj.2, fun he => ⟨he ▸ hi, (h j (he ▸ hi)).2 he⟩⟩
    match hl : (List.range n).filter p, hnd, hmem with
    | [], _, hmem => exact absurd ((hmem i).2 rfl) (by simp)
    | [x], _, hmem => rw [(hmem x).1 (by simp)]
    | x :: y :: l, hnd, hmem =>
      have hx := (hmem x).1 (by simp)
      have hy := (hmem y).1 (by simp)
      rw [hx, hy] at hnd
      simp at hnd

/-- A section is found where exactly one entry of the list has its kind and places it within the image. -/
theorem sectionOf_iff {len : Nat} (h12 : b 12 = 9) (hlen : 104 ≤ len) (kind : Byte) (sec : List Byte) :
    sectionOf (bytesFrom b 0 len) kind = some sec ↔ ∃ off size, sectionPlaced b len kind off size ∧ sec = bytesFrom b off size := by
  have hcount : (byte (bytesFrom b 0 len) 12).toNat = 9 := by
    rw [byte_bytesFrom b (by omega), Nat.zero_add, h12]; rfl
  have hentries : ((List.range 9).map fun i => ((bytesFrom b 0 len).drop (32 + 8 * i)).take 8) =
      (List.range 9).map fun i => bytesFrom b (32 + 8 * i) 8 := by
    refine List.map_congr_left fun i hi => ?_
    have : i < 9 := List.mem_range.1 hi
    rw [bytesFrom_piece b (by omega), Nat.zero_add]
  have hfilter : ((List.range 9).map fun i => bytesFrom b (32 + 8 * i) 8).filter (fun e => byte e 0 == kind) =
      ((List.range 9).filter fun i => b (32 + 8 * i) == kind).map fun i => bytesFrom b (32 + 8 * i) 8 := by
    rw [List.filter_map]
    refine congrArg _ (List.filter_congr fun i _ => ?_)
    simp only [Function.comp_apply]
    rw [byte_bytesFrom b (by omega), Nat.add_zero]
  have hone : ∀ i, ((List.range 9).filter fun i => b (32 + 8 * i) == kind) = [i] ↔
      i < 9 ∧ ∀ j : Fin 9, b (32 + 8 * j.val) = kind ↔ j.val = i := by
    intro i
    rw [filter_range_eq_singleton]
    refine and_congr_right fun _ => ⟨fun h j => ?_, fun h j hj => ?_⟩
    · rw [← h j.val j.isLt, beq_iff_eq]
    · rw [beq_iff_eq]; exact h ⟨j, hj⟩
  unfold sectionOf
  simp only [hcount, hentries, hfilter]
  constructor
  · intro h
    match hf : (List.range 9).filter fun i => b (32 + 8 * i) == kind with
    | [] => rw [hf] at h; exact absurd h (by simp)
    | [i] =>
      obtain ⟨hi, hk⟩ := (hone i).1 hf
      rw [hf, List.map_cons, List.map_nil] at h
      simp only [half_bytesFrom b (show 4 + 2 ≤ 8 by omega), half_bytesFrom b (show 6 + 2 ≤ 8 by omega), bytesFrom_length] at h
      split at h
      · next hin =>
        cases h
        rw [bytesFrom_piece b hin, Nat.zero_add]
        refine ⟨_, _, ⟨⟨i, hi⟩, fun j => (hk j).trans (by rw [Fin.ext_iff]), ?_, ?_, hin⟩, rfl⟩
        · simp only; congr 1; omega
        · simp only; congr 1; omega
      · exact absurd h (by simp)
    | i :: j :: l => rw [hf] at h; exact absurd h (by simp)
  · rintro ⟨off, size, ⟨i, hk, rfl, rfl, hin⟩, rfl⟩
    rw [(hone i.val).2 ⟨i.isLt, fun j => (hk j).trans (by rw [Fin.ext_iff])⟩, List.map_cons, List.map_nil]
    simp only [half_bytesFrom b (show 4 + 2 ≤ 8 by omega), half_bytesFrom b (show 6 + 2 ≤ 8 by omega), bytesFrom_length]
    rw [show 32 + 8 * i.val + 4 = 36 + 8 * i.val by omega, show 32 + 8 * i.val + 6 = 38 + 8 * i.val by omega, if_pos hin,
      bytesFrom_piece b hin, Nat.zero_add]

/-! ## Buses -/

/-- One bus entry, and the bytes after it. -/
theorem busEntry_iff (a len : Nat) (x : BusSettings × List Contribution) (rest : List Byte) :
    busEntry (bytesFrom b a len) = some (x, rest) ↔
      11 + 5 * (b (a + 10)).toNat ≤ len ∧ busGiven b a x ∧
        rest = bytesFrom b (a + (11 + 5 * (b (a + 10)).toNat)) (len - (11 + 5 * (b (a + 10)).toNat)) := by
  unfold busEntry
  by_cases h11 : 11 ≤ len
  · have hb : ∀ o, o < 11 → byte (bytesFrom b a len) o = b (a + o) := fun o h => byte_bytesFrom b (by omega)
    have hh : ∀ o, o + 2 ≤ 11 → (half (bytesFrom b a len) o).toNat = numAt b (a + o) 2 := fun o h => half_bytesFrom b (by omega)
    simp only [bytesFrom_length, hb 10 (by omega)]
    by_cases hn : len < 11 + 5 * (b (a + 10)).toNat ∨ Config.contributionMax < (b (a + 10)).toNat
    · rw [if_pos hn]
      refine ⟨fun h => absurd h (by simp), ?_⟩
      rintro ⟨h1, h2, _⟩
      have hl := h2.2.2.2.2.2.2.2.2.2.2.2.2.2.2.1
      have hm := h2.2.2.2.2.2.2.2.2.2.2.2.2.2.2.2.1
      rcases hn with h | h
      · omega
      · rw [show Config.contributionMax = 32 from rfl] at h
        omega
    · rw [if_neg hn]
      rw [not_or, show Config.contributionMax = 32 from rfl, Nat.not_lt, Nat.not_lt] at hn
      have hpieces : ((List.range (b (a + 10)).toNat).map fun i => ((bytesFrom b a len).drop (11 + 5 * i)).take 5) =
          (List.range (b (a + 10)).toNat).map fun i => bytesFrom b (a + 11 + 5 * i) 5 := by
        refine List.map_congr_left fun i hi => ?_
        have : i < (b (a + 10)).toNat := List.mem_range.1 hi
        rw [bytesFrom_piece b (by omega)]
        congr 1
        omega
      have hlist : ∀ l : List Contribution,
          ((List.range (b (a + 10)).toNat).map fun i => contributionEntry (bytesFrom b (a + 11 + 5 * i) 5)) = l.map some ↔
            l.length = (b (a + 10)).toNat ∧ ∀ i e, l[i]? = some e → contributionGiven b (a + 11 + 5 * i) e := by
        intro l
        constructor
        · intro h
          have hlen := congrArg List.length h
          simp only [List.length_map, List.length_range] at hlen
          refine ⟨hlen.symm, fun i e he => ?_⟩
          have := congrArg (fun l => l[i]?) h
          have hi : i < l.length := (List.getElem?_eq_some_iff.1 he).1
          simp only [List.getElem?_map, he, Option.map_some] at this
          rw [List.getElem?_range (by omega)] at this
          exact (contributionEntry_iff b _ e).1 (Option.some.inj this)
        · rintro ⟨hlen, h⟩
          refine List.ext_getElem? fun i => ?_
          rw [List.getElem?_map, List.getElem?_map]
          by_cases hi : i < l.length
          · rw [List.getElem?_range (by omega), List.getElem?_eq_getElem hi]
            exact congrArg some ((contributionEntry_iff b _ _).2 (h i _ (List.getElem?_eq_getElem hi)))
          · rw [List.getElem?_eq_none (by simp; omega), List.getElem?_eq_none (by omega)]
            rfl
      rw [hpieces]
      constructor
      · intro h
        split at h
        · rename_i k c l hk hc hl
          cases h
          rw [objectOf_eq_some, hb 0 (by omega)] at hk
          rw [busFields_eq_some, hb 1 (by omega), hb 2 (by omega), hh 3 (by omega), hh 5 (by omega), hb 7 (by omega), hh 8 (by omega)] at hc
          rw [mapM_eq_some, List.map_map] at hl
          obtain ⟨hlen, hall⟩ := (hlist l).1 hl
          obtain ⟨h1, h2, h3, h4, h5, h6, h7, h8, h9, h10, h11', h12, h13⟩ := hc
          have := k.isLt
          exact ⟨by omega, ⟨by rw [Nat.add_zero] at hk; omega, h1, h2, h3, h4, h5, h6, h7, h8, h9, h10, h11', h12, h13, hlen,
            by simp only; omega, hall⟩, bytesFrom_drop b (by omega)⟩
        · exact absurd h (by simp)
      · rintro ⟨hn', ⟨h0, h1, h2, h3, h4, h5, h6, h7, h8, h9, h10, h11', h12, h13, hlen, hmax, hall⟩, rfl⟩
        have hc : busFields (byte (bytesFrom b a len) 1) (byte (bytesFrom b a len) 2) (half (bytesFrom b a len) 3)
            (half (bytesFrom b a len) 5) (byte (bytesFrom b a len) 7) (half (bytesFrom b a len) 8) = some x.1 := by
          rw [busFields_eq_some, hb 1 (by omega), hb 2 (by omega), hh 3 (by omega), hh 5 (by omega), hb 7 (by omega), hh 8 (by omega)]
          exact ⟨h1, h2, h3, h4, h5, h6, h7, h8, h9, h10, h11', h12, h13⟩
        have hl : ((List.range (b (a + 10)).toNat).map fun i => bytesFrom b (a + 11 + 5 * i) 5).mapM contributionEntry = some x.2 := by
          rw [mapM_eq_some, List.map_map]
          exact (hlist x.2).2 ⟨hlen, hall⟩
        rw [hc, hl, hb 0 (by omega), Nat.add_zero, objectOf_of_lt (n := 16) (show (b a).toNat < 16 by omega)]
        simp only
        rw [bytesFrom_drop b (show 11 + 5 * (b (a + 10)).toNat ≤ len by omega)]
  · rw [bytesFrom_length, if_pos (Or.inl (by omega))]
    refine ⟨fun h => absurd h (by simp), ?_⟩
    rintro ⟨h1, _⟩
    omega

/-- Bus entries follow one another and fill their section. -/
theorem busEntries_iff (k a len : Nat) (l : List (BusSettings × List Contribution)) :
    busEntries k (bytesFrom b a len) = some l ↔ l.length = k ∧ ∃ bus : Nat → Nat, bus 0 = a ∧ bus k = a + len ∧
      (∀ x, x < k → bus (x + 1) = bus x + 11 + 5 * (b (bus x + 10)).toNat) ∧
      ∀ x e, l[x]? = some e → busGiven b (bus x) e := by
  induction k generalizing a len l with
  | zero =>
    unfold busEntries
    cases len with
    | zero =>
      constructor
      · intro h
        cases h
        exact ⟨rfl, fun _ => a, rfl, rfl, by simp, by simp⟩
      · rintro ⟨h, _⟩
        rw [List.eq_nil_of_length_eq_zero h]
        rfl
    | succ len =>
      rw [bytesFrom_succ]
      refine ⟨fun h => absurd h (by simp), ?_⟩
      rintro ⟨_, bus, h0, h1, _⟩
      omega
  | succ k ih =>
    unfold busEntries
    simp only [Option.bind_eq_some_iff, Option.map_eq_some_iff]
    constructor
    · rintro ⟨⟨x, rest⟩, hx, t, ht, rfl⟩
      obtain ⟨hn, hg, rfl⟩ := (busEntry_iff b a len x rest).1 hx
      obtain ⟨hlen, bus, h0, hk, hs, hall⟩ := (ih _ _ t).1 ht
      refine ⟨by simp [hlen], fun i => match i with | 0 => a | i + 1 => bus i, rfl, by simp only [hk]; omega, ?_, ?_⟩
      · intro i hi
        match i with
        | 0 => simp only [h0]; omega
        | i + 1 => exact hs i (by omega)
      · intro i e he
        match i with
        | 0 => cases he; exact hg
        | i + 1 => exact hall i e (by simpa using he)
    · rintro ⟨hlen, bus, rfl, hk, hs, hall⟩
      match l, hlen with
      | x :: t, hlen =>
        have hmono : ∀ j, j ≤ k → bus 1 ≤ bus (1 + j) := by
          intro j
          induction j with
          | zero => intro _; exact Nat.le_refl _
          | succ j ihj =>
            intro hj
            have := ihj (by omega)
            have := hs (1 + j) (by omega)
            rw [show 1 + (j + 1) = 1 + j + 1 by omega]
            omega
        have h1 := hs 0 (by omega)
        have h2 := hmono k (Nat.le_refl k)
        rw [Nat.zero_add] at h1
        rw [Nat.add_comm 1 k] at h2
        refine ⟨(x, _), (busEntry_iff b (bus 0) len x _).2 ⟨by omega, hall 0 x rfl, rfl⟩, t, (ih _ _ t).2 ⟨by simpa using hlen, ?_⟩, rfl⟩
        refine ⟨fun i => bus (i + 1), by simp only [Nat.zero_add]; omega, by simp only; omega, fun i hi => hs (i + 1) (by omega), ?_⟩
        intro i e he
        exact hall (i + 1) e (by simpa using he)

/-! ## The whole of check 4 -/

/-- A ring's record count. -/
theorem ringCount_eq_some {h : Half} {n : Nat} : ringCount h = some n ↔ ∃ e, 4 ≤ e ∧ e ≤ 10 ∧ h.toNat = 2 ^ e ∧ n = 2 ^ e := by
  unfold ringCount
  constructor
  · intro hh
    split at hh
    · next hm =>
      cases hh
      simp only [List.mem_cons, List.not_mem_nil, or_false] at hm
      rcases hm with h | h | h | h | h | h | h <;> rw [h]
      · exact ⟨4, by decide⟩
      · exact ⟨5, by decide⟩
      · exact ⟨6, by decide⟩
      · exact ⟨7, by decide⟩
      · exact ⟨8, by decide⟩
      · exact ⟨9, by decide⟩
      · exact ⟨10, by decide⟩
    · exact absurd hh (by simp)
  · rintro ⟨e, h4, h10, he, rfl⟩
    rw [he, if_pos]
    have : e = 4 ∨ e = 5 ∨ e = 6 ∨ e = 7 ∨ e = 8 ∨ e = 9 ∨ e = 10 := by omega
    rcases this with rfl | rfl | rfl | rfl | rfl | rfl | rfl <;> decide

/-- The GLOBAL section. -/
theorem globalFields_iff (a len : Nat) (i : Image) :
    globalFields (bytesFrom b a len) = some ⟨i.rate, i.n, i.m, i.fastRefresh, i.station, i.mixerOn, i.timing⟩ ↔
      len = 72 ∧ globalGiven b a i := by
  by_cases hl : len = 72
  · subst hl
    have hb : ∀ o, o < 72 → byte (bytesFrom b a 72) o = b (a + o) := fun o h => byte_bytesFrom b (by omega)
    have hh : ∀ o, o + 2 ≤ 72 → (half (bytesFrom b a 72) o).toNat = numAt b (a + o) 2 := fun o h => half_bytesFrom b (by omega)
    unfold globalFields globalGiven
    rw [bytesFrom_drop b (by omega), hb 0 (by omega), hb 5 (by omega), hb 6 (by omega), hb 7 (by omega), Nat.add_zero]
    constructor
    · intro h
      split at h
      · rename_i r n m f x hr hn hm hf hx
        rw [ringCount_eq_some, hh 1 (by omega)] at hn
        rw [ringCount_eq_some, hh 3 (by omega)] at hm
        rw [flagOf_eq_some] at hf hx
        split at h
        · next hs =>
          injection h with h
          injection h with e1 e2 e3 e4 e5 e6 e7
          rw [← e1, ← e2, ← e3, ← e4, ← e5, ← e6, ← e7]
          exact ⟨rfl, hr, hn, hm, hf.1, hf.2, hs.2, rfl, hx.1, hx.2, rfl⟩
        · exact absurd h (by simp)
      · exact absurd h (by simp)
    · rintro ⟨_, hr, hn, hm, hf, hf', hs, hs', hx, hx', ht⟩
      rw [← hh 1 (by omega)] at hn
      rw [← hh 3 (by omega)] at hm
      rw [hr, ringCount_eq_some.2 hn, ringCount_eq_some.2 hm, flagOf_eq_some.2 ⟨hf, hf'⟩, flagOf_eq_some.2 ⟨hx, hx'⟩]
      simp only
      rw [if_pos ⟨bytesFrom_length b a 72, hs⟩, ← hs', ht]
      rfl
  · simp only [hl, false_and, iff_false]
    unfold globalFields
    intro h
    split at h
    · split at h
      · next hs => exact hl (by simpa using hs.1)
      · exact absurd h (by simp)
    · exact absurd h (by simp)

/-- A kind's section stands in one place. -/
theorem sectionPlaced_unique {len : Nat} {kind : Byte} {o s o' s' : Nat} (h : sectionPlaced b len kind o s) (h' : sectionPlaced b len kind o' s') :
    o = o' ∧ s = s' := by
  obtain ⟨i, hk, h1, h2, _⟩ := h
  obtain ⟨i', hk', h1', h2', _⟩ := h'
  have : i = i' := (hk' i).1 ((hk i).2 rfl)
  subst this
  omega

/-- What is read of a section. -/
theorem section_bind {α : Type} {len : Nat} (h12 : b 12 = 9) (hlen : 104 ≤ len) (kind : Byte) (f : List Byte → Option α) (x : α) :
    (sectionOf (bytesFrom b 0 len) kind).bind f = some x ↔ ∃ off size, sectionPlaced b len kind off size ∧ f (bytesFrom b off size) = some x := by
  rw [Option.bind_eq_some_iff]
  constructor
  · rintro ⟨sec, hs, hf⟩
    obtain ⟨off, size, hp, rfl⟩ := (sectionOf_iff b h12 hlen kind sec).1 hs
    exact ⟨off, size, hp, hf⟩
  · rintro ⟨off, size, hp, hf⟩
    exact ⟨_, (sectionOf_iff b h12 hlen kind _).2 ⟨off, size, hp, rfl⟩, hf⟩

/-- Check 4 reads the settings the fields give, or none. -/
theorem parseImage_iff {len : Nat} (h : 13 ≤ len) (i : Image) : parseImage (bytesFrom b 0 len) = some i ↔ imageFields b len i := by
  unfold parseImage imageFields sectionsPlaced
  have hl := sectionsListed_iff b h
  cases hs : sectionsListed (bytesFrom b 0 len) with
  | false =>
    rw [hs] at hl
    simp only [Bool.not_false, if_true]
    refine ⟨fun h => absurd h (by simp), ?_⟩
    rintro ⟨off, bus, _, _, ⟨h1, h2, _⟩, _⟩
    exact absurd (hl.2 ⟨h1, h2⟩) (by simp)
  | true =>
    obtain ⟨h12, hlen⟩ := hl.1 hs
    simp only [Bool.not_true, Bool.false_eq_true, if_false, Option.pure_def, Option.bind_eq_bind]
    rw [Option.bind_eq_some_iff]
    constructor
    · rintro ⟨g, hg, h⟩
      rw [Option.bind_eq_some_iff] at h; obtain ⟨iv, hiv, h⟩ := h
      rw [Option.bind_eq_some_iff] at h; obtain ⟨wd, hwd, h⟩ := h
      rw [Option.bind_eq_some_iff] at h; obtain ⟨cu, hcu, h⟩ := h
      rw [Option.bind_eq_some_iff] at h; obtain ⟨ca, hca, h⟩ := h
      rw [Option.bind_eq_some_iff] at h; obtain ⟨so, hso, h⟩ := h
      rw [Option.bind_eq_some_iff] at h; obtain ⟨bu, hbu, h⟩ := h
      rw [Option.bind_eq_some_iff] at h; obtain ⟨cl, hcl, h⟩ := h
      rw [Option.bind_eq_some_iff] at h; obtain ⟨la, hla, h⟩ := h
      injection h with h
      rw [section_bind b h12 hlen] at hg hiv hwd hcu hca hso hbu hcl hla
      obtain ⟨o0, s0, p0, hg⟩ := hg
      obtain ⟨o1, s1, p1, hiv⟩ := hiv
      obtain ⟨o2, s2, p2, hwd⟩ := hwd
      obtain ⟨o3, s3, p3, hcu⟩ := hcu
      obtain ⟨o4, s4, p4, hca⟩ := hca
      obtain ⟨o5, s5, p5, hso⟩ := hso
      obtain ⟨o6, s6, p6, hbu⟩ := hbu
      obtain ⟨o7, s7, p7, hcl⟩ := hcl
      obtain ⟨o8, s8, p8, hla⟩ := hla
      subst h
      have hg' := (globalFields_iff b o0 s0 ⟨g.rate, g.n, g.m, g.fast, g.station, g.mixerOn, g.timing, iv, wd, cu, ca, so, bu, cl, la⟩).1 hg
      rw [readTable_iff] at hiv hwd hcu hca hso hcl hla
      rw [Option.bind_eq_some_iff] at hbu
      obtain ⟨bl, hbl, hbt⟩ := hbu
      rw [tableOf_eq_some] at hbt
      obtain ⟨_, bus, b0, b16, bs, ball⟩ := (busEntries_iff b 16 o6 s6 bl).1 hbl
      refine ⟨fun x => match x with | 0 => o0 | 1 => o1 | 2 => o2 | 3 => o3 | 4 => o4 | 5 => o5 | 6 => o6 | 7 => o7 | 8 => o8, bus, b0,
        fun x => bs x.val x.isLt, ⟨h12, hlen, hg'.1 ▸ p0, hiv.1 ▸ p1, hwd.1 ▸ p2, hcu.1 ▸ p3, hca.1 ▸ p4, hso.1 ▸ p5, ?_, hcl.1 ▸ p7, hla.1 ▸ p8⟩,
        hg'.2, ?_, ?_, ?_, ?_, ?_, ?_, ?_, ?_⟩
      · have : bus 16 - o6 = s6 := by omega
        simp only [this]
        exact p6
      · intro c
        have := hiv.2 c
        unfold portInterval at this
        rw [half_bytesFrom b (by omega), Nat.add_zero] at this
        split at this
        · next hr =>
          have e := Option.some.inj this
          exact ⟨e.symm, e ▸ hr⟩
        · exact absurd this (by simp)
      · exact fun w => (windowEntry_iff b _ _ _ _).1 (hwd.2 w)
      · exact fun l => (cueEntry_iff b _ _).1 (hcu.2 l)
      · exact fun l => (cameraEntry_iff b _ _).1 (hca.2 l)
      · exact fun l => (sourceEntry_iff b _ _).1 (hso.2 l)
      · intro x
        exact ball x.val _ (by rw [hbt]; exact list_getElem? _ x)
      · exact fun l => (classEntry_iff b _ _).1 (hcl.2 l)
      · exact fun l => (laneEntry_iff b _ _).1 (hla.2 l)
    · rintro ⟨off, bus, b0, bs, ⟨_, _, p0, p1, p2, p3, p4, p5, p6, p7, p8⟩, g0, g1, g2, g3, g4, g5, g6, g7, g8⟩
      have e0 := (section_bind b h12 hlen 0 globalFields _).2 ⟨_, _, p0, (globalFields_iff b _ _ i).2 ⟨rfl, g0⟩⟩
      have e1 := (section_bind b h12 hlen 1 (fun sec => readTable 11 2 sec fun e => portInterval (half e 0)) i.intervals).2 ⟨_, _, p1,
        (readTable_iff b _ _ _ _ _ _).2 ⟨rfl, fun c => by
          unfold portInterval
          rw [half_bytesFrom b (by omega), Nat.add_zero, ← (g1 c).1, if_pos (g1 c).2]⟩⟩
      have e2 := (section_bind b h12 hlen 2 (fun sec => readTable 32 22 sec (windowEntry i.n i.m)) i.windows).2 ⟨_, _, p2,
        (readTable_iff b _ _ _ _ _ _).2 ⟨rfl, fun c => (windowEntry_iff b _ _ _ _).2 (g2 c)⟩⟩
      have e3 := (section_bind b h12 hlen 3 (fun sec => readTable 8 8 sec cueEntry) i.cues).2 ⟨_, _, p3,
        (readTable_iff b _ _ _ _ _ _).2 ⟨rfl, fun c => (cueEntry_iff b _ _).2 (g3 c)⟩⟩
      have e4 := (section_bind b h12 hlen 4 (fun sec => readTable 8 19 sec cameraEntry) i.cameras).2 ⟨_, _, p4,
        (readTable_iff b _ _ _ _ _ _).2 ⟨rfl, fun c => (cameraEntry_iff b _ _).2 (g4 c)⟩⟩
      have e5 := (section_bind b h12 hlen 5 (fun sec => readTable 64 7 sec sourceEntry) i.sources).2 ⟨_, _, p5,
        (readTable_iff b _ _ _ _ _ _).2 ⟨rfl, fun c => (sourceEntry_iff b _ _).2 (g5 c)⟩⟩
      have hmono : ∀ j, j ≤ 16 → bus 0 ≤ bus j := by
        intro j
        induction j with
        | zero => intro _; exact Nat.le_refl _
        | succ j ihj => intro hj; have := ihj (by omega); have := bs ⟨j, by omega⟩; simp only at this; omega
      have h16 := hmono 16 (Nat.le_refl _)
      have e6 := (section_bind b h12 hlen 6 (fun sec => (busEntries 16 sec).bind (tableOf 16)) i.buses).2 ⟨_, _, p6, by
        rw [Option.bind_eq_some_iff]
        refine ⟨i.buses.list, (busEntries_iff b 16 _ _ _).2 ⟨list_length _, bus, b0, by omega, fun x hx => bs ⟨x, hx⟩, ?_⟩, tableOf_eq_some.2 rfl⟩
        intro x e he
        have hx : x < 16 := by
          have := (List.getElem?_eq_some_iff.1 he).1
          rwa [list_length] at this
        have := g6 ⟨x, hx⟩
        have hh := list_getElem? i.buses ⟨x, hx⟩
        simp only at hh this
        rw [hh] at he
        cases he
        exact this⟩
      have e7 := (section_bind b h12 hlen 7 (fun sec => readTable 4 5 sec classEntry) i.classes).2 ⟨_, _, p7,
        (readTable_iff b _ _ _ _ _ _).2 ⟨rfl, fun c => (classEntry_iff b _ _).2 (g7 c)⟩⟩
      have e8 := (section_bind b h12 hlen 8 (fun sec => readTable 4 9 sec laneEntry) i.lanes).2 ⟨_, _, p8,
        (readTable_iff b _ _ _ _ _ _).2 ⟨rfl, fun c => (laneEntry_iff b _ _).2 (g8 c)⟩⟩
      refine ⟨_, e0, ?_⟩
      simp only [e1, e2, e3, e4, e5, e6, e7, e8, Option.bind_some]

/-! ## The other checks -/

/-- An object of a table. -/
theorem nth_of_mem {α : Type} {n : Nat} (t : Table α n) (x : α) : x ∈ t.list ↔ ∃ i, t.nth i = x := by
  constructor
  · intro h
    obtain ⟨i, hi, rfl⟩ := List.mem_iff_getElem.1 h
    rw [list_length] at hi
    exact ⟨⟨i, hi⟩, by
      have := list_getElem? t ⟨i, hi⟩
      simp only at this
      rw [List.getElem?_eq_getElem] at this
      exact (Option.some.inj this).symm⟩
  · rintro ⟨i, rfl⟩
    exact List.mem_of_getElem? (list_getElem? t i)

/-- A table's objects by number. -/
theorem list_eq_map {α : Type} {n : Nat} (t : Table α n) : t.list = (List.finRange n).map t.nth := by
  refine List.ext_getElem? fun i => ?_
  by_cases hi : i < n
  · rw [list_getElem? t ⟨i, hi⟩]
    simp [hi]
  · rw [List.getElem?_eq_none (by rw [list_length]; omega), List.getElem?_eq_none (by simp; omega)]

/-- Of a list of windows no two that are OPEN overlap. -/
theorem disjointWindows_iff (l : List Window) : disjointWindows l = true ↔
    l.Pairwise fun w x => w.live = true → x.live = true → w.base + w.size ≤ x.base ∨ x.base + x.size ≤ w.base := by
  induction l with
  | nil => simp [disjointWindows]
  | cons w l ih =>
    unfold disjointWindows
    rw [List.pairwise_cons, Bool.and_eq_true, ih]
    refine and_congr_left fun _ => ?_
    simp only [Bool.or_eq_true, Bool.not_eq_true', List.all_eq_true, Bool.and_eq_false_iff, Window.touches, decide_eq_false_iff_not]
    constructor
    · intro h x hx h1 h2
      rcases h with h | h
      · rw [h1] at h; exact absurd h (by simp)
      · have := h x hx
        rw [h2] at this
        simp only [Bool.true_eq_false, false_or] at this
        omega
    · intro h
      by_cases h1 : w.live = true
      · right
        intro x hx
        by_cases h2 : x.live = true
        · right
          have := h x hx h1 h2
          omega
        · left; simpa using h2
      · left; simpa using h1

/-- The OPEN windows of a table do not overlap. -/
theorem disjoint_iff (t : Table Window 32) : disjointWindows t.list = true ↔ windowsDisjoint t := by
  rw [disjointWindows_iff, list_eq_map, List.pairwise_map]
  unfold windowsDisjoint
  constructor
  · intro h a c ha hc hne
    rw [List.pairwise_iff_getElem] at h
    rcases Nat.lt_or_gt_of_ne (fun e => hne (Fin.ext e)) with hlt | hlt
    · have := h a.val c.val (by simp) (by simp) hlt
      simp only [List.getElem_finRange, Fin.cast_mk, Fin.eta] at this
      exact this ha hc
    · have := h c.val a.val (by simp) (by simp) hlt
      simp only [List.getElem_finRange, Fin.cast_mk, Fin.eta] at this
      exact (this hc ha).symm
  · intro h
    refine List.pairwise_iff_getElem.2 fun i j hi hj hij h1 h2 => ?_
    refine h _ _ h1 h2 ?_
    simp
    omega

/-- Exactly one number has a property. -/
theorem filter_length_one {n : Nat} (q : Fin n → Bool) : ((List.finRange n).filter q).length = 1 ↔ ∃ c, ∀ w, q w = true ↔ w = c := by
  have hm : ∀ w, w ∈ (List.finRange n).filter q ↔ q w = true := fun w => by simp
  have hnd : ((List.finRange n).filter q).Nodup := (List.nodup_finRange n).filter _
  constructor
  · intro h
    obtain ⟨c, hc⟩ := List.length_eq_one_iff.1 h
    exact ⟨c, fun w => by rw [← hm, hc, List.mem_singleton]⟩
  · rintro ⟨c, hc⟩
    match hl : (List.finRange n).filter q, hnd, hm with
    | [], _, hm => exact absurd ((hm c).2 ((hc c).2 rfl)) (by simp)
    | [x], _, _ => rfl
    | x :: y :: l, hnd, hm =>
      have hx := (hc x).1 ((hm x).1 (by simp))
      have hy := (hc y).1 ((hm y).1 (by simp))
      rw [hx, hy] at hnd
      simp at hnd

/-- At most one number has a property. -/
theorem filter_length_le_one {n : Nat} (q : Fin n → Bool) :
    ((List.finRange n).filter q).length ≤ 1 ↔ ∀ v w, q v = true → q w = true → v = w := by
  have hm : ∀ w, w ∈ (List.finRange n).filter q ↔ q w = true := fun w => by simp
  have hnd : ((List.finRange n).filter q).Nodup := (List.nodup_finRange n).filter _
  match hl : (List.finRange n).filter q, hnd, hm with
  | [], _, hm => exact ⟨fun _ v w hv _ => absurd ((hm v).2 hv) (by simp), fun _ => Nat.zero_le _⟩
  | [x], _, hm =>
    refine ⟨fun _ v w hv hw => ?_, fun _ => Nat.le_refl _⟩
    rw [List.mem_singleton.1 ((hm v).2 hv), List.mem_singleton.1 ((hm w).2 hw)]
  | x :: y :: l, hnd, hm =>
    refine ⟨fun h => absurd h (by simp), fun h => ?_⟩
    rw [h x y ((hm x).1 (by simp)) ((hm y).1 (by simp))] at hnd
    simp at hnd

/-- A contribution list in ascending source order without a repeated source. -/
theorem ascending_iff : ∀ l : List Contribution, ascending l = true ↔ l.Pairwise fun x y => x.source < y.source
  | [] => by simp [ascending]
  | [x] => by simp [ascending]
  | x :: y :: l => by
    unfold ascending
    rw [Bool.and_eq_true, ascending_iff (y :: l), List.pairwise_cons (a := x), decide_eq_true_eq]
    constructor
    · rintro ⟨h, hp⟩
      refine ⟨fun z hz => ?_, hp⟩
      rcases List.mem_cons.1 hz with rfl | hz
      · exact h
      · exact Fin.lt_trans h ((List.pairwise_cons.1 hp).1 z hz)
    · rintro ⟨h, hp⟩
      exact ⟨h y (by simp), hp⟩

/-- The OPEN windows of a kind, by number. -/
theorem openCount_eq (t : Table Window 32) (k : WindowKind) :
    openCount t k = ((List.finRange 32).filter fun w => (t.nth w).live && (t.nth w).kind == k).length := by
  unfold openCount
  rw [list_eq_map, List.filter_map, List.length_map]
  rfl

/-- Checks 5 and 6. -/
theorem consistent_iff (i : Image) (h : ∀ w, (i.windows.nth w).state = .opened ∨ (i.windows.nth w).state = .closed) :
    i.consistent = true ↔ imageAgrees i := by
  have hlive : ∀ w k, ((i.windows.nth w).live && (i.windows.nth w).kind == k) = true ↔
      ((i.windows.nth w).state = .opened ∧ (i.windows.nth w).kind = k) := by
    intro w k
    rw [Bool.and_eq_true, beq_iff_eq]
    refine and_congr_left fun _ => ?_
    unfold Window.live
    rcases h w with e | e <;> rw [e] <;> decide
  have hcam : ∀ k, cameraWindowsFit i.windows k (i.cameras.nth k).2 = true ↔ cameraFits i k (i.cameras.nth k).2 := by
    intro k
    unfold cameraWindowsFit cameraFits CameraSettings.slotSize
    simp only [Bool.and_eq_true, beq_iff_eq, decide_eq_true_eq, and_assoc]
  unfold Image.consistent imageAgrees
  simp only [Bool.and_eq_true, disjoint_iff, openCount_eq, beq_iff_eq, filter_length_one, decide_eq_true_eq, filter_length_le_one,
    List.all_eq_true, List.mem_finRange, true_implies, Bool.or_eq_true, Bool.not_eq_true', hlive, hcam, and_assoc, nth_of_mem,
    forall_exists_index, forall_apply_eq_imp_iff, ascending_iff, sourceWindowFits, busWindowFits]
  have himp : ∀ (x : Bool) (P : Prop), (x = false ∨ P) ↔ (x = true → P) := fun x P => by cases x <;> simp
  simp only [himp, Config.sendBusMax]

/-- An image's window is OPEN or CLOSED. -/
theorem windowGiven_state {b : Nat → Byte} {n m a : Nat} {w : Window} (h : windowGiven b n m a w) :
    w.state = .opened ∨ w.state = .closed := by
  rw [h.2.2.2.1]
  split
  · exact .inl rfl
  · exact .inr rfl

/-- Checks 1 to 3. -/
theorem imageWhole_iff (b : Nat → Byte) {len : Nat} (hl : len ≤ 65536) (h4 : numAt b 4 4 = len) :
    imageWhole (bytesFrom b 0 len) = true ↔ imageHeaded b len := by
  unfold imageWhole imageHeaded imageSound
  rw [bytesFrom_length]
  simp only [Bool.and_eq_true, beq_iff_eq, decide_eq_true_eq]
  rw [show Config.imageMax = 65536 from rfl]
  by_cases h32 : 32 ≤ len
  · have ht : (bytesFrom b 0 len).take 4 = imageMarker ↔ b 0 = 0x4F ∧ b 1 = 0x4A ∧ b 2 = 0x32 ∧ b 3 = 0x36 := by
      have : (bytesFrom b 0 len).take 4 = bytesFrom b 0 4 := by
        have := bytesFrom_piece b (a := 0) (n := len) (o := 0) (k := 4) (by omega)
        simpa using this
      rw [this]
      rw [bytesFrom_succ, bytesFrom_succ, bytesFrom_succ, bytesFrom_succ]
      simp [imageMarker, bytesFrom]
    have hw : (Record.word (bytesFrom b 0 len) 8).toNat = numAt b 8 4 := by
      rw [word_bytesFrom b (by omega), Nat.zero_add]
    have hc : imageCheck (bytesFrom b 0 len) = crc ((List.range len).map fun a => if 8 ≤ a ∧ a < 12 then 0 else b a) := by
      unfold imageCheck
      congr 1
      refine List.ext_getElem? fun i => ?_
      have h8 : (bytesFrom b 0 len).take 8 = bytesFrom b 0 8 := by
        have := bytesFrom_piece b (a := 0) (n := len) (o := 0) (k := 8) (by omega)
        simpa using this
      rw [h8, bytesFrom_drop b (by omega), List.append_assoc]
      by_cases hi : i < len
      · rw [List.getElem?_map, List.getElem?_range hi, Option.map_some]
        by_cases h1 : i < 8
        · rw [List.getElem?_append_left (by simpa using h1), bytesFrom_getElem?, if_pos h1, if_neg (by omega), Nat.zero_add]
        · rw [List.getElem?_append_right (by simpa using h1), bytesFrom_length]
          have hz : (zeros 4).length = 4 := rfl
          by_cases h2 : i < 12
          · rw [List.getElem?_append_left (by omega), if_pos (by omega)]
            unfold zeros
            rw [List.getElem?_replicate, if_pos (by omega)]
          · rw [List.getElem?_append_right (by omega), bytesFrom_getElem?, hz, if_pos (by omega), if_neg (by omega)]
            congr 2
            omega
      · rw [List.getElem?_eq_none (by simp only [List.length_append, bytesFrom_length, zeros, List.length_replicate]; omega), List.getElem?_eq_none (by simp; omega)]
    rw [ht, hc]
    constructor
    · rintro ⟨⟨⟨⟨⟨a0, a1, a2, a3⟩, _⟩, hk⟩, _⟩, _⟩
      exact ⟨a0, a1, a2, a3, h4, h32, hl, by rw [← hw, hk]⟩
    · rintro ⟨a0, a1, a2, a3, _, _, _, hk⟩
      exact ⟨⟨⟨⟨⟨a0, a1, a2, a3⟩, by omega⟩, BitVec.eq_of_toNat_eq (hw.trans hk)⟩, h32⟩, hl⟩
  · constructor
    · rintro ⟨⟨_, h⟩, _⟩
      exact absurd h h32
    · rintro ⟨_, _, _, _, _, h, _⟩
      exact absurd h h32

/-- What the checks of the image read accept. -/
theorem checkedImage_iff (flash : Memory) (stn1 stn0 : Bool) (copy : Image) :
    checkedImage flash stn1 stn0 = some copy ↔ imageHeld (fun a => flash.readByte 255 a) stn1 stn0 copy := by
  have hlen : imageLength flash = numAt (fun a => flash.readByte 255 a) 4 4 := by
    unfold imageLength
    rw [readBytes_bytesFrom, leNat_bytesFrom]
    rfl
  have hbytes : ∀ n, imageBytes flash n = bytesFrom (fun a => flash.readByte 255 a) 0 n := fun n => readBytes_bytesFrom _ _ _ _
  unfold checkedImage imageHeld
  simp only [hbytes, hlen]
  generalize hb : (fun a => flash.readByte 255 a) = b
  constructor
  · intro h
    split at h
    · next hh =>
      rw [imageWhole_iff b hh.1 rfl] at hh
      split at h
      · rename_i i hp
        split at h
        · next hc =>
          cases h
          have h32 := hh.2.2.2.2.2.2.1
          rw [parseImage_iff b (by omega)] at hp
          have hst : ∀ w, (copy.windows.nth w).state = .opened ∨ (copy.windows.nth w).state = .closed := by
            obtain ⟨_, _, _, _, _, _, _, hw, _⟩ := hp
            exact fun w => windowGiven_state (hw w)
          exact ⟨_, hh.2, hp, (consistent_iff copy hst).1 hc.1, hc.2⟩
        · exact absurd h (by simp)
      · exact absurd h (by simp)
    · exact absurd h (by simp)
  · rintro ⟨len, hh, hp, ha, hs⟩
    have h4 := hh.2.2.2.2.1
    have h32 := hh.2.2.2.2.2.1
    have hl := hh.2.2.2.2.2.2.1
    rw [h4, if_pos ⟨hl, (imageWhole_iff b hl h4).2 hh⟩]
    have hst : ∀ w, (copy.windows.nth w).state = .opened ∨ (copy.windows.nth w).state = .closed := by
      obtain ⟨_, _, _, _, _, _, _, hw, _⟩ := hp
      exact fun w => windowGiven_state (hw w)
    rw [(parseImage_iff b (by omega) copy).2 hp]
    simp only
    rw [if_pos ⟨(consistent_iff copy hst).2 ha, hs⟩]
end Sys2Proof.Machine
end

