-- ==== Sys2Proof/Laws/Lanes.lean ====
section
/-! SUPPORT. What beginning a transmission can do (R161), said once for every event that ends with it. -/

namespace Sys2Proof.Machine

theorem Lane.mayTransmit_iff (r : Lane) :
    r.mayTransmit = true ↔ r.state = .up ∧ r.modemHold = false ∧ r.sending = none ∧ r.breakEnd = none := by
  simp [Lane.mayTransmit, and_assoc]

/-- `transmitStart` does to a part what R161 says, and nothing else. -/
theorem Part.begins_transmitStart (l : Fin 4) (p : Part) : Part.begins l p (p.transmitStart l) := by
  unfold Part.begins Part.transmitStart
  dsimp only
  refine ⟨fun h => ?_, fun f rest hq hs hm hn hb => ?_⟩
  · cases hq : (p.lanes.nth l).queue with
    | nil => rfl
    | cons f rest =>
      have hm : (p.lanes.nth l).mayTransmit = false := by
        rw [← Bool.not_eq_true, Lane.mayTransmit_iff]
        rintro ⟨a, b, c, d⟩
        simp [hq, a, b, c, d] at h
      simp [hm]
  · have hm' : (p.lanes.nth l).mayTransmit = true := (Lane.mayTransmit_iff _).mpr ⟨hs, hm, hn, hb⟩
    rw [hq]
    simp only [hm', if_true]
    have ht : (p.lanes.nth l).bitPeriod = 12 * (p.lanes.nth l).cfg.divider := Nat.mul_comm _ _
    rw [← ht]
    cases f.kind <;> rfl

/-- A frame queued on a lane begins at once where the lane is idle. -/
theorem Part.begins_queueFrame (l : Fin 4) (f : TxFrame) (p : Part) :
    Part.begins l (p.updLane l fun r => { r with queue := r.queue ++ [f] }) (p.queueFrame l f) :=
  Part.begins_transmitStart l _

/-- Beginning a transmission changes the lanes and the send engine alone. -/
theorem Part.transmitStart_frame (l : Fin 4) (p : Part) :
    p.transmitStart l = { p with lanes := (p.transmitStart l).lanes, sender := (p.transmitStart l).sender } := by
  unfold Part.transmitStart
  dsimp only
  (repeat' split) <;> rfl

/-- It does not matter whether the command engine changes before or after a transmission begins. -/
theorem Part.begins_setCmd {l : Fin 4} {p q : Part} (c : Commander) (h : Part.begins l p q) :
    Part.begins l (p.setCmd c) (q.setCmd c) :=
  ⟨fun hn => by rw [h.1 hn], fun f rest a b c d e => by rw [h.2 f rest a b c d e]; rfl⟩

/-- It does not matter whether the send engine counts before or after a transmission begins. -/
theorem Part.begins_countSend {l : Fin 4} {p q : Part} (f : SendCounters → SendCounters) (h : Part.begins l p q) :
    Part.begins l (p.countSend f) (q.countSend f) :=
  ⟨fun hn => by rw [h.1 hn], fun x rest a b c d e => by
    rw [h.2 x rest a b c d e]
    cases x.kind <;> rfl⟩

end Sys2Proof.Machine
end

