-- ==== Sys2Proof/Laws/Memory.lean ====
section
/-! SUPPORT. The addressed stores: every operation keeps the canonical form; what a byte reads as after a
write; bytes outside a write read as before. -/

namespace Sys2Proof.Machine.Memory

variable {blank : Byte}

/-- Lowering the bound of a canonical list keeps it canonical. -/
theorem wfFrom_mono {lo lo' : Nat} {m : Memory} (h : wfFrom blank lo' m = true) (hl : lo ≤ lo') : wfFrom blank lo m = true := by
  cases m with
  | nil => rfl
  | cons c rest =>
    obtain ⟨k, b⟩ := c
    simp only [wfFrom, Bool.and_eq_true, decide_eq_true_eq] at h ⊢
    exact ⟨⟨by omega, h.1.2⟩, h.2⟩

/-- A byte written keeps the canonical form. -/
theorem writeByte_wfFrom {lo : Nat} {m : Memory} {a : Nat} (v : Byte) (h : wfFrom blank lo m = true) (ha : lo ≤ a) :
    wfFrom blank lo (writeByte blank m a v) = true := by
  induction m generalizing lo with
  | nil =>
    unfold writeByte
    split
    · rfl
    · next hv => simp [wfFrom, ha, hv]
  | cons c rest ih =>
    obtain ⟨k, b⟩ := c
    simp only [wfFrom, Bool.and_eq_true, decide_eq_true_eq] at h
    unfold writeByte
    split
    · next hak =>
      split
      · simp [wfFrom, h]
      · next hv => simp [wfFrom, h, ha, hv]; omega
    · next hak =>
      split
      · next he =>
        subst he
        split
        · exact wfFrom_mono h.2 (by omega)
        · next hv => simp [wfFrom, h, hv]
      · next he =>
        have := ih h.2 (by omega : k + 1 ≤ a)
        simp [wfFrom, h, this]

/-- A byte written keeps the canonical form of a whole store. -/
theorem writeByte_wf {m : Memory} (a : Nat) (v : Byte) (h : wf blank m = true) : wf blank (writeByte blank m a v) = true :=
  writeByte_wfFrom v h (Nat.zero_le a)

/-- Masked bytes written keep the canonical form. -/
theorem writeMasked_wf {m : Memory} (a : Nat) (bs : List (Byte × Bool)) (h : wf blank m = true) :
    wf blank (writeMasked blank m a bs) = true := by
  induction bs generalizing m a with
  | nil => exact h
  | cons x rest ih =>
    obtain ⟨b, en⟩ := x
    apply ih
    split
    · exact writeByte_wf a b h
    · exact h

/-- Bytes written keep the canonical form. -/
theorem writeBytes_wf {m : Memory} (a : Nat) (bs : List Byte) (h : wf blank m = true) : wf blank (writeBytes blank m a bs) = true := by
  induction bs generalizing m a with
  | nil => exact h
  | cons b rest ih => exact ih (a + 1) (writeByte_wf a b h)

/-- Dropping cells keeps the canonical form. -/
theorem filter_wfFrom {lo : Nat} {m : Memory} (f : Host.Cell → Bool) (h : wfFrom blank lo m = true) :
    wfFrom blank lo (m.filter f) = true := by
  induction m generalizing lo with
  | nil => rfl
  | cons c rest ih =>
    obtain ⟨k, b⟩ := c
    simp only [wfFrom, Bool.and_eq_true, decide_eq_true_eq] at h
    rw [List.filter_cons]
    split
    · simp [wfFrom, h, ih h.2]
    · exact wfFrom_mono (ih h.2) (by omega)

/-- An erase keeps the canonical form. -/
theorem erase_wf {m : Memory} (a n : Nat) (h : wf blank m = true) : wf blank (erase m a n) = true := filter_wfFrom _ h

/-- Below the bound of a canonical list every byte is blank. -/
theorem readByte_below {lo a : Nat} {m : Memory} (h : wfFrom blank lo m = true) (ha : a < lo) : readByte blank m a = blank := by
  induction m generalizing lo with
  | nil => rfl
  | cons c rest ih =>
    obtain ⟨k, b⟩ := c
    simp only [wfFrom, Bool.and_eq_true, decide_eq_true_eq] at h
    unfold readByte
    rw [if_neg (by omega)]
    exact ih h.2 (by omega)

/-- Reading a list with one more cell in front. -/
theorem readByte_cons (k : Nat) (b : Byte) (rest : Memory) (x : Nat) :
    readByte blank ((k, b) :: rest) x = if k = x then b else readByte blank rest x := rfl

/-- What a byte reads as after one byte is written in a canonical list. -/
theorem readByte_writeByte_from {lo : Nat} {m : Memory} (a : Nat) (v : Byte) (x : Nat) (h : wfFrom blank lo m = true) :
    readByte blank (writeByte blank m a v) x = if x = a then v else readByte blank m x := by
  induction m generalizing lo with
  | nil =>
    unfold writeByte
    by_cases hv : v = blank
    · rw [if_pos hv]; split <;> simp [readByte, hv]
    · rw [if_neg hv, readByte_cons]
      by_cases hx : x = a
      · simp [hx]
      · rw [if_neg hx, if_neg (Ne.symm hx)]
  | cons c rest ih =>
    obtain ⟨k, b⟩ := c
    simp only [wfFrom, Bool.and_eq_true, decide_eq_true_eq] at h
    have hbelow : ∀ y, y ≤ k → readByte blank rest y = blank := fun y hy => readByte_below h.2 (by omega)
    unfold writeByte
    by_cases hak : a < k
    · rw [if_pos hak]
      by_cases hv : v = blank
      · rw [if_pos hv]
        by_cases hx : x = a
        · rw [if_pos hx, readByte_cons, if_neg (by omega), hbelow x (by omega), hv]
        · rw [if_neg hx]
      · rw [if_neg hv, readByte_cons]
        by_cases hx : x = a
        · rw [if_pos hx.symm, if_pos hx]
        · rw [if_neg (Ne.symm hx), if_neg hx]
    · rw [if_neg hak]
      by_cases he : a = k
      · rw [if_pos he]
        by_cases hv : v = blank
        · rw [if_pos hv]
          by_cases hx : x = a
          · rw [if_pos hx, hbelow x (by omega), hv]
          · rw [if_neg hx, readByte_cons, if_neg (by omega)]
        · rw [if_neg hv, readByte_cons, readByte_cons]
          by_cases hx : x = a
          · rw [if_pos hx.symm, if_pos hx]
          · rw [if_neg (Ne.symm hx), if_neg hx, if_neg (by omega)]
      · rw [if_neg he, readByte_cons, readByte_cons, ih h.2]
        by_cases hk : k = x
        · rw [if_pos hk, if_pos hk, if_neg (by omega)]
        · rw [if_neg hk, if_neg hk]

/-- What a byte reads as after one byte is written. -/
theorem readByte_writeByte {m : Memory} (a : Nat) (v : Byte) (x : Nat) (h : wf blank m = true) :
    readByte blank (writeByte blank m a v) x = if x = a then v else readByte blank m x :=
  readByte_writeByte_from a v x h

/-- What masked bytes leave at a place: the byte whose enable is set, else what was there. -/
def maskedByte (bs : List (Byte × Bool)) (i : Nat) (old : Byte) : Byte :=
  match bs[i]? with
  | some (b, true) => b
  | _ => old

/-- What a byte reads as after masked bytes are written. -/
theorem readByte_writeMasked {m : Memory} (a : Nat) (bs : List (Byte × Bool)) (x : Nat) (h : wf blank m = true) :
    readByte blank (writeMasked blank m a bs) x =
      if a ≤ x then maskedByte bs (x - a) (readByte blank m x) else readByte blank m x := by
  induction bs generalizing m a with
  | nil => simp [writeMasked, maskedByte]
  | cons y rest ih =>
    obtain ⟨b, en⟩ := y
    have hw : wf blank (if en then writeByte blank m a b else m) = true := by
      split
      · exact writeByte_wf a b h
      · exact h
    have hm : readByte blank (if en then writeByte blank m a b else m) x =
        if x = a ∧ en = true then b else readByte blank m x := by
      cases en
      · simp
      · simp [readByte_writeByte a b x h]
    unfold writeMasked
    rw [ih (a + 1) hw, hm]
    by_cases hlt : x < a
    · have h1 : ¬ (a + 1 ≤ x) := by omega
      have h2 : ¬ (a ≤ x) := by omega
      have h3 : ¬ (x = a ∧ en = true) := by omega
      rw [if_neg h1, if_neg h2, if_neg h3]
    · by_cases he : x = a
      · subst he
        have h1 : ¬ (x + 1 ≤ x) := by omega
        rw [if_neg h1, if_pos (Nat.le_refl x)]
        cases en <;> simp [maskedByte]
      · have h1 : a + 1 ≤ x := by omega
        have h2 : a ≤ x := by omega
        have h3 : ¬ (x = a ∧ en = true) := by omega
        have hi : x - a = (x - (a + 1)) + 1 := by omega
        rw [if_pos h1, if_pos h2, if_neg h3, hi]
        simp [maskedByte]

/-- What a byte reads as after bytes are written. -/
theorem readByte_writeBytes {m : Memory} (a : Nat) (bs : List Byte) (x : Nat) (h : wf blank m = true) :
    readByte blank (writeBytes blank m a bs) x =
      if a ≤ x then (bs[x - a]?).getD (readByte blank m x) else readByte blank m x := by
  induction bs generalizing m a with
  | nil => simp [writeBytes]
  | cons b rest ih =>
    unfold writeBytes
    rw [ih (a + 1) (writeByte_wf a b h), readByte_writeByte a b x h]
    by_cases hlt : x < a
    · have h1 : ¬ (a + 1 ≤ x) := by omega
      have h2 : ¬ (a ≤ x) := by omega
      have h3 : ¬ (x = a) := by omega
      rw [if_neg h1, if_neg h2, if_neg h3]
    · by_cases he : x = a
      · subst he
        have h1 : ¬ (x + 1 ≤ x) := by omega
        rw [if_neg h1, if_pos (Nat.le_refl x)]; simp
      · have h1 : a + 1 ≤ x := by omega
        have h2 : a ≤ x := by omega
        have hi : x - a = (x - (a + 1)) + 1 := by omega
        rw [if_pos h1, if_pos h2, if_neg he, hi, List.getElem?_cons_succ]

/-- What a byte reads as after an erase. -/
theorem readByte_erase {m : Memory} (a n x : Nat) :
    readByte blank (erase m a n) x = if a ≤ x ∧ x < a + n then blank else readByte blank m x := by
  induction m with
  | nil => simp [erase, readByte]
  | cons c rest ih =>
    obtain ⟨k, b⟩ := c
    unfold erase at ih ⊢
    rw [List.filter_cons, readByte_cons]
    by_cases hk : a ≤ k ∧ k < a + n
    · rw [if_neg (by simp [hk]), ih]
      by_cases hx : a ≤ x ∧ x < a + n
      · rw [if_pos hx, if_pos hx]
      · rw [if_neg hx, if_neg hx, if_neg (by omega)]
    · have hk' : (!(decide (a ≤ k) && decide (k < a + n))) = true := by
        simp only [Bool.not_eq_true', Bool.and_eq_false_iff, decide_eq_false_iff_not]
        omega
      rw [if_pos hk', readByte_cons, ih]
      by_cases he : k = x
      · rw [if_pos he, if_pos he, if_neg (by omega)]
      · rw [if_neg he, if_neg he]

end Sys2Proof.Machine.Memory
end

