-- ==== Sys2Proof/Laws/Passes.lean ====
section
/-! SUPPORT. What the start of a mix pass can do (R106), said once: the source plan, the sources it leaves, and the notices of
the late ones. -/

namespace Sys2Proof.Machine

/-- A ramp step keeps a contribution's source. -/
theorem Contribution.ramped_source (c : Contribution) : c.ramped.source = c.source := by
  unfold Contribution.ramped
  split
  · rfl
  · split <;> rfl

theorem mem_insertNotice (n m : Cause × Nat) (l : List (Cause × Nat)) : m ∈ insertNotice n l ↔ m = n ∨ m ∈ l := by
  induction l with
  | nil => simp [insertNotice]
  | cons x rest ih =>
    unfold insertNotice
    split
    · simp
    · simp only [List.mem_cons, ih]
      constructor <;> rintro (h | h | h) <;> simp [h]

/-- A raise keeps what was pending and leaves its own notice pending. -/
theorem mem_raised (c : Commander) (n m : Cause × Nat) : m ∈ (c.raised n).notices ↔ m = n ∨ m ∈ c.notices := by
  unfold Commander.raised
  split
  · next h => exact ⟨Or.inr, fun e => e.elim (fun e => e ▸ h) id⟩
  · exact mem_insertNotice n m c.notices

/-- The source is used by the pass (R106 step 3). -/
def Part.uses (p : Part) (buses : Table BusSnapshot 16) (x : Fin 64) : Bool :=
  (p.mixer.sources.nth x).cfg.on && inActiveBus buses x

/-- The slot the pass for block `n` chooses of the source is fresh. -/
def Source.freshAt (r : Source) (n : Word) : Bool := r.fresh.getLsbD (r.cfg.slotFor n)

/-- A source once the plan has passed it: late, taken or drained, or untouched while OFF. -/
def Source.planned (n : Word) (used : Bool) (r : Source) : Source :=
  if r.cfg.on then
    if used && !r.freshAt n then { r with late := count r.late } else { r with fresh := clearFresh r.fresh (r.cfg.slotFor n) }
  else r

/-- Everything the plan's step for one source can do. -/
theorem planSource_says (n : Word) (buses : Table BusSnapshot 16) (plan : List (Fin 64 × Nat × Bool)) (p : Part) (x : Fin 64) :
    let r := p.mixer.sources.nth x
    ∃ s c, Part.planSource n buses (plan, p) x =
        (plan ++ (if p.uses buses x then [(x, r.cfg.slotFor n, r.freshAt n)] else []),
          { p with mixer := { p.mixer with sources := s }, cmd := c }) ∧
      s.nth x = r.planned n (p.uses buses x) ∧ (∀ y, y ≠ x → s.nth y = p.mixer.sources.nth y) ∧
      (∀ m, m ∈ p.cmd.notices → m ∈ c.notices) ∧
      (p.uses buses x = true → r.freshAt n = false → (Cause.mix, x.val) ∈ c.notices) ∧
      ((p.uses buses x = true → r.freshAt n = true) → c = p.cmd) := by
  intro r
  have hr : p.mixer.sources.nth x = r := rfl
  by_cases hon : r.cfg.on = true
  · cases hin : inActiveBus buses x with
    | false =>
      have hu : p.uses buses x = false := by unfold Part.uses; rw [hin, Bool.and_false]
      refine ⟨p.mixer.sources.upd x fun r => { r with fresh := clearFresh r.fresh (p.mixer.sources.nth x |>.cfg.slotFor n) }, p.cmd,
        ?_, ?_, fun y hy => Table.nth_upd_other _ _ (Ne.symm hy), fun _ h => h, fun h => absurd (hu.symm.trans h) (by decide), fun _ => rfl⟩
      · unfold Part.planSource
        dsimp only
        rw [hr, if_pos hon, hin, hu, if_neg (by decide), if_neg (by decide), List.append_nil]
        rfl
      · rw [Table.nth_upd_same, hr, hu]; unfold Source.planned; rw [if_pos hon]; rfl
    | true =>
      have hu : p.uses buses x = true := by unfold Part.uses; rw [hin, Bool.and_true]; exact hon
      cases hf : r.freshAt n with
      | true =>
        refine ⟨p.mixer.sources.upd x fun r => { r with fresh := clearFresh r.fresh (p.mixer.sources.nth x |>.cfg.slotFor n) }, p.cmd,
          ?_, ?_, fun y hy => Table.nth_upd_other _ _ (Ne.symm hy), fun _ h => h, fun _ h => absurd h (by decide), fun _ => rfl⟩
        · have hb : r.fresh.getLsbD (r.cfg.slotFor n) = true := hf
          unfold Part.planSource
          dsimp only
          rw [hr, if_pos hon, hin, hu, if_pos rfl, if_pos rfl, if_pos hb]
          rfl
        · rw [Table.nth_upd_same, hr, hu]; unfold Source.planned; rw [if_pos hon, hf]; rfl
      | false =>
        refine ⟨p.mixer.sources.upd x fun r => { r with late := count r.late }, p.cmd.raised (.mix, x.val),
          ?_, ?_, fun y hy => Table.nth_upd_other _ _ (Ne.symm hy), fun m h => (mem_raised ..).mpr (Or.inr h),
          fun _ _ => (mem_raised ..).mpr (Or.inl rfl), fun h => absurd (h hu) (by decide)⟩
        · have hb : ¬ r.fresh.getLsbD (r.cfg.slotFor n) = true := by
            have : r.fresh.getLsbD (r.cfg.slotFor n) = false := hf
            rw [this]; decide
          unfold Part.planSource
          dsimp only
          rw [hr, if_pos hon, hin, hu, if_pos rfl, if_pos rfl, if_neg hb, raise_eq]
          rfl
        · rw [Table.nth_upd_same, hr, hu]; unfold Source.planned; rw [if_pos hon, hf]; rfl
  · have hu : p.uses buses x = false := by unfold Part.uses; rw [hr]; simp [hon]
    refine ⟨p.mixer.sources, p.cmd, ?_, ?_, fun _ _ => rfl, fun _ h => h, fun h => absurd (hu.symm.trans h) (by decide), fun _ => rfl⟩
    · unfold Part.planSource
      dsimp only
      rw [hr, if_neg hon, hu, if_neg (by decide), List.append_nil]
    · rw [hr]; unfold Source.planned; rw [if_neg hon]

/-- Everything the plan can do over sources named once each (R106 steps 3 and 4): the used ones are planned in their order,
every one of them is left as the plan leaves it, the late ones are notified, and nothing else changes. -/
theorem planSources_say (n : Word) (buses : Table BusSnapshot 16) (l : List (Fin 64)) (plan : List (Fin 64 × Nat × Bool)) (p : Part)
    (h : l.Nodup) :
    let r (x : Fin 64) := p.mixer.sources.nth x
    ∃ s c, l.foldl (Part.planSource n buses) (plan, p) =
        (plan ++ (l.filter (p.uses buses)).map (fun x => (x, (r x).cfg.slotFor n, (r x).freshAt n)),
          { p with mixer := { p.mixer with sources := s }, cmd := c }) ∧
      (∀ x, x ∈ l → s.nth x = (r x).planned n (p.uses buses x)) ∧ (∀ x, x ∉ l → s.nth x = r x) ∧
      (∀ m, m ∈ p.cmd.notices → m ∈ c.notices) ∧
      (∀ x, x ∈ l → p.uses buses x = true → (r x).freshAt n = false → (Cause.mix, x.val) ∈ c.notices) ∧
      ((∀ x, x ∈ l → p.uses buses x = true → (r x).freshAt n = true) → c = p.cmd) := by
  intro r
  induction l generalizing plan p with
  | nil =>
    exact ⟨p.mixer.sources, p.cmd, by simp, by simp, fun _ _ => rfl, fun _ h => h, by simp, fun _ => rfl⟩
  | cons a rest ih =>
    obtain ⟨ha, hrest⟩ := List.nodup_cons.mp h
    obtain ⟨s1, c1, e1, hs1, hs1', hm1, hl1, hc1⟩ := planSource_says n buses plan p a
    obtain ⟨s2, c2, e2, hs2, hs2', hm2, hl2, hc2⟩ :=
      ih (plan ++ (if p.uses buses a then [(a, (r a).cfg.slotFor n, (r a).freshAt n)] else []))
        { p with mixer := { p.mixer with sources := s1 }, cmd := c1 } hrest
    have hsame : ∀ x, x ∈ rest → s1.nth x = r x := fun x hx => hs1' x fun e => ha (e ▸ hx)
    have huse : ∀ x, x ∈ rest → Part.uses { p with mixer := { p.mixer with sources := s1 }, cmd := c1 } buses x = p.uses buses x := by
      intro x hx
      have : s1.nth x = p.mixer.sources.nth x := hsame x hx
      simp only [Part.uses, this]
    refine ⟨s2, c2, ?_, ?_, ?_, fun m hm => hm2 m (hm1 m hm), ?_, ?_⟩
    · rw [List.foldl_cons, e1]
      refine e2.trans ?_
      have hf : rest.filter (Part.uses { p with mixer := { p.mixer with sources := s1 }, cmd := c1 } buses) =
          rest.filter (p.uses buses) := List.filter_congr huse
      rw [hf, List.append_assoc]
      congr 2
      rw [List.filter_cons]
      have hmap : (rest.filter (p.uses buses)).map (fun x => (x, (s1.nth x).cfg.slotFor n, (s1.nth x).freshAt n)) =
          (rest.filter (p.uses buses)).map (fun x => (x, (r x).cfg.slotFor n, (r x).freshAt n)) :=
        List.map_congr_left fun x hx => by rw [hsame x (List.mem_filter.mp hx |>.1)]
      rw [hmap]
      split <;> rfl
    · intro x hx
      rcases List.mem_cons.mp hx with e | hx
      · subst e
        exact (hs2' x ha).trans hs1
      · have := hs2 x hx
        rw [this, huse x hx]
        exact congrArg (Source.planned n (p.uses buses x)) (hsame x hx)
    · intro x hx
      have hx' : x ≠ a ∧ x ∉ rest := ⟨fun e => hx (e ▸ List.mem_cons_self ..), fun e => hx (List.mem_cons_of_mem _ e)⟩
      exact (hs2' x hx'.2).trans (hs1' x hx'.1)
    · intro x hx hu hf
      rcases List.mem_cons.mp hx with e | hx
      · subst e
        exact hm2 _ (hl1 hu hf)
      · refine hl2 x hx ((huse x hx).trans hu) ?_
        exact (congrArg (Source.freshAt · n) (hsame x hx)).trans hf
    · intro hall
      have : c1 = p.cmd := hc1 (hall a (List.mem_cons_self ..))
      refine (hc2 fun x hx hu => ?_).trans this
      exact (congrArg (Source.freshAt · n) (hsame x hx)).trans (hall x (List.mem_cons_of_mem _ hx) ((huse x hx).symm.trans hu))

end Sys2Proof.Machine
end

