-- ==== Sys2Proof/Laws/Reports.lean ====
section
/-! SUPPORT. The reports of READ COUNTERS and READ METERS (R113, R182, R192): a list that repeats per object by number, and an
optional field whose bytes have the field's width. -/

namespace Sys2Proof.Machine

/-- A number field has its width. -/
theorem leBytes_length (k n : Nat) : (leBytes k n).length = k := by
  induction k generalizing n with
  | zero => rfl
  | succ k ih => rw [leBytes, List.length_cons, ih]

/-- A list that repeats per object, by the objects' numbers. -/
theorem perObject_eq {α : Type} {n : Nat} (t : Table α n) (f : α → List Byte) :
    perObject t f = (List.finRange n).flatMap fun k => f (t.nth k) := by
  rw [perObject, list_eq_map, List.flatMap_map]

/-- An optional field whose bytes have its width is not cut and not filled (R192). -/
theorem optional_map {α : Type} (k : Nat) (x : Option α) (f : α → List Byte) (width : ∀ a, (f a).length = k) :
    optional k (x.map f) = match x.map f with
      | none => zeros (1 + k)
      | some bytes => 1 :: bytes := by
  cases x with
  | none => simp [optional, zeros, Nat.add_comm 1 k, List.replicate_succ]
  | some a => simp [optional, padTo, zeros, width a, List.take_of_length_le (Nat.le_of_eq (width a))]

end Sys2Proof.Machine
end

