-- ==== Sys2Proof/Laws/Rings.lean ====
section
/-! SUPPORT. What making room in a ring and taking its extent up can do (R80, R83 to R85), said once: the retirements, their
reports, and the ring that is left. -/

namespace Sys2Proof.Machine

/-- A fold of steps that do not look at the rings may be done before or after the rings are replaced. -/
theorem Part.foldl_setRings {α : Type} (f : Part → α → Part) (x : Table Ring 8) (h : ∀ p a, f (p.setRings x) a = (f p a).setRings x)
    (l : List α) (p : Part) : l.foldl f (p.setRings x) = (l.foldl f p).setRings x := by
  induction l generalizing p with
  | nil => rfl
  | cons a rest ih => simp only [List.foldl_cons, h, ih]

theorem Part.clipEvent_setRings (pos : Fin 128) (x : Table Ring 8) (p : Part) : (p.setRings x).clipEvent pos = (p.clipEvent pos).setRings x := by
  unfold Part.clipEvent
  rw [raise_eq, raise_eq]; rfl

theorem Part.setClips_setRings (c : Clips) (x : Table Ring 8) (p : Part) : (p.setRings x).setClips c = (p.setClips c).setRings x := rfl
theorem Part.editClip_setRings (pos : Fin 128) (f : Clip → Clip) (x : Table Ring 8) (p : Part) :
    (p.setRings x).editClip pos f = (p.editClip pos f).setRings x := rfl

theorem Part.loseClip_setRings (pos : Fin 128) (x : Table Ring 8) (p : Part) : (p.setRings x).loseClip pos = (p.loseClip pos).setRings x := by
  unfold Part.loseClip
  simp only [Part.editClip_setRings, Part.setRings_clips, Part.setClips_setRings, Part.clipEvent_setRings]

theorem Part.retirementReaches_setRings (k : Fin 8) (n : Word) (pos : Fin 128) (x : Table Ring 8) (p : Part) :
    (p.setRings x).retirementReaches k n pos = (p.retirementReaches k n pos).setRings x := by
  unfold Part.retirementReaches
  simp only [Part.editClip_setRings, Part.setRings_clips]
  cases p.clips.table.nth pos with
  | none => rfl
  | some c =>
    dsimp only
    repeat' split
    all_goals first | rfl | rw [Part.loseClip_setRings]

/-- The report of a retirement does not look at the rings. -/
theorem Part.reportRetirement_setRings (k : Fin 8) (n : Word) (x : Table Ring 8) (p : Part) :
    (p.setRings x).reportRetirement k n = (p.reportRetirement k n).setRings x := by
  unfold Part.reportRetirement
  generalize List.finRange 128 = l
  exact Part.foldl_setRings (fun p pos => p.retirementReaches k n pos) x (fun p a => Part.retirementReaches_setRings k n a x p) l p

/-- A part after the reports of these retirements. -/
def Part.told (k : Fin 8) (gone : List PictureRecord) (p : Part) : Part := gone.foldl (fun x e => x.reportRetirement k e.number) p

theorem Part.told_cons (k : Fin 8) (e : PictureRecord) (rest : List PictureRecord) (p : Part) :
    p.told k (e :: rest) = (p.reportRetirement k e.number).told k rest := by
  unfold Part.told
  rw [List.foldl_cons]

theorem Part.told_setRings (k : Fin 8) (gone : List PictureRecord) (x : Table Ring 8) (p : Part) :
    (p.setRings x).told k gone = (p.told k gone).setRings x := by
  induction gone generalizing p with
  | nil => unfold Part.told; rfl
  | cons e rest ih => rw [Part.told_cons, Part.told_cons, Part.reportRetirement_setRings, ih]

/-- A ring with its oldest records retired. -/
def Ring.retire (r : Ring) (gone kept : List PictureRecord) : Ring := { r with
  index := kept, used := r.used - (gone.map PictureRecord.space).sum, retired := gone.foldl (fun c _ => count c) r.retired }

/-- What retiring the oldest record does (R83): its ring moves on, and the retirement is reported. -/
theorem Part.retireOldest_eq (k : Fin 8) (p : Part) (e : PictureRecord) (rest : List PictureRecord) (h : (p.rings.nth k).index = e :: rest) :
    p.retireOldest k = (p.told k [e]).setRings (p.rings.put k ((p.rings.nth k).retire [e] rest)) := by
  unfold Part.retireOldest
  rw [h]
  dsimp only
  unfold Part.updRing
  rw [Part.reportRetirement_setRings]
  simp only [Part.told, List.foldl_cons, List.foldl_nil, Ring.retire, Table.upd, List.map_cons, List.map_nil, List.sum_cons,
    List.sum_nil, Nat.add_zero]

theorem Part.rings_put (p : Part) (k : Fin 8) : p.setRings (p.rings.put k (p.rings.nth k)) = p := by
  rw [Table.put_nth]; rfl

/-- Everything making room can do (R84): some oldest records are retired and reported, each only while the free bytes are too few;
it succeeds when they then suffice, and fails at a record that may not be retired. -/
theorem Part.makeRoomLoop_spec (k : Fin 8) (n : Nat) (fuel : Nat) (p : Part) (hf : (p.rings.nth k).index.length ≤ fuel) :
    ∃ gone kept, (p.rings.nth k).index = gone ++ kept ∧ (∀ e, e ∈ gone → e.retirable = true) ∧
      (p.makeRoomLoop k n fuel).2 = (p.told k gone).setRings (p.rings.put k ((p.rings.nth k).retire gone kept)) ∧
      (∀ g e h, gone = g ++ e :: h → (p.rings.nth k).size - ((p.rings.nth k).used - (g.map PictureRecord.space).sum) < n) ∧
      ((p.makeRoomLoop k n fuel).1 = true → n ≤ (p.rings.nth k).size - ((p.rings.nth k).used - (gone.map PictureRecord.space).sum)) ∧
      ((p.makeRoomLoop k n fuel).1 = false → (p.rings.nth k).size - ((p.rings.nth k).used - (gone.map PictureRecord.space).sum) < n ∧
        ∀ e rest, kept = e :: rest → e.retirable = false) := by
  have none_gone : ∀ (b : Bool) , (b = true → n ≤ (p.rings.nth k).free) → (b = false → (p.rings.nth k).free < n ∧ ∀ e rest, (p.rings.nth k).index = e :: rest → e.retirable = false) →
     ∃ gone kept, (p.rings.nth k).index = gone ++ kept ∧ (∀ e, e ∈ gone → e.retirable = true) ∧
      p = (p.told k gone).setRings (p.rings.put k ((p.rings.nth k).retire gone kept)) ∧
      (∀ g e h, gone = g ++ e :: h → (p.rings.nth k).size - ((p.rings.nth k).used - (g.map PictureRecord.space).sum) < n) ∧
      (b = true → n ≤ (p.rings.nth k).size - ((p.rings.nth k).used - (gone.map PictureRecord.space).sum)) ∧
      (b = false → (p.rings.nth k).size - ((p.rings.nth k).used - (gone.map PictureRecord.space).sum) < n ∧
        ∀ e rest, kept = e :: rest → e.retirable = false) := by
    intro b h1 h2
    exact ⟨[], (p.rings.nth k).index, rfl, fun e he => (by cases he), (Part.rings_put p k).symm, fun g e h hh => (by simp at hh), h1, h2⟩
  induction fuel generalizing p with
  | zero =>
    have : (p.rings.nth k).index = [] := List.length_eq_zero_iff.mp (by omega)
    refine none_gone _ (fun h => by simpa [Part.makeRoomLoop] using h) (fun h => ⟨by simpa [Part.makeRoomLoop] using h, fun e rest he => by rw [this] at he; cases he⟩)
  | succ m ih =>
    unfold Part.makeRoomLoop
    split
    · next h => exact none_gone true (fun _ => h) (fun h => by cases h)
    · next h =>
      split
      · next hi => exact none_gone false (fun h => by cases h) (fun _ => ⟨by omega, fun e rest he => by rw [hi] at he; cases he⟩)
      · next e rest hi =>
        split
        · next hr =>
          have hp := Part.retireOldest_eq k p e rest hi
          have hrings : (p.retireOldest k).rings = p.rings.put k ((p.rings.nth k).retire [e] rest) := by rw [hp]; simp only [Part.setRings]
          have hring : (p.retireOldest k).rings.nth k = (p.rings.nth k).retire [e] rest := by rw [hrings]; exact Table.nth_put_same _ _ _
          obtain ⟨gone, kept, h1, h2, h3, h4, h5, h6⟩ := ih (p.retireOldest k) (by rw [hring]; show rest.length ≤ m; rw [hi] at hf; simpa using hf) (by
            intro b h1 h2
            exact ⟨[], _, rfl, fun e he => (by cases he), (Part.rings_put _ k).symm, fun g e h hh => (by simp at hh), h1, h2⟩)
          rw [hring] at h1 h3 h4 h5 h6
          have hu : ∀ l : List PictureRecord, ((p.rings.nth k).retire [e] rest).used - (l.map PictureRecord.space).sum =
              (p.rings.nth k).used - (((e :: l)).map PictureRecord.space).sum := by
            intro l; simp [Ring.retire]; omega
          have hz : ((p.rings.nth k).retire [e] rest).size = (p.rings.nth k).size := rfl
          simp only [hu, hz] at h4 h5 h6
          refine ⟨e :: gone, kept, by rw [hi]; exact congrArg (e :: ·) h1, ?_, ?_, ?_, h5, h6⟩
          · intro x hx
            rcases List.mem_cons.mp hx with rfl | hx
            · exact hr
            · exact h2 x hx
          · rw [h3, hrings, Table.put_put]
            rw [hp, Part.told_setRings]
            have : ((p.rings.nth k).retire [e] rest).retire gone kept = (p.rings.nth k).retire (e :: gone) kept := by
              unfold Ring.retire
              simp only [List.foldl_cons, List.foldl_nil]
              congr 1
              simp; omega
            rw [this]; simp only [Part.told, List.foldl_cons, List.foldl_nil, Part.setRings]
          · intro g x h' hg
            cases g with
            | nil => simp only [List.map_nil, List.sum_nil]; show (p.rings.nth k).free < n; omega
            | cons y g' =>
              obtain ⟨rfl, hg'⟩ := List.cons.inj hg
              exact h4 g' x h' hg'
        · next hr => exact none_gone false (fun h => by cases h) (fun _ => ⟨by omega, fun e' rest' he => by rw [hi] at he; cases he; simpa using hr⟩)

theorem Part.forceClose_rings (k : Fin 8) (n : Word) (pos : Fin 128) (c : Clip) (p : Part) : (p.forceClose k n pos c).rings = p.rings := by
  unfold Part.forceClose Part.clipEvent
  dsimp only
  rw [Part.raise_rings]
  rfl
/-- Force-closing leaves every ring as it was. -/
theorem Part.forceCloses_rings (k : Fin 8) (n : Word) (p : Part) : (p.forceCloses k n).rings = p.rings := by
  unfold Part.forceCloses
  generalize List.finRange 128 = l
  induction l generalizing p with
  | nil => rfl
  | cons a rest ih =>
    rw [List.foldl_cons, ih]
    repeat' split
    all_goals first | rfl | rw [Part.forceClose_rings]

/-- What a picture open makes of the ring extent (R80). -/
theorem Part.takeExtent_eq (p : Part) (k : Fin 8) :
    let w := p.path.windows.nth (p.cameras.nth k).cfg.replayWin
    let before := p.rings.nth k
    p.takeExtent k false = p.setRings (p.rings.put k (if before.extent = some (w.base, w.size) ∨ (before.extent ≠ none ∧ before.occupied = true) then before
      else { before with extent := some (w.base, w.size), writePoint := 0 })) := by
  dsimp only
  unfold Part.takeExtent Part.replayWindow
  dsimp only
  by_cases h1 : (p.rings.nth k).extent = some ((p.path.windows.nth (p.cameras.nth k).cfg.replayWin).base, (p.path.windows.nth (p.cameras.nth k).cfg.replayWin).size)
  · rw [if_pos h1, if_pos (.inl h1), Part.rings_put]
  · rw [if_neg h1]
    by_cases h2 : (p.rings.nth k).extent = none
    · rw [if_pos (by simp [h2]), if_neg (by simp [h2])]; rfl
    · cases h3 : (p.rings.nth k).occupied with
      | false => rw [if_pos (by simp), if_neg (by simp [h1])]; rfl
      | true => rw [if_neg (by simpa using h2), if_neg (by simp), if_pos (.inr ⟨h2, rfl⟩), Part.rings_put]

/-- A ring is occupied when a record of its index is no GAP (R81). -/
theorem Ring.occupied_iff (r : Ring) : r.occupied = true ↔ ∃ e, e ∈ r.index ∧ ∀ cause, e.body ≠ .gap cause := by
  unfold Ring.occupied
  rw [List.any_eq_true]
  refine exists_congr fun e => and_congr_right fun _ => ?_
  unfold PictureRecord.pinnable
  cases e.body <;> simp

/-- Taking the extent up at START CAMERA (R80): kept where it equals the window, taken where nothing stands in the ring, and
otherwise kept with the mismatch counted and notified. -/
theorem Part.takeExtent_start (p : Part) (k : Fin 8) :
    let w := p.replayWindow k
    let before := p.rings.nth k
    p.takeExtent k true = if before.extent = some w then p
      else if before.extent = none ∨ before.occupied = false then
        p.setRings (p.rings.put k { before with extent := some w, writePoint := 0 })
      else (p.setRings (p.rings.put k { before with mismatches := count before.mismatches })).raise .ring k.val := by
  dsimp only
  unfold Part.takeExtent
  dsimp only
  split
  · rfl
  · cases h2 : (p.rings.nth k).extent <;> cases h3 : (p.rings.nth k).occupied <;> simp [Part.updRing, Table.upd, h2]

/-- Records retired in two goes. -/
theorem Ring.retire_retire (r : Ring) (g0 k0 g1 k1 : List PictureRecord) : (r.retire g0 k0).retire g1 k1 = r.retire (g0 ++ g1) k1 := by
  unfold Ring.retire
  simp only [List.map_append, List.sum_append, List.foldl_append, Nat.sub_sub]

/-- Reports made one after another. -/
theorem Part.told_append (k : Fin 8) (g0 g1 : List PictureRecord) (p : Part) : (p.told k g0).told k g1 = p.told k (g0 ++ g1) := by
  unfold Part.told
  rw [List.foldl_append]

/-- What finding a place in the index does (R85 step 3). -/
theorem Part.indexPlace_spec (k : Fin 8) (p p2 : Part) (h : p.indexPlace k = (true, p2)) :
    ∃ gone kept, (p.rings.nth k).index = gone ++ kept ∧ (∀ e, e ∈ gone → e.retirable = true) ∧
      p2 = (p.told k gone).setRings (p.rings.put k ((p.rings.nth k).retire gone kept)) ∧
      (gone = [] ∨ (∃ e, gone = [e]) ∧ 4096 ≤ (p.rings.nth k).index.length) ∧
      ((p.rings.nth k).index.length ≤ 4096 → kept.length < 4096) := by
  unfold Part.indexPlace at h
  split at h
  · next hl =>
    cases h
    exact ⟨[], _, rfl, fun e he => (by cases he), (Part.rings_put _ k).symm, .inl rfl, fun _ => hl⟩
  · next hl =>
    split at h
    · next hi => exact absurd (show (p.rings.nth k).index.length < 4096 by rw [hi]; decide) hl
    · next e rest hi =>
      split at h
      · next hr =>
        cases h
        have hl' : ¬ (p.rings.nth k).index.length < 4096 := hl
        refine ⟨[e], rest, hi, fun x hx => (by rw [List.mem_singleton.mp hx]; exact hr), Part.retireOldest_eq k p e rest hi, .inr ⟨⟨e, rfl⟩, by omega⟩, fun hle => ?_⟩
        rw [hi] at hle hl'
        simp only [List.length_cons] at hle hl'
        omega
      · cases h

end Sys2Proof.Machine
end

