-- ==== Sys2Proof/Laws/Starts.lean ====
section
/-! SUPPORT. What starting the cameras and the lanes of an active copy makes of a part whose rings have no extent: what the
application of an image and ENGINE RESET share. -/

namespace Sys2Proof.Machine

/-- Tally after tally is the later one. -/
@[simp] theorem tallied_tallied (a b : Table Camera 8) (c : Table CueLine 8) : tallied a (tallied b c) = tallied a c := by
  refine Table.ext_nth fun l => ?_
  simp only [tallied, Table.nth_make]
  by_cases h : (c.nth l).cfg.mode = .tally
  · simp [h]
  · simp [h]

/-- A camera that goes to RUNNING, its ring without an extent until then. -/
theorem startRunning_eq (k : Fin 8) (p : Part) (h : (p.rings.nth k).extent = none) :
    let w := p.path.windows.nth (p.cameras.nth k).cfg.replayWin
    let cameras := p.cameras.put k { (p.cameras.nth k) with state := .running, slotA := Slot.clear, slotB := Slot.clear }
    p.startRunning k = { p with
      cameras := cameras
      rings := p.rings.put k { (p.rings.nth k) with extent := some (w.base, w.size), writePoint := 0 }
      cues := tallied cameras p.cues } := by
  intro w cameras
  unfold Part.startRunning Part.takeExtent
  rw [tally_eq]
  simp [Part.updCamera, Part.setCameras, Part.replayWindow, Table.upd, h, Part.updRing, Part.setRings, cameras, w]

/-- A list of cameras of which the copy's RUNNING ones are started, each once. -/
theorem startAll_eq (i : Image) (l : List (Fin 8)) (hn : l.Nodup) (p : Part) (h : ∀ k, k ∈ l → (p.rings.nth k).extent = none) :
    let q := l.foldl (fun p k => if (i.cameras.nth k).1 then p.startRunning k else p) p
    q = { p with cameras := q.cameras, rings := q.rings, cues := q.cues } ∧
    (∀ c, tallied c q.cues = tallied c p.cues) ∧
    (∀ k, q.cameras.nth k = if k ∈ l ∧ (i.cameras.nth k).1 = true then
        { (p.cameras.nth k) with state := .running, slotA := Slot.clear, slotB := Slot.clear } else p.cameras.nth k) ∧
    (∀ k, let w := p.path.windows.nth (p.cameras.nth k).cfg.replayWin
      q.rings.nth k = if k ∈ l ∧ (i.cameras.nth k).1 = true then
        { (p.rings.nth k) with extent := some (w.base, w.size), writePoint := 0 } else p.rings.nth k) := by
  induction l generalizing p with
  | nil => exact ⟨rfl, fun _ => rfl, by simp, by simp⟩
  | cons a rest ih =>
    rw [List.nodup_cons] at hn
    intro q
    simp only [List.foldl_cons, q]
    by_cases ha : (i.cameras.nth a).1 = true
    · rw [if_pos ha, startRunning_eq a p (h a (List.mem_cons_self ..))]
      obtain ⟨e1, ec, e2, e3⟩ := ih hn.2 { p with
          cameras := p.cameras.put a { (p.cameras.nth a) with state := .running, slotA := Slot.clear, slotB := Slot.clear }
          rings := p.rings.put a { (p.rings.nth a) with 
            extent := some ((p.path.windows.nth (p.cameras.nth a).cfg.replayWin).base,
              (p.path.windows.nth (p.cameras.nth a).cfg.replayWin).size)
            writePoint := 0 }
          cues := tallied (p.cameras.put a { (p.cameras.nth a) with state := .running, slotA := Slot.clear, slotB := Slot.clear }) p.cues }
        (by
          intro k hk
          have : k ≠ a := fun e => hn.1 (e ▸ hk)
          dsimp only
          rw [Table.nth_put_other _ _ (Ne.symm this)]
          exact h k (List.mem_cons_of_mem _ hk))
      refine ⟨by rw [e1], fun c => by rw [ec]; exact tallied_tallied _ _ _, ?_, ?_⟩
      · intro k
        rw [e2]
        by_cases hk : k = a
        · subst hk; simp [hn.1, ha]
        · dsimp only
          rw [Table.nth_put_other _ _ (Ne.symm hk)]
          simp [hk]
      · intro k
        rw [e3]
        by_cases hk : k = a
        · subst hk; simp [hn.1, ha]
        · dsimp only
          rw [Table.nth_put_other _ _ (Ne.symm hk), Table.nth_put_other _ _ (Ne.symm hk)]
          simp [hk]
    · rw [if_neg ha]
      obtain ⟨e1, ec, e2, e3⟩ := ih hn.2 p (fun k hk => h k (List.mem_cons_of_mem _ hk))
      refine ⟨e1, ec, ?_, ?_⟩
      · intro k
        rw [e2]
        by_cases hk : k = a
        · subst hk; simp [hn.1, ha]
        · simp [hk]
      · intro k
        rw [e3]
        by_cases hk : k = a
        · subst hk; simp [hn.1, ha]
        · simp [hk]

/-- Every camera the copy marks RUNNING is started, its ring with the replay window as extent, and the lanes are turned on; then
tally. -/
theorem starts_eq (i : Image) (p : Part) (h : ∀ k, (p.rings.nth k).extent = none) :
    let cameras := Table.make fun k => if (i.cameras.nth k).1 then
      { (p.cameras.nth k) with state := .running, slotA := Slot.clear, slotB := Slot.clear } else p.cameras.nth k
    ((p.startCameras i).startLanes).tally = { p with
      cameras := cameras
      rings := Table.make fun k =>
        let w := p.path.windows.nth (p.cameras.nth k).cfg.replayWin
        if (i.cameras.nth k).1 then { (p.rings.nth k) with extent := some (w.base, w.size), writePoint := 0 } else p.rings.nth k
      lanes := p.lanes.each fun l => if l.cfg.initialOn then l.turnOn p.now else l
      cues := tallied cameras p.cues } := by
  intro cameras
  obtain ⟨e1, ec, e2, e3⟩ := startAll_eq i (List.finRange 8) (List.nodup_finRange 8) p (fun k _ => h k)
  rw [tally_eq]
  unfold Part.startCameras
  generalize List.foldl _ p _ = q at *
  have hc : q.cameras = cameras := Table.ext_nth fun k => by
    rw [e2]
    simp [cameras]
  have hr : q.rings = Table.make fun k =>
      let w := p.path.windows.nth (p.cameras.nth k).cfg.replayWin
      if (i.cameras.nth k).1 then { (p.rings.nth k) with extent := some (w.base, w.size), writePoint := 0 } else p.rings.nth k :=
    Table.ext_nth fun k => by
      rw [e3]
      simp
  rw [e1]
  simp only [Part.startLanes, Part.setLanes]
  rw [ec, hc, hr]

end Sys2Proof.Machine
end

