-- ==== Sys2Proof/Laws/Stores.lean ====
section
/-! SUPPORT. What a load record and a command on the part alone can do to the queue and the two stores. -/

namespace Sys2Proof.Machine

/-- What a load record may make of a state: its queue and DRAM stand, and its flash is as it was, erased, or
written. -/
structure State.LoadsFrom (s t : State) : Prop where
  pending : t.pending = s.pending
  dram : t.dram = s.dram
  flash : t.flash = s.flash ∨ (∃ n, t.flash = s.flash.erase 0 n) ∨ ∃ a bs, t.flash = s.flash.writeBytes flashBlank a bs

theorem State.LoadsFrom.ofPart (s : State) (f : Part → Part) : s.LoadsFrom (s.withPart f) := ⟨rfl, rfl, .inl rfl⟩

theorem State.LoadsFrom.refl (s : State) : s.LoadsFrom s := ⟨rfl, rfl, .inl rfl⟩

theorem State.handleRecord_loads (r : LoadRecord) (s : State) : s.LoadsFrom (s.handleRecord r) := by
  have hs : ∀ n : Nat, s.LoadsFrom (s.acceptStart n) := fun n => ⟨rfl, rfl, .inr (.inl ⟨n, rfl⟩)⟩
  have hd : ∀ o bs rb, s.LoadsFrom (s.writeData o bs rb) := fun o bs rb => ⟨rfl, rfl, .inr (.inr ⟨o, rb, rfl⟩)⟩
  cases hl : s.part.loader.load <;> cases r <;> simp only [State.handleRecord, hl]
  all_goals repeat' split
  all_goals first
    | exact .ofPart _ _
    | exact hs _
    | exact hd _ _ _

theorem State.loadRecord_loads (good : Bool) (r : LoadRecord) (s : State) : s.LoadsFrom (s.loadRecord good r) := by
  unfold State.loadRecord
  repeat' split
  all_goals first
    | exact .refl _
    | exact .ofPart _ _
    | exact handleRecord_loads _ _

theorem State.LoadsFrom.waiting (s u : State) (w : Option LoadRecord) (h1 : u.pending = s.pending) (h2 : u.dram = s.dram)
    (h3 : u.flash = s.flash) : s.LoadsFrom (match w with | some r => u.handleRecord r | none => u) := by
  cases w with
  | none => exact ⟨h1, h2, .inl h3⟩
  | some r =>
    have h := handleRecord_loads r u
    exact ⟨h.pending.trans h1, h.dram.trans h2, h3 ▸ h.flash⟩

theorem State.eraseDone_loads (s : State) : s.LoadsFrom s.eraseDone := by
  unfold State.eraseDone
  split
  · exact .waiting s _ _ (by dsimp only; split <;> rfl) (by dsimp only; split <;> rfl) (by dsimp only; split <;> rfl)
  · exact .refl _

/-- A load record keeps the stores canonical. -/
theorem State.LoadsFrom.wf {s t : State} (h : s.LoadsFrom t) (hs : s.memoriesWf = true) : t.memoriesWf = true := by
  unfold State.memoriesWf at hs ⊢
  simp only [Bool.and_eq_true] at hs ⊢
  refine ⟨by rw [h.dram]; exact hs.1, ?_⟩
  rcases h.flash with e | ⟨n, e⟩ | ⟨a, bs, e⟩ <;> rw [e]
  · exact hs.2
  · exact Memory.erase_wf 0 n hs.2
  · exact Memory.writeBytes_wf a bs hs.2

/-- The commands that can change a store, or stop. -/
def storeTouching : Instr → Bool
  | .powerOn .. | .calibrationComplete .. | .transferComplete .. | .loadStart .. | .eraseComplete .. | .loadData .. | .loadEnd .. => true
  | _ => false

set_option maxHeartbeats 2000000 in
set_option maxRecDepth 4000 in
/-- Every other command is a change of the part alone. -/
theorem exec_partOnly (c : Instr) (h : storeTouching c = false) (s : State) : ∃ f, exec c s = .next (s.withPart f) := by
  cases c
  all_goals first
    | exact ⟨_, rfl⟩
    | cases h

set_option maxHeartbeats 2000000 in
set_option maxRecDepth 4000 in
/-- A software command runs its body when the command engine holds it, and does nothing else. -/
theorem exec_software (c : Instr) (h : (encodeRecord c).isSome = true) (s : State) :
    ∃ body, exec c s = .next (s.withPart (Part.run c body)) := by
  cases c
  all_goals first
    | exact Bool.noConfusion h
    | exact ⟨_, rfl⟩

end Sys2Proof.Machine
end

