-- ==== Sys2Proof/Tests/Slice0.lean ====
section
/-! SUPPORT. Tests of the model: the WellFormed checks, the manual's worked values, and for each statement of
Certificates/Slice0/Obligations.lean a state and operands that meet its hypotheses, at the ends of their ranges. -/

namespace Sys2Proof.Tests

set_option Elab.async false
set_option synthInstance.maxSize 1000

open Sys2Proof Sys2Proof.Machine

/-- A small state: the reset state with its part changed. -/
def on (f : Part → Part) : State := State.reset.becomes (f Part.reset)

/-- A small state in which the engine holds a command taken from the record at ring index 3. -/
def held (c : Instr) (f : Part → Part := id) : State :=
  on fun p => let q := f p; { q with cmd := { q.cmd with inHand := some (3, c) } }

theorem held_taken (c : Instr) (f : Part → Part) : (held c f).taken 3 c := rfl

/-- The state a command leaves, where it answers one. -/
def runs (c : Instr) (s : State) : Option State := match exec c s with | .next t => some t | _ => none

/-- A value of the state a command leaves. -/
def gives {α : Type} (c : Instr) (s : State) (f : State → α) : Option α := (runs c s).map f

/-- The result in the completion that a held command writes; none where it writes none. -/
def result (c : Instr) (f : Part → Part := id) : Option Result :=
  (runs c (held c f)).bind fun t => (t.part.cmd.completions.drop (f Part.reset).cmd.completions.length).head?.map (·.result)

/-- Memory READY and the ports RUNNING. -/
def ready (p : Part) : Part := { p with path := { p.path with ready := true } }

/-- A window of the table replaced. -/
def win (w : Fin 32) (x : Window) (p : Part) : Part := p.withPath (p.path.putWindow w x)

/-! ## The machine -/

/-- The state the next step leaves, where it answers one. -/
def stepped (s : State) : Option State := match step s with | .next t => some t | _ => none

theorem test_step_runs_the_front :
    (stepped { State.reset with pending := [.resume 0, .grant] }).map (·.pending) = some [.grant] := by decide +kernel

theorem test_idle : stepped State.reset = some State.reset := by decide +kernel

/-- A state whose channel carries an engine transfer from this line on. -/
def carrying (line cnt : Nat) : State :=
  on fun p => { p with path := { p.path with channel := .stream 1 ⟨.read, line, cnt, []⟩ false } }

theorem test_beyond_dram_stops : (carrying 134217727 2).transferInRange = false ∧
    runs (.transferComplete 5) (carrying 134217727 2) = none := by decide +kernel

theorem witness_OnlyATransferBeyondTheDramStops :
    (carrying 134217727 1).transferInRange = true ∧ (runs (.transferComplete 5) (carrying 134217727 1)).isSome = true ∧
      (runs .grant State.reset).isSome = true := by decide +kernel

theorem witness_OnlyTheseCommandsChangeStoresAndSettings :
    (runs .grant State.reset).isSome = true ∧ Instr.takesAnImage .grant = false := by decide +kernel

theorem witness_ACommandNotTakenChangesNothing :
    (encodeRecord (.quiesce 0)).isSome = true ∧ State.reset.part.cmd.inHand = none ∧
      runs (.quiesce 0) State.reset = some State.reset := by decide +kernel

theorem witness_EveryStepKeepsTheStoresCanonical :
    State.reset.memoriesWf = true ∧ ({ State.reset with dram := [(5, 1), (64, 2)], flash := [(0, 3)] } : State).memoriesWf = true ∧
      ({ State.reset with dram := [(5, 0)] } : State).memoriesWf = false := by decide +kernel

theorem witness_EveryStepKeepsTheWindowsApart : State.reset.windowsApart := by
  refine ⟨fun a b h => ?_, fun i h => ?_⟩
  · simp [State.reset, Part.reset, Image.fallback, Window.live] at h
  · simp [State.reset, Part.reset] at h

/-- One command of each of the 34 kinds and an unknown kind, fields at the ends of their widths. -/
def oneOfEach : List Instr := [
  .setPortInterval 1 10 4095, .openWindow 2 31 0xFFFF0000 0x10000 8 255 63 63, .closeWindow 3 31, .quiesce 0xFFFFFFFF, .resume 0,
  .setTimecode 4 59 59 59 23, .setCueLine 5 7 4 1 50 255 250 7, .driveCueLine 6 7 1,
  .setCamera 7 7 31 31 65536 2160 60 1 200 67108864 1, .startCamera 8 7, .stopCamera 9 0] ++ [
  .findPicture 10 7 1 0xFFFFFFFF 0 0 0 0 0, .findPicture 10 7 0 0 1 24 59 59 23,
  .setSource 11 63 1 31 64 63 24, .setBus 12 15 1 31 256 65535 1 20, .setGain 13 15 63 65535 65535, .removeSource 14 15 63,
  .startMixer 15, .stopMixer 16, .readMeters 17 0xFFFFFFFFFFFFFFFF] ++ [
  .markIn 18 255 250 1 30000 [1, 65535], .markIn 18 1 0 0 0 [], .markOut 19 65535, .unpin 20 1, .pin 21 1, .deleteClip 22 1,
  .addLabel 23 1 65535, .removeLabel 24 1 1, .sendClip 25 65535] ++ [
  .setClass 26 3 255 60000, .flushClass 27 3, .setLane 28 3 65535 256 3 8 1, .laneOn 29 3, .laneOff 30 3,
  .readCounters 31 5 1 64, .engineReset 32, .unknownCommand 33 0, .unknownCommand 33 35, .unknownCommand 33 65535]

theorem witness_ARecordSpellsItsCommand : oneOfEach.all fun c => c.wf && (match encodeRecord c with
    | some r => r.length == 64 && decodeRecord r == c | none => false) := by decide +kernel

theorem test_command_record_bytes :
    encodeRecord (.setCueLine 0x01020304 7 2 1 0x0506 0x81 250 3) =
      some ([7, 0, 0, 0, 4, 3, 2, 1, 7, 2, 1, 6, 5, 0x81, 250, 3] ++ zeros 48) ∧
    decodeRecord ([21, 0, 0, 0, 9, 0, 0, 0, 0xFF, 50, 1, 0x30, 0x75, 2, 1, 0, 0xFF, 0xFF] ++ zeros 46) =
      .markIn 9 0xFF 50 1 30000 [1, 65535] ∧
    decodeRecord ([34, 1] ++ zeros 62) = .unknownCommand 0 290 := by decide +kernel

theorem test_read_or_skip_absent_fields :
    decodeRecord ([12, 0, 0, 0, 9, 0, 0, 0, 7, 0, 5, 5, 5, 5, 1, 24, 59, 58, 23] ++ zeros 45) =
      .findPicture 9 7 0 0x05050505 1 24 59 58 23 := by decide +kernel

/-! ## Well-formed commands -/

theorem test_wf_request_refuses_no_lines : Instr.wf (.clientRequest 0 0 0 .read 0 0 []) = false := by decide
theorem test_wf_request_refuses_five_lines : Instr.wf (.clientRequest 0 0 0 .read 0 5 []) = false := by decide
theorem test_wf_request_refuses_a_short_write : Instr.wf (.clientRequest 0 0 0 .write 0 1 [(0, true)]) = false := by decide
theorem test_wf_request_refuses_read_data : Instr.wf (.clientRequest 0 0 0 .read 0 1 [(0, true)]) = false := by decide
theorem test_wf_load_data_refuses_none : Instr.wf (.loadData 0 false 0 [] 0 []) = false := by decide
theorem test_wf_load_data_refuses_257 : Instr.wf (.loadData 0 false 0 (zeros 257) 0 (zeros 257)) = false := by decide +kernel
theorem test_wf_load_data_refuses_a_short_read_back : Instr.wf (.loadData 0 false 0 [1, 2] 0 [1]) = false := by decide
theorem test_wf_tiles_refuses_none : Instr.wf (.codedEvent 0 []) = false := by decide
theorem test_wf_tiles_refuses_61 : Instr.wf (.codedEvent 0 (List.replicate 61 (zeros 16))) = false := by decide +kernel
theorem test_wf_tiles_refuses_a_short_tile : Instr.wf (.codedEvent 0 [zeros 15]) = false := by decide
theorem test_wf_tiles_refuses_a_ragged_tile : Instr.wf (.codedEvent 0 [zeros 17]) = false := by decide
theorem test_wf_message_refuses_two_bytes : Instr.wf (.returnMessageEnd 0 0 [0x5A, 0xA5]) = false := by decide
theorem test_wf_message_refuses_17_bytes : Instr.wf (.returnMessageEnd 0 0 (zeros 17)) = false := by decide
theorem test_wf_labels_refuses_26 : Instr.wf (.markIn 0 1 0 0 0 (List.replicate 26 1)) = false := by decide
theorem test_wf_unknown_refuses_known_kinds :
    Instr.wf (.unknownCommand 0 1) = false ∧ Instr.wf (.unknownCommand 0 34) = false := by decide
theorem test_wf_accepts : Instr.wf (.clientRequest 0 0 0 .read 0 4 []) = true ∧
    Instr.wf (.loadData 0 false 0 (zeros 256) 0 (zeros 256)) = true ∧ Instr.wf (.codedEvent 0 [zeros 16, zeros 32]) = true ∧
    Instr.wf (.returnMessageEnd 0 0 (zeros 16)) = true ∧ Instr.wf .grant = true := by decide +kernel

/-! ## Chapter 1 -/

theorem no_windows : windowsDisjoint Part.reset.path.windows := witness_EveryStepKeepsTheWindowsApart.1

/-- A window of 64 KiB from byte 65,536 on, which every port may use. -/
def plain : Window := ⟨.opened, 65536, 65536, .plain, 0, 63, 63⟩

theorem one_window (x : Window) (w : Fin 32) : windowsDisjoint (win w x Part.reset).path.windows := by
  intro a b ha hb hab
  have h : ∀ c : Fin 32, ((win w x Part.reset).path.windows.nth c).live = true → c = w := by
    intro c hc
    by_cases e : w = c
    · exact e.symm
    · have := Table.nth_put_other Part.reset.path.windows x e
      simp only [win, Part.withPath, Path.putWindow] at hc
      rw [this] at hc
      simp [Part.reset, Image.fallback, Window.live] at hc
  exact absurd ((h a ha).trans (h b hb).symm) hab

/-- What a client request at port 5 leads to: what leaves the part, and the phases of the port's queue. -/
def asked (f : Part → Part) (tag : BitVec 6) (kind : ReqKind) (line cnt : Nat) : Option (List Output × List ReqPhase) :=
  gives (.clientRequest 1 5 tag kind line cnt (match kind with | .read => [] | .write => List.replicate (64 * cnt) (7, true)))
    (on fun p => ready (f p)) fun t => (t.part.outputs, (t.part.path.ports.nth 5).queue.map (·.phase))

/-- A port 5 whose queue holds this many requests, tags from 0 on. -/
def queued (n : Nat) (p : Part) : Part := p.withPath (p.path.putPort 5 ⟨(List.range n).map fun i =>
  ⟨BitVec.ofNat 6 i, ⟨.read, 0, 1, []⟩, if i = 0 then .offered else .waiting, none, none, 0, false⟩, 0, 0, 0, none⟩)

theorem witness_AClientRequestIsAdmitted : requestWf .read 4 [] = true ∧
    asked (queued 16) 63 .read 0 1 = some ([], .offered :: List.replicate 15 .waiting) ∧
    asked (queued 15) 14 .read 0 4 = some ([.refused 5 14 .tagInUse], .offered :: List.replicate 14 .waiting) ∧
    asked (queued 15) 15 .read 0 4 = some ([], .offered :: List.replicate 15 .waiting) ∧
    gives (.clientRequest 1 5 0 .read 0 1 []) State.reset (fun t => (t.part.path.ports.nth 5).queue) = some [] := by
  decide +kernel

theorem witness_AClientRequestIsChecked :
    asked id 0 .read 134217727 1 = some ([], [.offered]) ∧
    asked id 0 .read 134217727 2 = some ([.refused 5 0 .noMemory], []) ∧
    asked (win 31 plain) 0 .read 1023 1 = some ([], [.offered]) ∧
    asked (win 31 plain) 0 .write 1023 2 = some ([.refused 5 0 .split], []) ∧
    asked (win 31 plain) 0 .write 1024 1 = some ([], [.offered]) ∧
    asked (win 31 plain) 0 .read 2047 1 = some ([], [.offered]) ∧
    asked (win 31 plain) 0 .read 2047 2 = some ([.refused 5 0 .split], []) ∧
    asked (win 31 plain) 0 .read 2048 1 = some ([], [.offered]) := by decide +kernel

theorem witness_AClientRequestIsCheckedInAWindow :
    asked (win 0 { plain with state := .draining }) 0 .read 1024 1 = some ([.refused 5 0 .closing], []) ∧
    asked (win 0 { plain with readers := 31 }) 0 .read 1024 1 = some ([.refused 5 0 .denied], []) ∧
    asked (win 0 { plain with writers := 31 }) 0 .write 1024 1 = some ([.refused 5 0 .denied], []) ∧
    ([WindowKind.aliased, .replay, .programme, .clipList].all fun k =>
      asked (win 0 { plain with kind := k }) 0 .write 1024 1 == some ([.refused 5 0 .denied], [])) = true := by decide +kernel

/-- READY memory, a request offered at port 5, and one on the last stream, with these wait counts. -/
def contending (five ten : Nat) : State := on fun p =>
  let q := ready (queued 1 p)
  { q with path := { q.path with
    streams := q.path.streams.put 4 (some ⟨.read, 0, 1, []⟩), waits := (q.path.waits.put 5 five).put 10 ten } }

theorem witness_AGrantFollowsTheServiceIntervals :
    (contending 7 7).part.path.grantee 5 ∧ (contending 8 9).part.path.grantee 10 ∧ (contending 8 7).part.path.grantee 5 ∧
      gives .grant (contending 7 7) (fun t => (t.part.path.channel, t.part.path.waits.nth 5, t.part.path.waits.nth 10)) =
        some (.client 5, 0, 8) ∧
      gives .grant (contending 8 9) (fun t => (t.part.path.channel, t.part.path.waits.nth 5, t.part.path.waits.nth 10)) =
        some (.stream 4 ⟨.read, 0, 1, []⟩ false, 9, 0) ∧
      runs .grant (on ready) = some (on ready) := by
  refine ⟨?_, ?_, ?_, ?_⟩
  · unfold Path.grantee; decide +kernel
  · unfold Path.grantee; decide +kernel
  · unfold Path.grantee; decide +kernel
  · decide +kernel

/-- A transfer of one line, the last of the DRAM, with a write of its first two bytes, the second of them masked. -/
def transferring (kind : ReqKind) : State :=
  let data := match kind with | .read => [] | .write => [(1, true), (2, false)] ++ List.replicate 62 (3, false)
  { on (fun p =>
    let q := p.withPath (p.path.putPort 5 ⟨[⟨9, ⟨kind, 134217727, 1, data⟩, .granted, none, none, 134217727, false⟩], 0, 0, 65535, none⟩)
    { q with path := { q.path with channel := .client 5 } }) with
    dram := [(8589934528, 5), (8589934529, 6)] }

theorem witness_ATransferMovesTheEnabledBytesAndEndsItsRequest :
    (transferring .write).memoriesWf = true ∧
      gives (.transferComplete 3) (transferring .write) (fun t => (t.dram, t.part.outputs, (t.part.path.ports.nth 5).writes)) =
        some ([(8589934528, 1), (8589934529, 6)], [.ok 5 9 []], 65535) ∧
      gives (.transferComplete 3) (transferring .read) (fun t => (t.dram, t.part.outputs, t.part.path.channel)) =
        some ([(8589934528, 5), (8589934529, 6)], [.ok 5 9 ([5, 6] ++ zeros 62)], .free) ∧
      (runs (.transferComplete 3) (carrying 134217727 1)).isSome = true := by decide +kernel

/-- A part with this many refreshes due. -/
def refreshing (n : Nat) (c : Channel) : State :=
  on fun p => { p with path := { p.path with refreshesDue := n, refreshTimer := some 23400, channel := c } }

theorem witness_RefreshesAreCountedAndTakeTheFreeChannel :
    gives .refreshDue (refreshing 0 .free) (fun t => (t.part.path.refreshTimer, t.part.path.refreshesDue, t.part.path.channel)) =
      some (some 46800, 1, .refresh) ∧
    gives .refreshDue (refreshing 0 (.client 0)) (fun t => (t.part.path.refreshesDue, t.part.path.channel)) = some (1, .client 0) ∧
    gives (.refreshComplete 1) (refreshing 1 .refresh) (fun t => (t.part.path.refreshesDue, t.part.path.channel)) = some (0, .free) ∧
    gives (.refreshComplete 1) (refreshing 2 .refresh) (fun t => (t.part.path.refreshesDue, t.part.path.channel)) =
      some (1, .refresh) := by decide +kernel

theorem witness_SetPortIntervalReplacesTheInterval :
    gives (.setPortInterval 0 10 4095) (held (.setPortInterval 0 10 4095)) (fun t => t.part.path.intervals.nth 10) = some 4095 ∧
    result (.setPortInterval 0 0 1) = some .done ∧ result (.setPortInterval 0 11 1) = some .badField ∧
    result (.setPortInterval 0 0 0) = some .badField ∧ result (.setPortInterval 0 0 4096) = some .badField := by decide +kernel

/-- A deferred command on this object is outstanding. -/
def awaiting (k : DeferredKind) (p : Part) : Part := { p with cmd := { p.cmd with deferred := [⟨1, 2, k⟩] } }

theorem witness_OpenWindowRefusesBadFields :
    [Instr.openWindow 0 32 0 65536 0 0 0 0, .openWindow 0 0 1 65536 0 0 0 0, .openWindow 0 0 0 0 0 0 0 0,
      .openWindow 0 0 0 65537 0 0 0 0, .openWindow 0 0 0x1FFFF0000 0x20000 0 0 0 0, .openWindow 0 0 0 65536 9 0 0 0,
      .openWindow 0 0 0 65536 1 8 0 0, .openWindow 0 0 0 65536 2 8 0 0, .openWindow 0 0 0 65536 3 64 0 0,
      .openWindow 0 0 0 65536 4 8 0 0, .openWindow 0 0 0 65536 5 16 0 0, .openWindow 0 0 0 65536 0 0 64 0,
      .openWindow 0 0 0 65536 0 0 0 64].all (fun c => result c == some .badField) = true := by decide +kernel

theorem witness_OpenWindowOpens :
    [Instr.openWindow 0 31 0x1FFFF0000 0x10000 0 255 63 63, .openWindow 0 0 0 65536 1 7 0 0, .openWindow 0 0 0 65536 2 7 0 0,
      .openWindow 0 0 0 65536 3 63 0 0, .openWindow 0 0 0 65536 4 7 0 0, .openWindow 0 0 0 65536 5 15 0 0,
      .openWindow 0 0 0 65536 6 0 0 0, .openWindow 0 0 0 65536 7 0 0 0, .openWindow 0 0 0 65536 8 0 0 0,
      .openWindow 0 0 0 0x200000000 0 0 0 0].all (fun c => result c == some .done) = true := by decide +kernel

theorem witness_OpenWindowAppliesItsTestsThenOpens :
    result (.openWindow 0 31 0 65536 0 0 0 0) (awaiting (.closeWindow 31)) = some .busy ∧
    result (.openWindow 0 31 0 65536 0 0 0 0) (win 31 plain) = some .state ∧
    result (.openWindow 0 30 131072 65536 0 0 0 0) (win 31 plain) = some .done ∧
    result (.openWindow 0 30 65536 65536 0 0 0 0) (win 31 plain) = some .overlap ∧
    result (.openWindow 0 30 131072 65536 8 0 0 0) (win 31 { plain with kind := .clipList }) = some .inUse ∧
    result (.openWindow 0 30 131072 65536 6 0 0 0) (win 31 { plain with kind := .command, state := .draining }) = some .inUse ∧
    result (.openWindow 0 30 131072 65536 7 0 0 0) (win 31 { plain with kind := .command }) = some .done := by decide +kernel

/-- Port 5 with one offered request counted in a window. -/
def offeredIn (w : Fin 32) (p : Part) : Part :=
  p.withPath (p.path.putPort 5 ⟨[⟨0, ⟨.read, 1024, 1, []⟩, .offered, some w, some w, 1024, false⟩], 0, 0, 0, none⟩)

/-- A mixer in this state, with a pass in progress or none. -/
def mixing (x : MixerState) (busy : Bool) (p : Part) : Part :=
  { p with mixer := { p.mixer with
    state := x
    pass := if busy then some ⟨0, .reading, Table.all ⟨⟨false, 0, 16, 0, false, 5⟩, 0, []⟩, Table.all ⟨⟨false, 0, 4, 0, 24⟩, 0⟩, [], [], [], []⟩
      else none } }

theorem witness_CloseWindowDrainsThenCloses :
    result (.closeWindow 0 32) = some .badField ∧ result (.closeWindow 0 31) (awaiting (.closeWindow 31)) = some .busy ∧
    result (.closeWindow 0 31) = some .state ∧
    result (.closeWindow 0 31) (fun p => win 31 plain { p with cmd := { p.cmd with rings := some ⟨31, 0, 0, 0, 16, 16⟩ } }) = some .inUse ∧
    ([WindowKind.programme, .plain].map fun k => result (.closeWindow 0 0) (fun p => mixing .running true (win 0 { plain with kind := k } p))) =
      [some .inUse, some .done] ∧
    gives (.closeWindow 5 31) (held (.closeWindow 5 31) (win 31 plain))
      (fun t => ((t.part.path.windows.nth 31).state, t.part.cmd.deferred, t.part.cmd.completions)) =
      some (.closed, [], [⟨3, 5, .done, []⟩]) ∧
    gives (.closeWindow 5 31) (held (.closeWindow 5 31) fun p => offeredIn 31 (win 31 plain p))
      (fun t => ((t.part.path.windows.nth 31).state, t.part.cmd.deferred)) = some (.draining, [⟨3, 5, .closeWindow 31⟩]) ∧
    gives (.windowDrained 31) (on fun p => awaiting (.closeWindow 31) (win 31 { plain with state := .draining } p))
      (fun t => ((t.part.path.windows.nth 31).state, t.part.cmd.completions)) = some (.closed, [⟨1, 2, .done, []⟩]) ∧
    runs (.windowDrained 31) (on (win 31 plain)) = some (on (win 31 plain)) := by decide +kernel

/-- The ports at this point of a quiesce. -/
def quiet (q : Quiesce) (p : Part) : Part := { p with path := { p.path with quiesce := q } }

theorem witness_QuiesceAndResumeMoveThePortsState :
    result (.quiesce 0) (awaiting .quiesce) = some .busy ∧ result (.quiesce 0) (quiet .quiesced) = some .done ∧
    gives (.quiesce 6) (held (.quiesce 6)) (fun t => (t.part.path.quiesce, t.part.cmd.deferred, t.part.cmd.completions)) =
      some (.quiesced, [], [⟨3, 6, .done, []⟩]) ∧
    gives (.quiesce 6) (held (.quiesce 6) (queued 1)) (fun t => (t.part.path.quiesce, t.part.cmd.deferred)) =
      some (.quiescing, [⟨3, 6, .quiesce⟩]) ∧
    gives .quiesceComplete (on fun p => awaiting .quiesce (quiet .quiescing p))
      (fun t => (t.part.path.quiesce, t.part.cmd.completions)) = some (.quiesced, [⟨1, 2, .done, []⟩]) ∧
    result (.resume 0) (awaiting .quiesce) = some .busy ∧
    gives (.resume 0) (held (.resume 0) (quiet .quiesced)) (fun t => t.part.path.quiesce) = some .running := by decide +kernel

theorem witness_ARaisedNoticeIsPendingOnce :
    ((Part.reset.raise .hold 3).raise .lane 1).cmd.notices = [(.lane, 1), (.hold, 3)] ∧
    (((Part.reset.raise .hold 3).raise .hold 2).raise .hold 3).cmd.notices = [(.hold, 2), (.hold, 3)] ∧
    (((Part.reset.raise .hold 3).raise .hold 2).raise .hold 3).cmd.counts.absorbed = 1 := by decide +kernel

/-! ## Chapter 2 -/

/-- A started clock at 25 Hz with this frame reference and word clock. -/
def clocked (f w : Reference) (p : Part) : Part :=
  { p with now := 1000000000, clock := { p.clock with started := true, frame := f, word := w } }

/-- An input LOCKED or FREE, with its last pulse, and its last accepted one, this long before 1,000,000,000. -/
def heard (locked : Bool) (relock ago : Nat) : Reference :=
  { Reference.clear with
    locked := locked, relock := relock, lastPulse := some (1000000000 - ago),
    lastAccepted := if locked then some (1000000000 - ago) else none }

/-- What a frame reference pulse leads to: LOCKED, relock count, stray pulses and picture ticks. -/
def pulsed (r : Reference) : Option (Bool × Nat × Nat × Word) :=
  gives (.frameReferencePulse 0) (on (clocked r Reference.clear)) fun t =>
    (t.part.clock.frame.locked, t.part.clock.frame.relock, t.part.clock.frame.strays, t.part.clock.pictureTicks)

theorem witness_AFrameReferenceIsJudged :
    [pulsed (heard true 0 59999999), pulsed (heard true 0 60000000), pulsed (heard false 2 59999999), 
      pulsed (heard false 2 118799999), pulsed Reference.clear] =
    [some (true, 0, 1, 0), some (true, 0, 0, 1), some (false, 0, 1, 0), some (false, 1, 0, 0), 
      some (false, 1, 0, 0)] := by decide +kernel

theorem witness_AFrameReferenceIsRegained :
    [pulsed (heard false 1 118800000), pulsed (heard false 2 121200000), pulsed (heard false 2 121200001), 
      pulsed (heard false 0 120000000), pulsed { heard false 2 120000000 with lastOscTick := some 999999999 }] =
    [some (false, 2, 0, 0), some (true, 0, 0, 1), some (false, 1, 0, 0), some (false, 1, 0, 0), 
      some (true, 0, 0, 0)] := by decide +kernel

theorem witness_AFrameReferenceIsLost :
    gives .frameReferenceLoss (on (clocked { heard true 0 0 with lossTimer := some 1240000000 } Reference.clear))
      (fun t => (t.part.now, t.part.clock.frame.locked, t.part.clock.frame.losses, t.part.clock.frame.oscillator, t.part.clock.pictureTicks)) =
      some (1240000000, false, 1, some 1360000000, 1) ∧
    gives .oscillatorPictureTick (on (clocked { Reference.clear with oscillator := some 1360000000 } Reference.clear))
      (fun t => (t.part.clock.frame.oscillator, t.part.clock.pictureTicks)) = some (some 1480000000, 1) := by decide +kernel

theorem test_timecode_drops :
    Timecode.advance .p30d ⟨0, 0, 59, 29⟩ = ⟨0, 1, 0, 2⟩ ∧ Timecode.advance .p30d ⟨0, 9, 59, 29⟩ = ⟨0, 10, 0, 0⟩ ∧
    Timecode.advance .p60d ⟨0, 0, 59, 59⟩ = ⟨0, 1, 0, 4⟩ ∧ Timecode.advance .p25 ⟨23, 59, 59, 24⟩ = ⟨0, 0, 0, 0⟩ ∧
    Timecode.advance .p50 ⟨9, 59, 59, 49⟩ = ⟨10, 0, 0, 0⟩ := by decide

/-- A clock at this rate. -/
def rated (r : Rate) (p : Part) : Part := { p with clock := { p.clock with rate := r } }

theorem witness_TimecodeAdvancesAndIsSet :
    Timecode.inRange .p30d ⟨23, 59, 59, 29⟩ = true ∧ Timecode.isDropped .p30d ⟨23, 59, 59, 29⟩ = false ∧
    gives (.setTimecode 0 24 59 59 23) (held (.setTimecode 0 24 59 59 23)) (fun t => t.part.clock.pendingTc) =
      some (some ⟨23, 59, 59, 24⟩) ∧
    ([Instr.setTimecode 0 25 0 0 0, .setTimecode 0 0 60 0 0, .setTimecode 0 0 0 60 0, .setTimecode 0 0 0 0 24].all fun c =>
      result c == some .badField) = true ∧
    ([Instr.setTimecode 0 1 0 1 0, .setTimecode 0 30 0 0 0].all fun c => result c (rated .p30d) == some .badField) = true ∧
    ([Instr.setTimecode 0 2 0 1 0, .setTimecode 0 0 0 10 0, .setTimecode 0 29 0 0 0].all fun c => result c (rated .p30d) == some .done) = true ∧
    result (.setTimecode 0 3 0 59 0) (rated .p60d) = some .badField ∧ result (.setTimecode 0 49 0 0 0) (rated .p50) = some .done := by
  decide +kernel

/-- What a word clock edge leads to: LOCKED, relock count, stray edges, edge count and block number. -/
def edged (r : Reference) (edges : Nat) : Option (Bool × Nat × Nat × Nat × Word) :=
  gives (.wordClockEdge 0) (on fun p => Part.setEdges edges (clocked Reference.clear r p)) fun t =>
    (t.part.clock.word.locked, t.part.clock.word.relock, t.part.clock.word.strays, t.part.clock.edgeCount, t.part.clock.blockNumber)

theorem witness_AWordClockIsJudged :
    [edged (heard true 0 31249) 46, edged (heard true 0 31250) 46, edged (heard true 0 31250) 47, 
      edged (heard false 9 31249) 0, edged Reference.clear 0] =
    [some (true, 0, 1, 46, 0), some (true, 0, 0, 47, 0), some (true, 0, 0, 0, 1), some (false, 0, 1, 0, 0), 
      some (false, 1, 0, 0, 0)] := by decide +kernel

theorem witness_AWordClockIsRegained :
    [edged (heard false 142 61875) 0, edged (heard false 143 63125) 0, edged (heard false 143 63126) 0, 
      edged { heard false 143 62500 with lastOscTick := some 999999999 } 5] =
    [some (false, 143, 0, 0, 0), some (true, 0, 0, 0, 1), some (false, 1, 0, 0, 0), some (true, 0, 0, 0, 0)] := by decide +kernel

theorem witness_AWordClockIsLost :
    gives .wordClockLoss (on fun p => Part.setEdges 9 (clocked Reference.clear { heard true 0 0 with lossTimer := some 1006000000 } p))
      (fun t => (t.part.now, t.part.clock.word.locked, t.part.clock.edgeCount, t.part.clock.blockNumber, t.part.clock.word.oscillator)) =
      some (1006000000, false, 0, 1, some 1009000000) ∧
    gives .oscillatorBlockTick (on fun p => mixing .running true (clocked Reference.clear { Reference.clear with oscillator := some 7 } p))
      (fun t => (t.part.clock.blockNumber, t.part.mixer.lateTicks, t.part.cmd.notices)) = some (1, 1, [(.mix, 64)]) ∧
    gives .oscillatorBlockTick (on fun p => mixing .stopping true (clocked Reference.clear { Reference.clear with oscillator := some 7 } p))
      (fun t => (t.part.clock.blockNumber, t.part.mixer.lateTicks)) = some (1, 0) := by decide +kernel

/-- A cue line's record replaced. -/
def cue (l : Fin 8) (f : CueLine → CueLine) (p : Part) : Part := p.updCue l f

/-- A cue line in this mode, its raw and debounced levels, and whether its debounce timer runs. -/
def lined (m : CueMode) (raw debounced timer : Bool) (c : CueLine) : CueLine :=
  { c with cfg := ⟨m, .pushPull, 50, 1, 25, 7⟩, raw := raw, debounced := debounced, debounceTimer := if timer then some 9 else none }

theorem witness_ACuePinFollowsItsOutputState :
    (lined .tally true true false (Part.reset.cues.nth 0)).drive = .low ∧
    ({ lined .output true true false (Part.reset.cues.nth 0) with cfg := ⟨.output, .openDrain, 1, 0, 0, 0⟩ } : CueLine).drive = .released ∧
    (lined .mark true true false (Part.reset.cues.nth 0)).drive = .released := by decide +kernel

theorem witness_ALevelCountsOnceItHasHeldSteady :
    gives (.cueRawChange 4 7 false) (on (cue 7 (lined .input true true false)))
      (fun t => ((t.part.cues.nth 7).raw, (t.part.cues.nth 7).debounceTimer)) = some (false, some 150000004) ∧
    gives (.cueRawChange 4 7 true) (on (cue 7 (lined .mark false true true)))
      (fun t => ((t.part.cues.nth 7).raw, (t.part.cues.nth 7).debounceTimer)) = some (true, none) ∧
    gives (.cueRawChange 4 7 false) (on (cue 7 (lined .output true true false)))
      (fun t => ((t.part.cues.nth 7).raw, (t.part.cues.nth 7).pin)) = some (true, false) ∧
    gives (.debounceExpiry 7) (on (cue 7 (lined .input false true true)))
      (fun t => ((t.part.cues.nth 7).debounced, (t.part.cues.nth 7).presses)) = some (false, 0) ∧
    gives (.debounceExpiry 7) (on (cue 7 (lined .mark false true true)))
      (fun t => ((t.part.cues.nth 7).presses, (t.part.cues.nth 7).refusedPresses, t.part.cmd.notices)) = some (1, 1, [(.cue, 7)]) := by
  decide +kernel

theorem witness_SetCueLineReplacesTheRecord :
    ([Instr.setCueLine 0 8 0 0 0 0 0 0, .setCueLine 0 0 5 0 0 0 0 0, .setCueLine 0 0 0 2 0 0 0 0, .setCueLine 0 0 1 0 0 0 0 0,
      .setCueLine 0 0 1 0 51 0 0 0, .setCueLine 0 0 2 0 1 0 0 0, .setCueLine 0 0 2 0 1 1 251 0, .setCueLine 0 0 3 0 0 0 0 8].all fun c =>
      result c == some .badField) = true ∧
    ([Instr.setCueLine 0 7 0 1 65535 0 255 255, .setCueLine 0 7 1 0 50 0 255 255, .setCueLine 0 7 2 0 1 1 250 255,
      .setCueLine 0 7 3 0 0 0 0 7, .setCueLine 0 7 4 1 0 0 0 0].all fun c => result c == some .done) = true ∧
    gives (.setCueLine 0 7 1 0 50 0 0 0) (held (.setCueLine 0 7 1 0 50 0 0 0) (cue 7 fun c => { c with pin := false, openClip := some 4 }))
      (fun t => ((t.part.cues.nth 7).raw, (t.part.cues.nth 7).debounced, (t.part.cues.nth 7).openClip)) = some (false, false, none) := by
  decide +kernel

theorem witness_DriveCueLineSetsTheOutputState :
    result (.driveCueLine 0 8 0) = some .badField ∧ result (.driveCueLine 0 0 2) = some .badField ∧
    result (.driveCueLine 0 7 1) = some .state ∧
    gives (.driveCueLine 0 7 0) (held (.driveCueLine 0 7 0) (cue 7 (lined .output true true false)))
      (fun t => ((t.part.cues.nth 7).outputOn, (t.part.cues.nth 7).drive)) = some (true, .high) ∧
    result (.driveCueLine 0 7 1) (cue 7 (lined .output true true false)) = some .done := by decide +kernel

/-! ## Chapters 3 to 5 -/

/-- Camera K7's least geometry: one tile of 64 bytes and 16 lines, in windows 30 and 31, with a budget of 104. -/
def cfg7 : CameraSettings := ⟨30, 31, 64, 16, 1, .hold, 200, 104, true⟩

/-- Camera K7 changed, with its two windows open at 64 KiB and 128 KiB. -/
def cam7 (f : Camera → Camera) (p : Part) : Part :=
  (win 30 ⟨.opened, 65536, 65536, .frame, 7, 63, 63⟩ (win 31 ⟨.opened, 131072, 65536, .replay, 7, 63, 63⟩ p)).updCamera 7
    fun c => f { c with cfg := cfg7 }

/-- Camera K7 RUNNING with its slot A in this state. -/
def running (x : SlotState) (p : Part) : Part :=
  cam7 (fun c => { c with state := .running, slotA := ⟨x, some ⟨5, ⟨1, 2, 3, 4⟩, 6, true, 104⟩, 0, 0, false⟩, counter := 6 }) p

theorem witness_SetCameraAppliesItsTests :
    ([Instr.setCamera 0 8 0 0 64 16 1 0 1 104 0, .setCamera 0 0 32 0 64 16 1 0 1 104 0, .setCamera 0 0 0 32 64 16 1 0 1 104 0,
      .setCamera 0 0 0 0 0 16 1 0 1 104 0, .setCamera 0 0 0 0 65600 16 1 0 1 104 0, .setCamera 0 0 0 0 65 16 1 0 1 104 0,
      .setCamera 0 0 0 0 64 0 1 0 1 104 0, .setCamera 0 0 0 0 64 2176 1 0 1 67108864 0, .setCamera 0 0 0 0 64 17 1 0 1 104 0,
      .setCamera 0 0 0 0 64 16 0 0 1 104 0, .setCamera 0 0 0 0 64 16 61 0 1 67108864 0, .setCamera 0 0 0 0 64 16 1 2 1 104 0].all fun c =>
      result c == some .badField) = true ∧
    ([Instr.setCamera 0 0 0 0 64 16 1 0 0 104 0, .setCamera 0 0 0 0 64 16 1 0 201 104 0, .setCamera 0 0 0 0 64 16 1 0 1 103 0,
      .setCamera 0 0 0 0 64 16 1 0 1 67108865 0, .setCamera 0 0 0 0 64 16 1 0 1 104 2, .setCamera 0 7 31 31 65536 2160 60 1 200 132903 1].all
      fun c => result c == some .badField) = true ∧
    ([Instr.setCamera 0 0 0 0 64 16 1 0 1 104 0, .setCamera 0 7 31 31 65536 2160 60 1 200 132904 1,
      .setCamera 0 7 31 31 65536 2160 60 1 200 67108864 1].all fun c => result c == some .done) = true := by decide +kernel

theorem witness_SetCameraSetsOrPends :
    result (.setCamera 0 7 30 31 64 16 1 0 1 104 0) (awaiting (.stopCamera 7)) = some .busy ∧
    result (.setCamera 0 7 30 31 128 16 1 0 1 104 0) (running .empty) = some .state ∧
    result (.setCamera 0 7 30 31 64 16 1 0 1 65537 0) (running .empty) = some .badField ∧
    gives (.setCamera 0 7 30 31 64 16 1 1 1 65536 0) (held (.setCamera 0 7 30 31 64 16 1 1 1 65536 0) (running .empty))
      (fun t => (t.part.cameras.nth 7).pending) = some (some ⟨.drop, 1, 65536, false⟩) := by decide +kernel

theorem witness_StartCameraAppliesItsTests :
    result (.startCamera 0 8) = some .badField ∧ result (.startCamera 0 7) (awaiting (.stopCamera 7)) = some .busy ∧
    result (.startCamera 0 7) (running .empty) = some .state ∧ result (.startCamera 0 7) = some .badField ∧
    gives (.startCamera 0 7) (held (.startCamera 0 7) (cam7 id))
      (fun t => ((t.part.cameras.nth 7).state, (t.part.rings.nth 7).extent)) = some (.running, some (131072, 65536)) := by decide +kernel

/-- What a write of one line at the start of K7's slot A leads to. -/
def slotStart (f : Part → Part) : Option (SlotState × Word × List ReqPhase) :=
  gives (.clientRequest 1 5 8 .write 1024 1 (List.replicate 64 (7, true))) (on fun p => ready (f p)) fun t =>
    let c := t.part.cameras.nth 7
    (c.slotA.state, c.counter, (t.part.path.ports.nth 5).queue.map (·.phase))

theorem witness_ASlotStartIsTakenOrHeld :
    requestWf .write 1 (List.replicate 64 (7, true)) = true ∧
    (⟨.write, 1024, 1, List.replicate 64 (7, true)⟩ : Request).covers 65536 64 = true ∧
    ([SlotState.empty, .done, .torn].map fun x => slotStart (running x)) = List.replicate 3 (some (.filling, 7, [.offered])) ∧
    slotStart (running .coding) = some (.coding, 6, [.held]) := by decide +kernel

theorem witness_AHeldWriteIsReleased :
    gives (.holdLimitExpiry 7) (on fun p => (queued 1 (running .coding p)).updCamera 7 fun c => { c with held := some ⟨5, 0, .a, 99⟩ })
      (fun t => let c := t.part.cameras.nth 7
        (t.part.now, c.held, c.counts.torn, c.slotA.state, c.counter)) = some (99, none, 1, .filling, 7) := by decide +kernel

/-- Picture 5 of K7 in the rate-control records. -/
def rate5 : RateRecord := ⟨5, .a, 104, 1, 1, 72, 0, 8, [], false⟩

/-- The coder with this queue of K7's bands, perhaps at work on a job in this phase, and its record of picture 5. -/
def coding (bands : List Nat) (phase : Option JobPhase) (rec : Bool) (p : Part) : Part :=
  { p with coder := { p.coder with
    queue := bands.map fun b => ⟨7, .a, 5, b⟩
    job := phase.map fun x => ⟨⟨7, .a, 5, 0⟩, x, 32, 8, none, none, false, [], []⟩
    rates := p.coder.rates.put 7 (if rec then some rate5 else none) } }

theorem witness_AStoppedCameraKeepsNoWork :
    result (.stopCamera 0 8) = some .badField ∧ result (.stopCamera 0 7) (awaiting (.stopCamera 7)) = some .busy ∧
    result (.stopCamera 0 7) = some .state ∧
    gives (.stopCamera 9 7) (held (.stopCamera 9 7) fun p => coding [0] (some .coding) true (running .coding p))
      (fun t => ((t.part.cameras.nth 7).state, t.part.coder.queue, t.part.cmd.deferred)) =
      some (.stopping, [], [⟨3, 9, .stopCamera 7⟩]) ∧
    gives (.stopCamera 9 7) (held (.stopCamera 9 7) (running .coding))
      (fun t => ((t.part.cameras.nth 7).state, t.part.cmd.completions.length)) = some (.stopped, 1) ∧
    gives (.stopCameraComplete 7) (on fun p => awaiting (.stopCamera 7) (cam7 (fun c => { c with state := .stopping }) p))
      (fun t => ((t.part.cameras.nth 7).state, t.part.cmd.completions)) = some (.stopped, [⟨1, 2, .done, []⟩]) ∧
    runs (.stopCameraComplete 7) (on (running .empty)) = some (on (running .empty)) := by decide +kernel

/-- A replay ring of 64 KiB for K7 with this index. -/
def ringed (index : List PictureRecord) (used : Nat) (p : Part) : Part :=
  p.updRing 7 fun r => { r with extent := some (131072, 65536), index := index, used := used, writePoint := used }

/-- A picture record of K7, published or opening at the ring's start, 104 bytes long. -/
def record (n : Word) (pub : Bool) : PictureRecord :=
  ⟨n, ⟨1, 2, 3, 4⟩, 6, if pub then .published 0 104 8 false else .opening 0 104, 0, 0⟩

theorem witness_TheIdleCoderTakesTheOldestJob :
    runs .jobTake (on (coding [0] (some .coding) true)) = some (on (coding [0] (some .coding) true)) ∧
    gives .jobTake (on fun p => coding [1] none true (running .coding p))
      (fun t => (t.part.coder.job.map (·.phase), t.part.path.streams.nth 0)) = some (some .reading, some ⟨.read, 1040, 4, []⟩) ∧
    gives .jobTake (on fun p => { coding [0] none true (running .coding p) with
        coder := { (coding [0] none true p).coder with queue := [⟨7, .a, 6, 0⟩] } })
      (fun t => (t.part.coder.job, (t.part.coder.counts.nth 7).overlapped, t.part.cmd.notices)) = some (none, 1, [(.hold, 7)]) ∧
    gives .jobTake (on fun p => coding [0] none false (running .coding (ringed [] 0 p)))
      (fun t => (t.part.coder.job.map (·.phase), (t.part.rings.nth 7).used, (t.part.coder.rates.nth 7).map (·.header))) =
      some (some .header, 72, some 72) := by decide +kernel

theorem witness_RateControlStepsTheQuantizer :
    bandTarget rate5 0 = 32 ∧ bandTarget { rate5 with budget := 200 } 0 = 128 ∧ bandTarget { rate5 with spent := 500 } 0 = 32 ∧
    [nextQuantizer 8 100 125, nextQuantizer 8 100 126, nextQuantizer 15 100 126] = [8, 9, 15] ∧
    [nextQuantizer 8 100 75, nextQuantizer 8 100 74, nextQuantizer 0 100 74] = [8, 7, 0] := by decide +kernel

theorem witness_ACodedBandIsPlacedOrItsPictureIsCut :
    gives (.codedEvent 1 [zeros 16]) (on fun p => coding [] (some .coding) true (running .coding (ringed [record 5 false] 104 p)))
      (fun t => (t.part.coder.job.map (·.phase), t.part.coder.job.bind (·.place), (t.part.rings.nth 7).used)) =
      some (some .writing, some 104, 136) ∧
    gives (.codedEvent 1 [zeros 16]) (on fun p => coding [] (some .coding) true (running .coding (ringed [record 5 false] 65535 p)))
      (fun t => (t.part.coder.job.isSome, (t.part.rings.nth 7).cut, t.part.cmd.notices)) = some (false, 1, [(.ring, 7)]) ∧
    gives (.codedEvent 1 []) (on fun p => let q := coding [] (some .coding) true p
        { q with coder := { q.coder with job := q.coder.job.map fun j => { j with discarded := true } } })
      (fun t => (t.part.coder.job.isSome, (t.part.coder.counts.nth 7).discarded)) = some (false, 1) := by decide +kernel

theorem witness_FindPictureReadsTheIndex :
    ([Instr.findPicture 0 8 1 5 0 0 0 0 0, .findPicture 0 0 0 0 0 0 0 0 0, .findPicture 0 0 1 0 1 0 0 0 0, .findPicture 0 0 2 0 0 0 0 0 0,
      .findPicture 0 0 0 0 1 25 0 0 0, .findPicture 0 0 0 0 1 0 60 0 0, .findPicture 0 0 0 0 1 0 0 60 0, .findPicture 0 0 0 0 1 0 0 0 24].all
      fun c => result c == some .badField) = true ∧
    result (.findPicture 0 7 1 5 0 0 0 0 0) (ringed [record 4 true] 104) = some .notFound ∧
    result (.findPicture 0 7 0 0 1 24 59 59 23) (ringed [record 4 true] 104) = some .notFound ∧
    gives (.findPicture 0 7 0 0 1 4 3 2 1) (held (.findPicture 0 7 0 0 1 4 3 2 1) (ringed [record 4 true, record 5 false] 104))
      (fun t => t.part.cmd.completions.map fun c => (c.result, c.data.length, c.data.take 16)) =
      some [(.done, 48, [5, 0, 0, 0, 4, 3, 2, 1, 6, 0, 0, 0, 0, 0, 0, 0])] ∧
    result (.findPicture 0 7 1 4 0 0 0 0 0) (ringed [record 4 true] 104) = some .done := by decide +kernel

theorem witness_RingRoomIsMadeAndGivenBack :
    (Part.makeRoom 7 65536 (ringed [record 4 true] 104 Part.reset)).1 = true ∧
    ((Part.makeRoom 7 65536 (ringed [record 4 true] 104 Part.reset)).2.rings.nth 7).retired = 1 ∧
    (Part.makeRoom 7 65536 (ringed [record 5 false] 104 Part.reset)).1 = false ∧
    (Part.makeRoom 7 65432 (ringed [record 5 false] 104 Part.reset)) = (true, ringed [record 5 false] 104 Part.reset) ∧
    (Part.rollBack 7 5 .torn (ringed [record 5 false] 104 Part.reset)).rings.nth 7 =
      { (ringed [] 0 Part.reset).rings.nth 7 with index := [{ record 5 false with body := .gap .torn }] } := by decide +kernel

/-! ## Chapters 6 and 7 -/

/-- Source S63 with these settings and its fresh flag 3 set, in an OPEN SOUND window 29. -/
def source63 (on' : Bool) (p : Part) : Part :=
  win 29 ⟨.opened, 196608, 65536, .sound, 63, 63, 63⟩ (p.updSource 63 fun r => { r with cfg := ⟨on', 29, 64, 3, 24⟩, fresh := 8 })

/-- Bus B15 ACTIVE or not, in an OPEN PROGRAMME window 28, with these contributions. -/
def bus15 (active : Bool) (list : List Contribution) (p : Part) : Part :=
  win 28 ⟨.opened, 262144, 65536, .programme, 15, 63, 63⟩
    (p.updBus 15 fun r => { r with cfg := ⟨active, 28, 256, 16384, false, 20⟩, contributions := list })

theorem witness_SetSourceReplacesTheRecord :
    ([Instr.setSource 0 64 0 0 4 0 24, .setSource 0 0 2 0 4 0 24, .setSource 0 0 0 32 4 0 24, .setSource 0 0 0 0 3 0 24,
      .setSource 0 0 0 0 65 0 24, .setSource 0 0 0 0 4 4 24, .setSource 0 0 0 0 4 0 17, .setSource 0 0 1 0 4 0 24].all fun c =>
      result c == some .badField) = true ∧
    ([Instr.setSource 0 63 0 31 64 63 16, .setSource 0 0 0 0 4 3 20, .setSource 0 0 0 0 4 0 24].all fun c => result c == some .done) = true ∧
    result (.setSource 0 63 1 29 32 0 24) (source63 true) = some .state ∧
    gives (.setSource 0 63 1 29 64 0 24) (held (.setSource 0 63 1 29 64 0 24) (source63 true))
      (fun t => (t.part.mixer.sources.nth 63).fresh) = some 8 ∧
    gives (.setSource 0 63 0 29 64 0 24) (held (.setSource 0 63 0 29 64 0 24) (source63 true))
      (fun t => (t.part.mixer.sources.nth 63).fresh) = some 0 := by decide +kernel

/-- Four buses with their send flag on. -/
def fourSend (p : Part) : Part :=
  [0, 1, 2, 3].foldl (fun p b => p.updBus b fun r => { r with cfg := { r.cfg with send := true } }) p

theorem witness_SetBusReplacesTheRecord :
    ([Instr.setBus 0 16 0 0 16 0 0 1, .setBus 0 0 2 0 16 0 0 1, .setBus 0 0 0 32 16 0 0 1, .setBus 0 0 0 0 15 0 0 1,
      .setBus 0 0 0 0 257 0 0 1, .setBus 0 0 0 0 16 0 2 1, .setBus 0 0 0 0 16 0 0 0, .setBus 0 0 0 0 256 0 0 21,
      .setBus 0 0 0 0 16 0 0 17, .setBus 0 0 1 0 16 0 0 1].all fun c => result c == some .badField) = true ∧
    ([Instr.setBus 0 15 0 31 256 65535 1 20, .setBus 0 0 0 0 16 0 0 16].all fun c => result c == some .done) = true ∧
    result (.setBus 0 15 1 27 256 0 0 1) (bus15 true []) = some .state ∧ result (.setBus 0 15 1 28 255 0 0 1) (bus15 true []) = some .state ∧
    result (.setBus 0 15 0 0 16 0 1 1) fourSend = some .tableFull ∧ result (.setBus 0 3 0 0 16 0 1 1) fourSend = some .done ∧
    gives (.setBus 0 15 1 28 256 9 0 1) (held (.setBus 0 15 1 28 256 9 0 1) (bus15 false []))
      (fun t => (t.part.mixer.buses.nth 15).cfg.active) = some true := by decide +kernel

/-- Thirty-two contributions, of S0 to S31. -/
def fullList : List Contribution := (List.range 32).map fun i => ⟨Fin.ofNat 64 i, 5, 5, 1, false⟩

theorem witness_GainCommandsEditTheContributionList :
    ([Instr.setGain 0 16 0 0 1, .setGain 0 0 64 0 1, .setGain 0 0 0 0 0, .removeSource 0 16 0, .removeSource 0 0 64].all fun c =>
      result c == some .badField) = true ∧
    gives (.setGain 0 15 9 65535 65535) (held (.setGain 0 15 9 65535 65535) (bus15 true [⟨8, 5, 5, 1, false⟩, ⟨10, 5, 5, 1, false⟩]))
      (fun t => (t.part.mixer.buses.nth 15).contributions) =
      some [⟨8, 5, 5, 1, false⟩, ⟨9, 0, 65535, 65535, false⟩, ⟨10, 5, 5, 1, false⟩] ∧
    gives (.setGain 0 15 31 7 2) (held (.setGain 0 15 31 7 2) (bus15 true fullList))
      (fun t => ((t.part.mixer.buses.nth 15).contributions.getLast?, (t.part.mixer.buses.nth 15).contributions.length)) =
      some (some ⟨31, 5, 7, 2, false⟩, 32) ∧
    result (.setGain 0 15 32 7 2) (bus15 true fullList) = some .tableFull ∧
    result (.removeSource 0 15 32) (bus15 true fullList) = some .notFound ∧
    gives (.removeSource 0 15 31) (held (.removeSource 0 15 31) (bus15 true fullList))
      (fun t => (t.part.mixer.buses.nth 15).contributions.getLast?) = some (some ⟨31, 5, 0, 1, true⟩) := by decide +kernel

theorem witness_TheMixerStartsAndStopsBetweenPasses :
    result (.startMixer 0) (awaiting .stopMixer) = some .busy ∧ result (.startMixer 0) (mixing .running false) = some .state ∧
    result (.startMixer 0) = some .done ∧ result (.stopMixer 0) (awaiting .stopMixer) = some .busy ∧
    result (.stopMixer 0) = some .state ∧ result (.stopMixer 0) (mixing .running false) = some .done ∧
    gives (.stopMixer 9) (held (.stopMixer 9) (mixing .running true)) (fun t => (t.part.mixer.state, t.part.cmd.deferred)) =
      some (.stopping, [⟨3, 9, .stopMixer⟩]) ∧
    gives .stopMixerComplete (on fun p => awaiting .stopMixer (mixing .stopping false p))
      (fun t => (t.part.mixer.state, t.part.cmd.completions)) = some (.stopped, [⟨1, 2, .done, []⟩]) := by decide +kernel

theorem witness_APassTakesFreshSlots :
    let list : List Contribution := [⟨63, 5, 5, 1, false⟩]
    let after (f : Part → Part) (n : Word) := (((f Part.reset).startPass n).mixer.sources.nth 63)
    (after (fun p => bus15 true list (source63 true p)) 0).fresh = 0 ∧ (after (fun p => bus15 true list (source63 true p)) 1).late = 1 ∧
    (after (fun p => bus15 false list (source63 true p)) 64).fresh = 0 ∧ (after (fun p => bus15 true list (source63 false p)) 0).fresh = 8 := by
  decide +kernel

theorem witness_SamplesStayInRange :
    [sampleOf 16 0x7FFFFFFF, sampleOf 20 0x80000FFF, sampleOf 24 0xFFFFFFFF, sampleOf 24 0x80000000] =
      [8388352, -8388608, -1, -8388608] ∧
    [clampSample 8388607, clampSample 8388608, clampSample (-8388608), clampSample (-8388609)] = [8388607, 8388607, -8388608, -8388608] ∧
    [(⟨0, 5, 9, 4, false⟩ : Contribution).ramped.current, (⟨0, 5, 8, 4, false⟩ : Contribution).ramped.current,
      (⟨0, 5, 1, 4, false⟩ : Contribution).ramped.current, (⟨0, 5, 2, 4, true⟩ : Contribution).ramped.current] = [9, 8, 1, 2] := by
  decide +kernel

/-- A clip numbered 9 of K7, from picture 4 on, in this state. -/
def clip9 (x : ClipState) (labels : List Nat) : Clip :=
  ⟨9, x, 0x80, Table.all 4, if x = .opened then none else some (Table.all 5, ⟨1, 2, 3, 4⟩), 0, ⟨0, 0, 0, 0⟩, none, 0, 3000, labels,
    false, .unsent, 0, 0, 0, 0⟩

/-- That clip at position 0, over two pictures of K7 that it pins. -/
def clipped (x : ClipState) (labels : List Nat) (p : Part) : Part :=
  (ringed [{ record 4 true with pins := 1 }, { record 5 true with pins := 1 }] 208 p).updClip 0 fun _ => some (clip9 x labels)

theorem witness_MarkInRefuses :
    ([Instr.markIn 0 1 0 2 1 [], .markIn 0 0 0 0 0 [], .markIn 0 1 251 0 0 [], .markIn 0 1 0 1 0 [], .markIn 0 1 0 1 30001 [],
      .markIn 0 1 250 1 250 [], .markIn 0 1 0 0 0 [1, 2, 3, 4, 5, 6, 7, 8, 9], .markIn 0 1 0 0 0 [0], .markIn 0 1 0 0 0 [3, 3]].all fun c =>
      result c == some .badField) = true ∧
    result (.markIn 0 1 0 0 0 []) (fun p => { p with clips := { p.clips with table := Table.all (some (clip9 .kept [])) } }) = some .tableFull ∧
    result (.markIn 0 0x7F 0 0 0 []) (running .empty) = some .state := by decide +kernel

theorem witness_MarkInOpensAClip :
    gives (.markIn 0 0x80 250 1 251 [1, 2, 3, 4, 5, 6, 7, 65535])
      (held (.markIn 0 0x80 250 1 251 [1, 2, 3, 4, 5, 6, 7, 65535]) fun p => running .coding (ringed [record 5 true] 104 p))
      (fun t => ((t.part.clips.table.nth 0).map fun c => (c.number, c.inPoints.nth 7, c.limit), (t.part.rings.nth 7).index.map (·.pins))) =
      some (some (1, 5, 251), [1]) ∧
    gives (.markIn 0 0xFF 1 0 0 []) (held (.markIn 0 0xFF 1 0 0 []) fun p => running .coding (ringed [record 5 true, record 6 true] 208 p))
      (fun t => (t.part.clips.table.nth 0).map fun c => (c.inPoints.nth 7, c.limit, c.labels.length)) = some (some (5, 3000, 0)) := by
  decide +kernel

theorem witness_ClipsAreKeptUnpinnedPinnedAndDeleted :
    ([Instr.markOut 0 9, .unpin 0 9, .pin 0 9, .deleteClip 0 9].all fun c => result c == some .notFound) = true ∧
    [result (.markOut 0 9) (clipped .kept []), result (.markOut 0 9) (clipped .opened []), result (.unpin 0 9) (clipped .loose []),
      result (.unpin 0 9) (clipped .kept []), result (.pin 0 9) (clipped .lost []), result (.pin 0 9) (clipped .kept []),
      result (.pin 0 9) (clipped .opened []), result (.pin 0 9) (clipped .loose []), result (.deleteClip 0 9) (clipped .lost [])] =
      [some .state, some .done, some .state, some .done, some .gone, some .state, some .state, some .done, some .done] := by decide +kernel

theorem witness_ClipsMoveTheirPins :
    gives (.unpin 0 9) (held (.unpin 0 9) (clipped .kept [])) (fun t => (t.part.rings.nth 7).index.map (·.pins)) = some [0, 0] ∧
    gives (.pin 0 9) (held (.pin 0 9) (clipped .loose [])) (fun t => (t.part.rings.nth 7).index.map (·.pins)) = some [2, 2] ∧
    gives (.deleteClip 0 9) (held (.deleteClip 0 9) (clipped .opened [])) (fun t => (t.part.rings.nth 7).index.map (·.pins)) =
      some [0, 0] ∧
    gives (.markOut 0 9) (held (.markOut 0 9) (clipped .opened []))
      (fun t => (t.part.clips.table.nth 0).map fun c => (c.state, c.out.map fun o => o.1.nth 7)) = some (some (.kept, some 5)) := by
  decide +kernel

theorem witness_LabelsAreAddedAndRemoved :
    [result (.addLabel 0 9 0) (clipped .kept []), result (.addLabel 0 9 1), result (.addLabel 0 9 1) (clipped .kept [1]),
      result (.addLabel 0 9 65535) (clipped .kept [1, 2, 3, 4, 5, 6, 7, 8]), result (.addLabel 0 9 65535) (clipped .lost [1, 2, 3, 4, 5, 6, 7]),
      result (.removeLabel 0 9 0), result (.removeLabel 0 9 1), result (.removeLabel 0 9 2) (clipped .kept [1]),
      result (.removeLabel 0 9 1) (clipped .kept [1])] =
      [some .badField, some .notFound, some .badField, some .tableFull, some .done, some .badField, some .notFound, some .notFound,
        some .done] := by decide +kernel

theorem witness_SendClipStartsAnAccount :
    [result (.sendClip 0 9), result (.sendClip 0 9) (clipped .opened []),
      result (.sendClip 0 9) (fun p => (clipped .kept [] p).updClip 0 fun _ => some { clip9 .kept [] with send := .sending }),
      result (.sendClip 0 9) (fun p => let q := clipped .kept [] p
        { q with sender := { q.sender with cursors := Table.all (some ⟨0, 1, 0, 0, 0, 0⟩) } })] =
      [some .notFound, some .state, some .state, some .busy] ∧
    gives (.sendClip 0 9) (held (.sendClip 0 9) (clipped .kept []))
      (fun t => ((t.part.clips.table.nth 0).map (·.send), t.part.sender.items.map (·.kind.cls), t.part.sender.cursors.nth 0)) =
      some (some .sending, [.label, .clip, .clip], none) := by decide +kernel

theorem witness_TheMirrorWritesTheLowestPendingPosition :
    runs .mirrorWriteStart State.reset = some State.reset ∧
    gives .mirrorWriteStart (on fun p => win 27 ⟨.opened, 65536, 65536, .clipList, 0, 63, 0⟩
        (let q := clipped .kept [] p; { q with clips := { q.clips with mirror := [0] } }))
      (fun t => (t.part.clips.mirror, t.part.clips.writing, (t.part.path.streams.nth 4).map fun r => (r.line, r.count))) =
      some ([], some 0, some (1024, 4)) := by decide +kernel

/-! ## Chapters 8 and 9 -/

/-- A LIVE item of K7's picture 4, one fragment of 104 bytes, none or all dispatched. -/
def item0 (queued : Bool) (sent : Nat) : Item :=
  ⟨0, .livePicture 7 4, queued, 131072, 131072, 65536, 104, 1, sent, 0, false, 0, 900, false⟩

/-- That item's descriptor under this sequence number, in this state. -/
def desc (seq : Word) (x : DescState) (dispatches : Nat) : Descriptor :=
  ⟨seq, 0, .live, 0, 1, [(131072, 104)], [], 136, if x = .queuedOnLane ∨ x = .transmitting ∨ x = .building then some 3 else none, x,
    none, dispatches, 900, false⟩

/-- The send engine with these items and this store. -/
def sending (items : List Item) (store : List Descriptor) (p : Part) : Part :=
  { p with sender := { p.sender with items := items, nextItem := 1, store := store, seq := 20 } }

/-- Lane L3 changed. -/
def lane3 (f : Lane → Lane) (p : Part) : Part := p.updLane 3 f

/-- Lane L3 in UP, its window 64 KiB. -/
def up (r : Lane) : Lane := { r with state := .up, carrier := true, filtered := true }

theorem witness_StaleItemsAndExpiredDescriptorsAreDropped :
    runs (.itemStale 0) State.reset = some State.reset ∧
    runs (.itemStale 0) (on (sending [item0 false 1] [])) = some (on (sending [item0 false 1] [])) ∧
    gives (.itemStale 0) (on (sending [item0 true 0] []))
      (fun t => (t.part.now, t.part.sender.items.length, (t.part.sender.classes.nth 1).droppedStale)) = some (900, 0, 1) ∧
    runs (.descriptorExpiry 7) State.reset = some State.reset ∧
    ([DescState.awaitingReceipt, .waiting].map fun x => gives (.descriptorExpiry 7) (on (sending [item0 false 1] [desc 7 x 1]))
      (fun t => (t.part.sender.store.length, (t.part.sender.classes.nth 1).expired))) = [some (0, 1), some (0, 1)] ∧
    ([DescState.building, .transmitting].map fun x => gives (.descriptorExpiry 7) (on (sending [item0 false 1] [desc 7 x 1]))
      (fun t => t.part.sender.store.map (·.mark))) = [some [some .expired], some [some .expired]] := by decide +kernel

theorem witness_ADescriptorQueuedOnALaneExpires :
    gives (.descriptorExpiry 7) (on fun p => lane3 (fun r => { up r with queue := [⟨.link 7, zeros 136⟩, ⟨.echo 1, zeros 64⟩] })
        (sending [item0 false 1] [desc 7 .queuedOnLane 1] p))
      (fun t => (t.part.sender.store.length, (t.part.lanes.nth 3).queue.map (·.kind))) = some (0, [.echo 1]) := by decide +kernel

/-- K7's ring with picture 4 published, and a cursor of the clip at position 0 that stands at picture 4. -/
def walking (p : Part) : Part :=
  let q := clipped .kept [] p
  { q with sender := { q.sender with cursors := q.sender.cursors.put 7 (some ⟨0, 9, 7, 4, 4, 3⟩) } }

theorem witness_ACursorMakesItsNextPicture :
    runs .cursorStep State.reset = some State.reset ∧
    laterThan 4 4 = false ∧ atOrAfter 4 4 = true ∧
    gives .cursorStep (on walking) (fun t => t.part.sender.items.map fun i => (i.kind, i.length, i.queued)) =
      some [(.clipPicture 0 9 7 7 4, 104, true)] := by decide +kernel

theorem witness_ABuildStartsOnTheChosenClassAndLane :
    runs .buildStart State.reset = some State.reset ∧
    runs .buildStart (on (sending [] [desc 7 .waiting 2])) = some (on (sending [] [desc 7 .waiting 2])) ∧
    gives .buildStart (on fun p => lane3 up (sending [] [desc 7 .waiting 2] p))
      (fun t => (t.part.sender.store.map (·.state), t.part.path.streams.nth 2)) =
      some ([.building], some ⟨.read, 2048, 2, []⟩) ∧
    gives .buildStart (on fun p => lane3 up (sending [item0 true 0] [] p))
      (fun t => (t.part.sender.store.map fun d => (d.seq, d.lane, d.frameLength), t.part.sender.seq)) = some ([(20, some 3, 136)], 21) := by
  decide +kernel

theorem witness_TheClassAndLaneAreChosen :
    (sending [item0 true 0] [] Part.reset).sender.chooseClass = some 1 ∧
    (lane3 up Part.reset).laneFor 65536 = some 3 ∧ (lane3 up Part.reset).laneFor 65537 = none := by decide +kernel

/-- A return message for this station at the head of L3's FIFO, over this store. -/
def told (m : MessageBody) (station : Nat) (store : List Descriptor) (p : Part) : Part :=
  lane3 (fun r => { up r with fifo := [⟨station, m⟩] }) (sending [item0 false 1] store p)

/-- What a return message leads to: the FIFO, the unsettled states, and the send counters. -/
def heeded (c : Instr) (m : MessageBody) (store : List Descriptor) : Option (List DescState × SendCounters) :=
  gives c (on (told m 0 store)) fun t => (t.part.sender.store.map (·.state), t.part.sender.counts)

theorem witness_AReceiptIsActedOn :
    gives (.receipt 3) (on (told (.receipt 7 7) 5 [desc 7 .awaitingReceipt 1])) (fun t => (t.part.sender.store.length, t.part.sender.counts)) =
      some (1, ⟨0, 0, 0, 0, 0, 0, 0, 0, 1⟩) ∧
    heeded (.receipt 3) (.receipt 7 7) [desc 7 .awaitingReceipt 1] = some ([], ⟨1, 0, 0, 0, 0, 0, 0, 0, 0⟩) ∧
    heeded (.receipt 3) (.receipt 7 7) [desc 8 .awaitingReceipt 1] = some ([.awaitingReceipt], ⟨0, 1, 0, 0, 0, 0, 0, 0, 0⟩) ∧
    heeded (.receipt 3) (.receipt 0 511) [desc 7 .awaitingReceipt 1] = some ([.awaitingReceipt], ⟨0, 0, 1, 0, 0, 0, 0, 0, 0⟩) ∧
    (heeded (.receipt 3) (.receipt 5 8) [desc 7 .awaitingReceipt 1, desc 9 .waiting 1]).map (·.1) = some [.waiting] := by decide +kernel

theorem witness_AResendIsActedOn :
    heeded (.resend 3) (.resend 7) [desc 7 .awaitingReceipt 2] = some ([.waiting], ⟨0, 0, 0, 1, 0, 0, 0, 0, 0⟩) ∧
    heeded (.resend 3) (.resend 7) [desc 7 .awaitingReceipt 3] = some ([.awaitingReceipt], ⟨0, 0, 0, 0, 0, 1, 0, 0, 0⟩) ∧
    heeded (.resend 3) (.resend 7) [desc 7 .waiting 1] = some ([.waiting], ⟨0, 0, 0, 0, 1, 0, 0, 0, 0⟩) ∧
    heeded (.resend 3) (.resend 7) [] = some ([], ⟨0, 0, 0, 0, 0, 1, 0, 0, 0⟩) := by decide +kernel

theorem witness_ALaneTestIsActedOn :
    heeded (.laneTest 3) (.laneTest 7) [] = some ([], ⟨0, 0, 0, 0, 0, 0, 1, 0, 0⟩) ∧
    gives (.laneTest 3) (on (told (.laneTest 7) 0 [])) (fun t => ((t.part.lanes.nth 3).queue.map fun f => (f.kind, f.bytes.length),
      (t.part.lanes.nth 3).sending.map fun x => (x.1.kind, x.2))) = some ([], some (.echo 7, 153600)) ∧
    gives (.laneTest 3) (on fun p => lane3 (fun r => { r with sending := some (⟨.link 7, zeros 136⟩, 5000) }) (told (.laneTest 7) 0 [] p))
      (fun t => (t.part.lanes.nth 3).queue.map fun f => (f.kind, f.bytes.length)) = some [(.echo 7, 64)] ∧
    gives (.laneTest 3) (on fun p => lane3 (fun r => { r with state := .down }) (told (.laneTest 7) 0 [] p))
      (fun t => t.part.sender.counts.droppedEchoes) = some 1 := by decide +kernel

theorem witness_ClassCommandsSetAndFlush :
    ([Instr.setClass 0 4 1 1, .setClass 0 0 0 1, .setClass 0 0 256 1, .setClass 0 0 1 0, .setClass 0 0 1 60001, .flushClass 0 4].all fun c =>
      result c == some .badField) = true ∧
    [result (.setClass 0 3 255 60000), result (.setClass 0 0 1 1)] = [some .done, some .done] ∧
    gives (.flushClass 0 1) (held (.flushClass 0 1) (sending [item0 true 0] []))
      (fun t => (t.part.sender.items.length, (t.part.sender.classes.nth 1).flushed, t.part.cmd.completions.map (·.data))) =
      some (0, 1, [[1, 0]]) := by decide +kernel

theorem witness_ALaneIsSetAndTurnedOn :
    ([Instr.setLane 0 4 2 4 0 1 0, .setLane 0 0 1 4 0 1 0, .setLane 0 0 2 3 0 1 0, .setLane 0 0 2 257 0 1 0, .setLane 0 0 2 4 4 1 0,
      .setLane 0 0 2 4 0 2 0, .setLane 0 0 2 4 0 1 2, .laneOn 0 4].all fun c => result c == some .badField) = true ∧
    [result (.setLane 0 3 65535 256 3 8 1), result (.setLane 0 3 2 4 0 1 0) (awaiting (.laneOff 3)), result (.setLane 0 3 2 4 0 1 0) (lane3 up),
      result (.laneOn 0 3) (awaiting (.laneOff 3)), result (.laneOn 0 3) (lane3 up)] =
      [some .done, some .busy, some .state, some .busy, some .state] ∧
    gives (.laneOn 0 3) (held (.laneOn 0 3) (lane3 fun r => { r with carrier := true }))
      (fun t => let r := t.part.lanes.nth 3
        (r.state, r.breakEnd, r.settleTimer)) = some (.waitCarrier, some 76800, some 300000000) := by decide +kernel

/-- Lane L3 in UP with descriptor 7's frame on its way out and an echo behind it. -/
def sendingLane (r : Lane) : Lane :=
  { up r with sending := some (⟨.link 7, zeros 136⟩, 5000), queue := [⟨.echo 1, zeros 64⟩] }

theorem witness_LaneOffEmptiesTheLane :
    [result (.laneOff 0 4), result (.laneOff 0 3) (awaiting (.laneOff 3)), result (.laneOff 0 3)] = [some .badField, some .busy, some .done] ∧
    gives (.laneOff 9 3) (held (.laneOff 9 3) fun p => lane3 sendingLane (sending [item0 false 1] [desc 7 .transmitting 1] p))
      (fun t => ((t.part.lanes.nth 3).breakEnd, t.part.cmd.deferred, t.part.sender.store.map (·.state))) =
      some (some 76800, [⟨3, 9, .laneOff 3⟩], [.waiting]) ∧
    gives (.breakSentEnd 3) (on fun p => awaiting (.laneOff 3) (lane3 (fun r => { r with breakEnd := some 6 }) p))
      (fun t => ((t.part.lanes.nth 3).breakEnd, t.part.cmd.completions)) = some (none, [⟨1, 2, .done, []⟩]) ∧
    gives (.breakSentEnd 3) (on (lane3 fun r => { r with breakEnd := some 6 })) (fun t => (t.part.now, t.part.cmd.completions)) =
      some (6, []) ∧
    gives (.breakSentEnd 3) (on (lane3 fun r => { up r with breakEnd := some 6, queue := [⟨.echo 1, zeros 64⟩] }))
      (fun t => (t.part.lanes.nth 3).sending.map (·.2)) = some (some 153606) := by decide +kernel

/-- The carrier's two levels and timers on L3 after a command. -/
def carried (c : Instr) (f : Lane → Lane) : Option (LaneState × Bool × Option Nat × Option Nat) :=
  gives c (on (lane3 f)) fun t => let r := t.part.lanes.nth 3
    (r.state, r.filtered, r.filterTimer, r.settleTimer)

theorem witness_ALaneComesUp :
    [carried (.carrierChange 1 3 true) id, carried (.carrierChange 1 3 true) (fun r => { r with state := .waitCarrier }),
      carried (.carrierChange 1 3 false) (fun r => { r with state := .down, carrier := true, filterTimer := some 4 }),
      carried (.carrierChange 1 3 true) (fun r => { r with state := .down, cfg := { r.cfg with filter := .none } }),
      carried (.carrierFilterExpiry 3) (fun r => { r with state := .waitCarrier, carrier := true, filterTimer := some 4 }),
      carried (.carrierFilterExpiry 3) (fun r => { r with state := .down, filtered := true, filterTimer := some 4, settleTimer := some 9 }),
      carried (.settleExpiry 3) (fun r => { r with state := .down, filtered := true, settleTimer := some 9 })] =
    [some (.off, false, none, none), some (.waitCarrier, false, some 15001, none), some (.down, false, none, none),
      some (.down, true, none, some 300000001), some (.waitCarrier, true, none, some 300000004), some (.down, false, none, none),
      some (.up, true, none, none)] ∧
    gives (.modemHoldChange 1 3 true) (on (lane3 up)) (fun t => (t.part.lanes.nth 3).modemHold) = some true ∧
    ([false, true].map fun h => gives (.modemHoldChange 1 3 h) (on (lane3 fun r => { up r with modemHold := true, queue := [⟨.echo 1, zeros 64⟩] }))
      fun t => ((t.part.lanes.nth 3).queue.length, (t.part.lanes.nth 3).sending.map (·.2))) = [some (0, some 153601), some (1, none)] ∧
    gives (.settleExpiry 3) (on (lane3 fun r => { r with state := .down, settleTimer := some 9, queue := [⟨.echo 1, zeros 64⟩] }))
      (fun t => ((t.part.lanes.nth 3).queue.length, (t.part.lanes.nth 3).sending.map (·.2))) = some (0, some 153609) := by decide +kernel

/-- What a failure of L3 leads to: its state, its queue's length and the descriptor's state. -/
def failed (c : Instr) (f : Lane → Lane) : Option (LaneState × Nat × List DescState) :=
  gives c (on fun p => lane3 (fun r => f (sendingLane r)) (sending [item0 false 1] [desc 7 .transmitting 1] p)) fun t =>
    ((t.part.lanes.nth 3).state, (t.part.lanes.nth 3).queue.length, t.part.sender.store.map (·.state))

theorem witness_ALaneFails :
    [failed (.carrierFilterExpiry 3) (fun r => { r with carrier := false, filterTimer := some 4 }),
      failed (.carrierChange 1 3 false) (fun r => { r with cfg := { r.cfg with filter := .none } }), failed (.breakReceived 1 3 false) id] =
    List.replicate 3 (some (.down, 0, [.waiting])) := by decide +kernel

theorem witness_FramesGoOutInQueueOrder :
    runs (.transmitStart 3) (on (lane3 up)) = some (on (lane3 up)) ∧
    gives (.transmitStart 3) (on fun p => lane3 (fun r => { up r with queue := [⟨.link 7, zeros 136⟩] })
        (sending [item0 false 1] [desc 7 .queuedOnLane 1] p))
      (fun t => ((t.part.lanes.nth 3).sending.map (·.2), t.part.sender.store.map (·.state))) = some (some 326400, [.transmitting]) ∧
    gives (.transmitComplete 3) (on fun p => lane3 sendingLane (sending [item0 false 1] [desc 7 .transmitting 1] p))
      (fun t => ((t.part.lanes.nth 3).counts.framesSent, t.part.sender.store.map (·.state), t.part.outputs.length,
        (t.part.lanes.nth 3).queue.length, (t.part.lanes.nth 3).sending.map fun x => (x.1.kind, x.2))) =
      some (1, [.awaitingReceipt], 1, 0, some (.echo 1, 158600)) ∧
    gives (.transmitComplete 3) (on fun p => lane3 (fun r => { sendingLane r with modemHold := true }) (sending [item0 false 1] [desc 7 .transmitting 1] p))
      (fun t => ((t.part.lanes.nth 3).queue.length, (t.part.lanes.nth 3).sending)) = some (1, none) ∧
    gives (.transmitComplete 3) (on fun p => lane3 sendingLane (sending [item0 false 1] [{ desc 7 .transmitting 1 with mark := some .expired }] p))
      (fun t => t.part.sender.store) = some [] ∧
    gives (.transmitComplete 3) (on (lane3 fun r => { up r with sending := some (⟨.echo 1, zeros 64⟩, 9) })) (fun t => t.part.outputs) =
      some [.frame 3 (zeros 64)] := by decide +kernel

/-- A RESEND of descriptor 7 for every station, as it is on the line. -/
def resend7 : List Byte := [0x5A, 0xA5, 1, 0, 7, 0, 0, 0, 0xBF, 0x4A, 0x49, 0xE7]

/-- The receive path of L3 after a command: its state, its FIFO's length, and the hold output before the error counts. -/
def received (c : Instr) (f : Lane → Lane) : Option (Receive × Nat × List Nat) :=
  gives c (on (lane3 fun r => f (up r))) fun t => let r := t.part.lanes.nth 3
    (r.receive, r.fifo.length, [if r.returnHold then 1 else 0, r.counts.checkErrors, r.counts.framingErrors, r.counts.overruns])

/-- A FIFO of this depth that already holds this many messages, with a message being gathered. -/
def gathering (depth n : Nat) (r : Lane) : Lane :=
  { r with receive := .gathering, fifo := List.replicate n ⟨0, .resend 1⟩, cfg := { r.cfg with depth := depth } }

theorem witness_ReturnMessagesAreGathered :
    [received (.markerFirstByte 1 3 true) id, received (.markerFirstByte 1 3 false) id, received (.returnMessageEnd 1 3 resend7) (gathering 1 0),
      received (.returnMessageEnd 1 3 resend7) (gathering 8 6), received (.returnMessageEnd 1 3 resend7) (gathering 1 1)] =
    [some (.gathering, 0, [0, 0, 1, 0]), some (.gathering, 0, [0, 0, 0, 0]), some (.between, 1, [1, 0, 0, 0]),
      some (.between, 7, [0, 0, 0, 0]), some (.between, 1, [0, 0, 0, 1])] := by decide +kernel

theorem witness_ReturnMessagesAreGatheredOrDropped :
    [received (.returnMessageEnd 1 3 (resend7.set 8 6)) (gathering 1 0), received (.returnMessageEnd 1 3 (resend7.set 1 0)) (gathering 1 0),
      received (.breakReceived 1 3 true) (fun r => { r with state := .waitCarrier }),
      received (.breakReceived 1 3 false) (fun r => { r with state := .down }),
      received (.breakReceiveEnd 1 3) (fun r => { r with state := .down, receive := .inBreak })] =
    [some (.between, 0, [0, 1, 0, 0]), some (.between, 0, [0, 0, 1, 0]), some (.inBreak, 0, [0, 0, 1, 0]),
      some (.inBreak, 0, [0, 0, 0, 0]), some (.between, 0, [0, 0, 0, 0])] := by decide +kernel

theorem test_check_value : crc [0x31, 0x32, 0x33, 0x34, 0x35, 0x36, 0x37, 0x38, 0x39] = 0xCBF43926 := by decide +kernel

/-! ## Chapters 10 and 11 -/

/-- Live rings of 16 records, the command ring in window 30 and the status ring in window 31. -/
def rings (p : Part) : Part := { p with cmd := { p.cmd with rings := some ⟨30, 31, 65536, 131072, 16, 16⟩ } }

/-- A command engine with live rings, changed. -/
def engine (f : Commander → Commander) : State := on fun p => let q := rings p; { q with cmd := f q.cmd }

theorem witness_TailAndHeadWordsAreTakenOrCounted :
    runs .tailWordWrite (engine id) = some (engine id) ∧ runs .headWordWrite (engine id) = some (engine id) ∧
    gives .tailWordWrite (engine fun c => { c with tailShown := [15, 3] }) (fun t => (t.part.cmd.fetchTail, t.part.cmd.tailShown)) =
      some (15, [3]) ∧
    gives .tailWordWrite (engine fun c => { c with tailShown := [16] }) (fun t => (t.part.cmd.counts.badTails, t.part.cmd.notices)) =
      some (1, [(.command, 0)]) ∧
    ([0, 2, 15].map fun h => gives .headWordWrite (engine fun c => { c with headShown := [h], takenHead := 15, writeIndex := 2 })
      (fun t => t.part.cmd.takenHead)) = [some 0, some 2, some 15] ∧
    ([3, 14, 16].map fun h => gives .headWordWrite (engine fun c => { c with headShown := [h], takenHead := 15, writeIndex := 2 })
      (fun t => t.part.cmd.counts.badHeads)) = [some 1, some 1, some 1] := by decide +kernel

/-- What a fetch offers. -/
def fetched (f : Commander → Commander) : Option (Option Request) := gives .commandFetch (engine f) fun t => t.part.path.streams.nth 3

theorem witness_AFetchWaitsForRoom :
    fetched (fun c => { c with head := 15, fetchTail := 0, takenHead := 0, writeIndex := 14 }) = some (some ⟨.read, 1040, 1, []⟩) ∧
    [fetched id, fetched (fun c => { c with fetchTail := 1, takenHead := 0, writeIndex := 15 }),
      fetched (fun c => { c with fetchTail := 1, notices := [(.hold, 0)] }), fetched (fun c => { c with fetchTail := 1, deferred := List.replicate 8 ⟨0, 0, .quiesce⟩ }),
      fetched (fun c => { c with fetchTail := 1, deferred := [⟨0, 0, .engineReset⟩] }), fetched (fun c => { c with fetchTail := 1, inHand := some (0, .grant) })] =
      List.replicate 6 (some none) ∧
    result (.unknownCommand 0 35) = some .badKind := by decide +kernel

/-- The channel carries a COMMAND transfer of this use; the record at ring index 15 is a RESUME with tag 7. -/
def commanding (u : CommandUse) (w : Option StatusWrite) (kind : ReqKind) : State :=
  { on (fun p => let q := rings p
      { q with
        cmd := { q.cmd with use := some u, status := w, head := 15 }
        path := { q.path with channel := .stream 3 ⟨kind, 1040, 1, match kind with | .read => [] | .write => []⟩ false } }) with
    dram := [(66560, 5), (66564, 7)] }

theorem witness_ACommandTransferMovesTheRings :
    gives (.transferComplete 1) (commanding .fetch none .read) (fun t => (t.part.cmd.inHand, t.part.cmd.head, t.part.cmd.counts.taken)) =
      some (some (15, .resume 7), 0, 1) ∧
    gives (.transferComplete 1) (commanding .status (some (.record 3 false)) .write)
      (fun t => (t.part.cmd.status, (t.part.path.streams.nth 3).map fun r => (r.line, r.count))) = some (some (.index 3 false), some (2048, 1)) ∧
    gives (.transferComplete 1) (commanding .status (some (.index 3 true)) .write)
      (fun t => (t.part.cmd.status, t.part.cmd.writeIndex, t.part.cmd.resetWritten)) = some (none, 3, true) := by decide +kernel

/-- What a status write leads to: the pending completions and notices left, and the first bytes that are written. -/
def statusWrite (f : Commander → Commander) : Option (Nat × Nat × List Byte) :=
  gives .statusWriteStart (engine f) fun t =>
    (t.part.cmd.completions.length, t.part.cmd.notices.length, match t.part.path.streams.nth 3 with | some r => (r.data.take 8).map (·.1) | none => [])

theorem witness_CompletionsAreWrittenBeforeNotices :
    statusWrite id = some (0, 0, []) ∧
    statusWrite (fun c => { c with notices := [(.hold, 7)], takenHead := 0, writeIndex := 15 }) = some (0, 1, []) ∧
    statusWrite (fun c => { c with completions := [⟨3, 0x01020304, .busy, []⟩], notices := [(.hold, 7)], writeIndex := 14 }) =
      some (0, 1, [1, 5, 3, 0, 4, 3, 2, 1]) ∧
    statusWrite (fun c => { c with notices := [(.hold, 7), (.send, 1)], takenHead := 1 }) =
      some (0, 2, []) ∧
    statusWrite (fun c => { c with notices := [(.hold, 7), (.send, 1)] }) =
      some (0, 1, [2, 6, 7, 0, 0, 0, 0, 0]) := by decide +kernel

theorem witness_ReportsAreReadAtOneInstant :
    ([Instr.readMeters 0 1, .readMeters 0 8589934528, .readCounters 0 6 0 0, .readCounters 0 0 2 0, .readCounters 0 5 0 8589934400].all fun c =>
      result c == some .badField) = true ∧
    [result (.readMeters 0 130944) (win 31 plain), result (.readMeters 0 131008) (win 31 plain), result (.readCounters 0 3 1 65536) (win 31 { plain with kind := .sound })] =
      [none, some .badField, some .badField] ∧
    ([0, 1, 2, 3, 4, 5].map fun g => gives (.readCounters 0 g 1 65536) (held (.readCounters 0 g 1 65536) (win 31 { plain with size := 131072 }))
      (fun t => t.part.cmd.report.map (·.lines))) = [some (some 8), some (some 64), some (some 96), some (some 4), some (some 8), some (some 4)] ∧
    gives (.readMeters 0 8589934464) (held (.readMeters 0 8589934464) fun p => p.updBus 15 fun b => { b with peak := 9, clips := 8 })
      (fun t => ((t.part.mixer.buses.nth 15).peak, (t.part.mixer.buses.nth 15).clips, t.part.cmd.report.map (·.lines))) =
      some (0, 0, some 2) := by decide +kernel

/-- The FALLBACK copy, in force. -/
def inForce (p : Part) : Part := { p with loader := { p.loader with active := some Image.fallback } }

theorem witness_EngineResetAppliesTheActiveCopy :
    [result (.engineReset 0) (awaiting .engineReset), result (.engineReset 0) inForce] = [some .busy, some .state] ∧
    gives (.engineReset 9) (held (.engineReset 9) fun p => inForce (quiet .quiesced (awaiting .stopMixer p)))
      (fun t => (t.part.cmd.completions.map (·.result), t.part.cmd.deferred)) = some ([.cancelled, .done], [⟨3, 9, .engineReset⟩]) ∧
    runs .engineResetComplete State.reset = some State.reset ∧
    gives .engineResetComplete (on fun p => let q := awaiting .engineReset (quiet .quiesced p); { q with cmd := { q.cmd with resetWritten := true } })
      (fun t => (t.part.path.quiesce, t.part.cmd.deferred)) = some (.running, []) := by decide +kernel

/-- An image in the layout of 12.7: a COMMAND ring and a STATUS ring of 16 records, station field 1. -/
def imageWith (check : List Byte) : List Byte :=
  let entries (n : Nat) (f : Nat → List Byte) := (List.range n).flatMap f
  let window (i kind : Nat) := [1] ++ u8 i ++ u64 (65536 * i) ++ u64 65536 ++ u8 kind ++ [0, 63, 63]
  let sections : List (List Byte) := [
    [0] ++ u16 16 ++ u16 16 ++ [0, 1, 1] ++ zeros 64,
    entries 11 fun _ => u16 8,
    entries 32 fun i => if i = 1 then window 1 6 else if i = 2 then window 2 7 else [0] ++ u8 i ++ u64 0 ++ u64 65536 ++ [0, 0, 0, 0],
    entries 8 fun i => u8 i ++ zeros 7,
    entries 8 fun i => [0] ++ u8 i ++ [0, 0] ++ u32 64 ++ u16 16 ++ [1, 0] ++ u16 40 ++ u32 104 ++ [0],
    entries 64 fun i => u8 i ++ [0, 0] ++ u16 4 ++ [0, 24],
    entries 16 fun i => u8 i ++ [0, 0] ++ u16 16 ++ u16 16384 ++ [0] ++ u16 5 ++ (if i = 15 then [2, 3] ++ u16 7 ++ u16 1 ++ [4] ++ u16 0 ++ u16 9 else [0]),
    entries 4 fun i => u8 i ++ u16 8 ++ u16 100,
    entries 4 fun i => u8 i ++ u16 25 ++ u16 64 ++ [2, 8, 0, 1]]
  let lengths := sections.map (·.length)
  let offset (k : Nat) := 104 + (lengths.take k).sum
  [0x4F, 0x4A, 0x32, 0x36] ++ u32 (offset 9) ++ check ++ [9] ++ zeros 19 ++
    (entries 9 fun k => u8 k ++ zeros 3 ++ u16 (offset k) ++ u16 (lengths.getD k 0)) ++ sections.flatten

/-- The image with its check value. -/
def image : List Byte := imageWith [0x98, 0xDB, 0x30, 0xE2]

/-- The check register over bytes, as a number that each byte's step forces. -/
def crcFrom : List Byte → Nat → Nat
  | [], n => n
  | b :: rest, 0 => crcFrom rest (crcByte 0 b).toNat
  | b :: rest, n + 1 => crcFrom rest (crcByte (BitVec.ofNat 32 (n + 1)) b).toNat

theorem crcFrom_eq (bs : List Byte) (c : Word) : crcFrom bs c.toNat = (bs.foldl crcByte c).toNat := by
  induction bs generalizing c with
  | nil => rfl
  | cons b rest ih =>
    rw [List.foldl_cons, ← ih]
    cases h : c.toNat with
    | zero =>
      have e : c = 0 := BitVec.eq_of_toNat_eq h
      rw [crcFrom, e]
    | succ n =>
      have e : BitVec.ofNat 32 (n + 1) = c := by rw [← h, BitVec.ofNat_toNat, BitVec.setWidth_eq]
      rw [crcFrom, e]

theorem image_check : crcFrom (image.take 8 ++ zeros 4 ++ image.drop 12) 4294967295 = 0x1DCF2467 := by decide +kernel

theorem test_image_is_sound : imageSound image = true := by
  have h : imageCheck image = 0xE230DB98#32 := by
    have e := crcFrom_eq (image.take 8 ++ zeros 4 ++ image.drop 12) (BitVec.allOnes 32)
    rw [show (BitVec.allOnes 32).toNat = 4294967295 by decide, image_check] at e
    rw [imageCheck, crc, ← BitVec.eq_of_toNat_eq (x := 0x1DCF2467#32) e]
    decide
  rw [imageSound, h]
  decide +kernel

theorem test_image_is_whole : imageWhole image = true := by
  have h : image.length = 1808 := by decide +kernel
  rw [imageWhole, test_image_is_sound, h]
  decide

theorem test_image_parses : ((parseImage image).map fun i => (i.consistent, i.station, i.buses.nth 15 |>.2)) =
    some (true, 1, [⟨3, 0, 7, 1, false⟩, ⟨4, 0, 0, 9, false⟩]) := by decide +kernel

/-- A flash that holds these bytes from an address on. -/
def flashOf : List Byte → Nat → Memory
  | [], _ => []
  | b :: rest, a => (a, b) :: flashOf rest (a + 1)

theorem readByte_flashOf (blank : Byte) (bs : List Byte) (a k : Nat) :
    Memory.readByte blank (flashOf bs a) (a + k) = bs.getD k blank := by
  induction bs generalizing a k with
  | nil => rfl
  | cons b rest ih =>
    cases k with
    | zero => simp [flashOf, Memory.readByte]
    | succ k =>
      have h : a + (k + 1) = a + 1 + k := by omega
      simp only [flashOf, Memory.readByte]
      rw [if_neg (by omega), h, ih]
      rfl

theorem readBytes_flashOf (bs : List Byte) (o n : Nat) (h : o + n ≤ bs.length) :
    Memory.readBytes flashBlank (flashOf bs 0) o n = (bs.drop o).take n := by
  induction n generalizing o with
  | zero => simp [Memory.readBytes]
  | succ n ih =>
    have e := readByte_flashOf flashBlank bs 0 o
    rw [Nat.zero_add] at e
    rw [Memory.readBytes, ih (o + 1) (by omega), e, List.drop_eq_getElem_cons (by omega : o < bs.length), List.take_succ_cons]
    simp [List.getD_eq_getElem?_getD, List.getElem?_eq_getElem (by omega : o < bs.length)]

theorem witness_TheImageIsChecked : (checkedImage (flashOf image 0) false true).isSome = true := by
  have hl : image.length = 1808 := by decide +kernel
  have hn : imageLength (flashOf image 0) = 1808 := by
    rw [imageLength, readBytes_flashOf _ _ _ (by omega)]
    decide +kernel
  have hb : imageBytes (flashOf image 0) 1808 = image := by
    rw [imageBytes, readBytes_flashOf _ _ _ (by omega), List.drop_zero, ← hl, List.take_length]
  have hp := test_image_parses
  rw [Option.map_eq_some_iff] at hp
  obtain ⟨i, hi, he⟩ := hp
  simp only [Prod.mk.injEq] at he
  have hs : stationOf i.station false true ≠ 0 := by rw [he.2.1]; decide
  simp [checkedImage, hn, hb, hi, test_image_is_whole, he.1, hs, Config.imageMax]

theorem witness_NoImageIsChecked : checkedImage [] false false = none := by decide +kernel

theorem witness_PowerOnThenTheImageOrFallback :
    gives (.powerOn 1 false true false) State.reset (fun t => (t.part.loader.state, t.part.loader.stn1)) = some (.reading, true) ∧
    gives (.powerOn 1 true false true) State.reset (fun t => (t.part.loader.state, t.part.loader.stn0)) = some (.load, true) ∧
    gives (.imageReadComplete 5) (on fun p => p.setLoaderState .reading)
      (fun t => (t.part.loader.state, t.part.loader.faultTimer, t.part.clock.started)) = some (.fallback, some 375000005, true) := by
  decide +kernel

/-- A loader changed. -/
def loading (f : Loader → Loader) : State := on fun p => { p with loader := f { p.loader with state := .load } }

theorem witness_CalibrationMakesMemoryReadyOrFaults :
    gives (.calibrationComplete 1 true) State.reset (fun t => (t.part.now, t.part.path.ready)) = some (1, false) ∧
    gives (.calibrationComplete 1 true) (loading fun l => { l with state := .calibrating, calibrating := true })
      (fun t => (t.part.loader.state, t.part.path.ready)) = some (.running, true) ∧
    ([1, 2].map fun n => gives (.calibrationComplete 1 false) (loading fun l => { l with state := .calibrating, calibrating := true, attempts := n })
      (fun t => (t.part.loader.state, t.part.loader.attempts, t.part.loader.faultHigh))) =
      [some (.calibrating, 2, false), some (.dramFault, 3, true)] ∧
    runs .faultLineToggle State.reset = some State.reset ∧
    gives .faultLineToggle (loading fun l => { l with faultTimer := some 9 }) (fun t => (t.part.loader.faultHigh, t.part.loader.faultTimer)) =
      some (true, some 375000009) := by decide +kernel

/-- A loader that receives an image of 2 bytes, having this many. -/
def receiving (at' : Nat) (l : Loader) : Loader := { l with load := .receiving, length := 2, position := at' }

/-- What a load record leads to: the answer, the load state and the load position. -/
def loaded (c : Instr) (f : Loader → Loader) : Option (List Output × LoadState × Nat) :=
  gives c (loading f) fun t => (t.part.outputs, t.part.loader.load, t.part.loader.position)

/-- The check value of a load record. -/
def loadCheck (kind : Byte) (fields : List Byte) : Word := crc ([kind] ++ leBytes 2 fields.length ++ fields)

theorem witness_LoadRecordsAreAnswered :
    [loaded (.loadStart 1 true 2 (loadCheck 0 (leBytes 4 2))) id, loaded (.loadStart 1 false 2 0) id, loaded (.loadEnd 1 true (loadCheck 2 [])) id,
      loaded (.loadStart 1 false 65537 (loadCheck 0 (leBytes 4 65537))) id, loaded (.loadStart 1 false 0 (loadCheck 0 (leBytes 4 0))) id] =
      [some ([.answer 0x3F], .awaitingStart, 0), some ([.answer 0x3F], .awaitingStart, 0), some ([.answer 0x3F], .awaitingStart, 0),
        some ([.answer 0x21], .awaitingStart, 0), some ([.answer 0x21], .awaitingStart, 0)] ∧
    [loaded (.loadStart 1 false 65536 (loadCheck 0 (leBytes 4 65536))) id, loaded (.loadStart 1 false 1 (loadCheck 0 (leBytes 4 1))) (receiving 1),
      loaded (.eraseComplete 1) (fun l => { receiving 0 l with erasing := true }), loaded (.maintenanceBreak 1) (receiving 1),
      loaded (.maintenanceBreak 1) id] =
      [some ([], .receiving, 0), some ([.answer 0x21], .receiving, 1), some ([.answer 0x2B], .receiving, 0), some ([], .failed, 1),
        some ([], .awaitingStart, 0)] := by decide +kernel

theorem witness_LoadDataIsAnswered :
    loadDataWf [7] [7] = true ∧
    [loaded (.loadData 1 false 1 [7] (loadCheck 1 (leBytes 4 1 ++ [7])) [7]) (receiving 1),
      loaded (.loadData 1 false 1 [7, 8] (loadCheck 1 (leBytes 4 1 ++ [7, 8])) [7, 8]) (receiving 1),
      loaded (.loadData 1 false 0 [7] (loadCheck 1 (leBytes 4 0 ++ [7])) [7]) (receiving 1),
      loaded (.loadData 1 false 1 [7] (loadCheck 1 (leBytes 4 1 ++ [7])) [6]) (receiving 1),
      loaded (.loadData 1 true 1 [7] 0 [7]) (receiving 1)] =
      [some ([.answer 0x2B], .receiving, 2), some ([.answer 0x21], .receiving, 1), some ([.answer 0x21], .receiving, 1),
        some ([.answer 0x23], .failed, 1), some ([.answer 0x3F], .receiving, 1)] ∧
    [loaded (.loadEnd 1 false (loadCheck 2 [])) (receiving 1), loaded (.loadEnd 1 false (loadCheck 2 [])) (receiving 2)] =
      [some ([.answer 0x21], .receiving, 1), some ([.answer 0x58], .failed, 2)] := by decide +kernel

/-- Flash that holds the image, whole, with every byte received. -/
theorem witness_LoadEndsWell :
    ({ loading (fun l => { receiving 1808 l with length := 1808 }) with flash := flashOf image 0 } : State).endCheck = true := by
  have hl : image.length = 1808 := by decide +kernel
  have hn : imageLength (flashOf image 0) = 1808 := by
    rw [imageLength, readBytes_flashOf _ _ _ (by omega)]
    decide +kernel
  have hb : imageBytes (flashOf image 0) 1808 = image := by
    rw [imageBytes, readBytes_flashOf _ _ _ (by omega), List.drop_zero, ← hl, List.take_length]
  simp only [State.endCheck]
  rw [hn]
  simp [loading, receiving, on, State.becomes, hb, test_image_is_sound]

/-! ## Chapter 1, watchers and aliases -/

/-- Camera K7's slots in these states, with pictures 5 and 6 in them, and an alias window. -/
def aliasing (a b : SlotState) (p : Part) : Part :=
  win 29 ⟨.opened, 196608, 65536, .aliased, 7, 63, 63⟩ (cam7 (fun c => { c with
    slotA := ⟨a, some ⟨5, ⟨1, 2, 3, 4⟩, 6, true, 104⟩, 1, 1, false⟩
    slotB := ⟨b, some ⟨6, ⟨1, 2, 3, 5⟩, 7, true, 104⟩, 1, 1, false⟩ }) p)

/-- What a read in the alias window leads to: what leaves the part, and the phase and line of what the queue holds. -/
def aliasRead (a b : SlotState) (line cnt : Nat) : Option (List Output × List (ReqPhase × Nat)) :=
  gives (.clientRequest 1 5 0 .read line cnt []) (on fun p => ready (aliasing a b p)) fun t =>
    (t.part.outputs, (t.part.path.ports.nth 5).queue.map fun a => (a.phase, a.target))

theorem witness_AnAliasReadGoesToTheLatestDoneSlot :
    [aliasRead .filling .coding 3072 1, aliasRead .done .empty 3072 4, aliasRead .done .done 3087 1, aliasRead .torn .done 3084 4,
      aliasRead .done .torn 3085 4] =
    [some ([.refused 5 0 .notReady], []), some ([], [(.offered, 1024)]), some ([], [(.offered, 1055)]), some ([], [(.offered, 1052)]),
      some ([.refused 5 0 .split], [])] := by decide +kernel

theorem witness_AWindowsKindAdmits :
    ([8, 9].map fun n => gives (.clientRequest 1 5 0 .write 1024 1 ((List.range 64).map fun i => (7, decide (i < n))))
      (on fun p => ready (win 0 { plain with kind := .status } p)) fun t => t.part.outputs) = [some [], some [.refused 5 0 .denied]] ∧
    ([WindowKind.frame, .replay, .programme, .status, .clipList].all fun k =>
      asked (win 0 { plain with kind := k, subject := 7 }) 0 .read 1024 1 == some ([], [.offered])) = true ∧
    ([WindowKind.sound, .command].all fun k =>
      asked (win 0 { plain with kind := k }) 0 .write 1024 1 == some ([], [.offered])) = true := by decide +kernel

/-- The CODER stream has its next request while the channel is in this use. -/
def nextRequest (c : Channel) : State := on fun p =>
  let q := ready p
  { q with path := { q.path with channel := c, streams := q.path.streams.put 0 (some ⟨.read, 0, 1, []⟩) } }

theorem test_a_stream_offers_once_its_transfer_has_ended :
    (nextRequest (.stream 0 ⟨.read, 9, 1, []⟩ true)).part.path.offers 6 = false ∧
    (nextRequest (.stream 1 ⟨.read, 9, 1, []⟩ false)).part.path.offers 6 = true ∧
    gives (.transferComplete 1) (nextRequest (.stream 0 ⟨.read, 9, 1, []⟩ true)) (fun t => t.part.path.offers 6) = some true := by
  decide +kernel

/-- Port 5's only request, a write of one line checked in a window, whose transfer the channel carries. -/
def writing (w : Fin 32) (tracked : Bool) (line : Nat) (p : Part) : Part :=
  let q := p.withPath (p.path.putPort 5
    ⟨[⟨9, ⟨.write, line, 1, List.replicate 64 (7, true)⟩, .granted, some w, some w, line, tracked⟩], 0, 0, 0, none⟩)
  { q with path := { q.path with channel := .client 5 } }

/-- K7 with pictures of this many bands, its slot A FILLING with some arrived, abandoned or not. -/
def filling (bands arrived : Nat) (abandoned : Bool) (p : Part) : Part :=
  (running .filling p).updCamera 7 fun c => { c with
    cfg := { c.cfg with lines := 16 * bands }, slotA := { c.slotA with arrived := arrived, abandoned := abandoned } }

/-- What a performed FRAME write leads to: slot A's state, its bands arrived, the torn, abandoned and stray bands
counts, and the length of the band queue. -/
def banded (f : Part → Part) (tracked : Bool) (line : Nat) : Option (SlotState × List Nat) :=
  gives (.transferComplete 3) (on fun p => writing 30 tracked line (f p)) fun t =>
    let c := t.part.cameras.nth 7
    (c.slotA.state, [c.slotA.arrived, c.counts.torn, c.counts.abandoned, c.counts.strayBands, t.part.coder.queue.length])

/-- A band queue with this many jobs of another camera. -/
def jobs (n : Nat) (p : Part) : Part :=
  { p with coder := { p.coder with queue := List.replicate n ⟨0, .a, 0, 0⟩ } }

theorem witness_AFrameWriteIsTracked :
    [banded (filling 2 0 false) true 1039, banded (filling 2 1 false) true 1055, banded (fun p => jobs 63 (filling 2 0 false p)) true 1039,
      banded (fun p => jobs 64 (filling 2 0 false p)) true 1039, banded (fun p => jobs 64 (filling 1 0 false p)) true 1039,
      banded (filling 2 1 true) true 1055] =
    [some (.filling, [1, 0, 0, 0, 1]), some (.coding, [2, 0, 0, 0, 1]), some (.filling, [1, 0, 0, 0, 64]),
      some (.filling, [1, 0, 1, 0, 64]), some (.done, [1, 0, 1, 0, 64]), some (.done, [2, 0, 0, 0, 0])] := by
  decide +kernel

theorem witness_AFrameWriteTearsOrStrays :
    [banded (filling 2 0 false) true 1055, banded (running .done) true 1039, banded (filling 2 0 false) false 1039,
      banded (filling 2 0 false) true 1038] =
    [some (.torn, [0, 1, 0, 0, 0]), some (.done, [0, 0, 0, 1, 0]), some (.filling, [0, 0, 0, 0, 0]), some (.filling, [0, 0, 0, 0, 0])] := by
  decide +kernel

theorem witness_AClientsWriteIsInTransfer :
    State.clientWriting (on fun p => writing 30 true 1039 (filling 2 0 false p)) 5
      ⟨9, ⟨.write, 1039, 1, List.replicate 64 (7, true)⟩, .granted, some 30, some 30, 1039, true⟩ 30 ∧
    CameraSettings.shaped ((filling 2 0 false Part.reset).cameras.nth 7).cfg ∧
    CameraSettings.bandEnd ((filling 2 0 false Part.reset).cameras.nth 7).cfg 65536 .a 0 = 64 * 1039 := by
  unfold State.clientWriting CameraSettings.shaped
  decide +kernel

theorem witness_TailAndHeadWordsAreShown :
    ([1024, 1025].map fun l => gives (.transferComplete 1) (on fun p => writing 30 false l (rings (win 30 { plain with kind := .command } p)))
      fun t => t.part.cmd.tailShown) = [some [0x0707070707070707], some []] ∧
    ([30, 31].map fun w => gives (.transferComplete 1) (on fun p => writing w false 1024 (rings (win w { plain with kind := .status } p)))
      fun t => t.part.cmd.headShown) = [some [], some [0x0707070707070707]] := by decide +kernel

/-! ## Chapters 3 to 5, slot starts and coded bands -/

/-- What a write of one line of K7's frame window leads to: the slots' states, the picture counter, the torn, held
and stray starts counts, and the phase and tracking of what the queue holds. -/
def started (line : Nat) (f : Part → Part) : Option (List SlotState × List Nat × List (ReqPhase × Bool)) :=
  gives (.clientRequest 1 5 8 .write line 1 (List.replicate 64 (7, true))) (on fun p => ready (f p)) fun t =>
    let c := t.part.cameras.nth 7
    ([c.slotA.state, c.slotB.state], [c.counter.toNat, c.counts.torn, c.counts.heldWrites, c.counts.strayStarts],
      (t.part.path.ports.nth 5).queue.map fun a => (a.phase, a.tracked))

/-- K7 under DROP, or with a write held already. -/
def dropping (p : Part) : Part := p.updCamera 7 fun c => { c with cfg := { c.cfg with policy := .drop } }
def holding (p : Part) : Part := p.updCamera 7 fun c => { c with held := some ⟨5, 0, .a, 99⟩ }

theorem witness_AnySlotStartIsJudged :
    [started 1040 (running .coding), started 1024 (running .filling), started 1024 (fun p => dropping (running .coding p)),
      started 1024 (running .coding), started 1024 (fun p => holding (running .coding p))] =
    [some ([.coding, .filling], [7, 0, 0, 0], [(.offered, true)]), some ([.filling, .empty], [7, 1, 0, 0], [(.offered, true)]),
      some ([.filling, .empty], [7, 1, 0, 0], [(.offered, true)]), some ([.coding, .empty], [6, 0, 1, 0], [(.held, false)]),
      some ([.coding, .empty], [6, 0, 0, 1], [(.offered, false)])] := by decide +kernel

theorem witness_ASlotStartTakesPendingSettingsAndTearsItsRecord :
    gives (.clientRequest 1 5 8 .write 1024 1 (List.replicate 64 (7, true))) (on fun p => ready
        ((running .filling (ringed [record 5 false] 104 p)).updCamera 7 fun c => { c with pending := some ⟨.drop, 1, 200, false⟩ }))
      (fun t => ((t.part.cameras.nth 7).cfg.policy, (t.part.cameras.nth 7).slotA.stamp.map (·.budget),
        (t.part.rings.nth 7).index.map (·.body))) = some (.drop, some 200, [.gap .torn]) := by decide +kernel

theorem witness_AHeldWriteIsTakenWhateverItsSlot :
    ([SlotState.coding, .filling, .done].map fun x =>
      gives (.holdLimitExpiry 7) (on fun p => holding (queued 1 (running x p))) fun t =>
        ((t.part.cameras.nth 7).counts.torn, (t.part.path.ports.nth 5).queue.map fun a => (a.phase, a.tracked))) =
    [some (1, [(.offered, true)]), some (1, [(.offered, true)]), some (0, [(.offered, true)])] ∧
    gives (.stopCamera 9 7) (held (.stopCamera 9 7) fun p => holding (queued 1 (running .coding p)))
      (fun t => (t.part.path.ports.nth 5).queue.map fun a => (a.phase, a.tracked)) = some [(.offered, false)] := by decide +kernel

/-- The channel carries a transfer of this stream. -/
def streamed (i : Fin 5) (line cnt : Nat) (p : Part) : Part :=
  { p with path := { p.path with channel := .stream i ⟨.read, line, cnt, []⟩ false } }

/-- The job in progress changed. -/
def job (f : JobRun → JobRun) (p : Part) : Part := { p with coder := { p.coder with job := p.coder.job.map f } }

/-- What a transfer of the CODER stream leads to: the job's phase, the next request's line and count, the spans still
to read, and the coded, published and discarded counts. -/
def coderStep (f : Part → Part) : Option (Option JobPhase × Option (Nat × Nat) × List (Nat × Nat) × List Nat) :=
  gives (.transferComplete 1) (on fun p => streamed 0 0 1 (f p)) fun t =>
    let n := t.part.coder.counts.nth 7
    (t.part.coder.job.map (·.phase), (t.part.path.streams.nth 0).map fun r => (r.line, r.count),
      (t.part.coder.job.map (·.reads)).getD [], [n.codedBands, n.published, n.discarded])

theorem witness_TheCodersTransfersFollowOneAnother :
    [coderStep fun p => job (fun j => { j with discarded := true }) (coding [] (some .reading) true p),
      coderStep fun p => job (fun j => { j with writes := [(131072, zeros 300)] }) (coding [] (some .header) true p),
      coderStep fun p => coding [] (some .header) true (running .coding p),
      coderStep fun p => job (fun j => { j with reads := [(65792, 768)] }) (coding [] (some .reading) true p),
      coderStep fun p => coding [] (some .reading) true p] =
    [some (none, none, [], [0, 0, 1]), some (some .header, some (2048, 4), [], [0, 0, 0]),
      some (some .reading, some (1024, 4), [(65792, 768)], [0, 0, 0]), some (some .reading, some (1028, 4), [(66048, 512)], [0, 0, 0]),
      some (some .coding, none, [], [0, 0, 0])] := by decide +kernel

/-- The last write of the band of picture 5, of this many bands, its record OPENING in the ring. -/
def lastWrite (bands : Nat) (p : Part) : Part :=
  let q := job (fun j => { j with size := some 32 }) (coding [] (some .writing) true (running .coding (ringed [record 5 false] 104 p)))
  { q with coder := { q.coder with rates := q.coder.rates.put 7 (some { rate5 with bandCount := bands }) } }

theorem witness_ABandsEndMovesTheRecordOn :
    gives (.transferComplete 1) (on fun p => streamed 0 0 1 (lastWrite 2 p))
      (fun t => ((t.part.coder.rates.nth 7).map (·.bands), (t.part.cameras.nth 7).slotA.coded, t.part.coder.job.isSome)) =
      some (some [(32, 8)], 1, false) := by decide +kernel

theorem witness_TheLastBandPublishesThePicture :
    gives (.transferComplete 1) (on fun p => streamed 0 0 1 (lastWrite 1 p))
      (fun t => ((t.part.rings.nth 7).index.map (·.body), (t.part.cameras.nth 7).slotA.state,
        t.part.sender.items.map fun i => (i.kind, i.length))) =
      some ([.published 0 104 8 false], .done, [(.livePicture 7 5, 104)]) ∧
    gives (.transferComplete 1) (on fun p => holding (queued 1 (streamed 0 0 1 (lastWrite 1 p))))
      (fun t => ((t.part.cameras.nth 7).slotA.state, (t.part.cameras.nth 7).held,
        (t.part.path.ports.nth 5).queue.map fun a => (a.phase, a.tracked))) = some (.filling, none, [(.offered, true)]) := by
  decide +kernel

theorem witness_AFailedOpenLeavesTheExtent :
    (Part.openPicture 7 ⟨5, ⟨1, 2, 3, 4⟩, 6, true, 104⟩ 65500 (ringed [record 3 true, record 4 false] 208 Part.reset)).1 =
      .failed (.gap .cut) ∧
    ((Part.openPicture 7 ⟨5, ⟨1, 2, 3, 4⟩, 6, true, 104⟩ 65500 (ringed [record 3 true, record 4 false] 208 Part.reset)).2.rings.nth 7).used =
      104 ∧
    Part.openPicture 7 ⟨5, ⟨1, 2, 3, 4⟩, 6, true, 104⟩ 72 (cam7 id Part.reset |>.updRing 7 fun r =>
        { r with index := [{ record 5 false with body := .gap .torn }], writePoint := 7 }) =
      (.failed .lost, cam7 id Part.reset |>.updRing 7 fun r =>
        { r with index := [{ record 5 false with body := .gap .torn }], writePoint := 7 }) := by decide +kernel

/-! ## Chapters 6 and 7, passes, sound and clips -/

/-- A pass for this block in which bus B15 alone is ACTIVE and sending, with S63 at a gain. -/
def passOf (block : Word) (gain : Nat) (phase : PassPhase) (toRead : List (Fin 64 × Nat)) (toWrite : List (Nat × List Byte)) : Pass :=
  ⟨block, phase, (Table.all ⟨⟨false, 0, 16, 0, false, 5⟩, 0, []⟩).put 15 ⟨⟨true, 28, 256, 16384, true, 5⟩, 262144, [(63, gain)]⟩,
    Table.all ⟨⟨true, 29, 64, 0, 24⟩, 196608⟩, [], toRead, [], toWrite⟩

/-- That pass in progress, B15's slot records holding blocks 0 to `n` − 1, at a transfer of the MIXER stream. -/
def passing (q : Pass) (n : Nat) : State :=
  { on (fun p =>
    let b := (bus15 true [⟨63, 0, 0, 1, true⟩, ⟨62, 5, 0, 1, true⟩] p).updBus 15 fun r => { r with
      cfg := { r.cfg with send := true, divider := 5 }, slots := (List.range n).map fun i => (i, BitVec.ofNat 32 i) }
    streamed 1 3084 3 { b with mixer := { b.mixer with state := .running, pass := some q } }) with
    dram := [(197379, 0x40)] }

/-- The next request of the MIXER stream. -/
def mixerNext (s : State) : Option (Option (Nat × Nat)) :=
  gives (.transferComplete 1) s fun t => (t.part.path.streams.nth 1).map fun r => (r.line, r.count)

theorem witness_APassReadsAndWritesInTurn :
    [mixerNext (passing (passOf 4 16384 .reading [(62, 0), (63, 4)] []) 0), mixerNext (passing (passOf 4 16384 .reading [(63, 4)] []) 0),
      mixerNext (passing (passOf 4 16384 .writing [] [(0, [1]), (640, zeros 192)]) 0), mixerNext (passing (passOf 4 0 .writing [] [(0, [1])]) 0)] =
    [some (some (3084, 3)), some (some (4108, 3)), some (some (10, 3)), some none] := by decide +kernel

theorem witness_TheMixEventMetersAndOvertakes :
    ([16384, 65535].map fun g => gives (.transferComplete 1) (passing (passOf 4 g .reading [(63, 4)] []) 0) fun t =>
      let b := t.part.mixer.buses.nth 15
      (b.peak, b.clips, b.slots)) = [some (4194304, 0, [(4, 4)]), some (8388607, 1, [(4, 4)])] := by decide +kernel

theorem witness_APassCompletes :
    ([(4, 5), (4, 4), (3, 5)].map fun x =>
      gives (.transferComplete 1) (passing (passOf (BitVec.ofNat 32 x.1) 0 .writing [] [(0, [1])]) x.2) fun t =>
        let b := t.part.mixer.buses.nth 15
        (b.itemsHanded, b.shortFrames, b.contributions.map (·.source), t.part.sender.items.map (·.length))) =
    [some (1, 0, [62], [960]), some (0, 1, [62], []), some (0, 0, [62], [])] := by decide +kernel

/-- What a write of one line into S63's window leads to: the fresh flags, the overruns and the notices. -/
def sounded (on' : Bool) (line : Nat) : Option (BitVec 64 × Nat × List (Cause × Nat)) :=
  gives (.transferComplete 1) (on fun p => writing 29 false line (source63 on' p)) fun t =>
    let r := t.part.mixer.sources.nth 63
    (r.fresh, r.overruns, t.part.cmd.notices)

theorem witness_ABlockWrittenIsFreshOrAnOverrun :
    [sounded true 3074, sounded true 3083, sounded true 3073, sounded true 3263, sounded false 3074] =
    [some (9, 0, []), some (8, 1, [(.mix, 63)]), some (8, 0, []), some (0x8000000000000008, 0, []), some (8, 0, [])] := by decide +kernel

theorem witness_MarkInWithAnEmptyIndex :
    ([SlotState.filling, .done].map fun x =>
      gives (.markIn 0 0x80 0 0 0 []) (held (.markIn 0 0x80 0 0 0 []) (running x)) fun t =>
        (t.part.clips.table.nth 0).map fun c => c.inPoints.nth 7) = [some (some 5), some (some 6)] ∧
    gives (.markIn 0 0x80 0 0 0 []) (held (.markIn 0 0x80 0 0 0 []) fun p =>
        let q := running .filling p
        { q with clips := { q.clips with lastNumber := 65535, table := q.clips.table.put 0 (some { clip9 .kept [] with number := 1 }) } })
      (fun t => ((t.part.clips.table.nth 1).map (·.number), t.part.clips.lastNumber)) = some (some 2, 2) := by decide +kernel

/-- The clip at position 0 SENDING: its cursor, a LABEL item of it that is queued, and one that is all dispatched. -/
def shipping (x : ClipState) (p : Part) : Part :=
  let q := (clipped x [] p).updClip 0 fun _ => some { clip9 x [] with send := .sending, outstanding := 2, cursors := 1 }
  let label (id : Nat) (queued : Bool) (sent : Nat) : Item :=
    ⟨id, .label 0 9 (zeros 128), queued, 0, 0, 0, 128, 1, sent, 0, false, 0, 900, true⟩
  { q with sender := { q.sender with
    cursors := q.sender.cursors.put 7 (some ⟨0, 9, 7, 5, 5, 0⟩), items := [label 0 true 0, label 1 false 1], nextItem := 2 } }

theorem witness_ASendingClipIsDeleted :
    gives (.deleteClip 0 9) (held (.deleteClip 0 9) (shipping .kept)) (fun t =>
      (t.part.sender.cursors.nth 7, t.part.sender.items.map fun i => (i.id, i.linked), (t.part.sender.classes.nth 2).failed,
        (t.part.rings.nth 7).index.map (·.pins))) = some (none, [(1, false)], 1, [0, 0]) := by decide +kernel

theorem witness_ALongClipIsClosed :
    (((clipped .opened [] Part.reset).forceCloses 7 3004).clips.table.nth 0).map (fun c => (c.state, c.out.map fun o => o.1.nth 7)) =
      some (.kept, some 3003) ∧
    ((clipped .opened [] Part.reset).forceCloses 7 3003) = clipped .opened [] Part.reset := by decide +kernel

theorem witness_ARetirementPassesAnInPoint :
    ([(ClipState.loose, 4), (.kept, 4), (.kept, 3)].map fun x =>
      (((clipped x.1 [] Part.reset).reportRetirement 7 (BitVec.ofNat 32 x.2)).clips.table.nth 0).map fun c => (c.state, c.passed)) =
    [some (.lost, 0x80), some (.kept, 0x80), some (.kept, 0)] := by decide +kernel

/-- A LABEL queue with this many items. -/
def labelled (n : Nat) (p : Part) : Part :=
  { p with sender := { p.sender with
    items := (List.range n).map fun i => ⟨i, .label 1 8 [], true, 0, 0, 0, 128, 1, 0, 0, false, 0, 900, false⟩, nextItem := n } }

theorem witness_ASendsAccountStarts :
    ([15, 16].map fun n => gives (.sendClip 0 9) (held (.sendClip 0 9) fun p => labelled n
        ((clipped .kept [] p).updClip 0 fun _ => some { clip9 .kept [] with cameras := 0xC0 })) fun t =>
      ((t.part.clips.table.nth 0).map fun c => (c.send, c.outstanding, c.failed, c.skipped), (t.part.sender.classes.nth 2).droppedFull)) =
    [some (some (.sending, 3, 0, 2), 0), some (some (.sending, 2, 1, 2), 1)] := by decide +kernel

theorem witness_TheMirrorsTransferEnds :
    gives (.transferComplete 1) (on fun p => streamed 4 1024 4 { p with clips := { p.clips with writing := some 0 } })
      (fun t => (t.part.clips.writing, t.part.path.channel)) = some (none, .free) := by decide +kernel

/-! ## Chapters 8 to 11, frames, records and images -/

/-- An AUDIO item of B15 for blocks 0 to 4, none or all dispatched. -/
def audio (queued : Bool) (sent : Nat) : Item :=
  ⟨0, .audioFrame 15 0 5 262144 256, queued, 262144, 262144, 49152, 960, 1, sent, 0, false, 0, 900, false⟩

/-- What block `m` overtaken leads to: the items' names, each descriptor's mark and no-resend flag, and the counts. -/
def struck (m : Word) (queued : Bool) (store : List Descriptor) : List Nat × List (Option Settlement × Bool) × List Nat :=
  let q := (sending [audio queued store.length] store Part.reset).overtaken 15 m
  (q.sender.items.map (·.id), q.sender.store.map fun d => (d.mark, d.noResend),
    [(q.sender.classes.nth 0).overtaken, (q.sender.classes.nth 0).losses, q.cmd.notices.length])

theorem witness_AnOvertakenBlockStrikesItsItem :
    [struck 5 true [], struck 4 true [], struck 0 false [desc 7 .building 1], struck 0 false [desc 7 .waiting 1],
      struck 0 false [desc 7 .awaitingReceipt 1]] =
    [([0], [], [0, 0, 0]), ([], [], [1, 1, 1]), ([], [(some .dropped, false)], [1, 1, 1]), ([], [], [1, 1, 1]),
      ([0], [(none, true)], [1, 1, 1])] ∧
    (sending [audio false 1] [desc 7 .building 1] Part.reset).sender.items.length = 1 := by decide +kernel

theorem witness_TheSendersNamesAreDistinct : (sending [audio false 1] [desc 7 .building 1, desc 8 .waiting 1] Part.reset).sender.distinct := by
  unfold Sender.distinct
  decide +kernel

/-- A build of descriptor 7 for L3, with these reads still to make, at a transfer of the SENDER stream. -/
def building (reads : List (Nat × Nat)) (f : Lane → Lane) (d : Descriptor) : State := on fun p =>
  let q := lane3 f (sending [item0 false 1] [d] p)
  streamed 2 2048 2 { q with sender := { q.sender with build := some ⟨7, 3, reads, (131072, 104), []⟩ } }

/-- What that transfer leads to: the build, the descriptors' states and lanes, and the lane's queued frames' lengths. -/
def built (s : State) : Option (Option (List (Nat × Nat)) × List (DescState × Option (Fin 4)) × List Nat) :=
  gives (.transferComplete 1) s fun t =>
    (t.part.sender.build.map (·.reads), t.part.sender.store.map fun d => (d.state, d.lane), (t.part.lanes.nth 3).queue.map (·.bytes.length))

/-- L3 in UP with an echo on its way out. -/
def echoing (r : Lane) : Lane := { up r with sending := some (⟨.echo 1, zeros 64⟩, 5000) }

theorem witness_ABuildEnds :
    [built (building [(131200, 300)] up (desc 7 .building 1)), built (building [] up (desc 7 .building 1)),
      built (building [] echoing (desc 7 .building 1)),
      built (building [] id (desc 7 .building 1)), built (building [] up { desc 7 .building 1 with mark := some .expired })] =
    [some (some [(131456, 44)], [(.building, some 3)], []), some (none, [(.transmitting, some 3)], []),
      some (none, [(.queuedOnLane, some 3)], [136]),
      some (none, [(.waiting, none)], []), some (none, [], [])] := by decide +kernel

/-- A copy whose settings differ from the defaults, in force. -/
def copied (p : Part) : Part :=
  { p with loader := { p.loader with active := some { Image.fallback with
    mixerOn := true
    cues := Table.all ⟨.tally, .openDrain, 0, 0, 0, 7⟩
    cameras := Image.fallback.cameras.put 7 (true, { cfg7 with frameWin := 3 })
    buses := Table.all (⟨true, 5, 16, 9, false, 5⟩, [⟨3, 0, 7, 1, false⟩]) } } }

theorem witness_EngineResetTakesTheCopysSettings :
    gives (.engineReset 9) (held (.engineReset 9) fun p => copied (quiet .quiesced p)) (fun t =>
      (t.part.mixer.state, (t.part.cues.nth 7).outputOn, (t.part.mixer.buses.nth 15).contributions.length,
        (t.part.sender.classes.nth 3).hold)) = some (.running, true, 1, 30000) := by decide +kernel

theorem witness_ALoadRecordRepeatsOrWaits :
    [loaded (.loadData 1 false 1 [7] (loadCheck 1 (leBytes 4 1 ++ [7])) [9]) (fun l => { receiving 2 l with lastData := some (1, [7]) }),
      loaded (.loadData 1 false 1 [7] (loadCheck 1 (leBytes 4 1 ++ [7])) [7]) (fun l => { receiving 1 l with erasing := true }),
      loaded (.loadStart 1 false 2 (loadCheck 0 (leBytes 4 2))) (fun l => { receiving 0 l with erasing := true, waiting := some .finish }),
      loaded (.eraseComplete 1) (fun l => { receiving 0 l with erasing := true, waiting := some (.start 1) })] =
    [some ([.answer 0x2B], .receiving, 2), some ([], .receiving, 1), some ([.answer 0x3F], .receiving, 0),
      some ([.answer 0x2B, .answer 0x21], .receiving, 0)] := by decide +kernel

/-- Twelve bytes that carry the marker, the length 12 and their check value. -/
def shortImage (check : List Byte) : List Byte := [0x4F, 0x4A, 0x32, 0x36, 12, 0, 0, 0] ++ check

theorem test_a_short_load_has_its_check_value :
    imageSound (shortImage (leBytes 4 (crc (shortImage (zeros 4))).toNat)) = true ∧
    imageWhole (shortImage (leBytes 4 (crc (shortImage (zeros 4))).toNat)) = false ∧ imageSound (shortImage []) = false := by decide +kernel

/-! ## The clauses of the second review -/

/-- Port 5's only request, a WRITE held at its head in a window. -/
def heldIn (w : Fin 32) (p : Part) : Part :=
  p.withPath (p.path.putPort 5 ⟨[⟨9, ⟨.write, 1024, 1, List.replicate 64 (7, true)⟩, .held, some w, some w, 1024, false⟩], 0, 0, 0, none⟩)

theorem witness_AHeldWriteIsAnsweredClosing :
    gives (.closeWindow 5 31) (held (.closeWindow 5 31) fun p => heldIn 31 (win 31 plain p))
      (fun t => (t.part.outputs, (t.part.path.ports.nth 5).queue.length, (t.part.path.windows.nth 31).state)) =
      some ([.refused 5 9 .closing], 0, .closed) := by decide +kernel

theorem witness_AFrameWriteThatStartsNoSlotPassesTracked :
    [started 1025 (running .coding), started 1024 (fun p => (running .coding p).updCamera 7 fun c => { c with state := .stopped })] =
      [some ([.coding, .empty], [6, 0, 0, 0], [(.offered, true)]), some ([.coding, .empty], [6, 0, 0, 0], [(.offered, true)])] := by
  decide +kernel

/-- What the take of K7's band 0 leads to with this ring index and slot A in this state: slot A's state and abandoned flag,
the failed opens and abandoned counts, the index's bodies, the cut and lost counts, and the jobs left. -/
def opened (index : List PictureRecord) (used : Nat) (x : SlotState) : Option ((SlotState × Bool) × List Nat × List RecordBody × List Nat) :=
  gives .jobTake (on fun p => coding [0, 1] none false (running x (ringed index used p))) fun t =>
    let c := t.part.cameras.nth 7
    let r := t.part.rings.nth 7
    ((c.slotA.state, c.slotA.abandoned), [(t.part.coder.counts.nth 7).failedOpens, c.counts.abandoned, t.part.coder.queue.length],
      r.index.map (·.body), [r.cut, r.lost])

theorem witness_AFailedOpenDropsItsJob :
    [opened [{ record 4 true with pins := 1 }] 65530 .filling, opened [{ record 4 true with pins := 1 }] 65530 .coding,
      opened [{ record 5 true with body := .gap .cut }] 104 .filling, opened [record 6 true] 104 .coding] =
    [some ((.filling, true), [1, 1, 0], [.published 0 104 8 false, .gap .cut], [1, 0]),
      some ((.done, true), [1, 1, 0], [.published 0 104 8 false, .gap .cut], [1, 0]),
      some ((.filling, true), [1, 1, 0], [.gap .cut], [0, 0]),
      some ((.done, true), [1, 1, 0], [.published 0 104 8 false], [0, 1])] := by decide +kernel

/-- The clip at position 0 SENDING with an item of two fragments, one of them dispatched and unsettled. -/
def halfShipped (p : Part) : Part :=
  let q := shipping .kept p
  { q with sender := { q.sender with items := [⟨0, .clipPicture 0 9 7 7 4, true, 131072, 131072, 65536, 1100, 2, 1, 0, false, 0, 900, true⟩] } }

theorem witness_ADeletedClipsItemLeavesItsQueue :
    gives (.deleteClip 0 9) (held (.deleteClip 0 9) halfShipped)
      (fun t => t.part.sender.items.map fun i => (i.queued, i.linked, i.failed)) = some [(false, false, true)] := by decide +kernel

/-- Clip 9 SENDING over this index with the one cursor at this number, out point and items outstanding. -/
def striding (index : List PictureRecord) (next out : Word) (outstanding : Nat) (p : Part) : Part :=
  let q := (ringed index 208 (clipped .kept [] p)).updClip 0 fun _ =>
    some { clip9 .kept [] with send := .sending, outstanding := outstanding, cursors := 1 }
  { q with sender := { q.sender with cursors := q.sender.cursors.put 7 (some ⟨0, 9, 7, next, out, outstanding⟩) } }

/-- What the cursor's steps lead to: the items' kinds, the cursor, and the clip's send, outstanding, skipped and cursors. -/
def strode (index : List PictureRecord) (next out : Word) (outstanding : Nat) :
    Option (List ItemKind × Bool × Option (SendState × List Nat)) :=
  gives .cursorStep (on (striding index next out outstanding)) fun t =>
    (t.part.sender.items.map (·.kind), (t.part.sender.cursors.nth 7).isSome,
      (t.part.clips.table.nth 0).map fun c => (c.send, [c.outstanding, c.skipped, c.cursors]))

/-- A GAP record. -/
def gapAt (n : Word) : PictureRecord := { record n true with body := .gap .torn }

theorem witness_ACursorSkipsAndPasses :
    [strode [record 7 true, record 8 true] 4 8 3, strode [record 4 true, gapAt 5, record 7 true] 5 8 3,
      strode [record 4 true, record 5 true] 4 9 3, strode [record 4 true, record 5 true] 4 9 0] =
    [some ([.clipPicture 0 9 7 7 7], true, some (.sending, [4, 3, 1])), some ([.clipPicture 0 9 7 7 7], true, some (.sending, [4, 0, 1])),
      some ([.clipPicture 0 9 7 7 4], true, some (.sending, [4, 0, 1])),
      some ([.clipPicture 0 9 7 7 4, .clipPicture 0 9 7 7 5], true, some (.sending, [2, 0, 1]))] := by decide +kernel

theorem witness_ACursorEnds :
    [strode [record 4 true] 6 5 3, strode [] 4 8 0, strode [record 9 true] 4 8 3, strode [record 4 true, record 9 true] 5 8 0,
      strode [record 4 true, gapAt 8] 5 8 3, strode [record 4 true] 6 5 0] =
    [some ([], false, some (.sending, [3, 0, 0])), some ([], false, some (.partly, [0, 5, 0])), some ([], false, some (.sending, [3, 5, 0])),
      some ([], false, some (.sent, [0, 0, 0])), some ([], false, some (.sending, [3, 0, 0])), some ([], false, some (.sent, [0, 0, 0]))] := by
  decide +kernel

theorem witness_CursorsMakeOneEachInTurn :
    gives .cursorStep (on fun p => let q := striding [record 4 true, record 5 true] 4 5 0 p
        { q with sender := { q.sender with cursors := q.sender.cursors.put 2 (some ⟨1, 8, 7, 5, 5, 0⟩) } })
      (fun t => t.part.sender.items.map (·.kind)) =
      some [.clipPicture 1 8 2 7 5, .clipPicture 0 9 7 7 4, .clipPicture 0 9 7 7 5] := by decide +kernel

/-- A WAITING descriptor of a LABEL, which the engine holds, and its item. -/
def labelDesc : Descriptor := { desc 7 .waiting 1 with cls := .label, spans := [], held := zeros 128, frameLength := 160 }
def labelItem : Item := { item0 false 1 with kind := .label 0 9 (zeros 128), length := 128 }

theorem witness_ALabelIsBuiltAtOnce :
    ([up, echoing].map fun f => gives .buildStart (on fun p => lane3 f (sending [labelItem] [labelDesc] p)) fun t =>
      (t.part.sender.store.map (·.state), (t.part.lanes.nth 3).queue.map (·.length), (t.part.lanes.nth 3).sending.map (·.1.kind))) =
    [some ([.transmitting], [], some (.link 7)), some ([.queuedOnLane], [160], some (.echo 1))] ∧
    runs .buildStart (on (sending [item0 true 0] [])) = some (on (sending [item0 true 0] [])) := by decide +kernel

/-- A report in progress with these writes left, at a transfer of the COMMAND stream. -/
def reporting (writes : List (Nat × List Byte)) : State := on fun p =>
  let q := rings p
  { q with
    cmd := { q.cmd with use := some .report, report := some ⟨15, 7, 64, writes⟩ }
    path := { q.path with channel := .stream 3 (writeRequest 65536 (zeros 256)) false } }

/-- What that transfer leads to: the addresses and lengths of the writes left, the next request, and the completions. -/
def reported (writes : List (Nat × List Byte)) : Option (Option (List (Nat × Nat)) × Option (Nat × Nat) × List Completion) :=
  gives (.transferComplete 1) (reporting writes) fun t =>
    (t.part.cmd.report.map fun x => x.writes.map fun w => (w.1, w.2.length),
      (t.part.path.streams.nth 3).map fun r => (r.line, r.count), t.part.cmd.completions)

theorem witness_AReportsWritesFollowOneAnother :
    [reported [(65792, zeros 300)], reported [(65792, zeros 256)], reported [(65792, zeros 64)], reported []] =
    [some (some [(66048, 44)], some (1028, 4), []), some (some [], some (1028, 4), []), some (some [], some (1028, 1), []),
      some (none, none, [⟨15, 7, .done, [64, 0]⟩])] := by decide +kernel

theorem witness_AReportsLaterWritesStand :
    gives (.readCounters 0 5 0 65536) (held (.readCounters 0 5 0 65536) fun p => win 31 plain p)
      (fun t => t.part.cmd.report.map (·.writes.map fun w => (w.1, w.2.length))) = some (some []) ∧
    gives (.readCounters 0 0 0 65536) (held (.readCounters 0 0 0 65536) fun p => win 31 plain p)
      (fun t => t.part.cmd.report.map (·.writes.map fun w => (w.1, w.2.length))) = some (some [(65792, 256)]) := by decide +kernel

theorem witness_TheRingsAreTakenUp :
    ((parseImage image).map fun i =>
      let p := Part.application i 5 .calibrating Part.reset
      (p.cmd.rings, p.cmd.status, (p.path.streams.nth 3).map fun r => (r.line, r.count, r.data.drop 8 |>.take 9))) =
    some (some ⟨1, 2, 65536, 131072, 16, 16⟩, some (.index 0 false),
      some (2048, 1, List.replicate 8 (0, true) ++ [(0, false)])) := by decide +kernel


/-! ## The third review -/

/-- K7 RUNNING over this index, its slots A and B FILLING and CODING pictures 6 and 5, its coder with this job and a job of
K2's behind one of its own. -/
def twoPictures (phase : Option JobPhase) (index : List PictureRecord) (p : Part) : Part :=
  let q := (coding [] phase true (running .filling (ringed index 208 p))).updCamera 7 fun c => { c with
    slotA := { c.slotA with stamp := some ⟨6, ⟨1, 2, 3, 4⟩, 6, true, 104⟩ }
    slotB := ⟨.coding, some ⟨5, ⟨1, 2, 3, 4⟩, 6, true, 104⟩, 1, 0, false⟩ }
  { q with coder := { q.coder with queue := [⟨7, .a, 6, 0⟩, ⟨2, .a, 9, 0⟩] } }

/-- What a stop of K7 leads to: its state and whether its slots are EMPTY; the coder's job and queued cameras; the index; the
abandoned, lost and discarded counts; and how many completions there are. -/
def halted (c : Instr) (s : State) :
    Option ((CameraState × Bool) × (Option Bool × List (Fin 8)) × List (Word × RecordBody) × List Nat) :=
  gives c s fun t =>
    let x := t.part.cameras.nth 7
    ((x.state, decide (x.slotA = Slot.clear ∧ x.slotB = Slot.clear)),
      (t.part.coder.job.map (·.discarded), t.part.coder.queue.map (·.cam)), (t.part.rings.nth 7).index.map fun e => (e.number, e.body),
      [x.counts.abandoned, (t.part.rings.nth 7).lost, (t.part.coder.counts.nth 7).discarded, t.part.cmd.completions.length])

theorem witness_AStopSettlesItsPictures :
    ([(none, []), (some .coding, []), (some .reading, [record 5 false]), (none, [record 5 true, record 6 false]), (none, [record 9 true])].map
      fun x => halted (.stopCamera 9 7) (held (.stopCamera 9 7) (twoPictures x.1 x.2))) =
    [some ((.stopped, true), (none, [2]), [(5, .gap .stopped), (6, .gap .stopped)], [2, 0, 0, 1]),
      some ((.stopping, false), (some true, [2]), [], [0, 0, 0, 0]),
      some ((.stopped, true), (none, [2]), [(5, .gap .stopped), (6, .gap .stopped)], [2, 0, 1, 1]),
      some ((.stopped, true), (none, [2]), [(5, .published 0 104 8 false), (6, .gap .stopped)], [2, 0, 0, 1]),
      some ((.stopped, true), (none, [2]), [(9, .published 0 104 8 false)], [2, 2, 0, 1])] ∧
    halted (.stopCameraComplete 7) (on fun p => awaiting (.stopCamera 7)
      ((coding [] none true (twoPictures none [record 5 false] p)).updCamera 7 fun c => { c with state := .stopping })) =
      some ((.stopped, true), (none, []), [(5, .gap .stopped), (6, .gap .stopped)], [2, 0, 0, 1]) := by decide +kernel

theorem witness_TheMirrorsOfferIsWithdrawn :
    ([(some 5, some ⟨.write, 1044, 4, []⟩), (some 5, none), (none, none)].map fun (x : Option (Fin 128) × Option Request) =>
      gives (.closeWindow 5 31) (held (.closeWindow 5 31) fun p =>
        let q := win 31 ⟨.opened, 65536, 65536, .clipList, 0, 63, 63⟩ p
        { q with clips := { q.clips with writing := x.1, mirror := [1, 9] }, path := { q.path with streams := q.path.streams.put 4 x.2 } })
      fun t => (t.part.clips.writing, t.part.clips.mirror, (t.part.path.streams.nth 4).isSome)) =
    [some (none, [1, 5, 9], false), some (some 5, [1, 9], false), some (none, [1, 9], false)] := by decide +kernel

/-- What the take of K7's band 0 over this index and write point leads to: its ring, the next write's line, count and enabled
bytes, and the lengths of the writes left. -/
def headed (index : List PictureRecord) (used : Nat) (f : Part → Part := id) :
    Option ((List (Word × Nat × Nat) × Nat × Nat) × Option (Nat × Nat × List Byte) × List (Nat × Nat)) :=
  gives .jobTake (on fun p => f (coding [0] none false (running .filling (ringed index used p)))) fun t =>
    let r := t.part.rings.nth 7
    ((r.index.map fun e => (e.number, e.space, e.pins), r.writePoint, r.used),
      (t.part.path.streams.nth 0).map fun q => (q.line, q.count, (q.data.filter (·.2)).map (·.1)),
      (t.part.coder.job.map fun j => j.writes.map fun w => (w.1, w.2.length)).getD [])

/-- The preliminary header of K7's picture 5. -/
def header5 : List Byte := [0, 7, 1, 1, 5, 0, 0, 0, 4, 3, 2, 1, 6, 0, 0, 0, 104, 0, 0, 0] ++ zeros 52

theorem witness_AHeaderIsWritten :
    headed [record 4 true] 104 = some (([(4, 104, 0), (5, 72, 0)], 176, 176), some (2049, 2, header5), []) ∧
    headed [record 4 true] 65520 = some (([(5, 72, 0)], 56, 65488), some (3071, 1, header5.take 16), [(131072, 56)]) ∧
    headed [record 3 true, { record 4 true with pins := 1 }] 65520 (fun p => p.updClip 0 fun _ => some { clip9 .opened [] with limit := 3000 }) =
      some (([(4, 104, 1), (5, 72, 1)], 56, 65488), some (3071, 1, header5.take 16), [(131072, 56)]) ∧
    (gives .jobTake (on fun p => (coding [0] none false (running .filling (ringed [record 4 true] 65520 p))).updClip 0 fun _ =>
        some (clip9 .loose [])) fun t => t.part.clips.table.list.head?.map fun c => c.map fun c => (c.state, c.passed)) =
      some (some (some (.lost, 128))) ∧
    (gives .jobTake (on fun p => (coding [0] none false (running .filling (ringed [record 4 true] 104 p))).updClip 0 fun _ =>
        some { clip9 .opened [] with limit := 1 }) fun t =>
        (((t.part.rings.nth 7).index.map (·.pins)), t.part.clips.table.list.head?.map fun c => c.map fun c => (c.state, c.forced))) =
      some ([0, 0], some (some (.kept, true))) := by decide +kernel

/-- What the coded event of K7's band 0, one tile of 16 bytes, leads to for a picture of so many bands: the record's length,
the next write's line and enabled bytes, and the writes left. -/
def banding (bands used : Nat) : Option (List Nat × Option (Nat × List Byte) × List (Nat × List Byte)) :=
  gives (.codedEvent 1 [List.replicate 16 9]) (on fun p =>
      let q := coding [] (some .coding) true (running .coding (ringed [record 5 false] used p))
      { q with coder := { q.coder with rates := q.coder.rates.put 7 (some { rate5 with bandCount := bands }) } }) fun t =>
    ((t.part.rings.nth 7).index.map (·.space), (t.part.path.streams.nth 0).map fun q => (q.line, (q.data.filter (·.2)).map (·.1)),
      (t.part.coder.job.map (·.writes)).getD [])

/-- That coded band, and the picture's final header. -/
def band5 : List Byte := [7, 0, 8, 1, 5, 0, 0, 0, 32, 0, 0, 0, 0, 0, 0, 0] ++ List.replicate 16 9
def final5 : List Byte :=
  [1, 7, 1, 1, 5, 0, 0, 0, 4, 3, 2, 1, 6, 0, 0, 0, 104, 0, 0, 0, 104, 0, 0, 0, 8, 0] ++ zeros 38 ++ [32, 0, 0, 0, 8, 0, 0, 0]

theorem witness_ABandAndItsFinalHeaderAreWritten :
    [banding 1 104, banding 2 104, banding 2 65504] =
    [some ([136], some (2049, band5), [(131072, final5)]), some ([136], some (2049, band5), []),
      some ([136], some (3071, band5), [])] ∧
    nextWrite [(131072 + 65520, zeros 16), (131072, zeros 300)] =
      some (⟨.write, 3071, 1, List.replicate 48 (0, false) ++ List.replicate 16 (0, true)⟩, [(131072, zeros 300)]) ∧
    (nextWrite [(131088, zeros 300)]).map (fun x => (x.1.line, x.1.count, x.1.data.drop 15 |>.take 2, x.2)) =
      some (2048, 4, [(0, false), (0, true)], [(131328, zeros 60)]) := by decide +kernel

theorem witness_ReturnedFramesWaitOrGo :
    ([(none, false), (some .expired, false), (none, true)].map fun (x : Option Settlement × Bool) =>
      gives (.laneOff 9 3) (held (.laneOff 9 3) fun p => lane3 sendingLane (sending [item0 false 1]
        [desc 6 .waiting 1, { desc 7 .transmitting 1 with mark := x.1, noResend := x.2 }] p))
      fun t => t.part.sender.store.map fun d => (d.seq, d.state, d.lane)) =
    [some [(6, .waiting, none), (7, .waiting, none)], some [(6, .waiting, none)], some [(6, .waiting, none)]] := by decide +kernel

theorem witness_SomethingIsChosen :
    Part.laneFor (lane3 up Part.reset) 136 = some 3 ∧ Part.eligible (lane3 up Part.reset) 3 136 = true ∧
    (sending [item0 true 0] [] Part.reset).sender.chooseClass = some 1 ∧
    insertPos (5 : Fin 128) [1, 5, 9] = [1, 5, 9] ∧ insertPos (127 : Fin 128) [1] = [1, 127] ∧ insertPos (0 : Fin 128) [1] = [0, 1] := by
  decide +kernel

theorem witness_AClearZeroesItsGroup :
    gives (.readCounters 0 3 1 65536) (held (.readCounters 0 3 1 65536) fun p => win 31 plain (lane3 (fun r =>
      { up r with counts := ⟨1, 2, 3, 4, 5, 6⟩ }) p))
      (fun t => ((t.part.lanes.nth 3).counts, (t.part.lanes.nth 3).state,
        (t.part.path.streams.nth 3).map fun q => ((q.data.map (·.1)).drop 102).take 34)) =
    some (⟨0, 0, 0, 0, 0, 0⟩, .up, some ([2, 25, 0, 64, 0, 2, 8, 0, 0, 0, 1, 0, 0, 0] ++ zeros 8 ++ [1, 0, 2, 0, 3, 0, 4, 0, 5, 0, 6, 0])) := by
  decide +kernel

/-! ## The fourth review -/

theorem witness_StartTakesUpTheRing :
    ([(some (131072, 65536), [record 5 false], 208), (none, [], 7), (some (65536, 65536), [gapAt 5], 208), (none, [record 5 true], 208),
      (some (65536, 65536), [gapAt 4, record 5 true], 208), (some (131072, 131072), [record 5 false], 208)].map
      fun (x : Option (Nat × Nat) × List PictureRecord × Nat) =>
      gives (.startCamera 0 7) (held (.startCamera 0 7) fun p => (cam7 id p).updRing 7 fun r => { r with
        extent := x.1, index := x.2.1, writePoint := x.2.2, used := 104, mismatches := 65534 }) fun t =>
      let r := t.part.rings.nth 7
      ((r.extent, r.writePoint, r.used, r.mismatches), r.index.map (·.number), t.part.cmd.notices)) =
    [some ((some (131072, 65536), 208, 104, 65534), [5], []), some ((some (131072, 65536), 0, 104, 65534), [], []),
      some ((some (131072, 65536), 0, 104, 65534), [5], []), some ((some (131072, 65536), 0, 104, 65534), [5], []),
      some ((some (65536, 65536), 208, 104, 65535), [4, 5], [(.ring, 7)]),
      some ((some (131072, 131072), 208, 104, 65535), [5], [(.ring, 7)])] := by decide +kernel

/-- The result data of FIND PICTURE for a number over this index, in a ring of the largest size at byte 131,072. -/
def found (n : Word) (index : List PictureRecord) : Option (List (Result × List Byte)) :=
  gives (.findPicture 0 7 1 n 0 0 0 0 0) (held (.findPicture 0 7 1 n 0 0 0 0 0) fun p => (ringed index 208 p).updRing 7 fun r =>
    { r with extent := some (131072, 8589803520) }) fun t => t.part.cmd.completions.map fun c => (c.result, c.data)

theorem witness_AFoundPictureIsLaidOut :
    let index : List PictureRecord := [{ gapAt 4 with body := .gap .queueFull },
      ⟨5, ⟨1, 2, 3, 4⟩, 0x01020304, .published 0x0A0B0C 0x010203 64 true, 258, 65535⟩, record 0xFFFFFFFF false]
    found 5 index = some [(.done, [5, 0, 0, 0, 4, 3, 2, 1, 4, 3, 2, 1, 1, 0, 64, 1, 0x0C, 0x0B, 0x0C, 0, 0, 0, 0, 0, 0x0C, 0x0B, 0x0A, 0,
      3, 2, 1, 0, 2, 1, 255, 255, 3, 0, 0, 0, 4, 0, 0, 0, 255, 255, 255, 255])] ∧
    found 4 index = some [(.done, [4, 0, 0, 0, 4, 3, 2, 1, 6, 0, 0, 0, 2, 3, 0, 0] ++ zeros 20 ++
      [3, 0, 0, 0, 4, 0, 0, 0, 255, 255, 255, 255])] ∧
    found 6 index = some [(.notFound, zeros 36 ++ [3, 0, 0, 0, 4, 0, 0, 0, 255, 255, 255, 255])] ∧
    found 6 [] = some [(.notFound, zeros 48)] := by decide +kernel

/-- A pass's start for block 16 with these sources fresh at their slots, over B0 and B15 ACTIVE or not and B3 IDLE: S0 and S63
listed by B15, S9 by B0, S7 by B3 alone, all ON but S62, which B0 lists; each bus holds block 0 in slot 0, and an item of B15
covers it. -/
def passStart (active : Bool) (fresh : List (Fin 64)) : Part :=
  let src (x : Fin 64) (p : Part) : Part := p.updSource x fun r => { r with
    cfg := ⟨x ≠ 62, 2, 5, 4, 24⟩, fresh := if x ∈ fresh then 1 else 0 }
  let bus (b : Fin 16) (on' : Bool) (list : List Contribution) (p : Part) : Part := p.updBus b fun r => { r with
    cfg := ⟨on', 3, 16, 16384, false, 5⟩, contributions := list, slots := [(0, 0), (15, 15)], peak := 3, clips := 65535 }
  let lists (p : Part) : Part := bus 0 active [⟨9, 5, 9, 4, false⟩, ⟨62, 0, 0, 1, true⟩] (bus 3 false [⟨7, 9, 1, 4, false⟩]
    (bus 15 active [⟨0, 1, 0, 1, true⟩, ⟨63, 65535, 65535, 1, false⟩] p))
  let windows (p : Part) : Part := win 2 { plain with base := 65600, kind := .sound } (win 3 { plain with base := 131136, kind := .programme } p)
  (lists (src 0 (src 7 (src 9 (src 62 (src 63 (windows (sending [audio true 0] [] Part.reset)))))))).startPass 16

/-- What it leads to: the pass's plan; its phase, its reads and how many bytes it writes where; the MIXER
stream's request. -/
def passPlan (active : Bool) (fresh : List (Fin 64)) : Option (List (Fin 64 × Nat × Bool)) :=
  (passStart active fresh).mixer.pass.map (·.plan)
def passWork (active : Bool) (fresh : List (Fin 64)) : Option (PassPhase × List (Fin 64 × Nat) × List (Nat × Nat)) :=
  (passStart active fresh).mixer.pass.map fun y => (y.phase, y.toRead, y.toWrite.map fun w => (w.1, w.2.length))
def passOffer (active : Bool) (fresh : List (Fin 64)) : Option (ReqKind × Nat × Nat) :=
  ((passStart active fresh).path.streams.nth 1).map fun r => (r.kind, r.line, r.count)

theorem witness_APassBegins :
    [passPlan true [0, 7, 63], passPlan true [7, 62], passPlan false [0, 7, 63]] =
      [some [(0, 0, true), (9, 0, false), (63, 0, true)], some [(0, 0, false), (9, 0, false), (63, 0, false)], none] ∧
    passWork true [0, 7, 63] = some (.reading, [(0, 0), (63, 0)], []) ∧
    passWork true [7, 62] = some (.writing, [], [(131136, 192), (131136, 192)]) ∧
    [passOffer true [0, 7, 63], passOffer true [7, 62], passOffer false [0, 7, 63]] =
      [some (.read, 1025, 3), some (.write, 2049, 3), none] := by decide +kernel

/-- The gains of B0, B3 and B15 in its snapshot, and the notices. -/
def passGains (active : Bool) (fresh : List (Fin 64)) : Option (List (List (Fin 64 × Nat))) × List (Cause × Nat) :=
  let q := passStart active fresh
  (q.mixer.pass.map fun y => [0, 3, 15].map fun b => (y.buses.nth b).gains, q.cmd.notices)

theorem witness_APassTakesItsGains :
    passGains true [0, 7, 63] = (some [[(9, 9), (62, 0)], [(7, 5)], [(0, 0), (63, 65535)]], [(.mix, 9)]) ∧
    passGains true [7, 62] = (some [[(9, 9), (62, 0)], [(7, 5)], [(0, 0), (63, 65535)]],
      [(.mix, 0), (.mix, 9), (.mix, 63), (.send, 0)]) ∧
    passGains false [0, 7, 63] = (none, []) := by decide +kernel

theorem witness_ASilentPassIsWritten :
    ([(true, 0), (true, 3), (true, 15), (false, 15)].map fun (x : Bool × Fin 16) =>
      let p := passStart x.1 []
      let b := p.mixer.buses.nth x.2
      ((b.contributions.map (·.current), b.slots), ([b.peak, b.clips], p.sender.items.length))) =
    [(([9, 0], [(0, 16), (15, 15)]), ([3, 65535], 0)), (([5], [(0, 0), (15, 15)]), ([3, 65535], 0)),
      (([0, 65535], [(0, 16), (15, 15)]), ([3, 65535], 0)), (([65535], [(0, 0), (15, 15)]), ([3, 65535], 1))] := by decide +kernel

theorem witness_TheClosingPoints :
    ([[record 3 true, gapAt 4], [record 3 true], [], [record 4 false, record 0x80000003 true]].map fun index =>
      ((clipped .opened [] Part.reset).updRing 7 fun r => { r with index := index }).closingPoints (clip9 .opened [])
        |>.list.drop 6) = [[0, 4], [0, 3], [0, 3], [0, 0x80000003]] := by decide +kernel

/-- A clip with every field set, K0 and K7 in its set. -/
def fullClip (x : ClipState) : Clip :=
  { clip9 x [1, 0x0203, 65535] with
    number := 0x0102, cameras := 0x81, passed := 0x80, inTimecode := ⟨23, 59, 58, 24⟩, origin := some 7, preroll := 250
    limit := 30000, forced := true, send := .partly, outstanding := 1, failed := 2, skipped := 65535, cursors := 8
    inPoints := Table.all 0x01020304 }

theorem witness_AnEntryIsLaidOut :
    entryImage (some (fullClip .lost)) = [4, 3, 2, 1, 0x81, 0x80, 7, 1, 250, 3, 0x30, 0x75, 24, 58, 59, 23, 1, 0, 0, 0, 4, 3, 2, 1,
      1, 0, 3, 2, 255, 255] ++ zeros 10 ++ [1, 0, 2, 0, 255, 255, 8, 0] ++ [4, 3, 2, 1] ++ zeros 24 ++ [4, 3, 2, 1] ++
      [5, 0, 0, 0] ++ zeros 24 ++ [5, 0, 0, 0] ++ zeros 144 ∧
    entryImage (some (clip9 .opened [])) = [1, 0, 9, 0, 0x80, 0, 8, 0, 0, 0, 0xB8, 0x0B] ++ zeros 64 ++ [4, 0, 0, 0] ++ zeros 176 ∧
    labelSnapshot (fullClip .kept) = [2, 0, 2, 1, 0x81, 0, 7, 1, 250, 3, 0x30, 0x75, 24, 58, 59, 23, 1, 0, 0, 0, 4, 3, 2, 1,
      1, 0, 3, 2, 255, 255] ++ zeros 18 ++ [4, 3, 2, 1] ++ zeros 24 ++ [4, 3, 2, 1] ++
      [5, 0, 0, 0] ++ zeros 24 ++ [5, 0, 0, 0] ++ zeros 16 := by decide +kernel

theorem witness_AFrameIsLaidOut :
    let d : Descriptor := { desc 0x01020304 .building 3 with cls := .clip, fragment := 0x0506, fragments := 0x0708 }
    (([.audioFrame 15 0x0A0B0C0D 20 0 16, .livePicture 7 0x0A0B0C0D, .label 0 0x0E0F [], .clipPicture 0 0x0E0F 0 7 0x0A0B0C0D].map
      fun k => (linkFrame 61 d k [9, 8]).take 30) =
    ([[15, 0, 0, 0, 13, 12, 11, 10, 20, 0, 0, 0], [7, 0, 0, 0, 13, 12, 11, 10, 0, 0, 0, 0], [0, 0, 0, 0, 0, 0, 0, 0, 15, 14, 0, 0],
      [7, 0, 0, 0, 13, 12, 11, 10, 15, 14, 0, 0]].map fun identity =>
        [0xC3, 0x3C, 0, 3, 61, 3, 2, 0, 4, 3, 2, 1, 6, 5, 8, 7] ++ identity ++ [9, 8])) ∧
    (echoFrame 61 0x01020304).take 60 = [0xC3, 0x3C, 1, 0, 61, 0, 0, 0, 4, 3, 2, 1] ++ zeros 48 := by decide +kernel

/-! ## The fifth review -/

/-- K7's coder in the coded event of a band for which there is no room, its slot A in this state with picture 5's record
OPENING: slot A's state; the ring's write point, used and cut count; the abandoned, cut band and discarded counts; and how many
jobs, rate-control records of K7 and notices are left, with slot A's abandoned flag. -/
def cutting (x : SlotState) (f : Part → Part := id) : Option (SlotState × List Nat × List Nat × List Nat) :=
  gives (.codedEvent 1 [zeros 16]) (on fun p => f (coding [1, 2] (some .coding) true (running x (ringed [record 5 false] 65535 p)))) fun t =>
    let c := t.part.cameras.nth 7
    let r := t.part.rings.nth 7
    (c.slotA.state, [r.writePoint, r.used, r.cut],
      [c.counts.abandoned, (t.part.coder.counts.nth 7).cutBands, (t.part.coder.counts.nth 7).discarded],
      [t.part.coder.queue.length, (t.part.coder.rates.nth 7).toList.length, t.part.cmd.notices.length, c.slotA.abandoned.toNat])

theorem witness_ACutRollsItsPictureBack :
    [cutting .coding, cutting .filling, cutting .coding fun p => p.updCamera 7 fun c => { c with slotA := { c.slotA with abandoned := true } }] =
    [some (.done, [0, 65431, 1], [1, 1, 0], [0, 0, 1, 1]), some (.filling, [0, 65431, 1], [1, 1, 0], [0, 0, 1, 1]),
      some (.coding, [0, 65431, 1], [0, 1, 0], [2, 1, 1, 1])] ∧
    gives (.codedEvent 1 [zeros 16]) (on fun p => holding (queued 1 (coding [] (some .coding) true
        (running .coding (ringed [record 5 false] 65535 p))))) (fun t => let c := t.part.cameras.nth 7
      (c.slotA.state, (t.part.path.ports.nth 5).queue.map (·.phase))) = some (.filling, [.offered]) := by decide +kernel

theorem witness_ALivePictureTakesItsReference :
    ([true, false].map fun live => gives (.transferComplete 1) (on fun p => (streamed 0 0 1 (lastWrite 1 p)).updCamera 7 fun c =>
        { c with slotA := { c.slotA with stamp := some ⟨5, ⟨1, 2, 3, 4⟩, 6, live, 104⟩ } })
      fun t => ((t.part.rings.nth 7).index.map (·.sends), t.part.sender.items.length)) = [some ([1], 1), some ([0], 0)] := by decide +kernel

/-- K7's ring with pictures 4 and 5 published, picture 4 referenced once, and these items. -/
def referenced (items : List Item) (p : Part) : Part :=
  sending items [] (ringed [{ record 4 true with sends := 1 }, record 5 true] 208 p)

/-- What the making of a LIVE item of picture 5 leads to over these items: the items' pictures, the send counts, and the class's
made, replaced and dropped-full counts. -/
def madeLive (items : List Item) : List (Option (Fin 8 × Word)) × List Nat × List Nat :=
  let q := (referenced items Part.reset).makeItem (.livePicture 7 5)
  let r := q.sender.classes.nth 1
  (q.sender.items.map (·.kind.picture), (q.rings.nth 7).index.map (·.sends), [r.made, r.replaced, r.droppedFull])

theorem witness_AnItemIsMade :
    [madeLive [item0 false 1], madeLive [item0 true 0],
      madeLive ((List.range 32).map fun n => { item0 true 0 with id := n, kind := .livePicture 2 4 })] =
    [([some (7, 4), some (7, 5)], [1, 1], [1, 0, 0]), ([some (7, 5)], [0, 1], [1, 1, 0]),
      (List.replicate 32 (some (2, 4)), [1, 0], [0, 0, 1])] := by decide +kernel

theorem witness_ACursorTakesItsReference :
    ([8, 4].map fun out => gives .cursorStep (on (striding [record 4 true, record 5 true] 4 out 3)) fun t =>
      ((t.part.rings.nth 7).index.map (·.sends), t.part.sender.items.map (·.id), (t.part.sender.cursors.nth 7).map (·.next))) =
    [some ([1, 0], [0], some 5), some ([1, 0], [0], none)] := by decide +kernel

/-- The clip at position 0 SENDING, with one item of K7's picture 4 outstanding, made by cursor 7 and so far dispatched and
settled, its record referenced once. -/
def clipItem (queued : Bool) (sent settled : Nat) (store : List Descriptor) (p : Part) : Part :=
  let q := striding [{ record 4 true with sends := 1 }, record 5 true] 5 5 4 p
  { q with
    sender := { q.sender with
      items := [⟨0, .clipPicture 0 9 7 7 4, queued, 131072, 131072, 65536, 1100, 2, sent, settled, false, 0, 900, true⟩]
      nextItem := 1
      store := store.map fun d => { d with cls := .clip } } }

/-- How that item stands after a command: the items' settled counts and failed flags, the record's send count, the class's
finished and failed counts, the cursor's items outstanding, and the clip's outstanding and failed counts. -/
def itemAfter (c : Instr) (s : State) : Option (List (Nat × Bool) × List (List Nat)) :=
  gives c s fun t =>
    let r := t.part.sender.classes.nth 3
    (t.part.sender.items.map fun i => (i.settled, i.failed),
      [((t.part.rings.nth 7).index.map (·.sends)).take 1, [r.finished, r.failed],
        (t.part.sender.cursors.nth 7).toList.map (·.outstanding),
        (t.part.clips.table.nth 0).toList.flatMap fun k => [k.outstanding, k.failed]])

theorem witness_AnItemEndsAsItIsDropped :
    [itemAfter (.itemStale 0) (on (clipItem true 1 1 [])), itemAfter (.itemStale 0) (on (clipItem true 1 0 [desc 7 .waiting 1])),
      itemAfter (.flushClass 0 3) (held (.flushClass 0 3) (clipItem true 0 0 [])),
      itemAfter (.descriptorExpiry 7) (on (clipItem false 2 1 [desc 7 .waiting 1])),
      itemAfter (.descriptorExpiry 7) (on (clipItem false 2 0 [desc 7 .waiting 1]))] =
    [some ([], [[0], [0, 1], [3], [3, 1]]), some ([(0, true)], [[1], [0, 0], [4], [4, 0]]),
      some ([], [[0], [0, 1], [3], [3, 1]]), some ([], [[0], [0, 1], [3], [3, 1]]),
      some ([(1, true)], [[1], [0, 0], [4], [4, 0]])] := by decide +kernel

/-- A RECEIPT of this range at the head of L3's FIFO. -/
def receipting (first last : Word) (p : Part) : Part := lane3 (fun r => { up r with fifo := [⟨0, .receipt first last⟩] }) p

theorem witness_AReceiptsRangeIsActedOnInOrder :
    [itemAfter (.receipt 3) (on fun p => receipting 7 8 (clipItem false 2 0 [desc 7 .awaitingReceipt 1, desc 8 .waiting 1] p)),
      itemAfter (.receipt 3) (on fun p => receipting 7 7 (clipItem false 2 0 [desc 7 .building 1, desc 8 .waiting 1] p))] =
    [some ([], [[0], [1, 0], [3], [3, 0]]), some ([(1, false)], [[1], [0, 0], [4], [4, 0]])] ∧
    gives (.receipt 3) (on fun p => receipting 6 9 (clipItem false 2 0 [desc 7 .building 1, desc 8 .transmitting 1] p))
      (fun t => (t.part.sender.store.map fun d => (d.state, d.mark), t.part.sender.counts.receipts, t.part.sender.counts.staleReceipts)) =
      some ([(.building, some .receipted), (.transmitting, some .receipted)], 2, 2) := by decide +kernel

theorem witness_AnOvertakenItemEndsOrCounts :
    (([[desc 0 .waiting 1], [desc 0 .waiting 1, desc 1 .awaitingReceipt 1]].map fun store =>
      let q := (sending [{ audio false store.length with fragments := store.length }] store Part.reset).overtaken 15 4
      (q.sender.items.map fun i => (i.settled, i.failed), (q.sender.classes.nth 0).failed)) = [([], 1), ([(1, true)], 0)]) := by
  decide +kernel

/-- An item of two fragments, of K7's picture 4. -/
def twoFragments (sent : Nat) : Item := { item0 true sent with length := 1100, fragments := 2 }

/-- What the start of a build of an item's next fragment on L3 leads to: the item's dispatched count and whether it is still
queued; the descriptor's state; and its spans, the reads left and the next request's line and count. -/
def frameStarted (x : Item) : Option (List (Nat × Bool) × List DescState × List Nat) :=
  gives .buildStart (on fun p => lane3 up (sending [x] [] p)) fun t =>
    (t.part.sender.items.map fun i => (i.dispatched, i.queued), t.part.sender.store.map (·.state),
      (t.part.sender.store.flatMap fun d => d.spans.flatMap fun x => [x.1, x.2]) ++
      (t.part.sender.build.toList.flatMap fun b => b.reads.flatMap fun x => [x.1, x.2]) ++
      ((t.part.path.streams.nth 2).toList.flatMap fun r => [r.line, r.count]))

theorem witness_ANewFrameIsStarted :
    [frameStarted (twoFragments 0), frameStarted (twoFragments 1), frameStarted { labelItem with queued := true, dispatched := 0 }] =
    [some ([(1, true)], [.building], [131072, 1024, 131328, 768, 2048, 4]), some ([(2, false)], [.building], [132096, 76, 2064, 2]),
      some ([(1, false)], [.transmitting], [])] := by decide +kernel

theorem witness_TheAttentionLineFollows :
    ([15, 0, 2, 3].map fun h => gives .headWordWrite (engine fun c => { c with headShown := [h], takenHead := 15, writeIndex := 2 })
      (fun t => t.part.attention)) = [some true, some true, some false, some true] ∧
    gives .headWordWrite (engine fun c => { c with headShown := [3], takenHead := 2, writeIndex := 2 }) (fun t => t.part.attention) =
      some false ∧
    gives .tailWordWrite (engine fun c => { c with tailShown := [16] }) (fun t => t.part.attention) = some false ∧
    ([3, 0].map fun n => gives (.transferComplete 1) (commanding .status (some (.index n false)) .write) fun t => t.part.attention) =
      [some true, some false] := by decide +kernel

theorem witness_TheResetsOwnRecordEndsIt :
    ([(true, []), (true, [⟨1, 2, .done, []⟩]), (false, [])].map fun (x : Bool × List Completion) => gives .statusWriteStart
      (engine fun c => { c with
        completions := ⟨3, 9, .cancelled, []⟩ :: x.2, deferred := if x.1 then [⟨4, 9, .engineReset⟩] else [⟨4, 9, .quiesce⟩] })
      fun t => t.part.cmd.status) =
    [some (some (.record 1 true)), some (some (.record 1 false)), some (some (.record 1 false))] := by decide +kernel

theorem witness_EngineResetKeepsTheRings :
    gives (.engineReset 9) (held (.engineReset 9) fun p => let q := inForce (quiet .quiesced (rings p))
        { q with cmd := { q.cmd with
          head := 5, fetchTail := 7, writeIndex := 3, takenHead := 2, tailShown := [1], completions := [⟨1, 2, .done, []⟩]
          notices := [(.hold, 1)], deferred := [⟨2, 4, .quiesce⟩] } })
      (fun t => let c := t.part.cmd
        ((c.rings.map (·.n), [c.head, c.fetchTail, c.writeIndex, c.takenHead]), (c.tailShown, c.completions.map fun x => (x.ring, x.result)))) =
      some ((some 16, [5, 7, 3, 2]), ([1], [(1, .done), (2, .cancelled), (3, .done)])) := by decide +kernel

theorem witness_TheFilterOffFollowsTheCarrier :
    [carried (.carrierChange 1 3 false) (fun r => { up r with state := .waitCarrier, settleTimer := some 9, cfg := { r.cfg with filter := .none } }),
      carried (.carrierChange 1 3 false) (fun r => { up r with state := .down, settleTimer := some 9, cfg := { r.cfg with filter := .none } }),
      carried (.carrierChange 1 3 true) (fun r => { up r with carrier := false, cfg := { r.cfg with filter := .none } }),
      carried (.carrierFilterExpiry 3) (fun r => { up r with filtered := false, filterTimer := some 4 }),
      carried (.carrierFilterExpiry 3) up, carried (.settleExpiry 3) up] =
    [some (.waitCarrier, false, none, none), some (.down, false, none, none), some (.up, true, none, none), some (.up, true, none, none),
      some (.up, true, none, none), some (.up, true, none, none)] := by decide +kernel

theorem witness_ABreakInUpCountsItsFramingError :
    ([(Receive.gathering, false), (.between, true), (.between, false)].map fun x =>
      gives (.breakReceived 1 3 x.2) (on (lane3 fun r => { up r with receive := x.1, fifo := [⟨0, .resend 1⟩] })) fun t =>
        let r := t.part.lanes.nth 3
        (r.state, r.receive, r.fifo.length, r.counts.framingErrors, r.counts.carrierLosses)) =
    [some (.down, .inBreak, 1, 1, 1), some (.down, .inBreak, 1, 1, 1), some (.down, .inBreak, 1, 0, 1)] ∧
    ([(LaneState.off, Receive.between), (.up, .inBreak)].map fun x =>
      received (.breakReceived 1 3 true) fun r => { r with state := x.1, receive := x.2 }) =
    [some (.between, 0, [0, 0, 0, 0]), some (.inBreak, 0, [0, 0, 0, 0])] := by decide +kernel

theorem witness_AnImageStartsCamerasAndLanes :
    (let i : Image := { Image.fallback with
        cameras := Image.fallback.cameras.put 7 (true, { cfg7 with replayWin := 3 })
        windows := Image.fallback.windows.put 3 ⟨.opened, 131072, 65536, .replay, 7, 63, 63⟩
        lanes := Image.fallback.lanes.put 3 { (Image.fallback.lanes.nth 3) with initialOn := true } }
      let p := Part.application i 5 .calibrating (lane3 (fun r => { r with carrier := true }) Part.reset)
      ((p.cameras.nth 7).state, (p.cameras.nth 6).state, (p.rings.nth 7).extent, (p.rings.nth 6).extent) =
        (.running, .stopped, some (131072, 65536), none) ∧
      [3, 2].map (fun l => let r := p.lanes.nth l
        (r.state, r.filtered, r.settleTimer, r.breakEnd, r.counts.breaksSent)) =
        [(.waitCarrier, true, some 300000000, some 76800, 1), (.off, false, none, none, 0)]) := by decide +kernel

theorem test_the_mixer_report_leaves_no_room_for_slot_records : State.reset.part.mixer.bytes.length = 5481 := by decide +kernel

/-! ## The sixth review -/

/-- Port 5's queue: a request of tag 9 in this phase, checked in window 31, and behind it reads of one line at these lines, with
tags from 0 on. -/
def lining (x : ReqPhase) (lines : List Nat) (p : Part) : Part :=
  let q := ready (p.withPath (p.path.putPort 5 ⟨⟨9, ⟨.write, 1024, 1, List.replicate 64 (7, true)⟩, x, some 31, some 31, 1024, false⟩ ::
    ((List.range lines.length).zip lines).map (fun n =>
      ⟨BitVec.ofNat 6 n.1, ⟨.read, n.2, 1, []⟩, .waiting, none, none, n.2, false⟩), 0, 0, 0, none⟩))
  { q with path := { q.path with channel := if x = .granted then .client 5 else .free } }

/-- What a command leaves at port 5: what left the part, the tags and phases of its queue, and its refusals. -/
def linedUp (c : Instr) (s : State) : Option (List Output × List (BitVec 6 × ReqPhase) × Nat) :=
  gives c s fun t => (t.part.outputs, (t.part.path.ports.nth 5).queue.map (fun a => (a.tag, a.phase)), (t.part.path.ports.nth 5).refusals)

theorem witness_TheRequestsBehindLineUp :
    [linedUp (.transferComplete 1) (on fun p => lining .granted [0, 1] (win 31 plain p)),
      linedUp (.transferComplete 1) (on fun p => lining .granted [134217728, 0, 1] (win 31 plain p)),
      linedUp (.transferComplete 1) (on fun p => lining .granted [134217728] (win 31 plain p)),
      linedUp (.closeWindow 5 31) (held (.closeWindow 5 31) fun p => lining .held [0, 1] (win 31 plain p)),
      linedUp (.closeWindow 5 31) (held (.closeWindow 5 31) fun p => lining .held [1024, 0, 1] (win 31 plain p))] =
    [some ([.ok 5 9 []], [(0, .offered), (1, .waiting)], 0),
      some ([.ok 5 9 [], .refused 5 0 .noMemory], [(1, .offered), (2, .waiting)], 1), some ([.ok 5 9 [], .refused 5 0 .noMemory], [], 1),
      some ([.refused 5 9 .closing], [(0, .offered), (1, .waiting)], 1),
      some ([.refused 5 9 .closing, .refused 5 0 .closing], [(1, .offered), (2, .waiting)], 2)] ∧
    (Part.linedUp 5 [⟨0, ⟨.read, 134217728, 1, []⟩, .waiting, none, none, 134217728, false⟩,
        ⟨1, ⟨.read, 0, 1, []⟩, .waiting, none, none, 0, false⟩] (ready Part.reset)).outputs = [.refused 5 0 .noMemory] ∧
    ((Part.closesHeld 31 (lining .held [0] (win 31 plain Part.reset)) 5).path.ports.nth 5).queue.map (·.tag) = [0] ∧
    Admitted.waits ⟨0, ⟨.read, 134217728, 1, []⟩, .waiting, none, none, 134217728, false⟩ := by
  refine ⟨?_, ?_, ?_, ?_⟩
  · decide +kernel
  · decide +kernel
  · decide +kernel
  · unfold Admitted.waits; decide +kernel

/-- Cue lines Q2 and Q7 show K7's tally, Q3 is an OUTPUT that is ON. -/
def tallies (p : Part) : Part :=
  cue 3 (fun c => { lined .output true true false c with outputOn := true })
    (cue 2 (lined .tally true true false) (cue 7 (lined .tally true true false) p))

/-- The output states of Q2, Q3 and Q7 once a command has run. -/
def shown (c : Instr) (s : State) : Option (List Bool) :=
  gives c s fun t => [2, 3, 7].map fun l => (t.part.cues.nth l).outputOn

/-- K7 with these pending settings' live-send flag. -/
def pends (live : Bool) (p : Part) : Part := p.updCamera 7 fun c => { c with pending := some ⟨.hold, 200, 104, live⟩ }

/-- A write at the start of K7's slot A. -/
def startWrite : Instr := .clientRequest 1 5 8 .write 1024 1 (List.replicate 64 (7, true))

theorem witness_TheOtherCueLinesStand :
    [shown (.setCueLine 0 7 3 0 0 0 0 6) (held (.setCueLine 0 7 3 0 0 0 0 6) fun p => tallies (running .empty p)),
      shown (.startCamera 0 7) (held (.startCamera 0 7) fun p => tallies (cam7 id p)),
      shown (.stopCamera 0 7) (held (.stopCamera 0 7) fun p => tallies (running .empty p)),
      shown startWrite (on fun p => ready (tallies (running .empty p))),
      shown startWrite (on fun p => ready (tallies (pends false (running .filling p)))),
      shown startWrite (on fun p => ready (tallies (pends true (running .coding p)))),
      shown startWrite (on fun p => ready (tallies (holding (running .coding p)))),
      shown (.holdLimitExpiry 7) (on fun p => tallies (pends false (holding (queued 1 (running .coding p)))))] =
    [some [true, true, false], some [true, true, true], some [false, true, false], some [true, true, true],
      some [false, true, false], some [false, true, false], some [false, true, false], some [false, true, false]] ∧
    ([0, 1].map fun n => gives (.codedEvent 1 [zeros 16]) (on fun p => tallies (pends (n = 1) (holding (queued 1 (coding [] (some .coding) true
        (running .coding (ringed [record 5 false] 65535 p))))))) fun t => (t.part.cues.nth 2).outputOn) = [some false, some true] ∧
    ([0, 1].map fun n => gives (.transferComplete 1) (on fun p => tallies (pends (n = 1) (holding (queued 1 (streamed 0 0 1 (lastWrite 1 p))))))
        fun t => (t.part.cues.nth 2).outputOn) = [some false, some true] := by decide +kernel

/-- What the take of band 0 of picture 6 leads to where K7 still has a record of picture 5, picture 6 in slot A in this state:
slot A's state and abandoned flag; the overlapped, abandoned and lost counts and the jobs left; and what is notified. -/
def overlapping (x : SlotState) (index : List PictureRecord) (f : Part → Part := id) :
    Option (SlotState × List Nat × List (Cause × Nat)) :=
  gives .jobTake (on fun p => f ({ coding [0] none true (running x (ringed index 104 p)) with
      coder := { (coding [0] none true p).coder with queue := [⟨7, .a, 6, 0⟩, ⟨7, .a, 6, 1⟩, ⟨2, .a, 6, 0⟩] } }.updCamera 7 fun c =>
        { c with slotA := { c.slotA with stamp := some ⟨6, ⟨1, 2, 3, 4⟩, 6, true, 104⟩ } })) fun t =>
    let c := t.part.cameras.nth 7
    (c.slotA.state, [(t.part.coder.counts.nth 7).overlapped, c.counts.abandoned, (t.part.rings.nth 7).lost, t.part.coder.queue.length,
      c.slotA.abandoned.toNat, (t.part.path.ports.nth 5).queue.length], t.part.cmd.notices)

theorem witness_AnOverlappedPictureIsLost :
    [overlapping .filling [], overlapping .coding [], overlapping .coding [record 6 true],
      overlapping .coding [] fun p => p.updCamera 7 fun c => { c with slotA := { c.slotA with abandoned := true } },
      overlapping .coding [] fun p => tallies (pends false (holding (queued 1 p)))] =
    [some (.filling, [1, 1, 1, 1, 1, 0], [(.ring, 7), (.hold, 7)]), some (.done, [1, 1, 1, 1, 1, 0], [(.ring, 7), (.hold, 7)]),
      some (.done, [1, 1, 0, 1, 1, 0], [(.hold, 7)]), some (.coding, [1, 0, 0, 2, 1, 0], [(.hold, 7)]),
      some (.filling, [1, 1, 1, 1, 0, 1], [(.ring, 7), (.hold, 7)])] := by decide +kernel

theorem witness_AnActivatedBusReportsItsBlocks :
    gives (.setBus 0 15 1 28 256 9 0 1) (held (.setBus 0 15 1 28 256 9 0 1) fun p =>
        (sending [audio true 0] [] (bus15 false [] p)).updBus 15 fun r => { r with slots := [(0, 4), (5, 9)] })
      (fun t => ((t.part.mixer.buses.nth 15).slots, (t.part.mixer.buses.nth 15).cfg.active, t.part.sender.items.length,
        [(t.part.sender.classes.nth 0).overtaken, (t.part.sender.classes.nth 0).losses])) = some ([], true, 0, [1, 1]) ∧
    (sending [audio true 0] [] Part.reset).sender.distinct := by
  constructor
  · decide +kernel
  · unfold Sender.distinct; decide +kernel

/-- What these bytes are in a group's report. -/
def reads (group : Byte) (first n : Nat) (p : Part) : Option (List Byte) :=
  (groupOf group).map fun g => ((g.values p).drop first).take n

theorem witness_TheReportsHoldTheirValues :
    [reads 0 0 17 (queued 1 (Part.reset.withPath (Part.reset.path.putPort 0 ⟨[], 258, 3, 4, some ⟨.notReady, 64, .write⟩⟩))),
      reads 0 102 13 { awaiting (.stopCamera 7) Part.reset with
        cmd := { (awaiting (.stopCamera 7) Part.reset).cmd with head := 1, fetchTail := 2, writeIndex := 3, takenHead := 4 } },
      reads 1 588 18 (running .filling Part.reset),
      reads 2 0 9 { Part.reset with mixer := { Part.reset.mixer with state := .running, lateTicks := 9 } },
      reads 4 32 4 (sending [item0 true 0] [] Part.reset), reads 5 20 3 (tallies Part.reset), reads 5 30 3 (tallies Part.reset),
      reads 5 80 2 (clocked { Reference.clear with locked := true } Reference.clear Part.reset)] =
    [some [2, 1, 1, 5, 64, 0, 0, 0, 0, 0, 0, 0, 1, 3, 0, 4, 0], some [1, 0, 2, 0, 3, 0, 4, 0, 1, 11, 0, 1, 0],
      some [1, 30, 31, 64, 0, 0, 0, 16, 0, 1, 0, 200, 0, 104, 0, 0, 0, 1], some [1, 0, 0, 0, 0, 0, 0, 9, 0],
      some [0, 0, 1, 0], some [3, 0, 1], some [4, 0, 0], some [0, 1]] := by decide +kernel

theorem witness_LoadRecordsOutsideALoadAreAnswered :
    ([LoadState.awaitingStart, .complete, .failed].map fun x =>
      (loaded (.loadData 1 false 1 [7] (loadCheck 1 (leBytes 4 1 ++ [7])) [7]) (fun l => { l with load := x }),
        loaded (.loadEnd 1 false (loadCheck 2 [])) (fun l => { l with load := x }))) =
      [LoadState.awaitingStart, .complete, .failed].map (fun x => (some ([.answer 0x21], x, 0), some ([.answer 0x21], x, 0))) ∧
    [loaded (.eraseComplete 1) (receiving 1), loaded (.eraseComplete 1) (fun l => { l with load := .failed, erasing := true }),
      loaded (.eraseComplete 1) (fun l => { l with load := .failed, erasing := true, waiting := some .finish }),
      loaded (.eraseComplete 1) (fun l => { l with load := .failed, erasing := true, waiting := some (.start 5) })] =
    [some ([], .receiving, 1), some ([], .failed, 0), some ([.answer 0x21], .failed, 0), some ([], .receiving, 0)] ∧
    [State.endCheck (loading (receiving 2)), State.endCheck (loading fun l => { receiving 12 l with length := 12 })] = [false, false] := by
  decide +kernel

theorem witness_AnImageIsHeld : ∃ copy, imageHeld (fun a => (flashOf image 0).readByte 255 a) false true copy := by
  obtain ⟨copy, h⟩ := Option.isSome_iff_exists.1 witness_TheImageIsChecked
  exact ⟨copy, (checkedImage_iff _ _ _ _).1 h⟩

end Sys2Proof.Tests
end

section
/-! The programme clock's timecode (R30, R31): where `advance` carries, that it keeps a value which may be set,
what a picture tick makes of it, and how SET TIMECODE runs. -/

namespace Sys2Proof.Machine

namespace Timecode

/-- The value that SET TIMECODE takes (R31): in range, and no dropped number. -/
def Settable (rate : Rate) (t : Timecode) : Prop := t.inRange rate = true ∧ t.isDropped rate = false

/-- The first picture number of a minute (R30): a minute that is no multiple of ten skips the dropped ones. -/
def minuteStart (rate : Rate) (hh mm : Nat) : Timecode := ⟨hh, mm, 0, if mm % 10 = 0 then 0 else rate.dropped⟩

variable {rate : Rate} {t : Timecode}

theorem inRange_iff : t.inRange rate = true ↔ t.hh ≤ 23 ∧ t.mm ≤ 59 ∧ t.ss ≤ 59 ∧ t.ff ≤ rate.last := by
  simp only [inRange, Bool.and_eq_true, decide_eq_true_eq, and_assoc]

theorem isDropped_iff : t.isDropped rate = true ↔ t.ss = 0 ∧ t.mm % 10 ≠ 0 ∧ t.ff < rate.dropped := by
  simp only [isDropped, Bool.and_eq_true, beq_iff_eq, bne_iff_ne, decide_eq_true_eq, and_assoc]

theorem settable_iff : t.Settable rate ↔
    t.hh ≤ 23 ∧ t.mm ≤ 59 ∧ t.ss ≤ 59 ∧ t.ff ≤ rate.last ∧ ¬ (t.ss = 0 ∧ t.mm % 10 ≠ 0 ∧ t.ff < rate.dropped) := by
  rw [Settable, inRange_iff, ← Bool.not_eq_true, isDropped_iff]
  simp only [and_assoc]

/-- A rate drops fewer numbers than a second has. -/
theorem dropped_lt_last (rate : Rate) : rate.dropped < rate.last := by
  cases rate <;> decide

theorem isDropped_of_ss_pos (h : 0 < t.ss) : t.isDropped rate = false := by
  rw [← Bool.not_eq_true, isDropped_iff]
  omega

/-- A minute begun at picture 0 moves on to its first number that is not dropped. -/
theorem skip_dropped_eq_minuteStart (rate : Rate) (hh mm : Nat) :
    (if isDropped rate ⟨hh, mm, 0, 0⟩ then { hh := hh, mm := mm, ss := 0, ff := rate.dropped } else ⟨hh, mm, 0, 0⟩ : Timecode) =
      minuteStart rate hh mm := by
  simp only [isDropped_iff, minuteStart, true_and]
  by_cases hm : mm % 10 = 0
  · rw [if_neg fun h => h.1 hm, if_pos hm]
  · by_cases hd : 0 < rate.dropped
    · rw [if_pos ⟨hm, hd⟩, if_neg hm]
    · rw [if_neg fun h => hd h.2, if_neg hm, Nat.eq_zero_of_not_pos hd]

/-! Where the carry of `advance` ends. -/

theorem advance_of_ff_lt (hff : t.ff < rate.last) : t.advance rate = { t with ff := t.ff + 1 } := by
  rw [advance, if_pos hff]

theorem advance_of_ss_lt (hff : rate.last ≤ t.ff) (hss : t.ss < 59) :
    t.advance rate = { t with ss := t.ss + 1, ff := 0 } := by
  rw [advance, if_neg (Nat.not_lt.2 hff), if_pos hss]
  exact if_neg (Bool.eq_false_iff.1 (isDropped_of_ss_pos (Nat.succ_pos t.ss)))

theorem advance_of_mm_lt (hff : rate.last ≤ t.ff) (hss : 59 ≤ t.ss) (hmm : t.mm < 59) :
    t.advance rate = minuteStart rate t.hh (t.mm + 1) := by
  rw [advance, if_neg (Nat.not_lt.2 hff), if_neg (Nat.not_lt.2 hss), if_pos hmm]
  exact skip_dropped_eq_minuteStart rate t.hh (t.mm + 1)

theorem advance_of_hh_lt (hff : rate.last ≤ t.ff) (hss : 59 ≤ t.ss) (hmm : 59 ≤ t.mm) (hhh : t.hh < 23) :
    t.advance rate = minuteStart rate (t.hh + 1) 0 := by
  rw [advance, if_neg (Nat.not_lt.2 hff), if_neg (Nat.not_lt.2 hss), if_neg (Nat.not_lt.2 hmm), if_pos hhh]
  exact skip_dropped_eq_minuteStart rate (t.hh + 1) 0

theorem advance_of_last (hff : rate.last ≤ t.ff) (hss : 59 ≤ t.ss) (hmm : 59 ≤ t.mm) (hhh : 23 ≤ t.hh) :
    t.advance rate = minuteStart rate 0 0 := by
  rw [advance, if_neg (Nat.not_lt.2 hff), if_neg (Nat.not_lt.2 hss), if_neg (Nat.not_lt.2 hmm), if_neg (Nat.not_lt.2 hhh)]
  exact skip_dropped_eq_minuteStart rate 0 0

/-! What `advance` keeps. -/

theorem minuteStart_settable {hh mm : Nat} (hhh : hh ≤ 23) (hmm : mm ≤ 59) : (minuteStart rate hh mm).Settable rate := by
  have hlast := dropped_lt_last rate
  rw [settable_iff]
  unfold minuteStart
  dsimp only
  split <;> omega

/-- From a number of the count, the count goes on within range and never to a dropped number. -/
theorem advance_settable (h : t.Settable rate) : (t.advance rate).Settable rate := by
  obtain ⟨hhh, hmm, hss, -, hkept⟩ := settable_iff.1 h
  by_cases hff : t.ff < rate.last
  · rw [advance_of_ff_lt hff, settable_iff]
    dsimp only
    omega
  have hff := Nat.not_lt.1 hff
  by_cases hs : t.ss < 59
  · rw [advance_of_ss_lt hff hs, settable_iff]
    dsimp only
    omega
  have hs := Nat.not_lt.1 hs
  by_cases hm : t.mm < 59
  · rw [advance_of_mm_lt hff hs hm]
    exact minuteStart_settable hhh hm
  have hm := Nat.not_lt.1 hm
  by_cases hh : t.hh < 23
  · rw [advance_of_hh_lt hff hs hm hh]
    exact minuteStart_settable hh (Nat.zero_le 59)
  · rw [advance_of_last hff hs hm (Nat.not_lt.1 hh)]
    exact minuteStart_settable (Nat.zero_le 23) (Nat.zero_le 59)

end Timecode

/-! A picture tick (R27). -/

theorem Clock.pictureTick_of_pending {c : Clock} {v : Timecode} (h : c.pendingTc = some v) :
    c.pictureTick = { c with pictureTicks := c.pictureTicks + 1, timecode := v, pendingTc := none } := by
  rw [Clock.pictureTick, h]

theorem Clock.pictureTick_of_none {c : Clock} (h : c.pendingTc = none) :
    c.pictureTick = { c with pictureTicks := c.pictureTicks + 1, timecode := c.timecode.advance c.rate } := by
  rw [Clock.pictureTick, h]

/-! SET TIMECODE (R31). -/

section

variable {s : State} {i : Nat} {tag : Word} {ff ss mm hh : Byte}

/-- The run of SET TIMECODE is the test of its value. -/
theorem exec_setTimecode_of_taken (h : s.taken i (.setTimecode tag ff ss mm hh)) :
    exec (.setTimecode tag ff ss mm hh) s = .next (s.becomes
      (if (timecodeOf ff ss mm hh).inRange s.part.clock.rate ∧ !(timecodeOf ff ss mm hh).isDropped s.part.clock.rate then
        (s.part.handEmpty.setClock { s.part.clock with pendingTc := some (timecodeOf ff ss mm hh) }).finish i tag []
      else s.part.handEmpty.refuse i tag .badField [])) := by
  change execSetTimecode tag ff ss mm hh s = _
  rw [execSetTimecode, withPart_run h]
  rfl

theorem exec_setTimecode_of_settable (h : s.taken i (.setTimecode tag ff ss mm hh))
    (hv : (timecodeOf ff ss mm hh).Settable s.part.clock.rate) :
    exec (.setTimecode tag ff ss mm hh) s = .next (s.becomes (Part.answered { s.part with
      clock := { s.part.clock with pendingTc := some (timecodeOf ff ss mm hh) } } i tag [])) := by
  obtain ⟨hrange, hdrop⟩ := hv
  rw [exec_setTimecode_of_taken h, if_pos ⟨hrange, by simpa using hdrop⟩]
  rfl

theorem exec_setTimecode_of_not_settable (h : s.taken i (.setTimecode tag ff ss mm hh))
    (hv : ¬ (timecodeOf ff ss mm hh).Settable s.part.clock.rate) :
    exec (.setTimecode tag ff ss mm hh) s = .next (s.refuses i tag .badField) := by
  rw [exec_setTimecode_of_taken h, if_neg fun ⟨hrange, hdrop⟩ => hv ⟨hrange, by simpa using hdrop⟩, becomes_refuse]

end

/-- Settles O19: the carry of R30 case by case, the tick with and without a pending value, and the test of R31. -/
theorem timecodeAdvancesAndIsSet : Obligations.TimecodeAdvancesAndIsSet := by
  unfold Obligations.TimecodeAdvancesAndIsSet
  refine ⟨fun rate t => ⟨?withinSecond, ?carries, ?staysSettable⟩, fun c => ?tick, fun s i tag ff ss mm hh h => ⟨?taken, ?refused⟩⟩
  case withinSecond => exact Timecode.advance_of_ff_lt
  case carries =>
    exact fun hff => ⟨Timecode.advance_of_ss_lt hff, fun hss => ⟨Timecode.advance_of_mm_lt hff hss,
      Timecode.advance_of_hh_lt hff hss, Timecode.advance_of_last hff hss⟩⟩
  case staysSettable => exact fun hrange hdrop => Timecode.advance_settable ⟨hrange, hdrop⟩
  case tick =>
    cases hp : c.pendingTc with
    | some v => rw [Clock.pictureTick_of_pending hp]; exact ⟨rfl, rfl⟩
    | none => rw [Clock.pictureTick_of_none hp]; exact ⟨rfl, hp⟩
  case taken => exact fun legal => exec_setTimecode_of_settable h (Timecode.settable_iff.2 legal)
  case refused => exact fun illegal => exec_setTimecode_of_not_settable h (mt Timecode.settable_iff.1 illegal)

end Sys2Proof.Machine
end

section
/-! The contribution list of a bus (R102, R103): what an entry's test and the place of a new entry say of the list,
and how SET GAIN and REMOVE SOURCE run. -/

namespace Sys2Proof.Machine

/-! The list. -/

theorem Bus.entry_isSome_iff {r : Bus} {n : Fin 64} : (r.entry n).isSome = true ↔ ∃ c, c ∈ r.contributions ∧ c.source = n := by
  simp only [Bus.entry, List.find?_isSome, beq_iff_eq]

theorem Bus.not_entry_isSome {r : Bus} {n : Fin 64} (h : ∀ c, c ∈ r.contributions → c.source ≠ n) :
    ¬ (r.entry n).isSome = true := by
  rw [Bus.entry_isSome_iff]
  exact fun ⟨c, hc, hn⟩ => h c hc hn

/-- An inserted entry stands before the first entry of a later source. -/
theorem insertContribution_eq (c : Contribution) (l : List Contribution) :
    insertContribution c l =
      l.takeWhile (fun x => decide (x.source ≤ c.source)) ++ c :: l.dropWhile (fun x => decide (x.source ≤ c.source)) := by
  induction l with
  | nil => rfl
  | cons x rest ih =>
    rw [insertContribution, List.takeWhile_cons, List.dropWhile_cons]
    by_cases hx : x.source ≤ c.source
    · simp only [if_neg (Fin.not_lt.2 hx), hx, decide_true, if_true, ih, List.cons_append]
    · simp only [if_pos (Fin.not_le.1 hx), hx, decide_false, Bool.false_eq_true, if_false, List.nil_append]

/-- An inserted entry parts the list at its place in source order. -/
theorem insertContribution_parts (c : Contribution) (l : List Contribution) : ∃ before after,
    l = before ++ after ∧ insertContribution c l = before ++ c :: after ∧
    (∀ x, x ∈ before → x.source ≤ c.source) ∧ ∀ x, after.head? = some x → c.source < x.source := by
  refine ⟨_, _, List.takeWhile_append_dropWhile.symm, insertContribution_eq c l, fun x hx => ?earlier, fun x hx => ?later⟩
  case earlier => exact of_decide_eq_true (List.all_eq_true.1 List.all_takeWhile x hx)
  case later =>
    have stops := List.head?_dropWhile_not (fun x => decide (x.source ≤ c.source)) l
    rw [hx] at stops
    exact Fin.not_le.1 (of_decide_eq_false stops)

/-! The runs. -/

/-- A command in hand that edits a bus and completes. -/
theorem handEmpty_updBus_finish (p : Part) (b : Fin 16) (f : Bus → Bus) (i : Nat) (tag : Word) :
    (p.handEmpty.updBus b f).finish i tag [] =
      Part.answered { p with mixer := { p.mixer with buses := p.mixer.buses.put b (f (p.mixer.buses.nth b)) } } i tag [] := rfl

section

variable {s : State} {i : Nat} {tag : Word} {bus source : Byte} {target step : Half} {b : Fin 16} {n : Fin 64}

theorem exec_setGain_of_out_of_range (h : s.taken i (.setGain tag bus source target step))
    (bad : 15 < bus.toNat ∨ 63 < source.toNat ∨ step.toNat = 0) :
    exec (.setGain tag bus source target step) s = .next (s.refuses i tag .badField) := by
  change execSetGain tag bus source target step s = _
  rw [execSetGain, withPart_run h, ← becomes_refuse]
  rcases hb : objectOf 16 bus with _ | b
  · rfl
  rcases hn : objectOf 64 source with _ | n
  · rfl
  have hstep : step = 0 := by
    rw [objectOf_eq_some] at hb hn
    bv_omega
  simp only [if_pos hstep]

/-- SET GAIN with its fields in range tests for the source's entry, and then for room (R102). -/
theorem exec_setGain_of_named (h : s.taken i (.setGain tag bus source target step)) (hb : bus.toNat = b.val)
    (hn : source.toNat = n.val) (hstep : step.toNat ≠ 0) :
    exec (.setGain tag bus source target step) s = .next (s.becomes
      (if ((s.part.mixer.buses.nth b).entry n).isSome then
        (s.part.handEmpty.updBus b fun r => r.updEntry n fun c =>
          { c with target := target.toNat, step := step.toNat, leaving := false }).finish i tag []
      else if (s.part.mixer.buses.nth b).contributions.length < 32 then
        (s.part.handEmpty.updBus b fun r =>
          { r with contributions := insertContribution ⟨n, 0, target.toNat, step.toNat, false⟩ r.contributions }).finish i tag []
      else s.part.handEmpty.refuse i tag .tableFull [])) := by
  have nonzero : step ≠ 0 := fun e => hstep (by rw [e]; rfl)
  change execSetGain tag bus source target step s = _
  rw [execSetGain, withPart_run h, objectOf_eq_some.2 hb, objectOf_eq_some.2 hn]
  simp only [if_neg nonzero]
  rfl

theorem exec_removeSource_of_out_of_range (h : s.taken i (.removeSource tag bus source)) (bad : 15 < bus.toNat ∨ 63 < source.toNat) :
    exec (.removeSource tag bus source) s = .next (s.refuses i tag .badField) := by
  change execRemoveSource tag bus source s = _
  rw [execRemoveSource, withPart_run h, ← becomes_refuse]
  rcases hb : objectOf 16 bus with _ | b
  · rfl
  rcases hn : objectOf 64 source with _ | n
  · rfl
  rw [objectOf_eq_some] at hb hn
  omega

/-- REMOVE SOURCE with its fields in range tests for the source's entry (R103). -/
theorem exec_removeSource_of_named (h : s.taken i (.removeSource tag bus source)) (hb : bus.toNat = b.val)
    (hn : source.toNat = n.val) :
    exec (.removeSource tag bus source) s = .next (s.becomes
      (if ((s.part.mixer.buses.nth b).entry n).isSome then
        (s.part.handEmpty.updBus b fun r => r.updEntry n fun c => { c with target := 0, leaving := true }).finish i tag []
      else s.part.handEmpty.refuse i tag .notFound [])) := by
  change execRemoveSource tag bus source s = _
  rw [execRemoveSource, withPart_run h, objectOf_eq_some.2 hb, objectOf_eq_some.2 hn]
  rfl

end

/-- Settles O34: SET GAIN on an entry, without room and with room, and REMOVE SOURCE with and without an entry. -/
theorem gainCommandsEditTheContributionList : Obligations.GainCommandsEditTheContributionList := by
  unfold Obligations.GainCommandsEditTheContributionList
  refine fun s => ⟨fun i tag bus source target step h => ⟨exec_setGain_of_out_of_range h, fun b n hb hn hstep => ?setGain⟩,
    fun i tag bus source h => ⟨exec_removeSource_of_out_of_range h, fun b n hb hn => ?removeSource⟩⟩
  case setGain =>
    dsimp only
    rw [exec_setGain_of_named h hb hn hstep]
    refine ⟨fun listed => ?replaced, fun absent full => ?full, fun absent room => ?entered⟩
    case replaced => rw [if_pos (Bus.entry_isSome_iff.2 listed), handEmpty_updBus_finish]; rfl
    case full => rw [if_neg (Bus.not_entry_isSome absent), if_neg (Nat.not_lt.2 full), becomes_refuse]
    case entered =>
      obtain ⟨before, after, hlist, hnew, hbefore, hafter⟩ := insertContribution_parts
        ⟨n, 0, target.toNat, step.toNat, false⟩ (s.part.mixer.buses.nth b).contributions
      refine ⟨before, after, hlist, ?_, hbefore, hafter⟩
      rw [if_neg (Bus.not_entry_isSome absent), if_pos room, handEmpty_updBus_finish, hnew]
  case removeSource =>
    dsimp only
    rw [exec_removeSource_of_named h hb hn]
    refine ⟨fun absent => ?notFound, fun listed => ?leaves⟩
    case notFound => rw [if_neg (Bus.not_entry_isSome absent), becomes_refuse]
    case leaves => rw [if_pos (Bus.entry_isSome_iff.2 listed), handEmpty_updBus_finish]; rfl

end Sys2Proof.Machine
end

section
/-! The label list of a clip (R125): the two tests ADD LABEL and REMOVE LABEL begin with, the edit of the clip that a
number finds, and how each command runs on that clip. -/

namespace Sys2Proof.Machine

/-- The clip that a number finds stands at its position. -/
theorem Part.clipAt_table {p : Part} {n : Nat} {pos : Fin 128} {c : Clip} (h : p.clipAt n = some (pos, c)) :
    p.clips.table.nth pos = some c := by
  obtain ⟨q, -, hq⟩ := List.exists_of_findSome?_eq_some h
  split at hq
  case h_1 d hd =>
    split at hq
    case isTrue =>
      obtain ⟨rfl, rfl⟩ := Prod.mk.inj (Option.some.inj hq)
      exact hd
    case isFalse => exact nomatch hq
  case h_2 => exact nomatch hq

/-- A command in hand that edits the labels of the clip its number finds, and completes. -/
theorem handEmpty_editLabels_finish {p : Part} {n : Nat} {pos : Fin 128} {c : Clip} (h : p.clipAt n = some (pos, c))
    (f : List Nat → List Nat) (i : Nat) (tag : Word) :
    (p.handEmpty.editClip pos fun c => { c with labels := f c.labels }).finish i tag [] =
      Part.answered { p with
        clips := { p.clips with
          table := p.clips.table.put pos (some { c with labels := f c.labels })
          mirror := insertPos pos p.clips.mirror } } i tag [] := by
  rw [Part.editClip_eq (Part.clipAt_table (p := p.handEmpty) h)]
  rfl

/-- What ADD LABEL and REMOVE LABEL have in common: the tests of the code and of the clip's number, and then the command's
own part on the clip found (R125). -/
def Part.onLabels (tag : Word) (clip code : Half) (body : Fin 128 → Clip → Part → Part) (i : Nat) (p : Part) : Part :=
  if code = 0 then p.refuse i tag .badField []
  else match p.clipAt clip.toNat with
    | none => p.refuse i tag .notFound []
    | some (pos, c) => body pos c p

section

variable {s : State} {i : Nat} {tag : Word} {clip code : Half} {body : Fin 128 → Clip → Part → Part}

theorem becomes_onLabels_of_zero (hcode : code = 0) :
    s.becomes (s.part.handEmpty.onLabels tag clip code body i) = s.refuses i tag .badField := by
  rw [Part.onLabels, if_pos hcode, becomes_refuse]

theorem becomes_onLabels_of_absent (hcode : code ≠ 0) (absent : s.part.clipAt clip.toNat = none) :
    s.becomes (s.part.handEmpty.onLabels tag clip code body i) = s.refuses i tag .notFound := by
  rw [Part.onLabels, if_neg hcode, handEmpty_clipAt, absent, becomes_refuse]

theorem becomes_onLabels_of_found {pos : Fin 128} {c : Clip} (hcode : code ≠ 0)
    (found : s.part.clipAt clip.toNat = some (pos, c)) :
    s.becomes (s.part.handEmpty.onLabels tag clip code body i) = s.becomes (body pos c s.part.handEmpty) := by
  rw [Part.onLabels, if_neg hcode, handEmpty_clipAt, found]

/-- ADD LABEL tests the code and the clip, then the clip's list for the code and for room. -/
theorem exec_addLabel_of_taken (h : s.taken i (.addLabel tag clip code)) :
    exec (.addLabel tag clip code) s = .next (s.becomes (s.part.handEmpty.onLabels tag clip code (fun pos c p =>
      if code.toNat ∈ c.labels then p.refuse i tag .badField []
      else if 8 ≤ c.labels.length then p.refuse i tag .tableFull []
      else (p.editClip pos fun c => { c with labels := c.labels ++ [code.toNat] }).finish i tag []) i)) := by
  change execAddLabel tag clip code s = _
  rw [execAddLabel, withPart_run h]
  rfl

/-- REMOVE LABEL tests the code and the clip, then the clip's list for the code. -/
theorem exec_removeLabel_of_taken (h : s.taken i (.removeLabel tag clip code)) :
    exec (.removeLabel tag clip code) s = .next (s.becomes (s.part.handEmpty.onLabels tag clip code (fun pos c p =>
      if code.toNat ∈ c.labels then
        (p.editClip pos fun c => { c with labels := c.labels.filter fun l => l != code.toNat }).finish i tag []
      else p.refuse i tag .notFound []) i)) := by
  change execRemoveLabel tag clip code s = _
  rw [execRemoveLabel, withPart_run h]
  rfl

end

/-- Settles O39: each command's tests in their order, and the edit of the list where none refuses. -/
theorem labelsAreAddedAndRemoved : Obligations.LabelsAreAddedAndRemoved := by
  unfold Obligations.LabelsAreAddedAndRemoved
  refine fun s => ⟨fun i tag clip code h => ?add, fun i tag clip code h => ?remove⟩
  case add =>
    rw [exec_addLabel_of_taken h]
    refine ⟨fun zero => ?zero, fun nonzero absent => ?absent, fun pos c nonzero found => ?found⟩
    case zero => rw [becomes_onLabels_of_zero zero]
    case absent => rw [becomes_onLabels_of_absent nonzero absent]
    case found =>
      rw [becomes_onLabels_of_found nonzero found]
      refine ⟨fun listed => ?listed, fun unlisted full => ?full, fun unlisted room => ?appended⟩
      case listed => rw [if_pos listed, becomes_refuse]
      case full => rw [if_neg unlisted, if_pos full, becomes_refuse]
      case appended =>
        rw [if_neg unlisted, if_neg (Nat.not_le.2 room), handEmpty_editLabels_finish found (· ++ [code.toNat])]
  case remove =>
    rw [exec_removeLabel_of_taken h]
    refine ⟨fun zero => ?zero, fun nonzero absent => ?absent, fun pos c nonzero found => ?found⟩
    case zero => rw [becomes_onLabels_of_zero zero]
    case absent => rw [becomes_onLabels_of_absent nonzero absent]
    case found =>
      rw [becomes_onLabels_of_found nonzero found]
      refine ⟨fun unlisted => ?unlisted, fun listed => ?removed⟩
      case unlisted => rw [if_neg unlisted, becomes_refuse]
      case removed =>
        rw [if_pos listed, handEmpty_editLabels_finish found (List.filter fun l => l != code.toNat)]

end Sys2Proof.Machine
end

section
/-! Facts about equality, lists and repetition: what the later parts need and core Lean does not have under a name. -/

namespace Sys2Proof.Machine

universe u v w

theorem ite_congr_iff {α : Sort u} {p q : Prop} [Decidable p] [Decidable q] {a b c d : α} (h : p ↔ q) (ha : a = c) (hb : b = d) :
    (if p then a else b) = if q then c else d :=
  ite_congr (propext h) (fun _ => ha) fun _ => hb

theorem congrArg_two {α : Sort u} {β : Sort v} {γ : Sort w} (f : α → β → γ) {a a' : α} {b b' : β} (ha : a = a') (hb : b = b') :
    f a b = f a' b' := by
  rw [ha, hb]

section

variable {α : Type u} {β : Type v}

theorem filterMap_congr_mem {f g : α → Option β} {l : List α} (h : ∀ x ∈ l, f x = g x) : l.filterMap f = l.filterMap g := by
  induction l with
  | nil => rfl
  | cons x rest ih =>
    rw [List.filterMap_cons, List.filterMap_cons, h x List.mem_cons_self, ih fun y hy => h y (List.mem_cons_of_mem x hy)]

theorem flatMap_congr_mem {f g : α → List β} {l : List α} (h : ∀ x ∈ l, f x = g x) : l.flatMap f = l.flatMap g := by
  rw [List.flatMap_def, List.flatMap_def, List.map_congr_left h]

/-- A fold whose step does nothing from its start. -/
theorem foldl_idle {f : β → α → β} {b : β} (idle : ∀ x, f b x = b) (l : List α) : l.foldl f b = b := by
  induction l with
  | nil => rfl
  | cons x rest ih => rw [List.foldl_cons, idle, ih]

theorem nodup_map_of_apart {f : α → β} {l : List α} (apart : ∀ x ∈ l, ∀ y ∈ l, f x = f y → x = y) (distinct : l.Nodup) :
    (l.map f).Nodup :=
  List.pairwise_map.2 (distinct.imp_of_mem fun hx hy differ same => differ (apart _ hx _ hy same))

/-- Of a list whose names are distinct, a name tells the entry. -/
theorem eq_of_nodup_map {f : α → β} {l : List α} (distinct : (l.map f).Nodup) {x y : α} (hx : x ∈ l) (hy : y ∈ l) (same : f x = f y) :
    x = y := by
  induction l with
  | nil => cases hx
  | cons z rest ih =>
    rw [List.map_cons, List.nodup_cons] at distinct
    obtain ⟨fresh, distinct⟩ := distinct
    have alone {w : α} (hw : w ∈ rest) : f w ≠ f z := fun e => fresh (e ▸ List.mem_map_of_mem hw)
    rcases List.mem_cons.1 hx with rfl | later <;> rcases List.mem_cons.1 hy with rfl | after
    · rfl
    · exact absurd same.symm (alone after)
    · exact absurd same (alone later)
    · exact ih distinct later after

end

/-- The function `n` times over. -/
def times {α : Type u} (f : α → α) : Nat → α → α
  | 0, a => a
  | n + 1, a => times f n (f a)

section

variable {α : Type u} (f : α → α)

theorem times_zero (a : α) : times f 0 a = a := rfl

theorem times_succ (n : Nat) (a : α) : times f (n + 1) a = times f n (f a) := rfl

theorem times_fixed {a : α} (fixed : f a = a) (n : Nat) : times f n a = a := by
  induction n with
  | zero => rfl
  | succ n ih => rw [times_succ, fixed, ih]

theorem foldl_times {β : Type v} (l : List β) (a : α) : l.foldl (fun a _ => f a) a = times f l.length a := by
  induction l generalizing a with
  | nil => rfl
  | cons _ rest ih => exact ih (f a)

end

end Sys2Proof.Machine
end

section
/-! The machine: what a step and a command can do to the queue and to the stores. -/

namespace Sys2Proof.Machine

/-- Settles O1: `step` is defined so. -/
theorem stepRunsTheFrontCommand : Obligations.StepRunsTheFrontCommand := by
  unfold Obligations.StepRunsTheFrontCommand
  exact fun _ _ _ => rfl

/-- Settles O4: a software command is the run of its body, which does nothing while the engine holds another. -/
theorem aCommandNotTakenChangesNothing : Obligations.ACommandNotTakenChangesNothing := by
  unfold Obligations.ACommandNotTakenChangesNothing
  intro c s encodes untaken
  obtain ⟨body, hexec⟩ := exec_software c encodes s
  rw [hexec, State.withPart, run_other untaken]

/-- A transfer's data moved keeps the DRAM canonical. -/
theorem moved_wf {dram : Memory} (r : Request) (line : Nat) (h : Memory.wf dramBlank dram = true) :
    Memory.wf dramBlank (moved dram r line) = true := by
  rw [moved]
  split
  · exact h
  · exact Memory.writeMasked_wf _ _ h

theorem memoriesWf_iff {s : State} :
    s.memoriesWf = true ↔ Memory.wf dramBlank s.dram = true ∧ Memory.wf flashBlank s.flash = true := by
  rw [State.memoriesWf, Bool.and_eq_true]

/-- What an outcome that goes on may make of a state: the queue and the flash stand, and the DRAM is as it was, emptied, or
a transfer's data is moved in it. -/
structure State.MovesFrom (s t : State) : Prop where
  pending : t.pending = s.pending
  flash : t.flash = s.flash
  dram : t.dram = s.dram ∨ t.dram = [] ∨ ∃ r line, t.dram = moved s.dram r line

theorem State.MovesFrom.wf {s t : State} (h : s.MovesFrom t) (hs : s.memoriesWf = true) : t.memoriesWf = true := by
  obtain ⟨hdram, hflash⟩ := memoriesWf_iff.1 hs
  refine memoriesWf_iff.2 ⟨?_, h.flash ▸ hflash⟩
  obtain e | e | ⟨r, line, e⟩ := h.dram <;> rw [e]
  · exact hdram
  · rfl
  · exact moved_wf r line hdram

theorem execPowerOn_moves (dt : Nat) (a b d : Bool) (s : State) : ∃ t, execPowerOn dt a b d s = .next t ∧ s.MovesFrom t :=
  ⟨_, rfl, rfl, rfl, .inr (.inl rfl)⟩

theorem execCalibrationComplete_moves (dt : Nat) (pass : Bool) (s : State) :
    ∃ t, execCalibrationComplete dt pass s = .next t ∧ s.MovesFrom t := by
  unfold execCalibrationComplete
  dsimp only
  split
  · cases pass
    · exact ⟨_, rfl, rfl, rfl, .inl rfl⟩
    · exact ⟨_, rfl, rfl, rfl, .inr (.inl rfl)⟩
  · exact ⟨_, rfl, rfl, rfl, .inl rfl⟩

/-- The end of a transfer moves its data, or stops where it runs beyond the DRAM. -/
theorem execTransferComplete_moves (dt : Nat) (s : State) :
    (∃ t, execTransferComplete dt s = .next t ∧ s.MovesFrom t) ∨
      execTransferComplete dt s = .fault .beyondDram ∧ s.transferInRange = false := by
  unfold execTransferComplete State.transferInRange
  dsimp only [Part.after_path]
  cases s.part.path.channel with
  | free => exact .inl ⟨_, rfl, rfl, rfl, .inl rfl⟩
  | refresh => exact .inl ⟨_, rfl, rfl, rfl, .inl rfl⟩
  | client port =>
    dsimp only
    cases (s.part.path.ports.nth port).queue with
    | nil => exact .inl ⟨_, rfl, rfl, rfl, .inl rfl⟩
    | cons a rest =>
      dsimp only
      split
      · next beyond => exact .inr ⟨rfl, decide_eq_false (Nat.not_le.2 beyond)⟩
      · exact .inl ⟨_, rfl, rfl, rfl, .inr (.inr ⟨_, _, rfl⟩)⟩
  | stream i r orphan =>
    dsimp only
    split
    · next beyond => exact .inr ⟨rfl, decide_eq_false (Nat.not_le.2 beyond)⟩
    · exact .inl ⟨_, rfl, rfl, rfl, .inr (.inr ⟨_, _, rfl⟩)⟩

/-- A load record is received after some time. -/
theorem State.LoadsFrom.after {s t : State} {dt : Nat} (h : (s.withPart (Part.after dt)).LoadsFrom t) : s.LoadsFrom t :=
  ⟨h.pending, h.dram, h.flash⟩

theorem execLoadData_loads (dt : Nat) (framing : Bool) (offset : Word) (bytes : List Byte) (check : Word) (readBack : List Byte)
    (s : State) : ∃ t, execLoadData dt framing offset bytes check readBack s = .next t ∧ s.LoadsFrom t := by
  unfold execLoadData
  dsimp only
  split
  · exact ⟨_, rfl, (State.loadRecord_loads _ _ _).after⟩
  · exact ⟨_, rfl, .ofPart _ _⟩

/-- A command moves data in the DRAM, or writes the flash as a load record does, or is a transfer that runs beyond the DRAM. -/
theorem exec_moves_or_loads (c : Instr) (s : State) :
    (∃ t, exec c s = .next t ∧ (s.MovesFrom t ∨ s.LoadsFrom t)) ∨
      (∃ dt, c = .transferComplete dt) ∧ exec c s = .fault .beyondDram ∧ s.transferInRange = false := by
  have goesOn {o : Host.Outcome State Fault Refusal} (h : (∃ t, o = .next t ∧ s.MovesFrom t) ∨ ∃ t, o = .next t ∧ s.LoadsFrom t) :
      ∃ t, o = .next t ∧ (s.MovesFrom t ∨ s.LoadsFrom t) := by
    obtain ⟨t, ho, ht⟩ | ⟨t, ho, ht⟩ := h
    · exact ⟨t, ho, .inl ht⟩
    · exact ⟨t, ho, .inr ht⟩
  by_cases hc : storeTouching c = false
  · obtain ⟨f, hf⟩ := exec_partOnly c hc s
    exact .inl ⟨_, hf, .inr (.ofPart s f)⟩
  · cases c with
    | powerOn dt a b d => exact .inl (goesOn (.inl (execPowerOn_moves dt a b d s)))
    | calibrationComplete dt pass => exact .inl (goesOn (.inl (execCalibrationComplete_moves dt pass s)))
    | transferComplete dt => exact (execTransferComplete_moves dt s).imp (fun h => goesOn (.inl h)) fun h => ⟨⟨dt, rfl⟩, h⟩
    | loadStart dt framing length check => exact .inl ⟨_, rfl, .inr (State.loadRecord_loads _ _ _).after⟩
    | eraseComplete dt => exact .inl ⟨_, rfl, .inr (State.eraseDone_loads _).after⟩
    | loadData dt framing offset bytes check readBack =>
      exact .inl (goesOn (.inr (execLoadData_loads dt framing offset bytes check readBack s)))
    | loadEnd dt framing check => exact .inl ⟨_, rfl, .inr (State.loadRecord_loads _ _ _).after⟩
    | _ => exact absurd rfl hc

/-- Settles O2: a transfer stops only where it runs beyond the DRAM, and nothing else does. -/
theorem onlyATransferBeyondTheDramStops : Obligations.OnlyATransferBeyondTheDramStops := by
  unfold Obligations.OnlyATransferBeyondTheDramStops
  intro c s inRange
  obtain ⟨t, hexec, ht | ht⟩ | ⟨isTransfer, -, beyond⟩ := exec_moves_or_loads c s
  · exact ⟨t, hexec, ht.pending⟩
  · exact ⟨t, hexec, ht.pending⟩
  · exact absurd (inRange isTransfer) (by rw [beyond]; exact Bool.noConfusion)

theorem exec_keeps_memoriesWf {c : Instr} {s t : State} (hs : s.memoriesWf = true) (h : exec c s = .next t) :
    t.memoriesWf = true := by
  obtain ⟨u, hexec, hu⟩ | ⟨-, hexec, -⟩ := exec_moves_or_loads c s
  · cases hexec.symm.trans h
    exact hu.elim (·.wf hs) (·.wf hs)
  · cases hexec.symm.trans h

/-- Settles O5: each command keeps both stores canonical, and an idle step changes nothing. -/
theorem everyStepKeepsTheStoresCanonical : Obligations.EveryStepKeepsTheStoresCanonical := by
  unfold Obligations.EveryStepKeepsTheStoresCanonical
  intro s t hs h
  rw [step] at h
  split at h
  case h_1 =>
    cases h
    exact hs
  case h_2 c rest _ =>
    have hrest : ({ s with pending := rest } : State).memoriesWf = true := hs
    exact exec_keeps_memoriesWf hrest h

/-- Settles O6: the tables of the reset state hold the same clear object at every place. -/
theorem resetLeavesThePartClear : Obligations.ResetLeavesThePartClear := by
  unfold Obligations.ResetLeavesThePartClear
  refine ⟨rfl, rfl, ⟨fun a b live => ?noneLive, fun i active => nomatch active⟩, rfl, rfl, fun p => ⟨?withdrawn, ?emptyQueue⟩, rfl, rfl, rfl, rfl,
    rfl, rfl, rfl, rfl, rfl, rfl, rfl, rfl, rfl, rfl, fun l => ?lanes, fun k => ?rings, fun i => ?streams, rfl⟩
  case noneLive => simp [State.reset, Part.reset, Image.fallback, Window.live] at live
  case withdrawn => simp [State.reset, Part.reset, Path.readyLine]
  case emptyQueue => simp [State.reset, Part.reset]
  case lanes => simp [State.reset, Part.reset, Image.fallback, Lane.initial]
  case rings => simp [State.reset, Part.reset, Ring.clear]
  case streams => simp [State.reset, Part.reset]

end Sys2Proof.Machine
end

section
/-! The frame of every command (O3): which of the settings a command may change, one setting at most but where the blocks
take their state from an image. -/

namespace Sys2Proof.Machine

/-- A setting that a command of its own changes. -/
inductive Setting where
  | loader | clock | windows | intervals | cues | sources | buses | classes | lanes

/-- The settings with one of them blanked, or all of them. -/
def Settings.without (x : Settings) : Option Setting → Settings
  | none => x
  | some .loader => { x with loader := Part.reset.loader }
  | some .clock => { x with clock := Part.reset.clock }
  | some .windows => { x with windows := Table.all ⟨.closed, 0, 0, .plain, 0, 0, 0⟩ }
  | some .intervals => { x with intervals := Table.all 0 }
  | some .cues => { x with cues := Table.all ⟨.off, .pushPull, 0, 0, 0, 0⟩ }
  | some .sources => { x with sources := Table.all ⟨false, 0, 0, 0, 0⟩ }
  | some .buses => { x with buses := Table.all ⟨false, 0, 0, 0, false, 0⟩ }
  | some .classes => { x with classes := Table.all (0, 0) }
  | some .lanes => { x with lanes := Table.all ⟨0, 0, .none, 0, .holdOff, false⟩ }

end Sys2Proof.Machine

/-- The setting a command may change, of the commands that take no image. -/
def Sys2Proof.Instr.sets : Sys2Proof.Instr → Option Sys2Proof.Machine.Setting
  | .calibrationComplete .. | .faultLineToggle | .loadStart .. | .eraseComplete _ | .loadData .. | .loadEnd ..
  | .maintenanceBreak _ => some .loader
  | .frameReferencePulse _ | .frameReferenceLoss | .oscillatorPictureTick | .setTimecode .. | .wordClockEdge _
  | .wordClockLoss | .oscillatorBlockTick | .readCounters .. => some .clock
  | .openWindow .. | .closeWindow .. | .windowDrained _ => some .windows
  | .setPortInterval .. => some .intervals
  | .setCueLine .. => some .cues
  | .setSource .. => some .sources
  | .setBus .. => some .buses
  | .setClass .. => some .classes
  | .setLane .. => some .lanes
  | _ => none

namespace Sys2Proof.Machine

/-- Every setting but the one named stands. -/
structure Settings.StandBut (f : Option Setting) (x y : Settings) : Prop where
  loader : f ≠ some .loader → y.loader = x.loader
  clock : f ≠ some .clock → y.clock = x.clock
  windows : f ≠ some .windows → y.windows = x.windows
  intervals : f ≠ some .intervals → y.intervals = x.intervals
  rings : y.rings = x.rings
  cues : f ≠ some .cues → y.cues = x.cues
  sources : f ≠ some .sources → y.sources = x.sources
  buses : f ≠ some .buses → y.buses = x.buses
  classes : f ≠ some .classes → y.classes = x.classes
  lanes : f ≠ some .lanes → y.lanes = x.lanes

/-- What stands where one setting is blanked. -/
theorem Settings.standBut_of_without {x y : Settings} {f : Option Setting} (h : y.without f = x.without f) : x.StandBut f y := by
  rcases f with _ | f
  · cases h
    constructor <;> intros <;> rfl
  · cases f <;> simp only [Settings.without, Settings.mk.injEq] at h <;> constructor <;> simp [h]

variable (p : Part)

/-! What setting a block leaves of the settings. -/

@[simp] theorem without_setLoader (x : Loader) : (p.setLoader x).settings.without (some .loader) = p.settings.without (some .loader) := rfl
@[simp] theorem without_setClock (x : Clock) : (p.setClock x).settings.without (some .clock) = p.settings.without (some .clock) := rfl
@[simp] theorem without_setCues (x : Table CueLine 8) : (p.setCues x).settings.without (some .cues) = p.settings.without (some .cues) := rfl
@[simp] theorem without_setLanes (x : Table Lane 4) : (p.setLanes x).settings.without (some .lanes) = p.settings.without (some .lanes) := rfl

variable {p}

@[simp] theorem without_windows {x : Path} (h : x.intervals = p.path.intervals) :
    (p.setPath x).settings.without (some .windows) = p.settings.without (some .windows) := by
  simp [Settings.without, Part.settings, h]

@[simp] theorem without_intervals {x : Path} (h : x.windows = p.path.windows) :
    (p.setPath x).settings.without (some .intervals) = p.settings.without (some .intervals) := by
  simp [Settings.without, Part.settings, h]

@[simp] theorem without_sources {x : Mixer} (h : x.buses.each (·.cfg) = p.mixer.buses.each (·.cfg)) :
    (p.setMixer x).settings.without (some .sources) = p.settings.without (some .sources) := by
  simp [Settings.without, Part.settings, h]

@[simp] theorem without_buses {x : Mixer} (h : x.sources.each (·.cfg) = p.mixer.sources.each (·.cfg)) :
    (p.setMixer x).settings.without (some .buses) = p.settings.without (some .buses) := by
  simp [Settings.without, Part.settings, h]

@[simp] theorem without_classes (x : Sender) : (p.setSender x).settings.without (some .classes) = p.settings.without (some .classes) := rfl

/-- A software command leaves what its body leaves. -/
theorem without_run {c : Instr} {f : Option Setting} {body : Nat → Part → Part}
    (h : ∀ i p, (body i p).settings.without f = p.settings.without f) (p : Part) :
    (Part.run c body p).settings.without f = p.settings.without f := by
  unfold Part.run
  split
  · rfl
  · split
    · exact (h _ _).trans (congrArg (Settings.without · f) (settings_setCmd rfl))
    · rfl

/-! The loader's commands. -/

@[simp] theorem without_startToggling : p.startToggling.settings.without (some .loader) = p.settings.without (some .loader) := rfl
@[simp] theorem without_loadFails : p.loadFails.settings.without (some .loader) = p.settings.without (some .loader) := rfl

theorem without_memoryReady (p : Part) : p.memoryReady.settings.without (some .loader) = p.settings.without (some .loader) := rfl

theorem without_calibrationFailed (p : Part) :
    p.calibrationFailed.settings.without (some .loader) = p.settings.without (some .loader) := by
  unfold Part.calibrationFailed
  split <;> rfl

theorem without_toggleFault (p : Part) : p.toggleFault.settings.without (some .loader) = p.settings.without (some .loader) := by
  unfold Part.toggleFault
  split <;> rfl

theorem without_maintenanceBreak (p : Part) :
    p.maintenanceBreak.settings.without (some .loader) = p.settings.without (some .loader) := by
  unfold Part.maintenanceBreak
  split <;> rfl

theorem without_handleRecord (r : LoadRecord) (s : State) :
    (s.handleRecord r).part.settings.without (some .loader) = s.part.settings.without (some .loader) := by
  cases hl : s.part.loader.load <;> cases r <;> simp only [State.handleRecord, hl]
  all_goals repeat' split
  all_goals first
    | rfl
    | (unfold State.writeData; dsimp only; split <;> rfl)

theorem without_loadRecord (good : Bool) (r : LoadRecord) (s : State) :
    (s.loadRecord good r).part.settings.without (some .loader) = s.part.settings.without (some .loader) := by
  unfold State.loadRecord
  repeat' split
  all_goals first
    | rfl
    | exact without_handleRecord _ _

theorem without_eraseDone (s : State) :
    s.eraseDone.part.settings.without (some .loader) = s.part.settings.without (some .loader) := by
  unfold State.eraseDone
  dsimp only
  split
  · split
    · rw [without_handleRecord]
      split <;> rfl
    · split <;> rfl
  · rfl

/-! The clock's commands. -/

@[simp] theorem without_pictureTick (p : Part) : p.pictureTick.settings.without (some .clock) = p.settings.without (some .clock) := rfl

@[simp] theorem without_setFrame (r : Reference) (p : Part) :
    (p.setFrame r).settings.without (some .clock) = p.settings.without (some .clock) := rfl

@[simp] theorem without_setWord (r : Reference) (p : Part) :
    (p.setWord r).settings.without (some .clock) = p.settings.without (some .clock) := rfl

@[simp] theorem without_setEdges (n : Nat) (p : Part) :
    (p.setEdges n).settings.without (some .clock) = p.settings.without (some .clock) := rfl

@[simp] theorem without_blockTick (p : Part) : p.blockTick.settings.without (some .clock) = p.settings.without (some .clock) := by
  simp [Part.blockTick]

theorem without_framePulse (p : Part) : p.framePulse.settings.without (some .clock) = p.settings.without (some .clock) := by
  unfold Part.framePulse
  dsimp only
  (repeat' split) <;> simp

theorem without_wordEdge (p : Part) : p.wordEdge.settings.without (some .clock) = p.settings.without (some .clock) := by
  unfold Part.wordEdge
  dsimp only
  (repeat' split) <;> simp

theorem without_frameLoss (p : Part) : p.frameLoss.settings.without (some .clock) = p.settings.without (some .clock) := by
  unfold Part.frameLoss
  split <;> simp

theorem without_oscPicture (p : Part) : p.oscPicture.settings.without (some .clock) = p.settings.without (some .clock) := by
  unfold Part.oscPicture
  split <;> simp

theorem without_wordLoss (p : Part) : p.wordLoss.settings.without (some .clock) = p.settings.without (some .clock) := by
  unfold Part.wordLoss
  split <;> simp

theorem without_oscBlock (p : Part) : p.oscBlock.settings.without (some .clock) = p.settings.without (some .clock) := by
  unfold Part.oscBlock
  split <;> simp

/-! Windows. -/

theorem without_openEntry (w : Fin 32) (win : Window) (p : Part) :
    (p.openEntry w win).settings.without (some .windows) = p.settings.without (some .windows) := by
  unfold Part.openEntry
  dsimp only
  split <;> simp

@[simp] theorem without_updWindow (w : Fin 32) (f : Window → Window) (p : Part) :
    (p.updWindow w f).settings.without (some .windows) = p.settings.without (some .windows) := without_windows rfl

@[simp] theorem without_closeEntry (w : Fin 32) (p : Part) :
    (p.closeEntry w).settings.without (some .windows) = p.settings.without (some .windows) := without_updWindow w _ p

@[simp] theorem without_drainEntry (w : Fin 32) (p : Part) :
    (p.drainEntry w).settings.without (some .windows) = p.settings.without (some .windows) := by
  unfold Part.drainEntry
  dsimp only
  rw [settings_foldl (settings_refuseHeld w)]
  split <;> simp

/-! A group read's clearing, and the reset. -/

theorem settings_mixerCleared (p : Part) : (p.setMixer p.mixer.cleared).settings = p.settings :=
  settings_setMixer (Table.each_same fun _ => rfl) (Table.each_same fun _ => rfl)

theorem settings_senderCleared (p : Part) : (p.setSender p.sender.cleared).settings = p.settings :=
  settings_setSender (Table.each_same fun _ => rfl)

theorem without_group {b : Byte} {g : Group} (h : groupOf b = some g) (p : Part) :
    (g.always p).settings.without (some .clock) = p.settings.without (some .clock) ∧
      (g.clear p).settings.without (some .clock) = p.settings.without (some .clock) := by
  unfold groupOf at h
  repeat' split at h
  all_goals cases h
  · simp [portGroup]
  · simp [cameraGroup]
  · simp [mixerGroup, settings_mixerCleared]
  · simp [laneGroup]
  · simp [sendGroup, settings_senderCleared]
  · simp [cueGroup]

/-- The loader, the clock and the live rings stand. -/
structure Part.StartUpKept (p q : Part) : Prop where
  loader : q.loader = p.loader
  clock : q.clock = p.clock
  rings : q.cmd.rings = p.cmd.rings

theorem Part.StartUpKept.of_settings {p q : Part} (h : q.settings = p.settings) : p.StartUpKept q :=
  ⟨congrArg Settings.loader h, congrArg Settings.clock h, congrArg Settings.rings h⟩

theorem Part.StartUpKept.trans {p q r : Part} (hq : p.StartUpKept q) (hr : q.StartUpKept r) : p.StartUpKept r :=
  ⟨hr.loader.trans hq.loader, hr.clock.trans hq.clock, hr.rings.trans hq.rings⟩

theorem applyCopy_keeps (i : Image) (p : Part) : p.StartUpKept (p.applyCopy i) := by
  constructor <;> simp [Part.applyCopy]

theorem reapply_keeps (i : Image) (p : Part) : p.StartUpKept (p.reapply i) := by
  have dropped : p.StartUpKept p.dropStreams.breakOffAll := .of_settings (by simp)
  have started (q : Part) : q.StartUpKept ((q.startCameras i).startLanes).tally := .of_settings (by simp)
  have cut (q : Part) (x : Table Lane 4) : q.StartUpKept (q.setLanes x) := ⟨rfl, rfl, rfl⟩
  exact ((dropped.trans (applyCopy_keeps i _)).trans (cut _ _)).trans (started _)

theorem engineReset_keeps (ring : Nat) (tag : Word) (p : Part) : p.StartUpKept (p.engineReset ring tag) := by
  have cancelled : p.StartUpKept p.cancelDeferred.clearCommander := .of_settings (by simp)
  have answered (q : Part) : q.StartUpKept ((q.defer ring tag .engineReset).complete ring tag .done []) := .of_settings (by simp)
  unfold Part.engineReset
  dsimp only
  split
  · exact (cancelled.trans (reapply_keeps _ _)).trans (answered _)
  · exact cancelled.trans (answered _)

theorem exec_engineReset_keeps {tag : Word} {s t : State} (h : exec (.engineReset tag) s = .next t) : s.part.StartUpKept t.part := by
  cases h
  rw [State.withPart_part, Part.run]
  split
  · exact .of_settings rfl
  · split
    · have taken (q : Part) : q.StartUpKept (q.setCmd { q.cmd with inHand := none }) := ⟨rfl, rfl, rfl⟩
      refine (taken _).trans ?_
      split
      · exact .of_settings (by simp)
      · split
        · exact .of_settings (by simp)
        · exact engineReset_keeps _ _ _
    · exact .of_settings rfl

section

variable {s t : State}

theorem exec_calibrationComplete_sets {dt : Nat} {pass : Bool} (h : exec (.calibrationComplete dt pass) s = .next t) :
    t.part.settings.without (some .loader) = s.part.settings.without (some .loader) := by
  change execCalibrationComplete dt pass s = _ at h
  unfold execCalibrationComplete at h
  dsimp only at h
  split at h
  · split at h <;> cases h
    · exact without_memoryReady _
    · exact without_calibrationFailed _
  · cases h
    rfl

theorem exec_loadData_sets {dt : Nat} {framing : Bool} {offset : Word} {bytes : List Byte} {check : Word} {readBack : List Byte}
    (h : exec (.loadData dt framing offset bytes check readBack) s = .next t) :
    t.part.settings.without (some .loader) = s.part.settings.without (some .loader) := by
  change execLoadData dt framing offset bytes check readBack s = _ at h
  unfold execLoadData at h
  dsimp only at h
  split at h <;> cases h
  · exact without_loadRecord _ _ _
  · rfl

theorem exec_windowDrained_sets {w : Fin 32} (h : exec (.windowDrained w) s = .next t) :
    t.part.settings.without (some .windows) = s.part.settings.without (some .windows) := by
  cases h
  dsimp only [State.withPart]
  split <;> simp

theorem exec_setTimecode_sets {tag : Word} {ff ss mm hh : Byte} (h : exec (.setTimecode tag ff ss mm hh) s = .next t) :
    t.part.settings.without (some .clock) = s.part.settings.without (some .clock) := by
  cases h
  refine without_run (fun i p => ?_) _
  dsimp only
  split <;> simp

theorem exec_readCounters_sets {tag : Word} {group clear : Byte} {report : Wide}
    (h : exec (.readCounters tag group clear report) s = .next t) :
    t.part.settings.without (some .clock) = s.part.settings.without (some .clock) := by
  cases h
  refine without_run (fun i p => ?_) _
  dsimp only
  split
  · next g wipe hg _ =>
    obtain ⟨halways, -⟩ := without_group hg p
    obtain ⟨-, hclear⟩ := without_group hg (g.always p)
    split
    · rw [settings_startReport]
      split
      · exact hclear.trans halways
      · exact halways
    · simp
  · simp

theorem exec_openWindow_sets {tag : Word} {entry : Byte} {base size : Wide} {kind subject readSet writeSet : Byte}
    (h : exec (.openWindow tag entry base size kind subject readSet writeSet) s = .next t) :
    t.part.settings.without (some .windows) = s.part.settings.without (some .windows) := by
  cases h
  refine without_run (fun i p => ?_) _
  (repeat' split) <;> simp [without_openEntry]

theorem exec_closeWindow_sets {tag : Word} {entry : Byte} (h : exec (.closeWindow tag entry) s = .next t) :
    t.part.settings.without (some .windows) = s.part.settings.without (some .windows) := by
  cases h
  refine without_run (fun i p => ?_) _
  dsimp only
  (repeat' split) <;> simp

theorem exec_setPortInterval_sets {tag : Word} {contender : Byte} {interval : Half}
    (h : exec (.setPortInterval tag contender interval) s = .next t) :
    t.part.settings.without (some .intervals) = s.part.settings.without (some .intervals) := by
  cases h
  refine without_run (fun i p => ?_) _
  dsimp only
  split <;> simp

theorem exec_setCueLine_sets {tag : Word} {line mode drive : Byte} {debounce : Half} {cameras preroll tally : Byte}
    (h : exec (.setCueLine tag line mode drive debounce cameras preroll tally) s = .next t) :
    t.part.settings.without (some .cues) = s.part.settings.without (some .cues) := by
  cases h
  refine without_run (fun i p => ?_) _
  split <;> simp [Part.updCue]

theorem exec_setSource_sets {tag : Word} {source state window : Byte} {ring : Half} {offset width : Byte}
    (h : exec (.setSource tag source state window ring offset width) s = .next t) :
    t.part.settings.without (some .sources) = s.part.settings.without (some .sources) := by
  cases h
  refine without_run (fun i p => ?_) _
  dsimp only
  (repeat' split) <;> simp [Part.updSource]

theorem exec_setBus_sets {tag : Word} {bus state window : Byte} {ring master : Half} {send : Byte} {divider : Half}
    (h : exec (.setBus tag bus state window ring master send divider) s = .next t) :
    t.part.settings.without (some .buses) = s.part.settings.without (some .buses) := by
  cases h
  refine without_run (fun i p => ?_) _
  dsimp only
  (repeat' split) <;> simp [Part.updBus]

theorem exec_setClass_sets {tag : Word} {cls : Byte} {interval hold : Half} (h : exec (.setClass tag cls interval hold) s = .next t) :
    t.part.settings.without (some .classes) = s.part.settings.without (some .classes) := by
  cases h
  refine without_run (fun i p => ?_) _
  split <;> simp [Part.updClass]

theorem exec_setLane_sets {tag : Word} {lane : Byte} {divider window : Half} {filter depth policy : Byte}
    (h : exec (.setLane tag lane divider window filter depth policy) s = .next t) :
    t.part.settings.without (some .lanes) = s.part.settings.without (some .lanes) := by
  cases h
  refine without_run (fun i p => ?_) _
  (repeat' split) <;> simp [Part.updLane]

/-- A command that takes no image changes the one setting it sets, if it sets one, and no other. -/
theorem exec_sets {c : Instr} (hc : c.takesAnImage = false) (h : exec c s = .next t) :
    t.part.settings.without c.sets = s.part.settings.without c.sets := by
  cases c with
  | powerOn | imageReadComplete | engineReset => exact absurd hc Bool.noConfusion
  | calibrationComplete => exact exec_calibrationComplete_sets h
  | faultLineToggle => cases h; exact without_toggleFault _
  | loadStart | loadEnd => cases h; exact without_loadRecord _ _ _
  | eraseComplete => cases h; exact without_eraseDone _
  | loadData => exact exec_loadData_sets h
  | maintenanceBreak => cases h; exact without_maintenanceBreak _
  | frameReferencePulse => cases h; exact without_framePulse _
  | frameReferenceLoss => cases h; exact without_frameLoss _
  | oscillatorPictureTick => cases h; exact without_oscPicture _
  | setTimecode => exact exec_setTimecode_sets h
  | wordClockEdge => cases h; exact without_wordEdge _
  | wordClockLoss => cases h; exact without_wordLoss _
  | oscillatorBlockTick => cases h; exact without_oscBlock _
  | readCounters => exact exec_readCounters_sets h
  | openWindow => exact exec_openWindow_sets h
  | closeWindow => exact exec_closeWindow_sets h
  | windowDrained => exact exec_windowDrained_sets h
  | setPortInterval => exact exec_setPortInterval_sets h
  | setCueLine => exact exec_setCueLine_sets h
  | setSource => exact exec_setSource_sets h
  | setBus => exact exec_setBus_sets h
  | setClass => exact exec_setClass_sets h
  | setLane => exact exec_setLane_sets h
  | clientRequest dt port tag kind line count data => exact (keeps_clientRequest dt port tag kind line count data s).next h
  | grant => exact (keeps_grant s).next h
  | transferComplete dt => exact (keeps_transferComplete dt s).next h
  | refreshDue => exact (keeps_refreshDue s).next h
  | refreshComplete dt => exact (keeps_refreshComplete dt s).next h
  | quiesce tag => exact (keeps_quiesce tag s).next h
  | quiesceComplete => exact (keeps_quiesceComplete s).next h
  | resume tag => exact (keeps_resume tag s).next h
  | cueRawChange dt line high => exact (keeps_cueRawChange dt line high s).next h
  | debounceExpiry line => exact (keeps_debounceExpiry line s).next h
  | driveCueLine tag line value => exact (keeps_driveCueLine tag line value s).next h
  | setCamera tag camera frameWin replayWin stride lines tiles policy holdLimit budget live => exact (keeps_setCamera tag camera frameWin replayWin stride lines tiles policy holdLimit budget live s).next h
  | startCamera tag camera => exact (keeps_startCamera tag camera s).next h
  | stopCamera tag camera => exact (keeps_stopCamera tag camera s).next h
  | stopCameraComplete camera => exact (keeps_stopCameraComplete camera s).next h
  | holdLimitExpiry camera => exact (keeps_holdLimitExpiry camera s).next h
  | jobTake => exact (keeps_jobTake s).next h
  | codedEvent dt tiles => exact (keeps_codedEvent dt tiles s).next h
  | findPicture tag camera byNumber number byTimecode ff ss mm hh => exact (keeps_findPicture tag camera byNumber number byTimecode ff ss mm hh s).next h
  | setGain tag bus source target step => exact (keeps_setGain tag bus source target step s).next h
  | removeSource tag bus source => exact (keeps_removeSource tag bus source s).next h
  | startMixer tag => exact (keeps_startMixer tag s).next h
  | stopMixer tag => exact (keeps_stopMixer tag s).next h
  | stopMixerComplete => exact (keeps_stopMixerComplete s).next h
  | readMeters tag report => exact (keeps_readMeters tag report s).next h
  | markIn tag cameras preroll limitPresent limit labels => exact (keeps_markIn tag cameras preroll limitPresent limit labels s).next h
  | markOut tag clip => exact (keeps_markOut tag clip s).next h
  | unpin tag clip => exact (keeps_unpin tag clip s).next h
  | pin tag clip => exact (keeps_pin tag clip s).next h
  | deleteClip tag clip => exact (keeps_deleteClip tag clip s).next h
  | addLabel tag clip code => exact (keeps_addLabel tag clip code s).next h
  | removeLabel tag clip code => exact (keeps_removeLabel tag clip code s).next h
  | sendClip tag clip => exact (keeps_sendClip tag clip s).next h
  | mirrorWriteStart => exact (keeps_mirrorWriteStart s).next h
  | itemStale item => exact (keeps_itemStale item s).next h
  | cursorStep => exact (keeps_cursorStep s).next h
  | buildStart => exact (keeps_buildStart s).next h
  | descriptorExpiry seq => exact (keeps_descriptorExpiry seq s).next h
  | returnMessageEnd dt lane bytes => exact (keeps_returnMessageEnd dt lane bytes s).next h
  | receipt lane => exact (keeps_receipt lane s).next h
  | resend lane => exact (keeps_resend lane s).next h
  | laneTest lane => exact (keeps_laneTest lane s).next h
  | flushClass tag cls => exact (keeps_flushClass tag cls s).next h
  | laneOn tag lane => exact (keeps_laneOn tag lane s).next h
  | laneOff tag lane => exact (keeps_laneOff tag lane s).next h
  | breakSentEnd lane => exact (keeps_breakSentEnd lane s).next h
  | carrierChange dt lane present => exact (keeps_carrierChange dt lane present s).next h
  | carrierFilterExpiry lane => exact (keeps_carrierFilterExpiry lane s).next h
  | settleExpiry lane => exact (keeps_settleExpiry lane s).next h
  | modemHoldChange dt lane asserted => exact (keeps_modemHoldChange dt lane asserted s).next h
  | transmitStart lane => exact (keeps_transmitStart lane s).next h
  | transmitComplete lane => exact (keeps_transmitComplete lane s).next h
  | breakReceived dt lane afterRun => exact (keeps_breakReceived dt lane afterRun s).next h
  | breakReceiveEnd dt lane => exact (keeps_breakReceiveEnd dt lane s).next h
  | markerFirstByte dt lane afterRun => exact (keeps_markerFirstByte dt lane afterRun s).next h
  | tailWordWrite => exact (keeps_tailWordWrite s).next h
  | headWordWrite => exact (keeps_headWordWrite s).next h
  | commandFetch => exact (keeps_commandFetch s).next h
  | unknownCommand tag kind => exact (keeps_unknownCommand tag kind s).next h
  | statusWriteStart => exact (keeps_statusWriteStart s).next h
  | engineResetComplete => exact (keeps_engineResetComplete s).next h

/-- END writes nothing to the flash. -/
theorem loadRecord_finish_flash (good : Bool) (s : State) : (s.loadRecord good .finish).flash = s.flash := by
  have handled : (s.handleRecord .finish).flash = s.flash := by
    cases hl : s.part.loader.load <;> simp only [State.handleRecord, hl]
    all_goals repeat' split
    all_goals rfl
  unfold State.loadRecord
  repeat' split
  all_goals first
    | rfl
    | exact handled

theorem exec_dram {c : Instr} (h : exec c s = .next t) (hpower : ∀ dt a b d, c ≠ .powerOn dt a b d)
    (hpass : ∀ dt, c ≠ .calibrationComplete dt true) (htransfer : ∀ dt, c ≠ .transferComplete dt) : t.dram = s.dram := by
  by_cases hc : storeTouching c = false
  · obtain ⟨f, hf⟩ := exec_partOnly c hc s
    cases hf.symm.trans h
    rfl
  · cases c with
    | powerOn dt a b d => exact absurd rfl (hpower dt a b d)
    | transferComplete dt => exact absurd rfl (htransfer dt)
    | calibrationComplete dt pass =>
      cases pass with
      | true => exact absurd rfl (hpass dt)
      | false =>
        change execCalibrationComplete dt false s = _ at h
        unfold execCalibrationComplete at h
        dsimp only at h
        split at h <;> cases h <;> rfl
    | loadStart | loadEnd => cases h; exact (State.loadRecord_loads _ _ _).dram
    | eraseComplete => cases h; exact (State.eraseDone_loads _).dram
    | loadData dt framing offset bytes check readBack =>
      obtain ⟨u, hu, hloads⟩ := execLoadData_loads dt framing offset bytes check readBack s
      cases hu.symm.trans h
      exact hloads.dram
    | _ => exact absurd rfl hc

theorem exec_flash {c : Instr} (h : exec c s = .next t) (hstart : ∀ dt f l k, c ≠ .loadStart dt f l k)
    (hdata : ∀ dt f o bs k rb, c ≠ .loadData dt f o bs k rb) (herase : ∀ dt, c ≠ .eraseComplete dt) : t.flash = s.flash := by
  by_cases hc : storeTouching c = false
  · obtain ⟨f, hf⟩ := exec_partOnly c hc s
    cases hf.symm.trans h
    rfl
  · cases c with
    | powerOn dt a b d => cases h; rfl
    | transferComplete dt =>
      obtain ⟨u, hu, hmoves⟩ | ⟨hu, -⟩ := execTransferComplete_moves dt s
      · cases hu.symm.trans h
        exact hmoves.flash
      · cases hu.symm.trans h
    | calibrationComplete dt pass =>
      obtain ⟨u, hu, hmoves⟩ := execCalibrationComplete_moves dt pass s
      cases hu.symm.trans h
      exact hmoves.flash
    | loadStart dt f l k => exact absurd rfl (hstart dt f l k)
    | loadEnd dt framing check => cases h; exact loadRecord_finish_flash _ _
    | eraseComplete dt => exact absurd rfl (herase dt)
    | loadData dt f o bs k rb => exact absurd rfl (hdata dt f o bs k rb)
    | _ => exact absurd rfl hc

end

/-- Where the settings of a table stand, each object's does. -/
theorem nth_of_each {α β : Type} {n : Nat} {x y : Table α n} {g : α → β} (h : y.each g = x.each g) (i : Fin n) :
    g (y.nth i) = g (x.nth i) := by
  have := congrArg (Table.nth · i) h
  simpa using this

/-- Settles O3: which stores a command touches, and that it changes at most the one setting it sets. -/
theorem onlyTheseCommandsChangeStoresAndSettings : Obligations.OnlyTheseCommandsChangeStoresAndSettings := by
  unfold Obligations.OnlyTheseCommandsChangeStoresAndSettings
  intro c s t h
  have kept (hc : c.takesAnImage = false) := Settings.standBut_of_without (exec_sets hc h)
  refine ⟨exec_dram h, exec_flash h, ?loader, ?clock, ?rings, fun hc => ?_⟩
  case loader =>
    cases c with
    | engineReset => exact (exec_engineReset_keeps h).loader
    | _ => first | trivial | exact (kept rfl).loader nofun
  case clock =>
    cases c with
    | engineReset => exact (exec_engineReset_keeps h).clock
    | _ => first | trivial | exact (kept rfl).clock nofun
  case rings =>
    cases c with
    | engineReset => exact (exec_engineReset_keeps h).rings
    | _ => first | trivial | exact (kept rfl).rings
  have kept := kept hc
  refine ⟨fun hopen hclose hdrained => kept.windows fun e => ?windows, fun hinterval => kept.intervals fun e => ?intervals,
    fun hcue => nth_of_each (kept.cues fun e => ?cues), fun hsource => nth_of_each (kept.sources fun e => ?sources),
    fun hbus => nth_of_each (kept.buses fun e => ?buses),
    fun hclass x => Prod.mk.inj (nth_of_each (kept.classes fun e => ?classes) x),
    fun hlane => nth_of_each (kept.lanes fun e => ?lanes)⟩
  case windows =>
    cases c with
    | openWindow => exact hopen _ _ _ _ _ _ _ _ rfl
    | closeWindow => exact hclose _ _ rfl
    | windowDrained => exact hdrained _ rfl
    | _ => exact nomatch e
  case intervals =>
    cases c with
    | setPortInterval => exact hinterval _ _ _ rfl
    | _ => exact nomatch e
  case cues =>
    cases c with
    | setCueLine => exact hcue _ _ _ _ _ _ _ _ rfl
    | _ => exact nomatch e
  case sources =>
    cases c with
    | setSource => exact hsource _ _ _ _ _ _ _ rfl
    | _ => exact nomatch e
  case buses =>
    cases c with
    | setBus => exact hbus _ _ _ _ _ _ _ _ rfl
    | _ => exact nomatch e
  case classes =>
    cases c with
    | setClass => exact hclass _ _ _ _ rfl
    | _ => exact nomatch e
  case lanes =>
    cases c with
    | setLane => exact hlane _ _ _ _ _ _ _ rfl
    | _ => exact nomatch e

end Sys2Proof.Machine
end

section
/-! Windows that are OPEN or DRAINING stay apart (O15): what opening, draining and closing an entry make of the table, and which
tables the blocks take up from an image. -/

namespace Sys2Proof.Machine

theorem windows_of_settings {p q : Part} (h : q.settings = p.settings) : q.path.windows = p.path.windows :=
  congrArg Settings.windows h

theorem loader_of_without_windows {p q : Part} (h : q.settings.without (some .windows) = p.settings.without (some .windows)) :
    q.loader = p.loader := (Settings.standBut_of_without h).loader nofun

/-- The part's window table, and its active copy's, have no two windows that overlap. -/
def Part.Apart (p : Part) : Prop :=
  windowsDisjoint p.path.windows ∧ ∀ i, p.loader.active = some i → windowsDisjoint i.windows

theorem Part.Apart.of_eq {p q : Part} (h : p.Apart) (hw : q.path.windows = p.path.windows) (ha : q.loader.active = p.loader.active) :
    q.Apart := by
  rwa [Part.Apart, hw, ha]

theorem Part.Apart.of_active_eq {p q : Part} (h : p.Apart) (hw : windowsDisjoint q.path.windows)
    (ha : q.loader.active = p.loader.active) : q.Apart := by
  refine ⟨hw, ?_⟩
  rw [ha]
  exact h.2

theorem Part.Apart.of_settings {p q : Part} (h : p.Apart) (e : q.settings = p.settings) : q.Apart :=
  h.of_eq (congrArg Settings.windows e) (congrArg (·.loader.active) e)

/-! One entry replaced. -/

section

variable {ws : Table Window 32} {w : Fin 32} {x : Window}

/-- An entry that is apart from every other live one may be put in the table. -/
theorem windowsDisjoint_put (h : windowsDisjoint ws)
    (hx : x.live = true → ∀ b, (ws.nth b).live = true → w ≠ b →
      x.base + x.size ≤ (ws.nth b).base ∨ (ws.nth b).base + (ws.nth b).size ≤ x.base) : windowsDisjoint (ws.put w x) := by
  intro a b ha hb hab
  simp only [Table.nth_put] at ha hb ⊢
  split at ha <;> split at hb
  case isTrue.isTrue => exact absurd (‹w = a›.symm.trans ‹w = b›) hab
  case isTrue.isFalse hwa hwb =>
    rw [if_pos hwa, if_neg hwb]
    exact hx ha b hb hwb
  case isFalse.isTrue hwa hwb =>
    rw [if_neg hwa, if_pos hwb]
    exact (hx hb a ha hwa).symm
  case isFalse.isFalse hwa hwb =>
    rw [if_neg hwa, if_neg hwb]
    exact h a b ha hb hab

/-- A window that overlaps none may be put in the table. -/
theorem windowsDisjoint_put_of_not_overlaps (h : windowsDisjoint ws) (hx : overlaps ws x = false) : windowsDisjoint (ws.put w x) := by
  refine windowsDisjoint_put h fun _ b hb _ => ?_
  have hmem : ws.nth b ∈ ws.list := (nth_of_mem ws _).2 ⟨b, rfl⟩
  have := (List.any_eq_false.1 hx) _ hmem
  simp only [hb, Window.touches, Bool.true_and, Bool.and_eq_true, decide_eq_true_eq, not_and] at this
  omega

/-- An entry may change its state where it was live. -/
theorem windowsDisjoint_put_state {st : WindowState} (h : windowsDisjoint ws) (hlive : st ≠ .closed → (ws.nth w).live = true) :
    windowsDisjoint (ws.put w { ws.nth w with state := st }) := by
  refine windowsDisjoint_put h fun hx b hb hwb => h w b (hlive ?_) hb hwb
  simpa [Window.live] using hx

end

/-! The commands of the window table. -/

theorem openEntry_windows (w : Fin 32) (win : Window) (p : Part) : (p.openEntry w win).path.windows = p.path.windows.put w win := by
  unfold Part.openEntry
  dsimp only
  split
  · exact windows_of_settings (settings_mirrorAll _)
  · rfl

theorem drainEntry_windows (w : Fin 32) (p : Part) :
    (p.drainEntry w).path.windows = p.path.windows.put w { p.path.windows.nth w with state := .draining } := by
  have held (q : Part) : ((List.finRange 6).foldl (Part.refuseHeld w) q).path.windows = q.path.windows :=
    windows_of_settings (settings_foldl (settings_refuseHeld w) _)
  unfold Part.drainEntry
  dsimp only
  rw [held]
  split
  · exact windows_of_settings (settings_mirrorWithdraw _)
  · rfl

theorem drainEntry_loader (w : Fin 32) (p : Part) : (p.drainEntry w).loader = p.loader :=
  loader_of_without_windows (without_drainEntry w p)

theorem Part.Apart.openEntry {p : Part} (h : p.Apart) {w : Fin 32} {win : Window} (hw : overlaps p.path.windows win = false) :
    (p.openEntry w win).Apart := by
  refine h.of_active_eq ?_ (congrArg Loader.active (loader_of_without_windows (without_openEntry w win p)))
  rw [openEntry_windows]
  exact windowsDisjoint_put_of_not_overlaps h.1 hw

theorem Part.Apart.drainEntry {p : Part} (h : p.Apart) {w : Fin 32} (hw : (p.path.windows.nth w).state ≠ .closed) :
    (p.drainEntry w).Apart := by
  refine h.of_active_eq ?_ (congrArg Loader.active (drainEntry_loader w p))
  rw [drainEntry_windows]
  exact windowsDisjoint_put_state h.1 fun _ => by simpa [Window.live] using hw

theorem Part.Apart.closeEntry {p : Part} (h : p.Apart) (w : Fin 32) : (p.closeEntry w).Apart :=
  h.of_active_eq (windowsDisjoint_put_state h.1 (absurd rfl)) rfl

/-- A software command keeps the windows apart where its body does. -/
theorem Part.Apart.run {c : Instr} {body : Nat → Part → Part} (hbody : ∀ i p, Part.Apart p → (body i p).Apart) {p : Part}
    (h : p.Apart) : (Part.run c body p).Apart := by
  unfold Part.run
  split
  · exact h
  · split
    · exact hbody _ _ h
    · exact h

section

variable {s t : State} (hs : s.part.Apart)
include hs

theorem apart_openWindow {tag : Word} {entry : Byte} {base size : Wide} {kind subject readSet writeSet : Byte}
    (h : exec (.openWindow tag entry base size kind subject readSet writeSet) s = .next t) : t.part.Apart := by
  cases h
  refine hs.run fun i p hp => ?_
  split
  case h_1 w win _ _ =>
    repeat' split
    case isTrue | isTrue | isTrue | isTrue => exact hp.of_settings (settings_refuse ..)
    case isFalse hover _ => exact (hp.openEntry (Bool.eq_false_iff.2 hover)).of_settings (settings_finish ..)
  case h_2 => exact hp.of_settings (settings_refuse ..)

theorem apart_closeWindow {tag : Word} {entry : Byte} (h : exec (.closeWindow tag entry) s = .next t) : t.part.Apart := by
  cases h
  refine hs.run fun i p hp => ?_
  split
  · exact hp.of_settings (settings_refuse ..)
  · split
    · exact hp.of_settings (settings_refuse ..)
    · split
      · exact hp.of_settings (settings_refuse ..)
      · split
        · exact hp.of_settings (settings_refuse ..)
        · next hlive _ =>
          have drained := hp.drainEntry hlive
          dsimp only
          split
          · exact (drained.closeEntry _).of_settings (settings_finish ..)
          · exact drained.of_settings (settings_defer ..)

theorem apart_windowDrained {w : Fin 32} (h : exec (.windowDrained w) s = .next t) : t.part.Apart := by
  cases h
  dsimp only [State.withPart]
  split
  · exact (hs.closeEntry w).of_settings (settings_completeDeferred ..)
  · exact hs

end

/-! The loader's commands leave the active copy. -/

theorem handleRecord_active (r : LoadRecord) (s : State) : (s.handleRecord r).part.loader.active = s.part.loader.active := by
  have written (o : Nat) (bs rb : List Byte) : (s.writeData o bs rb).part.loader.active = s.part.loader.active := by
    unfold State.writeData
    dsimp only
    split <;> rfl
  cases hl : s.part.loader.load <;> cases r <;> simp only [State.handleRecord, hl]
  all_goals repeat' split
  all_goals first
    | rfl
    | exact written _ _ _

theorem loadRecord_active (good : Bool) (r : LoadRecord) (s : State) :
    (s.loadRecord good r).part.loader.active = s.part.loader.active := by
  unfold State.loadRecord
  repeat' split
  all_goals first
    | rfl
    | exact handleRecord_active _ _

theorem eraseDone_active (s : State) : s.eraseDone.part.loader.active = s.part.loader.active := by
  unfold State.eraseDone
  dsimp only
  split
  · split
    · rw [handleRecord_active]
      split <;> rfl
    · split <;> rfl
  · rfl

theorem calibrationFailed_active (p : Part) : p.calibrationFailed.loader.active = p.loader.active := by
  unfold Part.calibrationFailed
  split <;> rfl

theorem toggleFault_active (p : Part) : p.toggleFault.loader.active = p.loader.active := by
  unfold Part.toggleFault
  split <;> rfl

theorem maintenanceBreak_active (p : Part) : p.maintenanceBreak.loader.active = p.loader.active := by
  unfold Part.maintenanceBreak
  split <;> rfl

theorem exec_active {c : Instr} {s t : State} (hc : c.sets = some .loader) (h : exec c s = .next t) :
    t.part.loader.active = s.part.loader.active := by
  cases c with
  | calibrationComplete dt pass =>
    change execCalibrationComplete dt pass s = _ at h
    unfold execCalibrationComplete at h
    dsimp only at h
    split at h
    · split at h <;> cases h
      · rfl
      · exact calibrationFailed_active _
    · cases h
      rfl
  | faultLineToggle => cases h; exact toggleFault_active _
  | loadStart | loadEnd => cases h; exact loadRecord_active _ _ _
  | eraseComplete => cases h; exact eraseDone_active _
  | loadData dt framing offset bytes check readBack =>
    change execLoadData dt framing offset bytes check readBack s = _ at h
    unfold execLoadData at h
    dsimp only at h
    split at h <;> cases h
    · exact loadRecord_active _ _ _
    · rfl
  | maintenanceBreak => cases h; exact maintenanceBreak_active _
  | _ => exact nomatch hc

/-! The tables that the blocks take up. -/

theorem started_windows (i : Image) (p : Part) : ((p.startCameras i).startLanes).tally.path.windows = p.path.windows :=
  windows_of_settings (by simp)

theorem applyCopy_windows (i : Image) (p : Part) : (p.applyCopy i).path.windows = i.windows := by
  simp [Part.applyCopy]

theorem reapply_windows (i : Image) (p : Part) : (p.reapply i).path.windows = i.windows := by
  unfold Part.reapply
  dsimp only
  rw [started_windows, Part.setLanes_path, applyCopy_windows]

theorem Part.Apart.engineReset {p : Part} (h : p.Apart) (ring : Nat) (tag : Word) : (p.engineReset ring tag).Apart := by
  have cleared : p.cancelDeferred.clearCommander.Apart := h.of_settings (by simp)
  unfold Part.engineReset
  dsimp only
  split
  · next i hi =>
    have taken : (p.cancelDeferred.clearCommander.reapply i).Apart :=
      cleared.of_active_eq ((reapply_windows i _).symm ▸ cleared.2 i hi) (congrArg Loader.active (reapply_keeps i _).loader)
    exact taken.of_settings (by simp)
  · exact cleared.of_settings (by simp)

theorem apart_engineReset {tag : Word} {s t : State} (hs : s.part.Apart) (h : exec (.engineReset tag) s = .next t) : t.part.Apart := by
  cases h
  refine hs.run fun i p hp => ?_
  split
  · exact hp.of_settings (settings_refuse ..)
  · split
    · exact hp.of_settings (settings_refuse ..)
    · exact hp.engineReset i tag

theorem takeRings_windows (r : Rings) (p : Part) : (p.takeRings r).path.windows = p.path.windows := by
  rw [Part.takeRings, windows_of_settings (settings_writeIndexWord ..), Part.setCmd_path]

theorem takeRings_loader (r : Rings) (p : Part) : (p.takeRings r).loader = p.loader := by
  rw [Part.takeRings, (Part.StartUpKept.of_settings (settings_writeIndexWord ..)).loader, Part.setCmd_loader]

theorem started_loader (i : Image) (p : Part) : ((p.startCameras i).startLanes).tally.loader = p.loader := by
  have h : ((p.startCameras i).startLanes).tally.settings = p.settings := by simp
  exact (Part.StartUpKept.of_settings h).loader

/-- The application event takes the copy's window table, and the copy is the active one. -/
theorem application_windows (i : Image) (station : Nat) (next : LoaderState) (p : Part) :
    (p.application i station next).path.windows = i.windows ∧ (p.application i station next).loader.active = some i := by
  unfold Part.application
  dsimp only
  split
  · rw [takeRings_windows, takeRings_loader, started_windows, started_loader, Part.setLanes_path, Part.setClock_path, applyCopy_windows,
      Part.setLanes_loader, Part.setClock_loader, (applyCopy_keeps i _).loader]
    exact ⟨rfl, rfl⟩
  · rw [started_windows, started_loader, Part.setLanes_path, Part.setClock_path, applyCopy_windows,
      Part.setLanes_loader, Part.setClock_loader, (applyCopy_keeps i _).loader]
    exact ⟨rfl, rfl⟩

theorem apart_application {i : Image} (hi : windowsDisjoint i.windows) (station : Nat) (next : LoaderState) (p : Part) :
    (p.application i station next).Apart := by
  obtain ⟨hw, ha⟩ := application_windows i station next p
  rw [Part.Apart, hw, ha]
  exact ⟨hi, fun j hj => Option.some.inj hj ▸ hi⟩

/-- The windows of an image that passes every check do not overlap. -/
theorem checkedImage_disjoint {flash : Memory} {stn1 stn0 : Bool} {i : Image} (h : checkedImage flash stn1 stn0 = some i) :
    windowsDisjoint i.windows := by
  unfold checkedImage at h
  dsimp only at h
  split at h
  · split at h
    · split at h
      · next hc =>
        cases h
        obtain ⟨consistent, -⟩ := hc
        simp only [Image.consistent, Bool.and_eq_true] at consistent
        obtain ⟨⟨⟨⟨⟨⟨⟨⟨disjoint, -⟩, -⟩, -⟩, -⟩, -⟩, -⟩, -⟩, -⟩ := consistent
        exact (disjoint_iff _).1 disjoint
      · cases h
    · cases h
  · cases h

/-- A table of closed windows has none that overlap. -/
theorem windowsDisjoint_all {x : Window} (h : x.live = false) : windowsDisjoint (Table.all x) := by
  intro a b ha
  rw [Table.nth_all, h] at ha
  cases ha

theorem Part.Apart.imageRead {p : Part} (h : p.Apart) (flash : Memory) : (p.imageRead flash).Apart := by
  unfold Part.imageRead
  split
  · split
    · next i hi => exact apart_application (checkedImage_disjoint hi) _ _ _
    · exact (apart_application (windowsDisjoint_all (x := ⟨.closed, 0, 0, .plain, 0, 0, 0⟩) rfl) _ _ _ :
        (p.application Image.fallback (stationOf 0 p.loader.stn1 p.loader.stn0) .fallback).Apart)
  · exact h

theorem apart_repower (modeLoad stn1 stn0 : Bool) (p : Part) : (p.repower modeLoad stn1 stn0).Apart :=
  ⟨windowsDisjoint_all (x := ⟨.closed, 0, 0, .plain, 0, 0, 0⟩) rfl, fun _ h => nomatch h⟩

theorem exec_keeps_apart {c : Instr} {s t : State} (hs : s.part.Apart) (h : exec c s = .next t) : t.part.Apart := by
  cases hc : c.takesAnImage with
  | true =>
    cases c with
    | powerOn => cases h; exact apart_repower _ _ _ _
    | imageReadComplete dt => cases h; exact (hs.of_settings (settings_after dt s.part)).imageRead s.flash
    | engineReset => exact apart_engineReset hs h
    | _ => exact nomatch hc
  | false =>
    have kept := Settings.standBut_of_without (exec_sets hc h)
    by_cases hw : c.sets = some .windows
    · cases c with
      | openWindow => exact apart_openWindow hs h
      | closeWindow => exact apart_closeWindow hs h
      | windowDrained => exact apart_windowDrained hs h
      | _ => exact nomatch hw
    · by_cases hl : c.sets = some .loader
      · exact hs.of_eq (kept.windows hw) (exec_active hl h)
      · exact hs.of_eq (kept.windows hw) (congrArg Loader.active (kept.loader hl))

/-- Settles O15: opening tests for overlap, draining and closing enlarge no range, and the blocks take up checked copies. -/
theorem everyStepKeepsTheWindowsApart : Obligations.EveryStepKeepsTheWindowsApart := by
  unfold Obligations.EveryStepKeepsTheWindowsApart
  intro s t hs h
  rw [step] at h
  split at h
  case h_1 =>
    cases h
    exact hs
  case h_2 c rest _ =>
    have hrest : ({ s with pending := rest } : State).part.Apart := hs
    exact exec_keeps_apart hrest h

end Sys2Proof.Machine
end

section
/-! Short rules: how a command in hand runs, the ports' state, refreshes, intervals and the pending notices. -/

namespace Sys2Proof.Machine

/-- A command in hand, run: its body on the part with the hand empty. -/
theorem exec_of_taken {c : Instr} {s : State} {i : Nat} {body : Nat → Part → Part} (h : s.taken i c)
    (he : exec c s = .next (s.withPart (Part.run c body))) : exec c s = .next (s.becomes (body i s.part.handEmpty)) := by
  rw [he, withPart_run h]

theorem portInterval_eq_some {h : Half} (h1 : 1 ≤ h.toNat) (h2 : h.toNat ≤ 4095) : portInterval h = some h.toNat :=
  if_pos ⟨h1, h2⟩

theorem portInterval_eq_none {h : Half} (bad : h.toNat = 0 ∨ 4095 < h.toNat) : portInterval h = none :=
  if_neg (by omega)

/-- Settles O12: the contender and the interval are read from the fields, or one of them is out of range. -/
theorem setPortIntervalReplacesTheInterval : Obligations.SetPortIntervalReplacesTheInterval := by
  unfold Obligations.SetPortIntervalReplacesTheInterval
  intro s i tag contender interval h
  have run := exec_of_taken h rfl
  refine ⟨fun c hc h1 h2 => ?replaced, fun bad => ?refused⟩
  case replaced =>
    rw [run, objectOf_eq_some.2 hc, portInterval_eq_some h1 h2]
    rfl
  case refused =>
    rw [run, ← becomes_refuse]
    obtain hc | hn := bad
    · rw [objectOf_eq_none.2 hc]
    · rw [portInterval_eq_none hn]
      cases objectOf 11 contender <;> rfl

/-- A due refresh takes the free channel. -/
theorem takeRefresh_eq {x : Path} (h : x.refreshesDue ≠ 0) :
    x.takeRefresh = { x with channel := if x.channel = .free then .refresh else x.channel } := by
  unfold Path.takeRefresh
  by_cases hf : x.channel = .free
  · rw [if_pos ⟨hf, h⟩, if_pos hf]
  · rw [if_neg (fun hc => hf hc.1), if_neg hf]

/-- A channel that a transfer or a refresh has left goes to a due refresh, or is free. -/
theorem takeRefresh_of_free {x : Path} (h : x.channel = .free) : x.takeRefresh = x.freed := by
  unfold Path.takeRefresh Path.freed
  by_cases hd : x.refreshesDue = 0
  · rw [if_neg (fun hc => hc.2 hd), if_pos hd, ← h]
  · rw [if_pos ⟨h, hd⟩, if_neg hd]

/-- Settles O11: the timer's refresh takes the channel where it is free, and a refresh's end hands it on. -/
theorem refreshesAreCountedAndTakeTheFreeChannel : Obligations.RefreshesAreCountedAndTakeTheFreeChannel := by
  unfold Obligations.RefreshesAreCountedAndTakeTheFreeChannel
  refine fun s => ⟨fun t ht => ?due, fun dt n hbusy hdue => ?complete⟩
  case due =>
    change Host.Outcome.next (s.withPart Part.refreshDue) = _
    rw [State.withPart, Part.refreshDue, ht]
    dsimp only
    rw [takeRefresh_eq (Nat.succ_ne_zero _)]
    rfl
  case complete =>
    change Host.Outcome.next (s.withPart fun p => (p.after dt).refreshComplete) = _
    rw [State.withPart, Part.refreshComplete, Part.after_path, if_pos hbusy, takeRefresh_of_free rfl, Path.freed, hdue]
    rfl

/-! The ports' state. -/

/-- The one outstanding deferred command on an object completes. -/
theorem completeDeferred_of_awaits {p : Part} {d : Deferred} (h : p.cmd.awaits d) :
    p.completeDeferred d.kind .done = { p with cmd := p.cmd.completed d } := by
  unfold Part.completeDeferred
  rw [show p.cmd.deferred.find? (fun e => e.kind == d.kind) = some d from h]
  rfl

theorem drained_eq_false {x : Path} (h : ∃ port, (x.ports.nth port).queue ≠ []) : x.drained = false := by
  obtain ⟨port, hport⟩ := h
  exact Bool.eq_false_iff.2 fun hd => hport ((drained_iff x).1 hd port)

section

variable {s : State} {i : Nat} {tag : Word}

theorem exec_quiesce_of_taken (h : s.taken i (.quiesce tag)) : exec (.quiesce tag) s = .next (s.becomes (
    if s.part.outstanding .quiesce then s.part.handEmpty.refuse i tag .busy []
    else if s.part.path.quiesce = .quiesced ∨ s.part.path.drained then (s.part.handEmpty.setQuiesce .quiesced).finish i tag []
    else (s.part.handEmpty.setQuiesce .quiescing).defer i tag .quiesce)) := exec_of_taken h rfl

theorem exec_resume_of_taken (h : s.taken i (.resume tag)) : exec (.resume tag) s = .next (s.becomes (
    if s.part.outstanding .quiesce then s.part.handEmpty.refuse i tag .busy []
    else (s.part.handEmpty.setQuiesce .running).finish i tag [])) := exec_of_taken h rfl

end

theorem putQuiesce_same {x : Path} {q : Quiesce} (h : x.quiesce = q) : { x with quiesce := q } = x := by
  rw [← h]

/-- Settles O16: QUIESCE by what is outstanding and by the queues, its completion, and RESUME. -/
theorem quiesceAndResumeMoveThePortsState : Obligations.QuiesceAndResumeMoveThePortsState := by
  unfold Obligations.QuiesceAndResumeMoveThePortsState
  refine fun s => ⟨fun i tag h => ?quiesce, fun d hd awaits quiescing empty => ?complete, fun i tag h => ?resume⟩
  case quiesce =>
    rw [exec_quiesce_of_taken h]
    refine ⟨fun busy => ?busy, fun free quiesced => ?quiesced, fun free running => ⟨fun waiting => ?waiting, fun empty => ?empty⟩⟩
    case busy => rw [if_pos ((outstanding_eq_true _ _).2 busy), becomes_refuse]
    all_goals rw [(outstanding_eq_false _ _).2 free, if_neg Bool.false_ne_true]
    case quiesced =>
      rw [if_pos (.inl quiesced), Part.setQuiesce, handEmpty_path, putQuiesce_same quiesced]
      rfl
    case waiting =>
      rw [if_neg (by simp [running, drained_eq_false waiting])]
      rfl
    case empty =>
      rw [if_pos (.inr ((drained_iff _).2 empty))]
      rfl
  case complete =>
    change Host.Outcome.next (s.withPart fun p => if p.path.quiesce = .quiescing ∧ p.path.drained then
      (p.setQuiesce .quiesced).completeDeferred .quiesce .done else p) = _
    rw [State.withPart, if_pos ⟨quiescing, (drained_iff _).2 empty⟩, ← hd,
      completeDeferred_of_awaits (p := s.part.setQuiesce .quiesced) awaits]
    rfl
  case resume =>
    rw [exec_resume_of_taken h]
    refine ⟨fun busy => ?resumeBusy, fun free => ?resumed⟩
    case resumeBusy => rw [if_pos ((outstanding_eq_true _ _).2 busy), becomes_refuse]
    case resumed =>
      rw [(outstanding_eq_false _ _).2 free, if_neg Bool.false_ne_true]
      rfl

/-! Pending notices. -/

theorem Cause.eq_of_priority {a b : Cause} (h : a.priority = b.priority) : a = b := by
  cases a <;> cases b <;> first | rfl | cases h

theorem noticeBefore_iff {a b : Cause × Nat} :
    noticeBefore a b = true ↔ a.1.priority < b.1.priority ∨ a.1 = b.1 ∧ a.2 < b.2 := by
  simp [noticeBefore]

/-- Of two notices one is chosen first. -/
theorem noticeBefore_of_not {a b : Cause × Nat} (h : ¬ noticeBefore a b = true) (hab : a ≠ b) : noticeBefore b a = true := by
  rw [noticeBefore_iff, not_or] at h
  rw [noticeBefore_iff]
  obtain ⟨hp, hs⟩ := h
  rcases Nat.lt_or_eq_of_le (Nat.not_lt.1 hp) with hlt | heq
  · exact .inl hlt
  · have cause := Cause.eq_of_priority heq
    refine .inr ⟨cause, Nat.lt_of_le_of_ne (Nat.not_lt.1 fun hlt => hs ⟨cause.symm, hlt⟩) fun e => hab ?_⟩
    exact Prod.ext cause.symm e.symm

theorem noticeBefore_trans {a b c : Cause × Nat} (hab : noticeBefore a b = true) (hbc : noticeBefore b c = true) :
    noticeBefore a c = true := by
  rw [noticeBefore_iff] at *
  rcases hab with h1 | ⟨h1, h2⟩ <;> rcases hbc with h3 | ⟨h3, h4⟩
  · exact .inl (Nat.lt_trans h1 h3)
  · exact .inl (h3 ▸ h1)
  · exact .inl (h1 ▸ h3)
  · exact .inr ⟨h1.trans h3, Nat.lt_trans h2 h4⟩

theorem length_insertNotice (n : Cause × Nat) (l : List (Cause × Nat)) : (insertNotice n l).length = l.length + 1 := by
  induction l with
  | nil => rfl
  | cons y rest ih =>
    rw [insertNotice]
    split <;> simp [ih]

/-- A new notice's place keeps the order of choice. -/
theorem insertNotice_pairwise {n : Cause × Nat} {l : List (Cause × Nat)} (hn : n ∉ l)
    (h : l.Pairwise fun a b => noticeBefore a b = true) : (insertNotice n l).Pairwise fun a b => noticeBefore a b = true := by
  induction l with
  | nil => simp [insertNotice]
  | cons y rest ih =>
    obtain ⟨hy, hrest⟩ := List.pairwise_cons.1 h
    rw [List.mem_cons, not_or] at hn
    obtain ⟨hny, hnrest⟩ := hn
    rw [insertNotice]
    split
    case isTrue before =>
      refine List.pairwise_cons.2 ⟨fun x hx => ?_, h⟩
      rcases List.mem_cons.1 hx with rfl | hx
      · exact before
      · exact noticeBefore_trans before (hy x hx)
    case isFalse after =>
      refine List.pairwise_cons.2 ⟨fun x hx => ?_, ih hnrest hrest⟩
      rcases (mem_insertNotice n x rest).1 hx with rfl | hx
      · exact noticeBefore_of_not after hny
      · exact hy x hx

/-- Settles O17: an absorbed raise counts, and a new one takes its place in the order of choice. -/
theorem aRaisedNoticeIsPendingOnce : Obligations.ARaisedNoticeIsPendingOnce := by
  unfold Obligations.ARaisedNoticeIsPendingOnce
  refine fun p c n => ⟨fun pending => ?absorbed, fun new => ?joined⟩
  case absorbed =>
    rw [Part.raise, if_pos pending]
    rfl
  case joined =>
    refine ⟨insertNotice (c, n) p.cmd.notices, ?_, fun x => mem_insertNotice _ x _, length_insertNotice _ _, insertNotice_pairwise new⟩
    rw [Part.raise, if_neg new]
    rfl

end Sys2Proof.Machine
end

section
/-! The programme clock (O18, O20): how a pulse or edge is judged, and what loss, the oscillators and the ticks do. -/

namespace Sys2Proof.Machine

/-- What an outcome makes of the part decides the outcome. -/
theorem next_becomes {s : State} {p q : Part} (h : p = q) :
    (.next (s.becomes p) : Host.Outcome State Fault Refusal) = .next (s.becomes q) := by
  rw [h]

theorem sooner_of_lt {now gap a : Nat} {since : Option Nat} (h : since = some a) (hlt : now < a + gap) : sooner now gap since = true := by
  rw [h]
  exact decide_eq_true hlt

theorem not_sooner {now gap : Nat} {since : Option Nat} (h : ∀ a, since = some a → a + gap ≤ now) : ¬ sooner now gap since = true := by
  cases since with
  | none => exact Bool.false_ne_true
  | some a => exact of_decide_eq_false (decide_eq_false (Nat.not_lt.2 (h a rfl))) ∘ of_decide_eq_true

theorem inTolerance_iff {period d : Nat} : inTolerance period d = true ↔ 99 * period ≤ 100 * d ∧ 100 * d ≤ 101 * period := by
  rw [inTolerance, Bool.and_eq_true, decide_eq_true_eq, decide_eq_true_eq]

section

variable {r : Reference} {now period a : Nat}

/-- A relock count that starts again. -/
theorem relockAfter_of_out (h : r.lastPulse = some a)
    (out : r.relock = 0 ∨ ¬ (99 * period ≤ 100 * (now - a) ∧ 100 * (now - a) ≤ 101 * period)) : r.relockAfter now period = 1 := by
  rw [Reference.relockAfter, h]
  dsimp only
  rw [← inTolerance_iff] at out
  split
  case isTrue => rfl
  case isFalse h0 => rw [if_neg (out.resolve_left h0)]

/-- A relock count that goes on. -/
theorem relockAfter_of_in (h : r.lastPulse = some a) (h0 : r.relock ≠ 0) (h1 : 99 * period ≤ 100 * (now - a))
    (h2 : 100 * (now - a) ≤ 101 * period) : r.relockAfter now period = r.relock + 1 := by
  rw [Reference.relockAfter, h]
  dsimp only
  rw [if_neg h0, if_pos (inTolerance_iff.2 ⟨h1, h2⟩)]

theorem relockAfter_of_none (h : r.lastPulse = none) : r.relockAfter now period = 1 := by
  rw [Reference.relockAfter, h]

end

/-- A picture tick takes the pending timecode, or advances the timecode (R27). -/
theorem pictureTick_eq (c : Clock) : c.pictureTick = { c with
    pictureTicks := c.pictureTicks + 1
    pendingTc := none
    timecode := c.pendingTc.getD (c.timecode.advance c.rate) } := by
  cases h : c.pendingTc with
  | none => rw [Clock.pictureTick_of_none h, Option.getD_none, ← h]
  | some v => rw [Clock.pictureTick_of_pending h, Option.getD_some]

/-- A picture tick neither reads nor changes the frame reference. -/
theorem pictureTick_setFrame (p : Part) (r : Reference) :
    (p.setFrame r).pictureTick = { p with clock := { p.clock.pictureTick with frame := r } } := by
  rw [pictureTick_eq, Part.pictureTick, pictureTick_eq]
  rfl

theorem pictureTick_raise (p : Part) (c : Cause) (n : Nat) : (p.raise c n).pictureTick = p.pictureTick.raise c n := by
  rw [raise_eq, raise_eq]
  rfl

/-! A frame reference pulse, case by case (R27, R29). -/

section

variable {p : Part} {a : Nat} (started : p.clock.started = true)
include started

theorem framePulse_of_locked (h : p.clock.frame.locked = true) : p.framePulse =
    if sooner p.now (p.clock.rate.period / 2) p.clock.frame.lastAccepted then p.setFrame (p.clock.frame.strayLocked p.now)
    else (p.setFrame (p.clock.frame.accept p.now (2 * p.clock.rate.period))).pictureTick := by
  rw [Part.framePulse]
  dsimp only
  rw [started, if_neg (by simp), if_pos h]

theorem framePulse_of_stray (h : p.clock.frame.locked = false) (ha : p.clock.frame.lastPulse = some a)
    (soon : p.now < a + p.clock.rate.period / 2) : p.framePulse = p.setFrame (p.clock.frame.strayFree p.now) := by
  rw [Part.framePulse]
  dsimp only
  rw [started, if_neg (by simp), h, if_neg Bool.false_ne_true, if_pos (sooner_of_lt ha soon)]

theorem framePulse_of_relock {n : Nat} (h : p.clock.frame.locked = false)
    (late : ∀ a, p.clock.frame.lastPulse = some a → a + p.clock.rate.period / 2 ≤ p.now)
    (hn : p.clock.frame.relockAfter p.now p.clock.rate.period = n) : p.framePulse =
      if n < 3 then p.setFrame (p.clock.frame.relockTo p.now n)
      else
        let p1 := (p.setFrame (p.clock.frame.regain p.now (2 * p.clock.rate.period))).raise .reference 0
        if sooner p.now (p.clock.rate.period / 2) p.clock.frame.lastOscTick then p1 else p1.pictureTick := by
  rw [Part.framePulse]
  dsimp only
  rw [started, if_neg (by simp), h, if_neg Bool.false_ne_true, if_neg (not_sooner late), hn]
  rfl

theorem framePulse_locked_late (h : p.clock.frame.locked = true)
    (late : ∀ a, p.clock.frame.lastAccepted = some a → a + p.clock.rate.period / 2 ≤ p.now) :
    p.framePulse = { p with clock := { p.clock.pictureTick with frame := p.clock.frame.accept p.now (2 * p.clock.rate.period) } } := by
  rw [framePulse_of_locked started h, if_neg (not_sooner late), pictureTick_setFrame]

theorem framePulse_locked_soon (h : p.clock.frame.locked = true) (ha : p.clock.frame.lastAccepted = some a)
    (soon : p.now < a + p.clock.rate.period / 2) : p.framePulse = p.setFrame (p.clock.frame.strayLocked p.now) := by
  rw [framePulse_of_locked started h, if_pos (sooner_of_lt ha soon)]

theorem framePulse_relocking {n : Nat} (h : p.clock.frame.locked = false)
    (late : ∀ a, p.clock.frame.lastPulse = some a → a + p.clock.rate.period / 2 ≤ p.now)
    (hn : p.clock.frame.relockAfter p.now p.clock.rate.period = n) (h3 : n < 3) :
    p.framePulse = p.setFrame (p.clock.frame.relockTo p.now n) := by
  rw [framePulse_of_relock started h late hn, if_pos h3]

section

variable (h : p.clock.frame.locked = false)
    (late : ∀ a, p.clock.frame.lastPulse = some a → a + p.clock.rate.period / 2 ≤ p.now)
    (hn : p.clock.frame.relockAfter p.now p.clock.rate.period = 3)
include h late hn

theorem framePulse_regains_soon {o : Nat} (ho : p.clock.frame.lastOscTick = some o) (soon : p.now < o + p.clock.rate.period / 2) :
    p.framePulse = (p.setFrame (p.clock.frame.regain p.now (2 * p.clock.rate.period))).raise .reference 0 := by
  rw [framePulse_of_relock started h late hn, if_neg (Nat.lt_irrefl 3)]
  exact if_pos (sooner_of_lt ho soon)

theorem framePulse_regains_late (ho : ∀ o, p.clock.frame.lastOscTick = some o → o + p.clock.rate.period / 2 ≤ p.now) :
    p.framePulse = Part.raise .reference 0 { p with clock :=
      { p.clock.pictureTick with frame := p.clock.frame.regain p.now (2 * p.clock.rate.period) } } := by
  rw [framePulse_of_relock started h late hn, if_neg (Nat.lt_irrefl 3), ← pictureTick_setFrame, ← pictureTick_raise]
  exact if_neg (not_sooner ho)

end

end

theorem frameLoss_eq {p : Part} {t : Nat} (h : p.clock.frame.lossTimer = some t) :
    p.frameLoss = Part.raise .reference 0 { p with
      now := max p.now t
      clock := { p.clock.pictureTick with frame := p.clock.frame.lose t p.clock.rate.period } } := by
  rw [Part.frameLoss, h]
  dsimp only
  rw [pictureTick_raise, pictureTick_setFrame]
  rfl

theorem oscPicture_eq {p : Part} {t : Nat} (h : p.clock.frame.oscillator = some t) :
    p.oscPicture = { p with
      now := max p.now t
      clock := { p.clock.pictureTick with frame := p.clock.frame.oscTick t p.clock.rate.period } } := by
  rw [Part.oscPicture, h]
  dsimp only
  rw [pictureTick_setFrame]
  rfl

/-- Settles O18: a pulse in LOCKED and in FREE, the loss timer, the oscillator, and the tick itself. -/
theorem aFrameReferenceIsJudgedAndLost : Obligations.AFrameReferenceIsJudgedAndLost := by
  unfold Obligations.AFrameReferenceIsJudgedAndLost
  refine ⟨fun s dt started => ?pulse, fun s => ⟨fun t ht => ?lost, fun t ht => ?ticked, pictureTick_eq _⟩⟩
  case pulse =>
    have on : (s.part.after dt).clock.started = true := started
    refine ⟨fun locked => ⟨fun a ha soon => ?strayLocked, fun late => ?accepted⟩,
      fun free => ⟨fun a ha soon => ?strayFree, fun a ha late => ?relocks, fun first => ?first⟩⟩
    case strayLocked => exact next_becomes (framePulse_locked_soon on locked ha soon)
    case accepted => exact next_becomes (framePulse_locked_late on locked late)
    case strayFree => exact next_becomes (framePulse_of_stray on free ha soon)
    case relocks =>
      have hlate : ∀ b, (s.part.after dt).clock.frame.lastPulse = some b →
          b + (s.part.after dt).clock.rate.period / 2 ≤ (s.part.after dt).now :=
        fun b hb => Option.some.inj (ha.symm.trans hb) ▸ late
      refine ⟨fun out => ?restarts, fun h0 h1 h2 => ⟨fun hn => ?goesOn, fun hn => ?regains⟩⟩
      case restarts => exact next_becomes (framePulse_relocking on free hlate (relockAfter_of_out ha out) (by decide))
      case goesOn => exact next_becomes (framePulse_relocking on free hlate (relockAfter_of_in ha h0 h1 h2) hn)
      case regains =>
        have third := (relockAfter_of_in ha h0 h1 h2).trans hn
        exact ⟨fun o ho soon => next_becomes (framePulse_regains_soon on free hlate third ho soon),
          fun ho => next_becomes (framePulse_regains_late on free hlate third ho)⟩
    case first =>
      exact next_becomes (framePulse_relocking on free (fun a ha => nomatch first.symm.trans ha) (relockAfter_of_none first) (by decide))
  case lost =>
    have run := frameLoss_eq ht
    rw [pictureTick_eq] at run
    exact next_becomes run
  case ticked =>
    have run := oscPicture_eq ht
    rw [pictureTick_eq] at run
    exact next_becomes run

/-! A word clock edge, case by case (R32, R33). -/

section

variable {p : Part} {a : Nat} (started : p.clock.started = true)
include started

theorem wordEdge_of_locked (h : p.clock.word.locked = true) : p.wordEdge =
    if sooner p.now 31250 p.clock.word.lastAccepted then p.setWord (p.clock.word.strayLocked p.now)
    else
      let p1 := p.setWord (p.clock.word.accept p.now 6000000)
      if p.clock.edgeCount + 1 < 48 then p1.setEdges (p.clock.edgeCount + 1) else (p1.setEdges 0).blockTick := by
  rw [Part.wordEdge]
  dsimp only
  rw [started, if_neg (by simp), if_pos h]
  rfl

theorem wordEdge_locked_soon (h : p.clock.word.locked = true) (ha : p.clock.word.lastAccepted = some a)
    (soon : p.now < a + 31250) : p.wordEdge = p.setWord (p.clock.word.strayLocked p.now) := by
  rw [wordEdge_of_locked started h, if_pos (sooner_of_lt ha soon)]

theorem wordEdge_locked_late (h : p.clock.word.locked = true)
    (late : ∀ a, p.clock.word.lastAccepted = some a → a + 31250 ≤ p.now) : p.wordEdge =
      let p1 := p.setWord (p.clock.word.accept p.now 6000000)
      if p.clock.edgeCount + 1 < 48 then p1.setEdges (p.clock.edgeCount + 1) else (p1.setEdges 0).blockTick := by
  rw [wordEdge_of_locked started h, if_neg (not_sooner late)]

theorem wordEdge_of_free (h : p.clock.word.locked = false) : p.wordEdge =
    if sooner p.now 31250 p.clock.word.lastPulse then p.setWord (p.clock.word.strayFree p.now)
    else
      let n := p.clock.word.relockAfter p.now 62500
      if n < 144 then p.setWord (p.clock.word.relockTo p.now n)
      else
        let p1 := ((p.setWord (p.clock.word.regain p.now 6000000)).raise .reference 1).setEdges 0
        if sooner p.now 1500000 p.clock.word.lastOscTick then p1 else p1.blockTick := by
  rw [Part.wordEdge]
  dsimp only
  rw [started, if_neg (by simp), h, if_neg Bool.false_ne_true]
  rfl

theorem wordEdge_of_stray (h : p.clock.word.locked = false) (ha : p.clock.word.lastPulse = some a)
    (soon : p.now < a + 31250) : p.wordEdge = p.setWord (p.clock.word.strayFree p.now) := by
  rw [wordEdge_of_free started h, if_pos (sooner_of_lt ha soon)]

section

variable {n : Nat} (h : p.clock.word.locked = false)
    (late : ∀ a, p.clock.word.lastPulse = some a → a + 31250 ≤ p.now) (hn : p.clock.word.relockAfter p.now 62500 = n)
include h late hn

theorem wordEdge_relocking (h144 : n < 144) : p.wordEdge = p.setWord (p.clock.word.relockTo p.now n) := by
  rw [wordEdge_of_free started h, if_neg (not_sooner late), hn]
  exact if_pos h144

theorem wordEdge_regains (h144 : n = 144) : p.wordEdge =
    let p1 := (p.setWord (p.clock.word.regain p.now 6000000) |>.setEdges 0).raise .reference 1
    if sooner p.now 1500000 p.clock.word.lastOscTick then p1 else p1.blockTick := by
  rw [wordEdge_of_free started h, if_neg (not_sooner late), hn, raise_eq, raise_eq]
  exact if_neg (Nat.not_lt.2 (Nat.le_of_eq h144.symm))

end

end

/-! A block tick goes to the mixer (R32, R105). -/

theorem mixerTick_of_not_running {p : Part} (n : Word) (h : p.mixer.state ≠ .running) : p.mixerTick n = p := by
  unfold Part.mixerTick
  split
  · next running _ => exact absurd running h
  · next running _ => exact absurd running h
  · rfl

theorem mixerTick_of_busy {p : Part} (n : Word) {x : Pass} (running : p.mixer.state = .running) (busy : p.mixer.pass = some x) :
    p.mixerTick n = (p.setMixer { p.mixer with lateTicks := count p.mixer.lateTicks }).raise .mix 64 := by
  rw [Part.mixerTick, running, busy]

theorem mixerTick_of_idle {p : Part} (n : Word) (running : p.mixer.state = .running) (idle : p.mixer.pass = none) :
    p.mixerTick n = p.startPass n := by
  rw [Part.mixerTick, running, idle]

/-- Settles O20: an edge in LOCKED and in FREE, the loss timer, the oscillator, and the tick itself. -/
theorem aWordClockIsJudgedAndLost : Obligations.AWordClockIsJudgedAndLost := by
  unfold Obligations.AWordClockIsJudgedAndLost
  refine ⟨fun s dt started => ?edge, fun s => ⟨fun t ht => ?lost, fun t ht => ?ticked, fun p => ?tick⟩⟩
  case edge =>
    have on : (s.part.after dt).clock.started = true := started
    refine ⟨fun locked => ⟨fun a ha soon => ?strayLocked, fun late => ⟨fun few => ?counted, fun full => ?carried⟩⟩,
      fun free => ⟨fun a ha soon => ?strayFree, fun a ha late => ?relocks, fun first => ?first⟩⟩
    case strayLocked => exact next_becomes (wordEdge_locked_soon on locked ha soon)
    case counted => exact next_becomes ((wordEdge_locked_late on locked late).trans (if_pos (Nat.succ_lt_succ few)))
    case carried =>
      exact next_becomes ((wordEdge_locked_late on locked late).trans (if_neg (Nat.not_lt.2 (Nat.succ_le_succ (Nat.le_of_eq full.symm)))))
    case strayFree => exact next_becomes (wordEdge_of_stray on free ha soon)
    case relocks =>
      have hlate : ∀ b, (s.part.after dt).clock.word.lastPulse = some b → b + 31250 ≤ (s.part.after dt).now :=
        fun b hb => Option.some.inj (ha.symm.trans hb) ▸ late
      refine ⟨fun out => ?restarts, fun h0 h1 h2 => ⟨fun hn => ?goesOn, fun hn => ?regains⟩⟩
      case restarts => exact next_becomes (wordEdge_relocking on free hlate (relockAfter_of_out ha out) (by decide))
      case goesOn => exact next_becomes (wordEdge_relocking on free hlate (relockAfter_of_in ha h0 h1 h2) hn)
      case regains =>
        have run := wordEdge_regains on free hlate (relockAfter_of_in ha h0 h1 h2) hn
        exact ⟨fun o ho soon => next_becomes (run.trans (if_pos (sooner_of_lt ho soon))),
          fun ho => next_becomes (run.trans (if_neg (not_sooner ho)))⟩
    case first =>
      exact next_becomes (wordEdge_relocking on free (fun a ha => nomatch first.symm.trans ha) (relockAfter_of_none first) (by decide))
  case lost =>
    change Host.Outcome.next (s.becomes s.part.wordLoss) = _
    rw [Part.wordLoss, ht]
    rfl
  case ticked =>
    change Host.Outcome.next (s.becomes s.part.oscBlock) = _
    rw [Part.oscBlock, ht]
    rfl
  case tick =>
    exact ⟨fun stopped => mixerTick_of_not_running _ stopped, fun x running busy => mixerTick_of_busy _ running busy,
      fun running idle => mixerTick_of_idle _ running idle⟩

end Sys2Proof.Machine
end

section
/-! The cue line unit (O21 to O24): pins, debounce and mark presses, and the two commands of a line. -/

namespace Sys2Proof.Machine

/-- Settles O21: the drive by mode, drive and output state. -/
theorem aCuePinFollowsItsOutputState : Obligations.ACuePinFollowsItsOutputState := by
  unfold Obligations.ACuePinFollowsItsOutputState
  refine fun c => ⟨fun driven => ⟨fun hd => ?_, fun hd => ?_⟩, fun released => ?_⟩
  · obtain hm | hm := driven <;> rw [CueLine.drive, hm, hd]
  · obtain hm | hm := driven <;> rw [CueLine.drive, hm, hd]
  · obtain hm | hm | hm := released <;> rw [CueLine.drive, hm]

theorem onOffOf_eq {b : Byte} (h : b.toNat ≤ 1) : onOffOf b = some (decide (b.toNat = 0)) := by
  obtain h0 | h1 : b.toNat = 0 ∨ b.toNat = 1 := by omega
  · obtain rfl : b = 0 := BitVec.eq_of_toNat_eq h0
    rfl
  · obtain rfl : b = 1 := BitVec.eq_of_toNat_eq h1
    rfl

theorem onOffOf_eq_none {b : Byte} (h : 1 < b.toNat) : onOffOf b = none := by
  rw [onOffOf, if_neg, if_neg]
  · rintro rfl
    exact absurd h (by decide)
  · rintro rfl
    exact absurd h (by decide)

/-- Settles O24: the line and the value are read from the fields, and the line's mode is tested. -/
theorem driveCueLineSetsTheOutputState : Obligations.DriveCueLineSetsTheOutputState := by
  unfold Obligations.DriveCueLineSetsTheOutputState
  intro s i tag line value h
  have run := exec_of_taken h rfl
  refine ⟨fun bad => ?refused, fun l hl hv => ?_⟩
  case refused =>
    rw [run, ← becomes_refuse]
    obtain hl | hv := bad
    · rw [objectOf_eq_none.2 hl]
    · rw [onOffOf_eq_none hv]
      cases objectOf 8 line <;> rfl
  rw [run, objectOf_eq_some.2 hl, onOffOf_eq hv]
  refine ⟨fun other => ?state, fun output => ?driven⟩
  case state => exact next_becomes (if_neg other)
  case driven => exact next_becomes (if_pos output)

/-! Debounce (R37, R38). -/

theorem sampled_iff {m : CueMode} : m.sampled = true ↔ m = .input ∨ m = .mark := by
  cases m <;> simp [CueMode.sampled]

theorem rawChange_of_change {c : CueLine} {now : Nat} {high : Bool} (hm : c.cfg.mode = .input ∨ c.cfg.mode = .mark) (hr : c.raw ≠ high) :
    c.rawChange now high = { c with
      pin := high, raw := high
      debounceTimer := if high = c.debounced then none else some (now + c.cfg.debounce * Config.ms) } :=
  if_pos ⟨sampled_iff.2 hm, hr⟩

theorem rawChange_of_same {c : CueLine} {now : Nat} {high : Bool} (h : ¬ (c.cfg.mode = .input ∨ c.cfg.mode = .mark) ∨ c.raw = high) :
    c.rawChange now high = { c with pin := high } := by
  refine if_neg fun ⟨hs, hr⟩ => ?_
  rw [sampled_iff] at hs
  exact h.elim (fun hn => hn hs) hr

section

variable {p : Part} {line : Fin 8} {t : Nat}

/-- The part whose line has taken its raw level as the debounced one. -/
theorem settle_eq (p : Part) (line : Fin 8) (t : Nat) : (p.reach t).updCue line CueLine.settle = { p with
    now := max p.now t
    cues := p.cues.put line { p.cues.nth line with debounced := (p.cues.nth line).raw, debounceTimer := none } } := rfl

theorem debounceExpiry_of_no_press (ht : (p.cues.nth line).debounceTimer = some t)
    (h : (p.cues.nth line).cfg.mode ≠ .mark ∨ (p.cues.nth line).debounced = false ∨ (p.cues.nth line).raw = true) :
    p.debounceExpiry line = (p.reach t).updCue line CueLine.settle := by
  rw [Part.debounceExpiry]
  dsimp only
  rw [ht]
  refine if_neg fun ⟨hm, hd, hr⟩ => ?_
  rw [Bool.not_eq_true'] at hr
  simp [hm, hd, hr] at h

theorem debounceExpiry_of_press (ht : (p.cues.nth line).debounceTimer = some t) (hm : (p.cues.nth line).cfg.mode = .mark)
    (hd : (p.cues.nth line).debounced = true) (hr : (p.cues.nth line).raw = false) :
    p.debounceExpiry line = ((p.reach t).updCue line CueLine.settle).markPress line := by
  rw [Part.debounceExpiry]
  dsimp only
  rw [ht]
  exact if_pos ⟨hm, hd, by rw [hr]; rfl⟩

/-- A settled line's mark press counted. -/
theorem press_eq (p : Part) (line : Fin 8) (t : Nat) :
    (((p.reach t).updCue line CueLine.settle).updCue line fun c => { c with presses := count c.presses }) = { p with
      now := max p.now t
      cues := p.cues.put line { p.cues.nth line with
        debounced := (p.cues.nth line).raw, debounceTimer := none, presses := count (p.cues.nth line).presses } } := by
  rw [settle_eq, Part.updCue, Part.setCues, Table.upd]
  dsimp only
  rw [Table.nth_put_same, Table.put_put]

theorem updCue_nth (p : Part) (line : Fin 8) (f : CueLine → CueLine) : (p.updCue line f).cues.nth line = f (p.cues.nth line) :=
  Table.nth_upd_same ..

theorem markPress_out {n : Nat} {pos : Fin 128} {clip : Clip} (ho : (p.cues.nth line).openClip = some n)
    (hc : p.clipAt n = some (pos, clip)) :
    p.markPress line = (p.updCue line fun c => { c with presses := count c.presses }).markOut pos clip := by
  have found : (p.updCue line fun c => { c with presses := count c.presses }).clipAt n = some (pos, clip) := hc
  simp only [Part.markPress, updCue_nth, ho, found]

/-- With no open clip a press performs MARK IN with the line's cameras and preroll. -/
theorem markPress_in (ho : (p.cues.nth line).openClip = none) :
    p.markPress line =
      match (p.updCue line fun c => { c with presses := count c.presses }).markIn
          ⟨(p.cues.nth line).cfg.cameras, (p.cues.nth line).cfg.preroll, 3000, [], some line⟩ with
      | (.ok (_, clip), p1) => p1.updCue line fun c => { c with openClip := some clip.number }
      | (.error _, p1) => p1.refusedPress line := by
  simp only [Part.markPress, Part.pressIn, updCue_nth, ho]
  rfl

end

/-- Settles O22: a raw change on a sampled line and on another, and the expiry with a press and without. -/
theorem aLevelCountsOnceItHasHeldSteady : Obligations.ALevelCountsOnceItHasHeldSteady := by
  unfold Obligations.ALevelCountsOnceItHasHeldSteady
  refine fun s line => ⟨fun dt high hm hr => ?changes, fun dt high h => ?stands, fun t ht => ⟨fun h => ?settles, fun hm hd hr => ?_⟩⟩
  case changes =>
    have changed := rawChange_of_change (now := s.part.now + dt) hm hr
    rw [Nat.mul_comm] at changed
    exact next_becomes (congrArg (fun c => (s.part.after dt).setCues (s.part.cues.put line c)) changed)
  case stands =>
    have same := rawChange_of_same (c := s.part.cues.nth line) (now := s.part.now + dt) (high := high) (by
      rcases h with h | h | h | h <;> simp [h])
    exact next_becomes (congrArg (fun c => (s.part.after dt).setCues (s.part.cues.put line c)) same)
  case settles => exact next_becomes (debounceExpiry_of_no_press ht h)
  have settled : ((s.part.reach t).updCue line CueLine.settle).cues.nth line =
      { s.part.cues.nth line with debounced := (s.part.cues.nth line).raw, debounceTimer := none } := Table.nth_upd_same ..
  refine ⟨fun n pos clip ho hc => ?out, fun ho => ?_⟩
  case out =>
    refine next_becomes ((debounceExpiry_of_press ht hm hd hr).trans ?_)
    rw [markPress_out ((congrArg CueLine.openClip settled).trans ho) hc, press_eq]
  have pressed := (debounceExpiry_of_press ht hm hd hr).trans (markPress_in ((congrArg CueLine.openClip settled).trans ho))
  rw [settled, press_eq] at pressed
  refine ⟨fun pos clip p marked => ?marked, fun e p refused => ?refused⟩
  case marked =>
    refine next_becomes (pressed.trans ?_)
    dsimp only
    rw [marked]
  case refused =>
    refine next_becomes (pressed.trans ?_)
    dsimp only
    rw [refused]
    rfl

/-! SET CUE LINE (R36). -/

theorem cueModeOf_eq_some {b : Byte} {m : CueMode} (h : cueModeOf b = some m) : b = m.code := by
  unfold cueModeOf at h
  repeat' split at h
  all_goals cases h
  all_goals assumption

/-- What R36 asks of the fields a mode uses. -/
def cueLegal (m : CueMode) (debounce : Half) (cameras preroll tally : Byte) : Prop :=
  (m.sampled = true → 1 ≤ debounce.toNat ∧ debounce.toNat ≤ 50) ∧
    (m = .mark → cameras ≠ 0 ∧ preroll.toNat ≤ 250) ∧ (m = .tally → tally.toNat ≤ 7)

section

variable {mode drive : Byte} {debounce : Half} {cameras preroll tally : Byte} {m : CueMode} {d : Drive}

theorem cueLegal_iff (hm : mode = m.code) : cueLegal m debounce cameras preroll tally ↔
    (mode.toNat = 1 ∨ mode.toNat = 2 → 1 ≤ debounce.toNat ∧ debounce.toNat ≤ 50) ∧
      (mode.toNat = 2 → cameras ≠ 0 ∧ preroll.toNat ≤ 250) ∧ (mode.toNat = 3 → tally.toNat ≤ 7) := by
  subst hm
  cases m <;> simp [cueLegal, CueMode.sampled, CueMode.code]

theorem cueFields_of_legal (hm : cueModeOf mode = some m) (hd : driveOf drive = some d) (h : cueLegal m debounce cameras preroll tally) :
    cueFields mode drive debounce cameras preroll tally = some ⟨m, d, debounce.toNat, cameras, preroll.toNat, tally.toNat⟩ := by
  obtain ⟨hdebounce, hmark, htally⟩ := h
  rw [cueFields, hm, hd]
  dsimp only
  rw [if_neg fun ⟨hs, hn⟩ => hn (hdebounce hs), if_neg, if_neg fun ⟨ht, hn⟩ => Nat.not_lt.2 (htally ht) hn]
  rintro ⟨hk, hc | hp⟩
  · exact (hmark hk).1 hc
  · exact Nat.not_lt.2 (hmark hk).2 hp

theorem cueFields_of_illegal (hm : cueModeOf mode = some m) (hd : driveOf drive = some d)
    (h : ¬ cueLegal m debounce cameras preroll tally) : cueFields mode drive debounce cameras preroll tally = none := by
  rw [cueFields, hm, hd]
  dsimp only
  split
  · rfl
  · next hdebounce =>
    split
    · rfl
    · next hmark =>
      refine if_pos (Decidable.not_not.1 fun htally => h ⟨fun hs => ?_, fun hk => ⟨fun hc => hmark ⟨hk, .inl hc⟩, ?_⟩, fun ht => ?_⟩)
      · exact Decidable.not_not.1 fun hn => hdebounce ⟨hs, hn⟩
      · exact Nat.not_lt.1 fun hp => hmark ⟨hk, .inr hp⟩
      · exact Nat.not_lt.1 fun hn => htally ⟨ht, hn⟩

end

theorem driveOf_eq_some_le {b : Byte} {d : Drive} (h : driveOf b = some d) : b.toNat ≤ 1 := by
  unfold driveOf at h
  repeat' split at h
  all_goals cases h
  all_goals subst_vars; decide

theorem cueModeOf_eq_some_le {b : Byte} {m : CueMode} (h : cueModeOf b = some m) : b.toNat ≤ 4 := by
  rw [cueModeOf_eq_some h]
  cases m <;> decide

theorem tallied_nth (cameras : Table Camera 8) (cues : Table CueLine 8) (l : Fin 8) : (tallied cameras cues).nth l =
    if (cues.nth l).cfg.mode = .tally then { cues.nth l with outputOn := decide (∃ k : Fin 8, (cues.nth l).cfg.tally = k.val ∧
      (cameras.nth k).state = .running ∧ (cameras.nth k).cfg.live = true) }
    else cues.nth l := Table.nth_make ..

/-- Settles O23: the fields are tested, and the line takes them before every TALLY line follows its camera. -/
theorem setCueLineReplacesTheRecord : Obligations.SetCueLineReplacesTheRecord := by
  unfold Obligations.SetCueLineReplacesTheRecord
  intro s i tag line mode drive debounce cameras preroll tally h
  have run := exec_of_taken h rfl
  dsimp only
  refine ⟨fun illegal => ?refused, fun ⟨_, _, _, hlegal⟩ l m d hl hm hd => ?replaced⟩
  case refused =>
    rw [run, ← becomes_refuse]
    cases hl : objectOf 8 line with
    | none => rfl
    | some l =>
      cases hm : cueModeOf mode with
      | none => rw [cueFields, hm]
      | some m =>
        cases hd : driveOf drive with
        | none => rw [cueFields, hm, hd]
        | some d =>
          rw [cueFields_of_illegal hm hd]
          rintro hc
          refine illegal ⟨?_, cueModeOf_eq_some_le hm, driveOf_eq_some_le hd, (cueLegal_iff (cueModeOf_eq_some hm)).1 hc⟩
          have := objectOf_eq_some.1 hl
          omega
  case replaced =>
    rw [run, objectOf_eq_some.2 hl, cueFields_of_legal hm hd ((cueLegal_iff (cueModeOf_eq_some hm)).2 hlegal)]
    dsimp only
    rw [tally_eq]
    refine ⟨_, rfl, ?_, fun x hx => ?_⟩
    · rw [tallied_nth, updCue_nth]
      by_cases ht : m = .tally
      · simp [CueLine.takeSettings, sampled_iff, ht, Part.updCue]
      · simp [CueLine.takeSettings, sampled_iff, ht]
    · have other : ((s.part.handEmpty.updCue l fun c =>
          c.takeSettings ⟨m, d, debounce.toNat, cameras, preroll.toNat, tally.toNat⟩).cues).nth x = s.part.cues.nth x :=
        Table.nth_upd_other _ _ (Ne.symm hx)
      rw [tallied_nth, tallied_nth, other]
      rfl

end Sys2Proof.Machine
end

section
/-! OPEN WINDOW and the scheduler (O13, O9). -/

namespace Sys2Proof.Machine

/-! OPEN WINDOW (R21). -/

theorem overlaps_iff {ws : Table Window 32} {w : Window} : overlaps ws w = true ↔
    ∃ x, (ws.nth x).live = true ∧ w.base < (ws.nth x).base + (ws.nth x).size ∧ (ws.nth x).base < w.base + w.size := by
  simp only [overlaps, List.any_eq_true, nth_of_mem, Window.touches, Bool.and_eq_true, decide_eq_true_eq]
  constructor
  · rintro ⟨_, ⟨x, rfl⟩, h⟩
    exact ⟨x, h⟩
  · rintro ⟨x, h⟩
    exact ⟨_, ⟨x, rfl⟩, h⟩

theorem single_iff {k : WindowKind} : k.single = true ↔ k = .command ∨ k = .status ∨ k = .clipList := by
  cases k <;> simp [WindowKind.single]

/-- A second live window of a kind. -/
theorem anyOfKind_iff {ws : Table Window 32} {k : WindowKind} :
    (ws.list.any fun x => x.live && x.kind == k) = true ↔ ∃ x, (ws.nth x).live = true ∧ (ws.nth x).kind = k := by
  simp only [List.any_eq_true, nth_of_mem, Bool.and_eq_true, beq_iff_eq]
  constructor
  · rintro ⟨_, ⟨x, rfl⟩, h⟩
    exact ⟨x, h⟩
  · rintro ⟨x, h⟩
    exact ⟨_, ⟨x, rfl⟩, h⟩

theorem recount_eq (q : Port) (w : Fin 32) (win : Window) : q.recount w win = { q with queue := q.queue.map fun a =>
    if win.base ≤ 64 * a.req.line ∧ 64 * a.req.line + 64 * a.req.count ≤ win.base + win.size then { a with counted := some w } else a } := by
  unfold Port.recount
  congr 1
  refine List.map_congr_left fun a _ => ?_
  simp only [Window.holds, Bool.and_eq_true, decide_eq_true_eq]
  rfl

/-- A window opened (R21, R6, R129). -/
theorem openEntry_eq (w : Fin 32) (win : Window) (p : Part) : p.openEntry w win = { p with
    path := { p.path with
      windows := p.path.windows.put w win
      ports := p.path.ports.each fun q => { q with queue := q.queue.map fun a =>
        if win.base ≤ 64 * a.req.line ∧ 64 * a.req.line + 64 * a.req.count ≤ win.base + win.size then { a with counted := some w } else a } }
    clips := if win.kind = .clipList then { p.clips with mirror := List.finRange 128 } else p.clips } := by
  unfold Part.openEntry
  simp only [recount_eq]
  split <;> rfl

section

variable {s : State} {i : Nat} {tag : Word} {entry : Byte} {base size : Wide} {kind subject readSet writeSet : Byte} {w : Fin 32} {win : Window}

theorem exec_openWindow_of_fields (h : s.taken i (.openWindow tag entry base size kind subject readSet writeSet)) (hw : entry.toNat = w.val)
    (hwin : windowFields s.part.ringSizes.1 s.part.ringSizes.2 .opened base size kind subject readSet writeSet = some win) :
    exec (.openWindow tag entry base size kind subject readSet writeSet) s = .next (s.becomes (
      if s.part.outstanding (.closeWindow w) then s.part.handEmpty.refuse i tag .busy []
      else if (s.part.path.windows.nth w).state ≠ .closed then s.part.handEmpty.refuse i tag .state []
      else if overlaps s.part.path.windows win then s.part.handEmpty.refuse i tag .overlap []
      else if win.kind.single ∧ s.part.path.windows.list.any (fun x => x.live && x.kind == win.kind) then
        s.part.handEmpty.refuse i tag .inUse []
      else (s.part.handEmpty.openEntry w win).finish i tag [])) := by
  have hwin' : windowFields s.part.handEmpty.ringSizes.1 s.part.handEmpty.ringSizes.2 .opened base size kind subject readSet writeSet =
    some win := hwin
  rw [exec_of_taken h rfl, objectOf_eq_some.2 hw, hwin']
  rfl

theorem exec_openWindow_of_none (h : s.taken i (.openWindow tag entry base size kind subject readSet writeSet))
    (bad : objectOf 32 entry = none ∨
      windowFields s.part.ringSizes.1 s.part.ringSizes.2 .opened base size kind subject readSet writeSet = none) :
    exec (.openWindow tag entry base size kind subject readSet writeSet) s = .next (s.refuses i tag .badField) := by
  rw [exec_of_taken h rfl, ← becomes_refuse]
  obtain hn | hn := bad
  · rw [hn]
  · have hn' : windowFields s.part.handEmpty.ringSizes.1 s.part.handEmpty.ringSizes.2 .opened base size kind subject readSet writeSet = none := hn
    rw [hn']
    cases objectOf 32 entry <;> rfl

end

/-- Settles O13: the fields, then the tests in order, then the opened entry. -/
theorem openWindowAppliesItsTestsThenOpens : Obligations.OpenWindowAppliesItsTestsThenOpens := by
  unfold Obligations.OpenWindowAppliesItsTestsThenOpens
  intro s i tag entry base size kind subject readSet writeSet h
  dsimp only
  refine ⟨fun bad => exec_openWindow_of_none h (bad.imp objectOf_eq_none.2 fun notOk => ?noFields), fun w k hw ok hk => ?_⟩
  case noFields =>
    refine Option.eq_none_iff_forall_ne_some.2 fun win hwin => notOk ?_
    obtain ⟨ok, -⟩ := windowFields_eq_some.1 hwin
    exact ok
  have fields : windowFields s.part.ringSizes.1 s.part.ringSizes.2 .opened base size kind subject readSet writeSet =
      some ⟨.opened, base.toNat, size.toNat, k, if 1 ≤ kind.toNat ∧ kind.toNat ≤ 5 then subject.toNat else 0, readSet, writeSet⟩ :=
    windowFields_eq_some.2 ⟨ok, rfl, rfl, rfl, hk, rfl, rfl, rfl⟩
  rw [exec_openWindow_of_fields h hw fields]
  refine ⟨fun busy => ?busy, fun free => ?_⟩
  case busy => rw [if_pos ((outstanding_eq_true _ _).2 busy), becomes_refuse]
  rw [(outstanding_eq_false _ _).2 free, if_neg Bool.false_ne_true]
  refine ⟨fun live => ?state, fun closed => ?_⟩
  case state => rw [if_pos live, becomes_refuse]
  rw [if_neg (Decidable.not_not.2 closed)]
  refine ⟨fun overlap => ?overlap, fun apart => ?_⟩
  case overlap => rw [if_pos (overlaps_iff.2 overlap), becomes_refuse]
  rw [if_neg (mt overlaps_iff.1 apart)]
  refine ⟨fun ⟨hsingle, hsecond⟩ => ?inUse, fun first => ?_⟩
  case inUse => rw [if_pos ⟨single_iff.2 hsingle, anyOfKind_iff.2 hsecond⟩, becomes_refuse]
  rw [if_neg fun ⟨hsingle, hsecond⟩ => first ⟨single_iff.1 hsingle, anyOfKind_iff.1 hsecond⟩, openEntry_eq]
  exact ⟨_, fun named => if_pos (by omega), rfl⟩

/-! The scheduler (R17). -/

theorem mem_of_preferred {α : Type} {better : α → α → Bool} {l : List α} {x : α} (h : preferred better l = some x) : x ∈ l := by
  induction l generalizing x with
  | nil => exact nomatch h
  | cons y rest ih =>
    rw [preferred] at h
    split at h
    · cases h
      exact List.mem_cons_self ..
    · next z hz =>
      split at h <;> cases h
      · exact List.mem_cons_of_mem _ (ih hz)
      · exact List.mem_cons_self ..

/-- Of a rising list the preferred one is the earliest of those that no other beats. -/
theorem preferred_eq_some {n : Nat} {better : Fin n → Fin n → Bool} {c : Fin n} {l : List (Fin n)} (rising : l.Pairwise (· < ·))
    (mem : c ∈ l) (unbeaten : ∀ d, d ∈ l → better d c = false) (beats : ∀ d, d ∈ l → d < c → better c d = true) :
    preferred better l = some c := by
  induction l with
  | nil => exact nomatch mem
  | cons x rest ih =>
    obtain ⟨hx, hrest⟩ := List.pairwise_cons.1 rising
    rw [preferred]
    by_cases hc : c = x
    · subst hc
      cases hy : preferred better rest with
      | none => rfl
      | some y =>
        dsimp only
        rw [unbeaten y (List.mem_cons_of_mem _ (mem_of_preferred hy))]
        rfl
    · have mem := (List.mem_cons.1 mem).resolve_left hc
      rw [ih hrest mem (fun d hd => unbeaten d (List.mem_cons_of_mem _ hd)) fun d hd => beats d (List.mem_cons_of_mem _ hd)]
      dsimp only
      rw [beats x (List.mem_cons_self ..) (hx c mem)]
      rfl

/-- The contender R17 grants the channel to is the one the scheduler chooses. -/
theorem choose_of_grantee {x : Path} {c : Fin 11} (h : x.grantee c) : x.choose = some c := by
  obtain ⟨offered, late, early⟩ := h
  have rising : ((List.finRange 11).filter x.offers).Pairwise (· < ·) := (List.pairwise_lt_finRange 11).filter _
  have mem (d : Fin 11) : d ∈ (List.finRange 11).filter x.offers ↔ x.offers d = true := by simp
  have memOverdue (d : Fin 11) : d ∈ ((List.finRange 11).filter x.offers).filter x.overdue ↔
      x.offers d = true ∧ x.intervals.nth d ≤ x.waits.nth d := by
    rw [List.mem_filter, mem, Path.overdue, decide_eq_true_eq]
  unfold Path.choose
  dsimp only
  split
  case isTrue none =>
    have noneOverdue : ¬ ∃ d, x.offers d = true ∧ x.intervals.nth d ≤ x.waits.nth d := fun ⟨d, hd⟩ => by
      rw [List.isEmpty_iff] at none
      exact List.not_mem_nil (none ▸ (memOverdue d).2 hd)
    refine preferred_eq_some rising ((mem c).2 offered) (fun d hd => ?_) fun d hd hlt => ?_
    · have := early noneOverdue d ((mem d).1 hd)
      exact decide_eq_false (by omega)
    · have := early noneOverdue d ((mem d).1 hd)
      exact decide_eq_true (by omega)
  case isFalse some =>
    have someOverdue : ∃ d, x.offers d = true ∧ x.intervals.nth d ≤ x.waits.nth d := by
      obtain ⟨d, hd⟩ := List.exists_mem_of_ne_nil _ (mt List.isEmpty_iff.2 some)
      exact ⟨d, (memOverdue d).1 hd⟩
    obtain ⟨overdue, first⟩ := late someOverdue
    refine preferred_eq_some (rising.filter _) ((memOverdue c).2 ⟨offered, overdue⟩) (fun d hd => ?_) fun d hd hlt => ?_
    · obtain ⟨hoffers, hover⟩ := (memOverdue d).1 hd
      have := first d hoffers hover
      simp only [Path.excess] at this
      exact decide_eq_false (by omega)
    · obtain ⟨hoffers, hover⟩ := (memOverdue d).1 hd
      have := first d hoffers hover
      simp only [Path.excess] at this
      exact decide_eq_true (by omega)

theorem choose_of_none {x : Path} (h : ∀ c, x.offers c = false) : x.choose = none := by
  have none : (List.finRange 11).filter x.offers = [] := List.filter_eq_nil_iff.2 fun c _ => by rw [h c]; exact Bool.false_ne_true
  unfold Path.choose
  rw [none]
  rfl

theorem grantTo_port {p : Part} {c : Fin 11} {port : Fin 6} (h : c.val = port.val) : p.grantTo c = { p with path := { p.path with
    waits := p.path.waitsGranted c, channel := .client port
    ports := p.path.ports.put port ((p.path.ports.nth port).updHead fun a => { a with phase := .granted }) } } := by
  have lt : c.val < 6 := h ▸ port.isLt
  obtain rfl : port = ⟨c.val, lt⟩ := Fin.ext h.symm
  unfold Part.grantTo
  dsimp only
  rw [dif_pos lt]
  rfl

theorem grantTo_stream {p : Part} {c : Fin 11} {i : Fin 5} {r : Request} (h : c.val = i.val + 6) (hr : p.path.streams.nth i = some r) :
    p.grantTo c = { p with path := { p.path with
      waits := p.path.waitsGranted c, channel := .stream i r false, streams := p.path.streams.put i none } } := by
  obtain rfl : c = ⟨i.val + 6, Nat.add_lt_add_right i.isLt 6⟩ := Fin.ext h
  have stream : (⟨i.val + 6 - 6, i.isLt⟩ : Fin 5) = i := Fin.ext (Nat.add_sub_cancel ..)
  unfold Part.grantTo
  dsimp only
  rw [dif_neg (by omega)]
  simp only [stream, hr]
  rfl

/-- Settles O9: nothing is granted without a free channel and an offer, and else the grantee is. -/
theorem aGrantFollowsTheServiceIntervals : Obligations.AGrantFollowsTheServiceIntervals := by
  unfold Obligations.AGrantFollowsTheServiceIntervals
  refine fun s => ⟨fun blocked => ?stands, fun ready free idle c grantee => ?_⟩
  case stands =>
    refine next_becomes (p := s.part.schedule) (q := s.part) ?_
    unfold Part.schedule
    split
    · next open' =>
      obtain ⟨ready, free, idle⟩ := open'
      have noOffer : ∀ c, s.part.path.offers c = false := by
        rcases blocked with h | h | h | h
        · exact absurd ready (by rw [h]; exact Bool.false_ne_true)
        · exact absurd free h
        · exact absurd idle h
        · exact h
      rw [choose_of_none noOffer]
    · rfl
  have granted : s.part.schedule = s.part.grantTo c := by
    unfold Part.schedule
    rw [if_pos ⟨ready, free, idle⟩, choose_of_grantee grantee]
  refine ⟨fun port hc => next_becomes (granted.trans (grantTo_port hc)), fun i hc => ?_⟩
  have offered : s.part.path.offers ⟨i.val + 6, by omega⟩ = true := (Fin.ext hc : c = ⟨i.val + 6, by omega⟩) ▸ grantee.1
  rw [offers_stream, Bool.and_eq_true, Option.isSome_iff_exists] at offered
  obtain ⟨⟨r, hr⟩, -⟩ := offered
  exact ⟨r, hr, next_becomes (granted.trans (grantTo_stream hc hr))⟩

end Sys2Proof.Machine
end

section
/-! Admission and the head check (O8): where a range lies among windows that are apart, and how each test of the check comes out. -/

namespace Sys2Proof.Machine

/-! Where a range lies. -/

section

variable {x : Path} {lo hi : Nat} {v w : Fin 32}

/-- A window holds or touches a range. -/
theorem holds_iff {win : Window} : win.holds lo hi = true ↔ win.base ≤ lo ∧ hi ≤ win.base + win.size := by
  rw [Window.holds, Bool.and_eq_true, decide_eq_true_eq, decide_eq_true_eq]

theorem touches_iff {win : Window} : win.touches lo hi = true ↔ lo < win.base + win.size ∧ win.base < hi := by
  rw [Window.touches, Bool.and_eq_true, decide_eq_true_eq, decide_eq_true_eq]

/-- A live window that holds the range is the only one that touches it. -/
theorem eq_of_holds_touches (apart : windowsDisjoint x.windows) (hv : (x.windows.nth v).live = true)
    (hh : (x.windows.nth v).holds lo hi = true) (hw : (x.windows.nth w).live = true) (ht : (x.windows.nth w).touches lo hi = true) :
    w = v := by
  rw [holds_iff] at hh
  rw [touches_iff] at ht
  refine Decidable.byContradiction fun hwv => ?_
  have := apart w v hw hv hwv
  omega

theorem place_of_found (h : x.place lo hi ≠ .openGround) : ∃ w, (x.windows.nth w).live = true ∧ (x.windows.nth w).touches lo hi = true ∧
    x.place lo hi = if (x.windows.nth w).holds lo hi then .inside w else .split := by
  unfold Path.place at h ⊢
  split
  · next hnone => exact absurd (by rw [hnone]) h
  · next w hw =>
    have := List.find?_some hw
    rw [Bool.and_eq_true] at this
    exact ⟨w, this.1, this.2, rfl⟩

theorem place_openGround_iff : x.place lo hi = .openGround ↔
    ∀ w, (x.windows.nth w).live = true → (x.windows.nth w).touches lo hi = false := by
  constructor
  · intro h w hw
    unfold Path.place at h
    split at h
    · next hnone =>
      have := List.find?_eq_none.1 hnone w (List.mem_finRange w)
      rw [hw, Bool.true_and] at this
      exact Bool.eq_false_iff.2 this
    · split at h <;> cases h
  · intro h
    refine Classical.byContradiction fun hp => ?_
    obtain ⟨w, hw, ht, -⟩ := place_of_found hp
    exact absurd ht (by rw [h w hw]; exact Bool.false_ne_true)

theorem touches_of_holds {win : Window} (hne : lo < hi) (h : win.holds lo hi = true) : win.touches lo hi = true := by
  rw [holds_iff] at h
  rw [touches_iff]
  omega

theorem place_inside (apart : windowsDisjoint x.windows) (hne : lo < hi) (hv : (x.windows.nth v).live = true)
    (hh : (x.windows.nth v).holds lo hi = true) : x.place lo hi = .inside v := by
  have touched : x.place lo hi ≠ .openGround := fun h => by
    have := place_openGround_iff.1 h v hv
    rw [touches_of_holds hne hh] at this
    cases this
  obtain ⟨w, hw, ht, hp⟩ := place_of_found touched
  obtain rfl := eq_of_holds_touches apart hv hh hw ht
  rw [hp, if_pos hh]

theorem place_split (apart : windowsDisjoint x.windows) (hne : lo < hi) (hv : (x.windows.nth v).live = true)
    (ht : (x.windows.nth v).touches lo hi = true) (hh : (x.windows.nth v).holds lo hi = false) : x.place lo hi = .split := by
  have touched : x.place lo hi ≠ .openGround := fun h => by
    have := place_openGround_iff.1 h v hv
    rw [ht] at this
    cases this
  obtain ⟨w, hw, _, hp⟩ := place_of_found touched
  rw [hp]
  split
  · next hwh =>
    obtain rfl := eq_of_holds_touches apart hw hwh hv ht
    rw [hh] at hwh
    cases hwh
  · rfl

/-- A request is counted in the live window that holds its range (R6). -/
theorem countedIn_iff (apart : windowsDisjoint x.windows) (hne : lo < hi) : x.countedIn lo hi = some v ↔
    (x.windows.nth v).live = true ∧ (x.windows.nth v).holds lo hi = true := by
  unfold Path.countedIn
  constructor
  · intro h
    split at h
    · next w hw =>
      cases h
      obtain ⟨u, hu, _, hp⟩ := place_of_found (x := x) (lo := lo) (hi := hi) (by rw [hw]; exact nofun)
      rw [hw] at hp
      split at hp
      · next hh =>
        cases hp
        exact ⟨hu, hh⟩
      · cases hp
    · cases h
  · rintro ⟨hv, hh⟩
    rw [place_inside apart hne hv hh]

theorem countedIn_of_inside (h : x.place lo hi = .inside v) : x.countedIn lo hi = some v := by
  rw [Path.countedIn, h]

theorem countedIn_of_openGround (h : x.place lo hi = .openGround) : x.countedIn lo hi = none := by
  rw [Path.countedIn, h]

end

/-! The tests of the head check, in their order (R4). -/

section

variable {p : Part} {port : Fin 6} {tag : BitVec 6} {r : Request} {w : Fin 32}

theorem judge_beyond (h : Config.dramBytes < r.next) : p.judge port tag r = (.refuse .noMemory, p) := if_pos h

variable (within : ¬ Config.dramBytes < r.next)
include within

theorem judge_split (h : p.path.place r.first r.next = .split) : p.judge port tag r = (.refuse .split, p) := by
  rw [Part.judge, if_neg within, h]

theorem judge_openGround (h : p.path.place r.first r.next = .openGround) : p.judge port tag r = (.pass none r.line false, p) := by
  rw [Part.judge, if_neg within, h]

variable (inside : p.path.place r.first r.next = .inside w)
include inside

theorem judge_draining (h : (p.path.windows.nth w).state = .draining) : p.judge port tag r = (.refuse .closing, p) := by
  rw [Part.judge, if_neg within, inside]
  exact if_pos h

theorem judge_denied (hs : (p.path.windows.nth w).state = .opened) (h : (p.path.windows.nth w).admits port r.kind = false) :
    p.judge port tag r = (.refuse .denied, p) := by
  rw [Part.judge, if_neg within, inside]
  dsimp only
  rw [if_neg (by rw [hs]; exact nofun), h]
  rfl

theorem judge_admitted (hs : (p.path.windows.nth w).state = .opened) (h : (p.path.windows.nth w).admits port r.kind = true) :
    p.judge port tag r = p.kindVerdict port tag w r := by
  rw [Part.judge, if_neg within, inside]
  dsimp only
  rw [if_neg (by rw [hs]; exact nofun), h]
  rfl

end

/-! The action of the window's kind (1.4.1). -/

section

variable {p : Part} {port : Fin 6} {tag : BitVec 6} {r : Request} {w : Fin 32}

theorem kindVerdict_any (h : (p.path.windows.nth w).kind = .plain ∨ (p.path.windows.nth w).kind = .sound ∨
    (p.path.windows.nth w).kind = .command) : p.kindVerdict port tag w r = (.pass (some w) r.line false, p) := by
  obtain h | h | h := h <;> rw [Part.kindVerdict, h]

theorem kindVerdict_read (hr : r.kind = .read) (h : (p.path.windows.nth w).kind = .frame ∨ (p.path.windows.nth w).kind = .replay ∨
    (p.path.windows.nth w).kind = .programme ∨ (p.path.windows.nth w).kind = .status ∨ (p.path.windows.nth w).kind = .clipList) :
    p.kindVerdict port tag w r = (.pass (some w) r.line false, p) := by
  obtain h | h | h | h | h := h <;> rw [Part.kindVerdict, h, hr]

theorem kindVerdict_write_denied (hr : r.kind = .write) (h : (p.path.windows.nth w).kind = .aliased ∨
    (p.path.windows.nth w).kind = .replay ∨ (p.path.windows.nth w).kind = .programme ∨ (p.path.windows.nth w).kind = .clipList) :
    p.kindVerdict port tag w r = (.refuse .denied, p) := by
  obtain h | h | h | h := h <;> rw [Part.kindVerdict, h, hr]

theorem kindVerdict_frame_write (hr : r.kind = .write) (h : (p.path.windows.nth w).kind = .frame) :
    p.kindVerdict port tag w r = p.frameVerdict port tag w r := by
  rw [Part.kindVerdict, h, hr]

theorem kindVerdict_status_write (hr : r.kind = .write) (h : (p.path.windows.nth w).kind = .status) : p.kindVerdict port tag w r =
    (if r.onlyWithin (p.path.windows.nth w).base 8 then .pass (some w) r.line false else .refuse .denied, p) := by
  rw [Part.kindVerdict, h, hr]

theorem kindVerdict_alias_read (hr : r.kind = .read) (h : (p.path.windows.nth w).kind = .aliased) :
    p.kindVerdict port tag w r = (p.aliasVerdict w r, p) := by
  rw [Part.kindVerdict, h, hr]

/-- A slot's first byte. -/
theorem slotBase_eq (p : Part) (k : Fin 8) (i : SlotId) :
    p.slotBase k i = (p.cameras.nth k).cfg.slotAt (p.path.windows.nth (p.cameras.nth k).cfg.frameWin).base i := by
  cases i <;> rfl

/-- A write that covers no slot's first line starts no slot. -/
theorem startOf_eq_none (h : ∀ k : Fin 8, (p.path.windows.nth w).subject = k.val → (p.cameras.nth k).state = .running →
    (p.cameras.nth k).cfg.frameWin = w →
    ∀ i, r.covers ((p.cameras.nth k).cfg.slotAt (p.path.windows.nth w).base i) 64 = false) : p.startOf w r = none := by
  unfold Part.startOf
  dsimp only
  split
  · next hk =>
    split
    · next hc =>
      obtain ⟨running, hwin⟩ := hc
      have uncovered (i : SlotId) : ¬ r.covers (p.slotBase ⟨_, hk⟩ i) Config.lineBytes = true := by
        rw [slotBase_eq, hwin]
        exact Bool.eq_false_iff.1 (h ⟨_, hk⟩ rfl running hwin i)
      rw [if_neg (uncovered .a), if_neg (uncovered .b)]
    · rfl
  · rfl

/-- The enabled bytes lie within a span of eight bytes. -/
theorem onlyWithin_iff {a n : Nat} : r.onlyWithin a n = true ↔ ∀ i b, r.data[i]? = some (b, true) → a ≤ r.first + i ∧ r.first + i < a + n := by
  simp only [Request.onlyWithin, List.all_eq_true, Prod.forall, List.mk_mem_zipIdx_iff_getElem?, Bool.or_eq_true, Bool.not_eq_true',
    Bool.and_eq_true, decide_eq_true_eq]
  constructor
  · exact fun h i b hb => (h b true i hb).resolve_left nofun
  · intro h b en i hb
    cases en
    · exact .inl rfl
    · exact .inr (h i b hb)

theorem not_laterThan {a b : Word} (h : laterThan a b = true) : ¬ laterThan b a = true := by
  simp only [laterThan, atOrAfter, Bool.and_eq_true, bne_iff_ne, decide_eq_true_eq] at h ⊢
  bv_omega

theorem latestDone_of_latest {c : Camera} {i : SlotId} (h : c.latest i) : c.latestDone = some i := by
  obtain ⟨done, later⟩ := h
  unfold Camera.latestDone
  cases i with
  | a =>
    have done : c.slotA.state = .done := done
    rw [if_pos done]
    split
    · next hb =>
      obtain ⟨x, y, hx, hy, hlater⟩ := later .b nofun hb
      have hx : c.slotA.stamp = some x := hx
      have hy : c.slotB.stamp = some y := hy
      rw [hx, hy]
      exact if_neg (not_laterThan hlater)
    · rfl
  | b =>
    have done : c.slotB.state = .done := done
    rw [if_pos done, if_pos done]
    split
    · next ha =>
      obtain ⟨x, y, hx, hy, hlater⟩ := later .a nofun ha
      have hx : c.slotB.stamp = some x := hx
      have hy : c.slotA.stamp = some y := hy
      rw [hx, hy]
      exact if_pos hlater
    · rfl

theorem latestDone_of_none {c : Camera} (h : ∀ i, (c.slot i).state ≠ .done) : c.latestDone = none := by
  have notA : c.slotA.state ≠ .done := h .a
  have notB : c.slotB.state ≠ .done := h .b
  rw [Camera.latestDone, if_neg notA, if_neg notB]

section

variable {k : Fin 8} (named : (p.path.windows.nth w).subject = k.val)
include named

theorem aliasVerdict_of_none (undone : (p.cameras.nth k).latestDone = none) : p.aliasVerdict w r = .refuse .notReady := by
  have lt : (p.path.windows.nth w).subject < 8 := named ▸ k.isLt
  obtain rfl : k = ⟨_, lt⟩ := Fin.ext named.symm
  unfold Part.aliasVerdict
  dsimp only
  rw [dif_pos lt, undone]

theorem aliasVerdict_of_some {i : SlotId} (done : (p.cameras.nth k).latestDone = some i) : p.aliasVerdict w r =
    if (p.cameras.nth k).cfg.slotSize < r.first - (p.path.windows.nth w).base + r.bytes then .refuse .split
    else .pass (some w) ((p.slotBase k i + (r.first - (p.path.windows.nth w).base)) / Config.lineBytes) false := by
  have lt : (p.path.windows.nth w).subject < 8 := named ▸ k.isLt
  obtain rfl : k = ⟨_, lt⟩ := Fin.ext named.symm
  unfold Part.aliasVerdict
  dsimp only
  rw [dif_pos lt, done]

end

end

/-! A request presented. -/

section

variable {p : Part} {port : Fin 6} {tag : BitVec 6} {r : Request}

theorem present_withdrawn (h : 16 ≤ (p.path.ports.nth port).queue.length ∨ p.path.quiesce ≠ .running ∨ p.path.ready = false) :
    p.present port tag r = p := by
  refine if_pos ?_
  rcases h with h | h | h <;> simp [Path.readyLine, h, Config.portQueueMax, Nat.not_lt.2]

section

variable (room : (p.path.ports.nth port).queue.length < 16) (running : p.path.quiesce = .running) (ready : p.path.ready = true)
include room running ready

theorem not_withdrawn : ¬ (!p.path.readyLine port) = true := by
  have room : (p.path.ports.nth port).queue.length < Config.portQueueMax := room
  simp [Path.readyLine, room, running, ready]

theorem present_used (h : ∃ a, a ∈ (p.path.ports.nth port).queue ∧ a.tag = tag) :
    p.present port tag r = p.refuseRequest port tag r .tagInUse := by
  have used : (p.path.ports.nth port).tagUsed tag = true := by simpa [Port.tagUsed] using h
  rw [Part.present, if_neg (not_withdrawn room running ready), if_pos used]

/-- A request behind others joins the queue, and the head, checked already, stands. -/
theorem present_behind (unused : ∀ a, a ∈ (p.path.ports.nth port).queue → a.tag ≠ tag) (others : (p.path.ports.nth port).queue ≠ [])
    (checked : ∀ a, (p.path.ports.nth port).queue.head? = some a → a.phase ≠ .waiting) :
    p.present port tag r = p.withQueue port
      ((p.path.ports.nth port).queue ++ [⟨tag, r, .waiting, p.path.countedIn r.first r.next, none, r.line, false⟩]) := by
  have free : ¬ (p.path.ports.nth port).tagUsed tag = true := by simpa [Port.tagUsed] using unused
  rw [Part.present, if_neg (not_withdrawn room running ready), if_neg free, Part.letIn]
  obtain ⟨a, rest, hq⟩ := List.exists_cons_of_ne_nil others
  have stands (n : Nat) (y : List Admitted) : (p.withQueue port (a :: y)).checkHeads port n = p.withQueue port (a :: y) := by
    cases n with
    | zero => rfl
    | succ n =>
      rw [Part.checkHeads, withQueue_queue]
      exact if_neg (checked a (by rw [hq]; rfl))
  have joined : (p.updPort port fun q => { q with queue := q.queue ++
      [⟨tag, r, .waiting, p.path.countedIn r.first r.next, none, r.line, false⟩] }) = p.withQueue port (a :: (rest ++
      [⟨tag, r, .waiting, p.path.countedIn r.first r.next, none, r.line, false⟩])) := by
    rw [← List.cons_append, ← hq]
    rfl
  rw [joined, Part.checkHead, stands, hq]
  rfl

end

/-- A request alone at the head of a port is judged, and refused, passed or held. -/
theorem present_alone (running : p.path.quiesce = .running) (ready : p.path.ready = true) (empty : (p.path.ports.nth port).queue = []) :
    p.present port tag r = p.headJudged port ⟨tag, r, .waiting, p.path.countedIn r.first r.next, none, r.line, false⟩ := by
  let e : Admitted := ⟨tag, r, .waiting, p.path.countedIn r.first r.next, none, r.line, false⟩
  rw [present_empty p port tag r ready running empty, checkHeads_waiting _ port 0 e [] (withQueue_queue p port [e]) rfl]
  change (match (p.door (p.withQueue port [e]).path.ports p.path.ready p.path.quiesce).judge port tag r with
    | (.refuse why, p1) => _ | (.pass via line tracked, p1) => _ | (.hold w, p1) => _) = _
  rw [judge_door, Part.headJudged]
  have kept := judge_keeps p port tag r
  generalize p.judge port tag r = v at kept
  obtain ⟨v, p1⟩ := v
  dsimp only at kept
  rw [kept]
  cases v with
  | refuse why =>
    unfold Part.checkHeads
    simp only [withQueue_door, refuseRequest_door, emit_door, raise_door]
    simp [Part.updPort, Part.withPath, Part.setPath, Part.door, Table.upd, Port.popHead, Part.withQueue, Path.putPort, e]
  | pass via line tracked =>
    simp [Part.updPort, Part.withQueue, Part.withPath, Part.setPath, Part.door, Table.upd, Path.putPort, e, Port.updHead, Admitted.passed]
  | hold w =>
    simp [Part.updPort, Part.withQueue, Part.withPath, Part.setPath, Part.door, Table.upd, Path.putPort, e, Port.updHead]

section

variable (running : p.path.quiesce = .running) (ready : p.path.ready = true) (empty : (p.path.ports.nth port).queue = [])
include running ready empty

theorem present_refused {why : Reason} (verdict : p.judge port tag r = (.refuse why, p)) :
    p.present port tag r = p.refuseRequest port tag r why := by
  rw [present_alone running ready empty, Part.headJudged, verdict]
  dsimp only
  rw [← empty, withQueue_self]

theorem present_offered {via : Option (Fin 32)} {line : Nat} {tracked : Bool} (verdict : p.judge port tag r = (.pass via line tracked, p))
    (counted : p.path.countedIn r.first r.next = via) :
    p.present port tag r = p.withQueue port [⟨tag, r, .offered, via, via, line, tracked⟩] := by
  rw [present_alone running ready empty, Part.headJudged, verdict]
  dsimp only
  rw [counted]
  rfl

end

end

theorem exec_clientRequest {s : State} {dt : Nat} {port : Fin 6} {tag : BitVec 6} {kind : ReqKind} {line cnt : Nat}
    {data : List (Byte × Bool)} (fits : requestWf kind cnt data = true) :
    exec (.clientRequest dt port tag kind line cnt data) s =
      .next (s.becomes ((s.part.after dt).present port tag ⟨kind, line, cnt, data⟩)) := by
  have fits : requestFits kind cnt data = true := fits
  change Host.Outcome.next (s.becomes (if requestFits kind cnt data then _ else _)) = _
  rw [if_pos fits]

/-- A request carries a line at least. -/
theorem request_nonempty {kind : ReqKind} {line cnt : Nat} {data : List (Byte × Bool)} (fits : requestWf kind cnt data = true) :
    64 * line < 64 * line + 64 * cnt := by
  simp only [requestWf, Bool.and_eq_true, decide_eq_true_eq] at fits
  omega

/-- Settles O8: admission is `present_withdrawn`, `present_used` and `present_behind`; at an empty queue the request is judged
alone, and the tests of `Part.judge` come out one by one as the range lies and the window's kind acts. -/
theorem aClientRequestIsAdmittedAndChecked : Obligations.AClientRequestIsAdmittedAndChecked := by
  refine ⟨?_, ?_, fun p port tag r why => rfl⟩
  · intro s dt port tag kind line cnt data fits apart q p
    have ran := exec_clientRequest (s := s) (dt := dt) (port := port) (tag := tag) (line := line) fits
    refine ⟨fun h => ran.trans (next_becomes (present_withdrawn (p := s.part.after dt) h)), fun room running ready => ⟨fun used => ?_, ?_⟩⟩
    · exact ran.trans (next_becomes (present_used (p := s.part.after dt) room running ready used))
    · intro unused others checked
      refine ⟨s.part.path.countedIn (64 * line) (64 * line + 64 * cnt), fun v => countedIn_iff apart (request_nonempty fits), ?_⟩
      exact ran.trans (next_becomes (present_behind (p := s.part.after dt) room running ready unused others checked))
  · intro s dt port tag kind line cnt data fits apart running ready empty p r lo hi
    have nonempty : lo < hi := request_nonempty fits
    have ran := exec_clientRequest (s := s) (dt := dt) (port := port) (tag := tag) (line := line) fits
    have refuse {why : Reason} (v : p.judge port tag r = (.refuse why, p)) : exec (.clientRequest dt port tag kind line cnt data) s =
        .next (s.becomes (p.refuseRequest port tag r why)) := ran.trans (next_becomes (present_refused (p := p) running ready empty v))
    have pass {via : Option (Fin 32)} {at' : Nat} {tracked : Bool} (v : p.judge port tag r = (.pass via at' tracked, p))
        (counted : p.path.countedIn lo hi = via) : exec (.clientRequest dt port tag kind line cnt data) s = .next (s.becomes
          (p.withPath (p.path.putPort port { (p.path.ports.nth port) with queue := [⟨tag, r, .offered, via, via, at', tracked⟩] }))) :=
      ran.trans (next_becomes (present_offered (p := p) running ready empty v counted))
    intro refused offeredAt offered
    refine ⟨fun beyond => refuse (judge_beyond beyond), fun hi_le => ?_⟩
    have within : ¬ Config.dramBytes < r.next := Nat.not_lt.2 hi_le
    refine ⟨?_, ?_, ?_⟩
    · exact fun w live touched out => refuse (judge_split within (place_split apart nonempty live touched out))
    · intro untouched
      have ground : p.path.place r.first r.next = .openGround := place_openGround_iff.2 untouched
      exact pass (judge_openGround within ground) (countedIn_of_openGround ground)
    · intro w live holds
      have inside : p.path.place r.first r.next = .inside w := place_inside apart nonempty live holds
      have counted := countedIn_of_inside inside
      refine ⟨fun draining => refuse (judge_draining within inside draining), fun opened => ?_⟩
      refine ⟨fun shut => refuse (judge_denied within inside opened shut), fun admitted => ?_⟩
      have verdict := judge_admitted (tag := tag) within inside opened admitted
      refine ⟨?_, ?_, ?_, ?_, ?_, ?_⟩
      · exact fun h => pass (verdict.trans (kindVerdict_any h)) counted
      · exact fun read h => pass (verdict.trans (kindVerdict_read read h)) counted
      · intro write frame uncovered
        refine pass (verdict.trans ((kindVerdict_frame_write write frame).trans ?_)) counted
        rw [Part.frameVerdict, startOf_eq_none uncovered]
      · intro write status base headOnly
        have judged := verdict.trans (kindVerdict_status_write write status)
        refine ⟨fun h => pass (judged.trans ?_) counted, fun h => refuse (judged.trans ?_)⟩
        · rw [if_pos (onlyWithin_iff.2 h)]
        · rw [if_neg (mt onlyWithin_iff.1 h)]
      · intro read aliased k subject c off
        have judged := verdict.trans (kindVerdict_alias_read read aliased)
        refine ⟨fun undone => refuse (judged.trans ?_), fun i latest => ?_⟩
        · rw [aliasVerdict_of_none subject (latestDone_of_none undone)]
        · rw [aliasVerdict_of_some subject (latestDone_of_latest latest), slotBase_eq] at judged
          refine ⟨fun past => refuse (judged.trans ?_), fun reach => pass (judged.trans ?_) counted⟩
          · exact congrArg (·, p) (if_pos past)
          · exact congrArg (·, p) (if_neg (Nat.not_lt.2 reach))
      · exact fun write h => refuse (verdict.trans (kindVerdict_write_denied write h))

end Sys2Proof.Machine
end

section
/-! The command and status rings (O52, O53, O55): the watched words, when a record is fetched, and what is written next. -/

namespace Sys2Proof.Machine

section

variable {p : Part} {r : Rings}

/-- The attention line is asserted exactly while records stand unconsumed (R181). -/
theorem attention_iff (p : Part) : p.attention = true ↔ p.cmd.writeIndex ≠ p.cmd.takenHead := bne_iff_ne

theorem attention_raise (p : Part) (c : Cause) (n : Nat) : (p.raise c n).attention = p.attention := by
  rw [raise_eq]
  unfold Commander.raised
  split <;> rfl

/-- Whether a head value lies from the taken head to the write index (R176). -/
theorem acceptsHead_iff {c : Commander} {h : Wide} : c.acceptsHead r h = true ↔
    h.toNat < r.m ∧ (h.toNat + r.m - c.takenHead) % r.m ≤ (c.writeIndex + r.m - c.takenHead) % r.m := by
  rw [Commander.acceptsHead, Bool.and_eq_true, decide_eq_true_eq, decide_eq_true_eq]
  rfl

variable (running : p.cmd.rings = some r)
include running

theorem tailWrite_eq {t : Wide} {rest : List Wide} (shown : p.cmd.tailShown = t :: rest) :
    p.tailWrite = (p.setCmd { p.cmd with tailShown := rest }).takeTail r t := by
  rw [Part.tailWrite, shown, running]

theorem headWrite_eq {h : Wide} {rest : List Wide} (shown : p.cmd.headShown = h :: rest) :
    p.headWrite = (p.setCmd { p.cmd with headShown := rest }).takeHead r h := by
  rw [Part.headWrite, shown, running]

end

theorem tailWrite_of_nil {p : Part} (shown : p.cmd.tailShown = []) : p.tailWrite = p := by
  rw [Part.tailWrite, shown]

theorem headWrite_of_nil {p : Part} (shown : p.cmd.headShown = []) : p.headWrite = p := by
  rw [Part.headWrite, shown]

/-- Settles O52: the first value shown is taken where its test passes, and counted and notified otherwise; a notice moves neither
the write index nor the taken head. -/
theorem tailAndHeadWordsAreTakenOrCounted : Obligations.TailAndHeadWordsAreTakenOrCounted := by
  intro s r running c
  refine ⟨attention_iff s.part, fun shown => next_becomes (tailWrite_of_nil shown), ?_,
    fun shown => next_becomes (headWrite_of_nil shown), ?_⟩
  · intro t rest shown
    have ran : exec .tailWordWrite s = .next (s.becomes ((s.part.setCmd { c with tailShown := rest }).takeTail r t)) :=
      next_becomes (tailWrite_eq running shown)
    have taken (h : t.toNat < r.n) : (s.part.setCmd { c with tailShown := rest }).takeTail r t =
        s.part.setCmd { c with tailShown := rest, fetchTail := t.toNat } := if_neg (Nat.not_le.2 h)
    have bad (h : r.n ≤ t.toNat) : (s.part.setCmd { c with tailShown := rest }).takeTail r t = Part.raise .command 0
        (s.part.setCmd { c with tailShown := rest, counts := { c.counts with badTails := count c.counts.badTails } }) := if_pos h
    refine ⟨fun h => ran.trans (next_becomes (taken h)), fun h => ran.trans (next_becomes (bad h)), _, ran, ?_⟩
    obtain h | h := Nat.lt_or_ge t.toNat r.n
    · change Part.attention _ = _
      rw [taken h]
      rfl
    · change Part.attention _ = _
      rw [bad h]
      exact attention_raise ..
  · intro h rest shown good
    have ran : exec .headWordWrite s = .next (s.becomes ((s.part.setCmd { c with headShown := rest }).takeHead r h)) :=
      next_becomes (headWrite_eq running shown)
    have accepts : (s.part.setCmd { c with headShown := rest }).cmd.acceptsHead r h = true ↔ good := acceptsHead_iff
    have taken (g : good) : (s.part.setCmd { c with headShown := rest }).takeHead r h =
        s.part.setCmd { c with headShown := rest, takenHead := h.toNat } := if_pos (accepts.2 g)
    have bad (g : ¬ good) : (s.part.setCmd { c with headShown := rest }).takeHead r h = Part.raise .command 1
        (s.part.setCmd { c with headShown := rest, counts := { c.counts with badHeads := count c.counts.badHeads } }) :=
      if_neg (mt accepts.1 g)
    refine ⟨fun g => ran.trans (next_becomes (taken g)), fun g => ran.trans (next_becomes (bad g)), _, ran, fun g => ?_, fun g => ?_⟩
    · change Part.attention _ = true ↔ _
      rw [taken g]
      exact attention_iff _
    · change Part.attention _ = _
      rw [bad g]
      exact attention_raise ..

/-! When the engine reads a record, and when it writes one. -/

theorem commandIdle_iff (p : Part) : p.commandIdle = true ↔ p.path.streamIdle commandStream = true ∧ p.cmd.use = none ∧
    p.cmd.inHand = none ∧ p.cmd.report = none ∧ p.cmd.status = none := by
  simp only [Part.commandIdle, Bool.and_eq_true, Option.isNone_iff_eq_none, and_assoc]

theorem roomForRecord_iff (c : Commander) (r : Rings) : c.roomForRecord r = true ↔
    (c.writeIndex + r.m - c.takenHead) % r.m + 2 ≤ r.m := decide_eq_true_iff

/-- The tests of a fetch (R173, R178): with no completion pending, the room it asks for is that of one record. -/
theorem mayFetch_iff (p : Part) (r : Rings) : p.mayFetch r = true ↔ p.path.streamIdle commandStream = true ∧ p.cmd.use = none ∧
    p.cmd.inHand = none ∧ p.cmd.report = none ∧ p.cmd.status = none ∧ p.cmd.head ≠ p.cmd.fetchTail ∧ p.cmd.deferred.length < 8 ∧
    p.noneOutstanding .engineReset ∧ p.cmd.completions = [] ∧ p.cmd.notices = [] ∧
    (p.cmd.writeIndex + r.m - p.cmd.takenHead) % r.m + 2 ≤ r.m := by
  simp only [Part.mayFetch, Bool.and_eq_true, commandIdle_iff, bne_iff_ne, decide_eq_true_eq, Bool.not_eq_true', outstanding_eq_false,
    List.isEmpty_iff, and_assoc]
  have fits (done : p.cmd.completions = []) : p.cmd.unconsumed r + p.cmd.completions.length + 2 ≤ r.m ↔
      (p.cmd.writeIndex + r.m - p.cmd.takenHead) % r.m + 2 ≤ r.m := by rw [done]; rfl
  constructor
  · rintro ⟨idle, use, hand, report, status, ahead, few, reset, done, quiet, room⟩
    exact ⟨idle, use, hand, report, status, ahead, few, reset, done, quiet, (fits done).1 room⟩
  · rintro ⟨idle, use, hand, report, status, ahead, few, reset, done, quiet, room⟩
    exact ⟨idle, use, hand, report, status, ahead, few, reset, done, quiet, (fits done).2 room⟩

/-- Settles O53: `Part.mayFetch` is the rule's test, and a fetch changes the use of the stream and its offer alone. -/
theorem aFetchWaitsForRoomAndAnUnknownKindIsRefused : Obligations.AFetchWaitsForRoomAndAnUnknownKindIsRefused := by
  refine ⟨?_, fun s i tag kind h => exec_of_taken h rfl⟩
  intro s r running c may
  have fetch : s.part.fetch = if s.part.mayFetch r then
      (s.part.setCmd { s.part.cmd with use := some .fetch }).offer commandStream (readRequest (r.cmdBase + 64 + 64 * s.part.cmd.head) 64)
      else s.part := by
    rw [Part.fetch, running]
  refine ⟨fun h => next_becomes (fetch.trans (if_pos ?_)), fun h => next_becomes (fetch.trans (if_neg (mt ?_ h)))⟩
  · exact (mayFetch_iff _ r).2 h
  · exact (mayFetch_iff _ r).1

section

variable {p : Part} {r : Rings} (running : p.cmd.rings = some r)
include running

theorem startStatus_of_not (h : ¬ (p.commandIdle ∧ p.cmd.roomForRecord r)) : p.startStatus = p := by
  rw [Part.startStatus, running]
  exact if_neg h

variable (may : p.commandIdle ∧ p.cmd.roomForRecord r)
include may

theorem startStatus_of_nil (done : p.cmd.completions = []) (quiet : p.cmd.notices = []) : p.startStatus = p := by
  rw [Part.startStatus, running]
  refine (if_pos may).trans ?_
  rw [done, quiet]

theorem startStatus_completion {x : Completion} {rest : List Completion} (first : p.cmd.completions = x :: rest) :
    p.startStatus = (p.setCmd { p.cmd with completions := rest }).writeStatus r x.record (rest.isEmpty && p.outstanding .engineReset) := by
  rw [Part.startStatus, running]
  refine (if_pos may).trans ?_
  rw [first]

theorem startStatus_notice {n : Cause × Nat} {rest : List (Cause × Nat)} (done : p.cmd.completions = []) (first : p.cmd.notices = n :: rest) :
    p.startStatus = ((p.setCmd { p.cmd with notices := rest }).countCmd fun c => { c with written := count c.written }).writeStatus r
      (noticeRecord n.1 n.2 (p.snapshot n)) false := by
  rw [Part.startStatus, running]
  refine (if_pos may).trans ?_
  rw [done, first]

end

theorem record_eq (x : Completion) : x.record =
    [1, x.result.code] ++ leBytes 2 x.ring ++ leBytes 4 x.tag.toNat ++ zeros 8 ++ padTo 48 x.data := rfl

theorem noticeRecord_eq (c : Cause) (n snapshot : Nat) : noticeRecord c n snapshot =
    padTo 64 ([2, BitVec.ofNat 8 c.priority] ++ leBytes 2 n ++ leBytes 2 snapshot) := rfl

/-- Settles O55: the three cases of `Part.startStatus` as completions or notices wait. -/
theorem completionsAreWrittenBeforeNotices : Obligations.CompletionsAreWrittenBeforeNotices := by
  intro s r running c may writes
  have tests : s.part.commandIdle ∧ s.part.cmd.roomForRecord r ↔ may := by
    rw [commandIdle_iff, roomForRecord_iff]
    simp only [and_assoc]
    rfl
  have run : exec .statusWriteStart s = .next (s.becomes s.part.startStatus) := rfl
  rw [run]
  refine ⟨fun h => next_becomes (startStatus_of_not running (mt tests.1 h)), fun h => ⟨?_, ?_, ?_⟩⟩
  · exact fun done quiet => next_becomes (startStatus_of_nil running (tests.2 h) done quiet)
  · intro x rest first
    refine ⟨rest.isEmpty && s.part.outstanding .engineReset, ?_, ?_⟩
    · rw [startStatus_completion running (tests.2 h) first, record_eq]
      rfl
    · rw [Bool.and_eq_true, List.isEmpty_iff, outstanding_eq_true]
  · intro n rest done first
    rw [startStatus_notice running (tests.2 h) done first, noticeRecord_eq]
    rfl

end Sys2Proof.Machine
end

section
/-! The end of a transfer (R18), said once for a stream's and for a client's WRITE; with it the COMMAND stream and the watched
words (O54) and the clip list mirror (O41). -/

namespace Sys2Proof.Machine

/-- What a read returns is the bytes as they stand. -/
theorem readBytes_eq_map (v : Byte) (m : Memory) (a n : Nat) :
    m.readBytes v a n = (List.range n).map fun x => m.readByte v (a + x) := readBytes_bytesFrom v m a n

theorem fetched_eq (s : State) (r : Request) : fetched s.dram r r.line = s.returned r.kind r.line r.count := by
  unfold fetched State.returned
  cases r.kind with
  | read => exact readBytes_eq_map ..
  | write => rfl

/-- The channel leaves a transfer free, or to a due refresh (R19), whatever else the transfer's end has made of the path. -/
theorem afterTransfer_of_free {p : Part} (h : p.path.channel = .free) : p.afterTransfer = p.withPath p.path.freed :=
  congrArg p.setPath (takeRefresh_of_free h)

section

variable {s : State} {dt : Nat}

/-- The end of a wanted transfer of a stream: the data moves, and the stream's owner goes on. -/
theorem exec_streamTransfer {i : Fin 5} {q : Request} (h : s.streaming i q) : exec (.transferComplete dt) s = .next { s with
    dram := moved s.dram q q.line
    part := ((s.part.after dt).freeChannel.streamDone i (s.returned q.kind q.line q.count)).afterTransfer } := by
  obtain ⟨channel, within⟩ := h
  have channel : (s.part.after dt).path.channel = .stream i q false := channel
  have within : ¬ Config.dramBytes < q.next := Nat.not_lt.2 within
  rw [← fetched_eq]
  change execTransferComplete dt s = _
  unfold execTransferComplete
  dsimp only
  rw [channel]
  exact if_neg within

/-- The end of a client's only request, a WRITE, in the words of its watcher. -/
theorem exec_clientWrite {port : Fin 6} {a : Admitted} {w : Fin 32} (h : s.clientWriting port a w) :
    exec (.transferComplete dt) s = .next { s with
      dram := moved s.dram a.req a.target
      part := ((s.part.after dt).freeChannel.clientDone port a [] (moved s.dram a.req a.target)).afterTransfer } := by
  obtain ⟨channel, alone, -, within, write, -⟩ := h
  have channel : (s.part.after dt).path.channel = .client port := channel
  have alone : ((s.part.after dt).path.ports.nth port).queue = [a] := alone
  have within : ¬ Config.dramBytes < Config.lineBytes * a.target + a.req.bytes := Nat.not_lt.2 within
  have silent : fetched s.dram a.req a.target = [] := by rw [fetched, write]
  change execTransferComplete dt s = _
  unfold execTransferComplete
  dsimp only
  rw [channel]
  dsimp only
  rw [alone]
  dsimp only
  rw [if_neg within, silent]

/-- A WRITE is answered before its watcher acts. -/
def State.answeredWrite (s : State) (dt : Nat) (port : Fin 6) (a : Admitted) : Part :=
  (s.part.after dt).freeChannel.emit (.ok port a.tag [])

/-- Where the watcher leaves the path as it was, its word on a WRITE stands beside the request's own end. -/
theorem exec_clientWrite_of_watch {port : Fin 6} {a : Admitted} {w : Fin 32} (h : s.clientWriting port a w) {p : Part}
    (watched : (s.answeredWrite dt port a).watch a (moved s.dram a.req a.target) = p)
    (path : p.path = (s.answeredWrite dt port a).path) :
    exec (.transferComplete dt) s = .next { s with
      dram := moved s.dram a.req a.target, part := p.withPath (s.clientWritten dt port a).path } := by
  rw [exec_clientWrite h]
  obtain ⟨-, alone, -, -, write, -⟩ := h
  have done : (s.part.after dt).freeChannel.clientDone port a [] (moved s.dram a.req a.target) = p.withPath
      { s.part.path with
        channel := .free
        ports := s.part.path.ports.put port { (s.part.path.ports.nth port) with
          queue := [], writes := count (s.part.path.ports.nth port).writes } } := by
    unfold Part.clientDone
    dsimp only
    change ((((s.answeredWrite dt port a).watch a (moved s.dram a.req a.target)).updPort port _).checkHead port) = _
    rw [watched]
    have popped : (p.updPort port fun q => q.performed a.req.kind) = p.withPath { s.part.path with
        channel := .free
        ports := s.part.path.ports.put port { (s.part.path.ports.nth port) with
          queue := [], writes := count (s.part.path.ports.nth port).writes } } := by
      change p.withPath { p.path with ports := p.path.ports.put port ((p.path.ports.nth port).performed a.req.kind) } = _
      rw [path, write]
      have tail : (s.part.path.ports.nth port).queue.tail = [] := by rw [alone]; rfl
      change p.withPath { s.part.path with
        channel := .free
        ports := s.part.path.ports.put port { (s.part.path.ports.nth port) with
          queue := (s.part.path.ports.nth port).queue.tail, writes := count (s.part.path.ports.nth port).writes } } = _
      rw [tail]
    rw [popped, Part.checkHead]
    have empty : ((p.withPath { s.part.path with
        channel := .free
        ports := s.part.path.ports.put port { (s.part.path.ports.nth port) with
          queue := [], writes := count (s.part.path.ports.nth port).writes } }).path.ports.nth port).queue = [] := by
      change ((s.part.path.ports.put port _).nth port).queue = []
      rw [Table.nth_put_same]
    rw [empty]
    rfl
  rw [done, afterTransfer_of_free rfl]
  rfl

end

/-! The COMMAND stream and the watched words (R172 to R178). -/

/-- A span that begins at a line is written four lines at a time. -/
theorem nextWrite_of_line {a : Nat} (bytes : List Byte) (line : a % 64 = 0) (rest : List (Nat × List Byte)) :
    nextWrite ((a, bytes) :: rest) =
      some (writeRequest a (bytes.take 256), if bytes.length ≤ 256 then rest else (a + 256, bytes.drop 256) :: rest) := by
  have size : chunk a bytes.length = min bytes.length 256 := by rw [chunk, Config.lineBytes, line]
  rw [nextWrite, size]
  obtain short | long := Nat.le_total bytes.length 256
  · rw [Nat.min_eq_left short, List.take_length, List.take_of_length_le short, if_pos (Nat.le_refl _), if_pos short]
  · rw [Nat.min_eq_right long]

section

variable {p : Part}

theorem reportNext_of_nil {x : Report} (written : x.writes = []) :
    p.reportNext x = (p.setCmd { p.cmd with use := none, report := none }).finish x.ring x.tag (u16 x.lines) := by
  rw [Part.reportNext, written, nextWrite]

theorem reportNext_of_cons {x : Report} {r : Request} {left : List (Nat × List Byte)} (next : nextWrite x.writes = some (r, left)) :
    p.reportNext x = (p.setCmd { p.cmd with use := some .report, report := some { x with writes := left } }).offer commandStream r := by
  rw [Part.reportNext, next]

variable {r : Rings} {data : List Byte} (running : p.cmd.rings = some r)

section

include running

theorem commandTransfer_fetch (use : p.cmd.use = some .fetch) : p.commandTransfer data = p.takeCommand r data := by
  rw [Part.commandTransfer, use, running]

theorem commandTransfer_record {next : Nat} {ofReset : Bool} (use : p.cmd.use = some .status)
    (status : p.cmd.status = some (.record next ofReset)) : p.commandTransfer data =
      (p.setCmd { p.cmd with status := some (.index next ofReset) }).offer commandStream (writeRequest (r.statBase + 8) (u64 next)) := by
  have same : (p.setCmd { p.cmd with status := some (.index next ofReset) }) =
      p.setCmd { p.cmd with use := some .status, status := some (.index next ofReset) } := by rw [← use]
  rw [Part.commandTransfer, use, running, same]
  dsimp only
  rw [Part.statusTransfer, status]
  rfl

theorem commandTransfer_index {next : Nat} {ofReset : Bool} (use : p.cmd.use = some .status)
    (status : p.cmd.status = some (.index next ofReset)) : p.commandTransfer data = p.setCmd
      { p.cmd with use := none, status := none, writeIndex := next, resetWritten := p.cmd.resetWritten || ofReset } := by
  rw [Part.commandTransfer, use, running]
  dsimp only
  rw [Part.statusTransfer, status]

end

/-- A report goes on with its next write. -/
theorem commandTransfer_reportWrite {x : Report} {q : Request} {left : List (Nat × List Byte)} (use : p.cmd.use = some .report)
    (report : p.cmd.report = some x) (next : nextWrite x.writes = some (q, left)) : p.commandTransfer data =
      (p.setCmd { p.cmd with report := some { x with writes := left } }).offer commandStream q := by
  have same : (p.setCmd { p.cmd with report := some { x with writes := left } }) =
      p.setCmd { p.cmd with use := some .report, report := some { x with writes := left } } := by rw [← use]
  rw [Part.commandTransfer, use, same]
  dsimp only
  rw [report]
  exact reportNext_of_cons next

theorem commandTransfer_reportEnd {x : Report} (use : p.cmd.use = some .report) (report : p.cmd.report = some x) :
    p.commandTransfer data = p.reportNext x := by
  rw [Part.commandTransfer, use]
  dsimp only
  rw [report]

end

section

variable {p : Part} {a : Admitted} {w : Fin 32} {dram : Memory}

/-- The word a watcher is shown is the eight bytes at the window's start. -/
theorem watchedWord_eq (dram : Memory) (a : Nat) :
    watchedWord dram a = BitVec.ofNat 64 (leNat ((List.range 8).map fun x => dram.readByte dramBlank (a + x))) := by
  rw [watchedWord, readBytes_eq_map]

theorem any_rings {x : Option Rings} {f : Rings → Fin 32} : (x.any fun r => f r == w) = true ↔ ∃ r, x = some r ∧ f r = w := by
  cases x <;> simp

variable (write : a.req.kind = .write) (via : a.via = some w)
include write via

theorem watch_command (kind : (p.path.windows.nth w).kind = .command) : p.watch a dram =
    if a.req.covers (p.path.windows.nth w).base 8 ∧ (p.cmd.rings.any fun r => r.cmdWin == w) then
      p.setCmd { p.cmd with tailShown := p.cmd.tailShown ++ [watchedWord dram (p.path.windows.nth w).base] }
    else p := by
  rw [Part.watch, write, via]
  dsimp only
  rw [kind]

theorem watch_status (kind : (p.path.windows.nth w).kind = .status) : p.watch a dram =
    if a.req.covers (p.path.windows.nth w).base 8 ∧ (p.cmd.rings.any fun r => r.statWin == w) then
      p.setCmd { p.cmd with headShown := p.cmd.headShown ++ [watchedWord dram (p.path.windows.nth w).base] }
    else p := by
  rw [Part.watch, write, via]
  dsimp only
  rw [kind]

end

/-- A WRITE in the COMMAND or the STATUS window shows the engine the watched word it covers, and nothing else. -/
theorem exec_clientWrite_watchedWord {s : State} {dt : Nat} {port : Fin 6} {a : Admitted} {w : Fin 32} (h : s.clientWriting port a w)
    {covers : Prop} [Decidable covers] {shown : Commander}
    (watched : (s.answeredWrite dt port a).watch a (moved s.dram a.req a.target) =
      if covers then (s.answeredWrite dt port a).setCmd shown else s.answeredWrite dt port a) :
    ∃ t, exec (.transferComplete dt) s = .next t ∧ t.dram = moved s.dram a.req a.target ∧
      (covers → t.part = { (s.clientWritten dt port a) with cmd := shown }) ∧ (¬ covers → t.part = s.clientWritten dt port a) := by
  by_cases c : covers
  · exact ⟨_, exec_clientWrite_of_watch h (watched.trans (if_pos c)) rfl, rfl, fun _ => rfl, fun n => absurd c n⟩
  · exact ⟨_, exec_clientWrite_of_watch h (watched.trans (if_neg c)) rfl, rfl, fun p => absurd p c, fun _ => rfl⟩

/-- Settles O54: the watched words by `exec_clientWrite_watchedWord`, and the COMMAND stream's use by use. -/
theorem aCommandTransferMovesTheRings : Obligations.ACommandTransferMovesTheRings := by
  refine ⟨?_, ?_⟩
  · intro s dt port a w h win c done covered kinds
    obtain ⟨-, -, via, -, write, -⟩ := id h
    obtain kind | kind := kinds
    · obtain ⟨t, ran, dram, shown, silent⟩ := exec_clientWrite_watchedWord h (watch_command write via kind)
      refine ⟨t, ran, fun _ => ⟨fun cov live => ?_, fun not => silent fun c => ?_⟩, fun other => absurd (kind.symm.trans other) nofun⟩
      · rw [shown ⟨cov, any_rings.2 live⟩, watchedWord_eq, ← dram]
        rfl
      · obtain ⟨r, live, named⟩ := any_rings.1 c.2
        exact not.elim (fun uncovered => uncovered c.1) fun dead => dead r live named
    · obtain ⟨t, ran, dram, shown, silent⟩ := exec_clientWrite_watchedWord h (watch_status write via kind)
      refine ⟨t, ran, fun other => absurd (kind.symm.trans other) nofun, fun _ => ⟨fun cov live => ?_, fun not => silent fun c => ?_⟩⟩
      · rw [shown ⟨cov, any_rings.2 live⟩, watchedWord_eq, ← dram]
        rfl
      · obtain ⟨r, live, named⟩ := any_rings.1 c.2
        exact not.elim (fun uncovered => uncovered c.1) fun dead => dead r live named
  · intro s dt q r channel within running c data freed after
    have ran := exec_streamTransfer (dt := dt) (i := commandStream) (q := q) ⟨channel, within⟩
    let p := (s.part.after dt).freeChannel
    have ended {x : Part} (t : p.commandTransfer data = x) (free : x.path.channel = .free) :
        exec (.transferComplete dt) s = .next { s with dram := moved s.dram q q.line, part := x.withPath x.path.freed } := by
      rw [ran, ← afterTransfer_of_free free, ← t]
      rfl
    refine ⟨fun use => ?_, fun next ofReset use status => ?_, fun next ofReset use status => ?_, fun x use report => ⟨?_, ?_⟩⟩
    · exact ⟨_, ended (commandTransfer_fetch (p := p) running use) rfl, rfl, rfl⟩
    · exact ⟨_, ended (commandTransfer_record (p := p) running use status) rfl, rfl, rfl⟩
    · exact ⟨_, ended (commandTransfer_index (p := p) running use status) rfl, attention_iff _, rfl⟩
    · intro a bytes writes line
      have next := nextWrite_of_line bytes line []
      rw [← writes] at next
      exact ⟨_, ended (commandTransfer_reportWrite (p := p) use report next) rfl, rfl⟩
    · intro written
      exact ⟨_, ended ((commandTransfer_reportEnd (p := p) use report).trans (reportNext_of_nil written)) rfl, rfl⟩

end Sys2Proof.Machine
end

section
/-! Byte layouts of a fixed length, and the clip list mirror (O41). -/

namespace Sys2Proof.Machine

/-! Fields of a fixed width. -/

@[simp] theorem length_leBytes (k n : Nat) : (leBytes k n).length = k := leBytes_length k n

@[simp] theorem length_zeros (k : Nat) : (zeros k).length = k := List.length_replicate

@[simp] theorem length_padTo (k : Nat) (bs : List Byte) : (padTo k bs).length = k := by
  rw [padTo, List.length_append, List.length_take, length_zeros]
  omega

@[simp] theorem length_timecode (t : Timecode) : t.bytes.length = 4 := rfl

/-- Bytes that fit are filled up with zeros and not cut. -/
theorem padTo_of_le {k : Nat} {bs : List Byte} (h : bs.length ≤ k) : padTo k bs = bs ++ zeros (k - bs.length) := by
  rw [padTo, List.take_of_length_le h]

/-- Eight points of four bytes each. -/
@[simp] theorem length_pointBytes (cameras : Byte) (t : Table Word 8) : (pointBytes cameras t).length = 32 := by
  have four (k : Fin 8) : (if cameras.getLsbD k.val then word (t.nth k) else zeros 4).length = 4 := by
    split
    · exact leBytes_length ..
    · exact length_zeros 4
  simp only [pointBytes, List.length_flatMap, four]
  rfl

/-- The bytes of an entry before its send account (12.4). -/
def Clip.entryHead (c : Clip) : List Byte :=
  u8 (originCode c.origin) ++ [boolCode c.forced] ++ u8 c.preroll ++ u8 c.labels.length ++ u16 c.limit ++ c.inTimecode.bytes ++
    (match c.out with | none => zeros 8 | some (_, t) => [1, 0, 0, 0] ++ t.bytes) ++ padTo 16 (c.labels.flatMap u16)

/-- The closing points of an entry, zeros before there are any. -/
def Clip.entryOuts (c : Clip) : List Byte :=
  match c.out with
  | none => zeros 32
  | some (outs, _) => pointBytes c.cameras outs

@[simp] theorem length_entryHead (c : Clip) : c.entryHead.length = 34 := by
  unfold Clip.entryHead u8 u16
  split <;> simp

@[simp] theorem length_entryOuts (c : Clip) : c.entryOuts.length = 32 := by
  unfold Clip.entryOuts
  split
  · exact length_zeros 32
  · exact length_pointBytes ..

/-- The entry image of a position that holds a clip: 112 bytes, and zeros. -/
theorem entryImage_some (c : Clip) : entryImage (some c) =
    [c.state.code, c.send.code] ++ u16 c.number ++ [c.cameras, c.passed] ++ c.entryHead ++
      (u16 c.outstanding ++ u16 c.failed ++ u16 c.skipped ++ u8 c.cursors ++ [0]) ++
      pointBytes c.cameras c.inPoints ++ c.entryOuts ++ zeros 144 := by
  rw [entryImage, padTo_of_le]
  · unfold Clip.entryHead Clip.entryOuts u8 u16
    cases c.out with
    | none => simp [zeros, List.replicate_succ, boolCode]
    | some o => simp [zeros, List.replicate_succ, boolCode]
  · unfold u8 u16
    cases c.out with
    | none => simp
    | some o => simp

/-! The clip list mirror (R128). -/

section

variable {p : Part}

/-- With an entry in progress, nothing pending, or no window open for the list, nothing starts. -/
theorem mirrorStart_of_none (h : p.clips.writing ≠ none ∨ p.clips.mirror = [] ∨
    ∀ w, ¬ ((p.path.windows.nth w).state = .opened ∧ (p.path.windows.nth w).kind = .clipList)) : p.mirrorStart = p := by
  unfold Part.mirrorStart
  split
  · next pos rest w idle pending opened =>
    obtain h | h | h := h
    · exact absurd idle h
    · exact absurd (h.symm.trans pending) nofun
    · have found := List.find?_some opened
      rw [Bool.and_eq_true, beq_iff_eq, beq_iff_eq] at found
      exact absurd found (h w)
  · rfl

theorem mirrorStart_of_pending {pos : Fin 128} {rest : List (Fin 128)} {w : Fin 32} (idle : p.clips.writing = none)
    (pending : p.clips.mirror = pos :: rest) (opened : p.path.openOf .clipList = some w) (free : p.path.streamIdle clipsStream = true) :
    p.mirrorStart = (p.setClips { p.clips with mirror := rest, writing := some pos }).offer clipsStream
      (writeRequest ((p.path.windows.nth w).base + 256 * pos.val) (entryImage (p.clips.table.nth pos))) := by
  unfold Part.mirrorStart
  rw [idle, pending, opened]
  exact if_pos free

end

/-- Settles O41: a transfer of the CLIPS stream ends the write in progress, `insertPos` keeps the pending set ascending, and the
image is `entryImage_some`. -/
theorem theMirrorWritesTheLowestPendingPosition : Obligations.TheMirrorWritesTheLowestPendingPosition := by
  refine ⟨?_, ⟨List.pairwise_lt_finRange 128, rfl, ?_⟩, ?_⟩
  · intro s dt q h
    refine ⟨_, exec_streamTransfer h, ?_⟩
    exact afterTransfer_of_free (p := (s.part.after dt).freeChannel.clipsTransfer) rfl
  · intro pos l ascending
    refine ⟨insertPos_ascending pos l ascending, mem_insertPos pos l, ?_⟩
    rintro first rest rfl
    exact ⟨(List.pairwise_cons.1 ascending).2, (List.pairwise_cons.1 ascending).1⟩
  · intro s
    refine ⟨fun h => next_becomes (mirrorStart_of_none h), ?_, rfl, ?_⟩
    · exact fun pos rest w idle pending opened free => next_becomes (mirrorStart_of_pending idle pending opened free)
    · intro c stamp points
      rw [entryImage_some]
      simp only [Clip.entryHead, Clip.entryOuts, List.append_assoc]
      cases c.state <;> cases c.send <;> rfl

end Sys2Proof.Machine
end

section
/-! Rate control (O29), and calibration with the fault line (O59). -/

namespace Sys2Proof.Machine

/-! Rate control (R65, R67). -/

section

variable {r : RateRecord} {b : Nat}

theorem bandTarget_of_lt (h : ((r.budget : Int) - r.header - r.spent).fdiv ((r.bandCount : Int) - b) < (16 * (r.tiles + 1) : Nat)) :
    bandTarget r b = 16 * (r.tiles + 1) := if_pos h

theorem bandTarget_of_le (h : ((16 * (r.tiles + 1) : Nat) : Int) ≤ ((r.budget : Int) - r.header - r.spent).fdiv ((r.bandCount : Int) - b)) :
    (bandTarget r b : Int) = ((r.budget : Int) - r.header - r.spent).fdiv ((r.bandCount : Int) - b) := by
  have shared : bandTarget r b = (((r.budget : Int) - r.header - r.spent).fdiv ((r.bandCount : Int) - b)).toNat := if_neg (Int.not_lt.2 h)
  rw [shared]
  exact Int.toNat_of_nonneg (Int.le_trans (Int.natCast_nonneg _) h)

end

/-- The quantizer steps by one, within 0 to 15 (R67). -/
theorem nextQuantizer_eq (q t n : Nat) :
    nextQuantizer q t n = if t + t / 4 < n then min (q + 1) 15 else if n + t / 4 < t then q - 1 else q := rfl

/-- Settles O29: the share is a division rounded down, so the bands left take no more than what is left. -/
theorem rateControlStepsTheQuantizer : Obligations.RateControlStepsTheQuantizer := by
  refine ⟨?_, fun q t n hq => ?_⟩
  · intro r b hb share least
    refine ⟨bandTarget_of_lt, bandTarget_of_le, fun enough => ?_⟩
    have left : (0 : Int) ≤ (r.bandCount : Int) - b := by omega
    have rounded : share * ((r.bandCount : Int) - b) ≤ (r.budget : Int) - r.header - r.spent := by
      rw [show share = _ from Int.fdiv_eq_ediv_of_nonneg _ left]
      exact Int.ediv_mul_le _ (by omega)
    rw [bandTarget_of_le enough]
    change (r.spent : Int) + r.header + share * ((r.bandCount : Int) - b) ≤ r.budget
    omega
  · rw [nextQuantizer_eq]
    refine ⟨fun above => ?_, fun below => ?_, fun low high => ?_, ?_⟩
    · rw [if_pos above]
      split <;> omega
    · rw [if_neg (by omega), if_pos (by omega)]
      split <;> omega
    · rw [if_neg (by omega), if_neg (by omega)]
    · split
      · omega
      · split <;> omega

/-! Calibration (R188) and the fault line (R189). -/

section

variable {s : State} {dt : Nat} {pass : Bool}

theorem exec_calibrationComplete_idle (h : s.part.loader.calibrating = false) :
    exec (.calibrationComplete dt pass) s = .next (s.becomes (s.part.after dt)) := by
  have h : ¬ (s.part.after dt).loader.calibrating = true := Bool.eq_false_iff.1 h
  exact if_neg h

theorem exec_calibrationComplete_pass (h : s.part.loader.calibrating = true) :
    exec (.calibrationComplete dt true) s = .next { s with dram := [], part := (s.part.after dt).memoryReady } := by
  have h : (s.part.after dt).loader.calibrating = true := h
  exact if_pos h

theorem exec_calibrationComplete_fail (h : s.part.loader.calibrating = true) :
    exec (.calibrationComplete dt false) s = .next (s.becomes (s.part.after dt).calibrationFailed) := by
  have h : (s.part.after dt).loader.calibrating = true := h
  exact if_pos h

end

theorem calibrationFailed_again {p : Part} (h : p.loader.attempts < 2) :
    p.calibrationFailed = p.setLoader { p.loader with attempts := p.loader.attempts + 1 } := if_pos (Nat.succ_lt_succ h)

theorem calibrationFailed_third {p : Part} (h : p.loader.attempts = 2) : p.calibrationFailed = p.setLoader
    { p.loader with attempts := 3, calibrating := false, state := .dramFault, faultHigh := true, faultTimer := none } := by
  unfold Part.calibrationFailed
  rw [h]
  rfl

theorem toggleFault_of_none {p : Part} (h : p.loader.faultTimer = none) : p.toggleFault = p := by
  rw [Part.toggleFault, h]

theorem toggleFault_of_some {p : Part} {t : Nat} (h : p.loader.faultTimer = some t) : p.toggleFault =
    (p.reach t).setLoader { p.loader with faultHigh := !p.loader.faultHigh, faultTimer := some (t + Config.faultHalfPeriod) } := by
  rw [Part.toggleFault, h]

/-- Settles O59: one outcome for each result of an attempt, and the toggle by its timer. -/
theorem calibrationMakesMemoryReadyOrFaults : Obligations.CalibrationMakesMemoryReadyOrFaults := by
  intro s
  refine ⟨fun dt pass idle => exec_calibrationComplete_idle idle, fun dt busy => ⟨_, exec_calibrationComplete_pass busy, rfl⟩,
    fun dt busy few => ?_, fun dt busy two => ?_, fun still => next_becomes (toggleFault_of_none still),
    fun t due => next_becomes (toggleFault_of_some due)⟩
  · exact (exec_calibrationComplete_fail busy).trans (next_becomes (calibrationFailed_again (p := s.part.after dt) few))
  · exact (exec_calibrationComplete_fail busy).trans (next_becomes (calibrationFailed_third (p := s.part.after dt) two))

end Sys2Proof.Machine
end

section
/-! Trunk lanes: SET LANE and LANE ON (O47), and transmission (O50). -/

namespace Sys2Proof.Machine

/-! Fields of one byte, by their numbers. -/

theorem byte_eq_iff {b : Byte} {n : Nat} (h : n < 256) : b = BitVec.ofNat 8 n ↔ b.toNat = n := by
  rw [← BitVec.toNat_inj, BitVec.toNat_ofNat, Nat.mod_eq_of_lt h]

theorem filterOf_eq_none {b : Byte} : filterOf b = none ↔ 3 < b.toNat := by
  have is0 : b = 0 ↔ b.toNat = 0 := byte_eq_iff (by decide)
  have is1 : b = 1 ↔ b.toNat = 1 := byte_eq_iff (by decide)
  have is2 : b = 2 ↔ b.toNat = 2 := byte_eq_iff (by decide)
  have is3 : b = 3 ↔ b.toNat = 3 := byte_eq_iff (by decide)
  unfold filterOf
  simp only [is0, is1, is2, is3]
  repeat' split
  all_goals
    simp only [reduceCtorEq, false_iff, true_iff]
    omega

theorem fullPolicyOf_eq_none {b : Byte} : fullPolicyOf b = none ↔ 1 < b.toNat := by
  have is0 : b = 0 ↔ b.toNat = 0 := byte_eq_iff (by decide)
  have is1 : b = 1 ↔ b.toNat = 1 := byte_eq_iff (by decide)
  unfold fullPolicyOf
  simp only [is0, is1]
  repeat' split
  all_goals
    simp only [reduceCtorEq, false_iff, true_iff]
    omega

section

variable {divider window : Half} {filter depth policy : Byte} {on : Bool}

/-- The fields SET LANE accepts (R156 test 1). -/
theorem laneFields_eq_some {c : LaneSettings} : laneFields divider window filter depth policy on = some c ↔
    ∃ f p, filterOf filter = some f ∧ fullPolicyOf policy = some p ∧ 2 ≤ divider.toNat ∧ 4 ≤ window.toNat ∧ window.toNat ≤ 256 ∧
      (depth.toNat = 1 ∨ depth.toNat = 8) ∧ c = ⟨divider.toNat, window.toNat, f, depth.toNat, p, on⟩ := by
  have one : depth = 1 ↔ depth.toNat = 1 := byte_eq_iff (by decide)
  have eight : depth = 8 ↔ depth.toNat = 8 := byte_eq_iff (by decide)
  unfold laneFields
  simp only [one, eight]
  split
  · next f p hf hp =>
    rw [hf, hp]
    simp [eq_comm, and_assoc]
  · next other =>
    simp only [reduceCtorEq, false_iff]
    rintro ⟨f, p, hf, hp, -⟩
    exact other f p hf hp

theorem laneFields_legal {c : LaneSettings} (h : laneFields divider window filter depth policy on = some c) :
    2 ≤ divider.toNat ∧ 4 ≤ window.toNat ∧ window.toNat ≤ 256 ∧ filter.toNat ≤ 3 ∧ (depth.toNat = 1 ∨ depth.toNat = 8) ∧ policy.toNat ≤ 1 := by
  obtain ⟨f, p, hf, hp, hd, hw, hw', hdepth, -⟩ := laneFields_eq_some.1 h
  refine ⟨hd, hw, hw', ?_, hdepth, ?_⟩
  · refine Decidable.byContradiction fun big => ?_
    rw [filterOf_eq_none.2 (by omega)] at hf
    cases hf
  · refine Decidable.byContradiction fun big => ?_
    rw [fullPolicyOf_eq_none.2 (by omega)] at hp
    cases hp

end

theorem objectOf_lt {n : Nat} {b : Byte} {k : Fin n} (h : objectOf n b = some k) : b.toNat < n := objectOf_eq_some.1 h ▸ k.isLt

/-- A lane turned on, in the words of R157. -/
theorem turnOn_eq (r : Lane) (now : Nat) : r.turnOn now = { r with
    state := .waitCarrier
    breakEnd := some (r.breakEnd.getD (now + 256 * (12 * r.cfg.divider)))
    counts := { r.counts with breaksSent := count r.counts.breaksSent }
    filtered := r.carrier
    filterTimer := none
    settleTimer := if r.carrier then some (now + 300000000) else none
    receive := .between
    fifo := [] } := by
  have period : r.breakTime = 256 * (12 * r.cfg.divider) := congrArg (256 * ·) (Nat.mul_comm _ _)
  unfold Lane.turnOn
  rw [period]
  cases r.breakEnd <;> rfl

/-- Settles O47: each command's fields are tested first, then the lane's object and state. -/
theorem aLaneIsSetAndTurnedOn : Obligations.ALaneIsSetAndTurnedOn := by
  intro s
  refine ⟨?_, ?_⟩
  · intro i tag lane divider window filter depth policy h run legal
    have ran : run = _ := exec_of_taken h rfl
    rw [ran]
    refine ⟨fun bad => next_becomes ?_, fun good l f p hl hf hp => ?_⟩
    · split
      · next l c hl hc =>
        have := objectOf_lt hl
        exact absurd ⟨by omega, laneFields_legal hc⟩ bad
      · rfl
    · obtain ⟨-, hd, hw, hw', -, hdepth, -⟩ := good
      rw [objectOf_eq_some.2 hl, laneFields_eq_some.2 ⟨f, p, hf, hp, hd, hw, hw', hdepth, rfl⟩]
      refine ⟨fun busy => next_becomes (if_pos ((outstanding_eq_true ..).2 busy)), fun quiet => ?_⟩
      have quiet : ¬ s.part.handEmpty.outstanding (.laneOff l) = true := fun busy => (outstanding_eq_true ..).1 busy quiet
      refine ⟨fun on => next_becomes ((if_neg quiet).trans (if_pos on)), fun off => ?_⟩
      exact next_becomes ((if_neg quiet).trans (if_neg (not_not_intro off)))
  · intro i tag lane h run
    have ran : run = _ := exec_of_taken h rfl
    rw [ran]
    refine ⟨fun bad => next_becomes ?_, fun l hl => ?_⟩
    · rw [objectOf_eq_none.2 bad]
      rfl
    · rw [objectOf_eq_some.2 hl]
      refine ⟨fun busy => next_becomes (if_pos ((outstanding_eq_true ..).2 busy)), fun quiet on => ?_, fun quiet off => ?_⟩
      all_goals have quiet : ¬ s.part.handEmpty.outstanding (.laneOff l) = true := fun busy => (outstanding_eq_true ..).1 busy quiet
      · exact next_becomes ((if_neg quiet).trans (if_pos on))
      · refine next_becomes ((if_neg quiet).trans ((if_neg (not_not_intro off)).trans ?_))
        change ((s.part.handEmpty.setLanes (s.part.lanes.put l ((s.part.lanes.nth l).turnOn s.part.now))).finish i tag []) = _
        rw [turnOn_eq]
        rfl

/-! Transmission (R161, R162, R143). -/

section

variable {p : Part}

theorem frameSent_echo {f : TxFrame} {token : Word} (h : f.kind = .echo token) : p.frameSent f = p := by
  rw [Part.frameSent, h]

variable {f : TxFrame} {seq : Word} {d : Descriptor} (h : f.kind = .link seq)
  (found : (p.sender.store.find? fun x => x.seq == seq) = some d)
include h found

theorem frameSent_unsettled (open' : d.mark = none) :
    p.frameSent f = p.updDesc seq fun d => { d with state := .awaitingReceipt, lane := none } := by
  rw [Part.frameSent, h]
  dsimp only
  rw [found]
  exact if_neg (by rw [open']; exact nofun)

theorem frameSent_settled (settled : d.mark ≠ none) : p.frameSent f = p.removeDesc seq := by
  rw [Part.frameSent, h]
  dsimp only
  rw [found]
  exact if_pos (Option.isSome_iff_ne_none.2 settled)

end

theorem transmitComplete_of_sending {p : Part} {l : Fin 4} {f : TxFrame} {t : Nat} (h : (p.lanes.nth l).sending = some (f, t)) :
    p.transmitComplete l = (((((p.reach t).updLane l fun r =>
      { r with sending := none, counts := { r.counts with framesSent := count r.counts.framesSent } }).emit (.frame l f.bytes)).frameSent
        f).transmitStart l) := by
  rw [Part.transmitComplete, h]

/-- Settles O50: both events end with `Part.transmitStart`, which begins the next frame as R161 says. -/
theorem framesGoOutInQueueOrder : Obligations.FramesGoOutInQueueOrder := by
  intro s l r
  refine ⟨⟨_, rfl, Part.begins_transmitStart l s.part⟩, ?_⟩
  intro f e sending sent
  let done : Part := ((s.part.reach e).updLane l fun r =>
    { r with sending := none, counts := { r.counts with framesSent := count r.counts.framesSent } }).emit (.frame l f.bytes)
  have ends {x : Sender} (h : done.frameSent f = done.setSender x) : sent x := by
    refine ⟨_, next_becomes (transmitComplete_of_sending sending), ?_⟩
    change Part.begins l _ ((done.frameSent f).transmitStart l)
    rw [h]
    exact Part.begins_transmitStart l _
  refine ⟨fun token echo => ends (frameSent_echo echo), fun seq d link found => ⟨fun unsettled => ?_, fun settled => ?_⟩⟩
  · exact ends (frameSent_unsettled (p := done) link found unsettled)
  · exact ends (frameSent_settled (p := done) link found settled)

end Sys2Proof.Machine
end

section
/-! What the end of an item and the drop of its fragments leave alone (R134), and the class commands (O46). -/

namespace Sys2Proof.Machine

/-! Notices are raised and nothing else of the command engine changes. -/

/-- The command engine with notices raised, and what counts them. -/
structure Commander.Notified (c d : Commander) : Prop where
  rest : d = { c with notices := d.notices, counts := d.counts }
  grown : ∀ n, n ∈ c.notices → n ∈ d.notices

theorem Commander.Notified.refl (c : Commander) : c.Notified c := ⟨rfl, fun _ h => h⟩

theorem Commander.Notified.trans {c d e : Commander} (h : c.Notified d) (h' : d.Notified e) : c.Notified e where
  rest := by rw [h'.rest, h.rest]
  grown n hn := h'.grown n (h.grown n hn)

theorem notified_raised (c : Commander) (n : Cause × Nat) : c.Notified (c.raised n) where
  rest := by
    unfold Commander.raised
    split <;> rfl
  grown m hm := (mem_raised c n m).2 (.inr hm)

theorem raised_handEmpty (c : Commander) (n : Cause × Nat) :
    Commander.raised { c with inHand := none } n = { (c.raised n) with inHand := none } := by
  unfold Commander.raised
  dsimp only
  split <;> rfl

theorem raise_handEmpty (p : Part) (c : Cause) (n : Nat) : p.handEmpty.raise c n = (p.raise c n).handEmpty := by
  rw [raise_eq, raise_eq]
  exact congrArg p.setCmd (raised_handEmpty p.cmd (c, n))

/-! What a change of the send engine's items and descriptors may touch. -/

/-- The rings, the clips, the lanes, the send engine and the notices may have changed, and nothing else has. -/
structure Part.SendsTo (p q : Part) : Prop where
  rest : q = { p with rings := q.rings, clips := q.clips, sender := q.sender, lanes := q.lanes, cmd := q.cmd }
  cmd : p.cmd.Notified q.cmd

theorem Part.SendsTo.refl (p : Part) : p.SendsTo p := ⟨rfl, .refl _⟩

theorem Part.SendsTo.trans {p q r : Part} (h : p.SendsTo q) (h' : q.SendsTo r) : p.SendsTo r where
  rest := by rw [h'.rest, h.rest]
  cmd := h.cmd.trans h'.cmd

theorem Part.SendsTo.foldl {α : Type} {f : Part → α → Part} (h : ∀ (p : Part) (a : α), p.SendsTo (f p a)) (l : List α) (p : Part) :
    p.SendsTo (l.foldl f p) := by
  induction l generalizing p with
  | nil => exact .refl p
  | cons a rest ih => exact (h p a).trans (ih (f p a))

theorem Part.SendsTo.path {p q : Part} (h : p.SendsTo q) : q.path = p.path := by rw [h.rest]

theorem Part.SendsTo.now {p q : Part} (h : p.SendsTo q) : q.now = p.now := by rw [h.rest]

theorem Part.SendsTo.completions {p q : Part} (h : p.SendsTo q) : q.cmd.completions = p.cmd.completions := by rw [h.cmd.rest]

theorem Part.SendsTo.deferred {p q : Part} (h : p.SendsTo q) : q.cmd.deferred = p.cmd.deferred := by rw [h.cmd.rest]

theorem Part.SendsTo.raise (p : Part) (c : Cause) (n : Nat) : p.SendsTo (p.raise c n) := by
  rw [raise_eq]
  exact ⟨rfl, notified_raised ..⟩

section

variable (pos : Fin 128) (clip : Nat) (failed : Bool) (p : Part)

theorem tellsEnd_sendsTo : p.SendsTo (p.tellsEnd pos clip failed) := by
  unfold Part.tellsEnd
  dsimp only
  split
  · exact Part.SendsTo.trans (q := { p with clips := (p.clips.toldEnd pos clip failed).1 }) ⟨rfl, .refl _⟩ (.raise ..)
  · exact ⟨rfl, .refl _⟩

theorem tellsEnd_lanes : (p.tellsEnd pos clip failed).lanes = p.lanes := by
  unfold Part.tellsEnd
  dsimp only
  split
  · rw [raise_eq]
    rfl
  · rfl

theorem tellsEnd_handEmpty : p.handEmpty.tellsEnd pos clip failed = (p.tellsEnd pos clip failed).handEmpty := by
  unfold Part.tellsEnd
  dsimp only [handEmpty_clips]
  split
  · exact raise_handEmpty { p with clips := _ } ..
  · rfl

end

section

variable (it : Item) (failed : Bool) (p : Part)

/-- The part once an item's end has been told to the clip controller. -/
def Part.endTold : Part :=
  match it.kind.link with
  | some (pos, clip) => if it.linked then p.tellsEnd pos clip failed else p
  | none => p

theorem endTold_cases : Part.endTold it failed p = p ∨ ∃ pos clip, Part.endTold it failed p = p.tellsEnd pos clip failed := by
  unfold Part.endTold
  split
  · split
    · exact .inr ⟨_, _, rfl⟩
    · exact .inl rfl
  · exact .inl rfl

theorem endTold_handEmpty : Part.endTold it failed p.handEmpty = (Part.endTold it failed p).handEmpty := by
  unfold Part.endTold
  split
  · split
    · exact tellsEnd_handEmpty ..
    · rfl
  · rfl

/-- An item's end, by what it does to each block. -/
theorem itemEnds_eq : p.itemEnds it failed = { (Part.endTold it failed p) with
    rings := match it.kind.picture with | some (k, n) => p.rings.upd k fun r => r.sending n (· - 1) | none => p.rings
    sender := (p.itemEnds it failed).sender } := rfl

theorem itemEnds_sendsTo : p.SendsTo (p.itemEnds it failed) := by
  rw [itemEnds_eq]
  have told : p.SendsTo (Part.endTold it failed p) := by
    obtain h | ⟨pos, clip, h⟩ := endTold_cases it failed p <;> rw [h]
    · exact .refl p
    · exact tellsEnd_sendsTo ..
  exact told.trans ⟨rfl, .refl _⟩

theorem itemEnds_lanes : (p.itemEnds it failed).lanes = p.lanes := by
  change (Part.endTold it failed p).lanes = p.lanes
  obtain h | ⟨pos, clip, h⟩ := endTold_cases it failed p <;> rw [h]
  exact tellsEnd_lanes ..

theorem itemEnds_handEmpty : p.handEmpty.itemEnds it failed = (p.itemEnds it failed).handEmpty := by
  rw [itemEnds_eq it failed p, itemEnds_eq it failed p.handEmpty, endTold_handEmpty]
  rfl

theorem itemEnds_items : (p.itemEnds it failed).sender.items = p.sender.items.filter fun x => x.id != it.id := rfl

theorem itemEnds_classes : (p.itemEnds it failed).sender.classes = p.sender.classes.upd it.kind.cls.index fun r =>
    if failed then { r with failed := count r.failed } else { r with finished := count r.finished } := rfl

theorem itemDropped_sendsTo : p.SendsTo (p.itemDropped it) := by
  unfold Part.itemDropped
  split
  · exact itemEnds_sendsTo ..
  · exact ⟨rfl, .refl _⟩

theorem itemDropped_lanes : (p.itemDropped it).lanes = p.lanes := by
  unfold Part.itemDropped
  split
  · exact itemEnds_lanes ..
  · rfl

theorem itemDropped_handEmpty : p.handEmpty.itemDropped it = (p.itemDropped it).handEmpty := by
  unfold Part.itemDropped
  split
  · exact itemEnds_handEmpty ..
  · rfl

theorem itemDropped_store : (p.itemDropped it).sender.store = p.sender.store := by
  unfold Part.itemDropped
  split <;> rfl

/-- The drop of an item's fragments removes the items of its name, or takes them from their queue. -/
theorem itemDropped_items : (p.itemDropped it).sender.items = if it.settled = it.dispatched then p.sender.items.filter fun x => x.id != it.id
    else p.sender.items.map fun x => if x.id = it.id then { x with queued := false, failed := true } else x := by
  unfold Part.itemDropped
  split <;> rfl

/-- No item of the name is queued any longer. -/
theorem itemDropped_unqueued {x : Item} (hx : x ∈ (p.itemDropped it).sender.items) (hid : x.id = it.id) :
    x.queued = false ∧ x.failed = true := by
  rw [itemDropped_items] at hx
  split at hx
  · exact absurd hid (by simpa using (List.mem_filter.1 hx).2)
  · obtain ⟨y, -, rfl⟩ := List.mem_map.1 hx
    split
    · exact ⟨rfl, rfl⟩
    · next other =>
      rw [if_neg other] at hid
      exact absurd hid other

/-- Any other item is there exactly if it was there before. -/
theorem mem_itemDropped_other {x : Item} (hid : x.id ≠ it.id) : x ∈ (p.itemDropped it).sender.items ↔ x ∈ p.sender.items := by
  rw [itemDropped_items]
  split
  · rw [List.mem_filter]
    exact and_iff_left (by simpa using hid)
  · rw [List.mem_map]
    constructor
    · rintro ⟨y, hy, rfl⟩
      split at hid
      · next same => exact absurd same hid
      · rwa [if_neg ‹_›]
    · exact fun hx => ⟨x, hx, if_neg hid⟩

/-- Only the counts of ended items rise in the class records. -/
theorem itemDropped_classes (c : Fin 4) : ∃ f g, (p.itemDropped it).sender.classes.nth c =
    { (p.sender.classes.nth c) with failed := f, finished := g } := by
  unfold Part.itemDropped
  split
  · rw [itemEnds_classes, Table.upd, Table.nth_put]
    split
    · next same =>
      rw [← same]
      exact ⟨_, _, rfl⟩
    · exact ⟨_, _, rfl⟩
  · exact ⟨_, _, rfl⟩

/-- The item of another name is the same one. -/
theorem item_itemDropped_other {id : Nat} (h : id ≠ it.id) : (p.itemDropped it).sender.item id = p.sender.item id := by
  unfold Sender.item
  rw [itemDropped_items]
  split
  · rw [List.find?_filter]
    congr 1
    funext x
    by_cases hx : x.id = id
    · simp [hx, h]
    · simp [hx]
  · induction p.sender.items with
    | nil => rfl
    | cons x rest ih =>
      rw [List.map_cons, List.find?_cons, List.find?_cons, ih]
      by_cases hx : x.id = it.id
      · rw [if_pos hx]
        have other : (it.id == id) = false := beq_false_of_ne (Ne.symm h)
        simp only [hx, other]
      · rw [if_neg hx]

end

/-! SET CLASS and FLUSH CLASS (R150, R151). -/

theorem classFields_eq_some {interval hold : Half} {c : Nat × Nat} : classFields interval hold = some c ↔
    (1 ≤ interval.toNat ∧ interval.toNat ≤ 255 ∧ 1 ≤ hold.toNat ∧ hold.toNat ≤ 60000) ∧ c = (interval.toNat, hold.toNat) := by
  unfold classFields
  split
  · next h =>
    rw [Option.some.injEq, eq_comm]
    exact (and_iff_right h).symm
  · next h =>
    simp only [reduceCtorEq, false_iff]
    exact fun c => h c.1

/-- The drops of a queue's items, one after the other. -/
def Part.itemsDropped (p : Part) (l : List Item) : Part := l.foldl (fun p it => Part.itemDropped it p) p

theorem itemsDropped_handEmpty (l : List Item) (p : Part) : p.handEmpty.itemsDropped l = (p.itemsDropped l).handEmpty := by
  induction l generalizing p with
  | nil => rfl
  | cons it rest ih =>
    change (Part.itemDropped it p.handEmpty).itemsDropped rest = ((Part.itemDropped it p).itemsDropped rest).handEmpty
    rw [itemDropped_handEmpty, ih]

/-- Where no two items share a name, each drop finds the item it is meant for. -/
theorem dropsFromQueue_eq (l : List Item) (p : Part) (distinct : (l.map (·.id)).Nodup) (here : ∀ it, it ∈ l → p.sender.item it.id = some it) :
    l.foldl (fun p it => p.dropFromQueue it.id) p = p.itemsDropped l := by
  induction l generalizing p with
  | nil => rfl
  | cons it rest ih =>
    obtain ⟨fresh, distinct⟩ := List.nodup_cons.1 distinct
    rw [List.foldl_cons, Part.dropFromQueue_eq (here it List.mem_cons_self)]
    refine ih _ distinct fun x hx => ?_
    have other : x.id ≠ it.id := fun same => fresh (List.mem_map.2 ⟨x, hx, same⟩)
    rw [item_itemDropped_other it p other]
    exact here x (List.mem_cons_of_mem _ hx)

/-- An item of a list without repeated names is the one found by its name. -/
theorem find_item {l : List Item} (distinct : (l.map (·.id)).Nodup) {it : Item} (h : it ∈ l) : (l.find? fun i => i.id == it.id) = some it := by
  induction l with
  | nil => cases h
  | cons x rest ih =>
    obtain ⟨fresh, distinct⟩ := List.nodup_cons.1 distinct
    obtain rfl | h := List.mem_cons.1 h
    · rw [List.find?_cons_of_pos (by simp)]
    · rw [List.find?_cons_of_neg, ih distinct h]
      exact fun same => fresh (List.mem_map.2 ⟨it, h, (eq_of_beq same).symm⟩)

/-- What a drop by name is: nothing where no item has the name. -/
theorem dropFromQueue_cases (id : Nat) (p : Part) : (p.sender.item id = none ∧ p.dropFromQueue id = p) ∨
    ∃ it, p.sender.item id = some it ∧ it.id = id ∧ p.dropFromQueue id = p.itemDropped it := by
  cases h : p.sender.item id with
  | none =>
    refine .inl ⟨rfl, ?_⟩
    rw [Part.dropFromQueue, Part.updItem_absent h, Part.testItemEnd, h]
  | some it =>
    exact .inr ⟨it, rfl, by simpa using List.find?_some h, Part.dropFromQueue_eq h⟩

/-- What the drops of a class queue's items keep: everything but the items of those names, and the counts of ended items. -/
structure Part.DropsTo (ids : List Nat) (p q : Part) : Prop where
  sends : p.SendsTo q
  lanes : q.lanes = p.lanes
  store : q.sender.store = p.sender.store
  classes : ∀ c, ∃ f g, q.sender.classes.nth c = { (p.sender.classes.nth c) with failed := f, finished := g }
  others : ∀ x : Item, x.id ∉ ids → (x ∈ q.sender.items ↔ x ∈ p.sender.items)
  unqueued : ∀ x, x ∈ q.sender.items → x.id ∈ ids → x.queued = false

theorem dropFromQueue_dropsTo (id : Nat) (p : Part) : p.DropsTo [id] (p.dropFromQueue id) := by
  obtain ⟨absent, same⟩ | ⟨it, -, named, drop⟩ := dropFromQueue_cases id p
  · rw [same]
    refine ⟨.refl p, rfl, rfl, fun c => ⟨_, _, rfl⟩, fun _ _ => .rfl, fun x hx hid => ?_⟩
    exact absurd (List.mem_singleton.1 hid) (by simpa using List.find?_eq_none.1 absent x hx)
  · rw [drop]
    subst named
    refine ⟨itemDropped_sendsTo .., itemDropped_lanes .., itemDropped_store .., itemDropped_classes it p, fun x hx => ?_, fun x hx hid => ?_⟩
    · exact mem_itemDropped_other _ _ fun same => hx (List.mem_singleton.2 same)
    · exact (itemDropped_unqueued _ _ hx (List.mem_singleton.1 hid)).1

theorem Part.DropsTo.cons {id : Nat} {ids : List Nat} {p q r : Part} (h : p.DropsTo [id] q) (h' : q.DropsTo ids r) : p.DropsTo (id :: ids) r where
  sends := h.sends.trans h'.sends
  lanes := h'.lanes.trans h.lanes
  store := h'.store.trans h.store
  classes c := by
    obtain ⟨f, g, e⟩ := h.classes c
    obtain ⟨f', g', e'⟩ := h'.classes c
    exact ⟨f', g', by rw [e', e]⟩
  others x hx := by
    rw [List.mem_cons, not_or] at hx
    rw [h'.others x hx.2, h.others x (by simpa using hx.1)]
  unqueued x hx hid := by
    by_cases later : x.id ∈ ids
    · exact h'.unqueued x hx later
    · refine h.unqueued x ((h'.others x later).1 hx) (List.mem_singleton.2 ?_)
      exact (List.mem_cons.1 hid).resolve_right later

theorem dropsFromQueue_dropsTo (l : List Item) (p : Part) : p.DropsTo (l.map (·.id)) (l.foldl (fun p it => p.dropFromQueue it.id) p) := by
  induction l generalizing p with
  | nil => exact ⟨.refl p, rfl, rfl, fun c => ⟨_, _, rfl⟩, fun _ _ => .rfl, fun _ _ h => absurd h List.not_mem_nil⟩
  | cons it rest ih => exact (dropFromQueue_dropsTo it.id p).cons (ih _)

theorem mem_queueOf {x : Sender} {c : SendClass} {it : Item} : it ∈ x.queueOf c ↔ it ∈ x.items ∧ it.queued = true ∧ it.kind.cls = c := by
  rw [Sender.queueOf, List.mem_filter, Bool.and_eq_true, beq_iff_eq]

/-- Settles O46: FLUSH CLASS drops the items of the queue one by one; where no two items share a name each drop is of the item
itself, and in any case none of those names stays queued and no other item is touched. -/
theorem classCommandsSetAndFlush : Obligations.ClassCommandsSetAndFlush := by
  intro s
  refine ⟨?_, ?_⟩
  · intro i tag cls interval hold h run legal
    have ran : run = _ := exec_of_taken h rfl
    rw [ran]
    refine ⟨fun bad => next_becomes ?_, fun good c hc => ?_⟩
    · split
      · next c n hd hcls hf =>
        have := objectOf_lt hcls
        exact absurd ⟨by omega, (classFields_eq_some.1 hf).1⟩ bad
      · rfl
    · rw [objectOf_eq_some.2 hc, classFields_eq_some.2 ⟨good.2, rfl⟩]
      rfl
  · intro i tag cls h
    rw [exec_of_taken h rfl]
    refine ⟨fun bad => next_becomes ?_, ?_, fun c hc => ?_⟩
    · rw [objectOf_eq_none.2 bad]
      rfl
    · intro c hc distinct queue flushed
      rw [objectOf_eq_some.2 hc]
      have drops : queue.foldl (fun p it => p.dropFromQueue it.id) s.part.handEmpty = flushed.handEmpty := by
        refine (dropsFromQueue_eq queue s.part.handEmpty ?_ fun it hit => ?_).trans (itemsDropped_handEmpty queue s.part)
        · exact distinct.1.sublist (List.Sublist.map _ List.filter_sublist)
        · exact find_item distinct.1 (List.mem_filter.1 hit).1
      refine next_becomes ?_
      change ((queue.foldl (fun p it => p.dropFromQueue it.id) s.part.handEmpty).updClass c fun r =>
        { r with flushed := countBy queue.length r.flushed, wait := 0 }).finish i tag _ = _
      rw [drops]
      rfl
    · rw [objectOf_eq_some.2 hc]
      let queue := s.part.sender.queueOf (SendClass.ofIndex c)
      have drops := dropsFromQueue_dropsTo queue s.part.handEmpty
      let q := queue.foldl (fun p it => p.dropFromQueue it.id) s.part.handEmpty
      refine ⟨_, rfl, ?_, ?_, ?_, ?_, drops.store, drops.lanes, ?_⟩
      · refine List.eq_nil_iff_forall_not_mem.2 fun x hx => ?_
        obtain ⟨hx, queued, cls⟩ := mem_queueOf.1 hx
        have hx : x ∈ q.sender.items := hx
        have unnamed : x.id ∉ queue.map (·.id) := fun named => by
          rw [drops.unqueued x hx named] at queued
          cases queued
        exact unnamed (List.mem_map.2 ⟨x, mem_queueOf.2 ⟨(drops.others x unnamed).1 hx, queued, cls⟩, rfl⟩)
      · exact fun x hx apart => (drops.others x fun named => by
          obtain ⟨y, hy, same⟩ := List.mem_map.1 named
          exact apart y hy same).2 hx
      · change ((q.sender.classes.upd c _).nth c).wait = 0
        rw [Table.nth_upd_same]
      · obtain ⟨f, g, e⟩ := drops.classes c
        change ((q.sender.classes.upd c _).nth c).flushed = _
        rw [Table.nth_upd_same]
        change countBy queue.length (q.sender.classes.nth c).flushed = _
        rw [e]
        rfl
      · change q.cmd.completions ++ _ = _
        rw [drops.sends.completions]
        rfl

end Sys2Proof.Machine
end

section
/-! A lane emptied: LANE OFF (O48), and carrier, settling and the failure of a lane (O49). -/

namespace Sys2Proof.Machine

/-! The return of frames leaves the lanes and what the send engine's items do not touch (R143). -/

theorem fragmentEnds_sendsTo (id : Nat) (m : Settlement) (p : Part) : p.SendsTo (p.fragmentEnds id m) := by
  unfold Part.fragmentEnds
  split
  · exact .refl p
  · split
    · exact itemEnds_sendsTo ..
    · exact ⟨rfl, .refl _⟩

theorem fragmentEnds_lanes (id : Nat) (m : Settlement) (p : Part) : (p.fragmentEnds id m).lanes = p.lanes := by
  unfold Part.fragmentEnds
  split
  · rfl
  · split
    · exact itemEnds_lanes ..
    · rfl

theorem frameReturned_sendsTo (p : Part) (seq : Word) : p.SendsTo (p.frameReturned seq) := by
  unfold Part.frameReturned
  split
  · exact .refl p
  · next d found =>
    dsimp only
    split
    · exact ⟨rfl, .refl _⟩
    · split
      · have gone : p.SendsTo { p with sender := { p.sender with store := p.sender.store.filter fun x => x.seq != seq } } := ⟨rfl, .refl _⟩
        exact gone.trans (fragmentEnds_sendsTo ..)
      · exact ⟨rfl, .refl _⟩

theorem frameReturned_lanes (p : Part) (seq : Word) : (p.frameReturned seq).lanes = p.lanes := by
  unfold Part.frameReturned
  split
  · rfl
  · dsimp only
    split
    · rfl
    · split
      · exact fragmentEnds_lanes ..
      · rfl

theorem returnFrames_sendsTo (frames : List TxFrame) (p : Part) : p.SendsTo (p.returnFrames frames) := by
  rw [Part.returnFrames_eq]
  exact .foldl frameReturned_sendsTo _ p

theorem returnFrames_lanes (frames : List TxFrame) (p : Part) : (p.returnFrames frames).lanes = p.lanes := by
  rw [Part.returnFrames_eq, Part.framesReturned]
  generalize frames.filterMap _ = seqs
  induction seqs generalizing p with
  | nil => rfl
  | cons seq rest ih => exact (ih (p.frameReturned seq)).trans (frameReturned_lanes p seq)

/-- The notices of the frames a lane breaks off. -/
theorem breakOff_eq (l : Fin 4) (p : Part) : p.breakOff l = { p with
    outputs := p.outputs ++ (match (p.lanes.nth l).sending with | some (f, _) => [.frameBroken l f.kind] | none => []) } := by
  unfold Part.breakOff
  cases (p.lanes.nth l).sending with
  | none => exact congrArg (fun x => { p with outputs := x }) (List.append_nil p.outputs).symm
  | some x => rfl

/-! LANE OFF (R164). -/

/-- A lane cut off, its counters at 0. -/
def Lane.cutOff (r : Lane) (now : Nat) : Lane := { (r.cut now) with counts := ⟨0, 0, 0, 0, 0, 0⟩ }

theorem cutOff_eq (r : Lane) (now : Nat) : r.cutOff now = { r with
    state := .off, filterTimer := none, settleTimer := none, receive := .between
    breakEnd := if r.sending.isSome then some (now + 256 * (12 * r.cfg.divider)) else r.breakEnd
    sending := none, queue := [], fifo := [], returnHold := false, counts := ⟨0, 0, 0, 0, 0, 0⟩ } := by
  have period : r.breakTime = 256 * (12 * r.cfg.divider) := congrArg (256 * ·) (Nat.mul_comm _ _)
  rw [Lane.cutOff, Lane.cut, period]

section

variable (l : Fin 4) (p : Part)

/-- The part with a lane cut off and its frame broken off, before its frames are returned. -/
def Part.cutOff : Part := (p.breakOff l).updLane l fun r => r.cutOff p.now

theorem turnOff_eq : p.turnOff l = (p.cutOff l).returnFrames (p.lanes.nth l).held := rfl

theorem cutOff_kept : p.cutOff l = { p with
    outputs := (p.cutOff l).outputs, lanes := p.lanes.put l ((p.lanes.nth l).cutOff p.now) } := by
  rw [Part.cutOff, breakOff_eq]
  rfl

theorem turnOff_lanes : (p.turnOff l).lanes = p.lanes.put l ((p.lanes.nth l).cutOff p.now) := by
  rw [turnOff_eq, returnFrames_lanes, cutOff_kept]

theorem turnOff_path : (p.turnOff l).path = p.path := by
  rw [turnOff_eq, (returnFrames_sendsTo ..).path, cutOff_kept]

theorem turnOff_completions : (p.turnOff l).cmd.completions = p.cmd.completions := by
  rw [turnOff_eq, (returnFrames_sendsTo ..).completions, cutOff_kept]

theorem turnOff_deferred : (p.turnOff l).cmd.deferred = p.cmd.deferred := by
  rw [turnOff_eq, (returnFrames_sendsTo ..).deferred, cutOff_kept]

theorem turnOff_returns : p.sender.returns (p.lanes.nth l).held (p.turnOff l).sender := by
  have same : p.sender = (p.cutOff l).sender := by rw [cutOff_kept]
  rw [same]
  exact Part.returns_returnFrames ..

end

theorem completeDeferred_of_none {p : Part} {k : DeferredKind} (h : p.noneOutstanding k) : p.completeDeferred k .done = p := by
  have absent : (p.cmd.deferred.find? fun d => d.kind == k) = none := List.find?_eq_none.2 fun d hd => by simpa using h d hd
  rw [Part.completeDeferred, absent]

/-- The end of the break a lane sends: R161 applies, and then a LANE OFF completes. -/
theorem breakSentEnd_of_break {p : Part} {l : Fin 4} {e : Nat} (h : (p.lanes.nth l).breakEnd = some e) : p.breakSentEnd l =
    (((p.reach e).updLane l fun r => { r with breakEnd := none }).transmitStart l).completeDeferred (.laneOff l) .done := by
  rw [Part.breakSentEnd, h]

theorem transmitStart_cmd (l : Fin 4) (p : Part) : (p.transmitStart l).cmd = p.cmd := by rw [Part.transmitStart_frame]

/-- Settles O48: LANE OFF is `Part.turnOff`, whose frames return to the store, and the break's end lets R161 apply before the
command completes. -/
theorem laneOffEmptiesTheLane : Obligations.LaneOffEmptiesTheLane := by
  intro s
  refine ⟨?_, ?_⟩
  · intro i tag lane h
    rw [exec_of_taken h rfl]
    refine ⟨fun bad => next_becomes ?_, fun l hl => ?_⟩
    · rw [objectOf_eq_none.2 bad]
      rfl
    · rw [objectOf_eq_some.2 hl]
      refine ⟨fun busy => next_becomes (if_pos ((outstanding_eq_true ..).2 busy)), ?_⟩
      intro quiet r ending
      have quiet : ¬ s.part.handEmpty.outstanding (.laneOff l) = true := fun busy => (outstanding_eq_true ..).1 busy quiet
      let p := s.part.handEmpty.turnOff l
      have lanes : p.lanes = s.part.lanes.put l (r.cutOff s.part.now) := turnOff_lanes l s.part.handEmpty
      have ends : (p.lanes.nth l).breakEnd = ending := by
        rw [lanes, Table.nth_put_same, cutOff_eq]
      refine ⟨s.becomes (if (p.lanes.nth l).breakEnd.isSome then p.defer i tag (.laneOff l) else p.finish i tag []),
        next_becomes (if_neg quiet), ?_⟩
      rw [ends, ← cutOff_eq]
      obtain broken | still := Option.eq_none_or_eq_some ending |>.symm
      · obtain ⟨e, he⟩ := broken
        rw [he]
        refine ⟨lanes, nofun, fun _ => ?_, turnOff_returns l s.part.handEmpty, turnOff_path l s.part.handEmpty, rfl⟩
        exact congrArg (· ++ [_]) (turnOff_deferred l s.part.handEmpty)
      · rw [still]
        refine ⟨lanes, fun _ => ?_, fun n => absurd rfl n, turnOff_returns l s.part.handEmpty, turnOff_path l s.part.handEmpty, rfl⟩
        exact congrArg (· ++ [_]) (turnOff_completions l s.part.handEmpty)
  · intro l e broken done'
    have begins := Part.begins_transmitStart l done'
    have ran : exec (.breakSentEnd l) s = .next (s.becomes ((done'.transmitStart l).completeDeferred (.laneOff l) .done)) :=
      next_becomes (breakSentEnd_of_break broken)
    rw [ran]
    refine ⟨fun d named awaits => ⟨_, rfl, ?_⟩, fun quiet => ⟨_, rfl, ?_⟩⟩
    · have awaits : (done'.transmitStart l).cmd.awaits d := by rw [transmitStart_cmd]; exact awaits
      rw [← named, completeDeferred_of_awaits awaits, transmitStart_cmd]
      exact Part.begins_setCmd _ begins
    · have quiet : (done'.transmitStart l).noneOutstanding (.laneOff l) := by
        unfold Part.noneOutstanding
        rw [transmitStart_cmd]
        exact quiet
      rw [completeDeferred_of_none quiet]
      exact begins

/-! Carrier and settling (R158, R159). -/

section

variable {p : Part} {l : Fin 4}

/-- Two changes of one lane are one. -/
theorem updLane_updLane (l : Fin 4) (f g : Lane → Lane) (p : Part) : (p.updLane l f).updLane l g = p.updLane l fun r => g (f r) := by
  change p.setLanes ((p.lanes.put l (f (p.lanes.nth l))).put l (g ((p.lanes.put l (f (p.lanes.nth l))).nth l))) = _
  rw [Table.put_put, Table.nth_put_same]
  rfl

theorem updLane_nth (l : Fin 4) (f : Lane → Lane) (p : Part) : (p.updLane l f).lanes.nth l = f (p.lanes.nth l) := Table.nth_put_same ..

theorem carrierChange_same {present : Bool} (h : (p.lanes.nth l).state = .off ∨ (p.lanes.nth l).carrier = present) :
    p.carrierChange l present = p.updLane l fun r => { r with carrier := present } := if_pos h

section

variable {present : Bool} (on : (p.lanes.nth l).state ≠ .off) (changed : (p.lanes.nth l).carrier ≠ present)
include on changed

theorem carrierChange_filtered {w : Nat} (width : (p.lanes.nth l).cfg.filter.width = some w) : p.carrierChange l present =
    p.updLane l fun r => { r with
      carrier := present, filterTimer := if present = (p.lanes.nth l).filtered then none else some (p.now + w) } := by
  refine (if_neg (not_or.2 ⟨on, changed⟩)).trans ?_
  rw [width]
  exact updLane_updLane ..

theorem carrierChange_followed (filter : (p.lanes.nth l).cfg.filter = .none) : p.carrierChange l present =
    (p.updLane l fun r => { r with carrier := present }).filteredCarrier l present := by
  refine (if_neg (not_or.2 ⟨on, changed⟩)).trans ?_
  rw [filter]
  rfl

end

/-- A filtered carrier that comes to a lane that waits starts the settle timer. -/
theorem filteredCarrier_waits (h : (p.lanes.nth l).state = .waitCarrier ∨ (p.lanes.nth l).state = .down) : p.filteredCarrier l true =
    p.updLane l fun r => { r with filtered := true, filterTimer := none, settleTimer := some (p.now + Config.settleTime) } :=
  (if_pos h).trans (updLane_updLane ..)

theorem filteredCarrier_stays (h : (p.lanes.nth l).state = .up ∨ (p.lanes.nth l).state = .off) : p.filteredCarrier l true =
    p.updLane l fun r => { r with filtered := true, filterTimer := none } := by
  refine if_neg ?_
  rintro (wait | down) <;> obtain up | off := h <;> simp_all

theorem filteredCarrier_goes (h : (p.lanes.nth l).state ≠ .up) : p.filteredCarrier l false =
    p.updLane l fun r => { r with filtered := false, filterTimer := none, settleTimer := none } :=
  (if_neg h).trans (updLane_updLane ..)

theorem filteredCarrier_fails (h : (p.lanes.nth l).state = .up) : p.filteredCarrier l false =
    (p.updLane l fun r => { r with filtered := false, filterTimer := none, settleTimer := none }).laneFail l :=
  (if_pos h).trans (congrArg (Part.laneFail l) (updLane_updLane ..))

theorem filterExpiry_of_none (h : (p.lanes.nth l).filterTimer = none) : p.filterExpiry l = p := by
  rw [Part.filterExpiry, h]

theorem filterExpiry_of_some {t : Nat} (h : (p.lanes.nth l).filterTimer = some t) :
    p.filterExpiry l = (p.reach t).filteredCarrier l (p.lanes.nth l).carrier := by
  rw [Part.filterExpiry, h]

theorem settleExpiry_of_none (h : (p.lanes.nth l).settleTimer = none) : p.settleExpiry l = p := by
  rw [Part.settleExpiry, h]

theorem settleExpiry_of_some {t : Nat} (h : (p.lanes.nth l).settleTimer = some t) : p.settleExpiry l =
    (((p.reach t).updLane l fun r => { r with state := .up, settleTimer := none }).transmitStart l).raise .lane l.val := by
  rw [Part.settleExpiry, h]

/-- A break received on a lane that is on and not in one already (R165). -/
theorem breakReceived_eq {afterRun : Bool} (on : (p.lanes.nth l).state ≠ .off) (fresh : (p.lanes.nth l).receive ≠ .inBreak) :
    p.breakReceived l afterRun =
      let p1 := p.updLane l fun r => { (r.endReceive afterRun) with receive := .inBreak, settleTimer := none }
      if (p.lanes.nth l).state = .up then p1.laneFail l else p1 := if_neg (not_or.2 ⟨on, fresh⟩)

/-- A break adds a framing error for what the receive path was doing. -/
theorem endReceive_eq {r : Lane} {afterRun : Bool} (fresh : r.receive ≠ .inBreak) : r.endReceive afterRun = { r with
    counts := if r.receive = .gathering ∨ afterRun = true then
      { r.counts with framingErrors := count r.counts.framingErrors } else r.counts } := by
  have doing : r.receive = .gathering ∨ (r.receive = .between ∧ afterRun = true) ↔ r.receive = .gathering ∨ afterRun = true := by
    cases h : r.receive with
    | inBreak => exact absurd h fresh
    | gathering => simp
    | between => simp
  unfold Lane.endReceive Lane.countFraming
  by_cases h : r.receive = .gathering ∨ afterRun = true
  · rw [if_pos (doing.2 h), if_pos h]
  · rw [if_neg (mt doing.1 h), if_neg h]

/-- A lane in UP fails (R160). -/
theorem laneFail_eq (l : Fin 4) (p : Part) : p.laneFail l = Part.raise .lane l.val (Part.framesReturned { p with
    outputs := p.outputs ++ (match (p.lanes.nth l).sending with | some (f, _) => [.frameBroken l f.kind] | none => [])
    lanes := p.lanes.put l { (p.lanes.nth l) with
      state := .down, queue := [], sending := none, settleTimer := none
      counts := { (p.lanes.nth l).counts with carrierLosses := count (p.lanes.nth l).counts.carrierLosses } } }
    (p.lanes.nth l).held) := by
  rw [← Part.returnFrames_eq]
  unfold Part.laneFail
  rw [breakOff_eq]
  rfl

theorem held_congr {a b : Lane} (sending : a.sending = b.sending) (queue : a.queue = b.queue) : a.held = b.held := by
  rw [Lane.held, Lane.held, sending, queue]

/-- What a change of the lane that brings about its failure leaves of it, where its frames stand. -/
theorem laneFail_updLane (l : Fin 4) (p : Part) (f : Lane → Lane) (sending : (f (p.lanes.nth l)).sending = (p.lanes.nth l).sending)
    (queue : (f (p.lanes.nth l)).queue = (p.lanes.nth l).queue) :
    (p.updLane l f).laneFail l = Part.raise .lane l.val (Part.framesReturned { p with
      outputs := p.outputs ++ (match (p.lanes.nth l).sending with | some (f, _) => [.frameBroken l f.kind] | none => [])
      lanes := p.lanes.put l { (f (p.lanes.nth l)) with
        state := .down, queue := [], sending := none, settleTimer := none
        counts := { (f (p.lanes.nth l)).counts with carrierLosses := count (f (p.lanes.nth l)).counts.carrierLosses } } }
      (p.lanes.nth l).held) := by
  have held := held_congr sending queue
  rw [laneFail_eq, updLane_nth, held, sending]
  change Part.raise .lane l.val (Part.framesReturned { p with
    outputs := _, lanes := (p.lanes.put l (f (p.lanes.nth l))).put l _ } _) = _
  rw [Table.put_put]
  rfl

/-- A lane's failure raises its notice, and its frames' descriptors are returned. -/
theorem laneFail_returns (l : Fin 4) (p : Part) : (Cause.lane, l.val) ∈ (p.laneFail l).cmd.notices ∧
    p.sender.returns (p.lanes.nth l).held (p.laneFail l).sender := by
  rw [laneFail_eq, ← Part.returnFrames_eq, raise_eq]
  exact ⟨(mem_raised ..).2 (.inl rfl), Part.returns_returnFrames ..⟩

end

section

variable {p : Part} {l : Fin 4} (filter : (p.lanes.nth l).cfg.filter = .none)
include filter

section

variable (waits : (p.lanes.nth l).state = .waitCarrier ∨ (p.lanes.nth l).state = .down)
include waits

/-- With the filter OFF a lane that waits follows its input. -/
theorem carrierChange_comes (low : (p.lanes.nth l).carrier = false) : p.carrierChange l true = p.updLane l fun r => { r with
    carrier := true, filtered := true, filterTimer := none, settleTimer := some (p.now + Config.settleTime) } := by
  have on : (p.lanes.nth l).state ≠ .off := by obtain h | h := waits <;> rw [h] <;> decide
  rw [carrierChange_followed on (by rw [low]; decide) filter, filteredCarrier_waits (by rw [updLane_nth]; exact waits)]
  exact updLane_updLane ..

theorem carrierChange_leaves (high : (p.lanes.nth l).carrier = true) : p.carrierChange l false = p.updLane l fun r => { r with
    carrier := false, filtered := false, filterTimer := none, settleTimer := none } := by
  have on : (p.lanes.nth l).state ≠ .off := by obtain h | h := waits <;> rw [h] <;> decide
  have notUp : (p.lanes.nth l).state ≠ .up := by obtain h | h := waits <;> rw [h] <;> decide
  rw [carrierChange_followed on (by rw [high]; decide) filter, filteredCarrier_goes (by rw [updLane_nth]; exact notUp)]
  exact updLane_updLane ..

end

variable (up : (p.lanes.nth l).state = .up)
include up

theorem carrierChange_returns (low : (p.lanes.nth l).carrier = false) : p.carrierChange l true = p.updLane l fun r => { r with
    carrier := true, filtered := true, filterTimer := none } := by
  rw [carrierChange_followed (by rw [up]; decide) (by rw [low]; decide) filter,
    filteredCarrier_stays (by rw [updLane_nth]; exact .inl up)]
  exact updLane_updLane ..

theorem carrierChange_fails (high : (p.lanes.nth l).carrier = true) : p.carrierChange l false = (p.updLane l fun r => { r with
    carrier := false, filtered := false, filterTimer := none, settleTimer := none }).laneFail l := by
  rw [carrierChange_followed (by rw [up]; decide) (by rw [high]; decide) filter, filteredCarrier_fails (by rw [updLane_nth]; exact up)]
  exact congrArg (Part.laneFail l) (updLane_updLane ..)

end

/-- A lane with its hold flag set begins nothing. -/
theorem transmitStart_of_hold {p : Part} {l : Fin 4} (h : (p.lanes.nth l).modemHold = true) : p.transmitStart l = p :=
  (Part.begins_transmitStart l p).1 (.inr (.inr (.inl h)))

/-- Settles O49: a change of the input goes through the filter, or is followed at once; `Part.laneFail` is the failure of a lane,
whatever brought it about. -/
theorem aLaneComesUpAndFails : Obligations.ALaneComesUpAndFails := by
  refine ⟨?_, ?_⟩
  · intro s l r later
    refine ⟨fun dt present h => next_becomes (carrierChange_same (p := s.part.after dt) h), fun dt present w on changed width =>
      next_becomes (carrierChange_filtered (p := s.part.after dt) on changed width), fun dt waits low filter =>
      next_becomes (carrierChange_comes (p := s.part.after dt) filter waits low), fun dt waits high filter =>
      next_becomes (carrierChange_leaves (p := s.part.after dt) filter waits high), fun dt up low filter =>
      next_becomes (carrierChange_returns (p := s.part.after dt) filter up low), fun h => next_becomes (filterExpiry_of_none h),
      fun h => next_becomes (settleExpiry_of_none h), ?_, fun t h => ?_, fun dt => ?_, fun dt => ?_⟩
    · intro t h at'
      have ran (c : Bool) (hc : r.carrier = c) : exec (.carrierFilterExpiry l) s =
          .next (s.becomes ((s.part.reach t).filteredCarrier l c)) := by
        rw [← hc]
        exact next_becomes (filterExpiry_of_some h)
      refine ⟨fun waits high => ?_, fun stays high => ?_, fun notUp low => ?_⟩
      · exact (ran true high).trans (next_becomes (filteredCarrier_waits (p := s.part.reach t) waits))
      · exact (ran true high).trans (next_becomes (filteredCarrier_stays (p := s.part.reach t) stays))
      · exact (ran false low).trans (next_becomes (filteredCarrier_goes (p := s.part.reach t) notUp))
    · exact ⟨_, next_becomes (settleExpiry_of_some h), Part.begins_transmitStart ..⟩
    · refine next_becomes (transmitStart_of_hold (p := (s.part.after dt).updLane l fun r => { r with modemHold := true }) ?_)
      rw [updLane_nth]
    · exact ⟨_, rfl, Part.begins_transmitStart ..⟩
  · intro s l up r fails
    have failed {c : Instr} {time : Nat} {f : Lane → Lane}
        (ran : exec c s = .next (s.becomes (((s.part.setNow time).updLane l f).laneFail l)))
        (sending : (f r).sending = r.sending) (queue : (f r).queue = r.queue) : fails c time (f r) := by
      refine ⟨_, ran, congrArg s.becomes (laneFail_updLane l (s.part.setNow time) f sending queue), ?_⟩
      have returned := laneFail_returns l ((s.part.setNow time).updLane l f)
      have held : (((s.part.setNow time).updLane l f).lanes.nth l).held = r.held := by
        rw [updLane_nth]
        exact held_congr sending queue
      rw [held] at returned
      exact returned
    refine ⟨fun t h low => ?_, fun dt filter high => ?_, fun dt afterRun fresh => ?_⟩
    · have ran : exec (.carrierFilterExpiry l) s = .next (s.becomes ((s.part.reach t).filteredCarrier l r.carrier)) :=
        next_becomes (filterExpiry_of_some h)
      rw [low, filteredCarrier_fails (p := s.part.reach t) up] at ran
      exact failed ran rfl rfl
    · have ran : exec (.carrierChange dt l false) s = .next (s.becomes ((s.part.after dt).carrierChange l false)) := rfl
      rw [carrierChange_fails (p := s.part.after dt) filter up high] at ran
      exact failed ran rfl rfl
    · have on : ((s.part.after dt).lanes.nth l).state ≠ .off := fun off => absurd (up.symm.trans off) nofun
      have ran : exec (.breakReceived dt l afterRun) s = .next (s.becomes (((s.part.after dt).updLane l fun r =>
          { (r.endReceive afterRun) with receive := .inBreak, settleTimer := none }).laneFail l)) :=
        next_becomes ((breakReceived_eq (p := s.part.after dt) on fresh).trans (if_pos up))
      have doing : fails (.breakReceived dt l afterRun) (s.part.now + dt)
          { (r.endReceive afterRun) with receive := .inBreak, settleTimer := none } :=
        failed ran (by rw [endReceive_eq fresh]) (by rw [endReceive_eq fresh])
      rw [endReceive_eq fresh] at doing
      exact doing

end Sys2Proof.Machine
end

section
/-! The receive path of a lane, and the layout of return messages (O51). -/

namespace Sys2Proof.Machine

/-! Bytes and the numbers they spell. -/

theorem leNat_leBytes (k n : Nat) : leNat (leBytes k n) = n % 256 ^ k := by
  induction k generalizing n with
  | zero => exact (Nat.mod_one n).symm
  | succ k ih =>
    rw [leBytes, leNat, ih, BitVec.toNat_ofNat, show 256 ^ (k + 1) = 256 * 256 ^ k from Nat.pow_succ']
    exact Nat.mod_mul.symm

theorem ofNat_leNat_word (w : Word) : BitVec.ofNat 32 (leNat (leBytes 4 w.toNat)) = w := by
  rw [leNat_leBytes, Nat.mod_eq_of_lt (show w.toNat < 256 ^ 4 from w.isLt), BitVec.ofNat_toNat, BitVec.setWidth_eq]

/-! What a gathered message reads as (R166, 12.5). -/

section

variable {kind station : Byte} {fields : List Byte} {c : Word}

/-- A message of the length its kind fixes, whose kind is known: marker, kind, station and fields, then the check. -/
theorem readMessage_laid (known : kind.toNat ≤ 2) (length : fields.length + 8 = messageLength kind) :
    readMessage ([0x5A, 0xA5, kind, station] ++ fields ++ word c) =
      if word (crc ([kind, station] ++ fields)) ≠ word c then .check
      else if kind = 0 then .good ⟨station.toNat, .receipt (BitVec.ofNat 32 (leNat ((fields ++ word c).take 4)))
        (BitVec.ofNat 32 (leNat (((fields ++ word c).drop 4).take 4)))⟩
      else if kind = 1 then .good ⟨station.toNat, .resend (BitVec.ofNat 32 (leNat ((fields ++ word c).take 4)))⟩
      else .good ⟨station.toNat, .laneTest (BitVec.ofNat 32 (leNat ((fields ++ word c).take 4)))⟩ := by
  have four : (word c).length = 4 := leBytes_length ..
  have whole : (([0x5A, 0xA5, kind, station] : List Byte) ++ fields ++ word c).length = messageLength kind := by
    rw [List.length_append, List.length_append, four, ← length]
    simp only [List.length_cons, List.length_nil]
    omega
  have covered : ((([0x5A, 0xA5, kind, station] : List Byte) ++ fields ++ word c).drop 2).take (messageLength kind - 6) =
      [kind, station] ++ fields := by
    rw [← length]
    change (([kind, station] ++ fields) ++ word c).take (fields.length + 8 - 6) = _
    exact List.take_left' (by simp)
  have check : (([0x5A, 0xA5, kind, station] : List Byte) ++ fields ++ word c).drop (messageLength kind - 4) = word c := by
    rw [← length]
    exact List.drop_left' (by simp)
  have marked : ¬ ((0x5A : Byte) ≠ 0x5A ∨ (0xA5 : Byte) ≠ 0xA5 ∨ 2 < kind.toNat) := by simp [known]
  change (if (([0x5A, 0xA5, kind, station] : List Byte) ++ fields ++ word c).length ≠ messageLength kind then Reading.incomplete
    else _) = _
  rw [if_neg (not_not_intro whole), if_neg marked, whole, covered, check]
  rfl

end

section

variable (station : Byte) (a b : Word)

theorem take_word (w : Word) (rest : List Byte) : (leBytes 4 w.toNat ++ rest).take 4 = leBytes 4 w.toNat :=
  List.take_left' (leBytes_length ..)

theorem drop_word (w : Word) (rest : List Byte) : (leBytes 4 w.toNat ++ rest).drop 4 = rest :=
  List.drop_left' (leBytes_length ..)

theorem readMessage_receipt : readMessage ([0x5A, 0xA5] ++ ([0, station] ++ leBytes 4 a.toNat ++ leBytes 4 b.toNat) ++
    leBytes 4 (crc ([0, station] ++ leBytes 4 a.toNat ++ leBytes 4 b.toNat)).toNat) = .good ⟨station.toNat, .receipt a b⟩ := by
  refine (readMessage_laid (kind := 0) (fields := leBytes 4 a.toNat ++ leBytes 4 b.toNat) (by decide)
    (by simp [messageLength])).trans ?_
  rw [if_neg (not_not_intro (by rw [List.append_assoc])), if_pos rfl, List.append_assoc, take_word, drop_word, take_word, ofNat_leNat_word,
    ofNat_leNat_word]

theorem readMessage_resend : readMessage ([0x5A, 0xA5] ++ ([1, station] ++ leBytes 4 a.toNat) ++
    leBytes 4 (crc ([1, station] ++ leBytes 4 a.toNat)).toNat) = .good ⟨station.toNat, .resend a⟩ := by
  refine (readMessage_laid (kind := 1) (fields := leBytes 4 a.toNat) (by decide) (by simp [messageLength])).trans ?_
  rw [if_neg (not_not_intro rfl), if_neg (by decide), if_pos rfl, take_word, ofNat_leNat_word]

theorem readMessage_laneTest : readMessage ([0x5A, 0xA5] ++ ([2, station] ++ leBytes 4 a.toNat) ++
    leBytes 4 (crc ([2, station] ++ leBytes 4 a.toNat)).toNat) = .good ⟨station.toNat, .laneTest a⟩ := by
  refine (readMessage_laid (kind := 2) (fields := leBytes 4 a.toNat) (by decide) (by simp [messageLength])).trans ?_
  rw [if_neg (not_not_intro rfl), if_neg (by decide), if_neg (by decide), take_word, ofNat_leNat_word]

theorem readMessage_check {c : Word} (wrong : c ≠ crc ([1, station] ++ leBytes 4 a.toNat)) :
    readMessage ([0x5A, 0xA5, 1, station] ++ leBytes 4 a.toNat ++ leBytes 4 c.toNat) = .check := by
  refine (readMessage_laid (kind := 1) (fields := leBytes 4 a.toNat) (by decide) (by simp [messageLength])).trans (if_pos fun same => ?_)
  apply wrong
  rw [← ofNat_leNat_word c, ← ofNat_leNat_word (crc ([1, station] ++ leBytes 4 a.toNat))]
  exact congrArg (fun l => BitVec.ofNat 32 (leNat l)) same.symm

end

/-- The check takes the bits of all bytes one after the other (R193). -/
theorem crc_eq (bytes : List Byte) : crc bytes = ~~~ (bytes.flatMap fun b => (List.range 8).map fun i => b.getLsbD i).foldl
    (fun (r : Word) bit => if r.getLsbD 0 ≠ bit then (r >>> 1) ^^^ 0xEDB88320#32 else r >>> 1) 0xFFFFFFFF#32 := by
  have bit : crcBit = fun (r : Word) bit => if r.getLsbD 0 ≠ bit then (r >>> 1) ^^^ 0xEDB88320#32 else r >>> 1 := by
    funext r b
    simp only [crcBit, bne_iff_ne]
    rfl
  rw [List.foldl_flatMap, crc, ← bit]
  have byte : crcByte = fun c (b : Byte) => ((List.range 8).map fun i => b.getLsbD i).foldl crcBit c := by
    funext c b
    rw [crcByte, List.foldl_map]
  rw [byte]
  rfl

/-! The receive path (R165 to R167). -/

section

variable {r : Lane}

theorem beginMessage_of_between (on : r.state ≠ .off) (h : r.receive = .between) (afterRun : Bool) : r.beginMessage afterRun = { r with
    receive := .gathering
    counts := if afterRun then { r.counts with framingErrors := count r.counts.framingErrors } else r.counts } := by
  unfold Lane.beginMessage Lane.countFraming
  rw [if_pos ⟨h, on⟩]
  cases afterRun <;> rfl

theorem enterFifo_of_lt {m : ReturnMessage} (room : r.fifo.length < r.cfg.depth) : r.enterFifo m = { r with
    fifo := r.fifo ++ [m]
    returnHold := if r.cfg.policy = .holdOff then r.returnHold || decide (r.cfg.depth ≤ r.fifo.length + 1) else r.returnHold } := by
  unfold Lane.enterFifo
  rw [if_pos room]
  cases r.cfg.policy <;> rfl

theorem enterFifo_of_le {m : ReturnMessage} (full : r.cfg.depth ≤ r.fifo.length) :
    r.enterFifo m = { r with counts := { r.counts with overruns := count r.counts.overruns } } := if_neg (Nat.not_lt.2 full)

section

variable {bytes : List Byte} (on : r.state ≠ .off) (gathering : r.receive = .gathering)
include on gathering

theorem messageEnd_framing (h : readMessage bytes = .framing) : r.messageEnd bytes = { r.countFraming with receive := .between } := by
  rw [Lane.messageEnd, if_pos ⟨gathering, on⟩, h]

theorem messageEnd_check (h : readMessage bytes = .check) : r.messageEnd bytes =
    { r with receive := .between, counts := { r.counts with checkErrors := count r.counts.checkErrors } } := by
  rw [Lane.messageEnd, if_pos ⟨gathering, on⟩, h]

theorem messageEnd_good {m : ReturnMessage} (h : readMessage bytes = .good m) :
    r.messageEnd bytes = { (r.enterFifo m) with receive := .between } := by
  rw [Lane.messageEnd, if_pos ⟨gathering, on⟩, h]

end

/-- The settle timer of a lane that waits starts as a break's end finds its carrier there. -/
theorem breakOver_of_inBreak (on : r.state ≠ .off) (h : r.receive = .inBreak) (now : Nat) : r.breakOver now = { r with
    receive := .between
    settleTimer := if r.filtered = true ∧ r.state ≠ .up then some (now + 300000000) else r.settleTimer } := if_pos ⟨h, on⟩

end

/-- A step that changes one lane. -/
theorem updLane_eq {p : Part} {l : Fin 4} {f : Lane → Lane} {x : Lane} (h : f (p.lanes.nth l) = x) :
    p.updLane l f = p.setLanes (p.lanes.put l x) := by
  rw [← h]
  rfl

theorem laneFail_lanes (l : Fin 4) (p : Part) : (p.laneFail l).lanes = p.lanes.put l { (p.lanes.nth l) with
    state := .down, queue := [], sending := none, settleTimer := none
    counts := { (p.lanes.nth l).counts with carrierLosses := count (p.lanes.nth l).counts.carrierLosses } } := by
  rw [laneFail_eq, Part.raise_lanes, ← Part.returnFrames_eq, returnFrames_lanes]

/-- Settles O51: each event of the receive path by what the lane was doing, and a message by its layout. -/
theorem returnMessagesAreReadAndGathered : Obligations.ReturnMessagesAreReadAndGathered := by
  refine ⟨?_, ?_, crc_eq, by decide +kernel⟩
  case refine_2 =>
    intro station a b sealed
    exact ⟨readMessage_receipt station a b, readMessage_resend station a, readMessage_laneTest station a, fun c => readMessage_check station a⟩
  intro s l dt r later framed
  refine ⟨fun on between afterRun => ?_, fun on gathering => ⟨fun bytes h => ?_, fun bytes h => ?_, fun bytes m h => ⟨fun room => ?_,
    fun full => ?_⟩⟩, fun afterRun waits fresh => ?_, fun afterRun up fresh => ?_, fun afterRun deaf => ?_, fun on inBreak => ?_⟩
  · exact next_becomes (updLane_eq (p := s.part.after dt) (beginMessage_of_between on between afterRun))
  · exact next_becomes (updLane_eq (p := s.part.after dt) (messageEnd_framing on gathering h))
  · exact next_becomes (updLane_eq (p := s.part.after dt) (messageEnd_check on gathering h))
  · refine next_becomes (updLane_eq (p := s.part.after dt) ((messageEnd_good on gathering h).trans ?_))
    rw [enterFifo_of_lt room]
  · refine next_becomes (updLane_eq (p := s.part.after dt) ((messageEnd_good on gathering h).trans ?_))
    rw [enterFifo_of_le full]
  · have on : ((s.part.after dt).lanes.nth l).state ≠ .off := by obtain h | h := waits <;> exact fun off => absurd (h.symm.trans off) nofun
    have notUp : ((s.part.after dt).lanes.nth l).state ≠ .up := by obtain h | h := waits <;> exact fun up => absurd (h.symm.trans up) nofun
    refine next_becomes ((breakReceived_eq (p := s.part.after dt) on fresh).trans ((if_neg notUp).trans
      (updLane_eq (p := s.part.after dt) ?_)))
    rw [endReceive_eq (r := (s.part.after dt).lanes.nth l) fresh]
    rfl
  · have on : ((s.part.after dt).lanes.nth l).state ≠ .off := fun off => absurd (up.symm.trans off) nofun
    refine ⟨_, next_becomes ((breakReceived_eq (p := s.part.after dt) on fresh).trans (if_pos up)), ?_⟩
    change (((Part.laneFail l _).lanes.nth l)).receive = _ ∧ (((Part.laneFail l _).lanes.nth l)).fifo = _ ∧
      (((Part.laneFail l _).lanes.nth l)).counts = _
    rw [laneFail_lanes, Table.nth_put_same, updLane_nth, endReceive_eq (r := (s.part.after dt).lanes.nth l) fresh]
    refine ⟨rfl, rfl, ?_⟩
    by_cases counted : r.receive = .gathering ∨ afterRun = true
    · rw [if_pos counted, if_pos (show ((s.part.after dt).lanes.nth l).receive = .gathering ∨ afterRun = true from counted)]
      rfl
    · rw [if_neg counted, if_neg (show ¬ (((s.part.after dt).lanes.nth l).receive = .gathering ∨ afterRun = true) from counted)]
      rfl
  · refine next_becomes ((if_pos deaf).trans ?_)
    change _ = (s.part.after dt).setLanes (s.part.lanes.put l (s.part.lanes.nth l))
    rw [Table.put_nth]
    rfl
  · exact next_becomes (updLane_eq (p := s.part.after dt) (breakOver_of_inBreak on inBreak (s.part.now + dt)))

end Sys2Proof.Machine
end

section
/-! What the settlement of a descriptor makes of the send engine (R142, R145, R148), and the messages taken from a lane's FIFO (O45). -/

namespace Sys2Proof.Machine

/-! The settlement of a descriptor. -/

section

variable (d : Descriptor) (m : Settlement) (id : Nat) (p : Part)

theorem fragmentEnds_store : (p.fragmentEnds id m).sender.store = p.sender.store := by
  unfold Part.fragmentEnds
  split
  · rfl
  · split <;> rfl

theorem fragmentEnds_counts : (p.fragmentEnds id m).sender.counts = p.sender.counts := by
  unfold Part.fragmentEnds
  split
  · rfl
  · split <;> rfl

/-- Only the counts of ended items rise in the class records. -/
theorem fragmentEnds_classes (c : Fin 4) : ∃ f g, (p.fragmentEnds id m).sender.classes.nth c =
    { (p.sender.classes.nth c) with failed := f, finished := g } := by
  unfold Part.fragmentEnds
  split
  · exact ⟨_, _, rfl⟩
  · next it found =>
    split
    · rw [itemEnds_classes, Table.upd, Table.nth_put]
      split
      · next same =>
        rw [← same]
        split <;> exact ⟨_, _, rfl⟩
      · exact ⟨_, _, rfl⟩
    · exact ⟨_, _, rfl⟩

/-- The store once a descriptor is settled: it keeps its place, marked, while its frame is being built or sent. -/
def settledStore (store : List Descriptor) : List Descriptor :=
  if d.state = .building ∨ d.state = .transmitting then store.map fun x => if x.seq = d.seq then { x with mark := some m } else x
  else store.filter fun x => x.seq != d.seq

/-- The lanes once a descriptor is settled: a frame that waits in a queue leaves it. -/
def settledLanes (lanes : Table Lane 4) : Table Lane 4 :=
  if d.state = .queuedOnLane then lanes.each fun l => { l with queue := l.queue.filter fun f => f.kind != .link d.seq } else lanes

theorem settles_eq : p.settles d m = Part.fragmentEnds d.item m { p with
    lanes := settledLanes d p.lanes, sender := { p.sender with store := settledStore d m p.sender.store } } := rfl

theorem settles_store : (p.settles d m).sender.store = settledStore d m p.sender.store := by rw [settles_eq, fragmentEnds_store]

theorem settles_lanes : (p.settles d m).lanes = settledLanes d p.lanes := by rw [settles_eq, fragmentEnds_lanes]

theorem settles_counts : (p.settles d m).sender.counts = p.sender.counts := by rw [settles_eq, fragmentEnds_counts]

theorem settles_classes (c : Fin 4) : ∃ f g, (p.settles d m).sender.classes.nth c =
    { (p.sender.classes.nth c) with failed := f, finished := g } := by
  rw [settles_eq]
  exact fragmentEnds_classes ..

theorem settles_sendsTo : p.SendsTo (p.settles d m) := by
  rw [settles_eq]
  exact Part.SendsTo.trans (q := { p with
    lanes := settledLanes d p.lanes, sender := { p.sender with store := settledStore d m p.sender.store } }) ⟨rfl, .refl _⟩
    (fragmentEnds_sendsTo ..)

end

/-! The descriptor of a sequence number. -/

/-- The unsettled descriptor of a sequence number in a store. -/
def unsettledIn (store : List Descriptor) (seq : Word) : Option Descriptor := store.find? fun d => d.seq == seq && d.mark.isNone

theorem unsettled_eq_some {store : List Descriptor} {seq : Word} {d : Descriptor} (h : unsettledIn store seq = some d) :
    d ∈ store ∧ d.seq = seq ∧ d.mark = none := by
  have found := List.find?_some h
  simp only [Bool.and_eq_true, beq_iff_eq, Option.isNone_iff_eq_none] at found
  exact ⟨List.mem_of_find?_eq_some h, found⟩

section

variable (d : Descriptor) (m : Settlement) (store : List Descriptor)

/-- A settled descriptor is treated as absent (R142). -/
theorem unsettledIn_settledStore_self : unsettledIn (settledStore d m store) d.seq = none := by
  refine List.find?_eq_none.2 fun x hx => ?_
  unfold settledStore at hx
  split at hx
  · obtain ⟨y, -, rfl⟩ := List.mem_map.1 hx
    split
    · simp
    · next other => simp [other]
  · have := (List.mem_filter.1 hx).2
    simp_all

/-- What a test sees of the other descriptors is what it saw before. -/
theorem filter_settledStore (f : Descriptor → Bool) (apart : ∀ x : Descriptor, x.seq = d.seq → f x = false) :
    (settledStore d m store).filter f = store.filter f := by
  unfold settledStore
  split
  · induction store with
    | nil => rfl
    | cons x rest ih =>
      rw [List.map_cons]
      by_cases same : x.seq = d.seq
      · rw [if_pos same, List.filter_cons_of_neg, List.filter_cons_of_neg, ih]
        · rw [apart x same]
          exact Bool.false_ne_true
        · rw [apart _ (show ({ x with mark := some m } : Descriptor).seq = d.seq from same)]
          exact Bool.false_ne_true
      · rw [if_neg same, List.filter_cons, List.filter_cons, ih]
  · rw [List.filter_filter]
    refine List.filter_congr fun x _ => ?_
    by_cases same : x.seq = d.seq
    · rw [apart x same, Bool.false_and]
    · rw [show (x.seq != d.seq) = true from bne_iff_ne.2 same, Bool.and_true]

/-- The unsettled descriptor of another number is the same one. -/
theorem unsettledIn_settledStore_other {seq : Word} (h : seq ≠ d.seq) : unsettledIn (settledStore d m store) seq = unsettledIn store seq := by
  have found (l : List Descriptor) : unsettledIn l seq = (l.filter fun x => x.seq == seq && x.mark.isNone).head? :=
    (List.head?_filter ..).symm
  rw [found, found, filter_settledStore]
  intro x same
  rw [same, beq_false_of_ne (Ne.symm h), Bool.false_and]

theorem settledStore_gone {x : Descriptor} (idle : d.state = .queuedOnLane ∨ d.state = .awaitingReceipt ∨ d.state = .waiting)
    (h : x ∈ settledStore d m store) : x.seq ≠ d.seq := by
  have away : ¬ (d.state = .building ∨ d.state = .transmitting) := by
    obtain e | e | e := idle <;> rw [e] <;> decide
  rw [settledStore, if_neg away] at h
  simpa using (List.mem_filter.1 h).2

theorem settledStore_marked (busy : d.state = .building ∨ d.state = .transmitting) (h : d ∈ store) :
    { d with mark := some m } ∈ settledStore d m store := by
  rw [settledStore, if_pos busy]
  exact List.mem_map.2 ⟨d, h, if_pos rfl⟩

end

/-! RECEIPT (R145). -/

theorem settledLanes_fifo (d : Descriptor) (lanes : Table Lane 4) (l : Fin 4) : ((settledLanes d lanes).nth l).fifo = (lanes.nth l).fifo := by
  unfold settledLanes
  split
  · rw [Table.nth_each]
  · rfl

/-- What acting on the numbers of a RECEIPT's range makes of the lanes, the store and the counters. -/
structure Part.ReceiptsTo (seqs : List Word) (p q : Part) : Prop where
  fifo : ∀ l, (q.lanes.nth l).fifo = (p.lanes.nth l).fifo
  counts : q.sender.counts = { p.sender.counts with
    receipts := (seqs.filter fun seq => (p.sender.unsettled seq).isSome).foldl (fun n _ => count n) p.sender.counts.receipts
    staleReceipts := (seqs.filter fun seq => (p.sender.unsettled seq).isNone).foldl (fun n _ => count n) p.sender.counts.staleReceipts }
  others : ∀ seq, seq ∉ seqs → q.sender.unsettled seq = p.sender.unsettled seq
  absent : ∀ seq, seq ∈ seqs → q.sender.unsettled seq = none
  filter : ∀ f : Descriptor → Bool, (∀ x : Descriptor, x.seq ∈ seqs → f x = false) → q.sender.store.filter f = p.sender.store.filter f
  marked : ∀ d : Descriptor, d.seq ∈ seqs → p.sender.unsettled d.seq = some d → d.state = .building ∨ d.state = .transmitting →
    { d with mark := some .receipted } ∈ q.sender.store
  gone : ∀ d : Descriptor, d.seq ∈ seqs → p.sender.unsettled d.seq = some d →
    d.state = .queuedOnLane ∨ d.state = .awaitingReceipt ∨ d.state = .waiting → ∀ x, x ∈ q.sender.store → x.seq ≠ d.seq

theorem receiptsTo_nil (p : Part) : p.ReceiptsTo [] p where
  fifo _ := rfl
  counts := rfl
  others _ _ := rfl
  absent _ h := absurd h List.not_mem_nil
  filter _ _ := rfl
  marked _ h := absurd h List.not_mem_nil
  gone _ h := absurd h List.not_mem_nil

theorem receipted_of_none {p : Part} {seq : Word} (h : p.sender.unsettled seq = none) : p.receipted seq = { p with
    sender := { p.sender with counts := { p.sender.counts with staleReceipts := count p.sender.counts.staleReceipts } } } := by
  rw [Part.receipted, h]

theorem receipted_of_some {p : Part} {seq : Word} {d : Descriptor} (h : p.sender.unsettled seq = some d) : p.receipted seq =
    { (p.settles d .receipted) with sender := { (p.settles d .receipted).sender with
      counts := { (p.settles d .receipted).sender.counts with receipts := count (p.settles d .receipted).sender.counts.receipts } } } := by
  rw [Part.receipted, h]

theorem receiptsTo_one (seq : Word) (p : Part) : p.ReceiptsTo [seq] (p.receipted seq) := by
  cases h : p.sender.unsettled seq with
  | none =>
    rw [receipted_of_none h]
    refine ⟨fun _ => rfl, ?_, fun _ _ => rfl, fun x hx => ?_, fun _ _ => rfl, fun d hd found => ?_, fun d hd found => ?_⟩
    · simp [h]
    · rw [List.mem_singleton.1 hx]
      exact h
    · rw [List.mem_singleton.1 hd, h] at found
      cases found
    · rw [List.mem_singleton.1 hd, h] at found
      cases found
  | some d =>
    obtain ⟨here, rfl, open'⟩ := unsettled_eq_some h
    rw [receipted_of_some h]
    have store : (p.settles d .receipted).sender.store = settledStore d .receipted p.sender.store := settles_store ..
    have same {x : Descriptor} (hx : x.seq ∈ [d.seq]) (found : p.sender.unsettled x.seq = some x) : x = d := by
      rw [List.mem_singleton.1 hx, h] at found
      exact (Option.some.inj found).symm
    refine ⟨fun l => ?_, ?_, fun x hx => ?_, fun x hx => ?_, fun f apart => ?_, fun x hx found busy => ?_, fun x hx found idle => ?_⟩
    · change ((p.settles d .receipted).lanes.nth l).fifo = _
      rw [settles_lanes, settledLanes_fifo]
    · rw [settles_counts]
      simp [h]
    · change unsettledIn (p.settles d .receipted).sender.store x = _
      rw [store]
      exact unsettledIn_settledStore_other d _ _ (by simpa using hx)
    · change unsettledIn (p.settles d .receipted).sender.store x = _
      rw [store, List.mem_singleton.1 hx]
      exact unsettledIn_settledStore_self ..
    · change (p.settles d .receipted).sender.store.filter f = _
      rw [store]
      exact filter_settledStore _ _ _ f fun x hx => apart x (List.mem_singleton.2 hx)
    · obtain rfl := same hx found
      change _ ∈ (p.settles x .receipted).sender.store
      rw [store]
      exact settledStore_marked _ _ _ busy here
    · obtain rfl := same hx found
      change ∀ y, y ∈ (p.settles x .receipted).sender.store → _
      rw [store]
      exact fun y hy => settledStore_gone _ _ _ idle hy

/-- A descriptor of a number outside the range is there exactly if it was there before. -/
theorem Part.ReceiptsTo.mem {seqs : List Word} {p q : Part} (h : p.ReceiptsTo seqs q) {x : Descriptor} (hx : x.seq ∉ seqs) :
    x ∈ q.sender.store ↔ x ∈ p.sender.store := by
  have both := h.filter (fun y => y.seq == x.seq) fun y hy => beq_false_of_ne fun same => hx (same ▸ hy)
  have seen (l : List Descriptor) : x ∈ l ↔ x ∈ l.filter fun y => y.seq == x.seq := by simp
  rw [seen, both, ← seen]

theorem Part.ReceiptsTo.cons {seq : Word} {seqs : List Word} {p q r : Part} (fresh : seq ∉ seqs) (h : p.ReceiptsTo [seq] q)
    (h' : q.ReceiptsTo seqs r) : p.ReceiptsTo (seq :: seqs) r := by
  have later (x : Word) (hx : x ∈ seqs) : q.sender.unsettled x = p.sender.unsettled x :=
    h.others x fun same => fresh (List.mem_singleton.1 same ▸ hx)
  refine ⟨fun l => (h'.fifo l).trans (h.fifo l), ?_, fun x hx => ?_, fun x hx => ?_, fun f apart => ?_, fun d hd found busy => ?_,
    fun d hd found idle => ?_⟩
  · have some' : (seqs.filter fun x => (q.sender.unsettled x).isSome) = seqs.filter fun x => (p.sender.unsettled x).isSome :=
      List.filter_congr fun x hx => by rw [later x hx]
    have none' : (seqs.filter fun x => (q.sender.unsettled x).isNone) = seqs.filter fun x => (p.sender.unsettled x).isNone :=
      List.filter_congr fun x hx => by rw [later x hx]
    rw [h'.counts, h.counts, some', none']
    cases found : p.sender.unsettled seq <;> simp [found]
  · rw [List.mem_cons, not_or] at hx
    exact (h'.others x hx.2).trans (h.others x (by simpa using hx.1))
  · by_cases inRest : x ∈ seqs
    · exact h'.absent x inRest
    · exact (h'.others x inRest).trans (h.absent x (List.mem_singleton.2 ((List.mem_cons.1 hx).resolve_right inRest)))
  · exact (h'.filter f fun x hx => apart x (List.mem_cons_of_mem _ hx)).trans
      (h.filter f fun x hx => apart x (List.mem_cons.2 (.inl (List.mem_singleton.1 hx))))
  · obtain first | rest := List.mem_cons.1 hd
    · exact (h'.mem (x := { d with mark := some .receipted }) fun inRest => fresh (first ▸ inRest)).2 (h.marked d (List.mem_singleton.2 first) found busy)
    · exact h'.marked d rest ((later _ rest).trans found) busy
  · obtain first | rest := List.mem_cons.1 hd
    · intro x hx same
      exact h.gone d (List.mem_singleton.2 first) found idle x ((h'.mem fun inRest => fresh (first ▸ same ▸ inRest)).1 hx) same
    · exact h'.gone d rest ((later _ rest).trans found) idle

theorem receiptsTo_all (seqs : List Word) (distinct : seqs.Nodup) (p : Part) : p.ReceiptsTo seqs (seqs.foldl Part.receipted p) := by
  induction seqs generalizing p with
  | nil => exact receiptsTo_nil p
  | cons seq rest ih =>
    obtain ⟨fresh, distinct⟩ := List.nodup_cons.1 distinct
    exact .cons fresh (receiptsTo_one seq p) (ih distinct _)

/-! The numbers of a range. -/

/-- The numbers from one on, so many. -/
def numbersFrom (first : Word) (n : Nat) : List Word := (List.range n).map fun i => first + BitVec.ofNat 32 i

theorem numbersFrom_one (first : Word) : numbersFrom first 1 = [first] := by
  rw [numbersFrom, List.range_one, List.map_singleton, BitVec.add_zero]

theorem number_sub {first : Word} {i : Nat} (h : i < 2 ^ 32) : ((first + BitVec.ofNat 32 i) - first).toNat = i := by
  have : (first + BitVec.ofNat 32 i) - first = BitVec.ofNat 32 i := by bv_omega
  rw [this, BitVec.toNat_ofNat, Nat.mod_eq_of_lt h]

theorem mem_numbersFrom {first seq : Word} {n : Nat} (h : n ≤ 2 ^ 32) : seq ∈ numbersFrom first n ↔ (seq - first).toNat < n := by
  rw [numbersFrom, List.mem_map]
  constructor
  · rintro ⟨i, hi, rfl⟩
    rw [List.mem_range] at hi
    rw [number_sub (by omega)]
    exact hi
  · intro hlt
    refine ⟨_, List.mem_range.2 hlt, ?_⟩
    rw [BitVec.ofNat_toNat, BitVec.setWidth_eq]
    bv_omega

theorem numbersFrom_nodup {first : Word} {n : Nat} (h : n ≤ 2 ^ 32) : (numbersFrom first n).Nodup := by
  refine nodup_map_of_apart (fun i hi j hj same => ?_) List.nodup_range
  rw [List.mem_range] at hi hj
  rw [← number_sub (first := first) (show i < 2 ^ 32 by omega), same, number_sub (by omega)]

/-! A message at the head of a FIFO (R144). -/

/-- The part once the head of a lane's FIFO has been taken. -/
def Part.messageTaken (l : Fin 4) (rest : List ReturnMessage) (p : Part) : Part := { p with
  lanes := p.lanes.put l { (p.lanes.nth l) with
    fifo := rest
    returnHold := if (p.lanes.nth l).cfg.policy = .holdOff then false else (p.lanes.nth l).returnHold } }

section

variable {α : Type} {l : Fin 4} {kind : MessageBody → Option α} {act : α → Part → Part} {p : Part} {m : ReturnMessage}
  {rest : List ReturnMessage} {x : α}

theorem updLane_takeMessage (fifo : (p.lanes.nth l).fifo = m :: rest) : p.updLane l Lane.takeMessage = p.messageTaken l rest := by
  refine updLane_eq ?_
  rw [Lane.takeMessage, fifo]
  cases (p.lanes.nth l).cfg.policy <;> rfl

variable (fifo : (p.lanes.nth l).fifo = m :: rest) (selected : kind m.body = some x)
include fifo selected

theorem takeMessage_mine (mine : m.station = p.loader.station ∨ m.station = 0) :
    p.takeMessage l kind act = act x (p.messageTaken l rest) := by
  unfold Part.takeMessage
  rw [fifo]
  dsimp only
  rw [selected]
  exact (if_pos mine).trans (congrArg (act x) (updLane_takeMessage fifo))

theorem takeMessage_other (other : ¬ (m.station = p.loader.station ∨ m.station = 0)) : p.takeMessage l kind act =
    (p.messageTaken l rest).countSend fun c => { c with otherStation := count c.otherStation } := by
  unfold Part.takeMessage
  rw [fifo]
  dsimp only
  rw [selected]
  exact (if_neg other).trans (congrArg (Part.countSend _) (updLane_takeMessage fifo))

end

/-- The numbers a RECEIPT names are acted on in ascending order, unless they are too many. -/
theorem receipt_eq (first last : Word) (p : Part) : p.receipt (first, last) =
    if 512 ≤ (last - first).toNat + 1 then p.countSend fun c => { c with wideReceipts := count c.wideReceipts }
    else (numbersFrom first ((last - first).toNat + 1)).foldl Part.receipted p := by
  unfold Part.receipt
  rw [show Part.receiptOf = Part.receipted from funext fun p => funext fun seq => Part.receiptOf_eq p seq]
  rfl

section

variable {seq : Word} {p : Part}

theorem resend_late (h : p.sender.unsettled seq = none) : p.resend seq = p.countSend fun c => { c with lateResends := count c.lateResends } := by
  rw [Part.resend, h]

variable {d : Descriptor} (h : p.sender.unsettled seq = some d)
include h

theorem resend_again (awaits : d.state = .awaitingReceipt) (few : d.dispatches < 3) (may : d.noResend = false) : p.resend seq =
    (p.updDesc seq fun d => { d with state := .waiting, dispatches := d.dispatches + 1 }).countSend
      fun c => { c with resends := count c.resends } := by
  rw [Part.resend, h]
  dsimp only
  rw [awaits]
  exact if_pos ⟨few, by rw [may]; rfl⟩

theorem resend_spent (awaits : d.state = .awaitingReceipt) (spent : 3 ≤ d.dispatches ∨ d.noResend = true) :
    p.resend seq = p.countSend fun c => { c with lateResends := count c.lateResends } := by
  rw [Part.resend, h]
  dsimp only
  rw [awaits]
  refine if_neg ?_
  rintro ⟨few, may⟩
  obtain many | never := spent
  · omega
  · rw [never] at may
    cases may

theorem resend_duplicate (other : d.state ≠ .awaitingReceipt) :
    p.resend seq = p.countSend fun c => { c with duplicateResends := count c.duplicateResends } := by
  rw [Part.resend, h]
  dsimp only
  cases state : d.state with
  | awaitingReceipt => exact absurd state other
  | building => rfl
  | queuedOnLane => rfl
  | transmitting => rfl
  | waiting => rfl

end

/-- An ECHO frame is laid out with its header fields zero but for kind, station and token (12.5). -/
theorem echoFrame_eq (station : Nat) (token : Word) :
    echoFrame station token = [0xC3, 0x3C] ++ ([1, 0] ++ leBytes 1 station ++ zeros 3 ++ leBytes 4 token.toNat ++ zeros 16 ++ zeros 32) ++
      leBytes 4 (crc ([1, 0] ++ leBytes 1 station ++ zeros 3 ++ leBytes 4 token.toNat ++ zeros 16 ++ zeros 32)).toNat := by
  have fields : ([1, 0] ++ u8 station ++ [0] ++ u16 0 ++ word token ++ zeros 16 : List Byte) =
      [1, 0] ++ leBytes 1 station ++ zeros 3 ++ leBytes 4 token.toNat ++ zeros 16 := by
    rw [List.append_assoc _ [0] (u16 0)]
    rfl
  rw [echoFrame, fields, sealFrame, ← List.append_assoc [0xC3, 0x3C]]
  rfl

/-- Settles O45: the head of the FIFO is taken; the numbers of a range are acted on one after the other, each finding the store as
the earlier ones left it for its own number. -/
theorem aReturnMessageIsActedOn : Obligations.AReturnMessageIsActedOn := by
  refine ⟨echoFrame_eq, ?_⟩
  intro s l m rest fifo lane taken counting mine cmd
  refine ⟨fun other => ?_, fun ours first last body => ?_, fun ours seq body => ?_, fun ours token body => ?_⟩
  · cases body : m.body with
    | receipt first last =>
      have is : cmd = .receipt l := by simp only [cmd, body]
      rw [is]
      exact next_becomes (takeMessage_other fifo (by rw [body]) other)
    | resend seq =>
      have is : cmd = .resend l := by simp only [cmd, body]
      rw [is]
      exact next_becomes (takeMessage_other fifo (by rw [body]) other)
    | laneTest token =>
      have is : cmd = .laneTest l := by simp only [cmd, body]
      rw [is]
      exact next_becomes (takeMessage_other fifo (by rw [body]) other)
  · have ran : exec (.receipt l) s = .next (s.becomes (taken.receipt (first, last))) :=
      next_becomes (takeMessage_mine fifo (by rw [body]) ours)
    rw [ran, receipt_eq]
    refine ⟨fun wide => next_becomes (if_pos wide), fun narrow => ?_⟩
    rw [if_neg (by omega)]
    obtain ⟨fifoOf, counts, -, absent, filter, marked, gone⟩ :=
      receiptsTo_all (numbersFrom first ((last - first).toNat + 1)) (numbersFrom_nodup (by omega)) taken
    have inside {seq : Word} : seq ∈ numbersFrom first ((last - first).toNat + 1) ↔ (seq - first).toNat < (last - first).toNat + 1 :=
      mem_numbersFrom (by omega)
    refine ⟨_, rfl, ?_, fun n hn => ?_, filter _ fun d hd => ?_, ⟨rfl, counts, fun d hd found => ?_⟩, fun same none' => ?_, fun same some' => ?_⟩
    · exact (fifoOf l).trans (by rw [Table.nth_put_same])
    · refine absent _ (inside.2 ?_)
      rw [number_sub (by omega)]
      omega
    · have := inside.1 hd
      exact decide_eq_false (by omega)
    · exact ⟨marked d hd found, gone d hd found⟩
    · subst same
      rw [BitVec.sub_self]
      exact congrArg s.becomes ((congrArg (List.foldl Part.receipted taken) (numbersFrom_one _)).trans (receipted_of_none (p := taken) none'))
    · subst same
      refine counts.trans ?_
      rw [BitVec.sub_self, show numbersFrom first ((0#32).toNat + 1) = [first] from numbersFrom_one first]
      obtain ⟨d, found⟩ := Option.ne_none_iff_exists'.1 some'
      have found : taken.sender.unsettled first = some d := found
      simp [found, taken]
  · have ran : exec (.resend l) s = .next (s.becomes (taken.resend seq)) := next_becomes (takeMessage_mine fifo (by rw [body]) ours)
    rw [ran]
    refine ⟨fun absent => next_becomes (resend_late absent), fun d found => ⟨fun awaits few may => ?_, fun awaits spent => ?_, fun other => ?_⟩⟩
    · exact next_becomes (resend_again (p := taken) found awaits few may)
    · exact next_becomes (resend_spent (p := taken) found awaits spent)
    · exact next_becomes (resend_duplicate (p := taken) found other)
  · have ran : exec (.laneTest l) s = .next (s.becomes (taken.laneTest l token)) := next_becomes (takeMessage_mine fifo (by rw [body]) ours)
    rw [ran]
    refine ⟨fun full => next_becomes (if_neg (Bool.eq_false_iff.1 full)), fun room => ⟨_, next_becomes (if_pos room), ?_⟩⟩
    have queued : taken.updLane l (fun r => { r with queue := r.queue ++ [⟨.echo token, echoFrame s.part.loader.station token⟩] }) =
        { taken with lanes := s.part.lanes.put l { (taken.lanes.nth l) with
          queue := lane.queue ++ [⟨.echo token, echoFrame s.part.loader.station token⟩] } } := by
      refine (updLane_eq rfl).trans (congrArg taken.setLanes ?_)
      rw [Table.put_put, show (taken.lanes.nth l).queue = lane.queue by rw [Table.nth_put_same]]
    have begun := Part.begins_countSend (fun c => { c with echoes := count c.echoes })
      (Part.begins_queueFrame l ⟨.echo token, echoFrame s.part.loader.station token⟩ taken)
    rw [queued] at begun
    exact begun

end Sys2Proof.Machine
end

section
/-! A block overtaken (R149), stale items (R135) and the expiry of descriptors (R148): O42. -/

namespace Sys2Proof.Machine

/-! The settlements of an item's fragments leave the store, and the store them. -/

/-- The part with another store of descriptors. -/
def Part.withStore (store : List Descriptor) (p : Part) : Part := { p with sender := { p.sender with store := store } }

section

variable (id : Nat) (m : Settlement) (p : Part) (store : List Descriptor)

theorem itemEnds_withStore (it : Item) (failed : Bool) : (p.withStore store).itemEnds it failed = (p.itemEnds it failed).withStore store := by
  unfold Part.itemEnds Part.withStore
  dsimp only
  cases it.kind.link with
  | none => rfl
  | some link =>
    dsimp only
    split
    · rw [Part.tellsEnd_sender]
    · rfl

theorem fragmentEnds_withStore : (p.withStore store).fragmentEnds id m = (p.fragmentEnds id m).withStore store := by
  unfold Part.fragmentEnds
  have found : (p.withStore store).sender.item id = p.sender.item id := rfl
  rw [found]
  cases p.sender.item id with
  | none => rfl
  | some it =>
    dsimp only
    split
    · exact itemEnds_withStore ..
    · rfl

end

/-! One descriptor of an overtaken item. -/

namespace Descriptor

/-- Overtaken, the descriptor is settled at once: its frame is being built, or waits for a lane. -/
def dropsNow (d : Descriptor) : Bool := d.mark.isNone && (d.state == .building || d.state == .waiting)

/-- The descriptor of an overtaken item, or nothing where it is removed. -/
def struck (d : Descriptor) : Option Descriptor :=
  if d.mark.isSome then some d
  else match d.state with
    | .building => some { d with mark := some .dropped }
    | .waiting => none
    | .queuedOnLane | .transmitting | .awaitingReceipt => some { d with noResend := true }

theorem struck_of_marked {d : Descriptor} (h : d.mark ≠ none) : d.struck = some d := if_pos (Option.isSome_iff_ne_none.2 h)

theorem struck_of_building {d : Descriptor} (h : d.mark = none) (hs : d.state = .building) : d.struck = some { d with mark := some .dropped } := by
  rw [struck, h, hs]
  rfl

theorem struck_of_waiting {d : Descriptor} (h : d.mark = none) (hs : d.state = .waiting) : d.struck = none := by
  rw [struck, h, hs]
  rfl

theorem struck_of_sent {d : Descriptor} (h : d.mark = none)
    (hs : d.state = .queuedOnLane ∨ d.state = .transmitting ∨ d.state = .awaitingReceipt) : d.struck = some { d with noResend := true } := by
  obtain e | e | e := hs <;>
  · rw [struck, h, e]
    rfl

theorem struck_eq_some {d e : Descriptor} (h : d.struck = some e) : e.seq = d.seq ∧ e.item = d.item := by
  unfold struck at h
  split at h
  · cases h
    exact ⟨rfl, rfl⟩
  · split at h <;> cases h <;> exact ⟨rfl, rfl⟩

end Descriptor

/-- The store with the descriptor of one number struck. -/
def storeStruck (d : Descriptor) (store : List Descriptor) : List Descriptor :=
  if d.mark.isSome then store
  else match d.state with
    | .building => store.map fun x => if x.seq = d.seq then { x with mark := some .dropped } else x
    | .waiting => store.filter fun x => x.seq != d.seq
    | .queuedOnLane | .transmitting | .awaitingReceipt => store.map fun x => if x.seq = d.seq then { x with noResend := true } else x

theorem overtakeDesc_eq (d : Descriptor) (p : Part) : p.overtakeDesc d =
    if d.dropsNow then Part.fragmentEnds d.item .dropped (p.withStore (storeStruck d p.sender.store))
    else p.withStore (storeStruck d p.sender.store) := by
  unfold Part.overtakeDesc storeStruck Descriptor.dropsNow
  cases mark : d.mark with
  | some x => rfl
  | none =>
    dsimp only [Option.isSome_none]
    simp only [Bool.false_eq_true, if_false]
    cases state : d.state with
    | building =>
      dsimp only
      rw [Part.settleDesc_eq, Part.settles, state]
      rfl
    | waiting =>
      dsimp only
      rw [Part.settleDesc_eq, Part.settles, state]
      rfl
    | queuedOnLane => rfl
    | transmitting => rfl
    | awaitingReceipt => rfl

/-- The descriptors of one item, one after the other: the store changes, and the item counts the fragments dropped. -/
theorem overtakeDescs_eq (id : Nat) (l : List Descriptor) (p : Part) (h : ∀ d, d ∈ l → d.item = id) :
    l.foldl (fun p d => p.overtakeDesc d) p =
      times (Part.fragmentEnds id .dropped) (l.filter Descriptor.dropsNow).length
        (p.withStore (l.foldl (fun store d => storeStruck d store) p.sender.store)) := by
  induction l generalizing p with
  | nil => rfl
  | cons d rest ih =>
    have own : d.item = id := h d List.mem_cons_self
    rw [List.foldl_cons, List.foldl_cons, ih _ fun x hx => h x (List.mem_cons_of_mem _ hx), overtakeDesc_eq, own]
    cases drops : d.dropsNow with
    | false =>
      rw [List.filter_cons_of_neg (by simp [drops])]
      rfl
    | true =>
      rw [List.filter_cons_of_pos drops, if_pos rfl, fragmentEnds_store, List.length_cons, times_succ,
        ← fragmentEnds_withStore]
      rfl

theorem storeStruck_eq (d : Descriptor) (store : List Descriptor) (agree : ∀ x, x ∈ store → x.seq = d.seq → x = d) :
    storeStruck d store = store.filterMap fun x => if x.seq = d.seq then x.struck else some x := by
  have whole (f : Descriptor → Descriptor) (h : ∀ x, x.seq = d.seq → x = d → x.struck = some (f x)) :
      (store.map fun x => if x.seq = d.seq then f x else x) = store.filterMap fun x => if x.seq = d.seq then x.struck else some x := by
    rw [← List.filterMap_eq_map']
    refine filterMap_congr_mem fun x hx => ?_
    split
    · next same => exact (h x same (agree x hx same)).symm
    · rfl
  unfold storeStruck
  cases mark : d.mark with
  | some m =>
    rw [← whole id fun x _ is => Descriptor.struck_of_marked (by rw [is, mark]; exact Option.some_ne_none m)]
    simp
  | none =>
    simp only [Option.isSome_none, Bool.false_eq_true, if_false]
    cases state : d.state with
    | building => exact whole _ fun x _ is => Descriptor.struck_of_building (is ▸ mark) (is ▸ state)
    | queuedOnLane => exact whole _ fun x _ is => Descriptor.struck_of_sent (is ▸ mark) (.inl (is ▸ state))
    | transmitting => exact whole _ fun x _ is => Descriptor.struck_of_sent (is ▸ mark) (.inr (.inl (is ▸ state)))
    | awaitingReceipt => exact whole _ fun x _ is => Descriptor.struck_of_sent (is ▸ mark) (.inr (.inr (is ▸ state)))
    | waiting =>
      dsimp only
      rw [← List.filterMap_eq_filter]
      refine filterMap_congr_mem fun x hx => ?_
      by_cases same : x.seq = d.seq
      · rw [if_pos same, Option.guard, if_neg (by simp [same])]
        obtain rfl := agree x hx same
        exact (Descriptor.struck_of_waiting mark state).symm
      · rw [if_neg same, Option.guard, if_pos (by simp [same])]

/-- The store once the descriptors of these numbers are struck. -/
theorem storeStruck_all (l store : List Descriptor) (distinct : (l.map (·.seq)).Nodup)
    (agree : ∀ d, d ∈ l → ∀ x, x ∈ store → x.seq = d.seq → x = d) :
    l.foldl (fun store d => storeStruck d store) store =
      store.filterMap fun x => if x.seq ∈ l.map (·.seq) then x.struck else some x := by
  induction l generalizing store with
  | nil => simp
  | cons d rest ih =>
    obtain ⟨fresh, distinct⟩ := List.nodup_cons.1 distinct
    rw [List.foldl_cons, storeStruck_eq d store (agree d List.mem_cons_self), ih _ distinct, List.filterMap_filterMap]
    · refine filterMap_congr_mem fun x _ => ?_
      rw [List.map_cons]
      by_cases first : x.seq = d.seq
      · rw [if_pos first, if_pos (first ▸ List.mem_cons_self)]
        cases struck : x.struck with
        | none => rfl
        | some y =>
          rw [Option.bind_some, if_neg]
          rw [(Descriptor.struck_eq_some struck).1, first]
          exact fresh
      · rw [if_neg first, Option.bind_some]
        simp only [List.mem_cons, first, false_or]
    · intro e he x hx same
      obtain ⟨y, hy, made⟩ := List.mem_filterMap.1 hx
      have apart : e.seq ≠ d.seq := fun h => fresh (List.mem_map.2 ⟨e, he, h⟩)
      have from' : x.seq = y.seq := by
        split at made
        · exact (Descriptor.struck_eq_some made).1
        · cases made
          rfl
      rw [if_neg (by rw [← from', same]; exact apart)] at made
      cases made
      exact agree e (List.mem_cons_of_mem _ he) x hy same

/-! The fragments dropped of an item that has left its queue. -/

/-- The part once an item has counted so many fragments more. -/
def Part.settledMore (id k : Nat) (p : Part) : Part := { p with sender := { p.sender with
  items := p.sender.items.map fun x => if x.id = id then { x with settled := x.settled + k } else x } }

theorem settledMore_zero (id : Nat) (p : Part) : p.settledMore id 0 = p := by
  unfold Part.settledMore
  simp

theorem settledMore_add (id j k : Nat) (p : Part) : (p.settledMore id j).settledMore id k = p.settledMore id (j + k) := by
  unfold Part.settledMore
  simp only [List.map_map]
  congr 2
  refine List.map_congr_left fun x _ => ?_
  by_cases same : x.id = id <;> simp [same, Nat.add_assoc]

theorem item_settledMore {id k : Nat} {p : Part} {it : Item} (found : p.sender.item id = some it) :
    (p.settledMore id k).sender.item id = some { it with settled := it.settled + k } := by
  have named : it.id = id := by simpa using List.find?_some found
  exact (item_map p.sender.items id (fun x => { x with settled := x.settled + k }) fun _ => rfl).trans (congrArg _ found)

theorem itemEnds_settledMore (it : Item) (k : Nat) (failed : Bool) (p : Part) :
    (p.settledMore it.id k).itemEnds { it with settled := it.settled + k } failed = p.itemEnds it failed :=
  Part.itemEnds_updItem it (fun x => { x with settled := x.settled + k }) (fun _ => rfl) rfl rfl failed p

theorem fragmentEnds_absent {id : Nat} {p : Part} (m : Settlement) (h : p.sender.item id = none) : p.fragmentEnds id m = p := by
  rw [Part.fragmentEnds, h]

theorem fragmentEnds_last {id : Nat} {p : Part} {it : Item} (found : p.sender.item id = some it) (left : it.queued = false)
    (last : it.settled + 1 = it.dispatched) : p.fragmentEnds id .dropped = p.itemEnds it true := by
  rw [Part.fragmentEnds, found]
  dsimp only
  rw [if_pos ⟨left, last⟩, show (it.failed || Settlement.dropped != .receipted) = true from Bool.or_true _]

theorem fragmentEnds_more {id : Nat} {p : Part} {it : Item} (found : p.sender.item id = some it) (more : it.settled + 1 ≠ it.dispatched)
    (failed : ∀ x, x ∈ p.sender.items → x.id = id → x.failed = true) : p.fragmentEnds id .dropped = p.settledMore id 1 := by
  rw [Part.fragmentEnds, found]
  dsimp only
  rw [if_neg fun h => more h.2, Part.settledMore]
  congr 2
  refine List.map_congr_left fun x hx => ?_
  split
  · next same =>
    rw [failed x hx same]
    rfl
  · rfl

theorem item_itemEnds_self {id : Nat} {p : Part} {it : Item} (found : p.sender.item id = some it) (failed : Bool) :
    (p.itemEnds it failed).sender.item id = none := by
  have named : it.id = id := by simpa using List.find?_some found
  refine List.find?_eq_none.2 fun x hx => ?_
  rw [itemEnds_items, named] at hx
  simpa using (List.mem_filter.1 hx).2

/-- The fragments dropped one after the other: the item ends failed at the last it waits for, or counts them all. -/
theorem fragmentsDropped_cases (id k : Nat) (p : Part) (it : Item) (found : p.sender.item id = some it) (left : it.queued = false)
    (failed : ∀ x, x ∈ p.sender.items → x.id = id → x.failed = true) :
    ∃ ended : Bool, (times (Part.fragmentEnds id .dropped) k p).testItemEnd id = (if ended then p.itemEnds it true else p.settledMore id k) ∧
      (it.settled + k = it.dispatched → ended = true) ∧ (it.settled + k < it.dispatched → ended = false) := by
  have named : it.id = id := by simpa using List.find?_some found
  have itFailed : it.failed = true := failed it (List.mem_of_find?_eq_some found) named
  induction k generalizing p it with
  | zero =>
    rw [times_zero, Part.testItemEnd, found]
    dsimp only
    refine ⟨decide (it.settled = it.dispatched), ?_, fun h => decide_eq_true h, fun h => decide_eq_false (by omega)⟩
    by_cases last : it.settled = it.dispatched
    · rw [if_pos ⟨by rw [left]; rfl, last⟩, Part.endItem_eq, itFailed, decide_eq_true last]
      rfl
    · rw [if_neg fun h => last h.2, decide_eq_false last, settledMore_zero]
      rfl
  | succ k ih =>
    rw [times_succ]
    by_cases last : it.settled + 1 = it.dispatched
    · have gone := item_itemEnds_self found true
      have stays : times (Part.fragmentEnds id .dropped) k (p.itemEnds it true) = p.itemEnds it true :=
        times_fixed _ (fragmentEnds_absent _ gone) k
      refine ⟨true, ?_, fun _ => rfl, fun h => by omega⟩
      rw [fragmentEnds_last found left last, stays, Part.testItemEnd, gone]
      rfl
    · rw [fragmentEnds_more found last failed]
      obtain ⟨ended, made, ends, waits⟩ := ih (p.settledMore id 1) _ (item_settledMore found) left (fun x hx same => by
        obtain ⟨y, hy, rfl⟩ := List.mem_map.1 hx
        split
        · next is => exact failed y hy is
        · next other =>
          rw [if_neg other] at same
          exact absurd same other) named itFailed
      refine ⟨ended, ?_, fun h => ends (by dsimp only; omega), fun h => waits (by dsimp only; omega)⟩
      rw [made, settledMore_add, Nat.add_comm 1 k]
      subst named
      rw [itemEnds_settledMore]

/-! An overtaken item. -/

/-- What a report of an overtaken block adds to the AUDIO class's counters for each covering item. -/
def ClassRecord.overtakenOnce (r : ClassRecord) : ClassRecord := { r with overtaken := count r.overtaken, losses := count r.losses }

/-- The part once an item is counted overtaken and has left its queue. -/
def Part.itemStruck (it : Item) (p : Part) : Part := { p with
  sender := { p.sender with
    items := p.sender.items.map fun x => if x.id = it.id then { x with queued := false, failed := true } else x
    classes := p.sender.classes.upd 0 ClassRecord.overtakenOnce }
  cmd := p.cmd.raised (.send, 0) }

theorem table_upd_upd {α : Type} {n : Nat} (t : Table α n) (i : Fin n) (f g : α → α) : (t.upd i f).upd i g = t.upd i fun x => g (f x) := by
  unfold Table.upd
  rw [Table.nth_put_same, Table.put_put]

theorem overtakeItem_eq (it : Item) (p : Part) : p.overtakeItem it =
    (times (Part.fragmentEnds it.id .dropped) ((p.sender.store.filter fun d => d.item == it.id).filter Descriptor.dropsNow).length
      ((p.itemStruck it).withStore ((p.sender.store.filter fun d => d.item == it.id).foldl (fun store d => storeStruck d store)
        p.sender.store))).testItemEnd it.id := by
  unfold Part.overtakeItem
  have struck : ((p.onClass .audio fun r => { r with overtaken := count r.overtaken }).lossOf .audio).updItem it.id
      (fun i => { i with queued := false, failed := true }) = p.itemStruck it := by
    unfold Part.lossOf
    rw [raise_eq]
    unfold Part.onClass Part.updClass Part.setSender Part.setCmd Part.updItem Part.setSender
    dsimp only
    rw [table_upd_upd]
    rfl
  dsimp only
  rw [struck]
  exact congrArg (Part.testItemEnd it.id) (overtakeDescs_eq it.id _ (p.itemStruck it) fun d hd => by simpa using (List.mem_filter.1 hd).2)

/-- How many descriptors of an item are settled at once as it is overtaken. -/
def droppedOf (store : List Descriptor) (id : Nat) : Nat :=
  (store.filter fun d => d.item == id && d.mark.isNone && (d.state == .building || d.state == .waiting)).length

/-- What an overtaken item makes of the part, the item having so many fragments dropped. -/
structure Part.Overtakes (it : Item) (p q : Part) : Prop where
  rest : q = { p with
    sender := { p.sender with items := q.sender.items, store := q.sender.store, classes := q.sender.classes }
    cmd := p.cmd.raised (.send, 0) }
  store : q.sender.store = p.sender.store.filterMap fun d => if d.item = it.id then d.struck else some d
  outcome : ∃ ended : Bool,
    (it.settled + droppedOf p.sender.store it.id = it.dispatched → ended = true) ∧
    (it.settled + droppedOf p.sender.store it.id < it.dispatched → ended = false) ∧
    q.sender.items = (if ended then p.sender.items.filter fun x => x.id != it.id
      else p.sender.items.map fun x => if x.id = it.id then
        { x with queued := false, failed := true, settled := x.settled + droppedOf p.sender.store it.id } else x) ∧
    q.sender.classes = p.sender.classes.upd 0 fun r =>
      { r with overtaken := count r.overtaken, losses := count r.losses, failed := if ended then count r.failed else r.failed }

theorem kind_of_coversBlock {it : Item} {b : Fin 16} {m : Word} (h : it.coversBlock b m = true) :
    ∃ first blocks slot ring, it.kind = .audioFrame b first blocks slot ring := by
  unfold Item.coversBlock at h
  cases kind : it.kind with
  | audioFrame bus first blocks slot ring =>
    rw [kind] at h
    simp only [Bool.and_eq_true, beq_iff_eq] at h
    exact ⟨first, blocks, slot, ring, by rw [h.1]⟩
  | livePicture k n =>
    rw [kind] at h
    cases h
  | label pos clip snapshot =>
    rw [kind] at h
    cases h
  | clipPicture pos clip cursor cam n =>
    rw [kind] at h
    cases h

/-- An AUDIO FRAME holds no reference and no clip link. -/
theorem itemEnds_audio {it : Item} {b : Fin 16} {m : Word} (h : it.coversBlock b m = true) (p : Part) :
    p.itemEnds it true = { p with sender := { p.sender with
      items := p.sender.items.filter fun x => x.id != it.id
      classes := p.sender.classes.upd 0 fun r => { r with failed := count r.failed } } } := by
  obtain ⟨first, blocks, slot, ring, kind⟩ := kind_of_coversBlock h
  unfold Part.itemEnds
  rw [kind]
  rfl

theorem storeStruck_item (store : List Descriptor) (distinct : (store.map (·.seq)).Nodup) (id : Nat) :
    (store.filter fun d => d.item == id).foldl (fun store d => storeStruck d store) store =
      store.filterMap fun d => if d.item = id then d.struck else some d := by
  have single {x y : Descriptor} (hx : x ∈ store) (hy : y ∈ store) (same : x.seq = y.seq) : x = y :=
    eq_of_nodup_map distinct hx hy same
  rw [storeStruck_all]
  · refine filterMap_congr_mem fun x hx => ?_
    refine ite_congr_iff ?_ rfl rfl
    rw [List.mem_map]
    constructor
    · rintro ⟨y, hy, same⟩
      obtain ⟨hy, own⟩ := List.mem_filter.1 hy
      rw [← single hy hx same]
      simpa using own
    · exact fun own => ⟨x, List.mem_filter.2 ⟨hx, by simpa using own⟩, rfl⟩
  · exact distinct.sublist (List.Sublist.map _ List.filter_sublist)
  · exact fun d hd x hx same => single hx (List.mem_filter.1 hd).1 same

theorem overtakes_overtakeItem {it : Item} {b : Fin 16} {m : Word} {p : Part} (covers : it.coversBlock b m = true)
    (distinct : p.sender.distinct) (here : it ∈ p.sender.items) : p.Overtakes it (p.overtakeItem it) := by
  have found : p.sender.item it.id = some it := find_item distinct.1 here
  have dropped : ((p.sender.store.filter fun d => d.item == it.id).filter Descriptor.dropsNow).length = droppedOf p.sender.store it.id := by
    rw [List.filter_filter, droppedOf]
    congr 2
    funext d
    rw [Descriptor.dropsNow, Bool.and_comm, Bool.and_assoc]
  let p3 := (p.itemStruck it).withStore (p.sender.store.filterMap fun d => if d.item = it.id then d.struck else some d)
  have found3 : p3.sender.item it.id = some { it with queued := false, failed := true } :=
    (item_map p.sender.items it.id (fun x => { x with queued := false, failed := true }) fun _ => rfl).trans (congrArg _ found)
  obtain ⟨ended, made, ends, waits⟩ := fragmentsDropped_cases it.id (droppedOf p.sender.store it.id) p3 _ found3 rfl fun x hx same => by
    obtain ⟨y, -, rfl⟩ := List.mem_map.1 hx
    split
    · rfl
    · next other =>
      rw [if_neg other] at same
      exact absurd same other
  rw [overtakeItem_eq, storeStruck_item _ distinct.2, dropped, made]
  cases ended with
  | true =>
    rw [if_pos rfl, itemEnds_audio (it := { it with queued := false, failed := true }) (b := b) (m := m) covers]
    refine ⟨rfl, rfl, true, ends, waits, ?_,
      table_upd_upd _ _ ClassRecord.overtakenOnce fun r => { r with failed := count r.failed }⟩
    exact items_filter_map p.sender.items it.id (fun x => { x with queued := false, failed := true }) fun _ => rfl
  | false =>
    rw [if_neg Bool.false_ne_true]
    refine ⟨rfl, rfl, false, ends, waits, ?_, rfl⟩
    change (p.sender.items.map _).map _ = _
    rw [List.map_map]
    refine List.map_congr_left fun x _ => ?_
    by_cases same : x.id = it.id <;> simp [same]

/-! The overtaken items of a block, one after the other. -/

/-- The store once the descriptors of these items are struck. -/
def storeOvertaken (ids : List Nat) (store : List Descriptor) : List Descriptor :=
  store.filterMap fun d => if d.item ∈ ids then d.struck else some d

/-- What the items of a block overtaken, one after the other, make of the part. -/
structure Part.OvertakesAll (l : List Item) (p q : Part) : Prop where
  rest : q = { p with
    sender := { p.sender with items := q.sender.items, store := q.sender.store, classes := q.sender.classes }, cmd := q.cmd }
  cmd : p.cmd.Notified q.cmd
  told : l ≠ [] → (Cause.send, 0) ∈ q.cmd.notices
  store : q.sender.store = storeOvertaken (l.map (·.id)) p.sender.store
  others : ∀ x : Item, x.id ∉ l.map (·.id) → (x ∈ q.sender.items ↔ x ∈ p.sender.items)
  unqueued : ∀ it, it ∈ l → ∀ x, x ∈ q.sender.items → x.id = it.id → x.queued = false ∧ x.failed = true
  ended : ∀ it, it ∈ l → it.settled + droppedOf p.sender.store it.id = it.dispatched → ∀ x, x ∈ q.sender.items → x.id ≠ it.id
  waits : ∀ it, it ∈ l → it.settled + droppedOf p.sender.store it.id < it.dispatched →
    { it with queued := false, failed := true, settled := it.settled + droppedOf p.sender.store it.id } ∈ q.sender.items
  overtaken : (q.sender.classes.nth 0).overtaken = l.foldl (fun n _ => count n) (p.sender.classes.nth 0).overtaken
  losses : (q.sender.classes.nth 0).losses = l.foldl (fun n _ => count n) (p.sender.classes.nth 0).losses
  finished : (q.sender.classes.nth 0).finished = (p.sender.classes.nth 0).finished
  failed : (∀ it, it ∈ l → it.settled + droppedOf p.sender.store it.id ≤ it.dispatched) → (q.sender.classes.nth 0).failed =
    (l.filter fun it => it.settled + droppedOf p.sender.store it.id == it.dispatched).foldl (fun n _ => count n)
      (p.sender.classes.nth 0).failed

theorem overtakesAll_nil (p : Part) : p.OvertakesAll [] p where
  rest := rfl
  cmd := .refl _
  told h := absurd rfl h
  store := by simp [storeOvertaken]
  others _ _ := .rfl
  unqueued _ h := absurd h List.not_mem_nil
  ended _ h := absurd h List.not_mem_nil
  waits _ h := absurd h List.not_mem_nil
  overtaken := rfl
  losses := rfl
  finished := rfl
  failed _ := rfl

section

variable {it : Item} {p q : Part} (h : p.Overtakes it q)
include h

/-- An item of another name is there exactly if it was there before. -/
theorem Part.Overtakes.others {x : Item} (hid : x.id ≠ it.id) : x ∈ q.sender.items ↔ x ∈ p.sender.items := by
  obtain ⟨ended, -, -, items, -⟩ := h.outcome
  rw [items]
  cases ended with
  | true =>
    rw [if_pos rfl, List.mem_filter]
    exact and_iff_left (by simpa using hid)
  | false =>
    rw [if_neg Bool.false_ne_true, List.mem_map]
    constructor
    · rintro ⟨y, hy, rfl⟩
      split at hid
      · next same => exact absurd same hid
      · rwa [if_neg ‹_›]
    · exact fun hx => ⟨x, hx, if_neg hid⟩

/-- An item of the name is queued no longer. -/
theorem Part.Overtakes.unqueued {x : Item} (hx : x ∈ q.sender.items) (hid : x.id = it.id) : x.queued = false ∧ x.failed = true := by
  obtain ⟨ended, -, -, items, -⟩ := h.outcome
  rw [items] at hx
  cases ended with
  | true =>
    rw [if_pos rfl] at hx
    exact absurd hid (by simpa using (List.mem_filter.1 hx).2)
  | false =>
    rw [if_neg Bool.false_ne_true] at hx
    obtain ⟨y, -, rfl⟩ := List.mem_map.1 hx
    split
    · exact ⟨rfl, rfl⟩
    · next other =>
      rw [if_neg other] at hid
      exact absurd hid other

theorem Part.Overtakes.distinct (d : p.sender.distinct) : q.sender.distinct := by
  refine ⟨?_, ?_⟩
  · obtain ⟨ended, -, -, items, -⟩ := h.outcome
    rw [items]
    cases ended with
    | true => exact d.1.sublist (List.Sublist.map _ List.filter_sublist)
    | false =>
      rw [if_neg Bool.false_ne_true, List.map_map]
      refine (congrArg List.Nodup (List.map_congr_left fun x _ => ?_)).mp d.1
      rw [Function.comp_apply]
      split <;> rfl
  · rw [h.store]
    refine d.2.sublist ?_
    induction p.sender.store with
    | nil => exact .slnil
    | cons x rest ih =>
      rw [List.filterMap_cons, List.map_cons]
      split
      · exact ih.cons _
      · next y made =>
        rw [List.map_cons]
        have same : y.seq = x.seq := by
          split at made
          · exact (Descriptor.struck_eq_some made).1
          · cases made
            rfl
        rw [same]
        exact ih.cons_cons _

/-- An item of another name has as many fragments to drop as before. -/
theorem Part.Overtakes.droppedOf {id : Nat} (other : id ≠ it.id) : droppedOf q.sender.store id = droppedOf p.sender.store id := by
  rw [h.store]
  unfold Machine.droppedOf
  congr 1
  induction p.sender.store with
  | nil => rfl
  | cons x rest ih =>
    rw [List.filterMap_cons]
    by_cases own : x.item = it.id
    · have apart : (x.item == id) = false := beq_false_of_ne (own ▸ Ne.symm other)
      rw [List.filter_cons_of_neg (a := x) (by rw [apart, Bool.false_and, Bool.false_and]; exact Bool.false_ne_true), ← ih, if_pos own]
      cases struck : x.struck with
      | none => rfl
      | some y =>
        refine List.filter_cons_of_neg ?_
        rw [(Descriptor.struck_eq_some struck).2, apart, Bool.false_and, Bool.false_and]
        exact Bool.false_ne_true
    · rw [if_neg own]
      dsimp only
      rw [List.filter_cons, List.filter_cons, ih]

theorem Part.Overtakes.gone (last : it.settled + Machine.droppedOf p.sender.store it.id = it.dispatched) {x : Item}
    (hx : x ∈ q.sender.items) : x.id ≠ it.id := by
  obtain ⟨ended, ends, -, items, -⟩ := h.outcome
  rw [items, ends last, if_pos rfl] at hx
  simpa using (List.mem_filter.1 hx).2

theorem Part.Overtakes.waits (here : it ∈ p.sender.items) (more : it.settled + Machine.droppedOf p.sender.store it.id < it.dispatched) :
    { it with queued := false, failed := true, settled := it.settled + Machine.droppedOf p.sender.store it.id } ∈ q.sender.items := by
  obtain ⟨ended, -, waits, items, -⟩ := h.outcome
  rw [items, waits more, if_neg Bool.false_ne_true]
  exact List.mem_map.2 ⟨it, here, if_pos rfl⟩

theorem Part.Overtakes.failed (few : it.settled + Machine.droppedOf p.sender.store it.id ≤ it.dispatched) :
    (q.sender.classes.nth 0).failed =
      if it.settled + Machine.droppedOf p.sender.store it.id == it.dispatched then count (p.sender.classes.nth 0).failed
      else (p.sender.classes.nth 0).failed := by
  obtain ⟨ended, ends, waits, -, classes⟩ := h.outcome
  rw [classes, Table.nth_upd_same]
  by_cases last : it.settled + Machine.droppedOf p.sender.store it.id = it.dispatched
  · rw [ends last, if_pos rfl, if_pos (beq_iff_eq.2 last)]
  · rw [waits (by omega), if_neg Bool.false_ne_true, if_neg (by simpa using last)]

theorem Part.Overtakes.counts : (q.sender.classes.nth 0).overtaken = count (p.sender.classes.nth 0).overtaken ∧
    (q.sender.classes.nth 0).losses = count (p.sender.classes.nth 0).losses ∧
    (q.sender.classes.nth 0).finished = (p.sender.classes.nth 0).finished := by
  obtain ⟨ended, -, -, -, classes⟩ := h.outcome
  rw [classes, Table.nth_upd_same]
  exact ⟨rfl, rfl, rfl⟩

end

theorem storeOvertaken_cons {id : Nat} {ids : List Nat} (fresh : id ∉ ids) (store : List Descriptor) :
    storeOvertaken ids (store.filterMap fun d => if d.item = id then d.struck else some d) = storeOvertaken (id :: ids) store := by
  unfold storeOvertaken
  rw [List.filterMap_filterMap]
  refine filterMap_congr_mem fun x _ => ?_
  by_cases first : x.item = id
  · rw [if_pos first, if_pos (first ▸ List.mem_cons_self)]
    cases struck : x.struck with
    | none => rfl
    | some y =>
      rw [Option.bind_some, if_neg]
      rw [(Descriptor.struck_eq_some struck).2, first]
      exact fresh
  · rw [if_neg first, Option.bind_some]
    simp only [List.mem_cons, first, false_or]

theorem Part.OvertakesAll.cons {it : Item} {l : List Item} {p q r : Part} (fresh : it.id ∉ l.map (·.id)) (here : it ∈ p.sender.items)
    (h : p.Overtakes it q) (h' : q.OvertakesAll l r) : p.OvertakesAll (it :: l) r := by
  have apart {x : Item} (hx : x ∈ l) : x.id ≠ it.id := fun same => fresh (List.mem_map.2 ⟨x, hx, same⟩)
  have drops {x : Item} (hx : x ∈ l) : droppedOf q.sender.store x.id = droppedOf p.sender.store x.id := h.droppedOf (apart hx)
  have unnamed {x : Item} (same : x.id = it.id) : x.id ∉ l.map (·.id) := same ▸ fresh
  obtain ⟨overtaken, losses, finished⟩ := h.counts
  have cmd : q.cmd = p.cmd.raised (.send, 0) := by rw [h.rest]
  refine ⟨?_, ?_, fun _ => ?_, ?_, fun x hx => ?_, fun x hx y hy same => ?_, fun x hx last y hy => ?_, fun x hx more => ?_, ?_, ?_, ?_, fun few => ?_⟩
  · rw [h'.rest, h.rest]
  · exact (cmd ▸ notified_raised p.cmd _).trans h'.cmd
  · refine h'.cmd.grown _ ?_
    rw [cmd]
    exact (mem_raised ..).2 (.inl rfl)
  · rw [h'.store, h.store]
    exact storeOvertaken_cons fresh _
  · rw [List.map_cons, List.mem_cons, not_or] at hx
    rw [h'.others x hx.2, h.others hx.1]
  · obtain rfl | hx := List.mem_cons.1 hx
    · exact h.unqueued ((h'.others y (unnamed same)).1 hy) same
    · exact h'.unqueued x hx y hy same
  · obtain rfl | hx := List.mem_cons.1 hx
    · exact fun same => h.gone last ((h'.others y (unnamed same)).1 hy) same
    · exact h'.ended x hx (by rw [drops hx]; exact last) y hy
  · obtain rfl | hx := List.mem_cons.1 hx
    · refine (h'.others _ ?_).2 (h.waits here more)
      exact fresh
    · have := h'.waits x hx (by rw [drops hx]; exact more)
      rwa [drops hx] at this
  · rw [h'.overtaken, overtaken, List.foldl_cons]
  · rw [h'.losses, losses, List.foldl_cons]
  · rw [h'.finished, finished]
  · have same : (l.filter fun x => x.settled + droppedOf q.sender.store x.id == x.dispatched) =
        l.filter fun x => x.settled + droppedOf p.sender.store x.id == x.dispatched :=
      List.filter_congr fun x hx => by rw [drops hx]
    rw [h'.failed fun x hx => by rw [drops hx]; exact few x (List.mem_cons_of_mem _ hx), same, h.failed (few it List.mem_cons_self),
      List.filter_cons]
    split <;> rfl

/-- The covering items of a block are overtaken one after the other, each still as it stood at the report. -/
theorem overtakesAll_foldl {b : Fin 16} {m : Word} (l : List Item) (p : Part) (covers : ∀ it, it ∈ l → it.coversBlock b m = true)
    (distinct : p.sender.distinct) (named : (l.map (·.id)).Nodup) (here : ∀ it, it ∈ l → it ∈ p.sender.items) :
    p.OvertakesAll l (l.foldl (fun p it => p.overtakeItem it) p) := by
  induction l generalizing p with
  | nil => exact overtakesAll_nil p
  | cons it rest ih =>
    obtain ⟨fresh, named⟩ := List.nodup_cons.1 named
    have once := overtakes_overtakeItem (covers it List.mem_cons_self) distinct (here it List.mem_cons_self)
    refine .cons fresh (here it List.mem_cons_self) once (ih _ (fun x hx => covers x (List.mem_cons_of_mem _ hx)) (once.distinct distinct)
      named fun x hx => ?_)
    exact (once.others fun same => fresh (List.mem_map.2 ⟨x, hx, same⟩)).2 (here x (List.mem_cons_of_mem _ hx))

theorem overtakesAll_overtaken (b : Fin 16) (m : Word) {p : Part} (distinct : p.sender.distinct) :
    p.OvertakesAll (p.sender.items.filter fun it => it.coversBlock b m) (p.overtaken b m) :=
  overtakesAll_foldl _ p (fun _ hit => (List.mem_filter.1 hit).2) distinct
    (distinct.1.sublist (List.Sublist.map _ List.filter_sublist)) fun _ hit => (List.mem_filter.1 hit).1

/-! Stale items and expired descriptors (O42). -/

theorem mem_of_item {p : Part} {id : Nat} {it : Item} (h : p.sender.item id = some it) : it ∈ p.sender.items ∧ it.id = id :=
  ⟨List.mem_of_find?_eq_some h, by simpa using List.find?_some h⟩

/-- An event of a class counted, and a loss with it. -/
theorem onClass_lossOf (c : SendClass) (f : ClassRecord → ClassRecord) (p : Part) : (p.onClass c f).lossOf c =
    Part.raise .send c.index.val { p with sender := { p.sender with
      classes := p.sender.classes.upd c.index fun r => { f r with losses := count (f r).losses } } } := by
  unfold Part.lossOf Part.onClass Part.updClass Part.setSender
  dsimp only
  rw [table_upd_upd]

section

variable {p : Part} {id : Nat}

theorem itemStale_of_absent (h : p.sender.item id = none) : p.itemStale id = p := by
  rw [Part.itemStale, h]

variable {it : Item} (h : p.sender.item id = some it)
include h

theorem itemStale_of_left (left : it.queued = false) : p.itemStale id = p := by
  rw [Part.itemStale, h]
  dsimp only
  rw [left]
  rfl

/-- The part once an item's stale time is counted. -/
theorem itemStale_of_queued (queued : it.queued = true) : p.itemStale id = Part.itemDropped it (Part.raise .send it.kind.cls.index.val
    { p with
      now := max p.now it.stale
      sender := { p.sender with classes := p.sender.classes.upd it.kind.cls.index fun r =>
        { r with droppedStale := count r.droppedStale, losses := count r.losses } } }) := by
  rw [Part.itemStale, h]
  dsimp only
  rw [if_pos queued, onClass_lossOf, Part.dropFromQueue_eq]
  · rfl
  · rw [Part.raise_sender]
    exact h

end

section

variable {p : Part} {seq : Word}

theorem descriptorExpiry_of_absent (h : p.sender.unsettled seq = none) : p.descriptorExpiry seq = p := by
  rw [Part.descriptorExpiry, h]

theorem descriptorExpiry_of_unsettled {d : Descriptor} (h : p.sender.unsettled seq = some d) : p.descriptorExpiry seq =
    let settled := Part.settles d .expired { p with now := max p.now d.expiry }
    Part.raise .send d.cls.index.val { settled with sender := { settled.sender with
      classes := settled.sender.classes.upd d.cls.index fun r => { r with expired := count r.expired, losses := count r.losses } } } := by
  rw [Part.descriptorExpiry, h]
  dsimp only
  rw [onClass_lossOf, Part.settleDesc_eq]
  rfl

end

/-- Settles O42: a stale item drops by the rule of an item's drop, an expired descriptor settles by the rule of a settlement, and
the covering items of a block are overtaken one after the other. -/
theorem staleItemsAndExpiredDescriptorsAreDropped : Obligations.StaleItemsAndExpiredDescriptorsAreDropped := by
  refine ⟨fun s id => ⟨fun absent => ?_, fun it found => ⟨fun left => ?_, fun queued => ?_, fun queued => ?_⟩⟩,
    fun s seq => ⟨fun absent => ?_, ?_, fun d found => ?_⟩, ?_⟩
  · exact next_becomes (itemStale_of_absent absent)
  · exact next_becomes (itemStale_of_left found left)
  · exact next_becomes (itemStale_of_queued found queued)
  · let p := Part.raise .send it.kind.cls.index.val { s.part with
      now := max s.part.now it.stale
      sender := { s.part.sender with classes := s.part.sender.classes.upd it.kind.cls.index fun r =>
        { r with droppedStale := count r.droppedStale, losses := count r.losses } } }
    have named : it.id = id := (mem_of_item found).2
    have drop := itemDropped_sendsTo it p
    obtain ⟨f, g, classes⟩ := itemDropped_classes it p it.kind.cls.index
    have counted : p.sender.classes.nth it.kind.cls.index = { (s.part.sender.classes.nth it.kind.cls.index) with
        droppedStale := count (s.part.sender.classes.nth it.kind.cls.index).droppedStale
        losses := count (s.part.sender.classes.nth it.kind.cls.index).losses } := by
      rw [Part.raise_sender, Table.nth_upd_same]
    refine ⟨_, next_becomes (itemStale_of_queued found queued), ?_, fun x hx same => ?_, fun last x hx same => ?_, ?_, ?_, ?_, ?_, ?_, ?_⟩
    · exact drop.now.trans (Part.raise_now ..)
    · exact itemDropped_unqueued it p hx (same.trans named.symm)
    · change x ∈ (p.itemDropped it).sender.items at hx
      rw [itemDropped_items, if_pos last, named] at hx
      exact absurd same (by simpa using (List.mem_filter.1 hx).2)
    · exact (congrArg ClassRecord.droppedStale (classes.trans (by rw [counted])))
    · exact (congrArg ClassRecord.losses (classes.trans (by rw [counted])))
    · exact drop.cmd.grown _ (by rw [Part.raise_cmd]; exact (mem_raised ..).2 (.inl rfl))
    · exact (itemDropped_store it p).trans (by rw [Part.raise_sender])
    · exact (itemDropped_lanes it p).trans (Part.raise_lanes ..)
    · exact drop.path.trans (Part.raise_path ..)
  · exact next_becomes (descriptorExpiry_of_absent absent)
  · intro d found settled
    exact next_becomes (descriptorExpiry_of_unsettled found)
  · obtain ⟨here, rfl, open'⟩ := unsettled_eq_some found
    let p : Part := { s.part with now := max s.part.now d.expiry }
    let q := p.settles d .expired
    have store : q.sender.store = settledStore d .expired s.part.sender.store := settles_store ..
    obtain ⟨f, g, classes⟩ := settles_classes d .expired p d.cls.index
    have counted : (q.sender.classes.upd d.cls.index fun r => { r with expired := count r.expired, losses := count r.losses }).nth
        d.cls.index = { (s.part.sender.classes.nth d.cls.index) with
          failed := f, finished := g, expired := count (s.part.sender.classes.nth d.cls.index).expired
          losses := count (s.part.sender.classes.nth d.cls.index).losses } := by
      rw [Table.nth_upd_same, classes]
    have sender := Part.raise_sender (p := { q with sender := { q.sender with classes := q.sender.classes.upd d.cls.index fun r =>
      { r with expired := count r.expired, losses := count r.losses } } }) .send d.cls.index.val
    refine ⟨_, next_becomes (descriptorExpiry_of_unsettled found), ?_, ?_, ?_, fun idle x hx => ?_, fun queued l f hf => ?_, fun busy => ?_, ?_, ?_, ?_⟩
    · exact (Part.raise_now ..).trans (settles_sendsTo d .expired p).now
    · refine (congrArg (fun x : Sender => x.unsettled d.seq) sender).trans ?_
      change unsettledIn q.sender.store d.seq = none
      rw [store]
      exact unsettledIn_settledStore_self ..
    · refine (congrArg (fun x : Sender => x.store.filter fun x => x.seq != d.seq) sender).trans ?_
      change q.sender.store.filter _ = _
      rw [store]
      exact filter_settledStore _ _ _ _ fun x same => by simpa using same
    · have hx := (congrArg (fun y : Sender => x ∈ y.store) sender).mp hx
      change x ∈ q.sender.store at hx
      rw [store] at hx
      exact settledStore_gone _ _ _ idle hx
    · have lanes : (Part.raise .send d.cls.index.val { q with sender := { q.sender with
          classes := q.sender.classes.upd d.cls.index fun r => { r with expired := count r.expired, losses := count r.losses } } }).lanes =
          settledLanes d s.part.lanes := (Part.raise_lanes ..).trans (settles_lanes ..)
      have hf := (congrArg (fun t : Table Lane 4 => f ∈ (t.nth l).queue) lanes).mp hf
      rw [settledLanes, if_pos queued, Table.nth_each] at hf
      simpa using (List.mem_filter.1 hf).2
    · refine ⟨{ d with mark := some .expired }, ?_, rfl, rfl⟩
      refine (congrArg (fun y : Sender => { d with mark := some .expired } ∈ y.store) sender).mpr ?_
      change _ ∈ q.sender.store
      rw [store]
      exact settledStore_marked _ _ _ busy here
    · refine (congrArg (fun x : Sender => (x.classes.nth d.cls.index).expired) sender).trans ?_
      exact congrArg ClassRecord.expired counted
    · refine (congrArg (fun x : Sender => (x.classes.nth d.cls.index).losses) sender).trans ?_
      exact congrArg ClassRecord.losses counted
    · refine (congrArg (fun c : Commander => (Cause.send, d.cls.index.val) ∈ c.notices) (Part.raise_cmd ..)).mpr ?_
      exact (mem_raised ..).2 (.inl rfl)
  · intro p b m distinct q struck its
    have all : p.OvertakesAll struck q := overtakesAll_overtaken b m distinct
    have single {x y : Item} (hx : x ∈ p.sender.items) (hy : y ∈ p.sender.items) (same : x.id = y.id) : x = y :=
      eq_of_nodup_map distinct.1 hx hy same
    have mem {it : Item} : it ∈ struck ↔ it ∈ p.sender.items ∧ it.coversBlock b m = true := List.mem_filter
    have named {id : Nat} : id ∈ struck.map (·.id) ↔ ∃ it, it ∈ struck ∧ it.id = id := List.mem_map
    have stays {d e : Descriptor} (hd : d ∈ p.sender.store)
        (h : (if d.item ∈ struck.map (·.id) then d.struck else some d) = some e) : e ∈ q.sender.store := by
      rw [all.store]
      exact List.mem_filterMap.2 ⟨d, hd, h⟩
    refine ⟨fun none' => ?_, all.told, all.overtaken, all.losses, fun it hit covers => ?_, fun it hit covers done settled => ?_,
      fun it hit other => ?_, fun d hd stand => ?_, fun d hd own open' => ?_, ?_, ?_, ?_, ?_⟩
    · change List.foldl _ p struck = p
      rw [none']
      rfl
    · by_cases hid : it.id ∈ struck.map (·.id)
      · obtain ⟨x, hx, same⟩ := named.1 hid
        exact all.unqueued x hx it hit same.symm
      · exact absurd (named.2 ⟨it, mem.2 ⟨(all.others it hid).1 hit, covers⟩, rfl⟩) hid
    · refine all.ended it (mem.2 ⟨hit, covers⟩) ?_
      have settledAll : droppedOf p.sender.store it.id = 0 := by
        rw [droppedOf, List.length_eq_zero_iff, List.filter_eq_nil_iff]
        intro d hd drops
        simp only [Bool.and_eq_true, beq_iff_eq, Option.isNone_iff_eq_none] at drops
        exact settled d hd drops.1.1 drops.1.2
      rw [settledAll, done, Nat.add_zero]
    · refine (all.others it fun hid => ?_).2 hit
      obtain ⟨x, hx, same⟩ := named.1 hid
      rw [← single (mem.1 hx).1 hit same, (mem.1 hx).2] at other
      cases other
    · refine stays hd ?_
      split
      · next own =>
        exact Descriptor.struck_of_marked (stand.resolve_left fun none' => none' (named.1 own))
      · rfl
    · have own : d.item ∈ struck.map (·.id) := named.2 own
      refine ⟨fun building => stays hd ?_, fun waiting x hx same => ?_, fun sent => stays hd ?_⟩
      · rw [if_pos own, Descriptor.struck_of_building open' building]
      · rw [all.store] at hx
        obtain ⟨y, hy, made⟩ := List.mem_filterMap.1 hx
        have from' : x.seq = y.seq := by
          split at made
          · exact (Descriptor.struck_eq_some made).1
          · cases made
            rfl
        obtain rfl : y = d := eq_of_nodup_map distinct.2 hy hd (from'.symm.trans same)
        rw [if_pos own, Descriptor.struck_of_waiting open' waiting] at made
        cases made
      · rw [if_pos own, Descriptor.struck_of_sent open' sent]
    · rw [all.rest]
    · rw [all.rest]
    · rw [all.rest]
    · intro dropped few
      refine ⟨all.finished, all.failed few, fun it hit => ⟨all.ended it hit, all.waits it hit⟩⟩

end Sys2Proof.Machine
end

section
/-! SET SOURCE and SET BUS (O33), and what a report of an overtaken block leaves alone. -/

namespace Sys2Proof.Machine

/-! A report of an overtaken block, whatever the command engine holds in hand. -/

section

variable (id : Nat) (m : Settlement) (p : Part)

theorem fragmentEnds_handEmpty : p.handEmpty.fragmentEnds id m = (p.fragmentEnds id m).handEmpty := by
  unfold Part.fragmentEnds
  have found : p.handEmpty.sender.item id = p.sender.item id := rfl
  rw [found]
  cases p.sender.item id with
  | none => rfl
  | some it =>
    dsimp only
    split
    · exact itemEnds_handEmpty ..
    · rfl

theorem times_fragmentEnds_handEmpty (k : Nat) :
    times (Part.fragmentEnds id m) k p.handEmpty = (times (Part.fragmentEnds id m) k p).handEmpty := by
  induction k generalizing p with
  | zero => rfl
  | succ k ih => rw [times_succ, times_succ, fragmentEnds_handEmpty, ih]

theorem testItemEnd_handEmpty : p.handEmpty.testItemEnd id = (p.testItemEnd id).handEmpty := by
  unfold Part.testItemEnd
  have found : p.handEmpty.sender.item id = p.sender.item id := rfl
  rw [found]
  cases p.sender.item id with
  | none => rfl
  | some it =>
    dsimp only
    split
    · rw [Part.endItem_eq, Part.endItem_eq, itemEnds_handEmpty]
    · rfl

theorem times_fragmentEnds_sendsTo (k : Nat) : p.SendsTo (times (Part.fragmentEnds id m) k p) := by
  induction k generalizing p with
  | zero => exact .refl p
  | succ k ih =>
    rw [times_succ]
    exact (fragmentEnds_sendsTo id m p).trans (ih _)

theorem testItemEnd_sendsTo : p.SendsTo (p.testItemEnd id) := by
  unfold Part.testItemEnd
  split
  · split
    · rw [Part.endItem_eq]
      exact itemEnds_sendsTo ..
    · exact .refl p
  · exact .refl p

end

theorem itemStruck_handEmpty (it : Item) (p : Part) : p.handEmpty.itemStruck it = (p.itemStruck it).handEmpty := by
  unfold Part.itemStruck
  rw [show p.handEmpty.cmd.raised (.send, 0) = { (p.cmd.raised (.send, 0)) with inHand := none } from raised_handEmpty ..]
  rfl

theorem overtakeItem_handEmpty (it : Item) (p : Part) : p.handEmpty.overtakeItem it = (p.overtakeItem it).handEmpty := by
  rw [overtakeItem_eq, overtakeItem_eq, itemStruck_handEmpty]
  exact (congrArg (Part.testItemEnd it.id) (times_fragmentEnds_handEmpty it.id .dropped ((p.itemStruck it).withStore _) _)).trans
    (testItemEnd_handEmpty ..)

theorem overtakeItem_sendsTo (it : Item) (p : Part) : p.SendsTo (p.overtakeItem it) := by
  rw [overtakeItem_eq]
  have struck (store : List Descriptor) : p.SendsTo ((p.itemStruck it).withStore store) := ⟨rfl, notified_raised ..⟩
  exact (struck _).trans ((times_fragmentEnds_sendsTo ..).trans (testItemEnd_sendsTo ..))

theorem foldl_handEmpty {α : Type} {f : Part → α → Part} (h : ∀ p a, f (p : Part).handEmpty a = (f p a).handEmpty) (l : List α) (p : Part) :
    l.foldl f p.handEmpty = (l.foldl f p).handEmpty := by
  induction l generalizing p with
  | nil => rfl
  | cons a rest ih => rw [List.foldl_cons, List.foldl_cons, h, ih]

theorem overtaken_handEmpty (b : Fin 16) (m : Word) (p : Part) : p.handEmpty.overtaken b m = (p.overtaken b m).handEmpty :=
  foldl_handEmpty (fun p it => overtakeItem_handEmpty it p) _ p

theorem overtaken_sendsTo (b : Fin 16) (m : Word) (p : Part) : p.SendsTo (p.overtaken b m) :=
  .foldl (fun p it => overtakeItem_sendsTo it p) _ p

theorem overtaken_distinct (b : Fin 16) (m : Word) {p : Part} (distinct : p.sender.distinct) : (p.overtaken b m).sender.distinct := by
  have all (l : List Item) (p : Part) (covers : ∀ it, it ∈ l → it.coversBlock b m = true) (named : (l.map (·.id)).Nodup)
      (distinct : p.sender.distinct) (here : ∀ it, it ∈ l → it ∈ p.sender.items) :
      (l.foldl (fun p it => p.overtakeItem it) p).sender.distinct := by
    induction l generalizing p with
    | nil => exact distinct
    | cons it rest ih =>
      obtain ⟨fresh, named⟩ := List.nodup_cons.1 named
      have once := overtakes_overtakeItem (covers it List.mem_cons_self) distinct (here it List.mem_cons_self)
      refine ih _ (fun x hx => covers x (List.mem_cons_of_mem _ hx)) named (once.distinct distinct) fun x hx => ?_
      exact (once.others fun same => fresh (List.mem_map.2 ⟨x, hx, same⟩)).2 (here x (List.mem_cons_of_mem _ hx))
  exact all _ p (fun _ hit => (List.mem_filter.1 hit).2) (distinct.1.sublist (List.Sublist.map _ List.filter_sublist)) distinct
    fun _ hit => (List.mem_filter.1 hit).1

/-- Reports of a bus's blocks overtaken touch no ring and no clip: the items of a block hold no reference. -/
theorem overtakens_frame (b : Fin 16) (slots : List (Nat × Word)) (p : Part) (distinct : p.sender.distinct) :
    (slots.foldl (fun p x => Part.overtaken b x.2 p) p).rings = p.rings ∧
    (slots.foldl (fun p x => Part.overtaken b x.2 p) p).clips = p.clips := by
  induction slots generalizing p with
  | nil => exact ⟨rfl, rfl⟩
  | cons x rest ih =>
    have rest' := (overtakesAll_overtaken b x.2 distinct).rest
    obtain ⟨rings, clips⟩ := ih (p.overtaken b x.2) (overtaken_distinct b x.2 distinct)
    exact ⟨rings.trans (by rw [rest']), clips.trans (by rw [rest'])⟩

/-! The fields of SET SOURCE and SET BUS. -/

theorem stateOf_eq_some {b : Byte} (h : b.toNat ≤ 1) : stateOf b = some (decide (b.toNat = 1)) := flagOf_eq_some.2 ⟨h, rfl⟩

theorem sourceFields_eq_some {state window : Byte} {ring : Half} {offset width : Byte} {c : SourceSettings} :
    sourceFields state window ring offset width = some c ↔
      (state.toNat ≤ 1 ∧ window.toNat = c.win.val ∧ 4 ≤ ring.toNat ∧ ring.toNat ≤ 64 ∧ offset.toNat < ring.toNat ∧
        (width.toNat = 16 ∨ width.toNat = 20 ∨ width.toNat = 24)) ∧
      c = ⟨decide (state.toNat = 1), c.win, ring.toNat, offset.toNat, width.toNat⟩ := by
  have is16 : width = 16 ↔ width.toNat = 16 := byte_eq_iff (by decide)
  have is20 : width = 20 ↔ width.toNat = 20 := byte_eq_iff (by decide)
  have is24 : width = 24 ↔ width.toNat = 24 := byte_eq_iff (by decide)
  unfold sourceFields
  simp only [is16, is20, is24]
  split
  · next on w hs hw =>
    obtain ⟨le, rfl⟩ := flagOf_eq_some.1 hs
    have hw := objectOf_eq_some.1 hw
    split
    · next good =>
      rw [Option.some.injEq]
      constructor
      · rintro rfl
        exact ⟨⟨le, hw, good⟩, rfl⟩
      · rintro ⟨⟨-, hw', -⟩, e⟩
        rw [e, show c.win = w from Fin.ext (hw'.symm.trans hw)]
    · next bad =>
      constructor
      · exact fun h => nomatch h
      · exact fun h => absurd h.1.2.2 bad
  · next h =>
    constructor
    · exact fun h => nomatch h
    · rintro ⟨⟨hs, hw, -⟩, -⟩
      exact absurd (objectOf_eq_some.2 hw) (h _ _ (stateOf_eq_some hs))

theorem sourceWindowFits_iff {windows : Table Window 32} {n : Fin 64} {c : SourceSettings} : sourceWindowFits windows n c = true ↔
    (windows.nth c.win).state = .opened ∧ (windows.nth c.win).kind = .sound ∧ (windows.nth c.win).subject = n.val := by
  simp only [sourceWindowFits, Bool.and_eq_true, beq_iff_eq, and_assoc]

theorem busWindowFits_iff {windows : Table Window 32} {b : Fin 16} {c : BusSettings} : busWindowFits windows b c = true ↔
    (windows.nth c.win).state = .opened ∧ (windows.nth c.win).kind = .programme ∧ (windows.nth c.win).subject = b.val := by
  simp only [busWindowFits, Bool.and_eq_true, beq_iff_eq, and_assoc]

/-- A bus that goes from IDLE to ACTIVE, its settings taken, on the part with the hand empty. -/
theorem restartBus_handEmpty (b : Fin 16) (c : BusSettings) (p : Part) :
    ((p.handEmpty.restartBus b).updBus b fun r => { r with cfg := c }) =
      let reported := (p.mixer.buses.nth b).slots.foldl (fun p x => Part.overtaken b x.2 p) p
      { reported.handEmpty with mixer := { p.mixer with
        buses := p.mixer.buses.put b { (p.mixer.buses.nth b) with cfg := c, slots := [] } } } := by
  let reported := (p.mixer.buses.nth b).slots.foldl (fun p x => Part.overtaken b x.2 p) p
  have mixer : reported.mixer = p.mixer := by
    have sends : p.SendsTo reported := .foldl (fun p (x : Nat × Word) => overtaken_sendsTo b x.2 p) _ p
    rw [sends.rest]
  have again : (p.handEmpty.mixer.buses.nth b).slots.foldl (fun p x => Part.overtaken b x.2 p) p.handEmpty = reported.handEmpty :=
    foldl_handEmpty (fun p (x : Nat × Word) => overtaken_handEmpty b x.2 p) _ p
  have run : ((p.handEmpty.restartBus b).updBus b fun r => { r with cfg := c }) =
      { reported.handEmpty with mixer := { reported.mixer with
        buses := (reported.mixer.buses.upd b fun r => { r with slots := [] }).upd b fun r => { r with cfg := c } } } := by
    unfold Part.restartBus
    dsimp only
    rw [again]
    rfl
  rw [run, mixer, table_upd_upd]
  rfl

/-- Settles O33: the fields are read, the window, the ring and the send flags are tested, and the record takes them. -/
theorem setSourceAndSetBusReplaceTheRecord : Obligations.SetSourceAndSetBusReplaceTheRecord := by
  refine ⟨?_, ?_⟩
  · intro s i tag source state window ring offset width h run legal
    have ran : run = _ := exec_of_taken h rfl
    rw [ran]
    refine ⟨fun bad => next_becomes ?_, ?_⟩
    · split
      · next n c hn hc =>
        obtain ⟨⟨hs, hw, fits⟩, -⟩ := sourceFields_eq_some.1 hc
        have := objectOf_lt hn
        exact absurd ⟨by omega, hs, by omega, fits⟩ bad
      · rfl
    · intro good n w hn hw old win moved unfit
      obtain ⟨-, hs, -, fits⟩ := good
      let c : SourceSettings := ⟨decide (state.toNat = 1), w, ring.toNat, offset.toNat, width.toNat⟩
      have fields : sourceFields state window ring offset width = some c := sourceFields_eq_some.2 ⟨⟨hs, hw, fits⟩, rfl⟩
      have on : c.on = true ↔ state.toNat = 1 := decide_eq_true_iff
      have moves : (old.cfg.on = true ∧ c.on = true ∧ (c.win ≠ old.cfg.win ∨ c.ring ≠ old.cfg.ring)) ↔ moved := by
        rw [on, ne_comm, ne_comm (a := c.ring)]
      have unfits : (c.on = true ∧ (!sourceWindowFits s.part.path.windows n c) = true) ↔ unfit := by
        rw [on, Bool.not_eq_true', ← Bool.not_eq_true, sourceWindowFits_iff]
      rw [objectOf_eq_some.2 hn, fields]
      refine ⟨fun yes => next_becomes (if_pos (moves.2 yes)), fun no yes => next_becomes ?_, fun no no' => next_becomes ?_⟩
      · exact (if_neg (mt moves.1 no)).trans (if_pos (unfits.2 yes))
      · refine (if_neg (mt moves.1 no)).trans ((if_neg (mt unfits.1 no')).trans ?_)
        have fresh : (if c.on = old.cfg.on then old.fresh else 0) = if old.cfg.on = c.on then old.fresh else 0 := ite_congr_iff eq_comm rfl rfl
        exact congrArg (fun f => Part.answered { s.part with mixer := { s.part.mixer with
          sources := s.part.mixer.sources.put n { old with cfg := c, fresh := f } } } i tag []) fresh
  · intro s i tag bus state window ring master send divider h run legal
    have ran : run = _ := exec_of_taken h rfl
    rw [ran]
    refine ⟨fun bad => next_becomes ?_, ?_⟩
    · split
      · next b c hb hc =>
        obtain ⟨hs, -, hw, hring, -, hsend, -, hdivider, low, high, some', few, fits⟩ := busFields_eq_some.1 hc
        have := objectOf_lt hb
        have := c.win.isLt
        rw [hring] at low high fits
        rw [hdivider] at some' few fits
        exact absurd ⟨by omega, hs, by omega, low, high, hsend, some', few, fits⟩ bad
      · rfl
    · intro good b w hb hw old win cfg moved unfit full
      obtain ⟨-, hs, -, low, high, hsend, some', few, fits⟩ := good
      have fields : busFields state window ring master send divider = some cfg :=
        busFields_eq_some.2 ⟨hs, rfl, hw.symm, rfl, rfl, hsend, rfl, rfl, low, high, some', few, fits⟩
      have on : cfg.active = true ↔ state.toNat = 1 := decide_eq_true_iff
      have sends : cfg.send = true ↔ send.toNat = 1 := decide_eq_true_iff
      have moves : (old.cfg.active = true ∧ (cfg.win ≠ old.cfg.win ∨ cfg.ring ≠ old.cfg.ring)) ↔ moved := by
        rw [ne_comm, ne_comm (a := cfg.ring)]
      have unfits : (cfg.active = true ∧ (!busWindowFits s.part.path.windows b cfg) = true) ↔ unfit := by
        rw [on, Bool.not_eq_true', ← Bool.not_eq_true, busWindowFits_iff]
      have fulls : (cfg.send = true ∧ (!old.cfg.send) = true ∧ Config.sendBusMax ≤ s.part.mixer.sending) ↔ full := by
        rw [sends, Bool.not_eq_true']
        rfl
      have starts : (cfg.active = true ∧ (!old.cfg.active) = true) ↔ state.toNat = 1 ∧ old.cfg.active = false := by
        rw [on, Bool.not_eq_true']
      rw [objectOf_eq_some.2 hb, fields]
      refine ⟨fun yes => next_becomes (if_pos (moves.2 yes)), fun no yes => next_becomes ?_, fun no no' yes => next_becomes ?_,
        fun no no' no'' stays => next_becomes ?_, fun no no' no'' is1 idle => ⟨next_becomes ?_, fun distinct => ?_⟩⟩
      · exact (if_neg (mt moves.1 no)).trans (if_pos (unfits.2 yes))
      · exact (if_neg (mt moves.1 no)).trans ((if_neg (mt unfits.1 no')).trans (if_pos (fulls.2 yes)))
      · refine (if_neg (mt moves.1 no)).trans ((if_neg (mt unfits.1 no')).trans ((if_neg (mt fulls.1 no'')).trans ?_))
        exact congrArg (fun q : Part => (q.updBus b fun r => { r with cfg := cfg }).finish i tag []) (if_neg (mt starts.1 stays))
      · refine (if_neg (mt moves.1 no)).trans ((if_neg (mt unfits.1 no')).trans ((if_neg (mt fulls.1 no'')).trans ?_))
        refine (congrArg (fun q : Part => (q.updBus b fun r => { r with cfg := cfg }).finish i tag []) (if_pos (starts.2 ⟨is1, idle⟩))).trans ?_
        exact congrArg (Part.finish i tag []) (restartBus_handEmpty b cfg s.part)
      · obtain ⟨rings, clips⟩ := overtakens_frame b old.slots s.part distinct
        exact ⟨(Part.SendsTo.foldl (fun p (x : Nat × Word) => overtaken_sendsTo b x.2 p) old.slots s.part).path, rings, clips⟩

end Sys2Proof.Machine
end

section
/-! FIND PICTURE (O31): the key, the record it finds, and the result's layout. -/

namespace Sys2Proof.Machine

theorem Timecode.bytes_eq (t : Timecode) : t.bytes = leBytes 1 t.ff ++ leBytes 1 t.ss ++ leBytes 1 t.mm ++ leBytes 1 t.hh := rfl

section

variable {byNumber : Byte} {number : Word} {byTimecode ff ss mm hh : Byte}

theorem pictureKey_number (h : byNumber = 1) (h' : byTimecode = 0) :
    pictureKey byNumber number byTimecode ff ss mm hh = some (.number number) := by
  rw [h, h']
  rfl

theorem pictureKey_timecode (h : byNumber = 0) (h' : byTimecode = 1) :
    pictureKey byNumber number byTimecode ff ss mm hh = some (.timecode (timecodeOf ff ss mm hh)) := by
  rw [h, h']
  rfl

theorem flagOf_cases (b : Byte) : (b = 0 ∧ flagOf b = some false) ∨ (b = 1 ∧ flagOf b = some true) ∨ (flagOf b = none ∧ b ≠ 0 ∧ b ≠ 1) := by
  unfold flagOf
  by_cases h0 : b = 0
  · exact .inl ⟨h0, if_pos h0⟩
  · by_cases h1 : b = 1
    · exact .inr (.inl ⟨h1, (if_neg h0).trans (if_pos h1)⟩)
    · exact .inr (.inr ⟨(if_neg h0).trans (if_neg h1), h0, h1⟩)

/-- Any other pair of presence bytes gives no key. -/
theorem pictureKey_cases (key : PictureKey) (h : pictureKey byNumber number byTimecode ff ss mm hh = some key) :
    (byNumber = 1 ∧ byTimecode = 0 ∧ key = .number number) ∨
    (byNumber = 0 ∧ byTimecode = 1 ∧ key = .timecode (timecodeOf ff ss mm hh)) := by
  unfold pictureKey at h
  obtain ⟨hn, fn⟩ | ⟨hn, fn⟩ | ⟨fn, -⟩ := flagOf_cases byNumber <;>
  obtain ⟨ht, ft⟩ | ⟨ht, ft⟩ | ⟨ft, -⟩ := flagOf_cases byTimecode <;> rw [fn, ft] at h <;> cases h
  · exact .inr ⟨hn, ht, rfl⟩
  · exact .inl ⟨hn, ht, rfl⟩

end

/-- The newest of the records a test selects. -/
theorem find_reverse_newest {f : PictureRecord → Bool} {older newer : List PictureRecord} {e : PictureRecord} (h : f e = true)
    (apart : ∀ x, x ∈ newer → f x = false) : (older ++ e :: newer).reverse.find? f = some e := by
  rw [List.reverse_append, List.reverse_cons, List.append_assoc, List.find?_append,
    List.find?_eq_none.2 fun x hx => by rw [apart x (List.mem_reverse.1 hx)]; exact Bool.false_ne_true, Option.none_or]
  exact List.find?_cons_of_pos h

theorem find_oldest {f : PictureRecord → Bool} {older newer : List PictureRecord} {e : PictureRecord} (h : f e = true)
    (apart : ∀ x, x ∈ older → f x = false) : (older ++ e :: newer).find? f = some e := by
  rw [List.find?_append, List.find?_eq_none.2 fun x hx => by rw [apart x hx]; exact Bool.false_ne_true, Option.none_or]
  exact List.find?_cons_of_pos h

/-- Settles O31: the two keys and their tests, and the layout of a record of each kind. -/
theorem findPictureReadsTheIndex : Obligations.FindPictureReadsTheIndex := by
  intro s i tag camera byNumber number byTimecode ff ss mm hh h run t legal
  have ran : run = _ := exec_of_taken h rfl
  rw [ran]
  refine ⟨fun bad => next_becomes ?_, ?_⟩
  · split
    · next k key hk hkey =>
      have := objectOf_lt hk
      obtain ⟨hn, ht, rfl⟩ | ⟨hn, ht, rfl⟩ := pictureKey_cases key hkey
      · exact absurd ⟨by omega, .inl ⟨hn, ht⟩⟩ bad
      · refine if_neg fun valid => bad ⟨by omega, .inr ⟨hn, ht, Timecode.inRange_iff.1 valid⟩⟩
    · rfl
  · intro good k hk ring wanted cut fields ends
    have fieldsEq (e : PictureRecord) : findFields ring.base e = fields e := by
      obtain ⟨number, tc, block, body, pins, sends⟩ := e
      cases body with
      | opening start len => simp only [findFields, fields, cut, Timecode.bytes_eq, word, u16, u32, u64, List.append_assoc]
      | published start len q overFlag =>
        simp only [findFields, fields, cut, Timecode.bytes_eq, word, u8, u16, u32, u64, boolCode, List.append_assoc]
      | gap cause => cases cause <;> simp only [findFields, fields, Timecode.bytes_eq, GapCause.code, word, u16, List.append_assoc]
    have endsEq : findIndex ring.index = ends := by
      unfold findIndex
      simp only [ends]
      cases ring.index with
      | nil => rfl
      | cons first rest =>
        rw [List.head?_cons, List.getLast?_cons, List.append_assoc]
        rfl
    obtain ⟨key, hkey, valid, number', timecode⟩ : ∃ key, pictureKey byNumber number byTimecode ff ss mm hh = some key ∧
        key.valid s.part.clock.rate = true ∧
        (byNumber = 1 → ring.lookup key = ring.index.find? wanted) ∧
        (byNumber = 0 → ring.lookup key = ring.index.reverse.find? wanted) := by
      obtain ⟨-, ⟨hn, ht⟩ | ⟨hn, ht, range⟩⟩ := good
      · refine ⟨_, pictureKey_number hn ht, rfl, fun _ => ?_, fun other => absurd (hn.symm.trans other) (by decide)⟩
        simp only [wanted, hn, if_true]
        rfl
      · refine ⟨_, pictureKey_timecode hn ht, Timecode.inRange_iff.2 range, fun other => absurd (hn.symm.trans other) (by decide), fun _ => ?_⟩
        simp only [wanted, hn, show ¬ (0 : Byte) = 1 by decide, if_false]
        rfl
    have one : byNumber = 1 ∨ byNumber = 0 := good.2.imp And.left And.left
    rw [objectOf_eq_some.2 hk, hkey]
    refine ⟨fieldsEq, endsEq, fun e older newer index found oldest newest => next_becomes ((if_pos valid).trans ?_),
      fun absent => next_becomes ((if_pos valid).trans ?_)⟩
    · have looked : s.part.handEmpty.rings.nth k = ring := rfl
      have finds : ring.lookup key = some e := by
        obtain hn | hn := one
        · rw [number' hn, index, find_oldest found (oldest hn)]
        · rw [timecode hn, index, find_reverse_newest found (newest hn)]
      dsimp only
      rw [looked, finds, ← fieldsEq, ← endsEq]
      rfl
    · have looked : s.part.handEmpty.rings.nth k = ring := rfl
      have finds : ring.lookup key = none := by
        obtain hn | hn := one
        · rw [number' hn]
          exact List.find?_eq_none.2 fun x hx => by rw [absent x hx]; exact Bool.false_ne_true
        · rw [timecode hn]
          exact List.find?_eq_none.2 fun x hx => by rw [absent x (List.mem_reverse.1 hx)]; exact Bool.false_ne_true
      dsimp only
      rw [looked, finds, ← endsEq]
      rfl

end Sys2Proof.Machine
end

section
/-! Load mode (O60): how a record is judged, waits or is handled, and what each record does. -/

namespace Sys2Proof.Machine

/-! A record judged (R190). -/

section

variable {kind : Byte} {fields : List Byte} {framing : Bool} {check : Word}

theorem recordGood_of_bad (h : framing = true ∨ check ≠ crc ([kind] ++ leBytes 2 fields.length ++ fields)) :
    recordGood kind fields framing check = false := by
  unfold recordGood
  obtain rfl | other := h
  · rfl
  · rw [show (crc (loadCovered kind fields) == check) = false from beq_false_of_ne (Ne.symm other), Bool.and_false]

theorem recordGood_of_good (kind : Byte) (fields : List Byte) :
    recordGood kind fields false (crc ([kind] ++ leBytes 2 fields.length ++ fields)) = true :=
  beq_iff_eq.2 rfl

end

section

variable {s : State} {r : LoadRecord} (loading : s.part.loader.state = .load)
include loading

theorem loadRecord_bad : s.loadRecord false r = s.withPart (Part.answer 0x3F) := by
  rw [State.loadRecord, if_neg (not_not_intro loading)]
  rfl

theorem loadRecord_free (free : s.part.loader.erasing = false) : s.loadRecord true r = s.handleRecord r := by
  rw [State.loadRecord, if_neg (not_not_intro loading), free]
  rfl

theorem loadRecord_waits (erasing : s.part.loader.erasing = true) (none' : s.part.loader.waiting = none) :
    s.loadRecord true r = s.withPart fun p => p.setLoader { p.loader with waiting := some r } := by
  rw [State.loadRecord, if_neg (not_not_intro loading), erasing, none']
  rfl

theorem loadRecord_second (erasing : s.part.loader.erasing = true) (waits : s.part.loader.waiting ≠ none) :
    s.loadRecord true r = s.withPart (Part.answer 0x3F) := by
  rw [State.loadRecord, if_neg (not_not_intro loading), erasing, Option.isSome_iff_ne_none.2 waits]
  rfl

end

/-! A record handled (R190, R191). -/

section

variable {s : State}

theorem handleStart_receiving {n : Nat} (h : s.part.loader.load = .receiving) : s.handleRecord (.start n) = s.withPart (Part.answer 0x21) := by
  unfold State.handleRecord
  dsimp only
  rw [h]
  rfl

theorem handleStart_idle {n : Nat} (h : s.part.loader.load ≠ .receiving) :
    s.handleRecord (.start n) = if 1 ≤ n ∧ n ≤ 65536 then s.acceptStart n else s.withPart (Part.answer 0x21) := by
  unfold State.handleRecord
  dsimp only
  cases load : s.part.loader.load with
  | receiving => exact absurd load h
  | awaitingStart => rfl
  | complete => rfl
  | failed => rfl

theorem handleData_idle {o : Nat} {bs rb : List Byte} (h : s.part.loader.load ≠ .receiving) :
    s.handleRecord (.data o bs rb) = s.withPart (Part.answer 0x21) := by
  unfold State.handleRecord
  dsimp only
  cases load : s.part.loader.load with
  | receiving => exact absurd load h
  | awaitingStart => rfl
  | complete => rfl
  | failed => rfl

theorem handleFinish_idle (h : s.part.loader.load ≠ .receiving) : s.handleRecord .finish = s.withPart (Part.answer 0x21) := by
  unfold State.handleRecord
  dsimp only
  cases load : s.part.loader.load with
  | receiving => exact absurd load h
  | awaitingStart => rfl
  | complete => rfl
  | failed => rfl

theorem handleData_receiving {o : Nat} {bs rb : List Byte} (h : s.part.loader.load = .receiving) : s.handleRecord (.data o bs rb) =
    if s.part.loader.lastData = some (o, bs) then s.withPart (Part.answer 0x2B)
    else if o = s.part.loader.position ∧ o + bs.length ≤ s.part.loader.length then s.writeData o bs rb
    else s.withPart (Part.answer 0x21) := by
  unfold State.handleRecord
  dsimp only
  rw [h]
  rfl

theorem handleFinish_receiving (h : s.part.loader.load = .receiving) : s.handleRecord .finish =
    if s.part.loader.position = s.part.loader.length then
      if s.endCheck then s.withPart fun p => (p.setLoader { p.loader with load := .complete }).answer 0x3D
      else s.withPart fun p => p.loadFails.answer 0x58
    else s.withPart (Part.answer 0x21) := by
  unfold State.handleRecord
  dsimp only
  rw [h]
  rfl

end

/-- What the flash gives back after a DATA record's write. -/
theorem readByte_writeData (o : Nat) (bs rb : List Byte) {s : State} (wf : s.memoriesWf = true) (a : Nat) :
    (s.writeData o bs rb).flash.readByte 255 a = if o ≤ a then (rb[a - o]?).getD (s.flash.readByte 255 a) else s.flash.readByte 255 a :=
  Memory.readByte_writeBytes o rb a (Bool.and_eq_true_iff.1 wf).2

theorem writeData_part (o : Nat) (bs rb : List Byte) (s : State) : (s.writeData o bs rb).part = if rb = bs then
      (s.part.setLoader { s.part.loader with position := s.part.loader.position + bs.length, lastData := some (o, bs) }).answer 0x2B
    else s.part.loadFails.answer 0x23 := rfl

theorem exec_loadStart (dt : Nat) (framing : Bool) (n k : Word) (s : State) : exec (.loadStart dt framing n k) s =
    .next ((s.withPart (Part.after dt)).loadRecord (recordGood 0 (leBytes 4 n.toNat) framing k) (.start n.toNat)) := rfl

theorem exec_loadData {bs rb : List Byte} (fits : loadDataWf bs rb = true) (dt : Nat) (framing : Bool) (o k : Word) (s : State) :
    exec (.loadData dt framing o bs k rb) s = .next ((s.withPart (Part.after dt)).loadRecord
      (recordGood 1 (leBytes 4 o.toNat ++ bs) framing k) (.data o.toNat bs rb)) :=
  if_pos fits

theorem exec_loadEnd (dt : Nat) (framing : Bool) (k : Word) (s : State) : exec (.loadEnd dt framing k) s =
    .next ((s.withPart (Part.after dt)).loadRecord (recordGood 2 [] framing k) .finish) := rfl

/-- What END checks of the flash (R191), as sums of bytes. -/
theorem endCheck_iff (s : State) :
    let at' (a : Nat) : Byte := s.flash.readByte 255 a
    let image := (List.range s.part.loader.length).map at'
    s.endCheck = true ↔ numAt at' 4 4 = s.part.loader.length ∧ 12 ≤ s.part.loader.length ∧
      at' 0 = 0x4F ∧ at' 1 = 0x4A ∧ at' 2 = 0x32 ∧ at' 3 = 0x36 ∧
      numAt at' 8 4 = (crc (image.take 8 ++ zeros 4 ++ image.drop 12)).toNat := by
  intro at' image
  have hlen : imageLength s.flash = numAt at' 4 4 := by
    unfold imageLength
    rw [readBytes_bytesFrom, leNat_bytesFrom]
    rfl
  have hbytes : imageBytes s.flash s.part.loader.length = bytesFrom at' 0 s.part.loader.length := readBytes_bytesFrom _ _ _ _
  have himage : bytesFrom at' 0 s.part.loader.length = image := by
    simp [bytesFrom, image]
  unfold State.endCheck imageSound
  rw [hlen, hbytes]
  simp only [Bool.and_eq_true, decide_eq_true_eq, beq_iff_eq, bytesFrom_length, and_assoc]
  refine and_congr_right fun _ => ?_
  by_cases h12 : 12 ≤ s.part.loader.length
  · have ht : (bytesFrom at' 0 s.part.loader.length).take 4 = imageMarker ↔ at' 0 = 0x4F ∧ at' 1 = 0x4A ∧ at' 2 = 0x32 ∧ at' 3 = 0x36 := by
      have : (bytesFrom at' 0 s.part.loader.length).take 4 = bytesFrom at' 0 4 := by
        simpa using bytesFrom_piece at' (a := 0) (n := s.part.loader.length) (o := 0) (k := 4) (by omega)
      rw [this, bytesFrom_succ, bytesFrom_succ, bytesFrom_succ, bytesFrom_succ]
      simp [imageMarker, bytesFrom]
    have hw : (Record.word (bytesFrom at' 0 s.part.loader.length) 8).toNat = numAt at' 8 4 := by
      rw [word_bytesFrom at' (by omega), Nat.zero_add]
    rw [ht, ← BitVec.toNat_inj (x := Record.word _ _), hw, himage]
    simp only [h12, true_and, imageCheck, and_assoc]
  · constructor
    · exact fun h => absurd h.2.1 h12
    · exact fun h => absurd h.1 h12

theorem numAt_four (b : Nat → Byte) (a : Nat) : numAt b a 4 =
    (b a).toNat + 256 * (b (a + 1)).toNat + 65536 * (b (a + 2)).toNat + 16777216 * (b (a + 3)).toNat := by
  simp [numAt, List.range_succ, Nat.add_assoc]

section

variable {s : State} {dt : Nat}

theorem eraseComplete_idle (free : s.part.loader.erasing = false) :
    exec (.eraseComplete dt) s = .next (s.becomes { s.part with now := s.part.now + dt }) := by
  change Host.Outcome.next (State.eraseDone (s.withPart (Part.after dt))) = _
  unfold State.eraseDone
  refine congrArg _ (if_neg ?_)
  change ¬ s.part.loader.erasing = true
  rw [free]
  exact Bool.false_ne_true

/-- The state once an erase has ended, its answer given, before a record that waits is handled. -/
theorem eraseComplete_eq (erasing : s.part.loader.erasing = true) :
    let s1 := s.becomes { s.part with now := s.part.now + dt, loader := { s.part.loader with erasing := false, waiting := none } }
    let s2 := if s.part.loader.load = .receiving then s1.withPart (Part.answer 0x2B) else s1
    (s.part.loader.waiting = none → exec (.eraseComplete dt) s = .next s2) ∧
    (∀ r, s.part.loader.waiting = some r → exec (.eraseComplete dt) s = .next (s2.handleRecord r)) := by
  intro s1 s2
  have run : (s.withPart (Part.after dt)).eraseDone = match s.part.loader.waiting with
    | some r => s2.handleRecord r
    | none => s2 := by
    unfold State.eraseDone
    exact if_pos erasing
  refine ⟨fun none' => congrArg _ (run.trans ?_), fun r waits => congrArg _ (run.trans ?_)⟩
  · rw [none']
  · rw [waits]

end

/-- Settles O60: each record is judged, waits or is handled; the three kinds in the load states, and the two events of a load. -/
theorem loadRecordsAreAnswered : Obligations.LoadRecordsAreAnswered := by
  intro s loading l answers check
  have starts (dt : Nat) (n : Word) : recordGood 0 (leBytes 4 n.toNat) false (check 0 (leBytes 4 n.toNat)) = true := recordGood_of_good ..
  have datas (o : Word) (bs : List Byte) : recordGood 1 (leBytes 4 o.toNat ++ bs) false (check 1 (leBytes 4 o.toNat ++ bs)) = true :=
    recordGood_of_good ..
  have ends : recordGood 2 [] false (check 2 []) = true := recordGood_of_good ..
  have start (dt : Nat) (n : Word) (free : l.erasing = false) : exec (.loadStart dt false n (check 0 (leBytes 4 n.toNat))) s =
      .next ((s.withPart (Part.after dt)).handleRecord (.start n.toNat)) := by
    rw [exec_loadStart, starts dt, loadRecord_free (s := s.withPart (Part.after dt)) loading free]
  have data (dt : Nat) (o : Word) (bs rb : List Byte) (fits : loadDataWf bs rb = true) (free : l.erasing = false) :
      exec (.loadData dt false o bs (check 1 (leBytes 4 o.toNat ++ bs)) rb) s =
      .next ((s.withPart (Part.after dt)).handleRecord (.data o.toNat bs rb)) := by
    rw [exec_loadData fits, datas, loadRecord_free (s := s.withPart (Part.after dt)) loading free]
  have finish (dt : Nat) (free : l.erasing = false) :
      exec (.loadEnd dt false (check 2 [])) s = .next ((s.withPart (Part.after dt)).handleRecord .finish) := by
    rw [exec_loadEnd, ends, loadRecord_free (s := s.withPart (Part.after dt)) loading free]
  have dataIn (dt : Nat) (o : Word) (bs rb : List Byte) (fits : loadDataWf bs rb = true) (free : l.erasing = false)
      (receiving : l.load = .receiving) : exec (.loadData dt false o bs (check 1 (leBytes 4 o.toNat ++ bs)) rb) s =
      .next (if l.lastData = some (o.toNat, bs) then answers dt 0x2B l
        else if o.toNat = l.position ∧ o.toNat + bs.length ≤ l.length then (s.withPart (Part.after dt)).writeData o.toNat bs rb
        else answers dt 0x21 l) :=
    (data dt o bs rb fits free).trans (congrArg _ (handleData_receiving (s := s.withPart (Part.after dt)) receiving))
  have finishIn (dt : Nat) (free : l.erasing = false) (receiving : l.load = .receiving) : exec (.loadEnd dt false (check 2 [])) s =
      .next (if l.position = l.length then
        if s.endCheck then answers dt 0x3D { l with load := .complete }
        else answers dt 0x58 { l with load := .failed, faultHigh := false, faultTimer := some (s.part.now + dt + 375000000) }
      else answers dt 0x21 l) :=
    (finish dt free).trans (congrArg _ (handleFinish_receiving (s := s.withPart (Part.after dt)) receiving))
  refine ⟨fun dt framing n k bad => ?_, fun dt framing o bs k rb fits bad => ?_, fun dt framing k bad => ?_,
    fun dt n free idle => ⟨fun low high => ?_, fun out => ?_⟩, fun dt n free receiving => ?_, fun dt erasing receiving none' => ?_,
    fun dt o bs fits wf free receiving fresh => ⟨fun place room => ?_, fun out => ?_⟩, ?_, ?_, ?_, ?_, ?_, ?_, ?_, ?_, ?_, ?_, ?_⟩
  · rw [exec_loadStart, recordGood_of_bad bad]
    exact congrArg _ (loadRecord_bad (s := s.withPart (Part.after dt)) loading)
  · rw [exec_loadData fits, recordGood_of_bad bad]
    exact congrArg _ (loadRecord_bad (s := s.withPart (Part.after dt)) loading)
  · rw [exec_loadEnd, recordGood_of_bad bad]
    exact congrArg _ (loadRecord_bad (s := s.withPart (Part.after dt)) loading)
  · rw [start dt n free, handleStart_idle (s := s.withPart (Part.after dt)) idle, if_pos ⟨low, high⟩]
    refine ⟨_, rfl, rfl, fun a => ?_, rfl⟩
    change Memory.readByte 255 (Memory.erase s.flash 0 n.toNat) a = _
    rw [Memory.readByte_erase]
    simp
  · rw [start dt n free, handleStart_idle (s := s.withPart (Part.after dt)) idle, if_neg (by omega)]
    rfl
  · rw [start dt n free, handleStart_receiving (s := s.withPart (Part.after dt)) receiving]
    rfl
  · rw [(eraseComplete_eq erasing).1 none', if_pos receiving]
    rfl
  · rw [dataIn dt o bs bs fits free receiving, if_neg fresh, if_pos ⟨place, room⟩]
    refine ⟨_, rfl, rfl, fun a => readByte_writeData _ bs _ wf a, ?_⟩
    rw [writeData_part, if_pos rfl]
    rfl
  · rw [dataIn dt o bs bs fits free receiving, if_neg fresh, if_neg (by omega)]
  · intro dt o bs rb fits free receiving run
    have ran : run = _ := dataIn dt o bs rb fits free receiving
    rw [ran]
    refine ⟨fun again => by rw [if_pos again], fun fresh place room other wf => ?_⟩
    rw [if_neg fresh, if_pos ⟨place, room⟩]
    refine ⟨_, rfl, rfl, fun a => readByte_writeData _ bs _ wf a, ?_⟩
    rw [writeData_part, if_neg other]
    rfl
  · intro erasing waits
    have judged (dt : Nat) (c : Instr) (r : LoadRecord)
        (run : exec c s = .next ((s.withPart (Part.after dt)).loadRecord true r)) : waits dt c r := by
      refine ⟨fun none' => ?_, fun some' => ?_⟩
      · rw [run, loadRecord_waits (s := s.withPart (Part.after dt)) loading erasing none']
        rfl
      · rw [run, loadRecord_second (s := s.withPart (Part.after dt)) loading erasing some']
        rfl
    refine ⟨fun dt n => judged dt _ _ ?_, fun dt o bs rb fits => judged dt _ _ ?_, fun dt => judged dt _ _ ?_⟩
    · rw [exec_loadStart, starts dt]
    · rw [exec_loadData fits, datas]
    · rw [exec_loadEnd, ends]
  · intro dt r erasing receiving waits
    rw [(eraseComplete_eq erasing).2 r waits, if_pos receiving]
    rfl
  · exact fun dt free => eraseComplete_idle free
  · intro dt erasing idle ended
    refine ⟨fun none' => ?_, fun r waits => ?_⟩
    · rw [(eraseComplete_eq erasing).1 none', if_neg idle]
    · rw [(eraseComplete_eq erasing).2 r waits, if_neg idle]
  · exact fun free => ⟨fun n => start 0 n free, fun o bs rb fits => data 0 o bs rb fits free, finish 0 free⟩
  · intro free idle
    refine ⟨fun dt o bs rb fits => ?_, fun dt => ?_⟩
    · rw [data dt o bs rb fits free, handleData_idle (s := s.withPart (Part.after dt)) idle]
      rfl
    · rw [finish dt free, handleFinish_idle (s := s.withPart (Part.after dt)) idle]
      rfl
  · intro at' image number
    have four (a : Nat) : numAt at' a 4 = number a := numAt_four ..
    refine (endCheck_iff s).trans ?_
    rw [four, four]
    constructor
    · exact fun ⟨h4, h12, a0, a1, a2, a3, h8⟩ => ⟨h12, a0, a1, a2, a3, h4, h8⟩
    · exact fun ⟨h12, a0, a1, a2, a3, h4, h8⟩ => ⟨h4, h12, a0, a1, a2, a3, h8⟩
  · intro dt free receiving
    rw [finishIn dt free receiving]
    refine ⟨fun short => by rw [if_neg short], fun whole good => by rw [if_pos whole, if_pos good], fun whole bad => ?_⟩
    rw [if_pos whole, if_neg (Bool.eq_false_iff.1 bad)]
  · exact fun dt receiving => next_becomes (if_pos ⟨loading, receiving⟩)
  · exact fun dt idle => next_becomes (if_neg fun h => idle h.2)

end Sys2Proof.Machine
end

section
/-! Start-up (O58): power-on, and the application of an image or of the FALLBACK copy. -/

namespace Sys2Proof.Machine

/-- The cameras of a copy, those marked RUNNING running. -/
def Image.startedCameras (i : Image) : Table Camera 8 := Table.make fun k => { Camera.initial (i.cameras.nth k).2 with
  state := if (i.cameras.nth k).1 then .running else .stopped }

/-- The rings of a copy, a RUNNING camera's with its replay window as extent. -/
def Image.startedRings (i : Image) : Table Ring 8 := Table.make fun k =>
  let w := i.windows.nth (i.cameras.nth k).2.replayWin
  { Ring.clear with extent := if (i.cameras.nth k).1 then some (w.base, w.size) else none }

/-- The part once a copy is applied, before the command engine takes up its rings. -/
def Part.applied (i : Image) (station : Nat) (next : LoaderState) (p : Part) : Part :=
  { p with
    loader := { p.loader with active := some i, station := station, calibrating := true, state := next }
    path := { p.path with
      windows := i.windows, intervals := i.intervals, waits := Table.all 0
      ports := p.path.ports.each fun q => { q with refusals := 0, reads := 0, writes := 0, last := none } }
    clock := p.clock.start i.rate p.now
    cues := tallied i.startedCameras (Table.make fun l => CueLine.initial (i.cues.nth l) (p.cues.nth l).pin)
    cameras := i.startedCameras
    coder := Coder.clear
    rings := i.startedRings
    mixer := ⟨if i.mixerOn then .running else .stopped, none, i.sources.each Source.initial,
      i.buses.each fun b => Bus.initial b.1 b.2, 0⟩
    clips := Clips.clear
    sender := { p.sender with
      items := [], classes := i.classes.each fun c => ClassRecord.initial c.1 c.2, cursors := Table.all none, store := []
      build := none, counts := ⟨0, 0, 0, 0, 0, 0, 0, 0, 0⟩ }
    lanes := (Table.make fun l => (p.lanes.nth l).repower (Lane.initial (i.lanes.nth l))).each fun l =>
      if l.cfg.initialOn then l.turnOn p.now else l }

section

variable (i : Image) (station : Nat) (next : LoaderState) (p : Part)

/-- The part as the cameras and the lanes of a copy are about to be started. -/
def Part.copied : Part :=
  let p1 := (p.setLoader { p.loader with active := some i, station := station, calibrating := true, state := next }).applyCopy i
  let p2 := p1.setClock (p1.clock.start i.rate p1.now)
  p2.setLanes (Table.make fun l => (p2.lanes.nth l).repower (Lane.initial (i.lanes.nth l)))

/-- Starting the cameras and the lanes of a copy whose settings a part has taken. -/
theorem starts_of_copy {i : Image} {p : Part} (hw : p.path.windows = i.windows) (hc : p.cameras = i.cameras.each fun c => Camera.initial c.2)
    (hr : p.rings = Table.all Ring.clear) : ((p.startCameras i).startLanes).tally = { p with
      cameras := i.startedCameras
      rings := i.startedRings
      lanes := p.lanes.each fun l => if l.cfg.initialOn then l.turnOn p.now else l
      cues := tallied i.startedCameras p.cues } := by
  have rings (k : Fin 8) : p.rings.nth k = Ring.clear := by rw [hr, Table.nth_all]
  have cameras (k : Fin 8) : p.cameras.nth k = Camera.initial (i.cameras.nth k).2 := by rw [hc, Table.nth_each]
  have running : (Table.make fun k => if (i.cameras.nth k).1 then
      { (p.cameras.nth k) with state := .running, slotA := Slot.clear, slotB := Slot.clear } else p.cameras.nth k : Table Camera 8) =
      i.startedCameras := by
    refine congrArg Table.make (funext fun k => ?_)
    rw [cameras]
    cases (i.cameras.nth k).1 <;> rfl
  have extents : (Table.make fun k => if (i.cameras.nth k).1 then
      { (p.rings.nth k) with
        extent := some ((p.path.windows.nth (p.cameras.nth k).cfg.replayWin).base, (p.path.windows.nth (p.cameras.nth k).cfg.replayWin).size)
        writePoint := 0 }
      else p.rings.nth k : Table Ring 8) = i.startedRings := by
    refine congrArg Table.make (funext fun k => ?_)
    rw [cameras, rings, hw]
    cases (i.cameras.nth k).1 <;> rfl
  have started := starts_eq i p fun k => by rw [rings]; rfl
  dsimp only at started
  rw [started, running, extents]

theorem copied_eq : p.copied i station next = { p with
    loader := { p.loader with active := some i, station := station, calibrating := true, state := next }
    path := { p.path with
      windows := i.windows, intervals := i.intervals, waits := Table.all 0
      ports := p.path.ports.each fun q => { q with refusals := 0, reads := 0, writes := 0, last := none } }
    clock := p.clock.start i.rate p.now
    cues := Table.make fun l => CueLine.initial (i.cues.nth l) (p.cues.nth l).pin
    cameras := i.cameras.each fun c => Camera.initial c.2
    coder := Coder.clear
    rings := Table.all Ring.clear
    mixer := ⟨if i.mixerOn then .running else .stopped, none, i.sources.each Source.initial,
      i.buses.each fun b => Bus.initial b.1 b.2, 0⟩
    clips := Clips.clear
    sender := { p.sender with
      items := [], classes := i.classes.each fun c => ClassRecord.initial c.1 c.2, cursors := Table.all none, store := []
      build := none, counts := ⟨0, 0, 0, 0, 0, 0, 0, 0, 0⟩ }
    lanes := Table.make fun l => (p.lanes.nth l).repower (Lane.initial (i.lanes.nth l)) } := by
  unfold Part.copied Part.applyCopy
  rfl

theorem starts_copied : (((p.copied i station next).startCameras i).startLanes).tally = p.applied i station next := by
  rw [copied_eq, starts_of_copy rfl rfl rfl]
  rfl

variable {i}

theorem application_of_rings {r : Rings} (h : i.rings = some r) : p.application i station next = (p.applied i station next).takeRings r := by
  unfold Part.application
  dsimp only
  rw [h]
  exact congrArg (Part.takeRings r) (starts_copied i station next p)

theorem application_of_none (h : i.rings = none) : p.application i station next = p.applied i station next := by
  unfold Part.application
  dsimp only
  rw [h]
  exact starts_copied i station next p

end

/-- The two rings of a copy whose windows agree. -/
theorem rings_eq_some {i : Image} {cw sw : Fin 32}
    (command : ∀ w, (i.windows.nth w).state = .opened ∧ (i.windows.nth w).kind = .command ↔ w = cw)
    (status : ∀ w, (i.windows.nth w).state = .opened ∧ (i.windows.nth w).kind = .status ↔ w = sw) :
    i.rings = some ⟨cw, sw, (i.windows.nth cw).base, (i.windows.nth sw).base, i.n, i.m⟩ := by
  have found (k : WindowKind) (x : Fin 32) (h : ∀ w, (i.windows.nth w).state = .opened ∧ (i.windows.nth w).kind = k ↔ w = x) :
      i.windowOf k = some x := by
    have test : (fun w => (i.windows.nth w).state == .opened && (i.windows.nth w).kind == k) = fun w => w == x := by
      funext w
      rw [Bool.eq_iff_iff, Bool.and_eq_true, beq_iff_eq, beq_iff_eq, beq_iff_eq]
      exact h w
    unfold Image.windowOf
    rw [test]
    cases found : (List.finRange 32).find? fun w => w == x with
    | none => exact absurd (List.find?_eq_none.1 found x (List.mem_finRange x)) (by simp)
    | some w =>
      have same := List.find?_some (p := fun w => w == x) found
      rw [beq_iff_eq.1 same]
  unfold Image.rings
  rw [found .command cw command, found .status sw status]

theorem imageRead_some {flash : Memory} {p : Part} (reading : p.loader.state = .reading) {i : Image}
    (h : checkedImage flash p.loader.stn1 p.loader.stn0 = some i) :
    p.imageRead flash = p.application i (4 * i.station + 2 * p.loader.stn1.toNat + p.loader.stn0.toNat) .calibrating := by
  unfold Part.imageRead
  rw [if_pos reading, h]
  rfl

theorem imageRead_none {flash : Memory} {p : Part} (reading : p.loader.state = .reading)
    (h : checkedImage flash p.loader.stn1 p.loader.stn0 = none) :
    p.imageRead flash = (p.application Image.fallback (2 * p.loader.stn1.toNat + p.loader.stn0.toNat) .fallback).startToggling := by
  unfold Part.imageRead
  rw [if_pos reading, h]
  dsimp only
  rw [show stationOf 0 p.loader.stn1 p.loader.stn0 = 2 * p.loader.stn1.toNat + p.loader.stn0.toNat by
    rw [stationOf, Nat.mul_zero, Nat.zero_add]]

/-- A cue line of a copy, its tally output following the cameras marked RUNNING. -/
theorem tallied_initial (i : Image) (pins : Table CueLine 8) (l : Fin 8) :
    (tallied i.startedCameras
      (Table.make fun l => CueLine.initial (i.cues.nth l) (pins.nth l).pin)).nth l =
    ⟨i.cues.nth l, (pins.nth l).pin, (pins.nth l).pin, (pins.nth l).pin,
      decide ((i.cues.nth l).mode = .tally ∧ ∃ k : Fin 8, (i.cues.nth l).tally = k.val ∧
        (i.cameras.nth k).1 = true ∧ (i.cameras.nth k).2.live = true), none, 0, 0, none⟩ := by
  unfold tallied Image.startedCameras
  simp only [Table.nth_make]
  have mode : (CueLine.initial (i.cues.nth l) (pins.nth l).pin).cfg.mode = (i.cues.nth l).mode := rfl
  have shown (k : Fin 8) : (if (i.cameras.nth k).1 = true then CameraState.running else .stopped) = .running ↔ (i.cameras.nth k).1 = true := by
    cases (i.cameras.nth k).1 <;> decide
  rw [mode]
  by_cases tally : (i.cues.nth l).mode = .tally
  · rw [if_pos tally]
    simp only [CueLine.initial, Camera.initial, tally, true_and, shown]
  · rw [if_neg tally]
    simp only [CueLine.initial, tally, false_and, decide_false]

theorem startedCameras_fallback : Image.fallback.startedCameras = Part.reset.cameras := by decide

theorem startedRings_fallback : Image.fallback.startedRings = Part.reset.rings := by decide

theorem mixer_fallback : (⟨.stopped, none, Image.fallback.sources.each Source.initial,
    Image.fallback.buses.each fun b => Bus.initial b.1 b.2, 0⟩ : Mixer) = Part.reset.mixer := by decide

/-- Settles O58: the copy the checks accept is applied whole, and any other image leads to the FALLBACK copy. -/
theorem powerOnThenTheImageOrFallback : Obligations.PowerOnThenTheImageOrFallback := by
  refine ⟨fun s dt load stn1 stn0 => ⟨_, rfl, rfl, rfl, rfl, rfl, rfl, rfl, rfl, rfl, rfl, rfl, rfl, rfl, fun l => ?_, fun c => ?_⟩,
    fun flash stn1 stn0 => checkedImage_iff flash stn1 stn0, fun s dt reading => ⟨fun copy found => ?_, fun refused => ?_⟩⟩
  · exact Table.nth_make ..
  · exact Table.nth_make ..
  · obtain ⟨len, -, -, ⟨-, ⟨cw, command⟩, ⟨sw, status⟩, -⟩, -⟩ := (checkedImage_iff ..).1 found
    let station := 4 * copy.station + 2 * s.part.loader.stn1.toNat + s.part.loader.stn0.toNat
    let p := (s.part.after dt).applied copy station .calibrating
    have run : exec (.imageReadComplete dt) s = .next (s.becomes
        (p.takeRings ⟨cw, sw, (copy.windows.nth cw).base, (copy.windows.nth sw).base, copy.n, copy.m⟩)) :=
      next_becomes ((imageRead_some (p := s.part.after dt) reading found).trans (application_of_rings _ _ _ (rings_eq_some command status)))
    refine ⟨_, run, rfl, rfl, rfl, rfl, rfl, rfl, rfl, rfl, rfl, rfl, rfl, rfl, fun k => ?_, fun k => ?_, fun l => ?_, rfl, rfl, rfl, rfl,
      rfl, fun x => ?_, rfl, rfl, rfl, fun n => ?_, fun b => ?_, fun x => ?_, fun l => ?_, cw, sw, command, status, rfl, ?_⟩
    · exact Table.nth_make ..
    · exact Table.nth_make ..
    · intro c off
      refine (Table.nth_each ..).trans ?_
      rw [Table.nth_make, turnOn_eq]
      rfl
    · exact Table.nth_all ..
    · exact Table.nth_each ..
    · exact Table.nth_each ..
    · exact Table.nth_each ..
    · exact tallied_initial copy s.part.cues l
    · exact Table.nth_put_same ..
  · let station := 2 * s.part.loader.stn1.toNat + s.part.loader.stn0.toNat
    let p := (s.part.after dt).applied Image.fallback station .fallback
    have run : exec (.imageReadComplete dt) s = .next (s.becomes p.startToggling) :=
      next_becomes ((imageRead_none (p := s.part.after dt) reading refused).trans
        (congrArg Part.startToggling (application_of_none _ _ _ rfl)))
    refine ⟨_, run, rfl, rfl, rfl, rfl, rfl, fun w => ?_, fun c => ?_, rfl, rfl, fun k => ?_, fun c => ?_, fun n => ?_, fun b => ?_, fun l => ?_,
      rfl, rfl, rfl, ?_, ?_, rfl, ?_, rfl, rfl, rfl, rfl, fun x => ?_, fun c => ?_⟩
    · exact congrArg Window.state (Table.nth_all ..)
    · exact Table.nth_all ..
    · change (Image.fallback.startedCameras.nth k).state = _
      rw [startedCameras_fallback]
      exact congrArg Camera.state (Table.nth_each ..)
    · refine (congrArg (fun x : CueLine => x.cfg.mode) (tallied_initial Image.fallback s.part.cues c)).trans ?_
      exact congrArg CueSettings.mode (Table.nth_all ..)
    · change ((Image.fallback.sources.each Source.initial).nth n).cfg.on = false
      rw [Table.nth_each]
      exact congrArg SourceSettings.on (Table.nth_all ..)
    · change ((Image.fallback.buses.each fun b => Bus.initial b.1 b.2).nth b).cfg.active = false
      rw [Table.nth_each]
      exact congrArg (fun x : BusSettings × List Contribution => x.1.active) (Table.nth_all ..)
    · refine (congrArg Lane.state (Table.nth_each ..)).trans ?_
      rw [Table.nth_make]
      have initial : (Image.fallback.lanes.nth l).initialOn = false := congrArg LaneSettings.initialOn (Table.nth_all ..)
      exact congrArg Lane.state (if_neg (Bool.eq_false_iff.1 initial))
    · exact startedCameras_fallback
    · exact startedRings_fallback
    · exact mixer_fallback
    · exact Table.nth_all ..
    · change (((Image.fallback.classes.each fun c => ClassRecord.initial c.1 c.2).nth c).interval,
        ((Image.fallback.classes.each fun c => ClassRecord.initial c.1 c.2).nth c).hold) = _
      rw [Table.nth_each]
      exact Table.nth_make ..

end Sys2Proof.Machine
end

section
/-! ENGINE RESET and its completion (O57). -/

namespace Sys2Proof.Machine

/-- The output a lane's frame in transmission leaves as it is broken off. -/
def Lane.brokenFrame (l : Fin 4) (r : Lane) : List Output :=
  match r.sending with
  | some (f, _) => [.frameBroken l f.kind]
  | none => []

theorem breakOffs_eq (lanes : List (Fin 4)) (p : Part) : lanes.foldl (fun p l => p.breakOff l) p =
    { p with outputs := p.outputs ++ lanes.flatMap fun l => (p.lanes.nth l).brokenFrame l } := by
  induction lanes generalizing p with
  | nil => exact congrArg (fun x => { p with outputs := x }) (List.append_nil p.outputs).symm
  | cons l rest ih =>
    rw [List.foldl_cons, ih, breakOff_eq, List.flatMap_cons, ← List.append_assoc]
    rfl

theorem completes_eq (l : List Deferred) (p : Part) : l.foldl (fun p d => p.complete d.ring d.tag .cancelled []) p =
    { p with cmd := { p.cmd with
      completions := p.cmd.completions ++ l.map fun d => ⟨d.ring, d.tag, .cancelled, []⟩ } } := by
  induction l generalizing p with
  | nil => exact congrArg (fun x => { p with cmd := { p.cmd with completions := x } }) (List.append_nil p.cmd.completions).symm
  | cons d rest ih =>
    rw [List.foldl_cons, ih, List.map_cons, ← List.singleton_append, ← List.append_assoc]
    rfl

section

variable (i : Image) (p : Part)

/-- The part as ENGINE RESET starts the cameras and the lanes of the active copy. -/
def Part.wiped : Part := { p with
  outputs := p.outputs ++ (List.finRange 4).flatMap fun l => (p.lanes.nth l).brokenFrame l
  path := { p.dropStreams.path with
    windows := i.windows, intervals := i.intervals, waits := Table.all 0
    ports := p.path.ports.each fun q => { q with refusals := 0, reads := 0, writes := 0, last := none } }
  cues := Table.make fun l => CueLine.initial (i.cues.nth l) (p.cues.nth l).pin
  cameras := i.cameras.each fun c => Camera.initial c.2
  coder := Coder.clear
  rings := Table.all Ring.clear
  mixer := ⟨if i.mixerOn then .running else .stopped, none, i.sources.each Source.initial,
    i.buses.each fun b => Bus.initial b.1 b.2, 0⟩
  clips := Clips.clear
  sender := { p.sender with
    items := [], classes := i.classes.each fun c => ClassRecord.initial c.1 c.2, cursors := Table.all none, store := []
    build := none, counts := ⟨0, 0, 0, 0, 0, 0, 0, 0, 0⟩ }
  lanes := Table.make fun l => (p.lanes.nth l).engineReset p.now (i.lanes.nth l) }

theorem reapply_eq : p.reapply i = { (p.wiped i) with
    cameras := i.startedCameras
    rings := i.startedRings
    lanes := (p.wiped i).lanes.each fun l => if l.cfg.initialOn then l.turnOn p.now else l
    cues := tallied i.startedCameras (p.wiped i).cues } := by
  let p1 := (p.dropStreams.breakOffAll).applyCopy i
  have wiped : p1.setLanes (Table.make fun l => (p1.lanes.nth l).engineReset p1.now (i.lanes.nth l)) = p.wiped i := by
    have broken : p.dropStreams.breakOffAll = _ := breakOffs_eq (List.finRange 4) p.dropStreams
    simp only [p1, broken]
    unfold Part.applyCopy
    rfl
  change (((p1.setLanes (Table.make fun l => (p1.lanes.nth l).engineReset p1.now (i.lanes.nth l))).startCameras i).startLanes).tally = _
  rw [wiped, starts_of_copy rfl rfl rfl]
  rfl

end

/-- A lane of the active copy: cut off, and turned on where its initial state is ON. -/
theorem engineReset_lane (r : Lane) (now : Nat) (c : LaneSettings) : r.engineReset now c = { r with
    state := .off, cfg := c, filterTimer := none, settleTimer := none, receive := .between
    queue := [], fifo := [], sending := none, returnHold := false
    breakEnd := if r.sending = none then r.breakEnd else some (now + 256 * (12 * r.cfg.divider))
    counts := ⟨0, 0, 0, 0, 0, 0⟩ } := by
  have cut : r.engineReset now c = { (r.cutOff now) with cfg := c } := rfl
  rw [cut, cutOff_eq]
  cases r.sending <;> rfl

/-- A reset once taken: the deferred commands end CANCELLED, the blocks take their state from the active copy, and the reset waits
behind its own completion. -/
theorem engineReset_eq {p : Part} {copy : Image} (active : p.loader.active = some copy) (i : Nat) (tag : Word) : p.engineReset i tag =
    { (p.reapply copy) with cmd := { p.cmd with
      deferred := [⟨i, tag, .engineReset⟩], notices := [], counts := ⟨0, 0, 0, 0, 0, 0⟩
      completions := p.cmd.completions ++ (p.cmd.deferred.map fun d => ⟨d.ring, d.tag, .cancelled, []⟩) ++ [⟨i, tag, .done, []⟩] } } := by
  have cancelled : p.cancelDeferred = _ := completes_eq p.cmd.deferred (p.setCmd { p.cmd with deferred := [] })
  have loader : p.cancelDeferred.clearCommander.loader.active = some copy := by
    rw [cancelled]
    exact active
  unfold Part.engineReset
  dsimp only
  rw [loader]
  dsimp only
  rw [cancelled, reapply_eq, reapply_eq]
  rfl

/-- Settles O57: the deferred commands are cancelled, every block takes its state from the active copy, and the reset's own
completion follows. -/
theorem engineResetAppliesTheActiveCopy : Obligations.EngineResetAppliesTheActiveCopy := by
  refine fun s => ⟨fun i tag h => ?_, fun idle => ?_, fun written outstanding => ?_⟩
  · have run := exec_of_taken h rfl
    refine ⟨fun busy => ?_, fun free other => ?_, fun copy free quiesced active => ?_⟩
    · exact run.trans (next_becomes (if_pos ((outstanding_eq_true ..).2 busy)))
    · have free : ¬ s.part.handEmpty.outstanding .engineReset = true := fun busy => (outstanding_eq_true ..).1 busy free
      exact run.trans (next_becomes ((if_neg free).trans (if_pos other)))
    · have free : ¬ s.part.handEmpty.outstanding .engineReset = true := fun busy => (outstanding_eq_true ..).1 busy free
      have reset := engineReset_eq (p := s.part.handEmpty) active i tag
      rw [reapply_eq] at reset
      refine ⟨_, run.trans (next_becomes ((if_neg free).trans ((if_neg (not_not_intro quiesced)).trans reset))), rfl, rfl, rfl, rfl, rfl, rfl,
        rfl, fun l => ?_, fun k => ?_, fun k => ?_, rfl, rfl, rfl, rfl, ?_, rfl⟩
      · exact tallied_initial copy s.part.cues l
      · exact Table.nth_make ..
      · exact Table.nth_make ..
      · intro l r c off
        refine (Table.nth_each ..).trans ?_
        have lane : (Part.wiped copy s.part.handEmpty).lanes.nth l = off := (Table.nth_make ..).trans (engineReset_lane ..)
        rw [lane, turnOn_eq]
        cases breakEnd : off.breakEnd <;> rfl
  · refine next_becomes (if_neg fun ⟨written, busy⟩ => ?_)
    obtain unwritten | free := idle
    · rw [unwritten] at written
      cases written
    · exact (outstanding_eq_true ..).1 busy free
  · exact next_becomes (if_pos ⟨written, (outstanding_eq_true ..).2 outstanding⟩)

end Sys2Proof.Machine
end

section
/-! SET CAMERA and START CAMERA (O25). -/

namespace Sys2Proof.Machine

/-! SET CAMERA (R44). -/

section

variable {p : Part} {camera : Byte} {k : Fin 8} {c : CameraSettings}

theorem setCameraTest_of_unread {fields : Option CameraSettings} (h : objectOf 8 camera = none ∨ fields = none) :
    p.setCameraTest camera fields = .error .badField := by
  unfold Part.setCameraTest
  obtain h | h := h
  · rw [h]
  · rw [h]
    cases objectOf 8 camera <;> rfl

theorem setCameraTest_eq (h : camera.toNat = k.val) : p.setCameraTest camera (some c) =
    if p.outstanding (.stopCamera k) then .error .busy
    else if (p.cameras.nth k).state = .running ∧ !(p.cameras.nth k).cfg.sameGeometry c then .error .state
    else if (p.cameras.nth k).state = .running ∧ (p.path.windows.nth (p.cameras.nth k).cfg.replayWin).size < c.budget then .error .badField
    else .ok (k, c) := by
  unfold Part.setCameraTest
  rw [objectOf_eq_some.2 h]

end

theorem sameGeometry_iff (a b : CameraSettings) : a.sameGeometry b = true ↔ a.frameWin = b.frameWin ∧ a.replayWin = b.replayWin ∧
    a.stride = b.stride ∧ a.lines = b.lines ∧ a.tiles = b.tiles := by
  simp only [CameraSettings.sameGeometry, Bool.and_eq_true, beq_iff_eq, and_assoc]

theorem policyOf_eq {b : Byte} (h : b.toNat ≤ 1) : policyOf b = some (if b.toNat = 0 then .hold else .drop) := by
  obtain h0 | h1 : b.toNat = 0 ∨ b.toNat = 1 := by omega
  · obtain rfl : b = 0 := BitVec.eq_of_toNat_eq h0
    rfl
  · obtain rfl : b = 1 := BitVec.eq_of_toNat_eq h1
    rfl

theorem policyOf_le {b : Byte} {x : Policy} (h : policyOf b = some x) : b.toNat ≤ 1 := by
  unfold policyOf at h
  split at h
  · next is => rw [is]; decide
  · split at h
    · next is => rw [is]; decide
    · cases h

/-! START CAMERA (R45, R80). -/

theorem cameraWindowsFit_iff {windows : Table Window 32} {k : Fin 8} {c : CameraSettings} : cameraWindowsFit windows k c = true ↔
    let f := windows.nth c.frameWin
    let r := windows.nth c.replayWin
    f.state = .opened ∧ f.kind = .frame ∧ f.subject = k.val ∧ 2 * (c.lines * c.stride) ≤ f.size ∧
      r.state = .opened ∧ r.kind = .replay ∧ r.subject = k.val ∧ c.budget ≤ r.size := by
  unfold cameraWindowsFit CameraSettings.slotSize
  simp only [Bool.and_eq_true, beq_iff_eq, decide_eq_true_eq, and_assoc]

section

variable {p : Part} {k : Fin 8} {atStart : Bool}

theorem takeExtent_equal (h : (p.rings.nth k).extent = some (p.replayWindow k)) : p.takeExtent k atStart = p := if_pos h

theorem takeExtent_taken (h : (p.rings.nth k).extent ≠ some (p.replayWindow k))
    (free : (p.rings.nth k).extent = none ∨ (p.rings.nth k).occupied = false) : p.takeExtent k atStart =
    { p with rings := p.rings.put k { (p.rings.nth k) with extent := some (p.replayWindow k), writePoint := 0 } } := by
  have free : ((p.rings.nth k).extent.isNone || !(p.rings.nth k).occupied) = true := by
    obtain h | h := free <;> simp [h]
  exact (if_neg h).trans (if_pos free)

theorem takeExtent_kept (h : (p.rings.nth k).extent ≠ some (p.replayWindow k)) (extent : (p.rings.nth k).extent ≠ none)
    (occupied : (p.rings.nth k).occupied = true) : p.takeExtent k atStart =
    if atStart then Part.raise .ring k.val { p with
      rings := p.rings.put k { (p.rings.nth k) with mismatches := count (p.rings.nth k).mismatches } } else p := by
  have kept : ¬ ((p.rings.nth k).extent.isNone || !(p.rings.nth k).occupied) = true := by
    simp [occupied, extent]
  exact (if_neg h).trans (if_neg kept)

end

/-- The part whose camera has gone to RUNNING, before its ring takes up the replay window. -/
def Part.cameraStarted (k : Fin 8) (p : Part) : Part := { p with
  cameras := p.cameras.put k { (p.cameras.nth k) with state := .running, slotA := Slot.clear, slotB := Slot.clear } }

/-- A camera started: its ring as the taking of the extent leaves it, a notice where that found a mismatch, and tally. -/
theorem startRunning_kept (k : Fin 8) (p : Part) :
    let q := (p.cameraStarted k).takeExtent k true
    p.startRunning k = { (p.cameraStarted k) with
      rings := q.rings, cmd := q.cmd, cues := tallied (p.cameraStarted k).cameras p.cues } := by
  intro q
  have started : p.startRunning k = q.tally := rfl
  have kept : q = { (p.cameraStarted k) with rings := q.rings, cmd := q.cmd } := by
    have cases' := takeExtent_kept (p := p.cameraStarted k) (k := k) (atStart := true)
    by_cases equal : ((p.cameraStarted k).rings.nth k).extent = some ((p.cameraStarted k).replayWindow k)
    · simp only [q, takeExtent_equal equal]
    · by_cases free : ((p.cameraStarted k).rings.nth k).extent = none ∨ ((p.cameraStarted k).rings.nth k).occupied = false
      · simp only [q, takeExtent_taken equal free]
      · rw [not_or] at free
        simp only [q, takeExtent_kept equal free.1 (by simpa using free.2), raise_eq]
        rfl
  rw [started, tally_eq, kept]
  rfl

/-- Settles O25: the tests in order, the record or the pending settings, and the ring's extent in its three cases. -/
theorem setCameraAndStartCameraApplyTheirTests : Obligations.SetCameraAndStartCameraApplyTheirTests := by
  refine ⟨?_, ?_⟩
  · intro s i tag camera frameWin replayWin stride lines tiles policy holdLimit budget live h run legal
    have ran : run = _ := exec_of_taken h rfl
    rw [ran]
    refine ⟨fun bad => next_becomes ?_, ?_⟩
    · rw [setCameraTest_of_unread]
      · rfl
      · cases hk : objectOf 8 camera with
        | none => exact .inl rfl
        | some k =>
          refine .inr ?_
          cases hc : cameraFields frameWin replayWin stride lines tiles policy holdLimit budget live with
          | none => rfl
          | some c =>
            obtain ⟨⟨fw, rw', st, ln, ti, pol, hold, bud, lv, -⟩, rest⟩ := cameraFields_eq_some.1 hc
            have := objectOf_lt hk
            have := c.frameWin.isLt
            have := c.replayWin.isLt
            have := policyOf_le pol
            rw [st, ln, ti, hold, bud] at rest
            obtain ⟨st1, st2, st3, ln1, ln2, ln3, ti1, ti2, hold1, hold2, bud1, bud2⟩ := rest
            exact absurd ⟨by omega, by omega, by omega, st1, st2, st3, ln1, ln2, ln3, ti1, ti2, by omega, hold1, hold2, lv, bud1, bud2⟩ bad
    · intro good k fw rw' pol hk hf hr hpol c same
      obtain ⟨-, -, -, st1, st2, st3, ln1, ln2, ln3, ti1, ti2, po, hold1, hold2, lv, bud1, bud2⟩ := good
      let new : CameraSettings :=
        ⟨fw, rw', stride.toNat, lines.toNat, tiles.toNat, pol, holdLimit.toNat, budget.toNat, decide (live.toNat = 1)⟩
      have fields : cameraFields frameWin replayWin stride lines tiles policy holdLimit budget live = some new :=
        cameraFields_eq_some.2 ⟨⟨hf.symm, hr.symm, rfl, rfl, rfl, (policyOf_eq po).trans (congrArg some hpol.symm), rfl, rfl, lv, rfl⟩,
          st1, st2, st3, ln1, ln2, ln3, ti1, ti2, hold1, hold2, bud1, bud2⟩
      have sameIff : c.cfg.sameGeometry new = true ↔ same := sameGeometry_iff ..
      rw [fields, setCameraTest_eq hk]
      have apart : ¬ s.part.noneOutstanding (.stopCamera k) ↔ s.part.handEmpty.outstanding (.stopCamera k) = true :=
        (outstanding_eq_true s.part _).symm
      refine ⟨fun busy => ?_, fun free => ⟨fun running other => ?_, fun running alike => ⟨fun small => ?_, fun fits => ?_⟩, fun idle => ?_⟩⟩
      · rw [if_pos (apart.1 busy)]
        rfl
      all_goals rw [if_neg (mt apart.2 (not_not_intro free))]
      · rw [if_pos ⟨running, by simpa using mt sameIff.1 other⟩]
        rfl
      · have at' : (s.part.path.windows.nth c.cfg.replayWin).size < budget.toNat := by rwa [alike.2.1]
        rw [if_neg fun h => absurd h.2 (by simpa using sameIff.2 alike), if_pos ⟨running, at'⟩]
        rfl
      · have at' : ¬ (s.part.path.windows.nth c.cfg.replayWin).size < budget.toNat := by rwa [alike.2.1, Nat.not_lt]
        rw [if_neg fun h => absurd h.2 (by simpa using sameIff.2 alike), if_neg fun h => at' h.2]
        exact next_becomes (congrArg (fun x => Part.answered { s.part with cameras := s.part.cameras.put k x } i tag []) (if_pos running))
      · rw [if_neg fun h => idle h.1, if_neg fun h => idle h.1]
        exact next_becomes (congrArg (fun x => Part.answered { s.part with cameras := s.part.cameras.put k x } i tag []) (if_neg idle))
  · intro s i tag camera h run
    have ran : run = _ := exec_of_taken h rfl
    rw [ran]
    refine ⟨fun bad => ?_, ?_⟩
    · rw [objectOf_eq_none.2 bad]
      rfl
    · intro k hk c f r fit g kept equal
      rw [objectOf_eq_some.2 hk]
      refine ⟨fun busy => next_becomes (if_pos ((outstanding_eq_true s.part _).2 busy)), fun free => ?_⟩
      have free : ¬ s.part.handEmpty.outstanding (.stopCamera k) = true := fun busy => (outstanding_eq_true ..).1 busy free
      refine ⟨fun other => next_becomes ((if_neg free).trans (if_pos other)), fun stopped unfit => next_becomes ?_, fun stopped fits => ?_⟩
      · refine (if_neg free).trans ((if_neg (not_not_intro stopped)).trans (if_pos ?_))
        rw [Bool.not_eq_true', ← Bool.not_eq_true]
        exact mt cameraWindowsFit_iff.1 unfit
      · have fits : ¬ (!cameraWindowsFit s.part.path.windows k c.cfg) = true := by
          rw [Bool.not_eq_true', Bool.not_eq_false]
          exact cameraWindowsFit_iff.2 fits
        let p := s.part.handEmpty.cameraStarted k
        let q := p.takeExtent k true
        have begun := startRunning_kept k s.part.handEmpty
        refine ⟨_, next_becomes ((if_neg free).trans ((if_neg (not_not_intro stopped)).trans ((if_neg fits).trans
          (congrArg (Part.finish i tag []) begun)))), rfl, rfl, rfl, ?_⟩
        have window : p.replayWindow k = (r.base, r.size) := by
          unfold Part.replayWindow p Part.cameraStarted
          rw [Table.nth_put_same]
          rfl
        have same (h : equal) : q.rings = s.part.rings ∧ q.cmd = p.cmd := by
          have found : q = p := takeExtent_equal (h.trans (congrArg some window.symm))
          rw [found]
          exact ⟨rfl, rfl⟩
        have taken (h : ¬ equal) (free : g.extent = none ∨ ¬ kept) :
            q.rings = s.part.rings.put k { g with extent := some (r.base, r.size), writePoint := 0 } ∧ q.cmd = p.cmd := by
          have free : (p.rings.nth k).extent = none ∨ (p.rings.nth k).occupied = false :=
            free.imp id fun h => Bool.eq_false_iff.2 (mt (Ring.occupied_iff _).1 h)
          have found : q = _ := takeExtent_taken (fun e => h (e.trans (congrArg some window))) free
          rw [found, window]
          exact ⟨rfl, rfl⟩
        have clash (h : ¬ equal) (extent : g.extent ≠ none) (occupied : kept) :
            q.rings = s.part.rings.put k { g with mismatches := count g.mismatches } ∧ q.cmd = p.cmd.raised (.ring, k.val) := by
          have found : q = _ := takeExtent_kept (fun e => h (e.trans (congrArg some window))) extent ((Ring.occupied_iff _).2 occupied)
          rw [found, if_pos rfl, raise_eq]
          exact ⟨rfl, rfl⟩
        have noted : p.cmd.Notified q.cmd := by
          by_cases h : equal
          · rw [(same h).2]
            exact .refl _
          · by_cases free : g.extent = none ∨ ¬ kept
            · rw [(taken h free).2]
              exact .refl _
            · rw [not_or, Classical.not_not] at free
              rw [(clash h free.1 free.2).2]
              exact notified_raised ..
        refine ⟨fun empty => ?_, fun h => ?_, fun h free => ?_, fun h extent occupied => ⟨?_, ?_⟩, fun h => ?_, fun j hj => ?_, ?_, rfl, rfl,
          fun l tally shows => ?_⟩
        · change (q.rings.nth k).extent = _
          by_cases h : equal
          · rw [(same h).1]
            exact h
          · rw [(taken h (.inr (mt (Ring.occupied_iff _).2 empty))).1, Table.nth_put_same]
        · change q.rings.nth k = g
          rw [(same h).1]
        · change q.rings.nth k = _
          rw [(taken h free).1, Table.nth_put_same]
        · change q.rings.nth k = _
          rw [(clash h extent occupied).1, Table.nth_put_same]
        · change _ ∈ q.cmd.notices
          rw [(clash h extent occupied).2]
          exact (mem_raised ..).2 (.inl rfl)
        · change q.cmd.notices = _
          by_cases e : equal
          · rw [(same e).2]
            rfl
          · rw [(taken e (h.resolve_left e)).2]
            rfl
        · change q.rings.nth j = _
          by_cases h : equal
          · rw [(same h).1]
          · by_cases free : g.extent = none ∨ ¬ kept
            · rw [(taken h free).1, Table.nth_put_other _ _ (Ne.symm hj)]
            · rw [not_or, Classical.not_not] at free
              rw [(clash h free.1 free.2).1, Table.nth_put_other _ _ (Ne.symm hj)]
        · change q.cmd.completions ++ _ = _
          rw [noted.rest]
          rfl
        · change ((tallied p.cameras s.part.cues).nth l).outputOn = c.cfg.live
          unfold tallied
          rw [Table.nth_make]
          dsimp only
          rw [if_pos tally, Bool.eq_iff_iff, decide_eq_true_eq]
          constructor
          · rintro ⟨j, hj, -, live⟩
            obtain rfl : j = k := Fin.ext (hj.symm.trans shows)
            change ((s.part.cameras.put j _).nth j).cfg.live = true at live
            rwa [Table.nth_put_same] at live
          · intro live
            refine ⟨k, shows, ?_⟩
            change ((s.part.cameras.put k _).nth k).state = .running ∧ ((s.part.cameras.put k _).nth k).cfg.live = true
            rw [Table.nth_put_same]
            exact ⟨rfl, live⟩

end Sys2Proof.Machine
end

section
/-! The mix event and the completion of a pass (R107 to R110), said once for O35 and O36. -/

namespace Sys2Proof.Machine

/-! Items are only ever taken from their queue by an overtaking. -/

/-- Each item of the second part is one of the first, which may have left its queue and failed. -/
def Part.ItemsFrom (p q : Part) : Prop := ∀ y, y ∈ q.sender.items → ∃ x, x ∈ p.sender.items ∧ y.id = x.id ∧ y.kind = x.kind ∧
  (x.queued = false → y.queued = false) ∧ (x.failed = true → y.failed = true)

theorem Part.ItemsFrom.refl (p : Part) : p.ItemsFrom p := fun y hy => ⟨y, hy, rfl, rfl, id, id⟩

theorem Part.ItemsFrom.trans {p q r : Part} (h : p.ItemsFrom q) (h' : q.ItemsFrom r) : p.ItemsFrom r := fun z hz => by
  obtain ⟨y, hy, id', kind', queued', failed'⟩ := h' z hz
  obtain ⟨x, hx, id, kind, queued, failed⟩ := h y hy
  exact ⟨x, hx, id'.trans id, kind'.trans kind, queued' ∘ queued, failed' ∘ failed⟩

theorem Part.ItemsFrom.foldl {α : Type} {f : Part → α → Part} (h : ∀ (p : Part) (a : α), p.ItemsFrom (f p a)) (l : List α) (p : Part) :
    p.ItemsFrom (l.foldl f p) := by
  induction l generalizing p with
  | nil => exact .refl p
  | cons a rest ih => exact (h p a).trans (ih (f p a))

/-- Items removed. -/
theorem Part.ItemsFrom.of_filter {p q : Part} {f : Item → Bool} (h : q.sender.items = p.sender.items.filter f) : p.ItemsFrom q := fun y hy => by
  rw [h] at hy
  exact ⟨y, (List.mem_filter.1 hy).1, rfl, rfl, id, id⟩

/-- Items changed in place. -/
theorem Part.ItemsFrom.of_map {p q : Part} {f : Item → Item} (h : q.sender.items = p.sender.items.map f)
    (hf : ∀ x, (f x).id = x.id ∧ (f x).kind = x.kind ∧ (x.queued = false → (f x).queued = false) ∧ (x.failed = true → (f x).failed = true)) :
    p.ItemsFrom q := fun y hy => by
  rw [h] at hy
  obtain ⟨x, hx, rfl⟩ := List.mem_map.1 hy
  exact ⟨x, hx, hf x⟩

theorem fragmentEnds_itemsFrom (id : Nat) (m : Settlement) (p : Part) : p.ItemsFrom (p.fragmentEnds id m) := by
  unfold Part.fragmentEnds
  split
  · exact .refl p
  · split
    · exact .of_filter (itemEnds_items ..)
    · refine .of_map rfl fun x => ?_
      split
      · exact ⟨rfl, rfl, fun h => h, fun h => by rw [h, Bool.true_or]⟩
      · exact ⟨rfl, rfl, fun h => h, fun h => h⟩

theorem times_fragmentEnds_itemsFrom (id : Nat) (m : Settlement) (k : Nat) (p : Part) : p.ItemsFrom (times (Part.fragmentEnds id m) k p) := by
  induction k generalizing p with
  | zero => exact .refl p
  | succ k ih =>
    rw [times_succ]
    exact (fragmentEnds_itemsFrom id m p).trans (ih _)

theorem testItemEnd_itemsFrom (id : Nat) (p : Part) : p.ItemsFrom (p.testItemEnd id) := by
  unfold Part.testItemEnd
  split
  · split
    · rw [Part.endItem_eq]
      exact .of_filter (itemEnds_items ..)
    · exact .refl p
  · exact .refl p

/-- An overtaken item's name is queued no longer, whatever else bears it. -/
theorem overtakeItem_itemsFrom (it : Item) (p : Part) : p.ItemsFrom (p.overtakeItem it) ∧
    ∀ y, y ∈ (p.overtakeItem it).sender.items → y.id = it.id → y.queued = false ∧ y.failed = true := by
  let store := (p.sender.store.filter fun d => d.item == it.id).foldl (fun store d => storeStruck d store) p.sender.store
  have struck : p.ItemsFrom ((p.itemStruck it).withStore store) := .of_map rfl fun x => by
    split
    · exact ⟨rfl, rfl, fun _ => rfl, fun _ => rfl⟩
    · exact ⟨rfl, rfl, fun h => h, fun h => h⟩
  have later : ((p.itemStruck it).withStore store).ItemsFrom (p.overtakeItem it) := by
    rw [overtakeItem_eq]
    exact Part.ItemsFrom.trans (times_fragmentEnds_itemsFrom _ _ _ _) (testItemEnd_itemsFrom _ _)
  refine ⟨struck.trans later, fun y hy named => ?_⟩
  obtain ⟨x, hx, id, -, queued, failed⟩ := later y hy
  obtain ⟨z, -, rfl⟩ := List.mem_map.1 (show x ∈ p.sender.items.map _ from hx)
  have own : z.id = it.id := by
    refine Decidable.byContradiction fun other => ?_
    rw [if_neg other] at id
    exact other (id.symm.trans named)
  rw [if_pos own] at queued failed
  exact ⟨queued rfl, failed rfl⟩

theorem overtaken_itemsFrom (b : Fin 16) (m : Word) (p : Part) : p.ItemsFrom (p.overtaken b m) :=
  .foldl (fun p it => (overtakeItem_itemsFrom it p).1) _ p

/-- After the report of a block no item that covers it is queued. -/
theorem overtaken_strikes (b : Fin 16) (m : Word) (p : Part) {y : Item} (hy : y ∈ (p.overtaken b m).sender.items)
    (covers : y.coversBlock b m = true) : y.queued = false ∧ y.failed = true := by
  have all (l : List Item) (p : Part) (y : Item) (hy : y ∈ (l.foldl (fun p it => p.overtakeItem it) p).sender.items)
      (named : ∃ it, it ∈ l ∧ it.id = y.id) : y.queued = false ∧ y.failed = true := by
    induction l generalizing p with
    | nil =>
      obtain ⟨it, hit, -⟩ := named
      cases hit
    | cons it rest ih =>
      obtain ⟨x, hx, same⟩ := named
      obtain rfl | hx := List.mem_cons.1 hx
      · have later := Part.ItemsFrom.foldl (fun p it => (overtakeItem_itemsFrom it p).1) rest (p.overtakeItem x)
        obtain ⟨z, hz, id, -, queued, failed⟩ := later y hy
        obtain ⟨left, fails⟩ := (overtakeItem_itemsFrom x p).2 z hz (id.symm.trans same.symm)
        exact ⟨queued left, failed fails⟩
      · exact ih (p.overtakeItem it) hy ⟨x, hx, same⟩
  obtain ⟨x, hx, id, kind, -⟩ := overtaken_itemsFrom b m p y hy
  refine all _ p y hy ⟨x, List.mem_filter.2 ⟨hx, ?_⟩, id.symm⟩
  unfold Item.coversBlock at covers ⊢
  rwa [kind] at covers

/-! The slot records of a bus. -/

theorem slotRecord_putSlotRecord_same (k : Nat) (n : Word) (slots : List (Nat × Word)) : slotRecord (putSlotRecord k n slots) k = some n := by
  induction slots with
  | nil => simp [putSlotRecord, slotRecord]
  | cons x rest ih =>
    obtain ⟨j, m⟩ := x
    unfold putSlotRecord
    split
    · simp [slotRecord]
    · split
      · simp [slotRecord]
      · next other =>
        unfold slotRecord at ih ⊢
        rw [List.find?_cons_of_neg (by simpa using Ne.symm other)]
        exact ih

theorem slotRecord_putSlotRecord_other {j k : Nat} (n : Word) (slots : List (Nat × Word)) (h : j ≠ k) :
    slotRecord (putSlotRecord k n slots) j = slotRecord slots j := by
  induction slots with
  | nil =>
    simp [putSlotRecord, slotRecord, Ne.symm h]
  | cons x rest ih =>
    obtain ⟨i, m⟩ := x
    unfold putSlotRecord
    split
    · simp [slotRecord, Ne.symm h]
    · split
      · next same =>
        subst same
        simp [slotRecord, Ne.symm h]
      · unfold slotRecord at ih ⊢
        by_cases first : i = j
        · rw [List.find?_cons_of_pos (by simpa using first), List.find?_cons_of_pos (by simpa using first)]
        · rw [List.find?_cons_of_neg (by simpa using first), List.find?_cons_of_neg (by simpa using first)]
          exact ih

/-! The mix event (R108, R109). -/

/-- A bus whose block is computed and metered. -/
def Bus.metered (block : List Int) (r : Bus) : Bus :=
  { r with peak := peakAfter r.peak (block.map clampSample), clips := countBy (clippedIn block) r.clips }

theorem metered_slots (block : List Int) (r : Bus) : (r.metered block).slots = r.slots := rfl

/-- The buses of a list metered, each by its block. -/
theorem meterBuses_eq (block : Fin 16 → List Int) (l : List (Fin 16)) (distinct : l.Nodup) (p : Part) :
    ∃ buses, (l.map fun b => (b, block b)).foldl (fun p x => p.meterBus x.1 x.2) p = { p with mixer := { p.mixer with buses := buses } } ∧
      ∀ b, buses.nth b = if b ∈ l then (p.mixer.buses.nth b).metered (block b) else p.mixer.buses.nth b := by
  induction l generalizing p with
  | nil => exact ⟨p.mixer.buses, rfl, fun b => rfl⟩
  | cons a rest ih =>
    obtain ⟨fresh, distinct⟩ := List.nodup_cons.1 distinct
    obtain ⟨buses, run, each⟩ := ih distinct (p.meterBus a (block a))
    refine ⟨buses, run, fun b => (each b).trans ?_⟩
    by_cases first : b = a
    · subst first
      rw [if_neg fresh, if_pos List.mem_cons_self]
      exact Table.nth_upd_same ..
    · have same : (p.meterBus a (block a)).mixer.buses.nth b = p.mixer.buses.nth b := Table.nth_upd_other _ _ (Ne.symm first)
      rw [same]
      simp only [List.mem_cons, first, false_or]

/-- What writing block `n` to the buses of a list makes of the part. -/
structure Part.Overwrites (n : Word) (ring : Fin 16 → Nat) (l : List (Fin 16)) (p q : Part) : Prop where
  sends : p.SendsTo { q with mixer := p.mixer }
  mixer : q.mixer = { p.mixer with buses := q.mixer.buses }
  items : p.ItemsFrom q
  buses : ∀ b, q.mixer.buses.nth b = if b ∈ l then
    { (p.mixer.buses.nth b) with slots := putSlotRecord (n.toNat % ring b) n (p.mixer.buses.nth b).slots } else p.mixer.buses.nth b
  strikes : ∀ b m it, b ∈ l → slotRecord (p.mixer.buses.nth b).slots (n.toNat % ring b) = some m → it ∈ q.sender.items →
    it.coversBlock b m = true → it.queued = false ∧ it.failed = true
  quiet : (∀ b, b ∈ l → slotRecord (p.mixer.buses.nth b).slots (n.toNat % ring b) = none) → q.sender = p.sender

theorem overwrites_nil (n : Word) (ring : Fin 16 → Nat) (p : Part) : p.Overwrites n ring [] p where
  sends := .refl p
  mixer := rfl
  items := .refl p
  buses _ := rfl
  strikes _ _ _ h := absurd h List.not_mem_nil
  quiet _ := rfl

/-- The part once the block a slot held is overtaken. -/
def Part.slotOvertaken (n : Word) (ring : Nat) (b : Fin 16) (p : Part) : Part :=
  match slotRecord (p.mixer.buses.nth b).slots (n.toNat % ring) with
  | some m => p.overtaken b m
  | none => p

theorem slotOvertaken_sendsTo (n : Word) (ring : Nat) (b : Fin 16) (p : Part) : p.SendsTo (p.slotOvertaken n ring b) := by
  unfold Part.slotOvertaken
  split
  · exact overtaken_sendsTo ..
  · exact .refl p

theorem overwrites_one (n : Word) (ring : Fin 16 → Nat) (b : Fin 16) (p : Part) :
    p.Overwrites n ring [b] (p.overtakeSlot n (ring b) b) := by
  let q := p.slotOvertaken n (ring b) b
  have sends : p.SendsTo q := slotOvertaken_sendsTo ..
  have mixer : q.mixer = p.mixer := by rw [sends.rest]
  have run : p.overtakeSlot n (ring b) b = { q with mixer := { p.mixer with
      buses := p.mixer.buses.upd b fun r => { r with slots := putSlotRecord (n.toNat % ring b) n r.slots } } } := by
    have made : p.overtakeSlot n (ring b) b = { q with mixer := { q.mixer with
      buses := q.mixer.buses.upd b fun r => { r with slots := putSlotRecord (n.toNat % ring b) n r.slots } } } := rfl
    rw [made, mixer]
  rw [run]
  refine ⟨⟨?_, sends.cmd⟩, rfl, ?_, fun c => ?_, fun c m it hc held hit covers => ?_, fun none' => ?_⟩
  · exact (congrArg (fun x : Part => { x with mixer := p.mixer }) sends.rest)
  · have from' : p.ItemsFrom q := by
      unfold q Part.slotOvertaken
      split
      · exact overtaken_itemsFrom _ _ _
      · exact Part.ItemsFrom.refl p
    exact from'
  · by_cases same : c = b
    · subst same
      rw [if_pos (List.mem_singleton.2 rfl)]
      exact Table.nth_upd_same ..
    · rw [if_neg (by simpa using same)]
      exact Table.nth_upd_other _ _ (Ne.symm same)
  · obtain rfl := List.mem_singleton.1 hc
    have overtook : q = p.overtaken c m := by
      unfold q Part.slotOvertaken
      rw [held]
    exact overtaken_strikes c m p (overtook ▸ hit) covers
  · have untouched : q = p := by
      unfold q Part.slotOvertaken
      rw [none' b (List.mem_singleton.2 rfl)]
    exact (congrArg Part.sender untouched :)

theorem Part.Overwrites.cons {n : Word} {ring : Fin 16 → Nat} {b : Fin 16} {l : List (Fin 16)} {p q r : Part} (fresh : b ∉ l)
    (h : p.Overwrites n ring [b] q) (h' : q.Overwrites n ring l r) : p.Overwrites n ring (b :: l) r := by
  have later (c : Fin 16) (hc : c ∈ l) : q.mixer.buses.nth c = p.mixer.buses.nth c := by
    rw [h.buses, if_neg fun same => fresh ((List.mem_singleton.1 same).subst (motive := (· ∈ l)) hc)]
  refine ⟨?_, ?_, Part.ItemsFrom.trans h.items h'.items, fun c => ?_, fun c m it hc held hit covers => ?_, fun none' => ?_⟩
  · have moved : ({ q with mixer := p.mixer } : Part).SendsTo { r with mixer := p.mixer } :=
      ⟨congrArg (fun x : Part => { x with mixer := p.mixer }) h'.sends.rest, h'.sends.cmd⟩
    exact h.sends.trans moved
  · rw [h'.mixer, h.mixer]
  · rw [h'.buses]
    by_cases inRest : c ∈ l
    · rw [if_pos inRest, if_pos (List.mem_cons_of_mem _ inRest), later c inRest]
    · rw [if_neg inRest, h.buses]
      simp only [List.mem_cons, inRest, or_false, List.not_mem_nil]
  · obtain rfl | inRest := List.mem_cons.1 hc
    · obtain ⟨x, hx, -, kind, queued, failed⟩ := h'.items it hit
      have covered : x.coversBlock c m = true := by
        unfold Item.coversBlock at covers ⊢
        rwa [kind] at covers
      obtain ⟨left, fails⟩ := h.strikes c m x (List.mem_singleton.2 rfl) held hx covered
      exact ⟨queued left, failed fails⟩
    · exact h'.strikes c m it inRest (by rw [later c inRest]; exact held) hit covers
  · rw [h'.quiet fun c hc => by rw [later c hc]; exact none' c (List.mem_cons_of_mem _ hc),
      h.quiet fun c hc => none' c (List.mem_cons.2 (.inl (List.mem_singleton.1 hc)))]

theorem overwrites_all (n : Word) (ring : Fin 16 → Nat) (l : List (Fin 16)) (distinct : l.Nodup) (p : Part) :
    p.Overwrites n ring l (l.foldl (fun p b => p.overtakeSlot n (ring b) b) p) := by
  induction l generalizing p with
  | nil => exact overwrites_nil n ring p
  | cons b rest ih =>
    obtain ⟨fresh, distinct⟩ := List.nodup_cons.1 distinct
    exact .cons fresh (overwrites_one n ring b p) (ih distinct _)

theorem Pass.active_nodup (q : Pass) : q.active.Nodup := (List.nodup_finRange 16).filter _

theorem Pass.mem_active {q : Pass} {b : Fin 16} : b ∈ q.active ↔ (q.buses.nth b).cfg.active = true := by
  simp [Pass.active]

/-- The pass's output writes, one for each ACTIVE bus. -/
def Pass.writes (q : Pass) : List (Nat × List Byte) :=
  q.active.map fun b => (q.outputAt b, blockOf ((mixBlock (q.buses.nth b) q.samples).map clampSample))

/-- The mix event: the ACTIVE buses are metered and overwritten, and the first write is offered. -/
theorem mixEvent_says (q : Pass) (p : Part) : ∃ r : Part,
    p.mixEvent q = r.writeNext { q with phase := .writing } q.writes ∧
    p.SendsTo { r with mixer := p.mixer } ∧ r.mixer = { p.mixer with buses := r.mixer.buses } ∧
    (∀ b, r.mixer.buses.nth b = if (q.buses.nth b).cfg.active then
      { ((p.mixer.buses.nth b).metered (mixBlock (q.buses.nth b) q.samples)) with
        slots := putSlotRecord (q.block.toNat % (q.buses.nth b).cfg.ring) q.block (p.mixer.buses.nth b).slots }
      else p.mixer.buses.nth b) ∧
    (∀ b m it, (q.buses.nth b).cfg.active = true →
      slotRecord (p.mixer.buses.nth b).slots (q.block.toNat % (q.buses.nth b).cfg.ring) = some m → it ∈ r.sender.items →
      it.coversBlock b m = true → it.queued = false ∧ it.failed = true) ∧
    ((∀ b, (q.buses.nth b).cfg.active = true →
      slotRecord (p.mixer.buses.nth b).slots (q.block.toNat % (q.buses.nth b).cfg.ring) = none) → r.sender = p.sender) := by
  obtain ⟨buses, metered, each⟩ := meterBuses_eq (fun b => mixBlock (q.buses.nth b) q.samples) q.active q.active_nodup p
  let p1 : Part := { p with mixer := { p.mixer with buses := buses } }
  have written := overwrites_all q.block (fun b => (q.buses.nth b).cfg.ring) q.active q.active_nodup p1
  have slots (b : Fin 16) : (buses.nth b).slots = (p.mixer.buses.nth b).slots := by
    rw [each]
    split
    · exact metered_slots ..
    · rfl
  refine ⟨q.active.foldl (fun p b => p.overtakeSlot q.block (q.buses.nth b).cfg.ring b) p1, ?_, ?_, written.mixer, fun b => ?_,
    fun b m it active held => ?_, fun none' => ?_⟩
  · unfold Part.mixEvent
    dsimp only
    rw [metered, List.map_map]
    rfl
  · exact (Part.SendsTo.trans (q := { p1 with mixer := p.mixer }) (.refl p)
      ⟨congrArg (fun x : Part => { x with mixer := p.mixer }) written.sends.rest, written.sends.cmd⟩)
  · have wrote := written.buses b
    change _ = if _ then { (buses.nth b) with slots := putSlotRecord _ _ (buses.nth b).slots } else buses.nth b at wrote
    rw [slots, each] at wrote
    by_cases active : (q.buses.nth b).cfg.active = true
    · rw [if_pos (Pass.mem_active.2 active), if_pos (Pass.mem_active.2 active)] at wrote
      rw [if_pos active, wrote]
    · rw [if_neg (mt Pass.mem_active.1 active), if_neg (mt Pass.mem_active.1 active)] at wrote
      rw [if_neg active, wrote]
  · refine written.strikes b m it (Pass.mem_active.2 active) ?_
    change slotRecord (buses.nth b).slots _ = _
    rw [slots]
    exact held
  · refine written.quiet fun b hb => ?_
    change slotRecord (buses.nth b).slots _ = _
    rw [slots]
    exact none' b (Pass.mem_active.1 hb)

/-! The completion of a pass (R110). -/

theorem makeItem_audio (b : Fin 16) (first : Word) (blocks slot ring : Nat) (p : Part) :
    p.makeItem (.audioFrame b first blocks slot ring) = if (p.sender.queueOf .audio).length < 32 then
      p.queueItem (.audioFrame b first blocks slot ring) (ItemKind.payload (.audioFrame b first blocks slot ring)) else p.dropFull .audio := rfl

/-- An item handed by a bus: at the tail of the AUDIO queue, or dropped. -/
theorem makeItem_audio_says (b : Fin 16) (first : Word) (blocks slot ring : Nat) (p : Part) :
    let r := p.makeItem (.audioFrame b first blocks slot ring)
    p.SendsTo r ∧ r.mixer = p.mixer ∧ (∀ x, x ∈ p.sender.items → x ∈ r.sender.items) ∧
    (r.sender.queueOf .audio).length ≤ (p.sender.queueOf .audio).length + 1 ∧
    ((p.sender.queueOf .audio).length < 32 → ∃ it, it ∈ r.sender.items ∧ it.queued = true ∧
      it.kind = .audioFrame b first blocks slot ring ∧ it.length = 192 * blocks) := by
  intro r
  have made : r = _ := makeItem_audio b first blocks slot ring p
  by_cases room : (p.sender.queueOf .audio).length < 32
  · rw [if_pos room] at made
    rw [made]
    refine ⟨⟨rfl, .refl _⟩, rfl, fun x hx => List.mem_append_left _ hx, ?_, fun _ => ⟨_, List.mem_append_right _ (List.mem_singleton.2 rfl), rfl, rfl, rfl⟩⟩
    change ((p.sender.items ++ [_]).filter _).length ≤ _
    rw [List.filter_append, List.length_append]
    exact Nat.add_le_add_left (List.length_filter_le ..) _
  · rw [if_neg room] at made
    have dropped : p.dropFull .audio = Part.raise .send 0 { p with sender := { p.sender with
        classes := p.sender.classes.upd 0 fun r => { r with droppedFull := count r.droppedFull, losses := count r.losses } } } :=
      onClass_lossOf ..
    rw [made, dropped, raise_eq]
    exact ⟨⟨rfl, notified_raised ..⟩, rfl, fun x hx => hx, Nat.le_succ _, fun h => absurd h room⟩

/-- A bus once a pass has handed its item or counted its short frame. -/
def Pass.handed (q : Pass) (b : Fin 16) (r : Bus) : Bus :=
  if q.sends b r.cfg then
    if q.holdsAll b r.slots then { r with itemsHanded := count r.itemsHanded } else { r with shortFrames := count r.shortFrames }
  else r

/-- What handing the items of a list of buses makes of the part. -/
structure Part.Hands (q : Pass) (l : List (Fin 16)) (p r : Part) : Prop where
  sends : p.SendsTo { r with mixer := p.mixer }
  mixer : r.mixer = { p.mixer with buses := r.mixer.buses }
  buses : ∀ b, r.mixer.buses.nth b = if b ∈ l then q.handed b (p.mixer.buses.nth b) else p.mixer.buses.nth b
  kept : ∀ x, x ∈ p.sender.items → x ∈ r.sender.items
  queue : (r.sender.queueOf .audio).length ≤ (p.sender.queueOf .audio).length + l.length
  made : ∀ b, b ∈ l → q.sends b (p.mixer.buses.nth b).cfg = true → q.holdsAll b (p.mixer.buses.nth b).slots = true →
    (p.sender.queueOf .audio).length + l.length ≤ 32 → ∃ it, it ∈ r.sender.items ∧ it.queued = true ∧
      it.kind = .audioFrame b (BitVec.ofNat 32 (q.block.toNat + 1 - (q.buses.nth b).cfg.divider)) (q.buses.nth b).cfg.divider
        (q.buses.nth b).base (q.buses.nth b).cfg.ring ∧ it.length = 192 * (q.buses.nth b).cfg.divider
  quiet : (∀ b, b ∈ l → q.sends b (p.mixer.buses.nth b).cfg = false) → r.sender = p.sender

theorem hands_nil (q : Pass) (p : Part) : p.Hands q [] p where
  sends := .refl p
  mixer := rfl
  buses _ := rfl
  kept _ h := h
  queue := Nat.le_refl _
  made _ h := absurd h List.not_mem_nil
  quiet _ := rfl

theorem handed_none {q : Pass} {b : Fin 16} {r : Bus} (h : q.sends b r.cfg = false) : q.handed b r = r :=
  if_neg (Bool.eq_false_iff.1 h)

theorem handed_short {q : Pass} {b : Fin 16} {r : Bus} (h : q.sends b r.cfg = true) (lacks : q.holdsAll b r.slots = false) :
    q.handed b r = { r with shortFrames := count r.shortFrames } :=
  (if_pos h).trans (if_neg (Bool.eq_false_iff.1 lacks))

theorem handed_item {q : Pass} {b : Fin 16} {r : Bus} (h : q.sends b r.cfg = true) (holds : q.holdsAll b r.slots = true) :
    q.handed b r = { r with itemsHanded := count r.itemsHanded } :=
  (if_pos h).trans (if_pos holds)

theorem hands_one (q : Pass) (b : Fin 16) (p : Part) : p.Hands q [b] (Part.handAudio q p b) := by
  let r := p.mixer.buses.nth b
  have spread (f : Bus → Bus) (h : f r = q.handed b r) (c : Fin 16) : (p.mixer.buses.upd b f).nth c =
      if c ∈ [b] then q.handed c (p.mixer.buses.nth c) else p.mixer.buses.nth c := by
    by_cases same : c = b
    · rw [same, Table.nth_upd_same, if_pos (List.mem_singleton.2 rfl)]
      exact h
    · rw [Table.nth_upd_other _ _ (Ne.symm same), if_neg (by simpa using same)]
  cases sends : q.sends b r.cfg with
  | false =>
    have idle : Part.handAudio q p b = p := if_neg (Bool.eq_false_iff.1 sends)
    rw [idle]
    refine ⟨.refl p, rfl, fun c => ?_, fun _ h => h, Nat.le_succ _, fun c hc sends' => ?_, fun _ => rfl⟩
    · by_cases same : c = b
      · subst same
        rw [if_pos (List.mem_singleton.2 rfl)]
        exact (handed_none sends).symm
      · rw [if_neg (by simpa using same)]
    · rw [List.mem_singleton.1 hc] at sends'
      exact absurd (sends.symm.trans sends') (by decide)
  | true =>
    cases holds : q.holdsAll b r.slots with
    | false =>
      have short : Part.handAudio q p b = p.updBus b fun r => { r with shortFrames := count r.shortFrames } :=
        (if_pos sends).trans (if_neg (Bool.eq_false_iff.1 holds))
      rw [short]
      refine ⟨.refl p, rfl, spread _ (handed_short sends holds).symm, fun _ h => h, Nat.le_succ _, fun c hc _ holds' => ?_,
        fun none' => absurd (sends.symm.trans (none' b (List.mem_singleton.2 rfl))) (by decide)⟩
      rw [List.mem_singleton.1 hc] at holds'
      exact absurd (holds.symm.trans holds') (by decide)
    | true =>
      let conf := (q.buses.nth b).cfg
      let m := p.makeItem (.audioFrame b (BitVec.ofNat 32 (q.block.toNat + 1 - conf.divider)) conf.divider (q.buses.nth b).base conf.ring)
      obtain ⟨moved, mixer, kept, queue, made⟩ := makeItem_audio_says b (BitVec.ofNat 32 (q.block.toNat + 1 - conf.divider)) conf.divider
        (q.buses.nth b).base conf.ring p
      have hands : Part.handAudio q p b = { m with mixer := { p.mixer with
          buses := p.mixer.buses.upd b fun r => { r with itemsHanded := count r.itemsHanded } } } := by
        have handed : Part.handAudio q p b = m.updBus b fun r => { r with itemsHanded := count r.itemsHanded } :=
          (if_pos sends).trans (if_pos holds)
        have own : m.mixer = p.mixer := mixer
        rw [handed, ← own]
        rfl
      rw [hands]
      refine ⟨⟨congrArg (fun x : Part => { x with mixer := p.mixer }) moved.rest, moved.cmd⟩, rfl,
        spread _ (handed_item sends holds).symm, kept, queue, fun c hc _ _ few => ?_,
        fun none' => absurd (sends.symm.trans (none' b (List.mem_singleton.2 rfl))) (by decide)⟩
      rw [List.mem_singleton.1 hc]
      exact made (Nat.lt_of_succ_le few)

theorem Part.Hands.cons {q : Pass} {b : Fin 16} {l : List (Fin 16)} {p r t : Part} (fresh : b ∉ l) (h : p.Hands q [b] r)
    (h' : r.Hands q l t) : p.Hands q (b :: l) t := by
  have later (c : Fin 16) (hc : c ∈ l) : r.mixer.buses.nth c = p.mixer.buses.nth c := by
    rw [h.buses, if_neg fun same => fresh ((List.mem_singleton.1 same).subst (motive := (· ∈ l)) hc)]
  have queue : (r.sender.queueOf .audio).length ≤ (p.sender.queueOf .audio).length + 1 := h.queue
  refine ⟨?_, ?_, fun c => ?_, fun x hx => h'.kept x (h.kept x hx), ?_, fun c hc sends holds few => ?_, fun none' => ?_⟩
  · have moved : ({ r with mixer := p.mixer } : Part).SendsTo { t with mixer := p.mixer } :=
      ⟨congrArg (fun x : Part => { x with mixer := p.mixer }) h'.sends.rest, h'.sends.cmd⟩
    exact h.sends.trans moved
  · rw [h'.mixer, h.mixer]
  · rw [h'.buses]
    by_cases inRest : c ∈ l
    · rw [if_pos inRest, if_pos (List.mem_cons_of_mem _ inRest), later c inRest]
    · rw [if_neg inRest, h.buses]
      simp only [List.mem_cons, inRest, or_false, List.not_mem_nil]
  · rw [List.length_cons]
    have := h'.queue
    omega
  · rw [List.length_cons] at few
    obtain rfl | inRest := List.mem_cons.1 hc
    · obtain ⟨it, hit, rest⟩ := h.made c (List.mem_singleton.2 rfl) sends holds (by rw [List.length_singleton]; omega)
      exact ⟨it, h'.kept it hit, rest⟩
    · rw [← later c inRest] at sends holds
      exact h'.made c inRest sends holds (by omega)
  · rw [h'.quiet fun c hc => by rw [later c hc]; exact none' c (List.mem_cons_of_mem _ hc),
      h.quiet fun c hc => none' c (List.mem_cons.2 (.inl (List.mem_singleton.1 hc)))]

theorem hands_all (q : Pass) (l : List (Fin 16)) (distinct : l.Nodup) (p : Part) : p.Hands q l (l.foldl (Part.handAudio q) p) := by
  induction l generalizing p with
  | nil => exact hands_nil q p
  | cons b rest ih =>
    obtain ⟨fresh, distinct⟩ := List.nodup_cons.1 distinct
    exact .cons fresh (hands_one q b p) (ih distinct _)

/-- The completion of a pass: each bus hands its item or counts a short frame, and leaving entries at gain 0 go. -/
theorem passComplete_says (q : Pass) (p : Part) : ∃ r : Part, p.Hands q (List.finRange 16) r ∧
    p.passComplete q = { r with mixer := { p.mixer with pass := none, buses := r.mixer.buses.each Bus.dropLeaving } } := by
  have hands := hands_all q (List.finRange 16) (List.nodup_finRange 16) p
  refine ⟨_, hands, ?_⟩
  exact congrArg (fun m : Mixer => { ((List.finRange 16).foldl (Part.handAudio q) p) with mixer := { m with
    pass := none, buses := ((List.finRange 16).foldl (Part.handAudio q) p).mixer.buses.each Bus.dropLeaving } }) hands.mixer

end Sys2Proof.Machine
end

section
/-! The mixer started and stopped, and a pass from its first read to its completion (O35). -/

namespace Sys2Proof.Machine

section

variable {s : State} {dt : Nat} {q : Request} {x : Pass}

/-- A transfer of the MIXER stream that ends within a pass. -/
theorem exec_mixerTransfer (h : s.streaming mixerStream q) : exec (.transferComplete dt) s = .next { s with
    dram := moved s.dram q q.line
    part := (((s.part.after dt).freeChannel).mixerTransfer (s.returned q.kind q.line q.count)).afterTransfer } :=
  exec_streamTransfer h

variable {p : Part} (pass : p.mixer.pass = some x)
include pass

theorem mixerTransfer_reading (data : List Byte) (reading : x.phase = .reading) {n : Fin 64} {k : Nat} {rest : List (Fin 64 × Nat)}
    (toRead : x.toRead = (n, k) :: rest) : p.mixerTransfer data =
    p.readNext { x with samples := x.samples ++ [(n, blockSamples (x.sources.nth n).cfg.width data)] } rest := by
  unfold Part.mixerTransfer
  rw [pass]
  dsimp only
  rw [reading, toRead]

theorem mixerTransfer_writing (data : List Byte) (writing : x.phase = .writing) : p.mixerTransfer data = p.writeNext x x.toWrite.tail := by
  unfold Part.mixerTransfer
  rw [pass]
  dsimp only
  rw [writing]

end

/-- The next write of a pass offered, its completion told by a transfer's end. -/
theorem writeNext_cons (q : Pass) (a : Nat) (bs : List Byte) (rest : List (Nat × List Byte)) (p : Part) :
    p.writeNext q ((a, bs) :: rest) = { p with
      mixer := { p.mixer with pass := some { q with phase := .writing, toWrite := (a, bs) :: rest } }
      path := p.path.offering mixerStream (writeRequest a bs) } := rfl

theorem readNext_cons (q : Pass) (n : Fin 64) (k : Nat) (rest : List (Fin 64 × Nat)) (p : Part) :
    p.readNext q ((n, k) :: rest) = { p with
      mixer := { p.mixer with pass := some { q with toRead := (n, k) :: rest } }
      path := p.path.offering mixerStream (readRequest ((q.sources.nth n).base + 192 * k) 192) } := rfl

theorem metered_eq (block : List Int) (r : Bus) : r.metered block = { r with
    peak := (block.map clampSample).foldl (fun m v => max m v.natAbs) r.peak
    clips := min (r.clips + (block.filter fun v => clampSample v != v).length) 65535 } := rfl

/-- The sum over a list in the order it is added up. -/
theorem foldl_add_eq_sum (l : List Int) : l.foldl (· + ·) 0 = l.sum := List.sum_eq_foldl.symm

theorem sends_iff (q : Pass) (b : Fin 16) (now : BusSettings) : q.sends b now = true ↔ (q.buses.nth b).cfg.active = true ∧
    (q.buses.nth b).cfg.send = true ∧ now.active = true ∧ now.send = true ∧ (q.block.toNat + 1) % (q.buses.nth b).cfg.divider = 0 := by
  simp only [Pass.sends, Bool.and_eq_true, beq_iff_eq, and_assoc]

theorem holdsAll_iff (q : Pass) (b : Fin 16) (slots : List (Nat × Word)) : q.holdsAll b slots = true ↔
    ∀ i, i < (q.buses.nth b).cfg.divider →
      slotRecord slots ((q.block.toNat + 1 - (q.buses.nth b).cfg.divider + i) % (q.buses.nth b).cfg.ring) =
        some (BitVec.ofNat 32 (q.block.toNat + 1 - (q.buses.nth b).cfg.divider + i)) := by
  simp only [Pass.holdsAll, List.all_eq_true, List.mem_range, beq_iff_eq]

/-- Settles O35: the state tests of the two commands, and a transfer's end within a pass by its phase and what is left of it. -/
theorem theMixerStartsAndStopsBetweenPasses : Obligations.TheMixerStartsAndStopsBetweenPasses := by
  refine ⟨?_, ?_, ?_⟩
  · intro s goes
    refine ⟨fun i tag h => ?_, fun i tag h => ?_, fun d stopping none' kind awaits => ?_⟩
    · have run := exec_of_taken h rfl
      refine ⟨fun busy => ?_, fun free => ?_⟩
      · exact run.trans (next_becomes (if_pos ((outstanding_eq_true ..).2 busy)))
      · have free : ¬ s.part.handEmpty.outstanding .stopMixer = true := fun busy => (outstanding_eq_true ..).1 busy free
        exact ⟨fun running => run.trans (next_becomes ((if_neg free).trans (if_pos running))),
          fun other => run.trans (next_becomes ((if_neg free).trans (if_neg other)))⟩
    · have run := exec_of_taken h rfl
      refine ⟨fun busy => ?_, fun free => ?_⟩
      · exact run.trans (next_becomes (if_pos ((outstanding_eq_true ..).2 busy)))
      · have free : ¬ s.part.handEmpty.outstanding .stopMixer = true := fun busy => (outstanding_eq_true ..).1 busy free
        refine ⟨fun stopped => run.trans (next_becomes ((if_neg free).trans (if_pos stopped))), fun other none' => ?_, fun other some' => ?_⟩
        · exact run.trans (next_becomes ((if_neg free).trans ((if_neg other).trans (if_pos (Option.isNone_iff_eq_none.2 none')))))
        · exact run.trans (next_becomes ((if_neg free).trans ((if_neg other).trans (if_neg (mt Option.isNone_iff_eq_none.1 some')))))
    · refine next_becomes ((if_pos ⟨stopping, Option.isNone_iff_eq_none.2 none'⟩).trans ?_)
      rw [← kind]
      exact completeDeferred_of_awaits (p := s.part.setMixerState .stopped) awaits
  · intro s dt q x streams pass freed ends data got conf
    have run := exec_mixerTransfer (dt := dt) streams
    let p := (s.part.after dt).freeChannel
    have pass : p.mixer.pass = some x := pass
    refine ⟨fun n k m l more reading toRead => ?_, fun n k first others reading toRead active => ?_, fun w a bs more writing toWrite => ?_,
      fun writing few => ?_⟩
    · intro a
      rw [mixerTransfer_reading pass _ reading toRead] at run
      rw [readNext_cons, afterTransfer_of_free rfl] at run
      exact ⟨_, run, rfl⟩
    · intro samples block clamped slot at' bytes
      rw [mixerTransfer_reading pass _ reading toRead] at run
      obtain ⟨r, mixed, sends, mixer, buses, strikes, quiet⟩ := mixEvent_says { x with samples := samples, toRead := [] } p
      have writes : Pass.writes { x with samples := samples, toRead := [] } = (first :: others).map fun b => (at' b, bytes b) := by
        rw [← active]
        rfl
      rw [writes, List.map_cons, writeNext_cons] at mixed
      have path : r.path = p.path := sends.path
      have free : (r.path.offering mixerStream (writeRequest (at' first) (bytes first))).channel = .free := by
        rw [path]
        rfl
      have ran := run.trans (congrArg (fun m : Part => Host.Outcome.next { s with
        dram := moved s.dram q q.line, part := m.afterTransfer }) mixed)
      rw [afterTransfer_of_free (by exact free)] at ran
      refine ⟨_, ran, ?_, rfl, ?_, fun b idle => ?_, fun b busy => ?_, fun b m it busy held hit covers => ?_, fun none' => ?_⟩
      · exact (congrArg Mixer.sources mixer :)
      · change (r.path.offering mixerStream _).freed = _
        rw [path]
        rfl
      · exact (buses b).trans (if_neg (Bool.eq_false_iff.1 idle))
      · refine ⟨putSlotRecord (slot b) x.block (s.part.mixer.buses.nth b).slots, slotRecord_putSlotRecord_same .., fun y hy =>
          slotRecord_putSlotRecord_other _ _ hy, ?_⟩
        have same : mixBlock (x.buses.nth b) samples = block b := rfl
        refine (buses b).trans ((if_pos busy).trans ?_)
        dsimp only
        rw [same, metered_eq]
        rfl
      · exact strikes b m it busy held hit covers
      · exact quiet none'
    · rw [mixerTransfer_writing pass _ writing, toWrite, List.tail_cons, writeNext_cons, afterTransfer_of_free rfl] at run
      refine ⟨_, run, ?_⟩
      rw [← writing]
      rfl
    · intro n sends holds
      have done : x.toWrite.tail = [] := by
        rw [← List.length_eq_zero_iff, List.length_tail]
        omega
      rw [mixerTransfer_writing pass _ writing, done] at run
      obtain ⟨r, hands, completed⟩ := passComplete_says x p
      have path : r.path = p.path := hands.sends.path
      have ran := run.trans (congrArg (fun m : Part => Host.Outcome.next { s with
        dram := moved s.dram q q.line, part := m.afterTransfer }) completed)
      rw [afterTransfer_of_free (by rw [path]; rfl)] at ran
      have bus (b : Fin 16) : (r.mixer.buses.each Bus.dropLeaving).nth b = (x.handed b (s.part.mixer.buses.nth b)).dropLeaving := by
        rw [Table.nth_each, hands.buses, if_pos (List.mem_finRange b)]
        rfl
      refine ⟨_, ran, ?_, rfl, rfl, rfl, rfl, fun b => ?_⟩
      · change r.path.freed = _
        rw [path]
        rfl
      · intro kept
        have sendsIff : x.sends b (s.part.mixer.buses.nth b).cfg = true ↔ sends b := sends_iff ..
        have holdsIff : x.holdsAll b (s.part.mixer.buses.nth b).slots = true ↔ holds b := holdsAll_iff ..
        refine ⟨fun idle => ?_, fun busy lacks => ?_, fun busy whole => ⟨?_, fun few => ?_⟩⟩
        · refine (bus b).trans (congrArg Bus.dropLeaving (handed_none ?_))
          exact Bool.eq_false_iff.2 (mt sendsIff.1 idle)
        · exact (bus b).trans (congrArg Bus.dropLeaving (handed_short (sendsIff.2 busy) (Bool.eq_false_iff.2 (mt holdsIff.1 lacks))))
        · exact (bus b).trans (congrArg Bus.dropLeaving (handed_item (sendsIff.2 busy) (holdsIff.2 whole)))
        · exact hands.made b (List.mem_finRange b) (sendsIff.2 busy) (holdsIff.2 whole) few
  · intro gains samples master i
    unfold mixSample scaled
    dsimp only
    rw [foldl_add_eq_sum]
    rfl

end Sys2Proof.Machine
end

section
/-! The start of a pass, a block written into a ring, and the arithmetic of samples and ramps (O36). -/

namespace Sys2Proof.Machine

/-! The start of a pass (R106). -/

/-- A bus after its ramp step. -/
def Bus.ramped (r : Bus) : Bus := { r with contributions := r.contributions.map Contribution.ramped }

/-- The snapshot of the buses a pass works from. -/
def Part.passBuses (p : Part) : Table BusSnapshot 16 := (p.mixer.buses.each Bus.ramped).each p.busSnapshot

/-- The pass a tick starts: its plan names the used sources, and its reads the fresh ones of them. -/
def Part.passFrom (n : Word) (p : Part) : Pass :=
  let r (x : Fin 64) := p.mixer.sources.nth x
  let used := (List.finRange 64).filter (p.uses p.passBuses)
  ⟨n, .reading, p.passBuses, p.mixer.sources.each p.sourceSnapshot,
    used.map fun x => (x, (r x).cfg.slotFor n, (r x).freshAt n),
    (used.filter fun x => (r x).freshAt n).map fun x => (x, (r x).cfg.slotFor n), [], []⟩

/-- The reads of a plan: the steps whose slot is fresh. -/
theorem reads_of_plan (slot : Fin 64 → Nat) (fresh : Fin 64 → Bool) (l : List (Fin 64)) :
    (l.map fun x => (x, slot x, fresh x)).filterMap (fun x => if x.2.2 then some (x.1, x.2.1) else none) =
      (l.filter fresh).map fun x => (x, slot x) := by
  rw [List.filterMap_map, ← List.filterMap_eq_map, List.filterMap_filter]
  rfl

theorem startPass_says (n : Word) (p : Part) : ∃ sources cmd,
    p.startPass n = Part.readNext (p.passFrom n) (p.passFrom n).toRead
      { p with mixer := { p.mixer with sources := sources, buses := p.mixer.buses.each Bus.ramped }, cmd := cmd } ∧
    (∀ x, sources.nth x = (p.mixer.sources.nth x).planned n (p.uses p.passBuses x)) ∧
    (∀ x, p.uses p.passBuses x = true → (p.mixer.sources.nth x).freshAt n = false → (Cause.mix, x.val) ∈ cmd.notices) ∧
    ((∀ x, p.uses p.passBuses x = true → (p.mixer.sources.nth x).freshAt n = true) → cmd = p.cmd) := by
  let p1 : Part := { p with mixer := { p.mixer with buses := p.mixer.buses.each Bus.ramped } }
  obtain ⟨sources, cmd, planned, each, -, -, late, quiet⟩ := planSources_say n p.passBuses (List.finRange 64) [] p1 (List.nodup_finRange 64)
  refine ⟨sources, cmd, ?_, fun x => each x (List.mem_finRange x), fun x => late x (List.mem_finRange x),
    fun h => quiet fun x _ => h x⟩
  unfold Part.startPass Part.passFrom
  generalize List.finRange 64 = l at planned ⊢
  refine (congrArg (fun x : List (Fin 64 × Nat × Bool) × Part =>
    let reads := x.1.filterMap fun x => if x.2.2 then some (x.1, x.2.1) else none
    Part.readNext ⟨n, .reading, p.passBuses, p.mixer.sources.each p.sourceSnapshot, x.1, reads, [], []⟩ reads x.2) planned).trans ?_
  dsimp only
  rw [List.nil_append, reads_of_plan]
  rfl

/-- A source is in the list of an ACTIVE bus. -/
theorem inActiveBus_passBuses (p : Part) (x : Fin 64) : inActiveBus p.passBuses x =
    (List.finRange 16).any fun b => (p.mixer.buses.nth b).cfg.active && (p.mixer.buses.nth b).contributions.any fun c => c.source == x := by
  unfold inActiveBus
  rw [list_eq_map, List.any_map]
  refine List.any_congr rfl fun b => ?_
  change ((p.passBuses.nth b).cfg.active && (p.passBuses.nth b).gains.any fun g => g.1 == x) = _
  unfold Part.passBuses
  rw [Table.nth_each, Table.nth_each]
  change (_ && (((p.mixer.buses.nth b).contributions.map Contribution.ramped).map fun c => (c.source, c.current)).any fun g => g.1 == x) = _
  rw [List.any_map, List.any_map]
  refine congrArg _ (List.any_congr rfl fun c => ?_)
  exact congrArg (· == x) c.ramped_source

/-! A block written (R99). -/

theorem covers_iff {r : Request} {a n : Nat} : r.covers a n = true ↔ r.kind = .write ∧ ∃ i b, i < n ∧ r.first ≤ a + i ∧
    r.data[a + i - r.first]? = some (b, true) := by
  simp only [Request.covers, Bool.and_eq_true, beq_iff_eq, List.any_eq_true, List.mem_range, decide_eq_true_eq]
  refine and_congr_right fun _ => ⟨fun ⟨i, hi, lo, en⟩ => ?_, fun ⟨i, b, hi, lo, en⟩ => ⟨i, hi, lo, by rw [en]⟩⟩
  split at en
  · next b e found => exact ⟨i, b, hi, lo, by rw [found, en]⟩
  · cases en

/-- The line a write covers is one of its own. -/
theorem line_of_covers {r : Request} {a : Nat} (wf : requestWf .write r.count r.data = true) (aligned : a % 64 = 0)
    (h : r.covers a 64 = true) : ∃ l, l < r.count ∧ a = r.first + 64 * l := by
  obtain ⟨-, i, b, small, low, found⟩ := covers_iff.1 h
  have length : r.data.length = 64 * r.count := by
    simp only [requestWf, Bool.and_eq_true, beq_iff_eq] at wf
    exact wf.2
  obtain ⟨within, -⟩ := List.getElem?_eq_some_iff.1 found
  have first : r.first = 64 * r.line := rfl
  exact ⟨(a - r.first) / 64, by omega, by omega⟩

/-- What the writing of blocks into slots of one source makes of the part. -/
theorem blocksWritten_say (n : Fin 64) (slots : List Nat) (distinct : slots.Nodup) (low : ∀ k ∈ slots, k < 64) (p : Part) :
    let r := p.mixer.sources.nth n
    ∃ sources cmd, slots.foldl (fun p k => p.blockWritten n k) p = { p with mixer := { p.mixer with sources := sources }, cmd := cmd } ∧
      (∀ m, m ≠ n → sources.nth m = p.mixer.sources.nth m) ∧
      (sources.nth n).cfg = r.cfg ∧ (sources.nth n).late = r.late ∧
      (∀ k, k < 64 → (sources.nth n).fresh.getLsbD k = (r.fresh.getLsbD k || decide (k ∈ slots))) ∧
      (sources.nth n).overruns = times count (slots.filter r.fresh.getLsbD).length r.overruns ∧
      (∀ m, m ∈ p.cmd.notices → m ∈ cmd.notices) ∧
      (∀ k, k ∈ slots → r.fresh.getLsbD k = true → (Cause.mix, n.val) ∈ cmd.notices) := by
  intro r
  induction slots generalizing p with
  | nil => exact ⟨p.mixer.sources, p.cmd, rfl, fun _ _ => rfl, rfl, rfl, by simp [r], rfl, fun _ h => h, nofun⟩
  | cons k rest ih =>
    obtain ⟨fresh, distinct⟩ := List.nodup_cons.1 distinct
    have lowRest : ∀ j ∈ rest, j < 64 := fun j hj => low j (List.mem_cons_of_mem _ hj)
    have lowFirst : k < 64 := low k List.mem_cons_self
    rw [List.foldl_cons]
    cases full : r.fresh.getLsbD k with
    | true =>
      have written : p.blockWritten n k = { p with
          mixer := { p.mixer with sources := p.mixer.sources.upd n fun r => { r with overruns := count r.overruns } }
          cmd := p.cmd.raised (.mix, n.val) } := by
        rw [Part.blockWritten, if_pos full, raise_eq]
        rfl
      obtain ⟨sources, cmd, run, others, cfg, late, flags, overruns, kept, told⟩ := ih distinct lowRest (p.blockWritten n k)
      rw [written] at run others cfg late flags overruns kept told
      rw [Table.nth_upd_same] at cfg late flags overruns told
      rw [written]
      refine ⟨sources, cmd, run, fun m hm => (others m hm).trans (Table.nth_upd_other _ _ (Ne.symm hm)), cfg, late, fun j hj => ?_, ?_,
        fun m hm => kept m ((mem_raised ..).2 (.inr hm)), fun _ _ _ => kept _ ((mem_raised ..).2 (.inl rfl))⟩
      · rw [flags j hj]
        by_cases same : j = k
        · rw [same]
          change (r.fresh.getLsbD k || _) = _
          rw [full, Bool.true_or, Bool.true_or]
        · simp [same, r]
      · rw [List.filter_cons_of_pos full, List.length_cons, times_succ]
        exact overruns
    | false =>
      have written : p.blockWritten n k = { p with
          mixer := { p.mixer with sources := p.mixer.sources.upd n fun r => { r with fresh := r.fresh ||| BitVec.ofNat 64 (2 ^ k) } } } := by
        rw [Part.blockWritten, if_neg (Bool.eq_false_iff.1 full)]
        rfl
      have bit (j : Nat) (hj : j < 64) : (r.fresh ||| BitVec.ofNat 64 (2 ^ k)).getLsbD j = (r.fresh.getLsbD j || decide (j = k)) := by
        rw [BitVec.getLsbD_or, BitVec.getLsbD_ofNat, Nat.testBit_two_pow]
        simp [hj, eq_comm]
      have restFresh (j : Nat) (hj : j ∈ rest) : (r.fresh ||| BitVec.ofNat 64 (2 ^ k)).getLsbD j = r.fresh.getLsbD j := by
        rw [bit j (lowRest j hj), decide_eq_false (fun same : j = k => fresh (same ▸ hj)), Bool.or_false]
      obtain ⟨sources, cmd, run, others, cfg, late, flags, overruns, kept, told⟩ := ih distinct lowRest (p.blockWritten n k)
      rw [written] at run others cfg late flags overruns kept told
      rw [Table.nth_upd_same] at cfg late flags overruns told
      rw [written]
      refine ⟨sources, cmd, run, fun m hm => (others m hm).trans (Table.nth_upd_other _ _ (Ne.symm hm)), cfg, late, fun j hj => ?_, ?_,
        kept, fun j hj already => ?_⟩
      · rw [flags j hj]
        refine (congrArg (· || _) (bit j hj)).trans ?_
        simp [Bool.or_assoc, List.mem_cons]
      · rw [List.filter_cons_of_neg (Bool.eq_false_iff.1 full)]
        refine overruns.trans (congrArg (fun l : List Nat => times count l.length r.overruns) ?_)
        exact List.filter_congr fun j hj => restFresh j hj
      · obtain rfl | hj := List.mem_cons.1 hj
        · exact absurd (full.symm.trans already) (by decide)
        · exact told j hj ((restFresh j hj).trans already)

/-- The slot of the ring whose last line the write's line is, and covers. -/
def Request.blockAt (r : Request) (base ring l : Nat) : Option Nat :=
  (slotEndingAt (r.first + Config.lineBytes * l - base)).filter fun k => decide (k < ring) && r.covers (r.first + Config.lineBytes * l) Config.lineBytes

/-- The slots whose last line the write covers, in the order of its lines. -/
def Request.blocks (r : Request) (base ring : Nat) : List Nat := (List.range r.count).filterMap (r.blockAt base ring)

theorem blockAt_eq_some {r : Request} {base ring l k : Nat} : r.blockAt base ring l = some k ↔
    r.first + 64 * l = base + 192 * k + 128 ∧ k < ring ∧ r.covers (base + 192 * k + 128) 64 = true := by
  have line : Config.lineBytes = 64 := rfl
  unfold Request.blockAt slotEndingAt
  rw [Option.filter_eq_some_iff, Bool.and_eq_true, decide_eq_true_eq, line]
  have block : Config.blockBytes = 192 := rfl
  rw [block]
  constructor
  · rintro ⟨slot, low, covers⟩
    split at slot
    · next last =>
      obtain rfl := Option.some.inj slot
      have at' : r.first + 64 * l = base + 192 * ((r.first + 64 * l - base) / 192) + 128 := by omega
      exact ⟨at', low, at' ▸ covers⟩
    · cases slot
  · rintro ⟨at', low, covers⟩
    refine ⟨(if_pos (by omega)).trans (congrArg some (by omega)), low, at' ▸ covers⟩

theorem mem_blocks {r : Request} {base ring k : Nat} (wf : requestWf .write r.count r.data = true) (aligned : base % 64 = 0) :
    k ∈ r.blocks base ring ↔ k < ring ∧ r.covers (base + 192 * k + 128) 64 = true := by
  unfold Request.blocks
  rw [List.mem_filterMap]
  constructor
  · rintro ⟨l, -, at'⟩
    exact (blockAt_eq_some.1 at').2
  · rintro ⟨low, covers⟩
    obtain ⟨l, hl, line⟩ := line_of_covers wf (by omega) covers
    exact ⟨l, List.mem_range.2 hl, blockAt_eq_some.2 ⟨line.symm, low, covers⟩⟩

theorem blocks_nodup (r : Request) (base ring : Nat) : (r.blocks base ring).Nodup := by
  refine List.Pairwise.filterMap _ (fun l m apart k hl k' hm same => apart ?_) List.nodup_range
  have := (blockAt_eq_some.1 hl).1
  have := (blockAt_eq_some.1 hm).1
  omega

/-- A WRITE in a SOUND window writes the blocks of an ON source that names the window. -/
theorem soundWrite_eq {w : Fin 32} {n : Fin 64} {r : Request} {p : Part} (subject : (p.path.windows.nth w).subject = n.val) :
    p.soundWrite w r = if (p.mixer.sources.nth n).cfg.on = true ∧ (p.mixer.sources.nth n).cfg.win = w then
      (r.blocks (p.path.windows.nth w).base (p.mixer.sources.nth n).cfg.ring).foldl (fun p k => p.blockWritten n k) p else p := by
  have own : (p.path.windows.nth w).subject < 64 := subject ▸ n.isLt
  have same : n = ⟨(p.path.windows.nth w).subject, own⟩ := Fin.ext subject.symm
  unfold Part.soundWrite Request.blocks
  rw [List.foldl_filterMap, same]
  refine (dif_pos own).trans (ite_congr_iff Iff.rfl (congrArg (fun f => List.foldl f p _) (funext fun p => funext fun l => ?_)) rfl)
  unfold Request.blockAt
  dsimp only
  generalize slotEndingAt (r.first + Config.lineBytes * l - _) = slot
  generalize SourceSettings.ring _ = ring
  cases slot with
  | none => rfl
  | some k =>
    by_cases written : k < ring ∧ r.covers (r.first + Config.lineBytes * l) Config.lineBytes = true
    · simp [Option.filter, written]
    · simp [Option.filter, written]

theorem watch_sound {p : Part} {a : Admitted} {w : Fin 32} (write : a.req.kind = .write) (via : a.via = some w)
    (kind : (p.path.windows.nth w).kind = .sound) (dram : Memory) : p.watch a dram = p.soundWrite w a.req := by
  rw [Part.watch, write, via]
  dsimp only
  rw [kind]

/-- Counting up over a list depends on its length alone. -/
theorem foldl_count (l : List Nat) (c : Nat) : l.foldl (fun c _ => count c) c = times count l.length c := foldl_times ..

/-! Samples and gains (R96, R108, R106). -/

theorem sampleOf_bounds (width : Nat) (w : Word) (h : width = 16 ∨ width = 20 ∨ width = 24) :
    -8388608 ≤ sampleOf width w ∧ sampleOf width w ≤ 8388607 ∧ sampleOf width w ≤ w.toInt / 256 ∧
      w.toInt / 256 - sampleOf width w < 2 ^ (24 - width) ∧ sampleOf width w % 2 ^ (24 - width) = 0 := by
  have low : -2147483648 ≤ w.toInt := BitVec.le_toInt w
  have high : w.toInt < 2147483648 := BitVec.toInt_lt
  have cut16 : sampleOf 16 w = w.toInt / 256 - w.toInt / 256 % 256 := rfl
  have cut20 : sampleOf 20 w = w.toInt / 256 - w.toInt / 256 % 16 := rfl
  have whole : sampleOf 24 w = w.toInt / 256 := rfl
  have step16 : (2 ^ (24 - 16) : Int) = 256 := rfl
  have step20 : (2 ^ (24 - 20) : Int) = 16 := rfl
  have step24 : (2 ^ (24 - 24) : Int) = 1 := rfl
  obtain rfl | rfl | rfl := h
  · rw [cut16, step16]
    omega
  · rw [cut20, step20]
    omega
  · rw [whole, step24]
    omega

theorem sampleOf_sampleWord {v : Int} (low : -8388608 ≤ v) (high : v ≤ 8388607) : sampleOf 24 (sampleWord v) = v := by
  have back : (BitVec.ofInt 32 (v * 256)).toInt = v * 256 :=
    BitVec.toInt_ofInt_eq_self (by decide) (show -2147483648 ≤ v * 256 by omega) (show v * 256 < 2147483648 by omega)
  unfold sampleOf sampleWord
  rw [back]
  exact (if_pos rfl).trans (by omega)

theorem clampSample_eq (v : Int) : clampSample v = if v < -8388608 then -8388608 else if 8388607 < v then 8388607 else v := rfl

theorem clampSample_bounds (v : Int) : -8388608 ≤ clampSample v ∧ clampSample v ≤ 8388607 ∧
    (-8388608 ≤ v → v ≤ 8388607 → clampSample v = v ∧ sampleOf 24 (sampleWord v) = v) := by
  rw [clampSample_eq]
  refine ⟨?low, ?high, fun low high => ⟨?same, ?back⟩⟩
  case back => exact sampleOf_sampleWord low high
  all_goals
    repeat' split
    all_goals omega

theorem ramped_steps (c : Contribution) :
    (c.current + c.step ≤ c.target → c.ramped = { c with current := c.current + c.step }) ∧
    (c.target + c.step ≤ c.current → c.ramped = { c with current := c.current - c.step }) ∧
    (c.current ≤ c.target + c.step → c.target ≤ c.current + c.step → c.ramped = { c with current := c.target }) := by
  have same (v : Nat) (h : v = c.current) : c = { c with current := v } := by rw [h]
  have moved (v v' : Nat) (h : v = v') : { c with current := v } = { c with current := v' } := by rw [h]
  unfold Contribution.ramped
  refine ⟨fun h => ?_, fun h => ?_, fun h h' => ?_⟩
  all_goals split
  case isTrue | isTrue | isTrue => exact moved _ _ (by omega)
  all_goals split
  case isTrue | isTrue | isTrue => exact moved _ _ (by omega)
  all_goals exact same _ (by omega)

/-! A pass whose sources are silent (R107). -/

theorem mixSample_silent (gains : List (Fin 64 × Nat)) (master i : Nat) : mixSample gains [] master i = 0 := by
  have none' : (gains.map fun _ => (0 : Int)).foldl (· + ·) 0 = 0 := by
    rw [List.foldl_map]
    exact foldl_idle (fun _ => rfl) gains
  have unscaled : scaled 0 = 0 := Int.zero_ediv _
  change scaled (scaled ((gains.map fun _ => (0 : Int)).foldl (· + ·) 0) * (master : Int)) = 0
  rw [none', unscaled, Int.zero_mul, unscaled]

theorem mixBlock_silent (b : BusSnapshot) : mixBlock b [] = List.replicate 48 0 := by
  unfold mixBlock
  rw [funext (mixSample_silent b.gains b.cfg.master), List.map_const', List.length_range]

theorem clamped_silent : (List.replicate 48 0).map clampSample = List.replicate 48 0 := List.map_replicate

theorem blockOf_silent : blockOf (List.replicate 48 0) = zeros 192 := by
  have all (k : Nat) : blockOf (List.replicate k 0) = zeros (4 * k) := by
    induction k with
    | zero => rfl
    | succ k ih =>
      have first : blockOf (List.replicate (k + 1) 0) = zeros 4 ++ blockOf (List.replicate k 0) := rfl
      rw [first, ih]
      exact List.replicate_append_replicate.trans (congrArg (List.replicate · 0) (by omega))
  exact all 48

/-- A silent block meters nothing; the clip count stays within its field. -/
theorem metered_silent (b : BusSnapshot) (r : Bus) : r.metered (mixBlock b []) = { r with clips := min r.clips 65535 } := by
  rw [mixBlock_silent, metered_eq, clamped_silent]
  have peak : (List.replicate 48 (0 : Int)).foldl (fun m v => max m v.natAbs) r.peak = r.peak := by
    have all (k : Nat) : (List.replicate k (0 : Int)).foldl (fun m v => max m v.natAbs) r.peak = r.peak := by
      induction k with
      | zero => rfl
      | succ k ih =>
        rw [List.replicate_succ, List.foldl_cons, Int.natAbs_zero, Nat.max_zero]
        exact ih
    exact all 48
  have clipped : (List.replicate 48 (0 : Int)).filter (fun v => clampSample v != v) = [] := by decide
  rw [peak, clipped]
  rfl

/-- What a pass keeps, whether it reads, mixes or completes at once. -/
theorem readNext_keeps (x : Pass) (reads : List (Fin 64 × Nat)) (p : Part) : (p.readNext x reads).mixer.state = p.mixer.state ∧
    (p.readNext x reads).mixer.lateTicks = p.mixer.lateTicks ∧ (p.readNext x reads).mixer.sources = p.mixer.sources ∧
    ∀ m, m ∈ p.cmd.notices → m ∈ (p.readNext x reads).cmd.notices := by
  cases reads with
  | cons s rest => exact ⟨rfl, rfl, rfl, fun _ h => h⟩
  | nil =>
    obtain ⟨r, mixed, sends, mixer, -, -, -⟩ := mixEvent_says { x with toRead := [] } p
    have run : p.readNext x [] = _ := mixed
    have grown : ∀ m, m ∈ p.cmd.notices → m ∈ r.cmd.notices := sends.cmd.grown
    rw [run]
    cases Pass.writes { x with toRead := [] } with
    | cons write rest =>
      exact ⟨(congrArg Mixer.state mixer :), (congrArg Mixer.lateTicks mixer :), (congrArg Mixer.sources mixer :), grown⟩
    | nil =>
      obtain ⟨t, hands, completed⟩ := passComplete_says { x with phase := .writing, toRead := [] } r
      have run : r.writeNext { x with phase := .writing, toRead := [] } [] = _ := completed
      rw [run]
      exact ⟨(congrArg Mixer.state mixer :), (congrArg Mixer.lateTicks mixer :), (congrArg Mixer.sources mixer :),
        fun m hm => hands.sends.cmd.grown m (grown m hm)⟩

/-- A source once a pass has started. -/
theorem startPass_source (n : Word) (p : Part) (x : Fin 64) :
    (p.startPass n).mixer.sources.nth x = (p.mixer.sources.nth x).planned n (p.uses p.passBuses x) := by
  obtain ⟨sources, cmd, run, each, -, -⟩ := startPass_says n p
  rw [run, (readNext_keeps ..).2.2.1]
  exact each x

theorem inActiveBus_iff {p : Part} {x : Fin 64} : inActiveBus p.passBuses x = true ↔ ∃ b : Fin 16, (p.mixer.buses.nth b).cfg.active = true ∧
    ∃ c, c ∈ (p.mixer.buses.nth b).contributions ∧ c.source = x := by
  rw [inActiveBus_passBuses]
  simp only [List.any_eq_true, List.mem_finRange, true_and, Bool.and_eq_true, beq_iff_eq]

theorem passBuses_nth (p : Part) (b : Fin 16) : p.passBuses.nth b = ⟨(p.mixer.buses.nth b).cfg,
    (p.path.windows.nth (p.mixer.buses.nth b).cfg.win).base, (p.mixer.buses.nth b).contributions.map fun c => (c.source, c.ramped.current)⟩ := by
  unfold Part.passBuses
  rw [Table.nth_each, Table.nth_each]
  change BusSnapshot.mk _ _ (((p.mixer.buses.nth b).contributions.map Contribution.ramped).map fun c => (c.source, c.current)) = _
  rw [List.map_map]
  refine congrArg _ (List.map_congr_left fun c _ => ?_)
  exact congrArg (·, c.ramped.current) c.ramped_source

theorem passFrom_active (n : Word) (p : Part) : (p.passFrom n).active = (List.finRange 16).filter fun b => (p.mixer.buses.nth b).cfg.active := by
  refine List.filter_congr fun b _ => ?_
  exact congrArg (fun s : BusSnapshot => s.cfg.active) (passBuses_nth p b)

/-- Settles O36: the plan by `startPass_says`, the mix event by `mixEvent_says`, and the written blocks by `blocksWritten_say`. -/
theorem aPassTakesFreshSlotsAndSamplesStayInRange : Obligations.APassTakesFreshSlotsAndSamplesStayInRange := by
  refine ⟨?_, ?_, ?_, sampleOf_bounds, clampSample_bounds, ramped_steps⟩
  · intro p n x r t k used
    have planned : t = r.planned n (p.uses p.passBuses x) := startPass_source n p x
    have usedIff (on : r.cfg.on = true) : p.uses p.passBuses x = true ↔ used := by
      have : p.uses p.passBuses x = inActiveBus p.passBuses x := by
        unfold Part.uses
        exact (congrArg (· && _) on).trans (Bool.true_and _)
      rw [this, inActiveBus_iff]
    have taken (on : r.cfg.on = true) (not : ¬ (p.uses p.passBuses x && !r.freshAt n) = true) :
        t = { r with fresh := clearFresh r.fresh k } := planned.trans ((if_pos on).trans (if_neg not))
    refine ⟨fun off => ?_, fun on use fresh => taken on ?_, fun on use stale => ?_, fun on unused => taken on ?_⟩
    · exact planned.trans (if_neg (Bool.eq_false_iff.1 off))
    · have fresh : r.freshAt n = true := fresh
      rw [fresh]
      simp
    · refine planned.trans ((if_pos on).trans (if_pos ?_))
      have stale : r.freshAt n = false := stale
      rw [(usedIff on).2 use, stale]
      rfl
    · rw [Bool.eq_false_iff.2 (mt (usedIff on).1 unused)]
      simp
  · intro p n q bus src base slot fresh used plan reads active ramped at' writes snapshot
    obtain ⟨sources, cmd, run, -, late, quiet⟩ := startPass_says n p
    have uses : p.uses p.passBuses = used := by
      funext x
      unfold Part.uses
      rw [inActiveBus_passBuses]
    have planEq : (p.passFrom n).plan = plan := by
      unfold Part.passFrom
      rw [uses]
      rfl
    have readsEq : (p.passFrom n).toRead = reads := by
      unfold Part.passFrom
      rw [uses]
      dsimp only
      rw [List.filter_filter]
      refine congrArg (List.map _) (List.filter_congr fun x _ => Bool.and_comm ..)
    have snap (y : Pass) (buses : y.buses = p.passBuses) (srcs : y.sources = p.mixer.sources.each p.sourceSnapshot) : snapshot y := by
      refine ⟨fun b => ?_, fun x => ?_⟩
      · rw [buses]
        exact passBuses_nth p b
      · rw [srcs, Table.nth_each]
        rfl
    rw [uses] at late quiet
    rw [readsEq] at run
    have run : q = _ := run
    obtain ⟨state, ticks, -, grown⟩ := readNext_keeps (p.passFrom n) reads { p with
      mixer := { p.mixer with sources := sources, buses := p.mixer.buses.each Bus.ramped }, cmd := cmd }
    rw [← run] at state ticks grown
    refine ⟨state, ticks, fun x hx stale => grown _ (late x hx stale), fun x k others more => ?_, fun none' idle => ?_,
      fun first others none' some' => ?_⟩
    · rw [more, readNext_cons] at run
      rw [run]
      refine ⟨_, rfl, snap _ rfl rfl, rfl, rfl, planEq, more.symm, rfl, rfl, ?_, fun b => Table.nth_each .., rfl, quiet⟩
      change p.path.offering mixerStream (readRequest (((p.mixer.sources.each p.sourceSnapshot).nth x).base + 192 * k) 192) = _
      rw [Table.nth_each]
      rfl
    · have run := run
      rw [none'] at run
      obtain ⟨r, mixed, sends, mixer, buses, -, silent⟩ := mixEvent_says { p.passFrom n with toRead := [] } { p with
        mixer := { p.mixer with sources := sources, buses := p.mixer.buses.each Bus.ramped }, cmd := cmd }
      have off (b : Fin 16) : ((p.passBuses).nth b).cfg.active = false := by
        rw [passBuses_nth]
        have unlisted : b ∉ active := by
          rw [idle]
          exact List.not_mem_nil
        simpa [active] using unlisted
      have writes : Pass.writes { p.passFrom n with toRead := [] } = [] := by
        have : (p.passFrom n).active = [] := (passFrom_active n p).trans idle
        exact congrArg (List.map _) this
      rw [writes] at mixed
      obtain ⟨t, hands, completed⟩ := passComplete_says { p.passFrom n with phase := .writing, toRead := [] } r
      have run : q = _ := run.trans (mixed.trans completed)
      have unsent (b : Fin 16) (c : BusSettings) : Pass.sends { p.passFrom n with phase := .writing, toRead := [] } b c = false := by
        refine Bool.eq_false_iff.2 fun h => ?_
        exact absurd ((off b).symm.trans ((sends_iff ..).1 h).1) (by decide)
      rw [run]
      refine ⟨rfl, (hands.sends.path.trans sends.path :), ?_, fun b => ?_⟩
      · refine (hands.quiet fun b _ => unsent b _).trans (silent fun b h => ?_)
        exact absurd ((off b).symm.trans h) (by decide)
      · have kept : r.mixer.buses.nth b = ramped b := by
          refine (buses b).trans ((if_neg (Bool.eq_false_iff.1 (off b))).trans (Table.nth_each ..))
        change (t.mixer.buses.each Bus.dropLeaving).nth b = _
        rw [Table.nth_each, hands.buses, if_pos (List.mem_finRange b), handed_none (unsent b _), kept]
        rfl
    · have run := run
      rw [none'] at run
      obtain ⟨r, mixed, sends, mixer, buses, strikes, silent⟩ := mixEvent_says { p.passFrom n with toRead := [] } { p with
        mixer := { p.mixer with sources := sources, buses := p.mixer.buses.each Bus.ramped }, cmd := cmd }
      have cfg (b : Fin 16) : ((p.passBuses).nth b).cfg = (bus b).cfg := by rw [passBuses_nth]
      have slots (b : Fin 16) : ((p.mixer.buses.each Bus.ramped).nth b).slots = (bus b).slots := by
        rw [Table.nth_each]
        rfl
      have written : Pass.writes { p.passFrom n with toRead := [] } = writes := by
        have listed : (p.passFrom n).active = active := passFrom_active n p
        refine (congrArg (List.map _) listed).trans (List.map_congr_left fun b _ => ?_)
        have block : blockOf ((mixBlock (p.passBuses.nth b) []).map clampSample) = zeros 192 := by
          rw [mixBlock_silent, clamped_silent, blockOf_silent]
        have place : (p.passBuses.nth b).base + 192 * (n.toNat % (p.passBuses.nth b).cfg.ring) = at' b := by
          rw [passBuses_nth]
        exact Prod.ext place block
      have split : writes = (at' first, zeros 192) :: others.map fun b => (at' b, zeros 192) := congrArg (List.map _) some'
      rw [written, split, writeNext_cons] at mixed
      have run : q = _ := run.trans mixed
      have path : r.path = p.path := sends.path
      rw [run]
      refine ⟨_, rfl, snap _ rfl rfl, rfl, rfl, planEq, rfl, rfl, split.symm, congrArg (Path.offering · _ _) path, fun b off => ?_,
        fun b on => ?_, fun b m it on held hit covers => ?_, fun free => silent fun b on => ?_⟩
      · refine (buses b).trans ((if_neg ?_).trans (Table.nth_each ..))
        change ¬ (p.passBuses.nth b).cfg.active = true
        rw [cfg]
        exact Bool.eq_false_iff.1 off
      · refine ⟨putSlotRecord (n.toNat % (bus b).cfg.ring) n (bus b).slots, slotRecord_putSlotRecord_same .., fun j hj =>
          slotRecord_putSlotRecord_other _ _ hj, (buses b).trans ((if_pos ?_).trans ?_)⟩
        · change (p.passBuses.nth b).cfg.active = true
          rw [cfg]
          exact on
        · change { (((p.mixer.buses.each Bus.ramped).nth b).metered (mixBlock (p.passBuses.nth b) [])) with
            slots := putSlotRecord (n.toNat % (p.passBuses.nth b).cfg.ring) n ((p.mixer.buses.each Bus.ramped).nth b).slots } = _
          rw [metered_silent, cfg, slots, Table.nth_each]
          rfl
      · refine strikes b m it ((congrArg BusSettings.active (cfg b)).trans on) ?_ hit covers
        change slotRecord ((p.mixer.buses.each Bus.ramped).nth b).slots (n.toNat % (p.passBuses.nth b).cfg.ring) = _
        rw [cfg, slots]
        exact held
      · have on : (p.passBuses.nth b).cfg.active = true := on
        rw [cfg] at on
        change slotRecord ((p.mixer.buses.each Bus.ramped).nth b).slots (n.toNat % (p.passBuses.nth b).cfg.ring) = _
        rw [cfg, slots]
        exact free b on
  · intro s dt port a w n h win x done wrote kind subject
    obtain ⟨-, -, via, -, write, wf⟩ := id h
    let p := s.answeredWrite dt port a
    have watched := watch_sound (p := p) write via kind (moved s.dram a.req a.target)
    have shown : p.soundWrite w a.req = if x.cfg.on = true ∧ x.cfg.win = w then
        (a.req.blocks win.base x.cfg.ring).foldl (fun p k => p.blockWritten n k) p else p := soundWrite_eq subject
    rw [shown] at watched
    by_cases taken : x.cfg.on = true ∧ x.cfg.win = w
    · rw [if_pos taken] at watched
      by_cases shape : x.cfg.ring ≤ 64 ∧ win.base % 64 = 0
      · obtain ⟨small, aligned⟩ := shape
        have mem (k : Nat) : k ∈ a.req.blocks win.base x.cfg.ring ↔ wrote k = true := by
          rw [mem_blocks wf aligned]
          simp [wrote]
        have low (k : Nat) (hk : k ∈ a.req.blocks win.base x.cfg.ring) : k < 64 :=
          Nat.lt_of_lt_of_le ((mem_blocks wf aligned).1 hk).1 small
        obtain ⟨sources, cmd, run, others, cfg, late, flags, overruns, -, told⟩ :=
          blocksWritten_say n (a.req.blocks win.base x.cfg.ring) (blocks_nodup ..) low p
        rw [run] at watched
        refine ⟨_, exec_clientWrite_of_watch h watched rfl, fun other => ?_, fun _ _ _ _ => ?_⟩
        · exact other.elim (fun off => absurd (taken.1.symm.trans off) (by decide)) fun not => absurd taken.2 not
        · refine ⟨rfl, rfl, rfl, others, cfg, late, fun k hk => ?_, ?_, fun ⟨k, hk, fresh⟩ => told k ((mem k).2 hk) fresh⟩
          · rw [Bool.eq_iff_iff.2 (show wrote k = true ↔ decide (k ∈ a.req.blocks win.base x.cfg.ring) = true by rw [decide_eq_true_eq, mem])]
            exact flags k hk
          · rw [foldl_count]
            refine overruns.trans (congrArg (fun m => times count m x.overruns) ?_)
            refine List.Perm.length_eq ((List.perm_ext_iff_of_nodup ((blocks_nodup ..).filter _) (List.nodup_range.filter _)).2 fun k => ?_)
            have both : (x.fresh.getLsbD k && wrote k) = true ↔ x.fresh.getLsbD k = true ∧ wrote k = true := Bool.and_eq_true_iff
            rw [List.mem_filter, List.mem_filter, mem, List.mem_range, both]
            have ring (hk : wrote k = true) : k < x.cfg.ring := ((mem_blocks wf aligned).1 ((mem k).2 hk)).1
            exact ⟨fun ⟨hk, fresh⟩ => ⟨ring hk, fresh, hk⟩, fun ⟨_, fresh, hk⟩ => ⟨hk, fresh⟩⟩
      · exact ⟨_, exec_clientWrite h, fun other => other.elim (fun off => absurd (taken.1.symm.trans off) (by decide)) fun not =>
          absurd taken.2 not, fun _ _ small aligned => absurd ⟨small, aligned⟩ shape⟩
    · rw [if_neg taken] at watched
      refine ⟨_, exec_clientWrite_of_watch h watched rfl, fun _ => rfl, fun on win' => absurd ⟨on, win'⟩ taken⟩

end Sys2Proof.Machine
end

section
/-! What the picture opens and the retirements tell the clip controller, and the room of a ring (O32). -/

namespace Sys2Proof.Machine

/-! Changes that stay within the clip controller, the cue lines' open clips and the notices. -/

/-- The second part differs from the first in its clips, its cue lines and its notices alone. -/
structure Part.ClipsTo (p q : Part) : Prop where
  rest : q = { p with clips := q.clips, cues := q.cues, cmd := q.cmd }
  cmd : p.cmd.Notified q.cmd

theorem Part.ClipsTo.refl (p : Part) : p.ClipsTo p := ⟨rfl, .refl _⟩

theorem Part.ClipsTo.trans {p q r : Part} (h : p.ClipsTo q) (h' : q.ClipsTo r) : p.ClipsTo r where
  rest := by rw [h'.rest, h.rest]
  cmd := h.cmd.trans h'.cmd

theorem Part.ClipsTo.foldl {α : Type} {f : Part → α → Part} (h : ∀ (p : Part) (a : α), p.ClipsTo (f p a)) (l : List α) (p : Part) :
    p.ClipsTo (l.foldl f p) := by
  induction l generalizing p with
  | nil => exact .refl p
  | cons a rest ih => exact (h p a).trans (ih (f p a))

theorem clipEvent_clipsTo (pos : Fin 128) (p : Part) : p.ClipsTo (p.clipEvent pos) := by
  rw [Part.clipEvent, raise_eq]
  exact ⟨rfl, notified_raised ..⟩

theorem editClip_clipsTo (pos : Fin 128) (f : Clip → Clip) (p : Part) : p.ClipsTo (p.editClip pos f) := ⟨rfl, .refl _⟩

theorem clipEvent_after (pos : Fin 128) (c : Clips) (l : Table CueLine 8) (p : Part) :
    p.ClipsTo (Part.clipEvent pos { p with clips := c, cues := l }) :=
  .trans (q := { p with clips := c, cues := l }) ⟨rfl, .refl _⟩ (clipEvent_clipsTo ..)

theorem loseClip_clipsTo (pos : Fin 128) (p : Part) : p.ClipsTo (p.loseClip pos) := clipEvent_after pos _ p.cues p

theorem retirementReaches_clipsTo (k : Fin 8) (n : Word) (pos : Fin 128) (p : Part) : p.ClipsTo (p.retirementReaches k n pos) := by
  unfold Part.retirementReaches
  split
  · exact .refl p
  · next c _ =>
    dsimp only
    split
    · have passed : p.ClipsTo (if c.passed.getLsbD k.val then p
          else p.editClip pos fun c => { c with passed := c.passed ||| BitVec.ofNat 8 (2 ^ k.val) }) := by
        split
        · exact .refl p
        · exact editClip_clipsTo ..
      split
      · exact passed.trans (loseClip_clipsTo ..)
      · exact passed
    · exact .refl p

theorem reportRetirement_clipsTo (k : Fin 8) (n : Word) (p : Part) : p.ClipsTo (p.reportRetirement k n) :=
  .foldl (fun p pos => retirementReaches_clipsTo k n pos p) _ p

theorem told_clipsTo (k : Fin 8) (gone : List PictureRecord) (p : Part) : p.ClipsTo (p.told k gone) :=
  .foldl (fun p (e : PictureRecord) => reportRetirement_clipsTo k e.number p) gone p

theorem forceClose_clipsTo (k : Fin 8) (n : Word) (pos : Fin 128) (c : Clip) (p : Part) : p.ClipsTo (p.forceClose k n pos c) :=
  clipEvent_after pos _ (p.clearOpenClip c.number).cues p

theorem forceCloses_clipsTo (k : Fin 8) (n : Word) (p : Part) : p.ClipsTo (p.forceCloses k n) := by
  refine .foldl (fun p pos => ?_) _ p
  split
  · split
    · exact forceClose_clipsTo ..
    · exact .refl p
  · exact .refl p

theorem Part.ClipsTo.path {p q : Part} (h : p.ClipsTo q) : q.path = p.path := by rw [h.rest]
theorem Part.ClipsTo.cameras {p q : Part} (h : p.ClipsTo q) : q.cameras = p.cameras := by rw [h.rest]
theorem Part.ClipsTo.coder {p q : Part} (h : p.ClipsTo q) : q.coder = p.coder := by rw [h.rest]
theorem Part.ClipsTo.rings {p q : Part} (h : p.ClipsTo q) : q.rings = p.rings := by rw [h.rest]
theorem Part.ClipsTo.sender {p q : Part} (h : p.ClipsTo q) : q.sender = p.sender := by rw [h.rest]

/-! Room made and given back (R83 to R85). -/

/-- The part once its ring has retired and reported its oldest records. -/
def Part.retiring (k : Fin 8) (gone kept : List PictureRecord) (p : Part) : Part :=
  (p.told k gone).setRings (p.rings.put k ((p.rings.nth k).retire gone kept))

section

variable {k : Fin 8} {gone kept : List PictureRecord} {p : Part}

theorem retiring_ring : (p.retiring k gone kept).rings.nth k = (p.rings.nth k).retire gone kept := Table.nth_put_same ..

theorem retiring_other {j : Fin 8} (h : j ≠ k) : (p.retiring k gone kept).rings.nth j = p.rings.nth j := Table.nth_put_other _ _ (Ne.symm h)

theorem retiring_nil (h : (p.rings.nth k).index = kept) : p.retiring k [] kept = p := by
  rw [← h]
  exact Part.rings_put p k

theorem retiring_retiring (more rest : List PictureRecord) :
    (p.retiring k gone kept).retiring k more rest = p.retiring k (gone ++ more) rest := by
  have step : (p.retiring k gone kept).retiring k more rest = (((p.told k gone).setRings (p.retiring k gone kept).rings).told k more).setRings
      ((p.retiring k gone kept).rings.put k (((p.retiring k gone kept).rings.nth k).retire more rest)) := rfl
  have rings : (p.retiring k gone kept).rings = p.rings.put k ((p.rings.nth k).retire gone kept) := rfl
  rw [step, Part.told_setRings, Part.told_append, retiring_ring, rings, Table.put_put, Ring.retire_retire]
  rfl

end

theorem makeRoom_retiring {p q : Part} {k : Fin 8} {n : Nat} {ok : Bool} (h : p.makeRoom k n = (ok, q)) :
    ∃ gone kept, (p.rings.nth k).index = gone ++ kept ∧ (∀ e, e ∈ gone → e.retirable = true) ∧ q = p.retiring k gone kept ∧
      (∀ g e h, gone = g ++ e :: h → (p.rings.nth k).size - ((p.rings.nth k).used - (g.map PictureRecord.space).sum) < n) ∧
      (ok = true → n ≤ (p.rings.nth k).size - ((p.rings.nth k).used - (gone.map PictureRecord.space).sum)) ∧
      (ok = false → (p.rings.nth k).size - ((p.rings.nth k).used - (gone.map PictureRecord.space).sum) < n ∧
        ∀ e rest, kept = e :: rest → e.retirable = false) := by
  have made := Part.makeRoomLoop_spec k n (p.rings.nth k).index.length p (Nat.le_refl _)
  have run : p.makeRoomLoop k n (p.rings.nth k).index.length = (ok, q) := h
  rw [run] at made
  exact made

/-- An open finds no place where the oldest record of a full index may not be retired, and then changes nothing. -/
theorem indexPlace_false {p q : Part} {k : Fin 8} (h : p.indexPlace k = (false, q)) : q = p := by
  unfold Part.indexPlace at h
  split at h
  · cases h
  · split at h
    · cases h
    · split at h
      · cases h
      · cases h
        rfl

/-- The ring as a picture open takes it up (R80). -/
def Part.ringTaken (p : Part) (k : Fin 8) : Ring :=
  let w := p.path.windows.nth (p.cameras.nth k).cfg.replayWin
  let before := p.rings.nth k
  if before.extent = some (w.base, w.size) ∨ (before.extent ≠ none ∧ before.occupied = true) then before
  else { before with extent := some (w.base, w.size), writePoint := 0 }

theorem ringTaken_index (p : Part) (k : Fin 8) : (p.ringTaken k).index = (p.rings.nth k).index ∧ (p.ringTaken k).used = (p.rings.nth k).used ∧
    { (p.ringTaken k) with extent := (p.rings.nth k).extent, writePoint := (p.rings.nth k).writePoint } = p.rings.nth k := by
  unfold Part.ringTaken
  dsimp only
  split
  · exact ⟨rfl, rfl, rfl⟩
  · exact ⟨rfl, rfl, rfl⟩

/-- The part whose ring a picture open has taken up. -/
def Part.taking (p : Part) (k : Fin 8) : Part := p.setRings (p.rings.put k (p.ringTaken k))

theorem taking_ring (p : Part) (k : Fin 8) : (p.taking k).rings.nth k = p.ringTaken k := Table.nth_put_same ..

/-- The open gives the extent and the write point back (assumption 36). -/
theorem extentBack_retiring (p : Part) (k : Fin 8) (gone kept : List PictureRecord) :
    ((p.taking k).retiring k gone kept).extentBack k (p.rings.nth k) = p.retiring k gone kept := by
  obtain ⟨-, used, rest⟩ := ringTaken_index p k
  have told : (p.taking k).told k gone = (p.told k gone).setRings (p.taking k).rings := Part.told_setRings ..
  unfold Part.extentBack Part.updRing Part.retiring
  rw [told]
  change (p.told k gone).setRings ((((p.rings.put k _).put k _)).upd k _) = _
  rw [Table.upd, Table.nth_put_same, Table.put_put, Table.put_put, taking_ring]
  refine congrArg (fun r => (p.told k gone).setRings (p.rings.put k r)) ?_
  calc _ = Ring.retire { (p.ringTaken k) with extent := (p.rings.nth k).extent, writePoint := (p.rings.nth k).writePoint } gone kept := rfl
    _ = _ := by rw [rest]

theorem extentBack_taking (p : Part) (k : Fin 8) : (p.taking k).extentBack k (p.rings.nth k) = p := by
  have back := extentBack_retiring p k [] (p.rings.nth k).index
  rwa [retiring_nil rfl, retiring_nil ((congrArg Ring.index (taking_ring p k)).trans (ringTaken_index p k).1)] at back

/-- A picture open once its number is in order and its ring taken up (R85 steps 3 to 7). -/
def Part.openPlaced (k : Fin 8) (st : Stamp) (n : Nat) (before : Ring) (p : Part) : OpenResult × Part :=
  let placed := p.indexPlace k
  let room := placed.2.makeRoom k n
  if placed.1 then
    if room.1 then (.opened (room.2.appendOpening k st n).1, (room.2.appendOpening k st n).2)
    else (.failed (.gap .cut), (room.2.extentBack k before).countCut k)
  else (.failed .lost, placed.2.extentBack k before)

theorem openPicture_eq (k : Fin 8) (st : Stamp) (n : Nat) (p : Part) :
    p.openPicture k st n = if ∀ x, (p.ringTaken k).index.getLast? = some x → laterThan st.number x.number = true then
      (p.taking k).openPlaced k st n (p.rings.nth k) else (.failed .lost, p) := by
  have taken : p.takeExtent k false = p.taking k := Part.takeExtent_eq p k
  unfold Part.openPicture
  rw [taken]
  dsimp only
  rw [extentBack_taking, taking_ring]
  cases (p.ringTaken k).index.getLast? with
  | none => exact (if_pos rfl).trans (if_pos nofun).symm
  | some x =>
    dsimp only
    refine ite_congr_iff ⟨fun later y same => ?_, fun all => all x rfl⟩ rfl rfl
    rwa [← Option.some.inj same]

/-- What an open whose number is in order can come to. -/
theorem openPlaced_cases (k : Fin 8) (st : Stamp) (n : Nat) (p : Part) :
    let r := p.ringTaken k
    let x := (p.taking k).openPlaced k st n (p.rings.nth k)
    x = (.failed .lost, p) ∨ ∃ gone kept, r.index = gone ++ kept ∧ (∀ e, e ∈ gone → e.retirable = true) ∧
      (x = (.failed (.gap .cut), (p.retiring k gone kept).countCut k) ∨
        x = (.opened (((p.taking k).retiring k gone kept).appendOpening k st n).1, (((p.taking k).retiring k gone kept).appendOpening k st n).2) ∧
        (r.index.length ≤ 4096 → kept.length < 4096) ∧
        (∀ g e h, gone = g ++ e :: h → r.size - (r.used - (g.map PictureRecord.space).sum) < n ∨ (g = [] ∧ 4096 ≤ r.index.length)) ∧
        n ≤ r.size - (r.used - (gone.map PictureRecord.space).sum)) := by
  intro r x
  obtain ⟨⟨placed, p2⟩, place⟩ : ∃ y, (p.taking k).indexPlace k = y := ⟨_, rfl⟩
  obtain ⟨⟨room, p3⟩, made⟩ : ∃ y, p2.makeRoom k n = y := ⟨_, rfl⟩
  have opens : x = if placed then
      if room then (.opened (p3.appendOpening k st n).1, (p3.appendOpening k st n).2)
      else (.failed (.gap .cut), (p3.extentBack k (p.rings.nth k)).countCut k)
      else (.failed .lost, p2.extentBack k (p.rings.nth k)) := by
    change Part.openPlaced _ _ _ _ _ = _
    unfold Part.openPlaced
    dsimp only
    rw [place, made]
  cases placed with
  | false =>
    left
    rw [opens, indexPlace_false place, extentBack_taking]
    rfl
  | true =>
    right
    obtain ⟨gone, rest, split, free, rfl, one, short⟩ := Part.indexPlace_spec k (p.taking k) p2 place
    obtain ⟨more, kept, splits, frees, rfl, needed, enough, -⟩ := makeRoom_retiring made
    have again : (((p.taking k).told k gone).setRings
        ((p.taking k).rings.put k (((p.taking k).rings.nth k).retire gone rest))).retiring k more kept = (p.taking k).retiring k (gone ++ more) kept := retiring_retiring more kept
    rw [taking_ring] at split one short
    have ring : (((p.taking k).told k gone).setRings ((p.taking k).rings.put k (((p.taking k).rings.nth k).retire gone rest))).rings.nth k =
        r.retire gone rest := by
      refine (Table.nth_put_same ..).trans ?_
      rw [taking_ring]
    rw [ring] at splits needed enough
    have used (l : List PictureRecord) : (r.retire gone rest).used - (l.map PictureRecord.space).sum =
        r.used - ((gone ++ l).map PictureRecord.space).sum := by
      rw [List.map_append, List.sum_append, ← Nat.sub_sub]
      rfl
    have size : (r.retire gone rest).size = r.size := rfl
    simp only [used, size] at needed enough
    rw [again] at opens
    refine ⟨gone ++ more, kept, ?_, fun e he => ?_, ?_⟩
    · exact split.trans ((congrArg (gone ++ ·) splits).trans (List.append_assoc ..).symm)
    · exact (List.mem_append.1 he).elim (free e) (frees e)
    · cases room with
      | false =>
        left
        rw [extentBack_retiring] at opens
        exact opens
      | true =>
        right
        refine ⟨opens, fun few => ?_, fun g e h same => ?_, enough rfl⟩
        · have := short few
          have : rest.length = (more ++ kept).length := congrArg List.length splits
          rw [List.length_append] at this
          omega
        · obtain none' | ⟨⟨e0, rfl⟩, full⟩ := one
          · subst none'
            exact .inl (needed g e h same)
          · cases g with
            | nil => exact .inr ⟨rfl, full⟩
            | cons y g =>
              obtain ⟨rfl, tail⟩ := List.cons.inj same
              exact .inl (needed g e h tail)

/-- The taking up and the retirements of an open, in one part. -/
theorem taking_retiring (p : Part) (k : Fin 8) (gone kept : List PictureRecord) :
    (p.taking k).retiring k gone kept = (p.told k gone).setRings (p.rings.put k ((p.ringTaken k).retire gone kept)) := by
  have told : (p.taking k).told k gone = (p.told k gone).setRings (p.taking k).rings := Part.told_setRings ..
  have rings : (p.taking k).rings = p.rings.put k (p.ringTaken k) := rfl
  unfold Part.retiring
  rw [told, taking_ring, rings, Table.put_put]
  rfl

/-- The clips still OPEN on a camera, in other words. -/
theorem openClipsOn_eq (p : Part) (k : Fin 8) : p.openClipsOn k =
    (p.clips.table.list.filter fun c => c.any fun c => c.state == .opened && c.cameras.getLsbD k.val).length := by
  unfold Part.openClipsOn
  refine congrArg List.length (List.filter_congr fun c _ => ?_)
  cases c <;> rfl

/-- The record an open appends, and the room it takes (R85 steps 5 to 7). -/
theorem appendOpening_says (k : Fin 8) (st : Stamp) (n : Nat) (p : Part) :
    let r := p.rings.nth k
    let q := (p.appendOpening k st n).2
    (p.appendOpening k st n).1 = r.writePoint ∧ q = { (p.forceCloses k st.number) with
      rings := p.rings.put k { r with
        index := r.index ++ [⟨st.number, st.timecode, st.block, .opening r.writePoint n,
          (q.clips.table.list.filter fun c => c.any fun c => c.state == .opened && c.cameras.getLsbD k.val).length, 0⟩]
        writePoint := (r.writePoint + n) % r.size
        used := r.used + n } } := by
  intro r q
  have rings := Part.forceCloses_rings k st.number p
  unfold q r Part.appendOpening Part.updRing Table.upd
  dsimp only
  generalize p.forceCloses k st.number = p1 at rings ⊢
  rw [rings]
  refine ⟨rfl, ?_⟩
  rw [openClipsOn_eq]
  rfl

theorem rollBack_rings {p : Part} {k : Fin 8} {n : Word} {g : GapCause} {e : PictureRecord} {start len : Nat}
    (found : (p.rings.nth k).find n = some e) (opening : e.body = .opening start len) :
    p.rollBack k n g = p.updRing k fun r => { (r.updRecord n fun e => { e with body := .gap g, pins := 0 }) with
      writePoint := start, used := r.used - len } := by
  obtain ⟨number, timecode, block, body, pins, sends⟩ := e
  obtain rfl : body = .opening start len := opening
  unfold Part.rollBack
  rw [found]

/-- Settles O32: making room by `makeRoom_retiring`, the opens by `openPlaced_cases`, and the roll-back by its own equation. -/
theorem ringRoomIsMadeAndGivenBack : Obligations.RingRoomIsMadeAndGivenBack := by
  refine ⟨?_, ?_, ?_, ?_⟩
  · intro p q k n ok made
    obtain ⟨gone, kept, split, free, rfl, needed, enough, failed⟩ := makeRoom_retiring made
    have told := told_clipsTo k gone p
    rw [retiring_ring]
    refine ⟨gone, split, free, rfl, needed, enough, failed, fun room => ?_, fun j hj => retiring_other hj, told.path, told.cameras,
      told.coder, rfl⟩
    have none' : gone = [] := by
      cases gone with
      | nil => rfl
      | cons e rest =>
        have short : (p.rings.nth k).size - ((p.rings.nth k).used - 0) < n := needed [] e rest rfl
        have room : n ≤ (p.rings.nth k).size - (p.rings.nth k).used := room
        omega
    refine ⟨none', ?_⟩
    cases ok with
    | true => rfl
    | false =>
      have short := (failed rfl).1
      rw [none'] at short
      have room : n ≤ (p.rings.nth k).size - (p.rings.nth k).used := room
      simp only [List.map_nil, List.sum_nil] at short
      omega
  · intro p q k st n start opened w before r
    rw [openPicture_eq] at opened
    by_cases order : ∀ x, (p.ringTaken k).index.getLast? = some x → laterThan st.number x.number = true
    · rw [if_pos order] at opened
      obtain lost | ⟨gone, kept, split, free, cut | ⟨opens, short, needed, enough⟩⟩ := openPlaced_cases k st n p
      · exact absurd (opened.symm.trans lost) nofun
      · exact absurd (opened.symm.trans cut) nofun
      · have both := opened.symm.trans opens
        obtain ⟨place, appended⟩ := appendOpening_says k st n ((p.taking k).retiring k gone kept)
        have start' : start = r.writePoint := by
          have := OpenResult.opened.inj (Prod.mk.inj both).1
          rw [this, place, retiring_ring, taking_ring]
          rfl
        refine ⟨start', order, gone, kept, split, free, short, needed, enough, ?_⟩
        have q' := (Prod.mk.inj both).2
        have ring : ((p.taking k).retiring k gone kept).rings.nth k = r.retire gone kept := by
          rw [retiring_ring, taking_ring]
          rfl
        intro after told pins
        have same : (p.taking k).retiring k gone kept = told := taking_retiring ..
        rw [ring, ← q', same] at appended
        rw [start']
        refine appended.trans ?_
        generalize told.forceCloses k st.number = closed
        exact congrArg (fun t : Table Ring 8 => { closed with rings := t }) (Table.put_put ..)
    · rw [if_neg order] at opened
      exact absurd opened nofun
  · intro p q k st n cause failed
    rw [openPicture_eq] at failed
    have untouched (h : (OpenResult.failed .lost, p) = (OpenResult.failed cause, q)) : cause = .lost ∧ q = p :=
      ⟨(OpenResult.failed.inj (Prod.mk.inj h).1).symm, (Prod.mk.inj h).2.symm⟩
    have leftAlone (h : cause = .lost ∧ q = p) : ∃ gone : List PictureRecord,
        (p.rings.nth k).index = gone ++ (q.rings.nth k).index ∧ (∀ e, e ∈ gone → e.retirable = true) ∧
        q.rings.nth k = { (p.rings.nth k) with
          index := (q.rings.nth k).index
          used := (p.rings.nth k).used - (gone.map PictureRecord.space).sum
          retired := gone.foldl (fun c _ => count c) (p.rings.nth k).retired
          cut := if cause = .gap .cut then count (p.rings.nth k).cut else (p.rings.nth k).cut } ∧
        (cause = .gap .cut → (Cause.ring, k.val) ∈ q.cmd.notices) ∧ (cause ≠ .gap .cut → cause = .lost ∧ q = p) ∧
        q.clips = (gone.foldl (fun x e => x.reportRetirement k e.number) p).clips ∧
        (∀ j, j ≠ k → q.rings.nth j = p.rings.nth j) ∧ q.path = p.path ∧ q.cameras = p.cameras ∧ q.coder = p.coder := by
      obtain ⟨rfl, rfl⟩ := h
      exact ⟨[], rfl, nofun, rfl, nofun, fun _ => ⟨rfl, rfl⟩, rfl, fun _ _ => rfl, rfl, rfl, rfl⟩
    by_cases order : ∀ x, (p.ringTaken k).index.getLast? = some x → laterThan st.number x.number = true
    · rw [if_pos order] at failed
      obtain lost | ⟨gone, kept, split, free, cut | ⟨opens, -⟩⟩ := openPlaced_cases k st n p
      · exact leftAlone (untouched (lost.symm.trans failed))
      · have both := cut.symm.trans failed
        obtain rfl := OpenResult.failed.inj (Prod.mk.inj both).1
        have q' := (Prod.mk.inj both).2
        have told := told_clipsTo k gone p
        have counted : (p.retiring k gone kept).countCut k = { (p.told k gone) with
            rings := p.rings.put k { ((p.rings.nth k).retire gone kept) with cut := count (p.rings.nth k).cut }
            cmd := (p.told k gone).cmd.raised (.ring, k.val) } := by
          rw [Part.countCut, raise_eq]
          unfold Part.updRing Table.upd
          rw [retiring_ring]
          exact congrArg (fun t : Table Ring 8 => { (p.told k gone) with
            rings := t, cmd := (p.told k gone).cmd.raised (.ring, k.val) }) (Table.put_put ..)
        rw [counted] at q'
        subst q'
        rw [(ringTaken_index p k).1] at split
        rw [Table.nth_put_same]
        exact ⟨gone, split, free, rfl, fun _ => (mem_raised ..).2 (.inl rfl), fun h => absurd rfl h, rfl,
          fun j hj => Table.nth_put_other _ _ (Ne.symm hj), told.path, told.cameras, told.coder⟩
      · exact absurd (failed.symm.trans opens) nofun
    · rw [if_neg order] at failed
      exact leftAlone (untouched failed)
  · intro p k n g e start len found opening
    rw [rollBack_rings found opening]
    exact ⟨Table.nth_put_same .., fun j hj => Table.nth_put_other _ _ (Ne.symm hj)⟩

end Sys2Proof.Machine
end

section
/-! MARK IN (O37): a free position, a free number, the in points and the pins. -/

namespace Sys2Proof.Machine

/-! The pins of a clip (R91). -/

theorem camerasOf_nodup (b : Byte) : (camerasOf b).Nodup := (List.nodup_finRange 8).filter _

theorem mem_camerasOf {b : Byte} {k : Fin 8} : k ∈ camerasOf b ↔ b.getLsbD k.val = true := by simp [camerasOf]

/-- Rings of a list changed, each by its own edit. -/
theorem foldl_updRing (f : Fin 8 → Ring → Ring) (l : List (Fin 8)) (distinct : l.Nodup) (p : Part) :
    ∃ rings, l.foldl (fun p k => p.updRing k (f k)) p = { p with rings := rings } ∧
      ∀ k, rings.nth k = if k ∈ l then f k (p.rings.nth k) else p.rings.nth k := by
  induction l generalizing p with
  | nil => exact ⟨p.rings, rfl, fun _ => rfl⟩
  | cons a rest ih =>
    obtain ⟨fresh, distinct⟩ := List.nodup_cons.1 distinct
    obtain ⟨rings, run, each⟩ := ih distinct (p.updRing a (f a))
    refine ⟨rings, run, fun k => (each k).trans ?_⟩
    change (if k ∈ rest then f k ((p.rings.upd a (f a)).nth k) else (p.rings.upd a (f a)).nth k) = _
    by_cases first : k = a
    · subst first
      rw [if_neg fresh, if_pos List.mem_cons_self, Table.nth_upd_same]
    · rw [Table.nth_upd_other _ _ (Ne.symm first)]
      simp only [List.mem_cons, first, false_or]

/-- A ring whose records of a range have their pins changed. -/
def Ring.repinned (inPoint : Word) (outPoint : Option Word) (f : Nat → Nat) (r : Ring) : Ring :=
  { r with index := r.index.map (PictureRecord.repin inPoint outPoint f) }

theorem pinClip_says (c : Clip) (out : Option (Table Word 8)) (p : Part) : ∃ rings, p.pinClip c out = { p with rings := rings } ∧
    ∀ k, rings.nth k = if c.cameras.getLsbD k.val then
      (p.rings.nth k).repinned (c.inPoints.nth k) (out.map fun t => t.nth k) (· + 1) else p.rings.nth k := by
  obtain ⟨rings, run, each⟩ := foldl_updRing (fun k => Ring.repinned (c.inPoints.nth k) (out.map fun t => t.nth k) (· + 1))
    (camerasOf c.cameras) (camerasOf_nodup _) p
  exact ⟨rings, run, fun k => by rw [each, ite_congr_iff mem_camerasOf rfl rfl]⟩

theorem unpinClip_says (c : Clip) (p : Part) : ∃ rings, p.unpinClip c = { p with rings := rings } ∧
    ∀ k, rings.nth k = if c.cameras.getLsbD k.val then
      (p.rings.nth k).repinned (c.inPoints.nth k) (c.out.map fun t => t.1.nth k) (· - 1) else p.rings.nth k := by
  obtain ⟨rings, run, each⟩ := foldl_updRing (fun k => Ring.repinned (c.inPoints.nth k) (c.out.map fun t => t.1.nth k) (· - 1))
    (camerasOf c.cameras) (camerasOf_nodup _) p
  exact ⟨rings, run, fun k => by rw [each, ite_congr_iff mem_camerasOf rfl rfl]⟩

/-! A free position and a free number (R116, R117). -/

theorem freePosition_eq_none {c : Clips} (full : ∀ pos, c.table.nth pos ≠ none) : c.freePosition = none := by
  refine List.find?_eq_none.2 fun pos _ => ?_
  rw [Option.isNone_iff_eq_none]
  exact full pos

theorem freePosition_eq_some {c : Clips} {pos : Fin 128} (free : c.table.nth pos = none) (low : ∀ x, x < pos → c.table.nth x ≠ none) :
    c.freePosition = some pos := by
  refine List.find?_eq_some_iff_getElem.2 ⟨by rw [free]; rfl, pos.val, by simp, by simp, fun j hj => ?_⟩
  rw [List.getElem_finRange, Bool.not_eq_true', ← Bool.not_eq_true, Option.isNone_iff_eq_none]
  exact low _ hj

theorem holdsNumber_iff {c : Clips} {n : Nat} : c.holds n = true ↔ ∃ x y, c.table.nth x = some y ∧ y.number = n := by
  unfold Clips.holds
  rw [List.any_eq_true]
  constructor
  · rintro ⟨r, hr, named⟩
    obtain ⟨x, rfl⟩ := (nth_of_mem ..).1 hr
    split at named
    · next y found => exact ⟨x, y, found, beq_iff_eq.1 named⟩
    · cases named
  · rintro ⟨x, y, found, named⟩
    refine ⟨some y, (nth_of_mem ..).2 ⟨x, found⟩, beq_iff_eq.2 named⟩

/-- Of 129 numbers in a row one is free, since 128 records hold at most 128 of them. -/
theorem exists_freeNumber (c : Clips) : ∃ i, i < 129 ∧ c.holds ((c.lastNumber + i) % 65535 + 1) = false := by
  let names := (List.range 129).map fun i => (c.lastNumber + i) % 65535 + 1
  let taken := (List.finRange 128).filterMap fun x => (c.table.nth x).map (·.number)
  have distinct : names.Nodup := by
    refine nodup_map_of_apart (fun i hi j hj same => ?_) List.nodup_range
    rw [List.mem_range] at hi hj
    omega
  have few : taken.length ≤ 128 := Nat.le_trans (List.length_filterMap_le ..) (Nat.le_of_eq List.length_finRange)
  refine Classical.byContradiction fun none' => ?_
  have held : names ⊆ taken := fun m hm => by
    obtain ⟨i, hi, rfl⟩ := List.mem_map.1 hm
    have named : c.holds ((c.lastNumber + i) % 65535 + 1) = true :=
      Decidable.byContradiction fun free => none' ⟨i, List.mem_range.1 hi, Bool.eq_false_iff.2 free⟩
    obtain ⟨x, y, found, number⟩ := holdsNumber_iff.1 named
    exact List.mem_filterMap.2 ⟨x, List.mem_finRange x, by rw [found, Option.map_some, number]⟩
  have many : names.length = 129 := by rw [List.length_map, List.length_range]
  have := distinct.length_le_of_subset held
  omega

theorem nextNumber_says (c : Clips) : ∃ past, past ≤ 128 ∧ c.nextNumber = (c.lastNumber + past) % 65535 + 1 ∧ c.holds c.nextNumber = false ∧
    ∀ m, m < past → c.holds ((c.lastNumber + m) % 65535 + 1) = true := by
  obtain ⟨i, small, free⟩ := exists_freeNumber c
  cases found : ((List.range 129).map fun i => (c.lastNumber + i) % 65535 + 1).find? fun n => !c.holds n with
  | none =>
    have taken := List.find?_eq_none.1 found _ (List.mem_map_of_mem (List.mem_range.2 small))
    rw [free] at taken
    exact absurd rfl taken
  | some n =>
    have next : c.nextNumber = n := by
      unfold Clips.nextNumber
      rw [found]
    obtain ⟨unheld, past, long, at', before⟩ := List.find?_eq_some_iff_getElem.1 found
    rw [List.length_map, List.length_range] at long
    rw [List.getElem_map, List.getElem_range] at at'
    rw [next]
    refine ⟨past, by omega, at'.symm, by simpa using unheld, fun m hm => ?_⟩
    have := before m hm
    rw [List.getElem_map, List.getElem_range] at this
    simpa using this

/-! The in point of a new clip (R118). -/

theorem inPointOn_indexed {p : Part} {preroll : Nat} {k : Fin 8} {oldest newest : PictureRecord}
    (first : (p.rings.nth k).index.head? = some oldest) (last : (p.rings.nth k).index.getLast? = some newest) :
    p.inPointOn preroll k = if atOrAfter (newest.number - BitVec.ofNat 32 preroll) oldest.number then newest.number - BitVec.ofNat 32 preroll
      else oldest.number := by
  unfold Part.inPointOn
  dsimp only
  rw [first, last]

theorem inPointOn_empty {p : Part} {preroll : Nat} {k : Fin 8} (empty : (p.rings.nth k).index = []) : p.inPointOn preroll k =
    (earlier (p.cameras.nth k).slotA.unfinished (p.cameras.nth k).slotB.unfinished).getD (p.cameras.nth k).counter := by
  unfold Part.inPointOn
  dsimp only
  rw [empty]
  rfl

theorem unfinished_eq_some {d : Slot} {n : Word} : d.unfinished = some n ↔
    ∃ st, (d.state = .filling ∨ d.state = .coding) ∧ d.abandoned = false ∧ d.stamp = some st ∧ st.number = n := by
  unfold Slot.unfinished
  constructor
  · intro h
    split at h
    · next busy =>
      obtain ⟨st, stamp, number⟩ := Option.map_eq_some_iff.1 h
      exact ⟨st, busy.1, by simpa using busy.2, stamp, number⟩
    · cases h
  · rintro ⟨st, busy, kept, stamp, number⟩
    rw [if_pos ⟨busy, by simpa using kept⟩, stamp]
    exact congrArg some number

theorem holds_unfinished {c : Camera} {n : Word} : c.holds n ↔ c.slotA.unfinished = some n ∨ c.slotB.unfinished = some n := by
  unfold Camera.holds
  simp only [unfinished_eq_some]
  constructor
  · rintro ⟨i, st, h⟩
    cases i with
    | a => exact .inl ⟨st, h⟩
    | b => exact .inr ⟨st, h⟩
  · rintro (⟨st, h⟩ | ⟨st, h⟩)
    · exact ⟨.a, st, h⟩
    · exact ⟨.b, st, h⟩

theorem laterThan_self (a : Word) : laterThan a a = false := by simp [laterThan]

/-- The earlier of two numbers is one of them, and later than neither. -/
theorem earlier_eq_some {a b : Option Word} {n : Word} (h : earlier a b = some n) : (a = some n ∨ b = some n) ∧
    ∀ m, (a = some m ∨ b = some m) → laterThan n m = false := by
  cases a with
  | none =>
    obtain rfl : b = some n := h
    refine ⟨.inr rfl, fun m hm => ?_⟩
    obtain rfl := Option.some.inj (hm.resolve_left nofun)
    exact laterThan_self n
  | some x =>
    cases b with
    | none =>
      obtain rfl := Option.some.inj h
      refine ⟨.inl rfl, fun m hm => ?_⟩
      obtain rfl := Option.some.inj (hm.resolve_right nofun)
      exact laterThan_self x
    | some y =>
      have chosen : (if laterThan x y then some y else some x) = some n := h
      split at chosen
      · next later =>
        obtain rfl := Option.some.inj chosen
        refine ⟨.inr rfl, fun m hm => ?_⟩
        obtain hm | hm := hm <;> obtain rfl := Option.some.inj hm
        · exact Bool.eq_false_iff.2 (not_laterThan later)
        · exact laterThan_self _
      · next notLater =>
        obtain rfl := Option.some.inj chosen
        refine ⟨.inl rfl, fun m hm => ?_⟩
        obtain hm | hm := hm <;> obtain rfl := Option.some.inj hm
        · exact laterThan_self _
        · exact Bool.eq_false_iff.2 notLater

theorem earlier_eq_none {a b : Option Word} : earlier a b = none ↔ a = none ∧ b = none := by
  cases a <;> cases b <;> simp only [earlier] <;> (try split) <;> simp

/-- The in point of a camera whose index is empty. -/
theorem inPointOn_empty_says {p : Part} {preroll : Nat} {k : Fin 8} (empty : (p.rings.nth k).index = []) :
    ((∀ n, ¬ (p.cameras.nth k).holds n) → p.inPointOn preroll k = (p.cameras.nth k).counter) ∧
    ((∃ n, (p.cameras.nth k).holds n) → (p.cameras.nth k).holds (p.inPointOn preroll k) ∧
      ∀ n, (p.cameras.nth k).holds n → laterThan (p.inPointOn preroll k) n = false) := by
  rw [inPointOn_empty empty]
  simp only [holds_unfinished]
  cases found : earlier (p.cameras.nth k).slotA.unfinished (p.cameras.nth k).slotB.unfinished with
  | none =>
    obtain ⟨a, b⟩ := earlier_eq_none.1 found
    refine ⟨fun _ => rfl, fun ⟨n, hn⟩ => ?_⟩
    rw [a, b] at hn
    exact hn.elim nofun nofun
  | some n =>
    obtain ⟨one, least⟩ := earlier_eq_some found
    exact ⟨fun none' => absurd one (none' n), fun _ => ⟨one, least⟩⟩

/-! The command. -/

theorem markValid_iff {cameras : Byte} {preroll limit : Nat} {labels : List Half} : MarkRequest.valid ⟨cameras, preroll, limit, labels.map (·.toNat), none⟩ = true ↔
    cameras ≠ 0 ∧ preroll ≤ 250 ∧ 1 ≤ limit ∧ limit ≤ 30000 ∧ preroll < limit ∧ labels.length ≤ 8 ∧ (∀ l, l ∈ labels → l ≠ 0) ∧ labels.Nodup := by
  have zero : (labels.map (·.toNat)).contains 0 = false ↔ ∀ l, l ∈ labels → l ≠ 0 := by
    rw [← Bool.not_eq_true, List.contains_iff_mem, List.mem_map]
    refine ⟨fun h l hl same => h ⟨l, hl, by rw [same]; rfl⟩, fun h ⟨l, hl, same⟩ => h l hl (BitVec.eq_of_toNat_eq same)⟩
  have distinct : (labels.map (·.toNat)).Nodup ↔ labels.Nodup :=
    ⟨fun h => (List.pairwise_map.1 h).imp fun apart same => apart (congrArg _ same), nodup_map_of_apart fun _ _ _ _ => BitVec.eq_of_toNat_eq⟩
  have eight : Config.labelMax = 8 := rfl
  unfold MarkRequest.valid
  dsimp only
  simp only [Bool.and_eq_true, bne_iff_ne, decide_eq_true_eq, Bool.not_eq_true', zero, distinct, List.length_map, eight, and_assoc]

section

variable {p : Part} {m : MarkRequest}

theorem markIn_of_invalid (h : ¬ m.valid = true) : p.markIn m = (.error .badField, p.countRefusedMark) :=
  if_pos (by simpa using h)

theorem markIn_of_full (h : m.valid = true) (full : p.clips.freePosition = none) : p.markIn m = (.error .tableFull, p.countRefusedMark) := by
  refine (if_neg (by simp [h])).trans ?_
  rw [full]

variable {pos : Fin 128}

theorem any_running {cameras : Byte} : ((camerasOf cameras).any fun k => (p.cameras.nth k).state == .running) = true ↔
    ∃ k : Fin 8, cameras.getLsbD k.val = true ∧ (p.cameras.nth k).state = .running := by
  simp only [List.any_eq_true, mem_camerasOf, beq_iff_eq]

theorem markIn_of_stopped (h : m.valid = true) (free : p.clips.freePosition = some pos)
    (stopped : ¬ ∃ k : Fin 8, m.cameras.getLsbD k.val = true ∧ (p.cameras.nth k).state = .running) :
    p.markIn m = (.error .state, p.countRefusedMark) := by
  refine (if_neg (by simp [h])).trans ?_
  rw [free]
  exact if_neg (mt any_running.1 stopped)

theorem markIn_of_running (h : m.valid = true) (free : p.clips.freePosition = some pos)
    (running : ∃ k : Fin 8, m.cameras.getLsbD k.val = true ∧ (p.cameras.nth k).state = .running) :
    ∃ rings, p.markIn m = (.ok (pos, p.newClip m), { p with
        clips := { p.clips with
          table := p.clips.table.put pos (some (p.newClip m)), lastNumber := p.clips.nextNumber, marks := count p.clips.marks
          mirror := insertPos pos p.clips.mirror }
        rings := rings }) ∧
      ∀ k, rings.nth k = if m.cameras.getLsbD k.val then (p.rings.nth k).repinned ((p.newClip m).inPoints.nth k) none (· + 1)
        else p.rings.nth k := by
  obtain ⟨rings, pinned, each⟩ := pinClip_says (p.newClip m) none (p.setClips { p.clips with
    table := p.clips.table.put pos (some (p.newClip m)), lastNumber := (p.newClip m).number, marks := count p.clips.marks })
  refine ⟨rings, (if_neg (by simp [h])).trans ?_, each⟩
  rw [free]
  refine (if_pos (any_running.2 running)).trans ?_
  dsimp only
  rw [pinned]
  rfl

end

theorem flagOf_eq {b : Byte} (h : b.toNat ≤ 1) : flagOf b = some (decide (b = 1)) := by
  obtain ⟨zero, flag⟩ | ⟨one, flag⟩ | ⟨-, zero, one⟩ := flagOf_cases b
  · rw [flag, zero]
    rfl
  · rw [flag, one]
    rfl
  · exact absurd h (by bv_omega)

/-- A pinned range that is open ahead. -/
theorem repin_open (n : Word) (f : Nat → Nat) (e : PictureRecord) : e.repin n none f =
    if e.pinnable && atOrAfter e.number n then { e with pins := f e.pins } else e := by
  unfold PictureRecord.repin inRange
  rw [Bool.and_true]

/-- Settles O37: MARK IN's outcome, test by test, and the fields of the clip it opens. -/
theorem markInOpensAClip : Obligations.MarkInOpensAClip := by
  intro s i tag cameras preroll limitPresent limit labels h run bound legal refused anyRunning
  have ran := exec_of_taken h rfl
  by_cases flag : limitPresent.toNat ≤ 1
  case neg =>
    refine ⟨fun _ => ?_, fun l => absurd l.1 flag, fun l => absurd l.1 flag⟩
    obtain ⟨zero, -⟩ | ⟨one, -⟩ | ⟨none', -⟩ := flagOf_cases limitPresent
    · exact absurd (by rw [zero]; decide) flag
    · exact absurd (by rw [one]; decide) flag
    · rw [none'] at ran
      exact ran
  let m : MarkRequest := ⟨cameras, preroll.toNat, bound, labels.map (·.toNat), none⟩
  have bound' : (if decide (limitPresent = 1) = true then limit.toNat else Config.defaultLengthLimit) = bound := by
    simp only [decide_eq_true_eq]
    rfl
  rw [flagOf_eq flag] at ran
  dsimp only at ran
  rw [bound'] at ran
  have valid : m.valid = true ↔ legal := markValid_iff.trans ⟨fun v => ⟨flag, v⟩, fun l => l.2⟩
  have refuses {r : Result} (marked : s.part.handEmpty.markIn m = (.error r, s.part.handEmpty.countRefusedMark)) : refused r := by
    rw [show s.part.handEmpty.markIn ⟨cameras, preroll.toNat, bound, labels.map (·.toNat), none⟩ = _ from marked] at ran
    exact ran
  refine ⟨fun bad => refuses (markIn_of_invalid (mt valid.1 bad)), fun good full => refuses (markIn_of_full (valid.2 good)
    (freePosition_eq_none full)), fun good pos free low => ?_⟩
  have place : s.part.handEmpty.clips.freePosition = some pos := freePosition_eq_some free low
  refine ⟨fun stopped => refuses (markIn_of_stopped (valid.2 good) place stopped), fun running => ?_⟩
  obtain ⟨rings, marked, each⟩ := markIn_of_running (p := s.part.handEmpty) (m := m) (valid.2 good) place running
  rw [show s.part.handEmpty.markIn ⟨cameras, preroll.toNat, bound, labels.map (·.toNat), none⟩ = _ from marked] at ran
  let c := s.part.newClip m
  have inPoint (k : Fin 8) (hk : cameras.getLsbD k.val = true) : c.inPoints.nth k = s.part.inPointOn preroll.toNat k :=
    (Table.nth_make ..).trans (if_pos hk)
  obtain ⟨past, few, number, unheld, held⟩ := nextNumber_says s.part.clips
  refine ⟨_, c, ran, rfl, fun x y found same => ?_, ⟨past, few, number, fun x hx => holdsNumber_iff.1 (held x hx)⟩, rfl, rfl,
    (mem_insertPos ..).2 (.inl rfl), rfl, rfl, rfl, rfl, rfl, rfl, rfl, fun k hk => ⟨fun oldest newest first last => ?_, fun empty => ?_, ?_⟩,
    fun k hk => ?_, rfl⟩
  · have := holdsNumber_iff.2 ⟨x, y, found, same⟩
    exact absurd (unheld.symm.trans this) (by decide)
  · intro back
    rw [inPoint k hk]
    exact inPointOn_indexed first last
  · rw [inPoint k hk]
    exact inPointOn_empty_says empty
  · refine (congrArg Ring.index ((each k).trans (if_pos hk))).trans ?_
    exact List.map_congr_left fun e _ => repin_open ..
  · exact (each k).trans (if_neg (Bool.eq_false_iff.1 hk))

end Sys2Proof.Machine
end

section
/-! The clip commands, the force-closes and the retirements that reach clips (O38). -/

namespace Sys2Proof.Machine

/-! The positions of the clip table visited one by one (R119, R121). -/

/-- What a visit of a list of positions makes of the clips there: each is edited, the ones `touched` are to be mirrored, the
ones `noticed` raise their notice, and no cue line names the ones `freed`. -/
structure Part.Visits (edit : Clip → Clip) (touched noticed freed : Clip → Prop) (l : List (Fin 128)) (p q : Part) : Prop where
  clipsTo : p.ClipsTo q
  table : ∀ pos, q.clips.table.nth pos = if pos ∈ l then (p.clips.table.nth pos).map edit else p.clips.table.nth pos
  kept : ∀ pos, pos ∈ p.clips.mirror → pos ∈ q.clips.mirror
  mirror : ∀ pos c, pos ∈ l → p.clips.table.nth pos = some c → touched c → pos ∈ q.clips.mirror
  notices : ∀ pos c, pos ∈ l → p.clips.table.nth pos = some c → noticed c → (Cause.clip, pos.val) ∈ q.cmd.notices
  cues : ∀ j n, (p.cues.nth j).openClip ≠ some n → (q.cues.nth j).openClip ≠ some n
  frees : ∀ pos c, pos ∈ l → p.clips.table.nth pos = some c → freed c → ∀ j, (q.cues.nth j).openClip ≠ some c.number

section

variable {edit : Clip → Clip} {touched noticed freed : Clip → Prop}

theorem Part.Visits.nil (p : Part) : p.Visits edit touched noticed freed [] p where
  clipsTo := .refl p
  table _ := rfl
  kept _ h := h
  mirror _ _ h := absurd h List.not_mem_nil
  notices _ _ h := absurd h List.not_mem_nil
  cues _ _ h := h
  frees _ _ h := absurd h List.not_mem_nil

theorem Part.Visits.cons {a : Fin 128} {l : List (Fin 128)} {p q r : Part} (fresh : a ∉ l) (h : p.Visits edit touched noticed freed [a] q)
    (h' : q.Visits edit touched noticed freed l r) : p.Visits edit touched noticed freed (a :: l) r := by
  have later {pos : Fin 128} (hp : pos ∈ l) : q.clips.table.nth pos = p.clips.table.nth pos := by
    rw [h.table, if_neg fun same => fresh ((List.mem_singleton.1 same).subst (motive := (· ∈ l)) hp)]
  refine ⟨h.clipsTo.trans h'.clipsTo, fun pos => ?_, fun pos hp => h'.kept pos (h.kept pos hp), fun pos c hp hc ht => ?_,
    fun pos c hp hc ht => ?_, fun j n hn => h'.cues j n (h.cues j n hn), fun pos c hp hc ht j => ?_⟩
  · rw [h'.table]
    by_cases inRest : pos ∈ l
    · rw [if_pos inRest, if_pos (List.mem_cons_of_mem _ inRest), later inRest]
    · rw [if_neg inRest, h.table]
      simp only [List.mem_cons, inRest, or_false, List.not_mem_nil]
  · obtain rfl | hp := List.mem_cons.1 hp
    · exact h'.kept _ (h.mirror _ c (List.mem_singleton.2 rfl) hc ht)
    · exact h'.mirror pos c hp ((later hp).trans hc) ht
  · obtain rfl | hp := List.mem_cons.1 hp
    · exact h'.clipsTo.cmd.grown _ (h.notices _ c (List.mem_singleton.2 rfl) hc ht)
    · exact h'.notices pos c hp ((later hp).trans hc) ht
  · obtain rfl | hp := List.mem_cons.1 hp
    · exact h'.cues _ _ (h.frees _ c (List.mem_singleton.2 rfl) hc ht j)
    · exact h'.frees pos c hp ((later hp).trans hc) ht j

theorem Part.Visits.foldl {f : Part → Fin 128 → Part} {good : Part → Prop} (keeps : ∀ p q : Part, good p → p.ClipsTo q → good q)
    (step : ∀ p pos, good p → p.Visits edit touched noticed freed [pos] (f p pos)) (l : List (Fin 128)) (distinct : l.Nodup) (p : Part)
    (start : good p) : p.Visits edit touched noticed freed l (l.foldl f p) := by
  induction l generalizing p with
  | nil => exact .nil p
  | cons a rest ih =>
    obtain ⟨fresh, distinct⟩ := List.nodup_cons.1 distinct
    have first := step p a start
    exact .cons fresh first (ih distinct _ (keeps p _ start first.clipsTo))

/-- A visit that leaves the part as it is. -/
theorem Part.Visits.same {p : Part} {pos : Fin 128} (h : ∀ c, p.clips.table.nth pos = some c → edit c = c ∧ ¬ touched c ∧ ¬ noticed c ∧ ¬ freed c) :
    p.Visits edit touched noticed freed [pos] p := by
  have there {x : Fin 128} {c : Clip} (hx : x ∈ [pos]) (hc : p.clips.table.nth x = some c) :=
    h c ((congrArg p.clips.table.nth (List.mem_singleton.1 hx)).symm.trans hc)
  refine ⟨.refl p, fun x => ?_, fun _ h => h, fun x c hx hc ht => absurd ht (there hx hc).2.1, fun x c hx hc ht => absurd ht (there hx hc).2.2.1,
    fun _ _ h => h, fun x c hx hc ht => absurd ht (there hx hc).2.2.2⟩
  split
  · next hx =>
    cases hc : p.clips.table.nth x with
    | none => rfl
    | some c => exact congrArg some (there hx hc).1.symm
  · rfl

/-- A visit that edits the clip at its position. -/
theorem Part.Visits.edited {p q : Part} {pos : Fin 128} {c d : Clip} (here : p.clips.table.nth pos = some c) (made : edit c = d)
    (clipsTo : p.ClipsTo q) (table : q.clips.table = p.clips.table.put pos (some d))
    (kept : ∀ x, x ∈ p.clips.mirror → x ∈ q.clips.mirror) (mirror : touched c → pos ∈ q.clips.mirror)
    (notices : noticed c → (Cause.clip, pos.val) ∈ q.cmd.notices)
    (cues : ∀ j n, (p.cues.nth j).openClip ≠ some n → (q.cues.nth j).openClip ≠ some n)
    (frees : freed c → ∀ j, (q.cues.nth j).openClip ≠ some c.number) : p.Visits edit touched noticed freed [pos] q := by
  have own {x : Fin 128} {e : Clip} (hx : x ∈ [pos]) (he : p.clips.table.nth x = some e) : x = pos ∧ e = c := by
    obtain rfl := List.mem_singleton.1 hx
    exact ⟨rfl, Option.some.inj (he.symm.trans here)⟩
  refine ⟨clipsTo, fun x => ?_, kept, fun x e hx he ht => ?_, fun x e hx he ht => ?_, cues, fun x e hx he ht => ?_⟩
  · rw [table]
    by_cases same : x = pos
    · subst same
      rw [Table.nth_put_same, if_pos (List.mem_singleton.2 rfl), here]
      exact congrArg some made.symm
    · rw [Table.nth_put_other _ _ (Ne.symm same), if_neg (by simpa using same)]
  · obtain ⟨rfl, rfl⟩ := own hx he
    exact mirror ht
  · obtain ⟨rfl, rfl⟩ := own hx he
    exact notices ht
  · obtain ⟨rfl, rfl⟩ := own hx he
    exact frees ht

end

/-! A retirement reaches a clip (R121). -/

/-- The retirement of picture `n` of the camera lies at or after the clip's in point on it. -/
def Clip.passes (k : Fin 8) (n : Word) (c : Clip) : Bool := c.cameras.getLsbD k.val && atOrAfter n (c.inPoints.nth k)

/-- A clip that a retirement has reached. -/
def Clip.reached (k : Fin 8) (n : Word) (c : Clip) : Clip :=
  if c.passes k n then
    { c with passed := c.passed ||| BitVec.ofNat 8 (2 ^ k.val), state := if c.state = .loose then .lost else c.state }
  else c

theorem passed_or {c : Clip} {k : Fin 8} (h : c.passed.getLsbD k.val = true) : c.passed ||| BitVec.ofNat 8 (2 ^ k.val) = c.passed := by
  refine BitVec.eq_of_getLsbD_eq fun i hi => ?_
  rw [BitVec.getLsbD_or, BitVec.getLsbD_ofNat, Nat.testBit_two_pow]
  by_cases same : k.val = i
  · rw [← same, h]
    simp
  · simp [same]

theorem loseClip_eq {p : Part} {pos : Fin 128} {c : Clip} (here : p.clips.table.nth pos = some c) : p.loseClip pos = { p with
    clips := { p.clips with
      table := p.clips.table.put pos (some { c with state := .lost })
      mirror := insertPos pos p.clips.mirror
      lostClips := count p.clips.lostClips
      events := count p.clips.events }
    cmd := p.cmd.raised (.clip, pos.val) } := by
  unfold Part.loseClip Part.clipEvent
  rw [Part.editClip_eq here, raise_eq]
  rfl

theorem retirementReaches_visits (k : Fin 8) (n : Word) (pos : Fin 128) (p : Part) :
    p.Visits (Clip.reached k n) (fun c => c.passes k n = true ∧ (c.passed.getLsbD k.val = false ∨ c.state = .loose))
      (fun c => c.passes k n = true ∧ c.state = .loose) (fun _ => False) [pos] (p.retirementReaches k n pos) := by
  have clipsTo := retirementReaches_clipsTo k n pos p
  cases here : p.clips.table.nth pos with
  | none =>
    have run : p.retirementReaches k n pos = p := by
      unfold Part.retirementReaches
      rw [here]
    rw [run]
    exact .same fun c hc => absurd (here.symm.trans hc) nofun
  | some c =>
    let marked : Part := if c.passed.getLsbD k.val then p
      else p.editClip pos fun c => { c with passed := c.passed ||| BitVec.ofNat 8 (2 ^ k.val) }
    have run : p.retirementReaches k n pos = if c.passes k n then (if c.state = .loose then marked.loseClip pos else marked) else p := by
      unfold Part.retirementReaches
      rw [here]
      rfl
    have only {d : Clip} (hd : p.clips.table.nth pos = some d) : d = c := Option.some.inj (hd.symm.trans here)
    rw [run] at clipsTo ⊢
    by_cases passes : c.passes k n = true
    · rw [if_pos passes] at clipsTo ⊢
      have edit : c.reached k n = { c with
          passed := c.passed ||| BitVec.ofNat 8 (2 ^ k.val), state := if c.state = .loose then .lost else c.state } := if_pos passes
      by_cases bit : c.passed.getLsbD k.val = true
      · have stays : marked = p := if_pos bit
        rw [stays] at clipsTo ⊢
        rw [passed_or bit] at edit
        by_cases loose : c.state = .loose
        · rw [if_pos loose] at clipsTo ⊢
          rw [if_pos loose] at edit
          rw [loseClip_eq here] at clipsTo ⊢
          exact .edited here edit clipsTo rfl (fun x hx => (mem_insertPos ..).2 (.inr hx)) (fun _ => (mem_insertPos ..).2 (.inl rfl))
            (fun _ => (mem_raised ..).2 (.inl rfl)) (fun _ _ h => h) nofun
        · rw [if_neg loose] at clipsTo ⊢
          rw [if_neg loose] at edit
          refine .same fun d hd => ?_
          obtain rfl := only hd
          exact ⟨edit, fun t => t.2.elim (fun clear => absurd (bit.symm.trans clear) (by decide)) loose, fun t => loose t.2, id⟩
      · have edits : marked = _ := (if_neg bit).trans (Part.editClip_eq here _)
        rw [edits] at clipsTo ⊢
        by_cases loose : c.state = .loose
        · rw [if_pos loose] at clipsTo ⊢
          rw [if_pos loose] at edit
          rw [loseClip_eq (Table.nth_put_same ..)] at clipsTo ⊢
          refine .edited here edit clipsTo (Table.put_put ..) (fun x hx => ?_) (fun _ => (mem_insertPos ..).2 (.inl rfl))
            (fun _ => (mem_raised ..).2 (.inl rfl)) (fun _ _ h => h) nofun
          exact (mem_insertPos ..).2 (.inr ((mem_insertPos ..).2 (.inr hx)))
        · rw [if_neg loose] at clipsTo ⊢
          rw [if_neg loose] at edit
          exact .edited here edit clipsTo rfl (fun x hx => (mem_insertPos ..).2 (.inr hx)) (fun _ => (mem_insertPos ..).2 (.inl rfl))
            (fun t => absurd t.2 loose) (fun _ _ h => h) nofun
    · rw [if_neg passes]
      refine .same fun d hd => ?_
      obtain rfl := only hd
      exact ⟨if_neg passes, fun t => passes t.1, fun t => passes t.1, id⟩

theorem reportRetirement_visits (k : Fin 8) (n : Word) (p : Part) :
    p.Visits (Clip.reached k n) (fun c => c.passes k n = true ∧ (c.passed.getLsbD k.val = false ∨ c.state = .loose))
      (fun c => c.passes k n = true ∧ c.state = .loose) (fun _ => False) (List.finRange 128) (p.reportRetirement k n) :=
  .foldl (good := fun _ => True) (fun _ _ _ _ => trivial) (fun p pos _ => retirementReaches_visits k n pos p) _ (List.nodup_finRange 128) p trivial

/-! A picture open force-closes a clip (R119). -/

/-- The clip's span would pass its length limit at picture `n` of the camera. -/
def Clip.beyond (k : Fin 8) (n : Word) (c : Clip) : Bool :=
  decide (c.state = .opened ∧ c.cameras.getLsbD k.val = true ∧ atOrAfter n (c.inPoints.nth k) = true ∧ c.limit < spanOf (c.inPoints.nth k) n)

/-- A clip once the opening of a picture has closed it where it must. -/
def Part.forced (p : Part) (k : Fin 8) (n : Word) (c : Clip) : Clip :=
  if c.beyond k n then
    { c with state := .kept, forced := true, out := some ((p.closingPoints c).put k (n - 1), p.clock.timecode) }
  else c

/-- The cue lines once one clip is closed. -/
theorem clearOpenClip_cues (number : Nat) (p : Part) (j : Fin 8) : ((p.clearOpenClip number).cues.nth j).openClip =
    if (p.cues.nth j).openClip = some number then none else (p.cues.nth j).openClip := by
  have each : (p.clearOpenClip number).cues.nth j = _ := Table.nth_each ..
  rw [each]
  split <;> rfl

theorem clearOpenClip_kept {number n : Nat} {p : Part} {j : Fin 8} (h : (p.cues.nth j).openClip ≠ some n) :
    ((p.clearOpenClip number).cues.nth j).openClip ≠ some n := by
  rw [clearOpenClip_cues]
  split
  · exact nofun
  · exact h

theorem clearOpenClip_cleared (number : Nat) (p : Part) (j : Fin 8) : ((p.clearOpenClip number).cues.nth j).openClip ≠ some number := by
  rw [clearOpenClip_cues]
  split
  · exact nofun
  · next other => exact other

theorem forceClose_eq {p : Part} {k : Fin 8} {n : Word} {pos : Fin 128} {c : Clip} (here : p.clips.table.nth pos = some c) :
    p.forceClose k n pos c = { p with
      clips := { p.clips with
        table := p.clips.table.put pos (some { c with
          state := .kept, forced := true, out := some ((p.closingPoints c).put k (n - 1), p.clock.timecode) })
        mirror := insertPos pos p.clips.mirror
        forceCloses := count p.clips.forceCloses
        events := count p.clips.events }
      cues := (p.clearOpenClip c.number).cues
      cmd := p.cmd.raised (.clip, pos.val) } := by
  unfold Part.forceClose Part.clipEvent
  rw [Part.editClip_eq here, raise_eq]
  rfl

/-- One step of the force-closes. -/
def Part.forceStep (k : Fin 8) (n : Word) (p : Part) (pos : Fin 128) : Part :=
  match p.clips.table.nth pos with
  | some c => if c.beyond k n then p.forceClose k n pos c else p
  | none => p

theorem forceStep_visits (k : Fin 8) (n : Word) (p : Part) (pos : Fin 128) :
    p.Visits (p.forced k n) (fun c => c.beyond k n = true) (fun c => c.beyond k n = true) (fun c => c.beyond k n = true) [pos] (p.forceStep k n pos) := by
  cases here : p.clips.table.nth pos with
  | none =>
    have run : p.forceStep k n pos = p := by
      unfold Part.forceStep
      rw [here]
    rw [run]
    exact .same fun c hc => absurd (here.symm.trans hc) nofun
  | some c =>
    have run : p.forceStep k n pos = if c.beyond k n then p.forceClose k n pos c else p := by
      unfold Part.forceStep
      rw [here]
    rw [run]
    by_cases beyond : c.beyond k n = true
    · rw [if_pos beyond]
      have clipsTo := forceClose_clipsTo k n pos c p
      rw [forceClose_eq here] at clipsTo ⊢
      exact .edited here (if_pos beyond) clipsTo rfl (fun x hx => (mem_insertPos ..).2 (.inr hx)) (fun _ => (mem_insertPos ..).2 (.inl rfl))
        (fun _ => (mem_raised ..).2 (.inl rfl)) (fun _ _ h => clearOpenClip_kept h) fun _ j => clearOpenClip_cleared _ p j
    · rw [if_neg beyond]
      refine .same fun d hd => ?_
      obtain rfl : d = c := Option.some.inj (hd.symm.trans here)
      exact ⟨if_neg beyond, beyond, beyond, beyond⟩

theorem forceCloses_eq (k : Fin 8) (n : Word) (p : Part) : p.forceCloses k n = (List.finRange 128).foldl (Part.forceStep k n) p := by
  unfold Part.forceCloses
  refine congrArg (fun f => List.foldl f p (List.finRange 128)) (funext fun p => funext fun pos => ?_)
  unfold Part.forceStep
  cases p.clips.table.nth pos with
  | none => rfl
  | some c => exact ite_congr_iff (show _ ↔ decide _ = true from decide_eq_true_iff.symm) rfl rfl

/-- The closing points and the timecode stand while clips are closed. -/
theorem Part.ClipsTo.forced {p q : Part} (h : p.ClipsTo q) (k : Fin 8) (n : Word) : q.forced k n = p.forced k n := by
  rw [h.rest]
  rfl

theorem forceCloses_visits (k : Fin 8) (n : Word) (p : Part) :
    p.Visits (p.forced k n) (fun c => c.beyond k n = true) (fun c => c.beyond k n = true) (fun c => c.beyond k n = true) (List.finRange 128)
      (p.forceCloses k n) := by
  rw [forceCloses_eq]
  refine .foldl (good := fun q => q.forced k n = p.forced k n) (fun q r same told => (told.forced k n).trans same) (fun q pos same => ?_) _
    (List.nodup_finRange 128) p rfl
  rw [← same]
  exact forceStep_visits k n q pos

/-! DELETE CLIP lets the clip's items go (R134, R136). -/

/-- What letting go of items makes of the part: only the send engine and the send counts of the rings move, an item only ever
loses its link and its place in its queue, and no cursor turns to another clip. -/
structure Part.LetsGo (p q : Part) : Prop where
  rest : q = { p with rings := q.rings, sender := q.sender }
  items : ∀ y, y ∈ q.sender.items → ∃ x, x ∈ p.sender.items ∧ y.id = x.id ∧ y.kind = x.kind ∧
    (x.queued = false → y.queued = false) ∧ (x.linked = false → y.linked = false)
  cursors : ∀ k cur, q.sender.cursors.nth k = some cur →
    ∃ old, p.sender.cursors.nth k = some old ∧ old.pos = cur.pos ∧ old.clip = cur.clip
  pins : ∀ k : Fin 8, (q.rings.nth k).index.map (fun e => (e.number, e.pins)) = (p.rings.nth k).index.map fun e => (e.number, e.pins)

theorem Part.LetsGo.refl (p : Part) : p.LetsGo p :=
  ⟨rfl, fun y hy => ⟨y, hy, rfl, rfl, id, id⟩, fun _ cur h => ⟨cur, h, rfl, rfl⟩, fun _ => rfl⟩

theorem Part.LetsGo.trans {p q r : Part} (h : p.LetsGo q) (h' : q.LetsGo r) : p.LetsGo r where
  rest := by rw [h'.rest, h.rest]
  items z hz := by
    obtain ⟨y, hy, id', kind', queued', linked'⟩ := h'.items z hz
    obtain ⟨x, hx, id, kind, queued, linked⟩ := h.items y hy
    exact ⟨x, hx, id'.trans id, kind'.trans kind, queued' ∘ queued, linked' ∘ linked⟩
  cursors k cur hc := by
    obtain ⟨mid, hm, pos', clip'⟩ := h'.cursors k cur hc
    obtain ⟨old, ho, pos, clip⟩ := h.cursors k mid hm
    exact ⟨old, ho, pos.trans pos', clip.trans clip'⟩
  pins k := (h'.pins k).trans (h.pins k)

/-- The release of a reference leaves numbers and pins. -/
theorem sending_pins (rings : Table Ring 8) (k : Fin 8) (n : Word) (f : Nat → Nat) (j : Fin 8) :
    ((rings.upd k fun r => r.sending n f).nth j).index.map (fun e => (e.number, e.pins)) = (rings.nth j).index.map fun e => (e.number, e.pins) := by
  by_cases same : j = k
  · subst same
    rw [Table.nth_upd_same]
    unfold Ring.sending
    rw [List.map_map]
    refine List.map_congr_left fun e _ => ?_
    dsimp only [Function.comp]
    split <;> rfl
  · rw [Table.nth_upd_other _ _ (Ne.symm same)]

/-- The end of an item without its link. -/
theorem itemEnds_letsGo {it : Item} (unlinked : it.linked = false) (failed : Bool) (p : Part) : p.LetsGo (p.itemEnds it failed) := by
  have told : Part.endTold it failed p = p := by
    unfold Part.endTold
    rw [unlinked]
    split <;> rfl
  have made := itemEnds_eq it failed p
  rw [told] at made
  refine ⟨by rw [made], fun y hy => ?_, fun k cur hc => ?_, fun k => ?_⟩
  · rw [itemEnds_items] at hy
    exact ⟨y, (List.mem_filter.1 hy).1, rfl, rfl, id, id⟩
  · have cursors : (p.itemEnds it failed).sender.cursors = match it.kind with
      | .clipPicture pos clip cursor cam _ => p.sender.cursors.upd cursor fun c => c.map fun c =>
          if c.pos = pos ∧ c.clip = clip ∧ c.cam = cam then { c with outstanding := c.outstanding - 1 } else c
      | _ => p.sender.cursors := rfl
    rw [cursors] at hc
    split at hc
    · next pos clip cursor cam _ _ =>
      by_cases same : k = cursor
      · rw [same, Table.nth_upd_same] at hc
        obtain ⟨old, ho, rfl⟩ := Option.map_eq_some_iff.1 hc
        refine ⟨old, same ▸ ho, ?_⟩
        split <;> exact ⟨rfl, rfl⟩
      · rw [Table.nth_upd_other _ _ (Ne.symm same)] at hc
        exact ⟨cur, hc, rfl, rfl⟩
    · exact ⟨cur, hc, rfl, rfl⟩
  · rw [made]
    change ((match it.kind.picture with | some (k, n) => p.rings.upd k fun r => r.sending n (· - 1) | none => p.rings : Table Ring 8).nth k).index.map _ = _
    split
    · exact sending_pins ..
    · rfl

/-- The drop of an item without its link. -/
theorem itemDropped_letsGo {it : Item} (unlinked : it.linked = false) (p : Part) : p.LetsGo (p.itemDropped it) := by
  unfold Part.itemDropped
  split
  · exact itemEnds_letsGo unlinked true p
  · refine ⟨rfl, fun y hy => ?_, fun _ cur h => ⟨cur, h, rfl, rfl⟩, fun _ => rfl⟩
    obtain ⟨x, hx, rfl⟩ := List.mem_map.1 hy
    refine ⟨x, hx, ?_⟩
    split
    · exact ⟨rfl, rfl, fun _ => rfl, id⟩
    · exact ⟨rfl, rfl, id, id⟩

/-- The item without its clip link, in every item of its name. -/
def Part.unlinked (id : Nat) (p : Part) : Part := p.updItem id fun i => { i with linked := false }

theorem unlinked_letsGo (id : Nat) (p : Part) : p.LetsGo (p.unlinked id) := by
  refine ⟨rfl, fun y hy => ?_, fun _ cur h => ⟨cur, h, rfl, rfl⟩, fun _ => rfl⟩
  obtain ⟨x, hx, rfl⟩ := List.mem_map.1 hy
  refine ⟨x, hx, ?_⟩
  split
  · exact ⟨rfl, rfl, fun h => h, fun _ => rfl⟩
  · exact ⟨rfl, rfl, fun h => h, fun h => h⟩

theorem linked_unlinked {id : Nat} {p : Part} {y : Item} (hy : y ∈ (p.unlinked id).sender.items) (named : y.id = id) : y.linked = false := by
  obtain ⟨x, -, rfl⟩ := List.mem_map.1 hy
  by_cases own : x.id = id
  · rw [if_pos own]
  · rw [if_neg own] at named
    exact absurd named own

/-- One item of a deleted clip let go: of its name none is linked, and where it was queued none is. -/
theorem orphanItem_letsGo (it : Item) (p : Part) : p.LetsGo (p.orphanItem it) ∧ ∀ y, y ∈ (p.orphanItem it).sender.items → y.id = it.id →
    y.linked = false ∧ (it.queued = true → y.queued = false) := by
  have run : p.orphanItem it = if it.queued then (p.unlinked it.id).dropFromQueue it.id else p.unlinked it.id := rfl
  have first := unlinked_letsGo it.id p
  rw [run]
  cases queued : it.queued with
  | false => exact ⟨first, fun y hy named => ⟨linked_unlinked hy named, nofun⟩⟩
  | true =>
    have dropped : (p.unlinked it.id).LetsGo ((p.unlinked it.id).dropFromQueue it.id) := by
      obtain ⟨-, same⟩ | ⟨x, found, named, drop⟩ := dropFromQueue_cases it.id (p.unlinked it.id)
      · rw [same]
        exact .refl _
      · rw [drop]
        exact itemDropped_letsGo (linked_unlinked (List.mem_of_find?_eq_some found) named) _
    refine ⟨first.trans dropped, fun y hy named => ⟨?_, fun _ => ?_⟩⟩
    · obtain ⟨x, hx, id, -, -, linked⟩ := dropped.items y hy
      exact linked (linked_unlinked hx (id.symm.trans named))
    · exact (dropFromQueue_dropsTo it.id _).unqueued y hy (List.mem_singleton.2 named)

/-- The items of a list let go. -/
theorem orphanItems_letGo (l : List Item) (p : Part) : p.LetsGo (l.foldl (fun p i => p.orphanItem i) p) ∧
    ∀ y, y ∈ (l.foldl (fun p i => p.orphanItem i) p).sender.items → ∀ it, it ∈ l → y.id = it.id →
      y.linked = false ∧ (it.queued = true → y.queued = false) := by
  induction l generalizing p with
  | nil => exact ⟨.refl p, fun _ _ _ h => absurd h List.not_mem_nil⟩
  | cons a rest ih =>
    obtain ⟨first, own⟩ := orphanItem_letsGo a p
    obtain ⟨later, others⟩ := ih (p.orphanItem a)
    refine ⟨first.trans later, fun y hy it hit named => ?_⟩
    obtain rfl | hit := List.mem_cons.1 hit
    · obtain ⟨x, hx, id, -, queued, linked⟩ := later.items y hy
      obtain ⟨unlinked, unqueued⟩ := own x hx (id.symm.trans named)
      exact ⟨linked unlinked, fun was => queued (unqueued was)⟩
    · exact others y hy it hit named

/-- A send cancelled: no cursor walks the clip, and its items are linked and queued no longer. -/
theorem cancelSend_says (pos : Fin 128) (clip : Nat) (p : Part) :
    let q := p.cancelSend pos clip
    p.LetsGo q ∧ (∀ x cur, q.sender.cursors.nth x = some cur → ¬ (cur.pos = pos ∧ cur.clip = clip)) ∧
    ∀ y, y ∈ q.sender.items → ∀ it, it ∈ p.sender.items → it.linked = true → it.kind.link = some (pos, clip) → y.id = it.id →
      y.linked = false ∧ (it.queued = true → y.queued = false) := by
  intro q
  let freed : Part := p.setSender { p.sender with cursors := p.sender.cursors.each fun c =>
    match c with
    | some c => if c.pos = pos ∧ c.clip = clip then none else some c
    | none => none }
  have stays (x : Fin 8) (cur : Cursor) (h : freed.sender.cursors.nth x = some cur) :
      p.sender.cursors.nth x = some cur ∧ ¬ (cur.pos = pos ∧ cur.clip = clip) := by
    have each : freed.sender.cursors.nth x = _ := Table.nth_each ..
    rw [each] at h
    split at h
    · next c hc =>
      split at h
      · cases h
      · next other =>
        obtain rfl := Option.some.inj h
        exact ⟨hc, other⟩
    · cases h
  have first : p.LetsGo freed := ⟨rfl, fun y hy => ⟨y, hy, rfl, rfl, id, id⟩, fun x cur h => ⟨cur, (stays x cur h).1, rfl, rfl⟩, fun _ => rfl⟩
  obtain ⟨later, own⟩ := orphanItems_letGo (freed.sender.items.filter fun i => i.ofClip pos clip) freed
  refine ⟨first.trans later, fun x cur h same => ?_, fun y hy it hit linked link named => ?_⟩
  · obtain ⟨old, ho, pos', clip'⟩ := later.cursors x cur h
    exact (stays x old ho).2 ⟨pos'.trans same.1, clip'.trans same.2⟩
  · refine own y hy it (List.mem_filter.2 ⟨hit, ?_⟩) named
    unfold Item.ofClip
    rw [linked, link]
    exact beq_self_eq_true _

/-! The clip that a number finds. -/

theorem closingPoints_nth (p : Part) (c : Clip) (k : Fin 8) : (p.closingPoints c).nth k =
    if c.cameras.getLsbD k.val then p.closingPoint k (c.inPoints.nth k) else 0 := Table.nth_make ..

theorem closingPoint_newest {p : Part} {k : Fin 8} {inPoint : Word} {e newest : PictureRecord} (he : e ∈ (p.rings.nth k).index)
    (after : atOrAfter e.number inPoint = true) (last : (p.rings.nth k).index.getLast? = some newest) : p.closingPoint k inPoint = newest.number := by
  refine (if_pos (List.any_eq_true.2 ⟨e, he, after⟩)).trans ?_
  rw [last]

theorem closingPoint_before {p : Part} {k : Fin 8} {inPoint : Word}
    (none' : ∀ e, e ∈ (p.rings.nth k).index → atOrAfter e.number inPoint = false) : p.closingPoint k inPoint = inPoint - 1 := by
  refine if_neg fun h => ?_
  obtain ⟨e, he, after⟩ := List.any_eq_true.1 h
  exact absurd ((none' e he).symm.trans after) (by decide)

section

variable {s : State} {i : Nat} {tag : Word} {clip : Half} {pos : Fin 128} {c : Clip}

theorem markOut_eq {p : Part} (here : p.clips.table.nth pos = some c) : p.markOut pos c = { p with
    clips := { p.clips with
      table := p.clips.table.put pos (some { c with state := .kept, out := some (p.closingPoints c, p.clock.timecode) })
      mirror := insertPos pos p.clips.mirror }
    cues := p.cues.each fun l => if l.openClip = some c.number then { l with openClip := none } else l } := by
  unfold Part.markOut
  rw [Part.editClip_eq here]
  rfl

/-- UNPIN of a KEPT clip. -/
theorem releaseClip_says {p : Part} (here : p.clips.table.nth pos = some c) : let q := p.releaseClip pos c
    pos ∈ q.clips.mirror ∧ q.clips.table = p.clips.table.put pos (some { c with state := if c.passed = 0 then .loose else .lost }) ∧
    (c.passed ≠ 0 → q.clips.lostClips = count p.clips.lostClips ∧ (Cause.clip, pos.val) ∈ q.cmd.notices) ∧
    (∀ k : Fin 8, (q.rings.nth k).index = if c.cameras.getLsbD k.val then
      (p.rings.nth k).index.map (PictureRecord.repin (c.inPoints.nth k) (c.out.map fun o => o.1.nth k) (· - 1)) else (p.rings.nth k).index) ∧
    q.cmd.completions = p.cmd.completions := by
  intro q
  obtain ⟨rings, unpinned, each⟩ := unpinClip_says c p
  have indexes (k : Fin 8) : (rings.nth k).index = if c.cameras.getLsbD k.val then
      (p.rings.nth k).index.map (PictureRecord.repin (c.inPoints.nth k) (c.out.map fun o => o.1.nth k) (· - 1)) else (p.rings.nth k).index := by
    rw [each]
    split <;> rfl
  have run : q = if c.passed = 0 then ({ p with rings := rings } : Part).editClip pos fun c => { c with state := .loose }
      else ({ p with rings := rings } : Part).loseClip pos := by
    rw [← unpinned]
    rfl
  by_cases clean : c.passed = 0
  · rw [if_pos clean, Part.editClip_eq (p := { p with rings := rings }) here] at run
    rw [run, if_pos clean]
    exact ⟨(mem_insertPos ..).2 (.inl rfl), rfl, fun passed => absurd clean passed, indexes, rfl⟩
  · rw [if_neg clean, loseClip_eq (p := { p with rings := rings }) here] at run
    rw [run, if_neg clean]
    refine ⟨(mem_insertPos ..).2 (.inl rfl), rfl, fun _ => ⟨rfl, (mem_raised ..).2 (.inl rfl)⟩, indexes, ?_⟩
    change (p.cmd.raised _).completions = _
    rw [(notified_raised p.cmd _).rest]

/-- The rings once a deleted clip's pins are gone. -/
def Part.unpinnedFor (c : Clip) (p : Part) : Part := if c.state = .opened ∨ c.state = .kept then p.unpinClip c else p

theorem unpinnedFor_says (c : Clip) (p : Part) : ∃ rings, p.unpinnedFor c = { p with rings := rings } ∧ ∀ k : Fin 8, (rings.nth k).index =
    if c.cameras.getLsbD k.val ∧ (c.state = .opened ∨ c.state = .kept) then
      (p.rings.nth k).index.map (PictureRecord.repin (c.inPoints.nth k) (c.out.map fun o => o.1.nth k) (· - 1)) else (p.rings.nth k).index := by
  unfold Part.unpinnedFor
  by_cases pinned : c.state = .opened ∨ c.state = .kept
  · obtain ⟨rings, run, each⟩ := unpinClip_says c p
    refine ⟨rings, (if_pos pinned).trans run, fun k => ?_⟩
    rw [each]
    simp only [pinned, and_true]
    split <;> rfl
  · exact ⟨p.rings, if_neg pinned, fun k => (if_neg fun h => pinned h.2).symm⟩

/-- The part once no cue line names an OPEN clip that is deleted. -/
def Part.unnamedFor (c : Clip) (p : Part) : Part := if c.state = .opened then p.clearOpenClip c.number else p

theorem unnamedFor_says (c : Clip) (p : Part) : ∃ cues, p.unnamedFor c = { p with cues := cues } ∧
    (c.state = .opened → ∀ j, (cues.nth j).openClip ≠ some c.number) := by
  unfold Part.unnamedFor
  by_cases opened : c.state = .opened
  · exact ⟨(p.clearOpenClip c.number).cues, if_pos opened, fun _ j => clearOpenClip_cleared _ p j⟩
  · exact ⟨p.cues, if_neg opened, fun h => absurd h opened⟩

theorem deleteClip_eq (p : Part) : p.deleteClip pos c =
    let q := (p.unpinnedFor c).unnamedFor c
    let r := if c.send = .sending then q.cancelSend pos c.number else q
    { r with clips := { r.clips with table := r.clips.table.put pos none, mirror := insertPos pos r.clips.mirror } } := rfl

end

/-- Settles O38: each command by the equation of what it does to its clip, the folds over the positions by `Part.Visits`. -/
theorem clipsAreKeptUnpinnedPinnedAndDeleted : Obligations.ClipsAreKeptUnpinnedPinnedAndDeleted := by
  refine ⟨?_, ?_, ?_, ?_, ?_, ?_⟩
  · intro s i tag clip h
    have run := exec_of_taken h rfl
    refine ⟨fun absent => ?_, fun pos c found => ⟨fun closed => ?_, fun opened => ?_⟩⟩
    · rw [handEmpty_clipAt, absent] at run
      exact run
    · rw [handEmpty_clipAt, found] at run
      exact run.trans (next_becomes (if_neg closed))
    · rw [handEmpty_clipAt, found] at run
      refine run.trans (next_becomes ((if_pos opened).trans ?_))
      rw [markOut_eq (Part.clipAt_table (p := s.part.handEmpty) found)]
      rfl
  · intro p c k index point
    refine ⟨fun off => ?_, fun on => ⟨fun e newest he after last => ?_, fun none' => ?_⟩⟩
    · exact (closingPoints_nth p c k).trans (if_neg (Bool.eq_false_iff.1 off))
    · exact (closingPoints_nth p c k).trans ((if_pos on).trans (closingPoint_newest he after last))
    · exact (closingPoints_nth p c k).trans ((if_pos on).trans (closingPoint_before none'))
  · intro s
    refine ⟨fun i tag clip h => ?_, fun i tag clip h => ?_⟩
    · have run := exec_of_taken h rfl
      refine ⟨fun absent => ?_, fun pos c found => ⟨fun other => ?_, fun kept => ?_⟩⟩
      · rw [handEmpty_clipAt, absent] at run
        exact run
      · rw [handEmpty_clipAt, found] at run
        exact run.trans (next_becomes (if_neg other))
      · rw [handEmpty_clipAt, found] at run
        obtain ⟨mirror, table, lost, rings, completions⟩ := releaseClip_says (Part.clipAt_table (p := s.part.handEmpty) found)
        refine ⟨_, run.trans (next_becomes (if_pos kept)), mirror, table, lost, rings, ?_⟩
        refine (congrArg (· ++ _) completions).trans ?_
        split <;> rfl
    · have run := exec_of_taken h rfl
      refine ⟨fun absent => ?_, fun pos c found => ⟨fun lost => ?_, fun other => ?_, fun loose => ?_⟩⟩
      · rw [handEmpty_clipAt, absent] at run
        exact run
      · rw [handEmpty_clipAt, found] at run
        exact run.trans (next_becomes (if_pos lost))
      · rw [handEmpty_clipAt, found] at run
        have notLost : c.state ≠ .lost := fun h => other.elim (fun o => absurd (o.symm.trans h) nofun) fun o => absurd (o.symm.trans h) nofun
        have notLoose : c.state ≠ .loose := fun h => other.elim (fun o => absurd (o.symm.trans h) nofun) fun o => absurd (o.symm.trans h) nofun
        exact run.trans (next_becomes ((if_neg notLost).trans (if_pos notLoose)))
      · rw [handEmpty_clipAt, found] at run
        obtain ⟨rings, pinned, each⟩ := pinClip_says c (c.out.map (·.1)) s.part.handEmpty
        have notLost : c.state ≠ .lost := fun h => absurd (h.symm.trans loose) nofun
        have ran := run.trans (next_becomes ((if_neg notLost).trans (if_neg (not_not_intro loose))))
        rw [pinned, Part.editClip_eq (p := { s.part.handEmpty with rings := rings }) (Part.clipAt_table (p := s.part.handEmpty) found)] at ran
        refine ⟨_, ran, (mem_insertPos ..).2 (.inl rfl), rfl, fun k => ?_, rfl⟩
        change (rings.nth k).index = _
        rw [each, Option.map_map]
        split <;> rfl
  · intro s i tag clip h
    have run := exec_of_taken h rfl
    refine ⟨fun absent => ?_, fun pos c found => ?_⟩
    · rw [handEmpty_clipAt, absent] at run
      exact run
    · rw [handEmpty_clipAt, found] at run
      obtain ⟨rings, unpinned, indexes⟩ := unpinnedFor_says c s.part.handEmpty
      obtain ⟨cues, unnamed, freed⟩ := unnamedFor_says c { s.part.handEmpty with rings := rings }
      have deleted := deleteClip_eq (pos := pos) (c := c) s.part.handEmpty
      rw [unpinned, unnamed] at deleted
      by_cases sending : c.send = .sending
      · obtain ⟨letsGo, walks, orphans⟩ := cancelSend_says pos c.number { s.part.handEmpty with rings := rings, cues := cues }
        dsimp only at deleted
        rw [if_pos sending] at deleted
        dsimp only at run
        rw [deleted] at run
        generalize Part.cancelSend pos c.number { s.part.handEmpty with rings := rings, cues := cues } = q at run letsGo walks orphans
        have clips : q.clips = s.part.clips := by rw [letsGo.rest]; rfl
        have completions : q.cmd.completions = s.part.cmd.completions := by rw [letsGo.rest]; rfl
        have cues' : q.cues = cues := by rw [letsGo.rest]
        refine ⟨_, run, ?_, (mem_insertPos ..).2 (.inl rfl), congrArg (· ++ _) completions, fun opened l => ?_, fun _ => ⟨walks, ?_, ?_, ?_, ?_⟩,
          fun h => absurd sending h⟩
        · exact congrArg (fun x : Clips => x.table.put pos none) clips
        · exact fun e => freed opened l ((congrArg (fun x : Table CueLine 8 => (x.nth l).openClip) cues').symm.trans e)
        · intro it hit linked link
          obtain ⟨x, hx, id, kind, -, unlinked⟩ := letsGo.items it hit
          cases was : x.linked with
          | false => exact absurd ((unlinked was).symm.trans linked) (by decide)
          | true =>
            have now := (orphans it hit x hx was (by rw [← kind]; exact link) id).1
            exact absurd (now.symm.trans linked) (by decide)
        · exact fun it hit linked link queued x hx named => (orphans x hx it hit linked link named).2 queued
        · intro x hx queued
          obtain ⟨it, hit, id, kind, unqueued, -⟩ := letsGo.items x hx
          cases was : it.queued with
          | false => exact absurd ((unqueued was).symm.trans queued) (by decide)
          | true =>
            refine ⟨it, hit, id.symm, kind.symm, was, fun own => ?_⟩
            exact absurd (((orphans x hx it hit own.1 own.2 id).2 was).symm.trans queued) (by decide)
        · intro k
          refine (letsGo.pins k).trans ?_
          exact congrArg (List.map _) (indexes k)
      · dsimp only at deleted
        rw [if_neg sending] at deleted
        dsimp only at run
        rw [deleted] at run
        exact ⟨_, run, rfl, (mem_insertPos ..).2 (.inl rfl), rfl, fun opened l => freed opened l, fun h => absurd h sending,
          fun _ => ⟨rfl, indexes⟩⟩
  · intro p k n
    obtain ⟨clipsTo, tables, -, mirror, notices, -, frees⟩ := forceCloses_visits k n p
    generalize p.forceCloses k n = closed at *
    intro q beyond
    have beyondIff (c : Clip) : c.beyond k n = true ↔ beyond c := decide_eq_true_iff
    refine ⟨clipsTo.rings, clipsTo.sender, fun pos => ?_⟩
    have table := (tables pos).trans (if_pos (List.mem_finRange pos))
    refine ⟨fun free => ?_, fun c here => ⟨fun within => ?_, fun past => ⟨?_, ?_, ?_, ?_⟩⟩⟩
    · rw [table, free]
      rfl
    · rw [table, here]
      exact congrArg some (if_neg (mt (beyondIff c).1 within))
    · rw [table, here]
      exact congrArg some (if_pos ((beyondIff c).2 past))
    · exact mirror pos c (List.mem_finRange pos) here ((beyondIff c).2 past)
    · exact notices pos c (List.mem_finRange pos) here ((beyondIff c).2 past)
    · exact frees pos c (List.mem_finRange pos) here ((beyondIff c).2 past)
  · intro p k n
    obtain ⟨clipsTo, tables, -, mirror, notices, -, -⟩ := reportRetirement_visits k n p
    generalize p.reportRetirement k n = told at *
    intro q passes
    have passesIff (c : Clip) : c.passes k n = true ↔ passes c := Bool.and_eq_true_iff
    refine ⟨clipsTo.rings, clipsTo.sender, fun pos => ?_⟩
    have table := (tables pos).trans (if_pos (List.mem_finRange pos))
    refine ⟨fun free => ?_, fun c here => ⟨fun before => ?_, fun after => ⟨?_, fun clear => ?_, fun loose => ⟨?_, ?_⟩⟩⟩⟩
    · rw [table, free]
      rfl
    · rw [table, here]
      exact congrArg some (if_neg (mt (passesIff c).1 before))
    · rw [table, here]
      exact congrArg some (if_pos ((passesIff c).2 after))
    · exact mirror pos c (List.mem_finRange pos) here ⟨(passesIff c).2 after, .inl clear⟩
    · exact mirror pos c (List.mem_finRange pos) here ⟨(passesIff c).2 after, .inr loose⟩
    · exact notices pos c (List.mem_finRange pos) here ⟨(passesIff c).2 after, loose⟩

end Sys2Proof.Machine
end

section
/-! The start of a clip send (O40), and what the cursors' steps keep. -/

namespace Sys2Proof.Machine

/-! The snapshot of a clip (12.4). -/

/-- The snapshot: the entry image's head with its send code and passed set zero, no account, and its points. -/
theorem labelSnapshot_eq (c : Clip) : labelSnapshot c = [c.state.code, 0] ++ u16 c.number ++ [c.cameras, 0] ++ c.entryHead ++ zeros 8 ++
    pointBytes c.cameras c.inPoints ++ c.entryOuts ++ zeros 16 := by
  let account := u16 c.outstanding ++ u16 c.failed ++ u16 c.skipped ++ u8 c.cursors ++ [0]
  let front := [c.state.code, c.send.code] ++ u16 c.number ++ [c.cameras, c.passed] ++ c.entryHead
  let points := pointBytes c.cameras c.inPoints ++ c.entryOuts
  have image : entryImage (some c) = front ++ (account ++ (points ++ zeros 144)) := by
    rw [entryImage_some]
    simp only [front, account, points, List.append_assoc]
  have frontLength : front.length = 40 := by simp [front, length_entryHead, u16]
  have accountLength : account.length = 8 := by simp [account, u8, u16]
  have pointsLength : points.length = 64 := by simp [points]
  have opening : ((((entryImage (some c)).take 128).set 1 0).set 5 0).take 40 = [c.state.code, 0] ++ u16 c.number ++ [c.cameras, 0] ++ c.entryHead := by
    rw [List.take_set, List.take_set, List.take_take, image]
    rw [show min 40 128 = 40 from rfl, List.take_left' frontLength]
    rfl
  have closing : ((entryImage (some c)).drop 48).take 80 = points ++ zeros 16 := by
    rw [image, ← List.append_assoc, List.drop_left' (by rw [List.length_append, frontLength, accountLength]), List.take_append, pointsLength,
      List.take_of_length_le (by rw [pointsLength]; decide)]
    rfl
  unfold labelSnapshot
  rw [opening, closing]
  simp only [points, List.append_assoc]

/-! What the steps of the cursors keep. -/

/-- A send account has been started. -/
def Clip.underway (c : Clip) : Prop := c.send = .sending ∨ c.send = .sent ∨ c.send = .partly

/-- A step of the cursors changes the send account alone; an item outstanding keeps the send going. -/
structure Clip.StepsTo (c d : Clip) : Prop where
  rest : d = { c with outstanding := d.outstanding, failed := d.failed, skipped := d.skipped, cursors := d.cursors, send := d.send }
  underway : c.underway → d.underway
  busy : c.send = .sending → 1 ≤ c.outstanding → d.send = .sending ∧ 1 ≤ d.outstanding ∧ d.failed = c.failed

theorem Clip.StepsTo.refl (c : Clip) : c.StepsTo c := ⟨rfl, id, fun h h' => ⟨h, h', rfl⟩⟩

theorem Clip.StepsTo.trans {c d e : Clip} (h : c.StepsTo d) (h' : d.StepsTo e) : c.StepsTo e where
  rest := by rw [h'.rest, h.rest]
  underway := h'.underway ∘ h.underway
  busy sending some' := by
    obtain ⟨sending', some'', failed⟩ := h.busy sending some'
    obtain ⟨s, o, f⟩ := h'.busy sending' some''
    exact ⟨s, o, f.trans failed⟩

/-- What steps of the cursors make of the part. -/
structure Part.StepsTo (p q : Part) : Prop where
  rest : q = { p with rings := q.rings, clips := q.clips, sender := q.sender, cmd := q.cmd }
  cmd : p.cmd.Notified q.cmd
  clips : ∀ pos c, p.clips.table.nth pos = some c → ∃ d, q.clips.table.nth pos = some d ∧ c.StepsTo d
  mirror : ∀ pos, pos ∈ p.clips.mirror → pos ∈ q.clips.mirror
  items : p.sender.items <+: q.sender.items

theorem Part.StepsTo.refl (p : Part) : p.StepsTo p := ⟨rfl, .refl _, fun _ c h => ⟨c, h, .refl c⟩, fun _ h => h, List.prefix_refl _⟩

theorem Part.StepsTo.trans {p q r : Part} (h : p.StepsTo q) (h' : q.StepsTo r) : p.StepsTo r where
  rest := by rw [h'.rest, h.rest]
  cmd := h.cmd.trans h'.cmd
  clips pos c hc := by
    obtain ⟨d, hd, cd⟩ := h.clips pos c hc
    obtain ⟨e, he, de⟩ := h'.clips pos d hd
    exact ⟨e, he, cd.trans de⟩
  mirror pos hp := h'.mirror pos (h.mirror pos hp)
  items := h.items.trans h'.items

theorem Part.StepsTo.foldl {α : Type} {f : Part → α → Part} (h : ∀ (p : Part) (a : α), p.StepsTo (f p a)) (l : List α) (p : Part) :
    p.StepsTo (l.foldl f p) := by
  induction l generalizing p with
  | nil => exact .refl p
  | cons a rest ih => exact (h p a).trans (ih (f p a))

section

variable {p : Part} {pos : Fin 128} {c : Clip}

/-- A step that edits one clip's account. -/
theorem Part.StepsTo.edited (here : p.clips.table.nth pos = some c) {f : Clip → Clip} (steps : c.StepsTo (f c)) : p.StepsTo (p.editClip pos f) := by
  rw [Part.editClip_eq here]
  refine ⟨rfl, .refl _, fun x d hd => ?_, fun x hx => (mem_insertPos ..).2 (.inr hx), List.prefix_refl _⟩
  change ∃ e, (p.clips.table.put pos _).nth x = some e ∧ _
  by_cases same : x = pos
  · subst same
    obtain rfl : c = d := Option.some.inj (here.symm.trans hd)
    exact ⟨_, Table.nth_put_same .., steps⟩
  · exact ⟨d, (Table.nth_put_other _ _ (Ne.symm same)).trans hd, .refl d⟩

/-- A clip event, with a counter of the clips moved. -/
theorem Part.StepsTo.event (pos : Fin 128) (p : Part) (n : Nat) :
    p.StepsTo ((p.setClips { p.clips with partialSends := n }).clipEvent pos) := by
  rw [Part.clipEvent, raise_eq]
  exact ⟨rfl, notified_raised .., fun _ c h => ⟨c, h, .refl c⟩, fun _ h => h, List.prefix_refl _⟩

/-- A send that ends had no item outstanding. -/
theorem Clip.StepsTo.ended (none' : c.outstanding = 0) {x : SendState} (over' : x = .sent ∨ x = .partly) : c.StepsTo { c with send := x } :=
  ⟨rfl, fun _ => .inr over', fun _ some' => absurd some' (by omega)⟩

theorem testSendEnd_stepsTo (pos : Fin 128) (p : Part) : p.StepsTo (p.testSendEnd pos) := by
  cases here : p.clips.table.nth pos with
  | none =>
    have run : p.testSendEnd pos = p := by
      unfold Part.testSendEnd
      rw [here]
    rw [run]
    exact .refl p
  | some c =>
    unfold Part.testSendEnd
    rw [here]
    dsimp only
    split
    · next over' =>
      split
      · exact .edited here (.ended over'.2.2 (.inl rfl))
      · exact Part.StepsTo.trans (.edited here (.ended over'.2.2 (.inr rfl))) (.event ..)
    · exact .refl p

/-- The reports a cursor makes: no item has ended. -/
def SendReport.ofCursor (r : SendReport) : Prop := r ≠ .finished ∧ r ≠ .failed

theorem ofCursor_made : SendReport.ofCursor .made := ⟨nofun, nofun⟩
theorem ofCursor_skipped (k : Nat) : SendReport.ofCursor (.skipped k) := ⟨nofun, nofun⟩
theorem ofCursor_done : SendReport.ofCursor .cursorDone := ⟨nofun, nofun⟩

theorem apply_stepsTo {r : SendReport} (h : r.ofCursor) (c : Clip) : c.StepsTo (r.apply c) := by
  cases r with
  | made =>
    refine ⟨rfl, id, fun sending _ => ⟨sending, ?_, rfl⟩⟩
    change 1 ≤ count c.outstanding
    unfold count Config.counterMax
    split <;> omega
  | finished => exact absurd rfl h.1
  | failed => exact absurd rfl h.2
  | cursorDone => exact ⟨rfl, id, fun h h' => ⟨h, h', rfl⟩⟩
  | skipped k => exact ⟨rfl, id, fun h h' => ⟨h, h', rfl⟩⟩

theorem reportSend_stepsTo {r : SendReport} (h : r.ofCursor) (pos : Fin 128) (n : Nat) (p : Part) : p.StepsTo (p.reportSend pos n r) := by
  cases here : p.clips.table.nth pos with
  | none =>
    have run : p.reportSend pos n r = p := by
      unfold Part.reportSend
      rw [here]
    rw [run]
    exact .refl p
  | some c =>
    unfold Part.reportSend
    rw [here]
    dsimp only
    split
    · exact Part.StepsTo.trans (.edited here (apply_stepsTo h c)) (testSendEnd_stepsTo ..)
    · exact .refl p

theorem dropFull_eq (cls : SendClass) (p : Part) : p.dropFull cls = Part.raise .send cls.index.val { p with sender := { p.sender with
    classes := p.sender.classes.upd cls.index fun r => { r with droppedFull := count r.droppedFull, losses := count r.losses } } } :=
  onClass_lossOf ..

theorem dropFull_stepsTo (cls : SendClass) (p : Part) : p.StepsTo (p.dropFull cls) := by
  rw [dropFull_eq, raise_eq]
  exact ⟨rfl, notified_raised .., fun _ c h => ⟨c, h, .refl c⟩, fun _ h => h, List.prefix_refl _⟩

theorem queueItem_stepsTo (kind : ItemKind) (pl : Payload) (rings : Table Ring 8) (p : Part) :
    p.StepsTo (Part.queueItem kind pl { p with rings := rings }) :=
  ⟨rfl, .refl _, fun _ c h => ⟨c, h, .refl c⟩, fun _ h => h, List.prefix_append ..⟩

theorem makeItem_clipPicture (pos : Fin 128) (clip : Nat) (x k : Fin 8) (n : Word) (p : Part) :
    p.makeItem (.clipPicture pos clip x k n) = if (p.sender.queueOf .clip).length < 16 then
      match p.referenceOf k n with
      | .taken _ start length => (p.takeReference k n).queueItem (.clipPicture pos clip x k n) ((p.rings.nth k).payload start length)
      | _ => p
    else p.dropFull .clip := rfl

theorem makeItem_clipPicture_stepsTo (pos : Fin 128) (clip : Nat) (x k : Fin 8) (n : Word) (p : Part) :
    p.StepsTo (p.makeItem (.clipPicture pos clip x k n)) := by
  rw [makeItem_clipPicture]
  split
  · split
    · exact queueItem_stepsTo ..
    · exact .refl p
  · exact dropFull_stepsTo ..

theorem putCursor_stepsTo (i : Fin 8) (c : Option Cursor) (p : Part) : p.StepsTo (p.putCursor i c) :=
  ⟨rfl, .refl _, fun _ c h => ⟨c, h, .refl c⟩, fun _ h => h, List.prefix_refl _⟩

theorem cursorPasses_stepsTo (i : Fin 8) (fuel : Nat) (p : Part) : p.StepsTo (p.cursorPasses i fuel) := by
  induction fuel generalizing p with
  | zero => exact .refl p
  | succ fuel ih =>
    unfold Part.cursorPasses
    split
    · exact .refl p
    · split
      · exact (reportSend_stepsTo ofCursor_done ..).trans (putCursor_stepsTo ..)
      · exact ((reportSend_stepsTo (ofCursor_skipped _) ..).trans (putCursor_stepsTo ..)).trans (ih _)
      · exact (putCursor_stepsTo ..).trans (ih _)
      · exact .refl p
      · exact .refl p

theorem cursorMakes_stepsTo (i : Fin 8) (p : Part) : p.StepsTo (p.cursorMakes i) := by
  unfold Part.cursorMakes
  split
  · exact .refl p
  · split
    · exact ((makeItem_clipPicture_stepsTo ..).trans (reportSend_stepsTo ofCursor_made ..)).trans (putCursor_stepsTo ..)
    · exact .refl p

theorem cursorTurn_stepsTo (p : Part) (i : Fin 8) : p.StepsTo (p.cursorTurn i) := by
  unfold Part.cursorTurn
  split
  · exact .refl p
  · exact (cursorPasses_stepsTo ..).trans (cursorMakes_stepsTo ..)

theorem cursorRounds_stepsTo (n : Nat) (p : Part) : p.StepsTo (p.cursorRounds n) := by
  induction n generalizing p with
  | zero => exact .refl p
  | succ n ih => exact (Part.StepsTo.foldl cursorTurn_stepsTo _ p).trans (ih _)

theorem stepCursors_stepsTo (p : Part) : p.StepsTo p.stepCursors := cursorRounds_stepsTo 6 p

end

/-! The making of an item (R133). -/

/-- An item joins its queue as the part's own words have it, its reference apart. -/
theorem queueItem_eq (kind : ItemKind) (pl : Payload) (p : Part) : p.queueItem kind pl = { p with
    sender := (p.itemMade kind pl.address pl.ringBase pl.ringSize pl.length).sender } := by
  unfold Part.queueItem Part.itemMade
  have stale : (p.sender.classes.nth kind.cls.index).hold * Config.ms = 3000000 * (p.sender.classes.nth kind.cls.index).hold := Nat.mul_comm ..
  dsimp only
  rw [stale]
  rfl

theorem makeItem_label (pos : Fin 128) (clip : Nat) (snapshot : List Byte) (p : Part) :
    p.makeItem (.label pos clip snapshot) = if (p.sender.queueOf .label).length < 16 then
      { p with sender := (p.itemMade (.label pos clip snapshot) 0 0 0 snapshot.length).sender } else p.dropFull .label := by
  rw [← queueItem_eq (.label pos clip snapshot) ⟨0, 0, 0, snapshot.length⟩]
  rfl

section

variable {p : Part} {pos : Fin 128} {c : Clip}

/-- A report to a send that goes on. -/
theorem reportSend_going (here : p.clips.table.nth pos = some c) (sending : c.send = .sending) (r : SendReport)
    (going : ¬ ((r.apply c).cursors = 0 ∧ (r.apply c).outstanding = 0)) : p.reportSend pos c.number r = { p with clips := { p.clips with
      table := p.clips.table.put pos (some (r.apply c)), mirror := insertPos pos p.clips.mirror } } := by
  have applied : (r.apply c).send = .sending := by cases r <;> exact sending
  unfold Part.reportSend
  rw [here]
  dsimp only
  rw [if_pos ⟨rfl, sending⟩, Part.editClip_eq here, Part.testSendEnd_eq (Table.nth_put_same ..) applied, if_neg going]
  rfl

/-- Whatever a report ends, the clip is there with its account changed. -/
theorem reportSend_account (here : p.clips.table.nth pos = some c) (sending : c.send = .sending) (r : SendReport) {n : Nat}
    (named : c.number = n) : let q := p.reportSend pos n r
    q = { p with rings := q.rings, clips := q.clips, sender := q.sender, cmd := q.cmd } ∧ p.cmd.Notified q.cmd ∧ pos ∈ q.clips.mirror ∧
    ∃ d, q.clips.table.nth pos = some d ∧ d.number = c.number ∧ d.state = c.state ∧ d.underway := by
  intro q
  subst named
  have run : q = (p.editClip pos r.apply).testSendEnd pos := by
    have : q = if c.number = c.number ∧ c.send = .sending then (p.editClip pos r.apply).testSendEnd pos else p := by
      change p.reportSend _ _ _ = _
      unfold Part.reportSend
      rw [here]
    rw [this, if_pos ⟨rfl, sending⟩]
  have steps := testSendEnd_stepsTo pos (p.editClip pos r.apply)
  rw [← run] at steps
  obtain ⟨d, hd, cd⟩ := steps.clips pos (r.apply c) (by rw [Part.editClip_eq here]; exact Table.nth_put_same ..)
  have number : (r.apply c).number = c.number ∧ (r.apply c).state = c.state ∧ (r.apply c).send = .sending := by
    cases r <;> exact ⟨rfl, rfl, sending⟩
  refine ⟨steps.rest, steps.cmd, steps.mirror pos ((mem_insertPos ..).2 (.inl rfl)), d, hd, ?_, ?_, cd.underway (.inl number.2.2)⟩
  · rw [cd.rest]
    exact number.1
  · rw [cd.rest]
    exact number.2.1

end

/-! The cursors SEND CLIP takes (R136). -/

theorem foldl_zip_putCursor (f : Fin 8 → Option Cursor) (l free : List (Fin 8)) (distinct : free.Nodup) (p : Part) :
    ∃ cursors, (l.zip free).foldl (fun p x => p.putCursor x.2 (f x.1)) p = { p with sender := { p.sender with cursors := cursors } } ∧
      (∀ (n : Nat) (cam x : Fin 8), l[n]? = some cam → free[n]? = some x → cursors.nth x = f cam) ∧
      ∀ x : Fin 8, (∀ n, n < l.length → free[n]? ≠ some x) → cursors.nth x = p.sender.cursors.nth x := by
  induction l generalizing free p with
  | nil => exact ⟨p.sender.cursors, rfl, nofun, fun _ _ => rfl⟩
  | cons k l ih =>
    cases free with
    | nil => exact ⟨p.sender.cursors, rfl, nofun, fun _ _ => rfl⟩
    | cons y free =>
      obtain ⟨fresh, distinct⟩ := List.nodup_cons.1 distinct
      obtain ⟨cursors, run, taken, left⟩ := ih free distinct (p.putCursor y (f k))
      refine ⟨cursors, run, fun n cam x hn hx => ?_, fun x hx => ?_⟩
      · cases n with
        | zero =>
          obtain rfl := Option.some.inj hn
          obtain rfl := Option.some.inj hx
          refine (left y fun n _ at' => fresh (List.mem_of_getElem? at')).trans ?_
          exact Table.nth_put_same ..
        | succ n => exact taken n cam x hn hx
      · refine (left x fun n hn => hx (n + 1) (Nat.succ_lt_succ hn)).trans ?_
        exact Table.nth_put_other _ _ fun same => hx 0 (Nat.succ_pos _) (congrArg some same)

/-! SEND CLIP (R126, R136). -/

/-- The record of a clip whose send account starts. -/
def Clip.account (c : Clip) (outstanding failed : Nat) : Clip := { c with
  outstanding := outstanding, failed := failed, skipped := 0, cursors := (camerasOf c.cameras).length, send := .sending }

/-- The part once a clip's record stands with its account, and its position is to be mirrored. -/
def Part.accounted (pos : Fin 128) (d : Clip) (p : Part) : Part := { p with clips := { p.clips with
  table := p.clips.table.put pos (some d), mirror := insertPos pos p.clips.mirror } }

theorem accounted_twice (pos : Fin 128) (d e : Clip) (p : Part) (sender : Sender) (cmd : Commander) :
    Part.accounted pos e { (p.accounted pos d) with sender := sender, cmd := cmd } = Part.accounted pos e { p with sender := sender, cmd := cmd } := by
  unfold Part.accounted
  dsimp only
  rw [Table.put_put, insertPos_twice]

theorem accounted_nth (pos : Fin 128) (d : Clip) (p : Part) : (p.accounted pos d).clips.table.nth pos = some d := Table.nth_put_same ..

section

variable {p : Part} {pos : Fin 128} {c : Clip}

theorem makeLabel_eq (p : Part) (pos : Fin 128) (clip : Nat) (snapshot : List Byte) : p.makeLabel pos clip snapshot =
    let made := (p.makeItem (.label pos clip snapshot)).reportSend pos clip .made
    if 16 ≤ (p.sender.queueOf .label).length then made.reportSend pos clip .failed else made :=
  ite_congr_iff decide_eq_true_iff rfl rfl

/-- A report to the account that has just started, and goes on. -/
theorem accounted_report (d : Clip) (sending : d.send = .sending) (r : SendReport)
    (going : ¬ ((r.apply d).cursors = 0 ∧ (r.apply d).outstanding = 0)) (sender : Sender) (cmd : Commander) :
    Part.reportSend pos d.number r { (p.accounted pos d) with sender := sender, cmd := cmd } =
      Part.accounted pos (r.apply d) { p with sender := sender, cmd := cmd } := by
  have here : ({ (p.accounted pos d) with sender := sender, cmd := cmd } : Part).clips.table.nth pos = some d := Table.nth_put_same ..
  rw [reportSend_going here sending r going]
  exact accounted_twice ..

theorem made_account (c : Clip) : SendReport.made.apply (c.account 0 0) = c.account 1 0 := by
  have one : count 0 = 1 := rfl
  change ({ (c.account 0 0) with outstanding := count 0 } : Clip) = _
  rw [one]
  rfl

theorem made_going (c : Clip) : ¬ ((SendReport.made.apply (c.account 0 0)).cursors = 0 ∧ (SendReport.made.apply (c.account 0 0)).outstanding = 0) := by
  rw [made_account]
  exact fun h => absurd h.2 Nat.one_ne_zero

/-- The LABEL item made: the account stands at 1 outstanding. -/
theorem makeLabel_queued (room : (p.sender.queueOf .label).length < 16) :
    (p.accounted pos (c.account 0 0)).makeLabel pos c.number (labelSnapshot c) = Part.accounted pos (c.account 1 0) { p with
      sender := (p.itemMade (.label pos c.number (labelSnapshot c)) 0 0 0 (labelSnapshot c).length).sender } := by
  rw [makeLabel_eq, makeItem_label]
  dsimp only
  have room : ((p.accounted pos (c.account 0 0)).sender.queueOf .label).length < 16 := room
  rw [if_neg (Nat.not_le.2 room), if_pos room, ← made_account]
  exact accounted_report (c.account 0 0) rfl .made (made_going c) _ p.cmd

/-- The part once a LABEL item is dropped at its full queue. -/
def Part.labelDropped (p : Part) : Part := Part.raise .send 2 { p with sender := { p.sender with
  classes := p.sender.classes.upd 2 fun r => { r with droppedFull := count r.droppedFull, losses := count r.losses } } }

theorem labelDropped_accounted (d : Clip) : (p.accounted pos d).dropFull .label = { (p.accounted pos d) with
    sender := p.labelDropped.sender, cmd := p.labelDropped.cmd } := by
  rw [dropFull_eq, Part.labelDropped, raise_eq, raise_eq]
  rfl

theorem labelDropped_eq (p : Part) : p.labelDropped = { p with sender := p.labelDropped.sender, cmd := p.labelDropped.cmd } := by
  rw [Part.labelDropped, raise_eq]
  rfl

/-- The LABEL item dropped: it is reported made and failed. -/
theorem makeLabel_full (full : 16 ≤ (p.sender.queueOf .label).length) :
    (p.accounted pos (c.account 0 0)).makeLabel pos c.number (labelSnapshot c) =
      (p.labelDropped.accounted pos (c.account 1 0)).reportSend pos c.number .failed := by
  rw [makeLabel_eq, makeItem_label]
  dsimp only
  have full : 16 ≤ ((p.accounted pos (c.account 0 0)).sender.queueOf .label).length := full
  rw [if_pos full, if_neg (Nat.not_lt.2 full), labelDropped_accounted, labelDropped_eq, ← made_account]
  exact congrArg (Part.reportSend pos c.number .failed) (accounted_report (c.account 0 0) rfl .made (made_going c) _ _)

theorem reportSend_failedLabel (cameras : c.cameras ≠ 0) :
    (p.accounted pos (c.account 1 0)).reportSend pos c.number .failed = p.accounted pos (c.account 0 1) := by
  have walks : (camerasOf c.cameras).length ≠ 0 := fun h => by
    have none' : ∀ k : Fin 8, ¬ c.cameras.getLsbD k.val = true := fun k hk => by
      have := mem_camerasOf.2 hk
      rw [List.length_eq_zero_iff.1 h] at this
      cases this
    refine cameras (BitVec.eq_of_getLsbD_eq fun i hi => ?_)
    rw [Bool.eq_false_iff.2 (none' ⟨i, hi⟩)]
    simp
  exact accounted_report (c.account 1 0) rfl .failed (fun h => walks h.1) p.sender p.cmd

/-- The end of SEND CLIP, from the part whose LABEL item has been handed over. -/
theorem sendClip_eq (here : p.clips.table.nth pos = some c) (outs : Table Word 8) : p.sendClip pos c outs =
    ((((p.accounted pos (c.account 0 0)).makeLabel pos c.number (labelSnapshot c)).takeCursors pos c outs).stepCursors).testSendEnd pos := by
  unfold Part.sendClip
  rw [Part.editClip_eq here]
  rfl

end

/-- What the cursors' steps and the test of the send's end make of the started send. -/
theorem steppedSend_stepsTo (pos : Fin 128) (p : Part) : p.StepsTo (p.stepCursors.testSendEnd pos) :=
  (stepCursors_stepsTo p).trans (testSendEnd_stepsTo ..)

theorem Part.StepsTo.inHand {p q : Part} (h : p.StepsTo q) : q.cmd.inHand = p.cmd.inHand := by rw [h.cmd.rest]
theorem Part.StepsTo.completions {p q : Part} (h : p.StepsTo q) : q.cmd.completions = p.cmd.completions := by rw [h.cmd.rest]
theorem Part.StepsTo.path {p q : Part} (h : p.StepsTo q) : q.path = p.path := by rw [h.rest]
theorem Part.StepsTo.lanes {p q : Part} (h : p.StepsTo q) : q.lanes = p.lanes := by rw [h.rest]

/-- A command whose hand is already empty is finished as it is answered. -/
theorem finish_answered {p : Part} (h : p.cmd.inHand = none) (i : Nat) (tag : Word) (data : List Byte) :
    p.finish i tag data = p.answered i tag data := by
  have same : p.cmd = { p.cmd with inHand := none } := by rw [← h]
  unfold Part.answered Commander.ended
  rw [finish_eq]
  conv => lhs; rw [same]
  rfl

/-- The clip of a started send, once the cursors have stepped and the send is tested. -/
theorem steppedSend_says {p : Part} {pos : Fin 128} {c : Clip} (here : p.clips.table.nth pos = some c) (pending : pos ∈ p.clips.mirror) :
    let q := p.stepCursors.testSendEnd pos
    pos ∈ q.clips.mirror ∧ ∃ d, q.clips.table.nth pos = some d ∧ d.number = c.number ∧ d.state = c.state ∧ (c.underway → d.underway) ∧
      (c.send = .sending → 1 ≤ c.outstanding → d.send = .sending ∧ 1 ≤ d.outstanding ∧ d.failed = c.failed) := by
  intro q
  have steps : p.StepsTo q := steppedSend_stepsTo pos p
  obtain ⟨d, there, own⟩ := steps.clips pos c here
  exact ⟨steps.mirror pos pending, d, there, by rw [own.rest], by rw [own.rest], own.underway, own.busy⟩

theorem takeCursors_says (pos : Fin 128) (c : Clip) (outs : Table Word 8) (p : Part) : ∃ cursors,
    p.takeCursors pos c outs = { p with sender := { p.sender with cursors := cursors } } ∧
    (∀ (n : Nat) (cam x : Fin 8), (camerasOf c.cameras)[n]? = some cam → p.sender.freeCursors[n]? = some x →
      cursors.nth x = some ⟨pos, c.number, cam, c.inPoints.nth cam, outs.nth cam, 0⟩) ∧
    ∀ x : Fin 8, (∀ n, n < (camerasOf c.cameras).length → p.sender.freeCursors[n]? ≠ some x) → cursors.nth x = p.sender.cursors.nth x :=
  foldl_zip_putCursor (fun k => some ⟨pos, c.number, k, c.inPoints.nth k, outs.nth k, 0⟩) (camerasOf c.cameras) p.sender.freeCursors
    ((List.nodup_finRange 8).filter _) p

theorem labelDropped_says (p : Part) : p.labelDropped.sender.cursors = p.sender.cursors ∧ p.labelDropped.cmd.inHand = p.cmd.inHand ∧
    p.labelDropped.cmd.completions = p.cmd.completions ∧ p.labelDropped.path = p.path ∧ p.labelDropped.lanes = p.lanes := by
  rw [Part.labelDropped, raise_eq]
  refine ⟨rfl, ?_, ?_, rfl, rfl⟩
  · exact (congrArg Commander.inHand (notified_raised p.cmd (.send, 2)).rest :)
  · exact (congrArg Commander.completions (notified_raised p.cmd (.send, 2)).rest :)

/-- SEND CLIP's effect from the part its LABEL item leaves. -/
theorem sendClip_labelled {p q : Part} {pos : Fin 128} {c : Clip} (here : p.clips.table.nth pos = some c) (outs : Table Word 8)
    (labelled : (p.accounted pos (c.account 0 0)).makeLabel pos c.number (labelSnapshot c) = q)
    (own : q.sender.cursors = p.sender.cursors) (empty : q.cmd.inHand = none) (i : Nat) (tag : Word) : ∃ cursors,
    (p.sendClip pos c outs).finish i tag [] =
      (Part.testSendEnd pos (Part.stepCursors { q with sender := { q.sender with cursors := cursors } })).answered i tag [] ∧
    (∀ (n : Nat) (cam x : Fin 8), (camerasOf c.cameras)[n]? = some cam → p.sender.freeCursors[n]? = some x →
      cursors.nth x = some ⟨pos, c.number, cam, c.inPoints.nth cam, outs.nth cam, 0⟩) ∧
    ∀ x : Fin 8, (∀ n, n < (camerasOf c.cameras).length → p.sender.freeCursors[n]? ≠ some x) → cursors.nth x = p.sender.cursors.nth x := by
  have free : q.sender.freeCursors = p.sender.freeCursors := by
    unfold Sender.freeCursors
    rw [own]
  obtain ⟨cursors, run, taken, left⟩ := takeCursors_says pos c outs q
  rw [free] at taken left
  rw [own] at left
  refine ⟨cursors, ?_, taken, left⟩
  have whole : p.sendClip pos c outs = Part.testSendEnd pos (Part.stepCursors { q with sender := { q.sender with cursors := cursors } }) :=
    (sendClip_eq here outs).trans (congrArg (fun x : Part => x.stepCursors.testSendEnd pos)
      ((congrArg (fun x : Part => x.takeCursors pos c outs) labelled).trans run))
  rw [whole]
  have hand := (steppedSend_stepsTo pos { q with sender := { q.sender with cursors := cursors } }).inHand.trans empty
  generalize Part.testSendEnd pos _ = r at hand ⊢
  exact finish_answered hand i tag []

/-- The part with its cursors taken, where the LABEL item was dropped. -/
theorem labelDropped_started (pos : Fin 128) (d : Clip) (cursors : Table (Option Cursor) 8) (p : Part) :
    let q := p.labelDropped.accounted pos d
    { q with sender := { q.sender with cursors := cursors } } = Part.raise .send 2 { (p.accounted pos d) with sender := { p.sender with
      cursors := cursors
      classes := p.sender.classes.upd 2 fun r => { r with droppedFull := count r.droppedFull, losses := count r.losses } } } := by
  intro q
  unfold q Part.labelDropped
  rw [raise_eq, raise_eq]
  rfl

/-- Settles O40: the tests in order, the account and its item by `makeLabel_queued` and `makeLabel_full`, and what the steps keep
by `Part.StepsTo`. -/
theorem sendClipStartsAnAccount : Obligations.SendClipStartsAnAccount := by
  refine ⟨?_, ?_⟩
  · intro c outs tc kept out stamp points
    rw [labelSnapshot_eq]
    unfold Clip.entryHead Clip.entryOuts
    rw [kept, out]
    dsimp only
    simp only [List.append_assoc]
    rfl
  · intro s i tag clip h run
    have ran : run = _ := exec_of_taken h rfl
    refine ⟨fun absent => ?_, fun pos c found => ?_⟩
    · rw [handEmpty_clipAt, absent] at ran
      exact ran
    rw [handEmpty_clipAt, found] at ran
    dsimp only at ran
    refine ⟨fun other => ?_, fun outs tc kept out => ?_⟩
    · cases state : c.state with
      | kept => exact absurd state other
      | opened => rw [state] at ran; exact ran
      | loose => rw [state] at ran; exact ran
      | lost => rw [state] at ran; exact ran
    rw [kept, out] at ran
    dsimp only at ran
    refine ⟨fun sending => ?_, fun idle => ⟨fun few => ?_, fun enough => ?_⟩⟩
    · exact ran.trans (next_becomes (if_pos sending))
    · exact ran.trans (next_becomes ((if_neg idle).trans (if_pos few)))
    intro full account started label goes
    have here := Part.clipAt_table (p := s.part.handEmpty) found
    replace ran := ran.trans (next_becomes ((if_neg idle).trans (if_neg (Nat.not_lt.2 enough))))
    by_cases isFull : full
    · let dropped : Part := s.part.handEmpty.labelDropped
      obtain ⟨cursors', hand, completions, path, lanes⟩ := labelDropped_says s.part.handEmpty
      obtain ⟨rest, cmd, pending, d, there, number, state, underway⟩ :=
        reportSend_account (n := c.number) (accounted_nth pos (c.account 1 0) dropped) rfl .failed rfl
      have labelled := makeLabel_full (p := s.part.handEmpty) (pos := pos) (c := c) isFull
      have sender : ((dropped.accounted pos (c.account 1 0)).reportSend pos c.number .failed).sender = dropped.sender := Part.reportSend_sender ..
      obtain ⟨cursors, done', taken, left⟩ := sendClip_labelled here outs labelled ((congrArg Sender.cursors sender).trans cursors')
        ((congrArg Commander.inHand cmd.rest).trans hand) i tag
      rw [done'] at ran
      refine ⟨cursors, taken, left, fun n => absurd isFull n, fun _ cameras => ran.trans ?_, ?_⟩
      · have account' := reportSend_failedLabel (p := dropped) (pos := pos) cameras
        exact congrArg (fun p : Part => Host.Outcome.next (s.becomes ((p.stepCursors.testSendEnd pos).answered i tag [])))
          ((congrArg (fun q : Part => { q with sender := { q.sender with cursors := cursors } }) account').trans
            (labelDropped_started pos (c.account 0 1) cursors s.part.handEmpty))
      · generalize (dropped.accounted pos (c.account 1 0)).reportSend pos c.number .failed = q at rest cmd pending there ran
        obtain ⟨mirror, x, found', number', state', underway', -⟩ := steppedSend_says (p := { q with sender := { q.sender with cursors := cursors } })
          there pending
        have steps := steppedSend_stepsTo pos { q with sender := { q.sender with cursors := cursors } }
        generalize Part.testSendEnd pos (Part.stepCursors { q with sender := { q.sender with cursors := cursors } }) = f at *
        refine ⟨_, x, ran, found', number'.trans number, (state'.trans state).trans kept, underway' underway, mirror, fun n => absurd isFull n,
          ?_, ?_, ?_, rfl⟩
        · refine congrArg (· ++ _) (steps.completions.trans ?_)
          exact (congrArg Commander.completions cmd.rest).trans completions
        · exact steps.path.trans ((congrArg Part.path rest).trans path)
        · exact steps.lanes.trans ((congrArg Part.lanes rest).trans lanes)
    · have room : (s.part.handEmpty.sender.queueOf .label).length < 16 := Nat.lt_of_not_le isFull
      have labelled := makeLabel_queued (p := s.part.handEmpty) (pos := pos) (c := c) room
      obtain ⟨cursors, done', taken, left⟩ := sendClip_labelled here outs labelled rfl rfl i tag
      rw [done'] at ran
      refine ⟨cursors, taken, left, fun _ => ran, fun h => absurd h isFull, ?_⟩
      let q : Part := Part.accounted pos (c.account 1 0) { s.part.handEmpty with
        sender := { (s.part.handEmpty.itemMade (.label pos c.number (labelSnapshot c)) 0 0 0 (labelSnapshot c).length).sender with cursors := cursors } }
      obtain ⟨mirror, x, found', number, state, underway, busy⟩ := steppedSend_says (p := q) (accounted_nth pos (c.account 1 0) _)
        ((mem_insertPos ..).2 (.inl rfl))
      have steps := steppedSend_stepsTo pos q
      obtain ⟨going, some', failed⟩ := busy rfl (Nat.le_refl 1)
      have ran : run = .next (s.becomes ((q.stepCursors.testSendEnd pos).answered i tag [])) := ran
      generalize q.stepCursors.testSendEnd pos = f at *
      refine ⟨_, x, ran, found', number, state.trans kept, .inl going, mirror, fun _ => ⟨going, some', failed, ?_⟩,
        congrArg (· ++ _) steps.completions, steps.path, steps.lanes, rfl⟩
      exact steps.items.subset (List.mem_append_right _ (List.mem_singleton.2 rfl))

end Sys2Proof.Machine
end

section
/-! The steps of the clip cursors and the making of a picture's item (O43). -/

namespace Sys2Proof.Machine

/-! A picture's item (R132, R133). -/

theorem replaceLive_none {k : Fin 8} {p : Part} (h : p.sender.giving k = none) : p.replaceLive k = p := by
  unfold Part.replaceLive
  split
  · rfl
  · next o found => exact absurd (h.symm.trans found) nofun

theorem replaceLive_some {k : Fin 8} {p : Part} {o : Item} (h : p.sender.giving k = some o) : p.replaceLive k = p.givesWay o := by
  unfold Part.replaceLive
  split
  · next found => exact absurd (h.symm.trans found) nofun
  · next i found =>
    obtain rfl : o = i := Option.some.inj (h.symm.trans found)
    dsimp only
    rw [Part.releaseItem_eq]
    rfl

/-- An item that names a picture, handed over to a part in which nothing has still to make way. -/
def Part.handed (kind : ItemKind) (k : Fin 8) (n : Word) (p : Part) : Part :=
  if (p.sender.queueOf kind.cls).length < kind.cls.capacity then
    match p.referenceOf k n with
    | .taken _ start length => (p.takeReference k n).queueItem kind ((p.rings.nth k).payload start length)
    | _ => p
  else p.dropFull kind.cls

theorem makeItem_livePicture (k : Fin 8) (n : Word) (p : Part) : p.makeItem (.livePicture k n) =
    (p.replaceLive k).handed (.livePicture k n) k n := rfl

theorem makeItem_clip (pos : Fin 128) (clip : Nat) (x k : Fin 8) (n : Word) (p : Part) : p.makeItem (.clipPicture pos clip x k n) =
    p.handed (.clipPicture pos clip x k n) k n := rfl

section

variable {kind : ItemKind} {k : Fin 8} {n : Word} {p : Part}

theorem handed_full (full : kind.cls.capacity ≤ (p.sender.queueOf kind.cls).length) : p.handed kind k n =
    Part.raise .send kind.cls.index.val { p with sender := { p.sender with
      classes := p.sender.classes.upd kind.cls.index fun r => { r with droppedFull := count r.droppedFull, losses := count r.losses } } } :=
  (if_neg (Nat.not_lt.2 full)).trans (dropFull_eq ..)

variable {e : PictureRecord} {start len q : Nat} {overFlag : Bool}

theorem referenceOf_taken (found : (p.rings.nth k).find n = some e) (body : e.body = .published start len q overFlag) (few : e.sends < 65535) :
    p.referenceOf k n = .taken e start len := by
  unfold Part.referenceOf
  rw [found]
  dsimp only
  rw [body]
  exact if_pos few

theorem handed_taken (names : kind.picture = some (k, n)) (room : (p.sender.queueOf kind.cls).length < kind.cls.capacity)
    (found : (p.rings.nth k).find n = some e) (body : e.body = .published start len q overFlag) (few : e.sends < 65535) :
    let pl := (p.rings.nth k).payload start len
    p.handed kind k n = p.itemMade kind pl.address pl.ringBase pl.ringSize pl.length := by
  intro pl
  have taken : p.handed kind k n = (p.takeReference k n).queueItem kind pl := by
    refine (if_pos room).trans ?_
    rw [referenceOf_taken found body few]
  rw [taken, queueItem_eq]
  unfold Part.itemMade
  rw [names]
  rfl

end

/-- The making of a picture's item, by the camera's item that gives way, the places, and the reference. -/
theorem makeItem_picture (p : Part) (kind : ItemKind) (k : Fin 8) (n : Word) (names : kind.picture = some (k, n)) :
    ∃ left, (left = match (match kind with | .livePicture .. => p.sender.giving k | _ => none) with | some o => p.givesWay o | none => p) ∧
      p.makeItem kind = left.handed kind k n := by
  cases kind with
  | audioFrame => cases names
  | label => cases names
  | livePicture k' n' =>
    obtain ⟨rfl, rfl⟩ := Prod.mk.inj (Option.some.inj names)
    refine ⟨_, rfl, ?_⟩
    rw [makeItem_livePicture]
    cases h : p.sender.giving k' with
    | none => rw [replaceLive_none h]
    | some o => rw [replaceLive_some h]
  | clipPicture pos clip x k' n' =>
    obtain ⟨rfl, rfl⟩ := Prod.mk.inj (Option.some.inj names)
    exact ⟨_, rfl, rfl⟩

/-! What a cursor can do next (R137). -/

section

variable {p : Part} {c : Cursor}

theorem cursorMove_done (past : laterThan c.next c.outPoint = true) : p.cursorMove c = .done := if_pos past

section

variable (within : laterThan c.next c.outPoint = false)
include within

theorem cursorMove_wait (four : 4 ≤ c.outstanding) : p.cursorMove c = .wait :=
  (if_neg (Bool.eq_false_iff.1 within)).trans (if_pos four)

variable (few : c.outstanding < 4)
include few

theorem cursorMove_empty (empty : (p.rings.nth c.cam).index = []) : p.cursorMove c = .skip (spanOf c.next c.outPoint) (c.outPoint + 1) := by
  refine (if_neg (Bool.eq_false_iff.1 within)).trans ((if_neg (Nat.not_le.2 few)).trans ?_)
  dsimp only
  rw [empty]

variable {oldest : PictureRecord} (head : (p.rings.nth c.cam).index.head? = some oldest)
include head

theorem cursorMove_behind (before : atOrAfter c.next oldest.number = false) (ahead : atOrAfter c.outPoint oldest.number = true) :
    p.cursorMove c = .skip (oldest.number - c.next).toNat oldest.number := by
  obtain ⟨rest, index⟩ := List.head?_eq_some_iff.1 head
  refine (if_neg (Bool.eq_false_iff.1 within)).trans ((if_neg (Nat.not_le.2 few)).trans ?_)
  dsimp only
  rw [index]
  exact (if_pos (by rw [before]; rfl)).trans (if_pos ahead)

theorem cursorMove_beyond (before : atOrAfter c.next oldest.number = false) (short : atOrAfter c.outPoint oldest.number = false) :
    p.cursorMove c = .skip (spanOf c.next c.outPoint) (c.outPoint + 1) := by
  obtain ⟨rest, index⟩ := List.head?_eq_some_iff.1 head
  refine (if_neg (Bool.eq_false_iff.1 within)).trans ((if_neg (Nat.not_le.2 few)).trans ?_)
  dsimp only
  rw [index]
  exact (if_pos (by rw [before]; rfl)).trans (if_neg (Bool.eq_false_iff.1 short))

/-- What a cursor does at the first record at or after its next number. -/
def Part.moveAt (p : Part) (c : Cursor) (r : PictureRecord) : CursorMove :=
  if laterThan r.number c.outPoint then .pass (c.outPoint + 1)
  else match r.body with
    | .gap _ => .pass (r.number + 1)
    | .opening _ _ => .wait
    | .published .. => if (p.sender.queueOf .clip).length < 16 ∧ r.sends < 65535 then .make r.number else .wait

variable (after : atOrAfter c.next oldest.number = true)
include after

theorem cursorMove_beyondAll (none' : (p.rings.nth c.cam).index.find? (fun r => atOrAfter r.number c.next) = none) : p.cursorMove c = .wait := by
  obtain ⟨rest, index⟩ := List.head?_eq_some_iff.1 head
  refine (if_neg (Bool.eq_false_iff.1 within)).trans ((if_neg (Nat.not_le.2 few)).trans ?_)
  dsimp only
  rw [index] at none' ⊢
  refine (if_neg (by rw [after]; decide)).trans ?_
  rw [none']

theorem cursorMove_at {r : PictureRecord} (first : (p.rings.nth c.cam).index.find? (fun r => atOrAfter r.number c.next) = some r) :
    p.cursorMove c = p.moveAt c r := by
  obtain ⟨rest, index⟩ := List.head?_eq_some_iff.1 head
  refine (if_neg (Bool.eq_false_iff.1 within)).trans ((if_neg (Nat.not_le.2 few)).trans ?_)
  dsimp only
  rw [index] at first ⊢
  refine (if_neg (by rw [after]; decide)).trans ?_
  rw [first]
  rfl

end

end

/-- A cursor that has numbers and places left, and the first record at or after its next number. -/
structure Part.Meets (p : Part) (c : Cursor) (r : PictureRecord) : Prop where
  within : laterThan c.next c.outPoint = false
  few : c.outstanding < 4
  oldest : ∃ oldest, (p.rings.nth c.cam).index.head? = some oldest ∧ atOrAfter c.next oldest.number = true
  first : (p.rings.nth c.cam).index.find? (fun r => atOrAfter r.number c.next) = some r

section

variable {p : Part} {c : Cursor} {r : PictureRecord} (meets : p.Meets c r)
include meets

theorem Part.Meets.move : p.cursorMove c = p.moveAt c r := by
  obtain ⟨oldest, head, after⟩ := meets.oldest
  exact cursorMove_at meets.within meets.few head after meets.first

theorem Part.Meets.past (past : laterThan r.number c.outPoint = true) : p.cursorMove c = .pass (c.outPoint + 1) :=
  meets.move.trans (if_pos past)

variable (reached : laterThan r.number c.outPoint = false)
include reached

theorem Part.Meets.gap {cause : GapCause} (body : r.body = .gap cause) : p.cursorMove c = .pass (r.number + 1) := by
  refine meets.move.trans ((if_neg (Bool.eq_false_iff.1 reached)).trans ?_)
  rw [body]

theorem Part.Meets.make {start len q : Nat} {overFlag : Bool} (body : r.body = .published start len q overFlag)
    (room : (p.sender.queueOf .clip).length < 16) (few : r.sends < 65535) : p.cursorMove c = .make r.number := by
  refine meets.move.trans ((if_neg (Bool.eq_false_iff.1 reached)).trans ?_)
  rw [body]
  exact if_pos ⟨room, few⟩

omit reached in
/-- The record a cursor meets is the one of its number. -/
theorem Part.Meets.find : (p.rings.nth c.cam).find r.number = some r := by
  obtain ⟨after, as, bs, split, before⟩ := List.find?_eq_some_iff_append.1 meets.first
  refine List.find?_eq_some_iff_append.2 ⟨beq_self_eq_true _, as, bs, split, fun e he => ?_⟩
  have notBefore := before e he
  refine Decidable.byContradiction fun same => ?_
  have same : e.number = r.number := by simpa using same
  rw [same, after] at notBefore
  exact absurd notBefore (by decide)

end

/-- The first record at or after a number, among records of which the first few lie before it. -/
theorem find_after {l before after : List PictureRecord} {r : PictureRecord} {n : Word} (split : l = before ++ r :: after)
    (none' : ∀ e, e ∈ before → atOrAfter e.number n = false) (here : atOrAfter r.number n = true) :
    l.find? (fun r => atOrAfter r.number n) = some r :=
  List.find?_eq_some_iff_append.2 ⟨here, before, after, split, fun e he => by rw [none' e he]; rfl⟩

/-- A cursor that makes a picture meets its record, which is published and may be taken. -/
theorem meets_of_make {p : Part} {c : Cursor} {n : Word} (h : p.cursorMove c = .make n) : ∃ r, p.Meets c r ∧ r.number = n ∧
    laterThan r.number c.outPoint = false ∧ ∃ start len q overFlag, r.body = .published start len q overFlag := by
  cases within : laterThan c.next c.outPoint with
  | true => exact absurd ((cursorMove_done within).symm.trans h) nofun
  | false =>
    by_cases few : c.outstanding < 4
    case neg => exact absurd ((cursorMove_wait within (Nat.le_of_not_lt few)).symm.trans h) nofun
    cases head : (p.rings.nth c.cam).index.head? with
    | none => exact absurd ((cursorMove_empty within few (List.head?_eq_none_iff.1 head)).symm.trans h) nofun
    | some oldest =>
      cases after : atOrAfter c.next oldest.number with
      | false =>
        cases ahead : atOrAfter c.outPoint oldest.number with
        | true => exact absurd ((cursorMove_behind within few head after ahead).symm.trans h) nofun
        | false => exact absurd ((cursorMove_beyond within few head after ahead).symm.trans h) nofun
      | true =>
        cases first : (p.rings.nth c.cam).index.find? (fun r => atOrAfter r.number c.next) with
        | none => exact absurd ((cursorMove_beyondAll within few head after first).symm.trans h) nofun
        | some r =>
          have meets : p.Meets c r := ⟨within, few, ⟨oldest, head, after⟩, first⟩
          cases reached : laterThan r.number c.outPoint with
          | true => exact absurd ((meets.past reached).symm.trans h) nofun
          | false =>
            have move := meets.move.symm.trans h
            unfold Part.moveAt at move
            rw [reached, if_neg (by decide)] at move
            cases body : r.body with
            | gap cause => exact absurd ((meets.gap reached body).symm.trans h) nofun
            | opening start len =>
              rw [body] at move
              cases move
            | published start len q overFlag =>
              rw [body] at move
              dsimp only at move
              split at move
              · exact ⟨r, meets, CursorMove.make.inj move, reached, start, len, q, overFlag, body⟩
              · cases move

/-! A cursor's turn. -/

section

variable {p : Part} {x : Fin 8} {c : Cursor}

theorem cursorTurn_none (free : p.sender.cursors.nth x = none) : p.cursorTurn x = p := by
  unfold Part.cursorTurn
  rw [free]

variable (here : p.sender.cursors.nth x = some c)
include here

theorem cursorTurn_eq : p.cursorTurn x = (p.cursorPasses x ((p.rings.nth c.cam).index.length + 3)).cursorMakes x := by
  unfold Part.cursorTurn
  rw [here]

theorem cursorPasses_stop (fuel : Nat) (stop : p.cursorMove c = .wait ∨ ∃ n, p.cursorMove c = .make n) : p.cursorPasses x fuel = p := by
  cases fuel with
  | zero => rfl
  | succ fuel =>
    unfold Part.cursorPasses
    rw [here]
    dsimp only
    obtain move | ⟨n, move⟩ := stop <;> rw [move]

theorem cursorPasses_pass {next : Word} (move : p.cursorMove c = .pass next) (fuel : Nat) :
    p.cursorPasses x (fuel + 1) = (p.putCursor x (some { c with next := next })).cursorPasses x fuel := by
  conv => lhs; unfold Part.cursorPasses
  rw [here]
  dsimp only
  rw [move]

theorem cursorPasses_skip {n : Nat} {next : Word} (move : p.cursorMove c = .skip n next) (fuel : Nat) :
    p.cursorPasses x (fuel + 1) =
      ((p.reportSend c.pos c.clip (.skipped n)).putCursor x (some { c with next := next })).cursorPasses x fuel := by
  conv => lhs; unfold Part.cursorPasses
  rw [here]
  dsimp only
  rw [move]

theorem cursorPasses_done (move : p.cursorMove c = .done) (fuel : Nat) :
    p.cursorPasses x (fuel + 1) = (p.reportSend c.pos c.clip .cursorDone).putCursor x none := by
  unfold Part.cursorPasses
  rw [here]
  dsimp only
  rw [move]

theorem cursorMakes_wait (move : p.cursorMove c = .wait) : p.cursorMakes x = p := by
  unfold Part.cursorMakes
  rw [here]
  dsimp only
  rw [move]

theorem cursorTurn_wait (move : p.cursorMove c = .wait) : p.cursorTurn x = p := by
  rw [cursorTurn_eq here, cursorPasses_stop here _ (.inl move), cursorMakes_wait here move]

theorem cursorMakes_make {n : Word} (move : p.cursorMove c = .make n) : p.cursorMakes x =
    ((p.makeItem (.clipPicture c.pos c.clip x c.cam n)).reportSend c.pos c.clip .made).putCursor x
      (some { c with next := n + 1, outstanding := c.outstanding + 1 }) := by
  unfold Part.cursorMakes
  rw [here]
  dsimp only
  rw [move]

end

theorem cursorMakes_none {p : Part} {x : Fin 8} (free : p.sender.cursors.nth x = none) : p.cursorMakes x = p := by
  unfold Part.cursorMakes
  rw [free]

/-- A round in which no cursor is able to step. -/
theorem cursorRounds_idle {p : Part} (idle : ∀ x c, p.sender.cursors.nth x = some c → p.cursorMove c = .wait) (n : Nat) :
    p.cursorRounds n = p := by
  have turn (x : Fin 8) : p.cursorTurn x = p := by
    cases here : p.sender.cursors.nth x with
    | none => exact cursorTurn_none here
    | some c => exact cursorTurn_wait here (idle x c here)
  have round (l : List (Fin 8)) : l.foldl Part.cursorTurn p = p := by
    induction l with
    | nil => rfl
    | cons x rest ih => rw [List.foldl_cons, turn, ih]
  induction n with
  | zero => rfl
  | succ n ih =>
    have step : p.cursorRounds (n + 1) = p.cursorRound.cursorRounds n := rfl
    have same : p.cursorRound = p := round _
    rw [step, same, ih]

/-- A round of the only cursor in use. -/
theorem cursorRound_solo {p q : Part} {x : Fin 8} (solo : ∀ y, y ≠ x → p.sender.cursors.nth y = none) (turn : p.cursorTurn x = q)
    (others : ∀ y, y ≠ x → q.sender.cursors.nth y = none) : p.cursorRound = q := by
  have after (l : List (Fin 8)) (fresh : x ∉ l) : l.foldl Part.cursorTurn q = q := by
    induction l with
    | nil => rfl
    | cons y rest ih =>
      obtain ⟨first, fresh⟩ := not_or.1 (mt List.mem_cons.2 fresh)
      rw [List.foldl_cons, cursorTurn_none (others y (Ne.symm first)), ih fresh]
  have whole (l : List (Fin 8)) (distinct : l.Nodup) (here : x ∈ l) : l.foldl Part.cursorTurn p = q := by
    induction l with
    | nil => cases here
    | cons y rest ih =>
      obtain ⟨fresh, distinct⟩ := List.nodup_cons.1 distinct
      rw [List.foldl_cons]
      by_cases first : y = x
      · subst first
        rw [turn, after rest fresh]
      · rw [cursorTurn_none (solo y first)]
        exact ih distinct ((List.mem_cons.1 here).resolve_left (Ne.symm first))
  exact whole _ (List.nodup_finRange 8) (List.mem_finRange x)

/-- All the rounds of the only cursor in use: its first, and then the others. -/
theorem stepCursors_solo {p q : Part} {x : Fin 8} (solo : ∀ y, y ≠ x → p.sender.cursors.nth y = none) (turn : p.cursorTurn x = q)
    (others : ∀ y, y ≠ x → q.sender.cursors.nth y = none) : p.stepCursors = q.cursorRounds 5 := by
  have first : p.stepCursors = p.cursorRound.cursorRounds 5 := rfl
  rw [first, cursorRound_solo solo turn others]

/-! The reports to the account of a send (R127). -/

theorem testSendEnd_clipsTo (pos : Fin 128) (p : Part) : p.ClipsTo (p.testSendEnd pos) := by
  unfold Part.testSendEnd
  split
  · split
    · split
      · exact editClip_clipsTo ..
      · exact clipEvent_after pos _ p.cues p
    · exact .refl p
  · exact .refl p

theorem reportSend_clipsTo (pos : Fin 128) (n : Nat) (r : SendReport) (p : Part) : p.ClipsTo (p.reportSend pos n r) := by
  unfold Part.reportSend
  split
  · split
    · exact (editClip_clipsTo ..).trans (testSendEnd_clipsTo ..)
    · exact .refl p
  · exact .refl p

section

variable {p : Part} {pos : Fin 128} {k : Clip} {n : Nat}

theorem reportSend_tested (here : p.clips.table.nth pos = some k) (named : k.number = n) (sending : k.send = .sending) (r : SendReport) :
    p.reportSend pos n r = (p.accounted pos (r.apply k)).testSendEnd pos := by
  unfold Part.reportSend
  rw [here]
  dsimp only
  rw [if_pos ⟨named, sending⟩, Part.editClip_eq here]
  rfl

/-- A send whose account has just been changed, tested for its end. -/
theorem accounted_tested (d : Clip) (sending : d.send = .sending) (p : Part) :
    let q := (p.accounted pos d).testSendEnd pos
    let over' := d.cursors = 0 ∧ d.outstanding = 0
    pos ∈ q.clips.mirror ∧ (¬ over' → q.clips.table = p.clips.table.put pos (some d)) ∧
    (over' → d.failed = 0 → d.skipped = 0 → q.clips.table = p.clips.table.put pos (some { d with send := .sent })) ∧
    (over' → (d.failed ≠ 0 ∨ d.skipped ≠ 0) →
      q.clips.table = p.clips.table.put pos (some { d with send := .partly }) ∧ (Cause.clip, pos.val) ∈ q.cmd.notices) := by
  intro q over'
  have tested : q = _ := Part.testSendEnd_eq (accounted_nth pos d p) sending
  have twice (e : Clip) : (p.accounted pos d).clips.table.put pos (some e) = p.clips.table.put pos (some e) := Table.put_put ..
  by_cases done' : over'
  · rw [if_pos done'] at tested
    by_cases clean : d.failed = 0 ∧ d.skipped = 0
    · rw [if_pos clean] at tested
      rw [tested]
      refine ⟨(mem_insertPos ..).2 (.inl rfl), fun going => absurd done' going, fun _ _ _ => twice _, fun _ bad => ?_⟩
      exact absurd clean fun h => bad.elim (fun f => f h.1) fun s => s h.2
    · rw [if_neg clean, raise_eq] at tested
      rw [tested]
      exact ⟨(mem_insertPos ..).2 (.inl rfl), fun going => absurd done' going, fun _ f s => absurd ⟨f, s⟩ clean,
        fun _ _ => ⟨twice _, (mem_raised ..).2 (.inl rfl)⟩⟩
  · rw [if_neg done'] at tested
    rw [tested]
    exact ⟨(mem_insertPos ..).2 (.inl rfl), fun _ => rfl, fun h => absurd h done', fun h => absurd h done'⟩

end

/-! What a cursor passes before it makes an item or ends. -/

/-- The account of a send after numbers have been skipped. -/
def Clip.skipping (n : Nat) (k : Clip) : Clip := { k with skipped := if n = 0 then k.skipped else min (k.skipped + n) 65535 }

/-- A cursor has moved on to a number, so many before it reported skipped. -/
structure Part.Passed (x : Fin 8) (c : Cursor) (next : Word) (skipped : Nat) (p q : Part) : Prop where
  rings : q.rings = p.rings
  sender : q.sender = { p.sender with cursors := p.sender.cursors.put x (some { c with next := next }) }
  steps : p.StepsTo q
  account : ∀ k, p.clips.table.nth c.pos = some k → k.number = c.clip → k.send = .sending → 1 ≤ k.cursors →
    q.clips.table = p.clips.table.put c.pos (some (k.skipping skipped))

section

variable {p : Part} {x : Fin 8} {c : Cursor}

theorem Part.Passed.refl (here : p.sender.cursors.nth x = some c) : p.Passed x c c.next 0 p := by
  refine ⟨rfl, ?_, .refl p, fun k hk _ _ _ => ?_⟩
  · have same : p.sender.cursors.put x (some c) = p.sender.cursors := by rw [← here, Table.put_nth]
    exact (congrArg (fun t => { p.sender with cursors := t }) same).symm
  · have same : k.skipping 0 = k := rfl
    rw [same, ← hk, Table.put_nth]

theorem Part.Passed.pass (next : Word) : p.Passed x c next 0 (p.putCursor x (some { c with next := next })) := by
  refine ⟨rfl, rfl, putCursor_stepsTo .., fun k hk _ _ _ => ?_⟩
  have same : k.skipping 0 = k := rfl
  rw [same, ← hk, Table.put_nth]
  rfl

theorem Part.Passed.skip (next : Word) {n : Nat} (some' : n ≠ 0) :
    p.Passed x c next n ((p.reportSend c.pos c.clip (.skipped n)).putCursor x (some { c with next := next })) := by
  have clipsTo := reportSend_clipsTo c.pos c.clip (.skipped n) p
  refine ⟨clipsTo.rings, ?_, (reportSend_stepsTo (ofCursor_skipped n) ..).trans (putCursor_stepsTo ..), fun k hk named sending walks => ?_⟩
  · exact congrArg (fun y : Sender => { y with cursors := y.cursors.put x (some { c with next := next }) }) clipsTo.sender
  · have applied : (SendReport.skipped n).apply k = k.skipping n := by
      unfold Clip.skipping
      rw [if_neg some']
      rfl
    have going : ¬ (((SendReport.skipped n).apply k).cursors = 0 ∧ ((SendReport.skipped n).apply k).outstanding = 0) := fun h => by
      have none' : k.cursors = 0 := h.1
      omega
    have run := reportSend_tested hk named sending (.skipped n)
    change (p.reportSend c.pos c.clip (.skipped n)).clips.table = _
    rw [run, ← applied]
    exact (accounted_tested ((SendReport.skipped n).apply k) sending p).2.1 going

end

theorem Part.Meets.of_rings {p q : Part} {c : Cursor} {r : PictureRecord} (h : p.Meets c r) (same : q.rings = p.rings) : q.Meets c r := by
  obtain ⟨within, few, oldest, first⟩ := h
  refine ⟨within, few, ?_, ?_⟩
  · rw [same]
    exact oldest
  · rw [same]
    exact first

theorem count_ne_zero (n : Nat) : count n ≠ 0 := by
  unfold count Config.counterMax
  split <;> omega

/-- The item a cursor makes of a record. -/
theorem cursorMakes_says {p : Part} {x : Fin 8} {c : Cursor} {r : PictureRecord} {start len q : Nat} {overFlag : Bool}
    (here : p.sender.cursors.nth x = some c) (meets : p.Meets c r) (reached : laterThan r.number c.outPoint = false)
    (body : r.body = .published start len q overFlag) (few : r.sends < 65535) (room : (p.sender.queueOf .clip).length < 16) :
    let t := p.cursorMakes x
    ∃ it : Item, it.queued = true ∧ it.dispatched = 0 ∧ it.kind = .clipPicture c.pos c.clip x c.cam r.number ∧ it.length = len ∧
      it.id = p.sender.nextItem ∧ t.sender.items = p.sender.items ++ [it] ∧
      t.rings = p.rings.upd c.cam (Ring.sending · r.number (· + 1)) ∧
      t.sender.cursors = p.sender.cursors.put x (some { c with next := r.number + 1, outstanding := c.outstanding + 1 }) ∧
      ∀ k, p.clips.table.nth c.pos = some k → k.number = c.clip → k.send = .sending →
        t.clips.table = p.clips.table.put c.pos (some { k with outstanding := count k.outstanding }) := by
  intro t
  let kind : ItemKind := .clipPicture c.pos c.clip x c.cam r.number
  let pl := (p.rings.nth c.cam).payload start len
  let made := p.itemMade kind pl.address pl.ringBase pl.ringSize pl.length
  have handed : p.makeItem kind = made := (makeItem_clip ..).trans (handed_taken rfl room meets.find body few)
  have run : t = (made.reportSend c.pos c.clip .made).putCursor x (some { c with next := r.number + 1, outstanding := c.outstanding + 1 }) := by
    rw [← handed]
    exact cursorMakes_make here (meets.make reached body room few)
  have clipsTo := reportSend_clipsTo c.pos c.clip .made made
  have length : pl.length = len := by
    unfold pl Ring.payload
    split <;> rfl
  refine ⟨⟨p.sender.nextItem, kind, true, pl.address, pl.ringBase, pl.ringSize, pl.length, (pl.length + 1023) / 1024, 0, 0, false, p.now,
    p.now + 3000000 * (p.sender.classes.nth 3).hold, true⟩, rfl, rfl, rfl, length, rfl, ?_, ?_, ?_, fun k hk named sending => ?_⟩
  · rw [run]
    exact congrArg Sender.items clipsTo.sender
  · rw [run]
    exact clipsTo.rings
  · rw [run]
    refine (congrArg (fun y : Sender => y.cursors.put x (some { c with next := r.number + 1, outstanding := c.outstanding + 1 }))
      clipsTo.sender).trans ?_
    rfl
  · have going : ¬ ((SendReport.made.apply k).cursors = 0 ∧ (SendReport.made.apply k).outstanding = 0) := fun h => count_ne_zero _ h.2
    have reported := reportSend_tested (p := made) hk named sending .made
    rw [run]
    change (made.reportSend c.pos c.clip .made).clips.table = _
    rw [reported]
    exact (accounted_tested (SendReport.made.apply k) sending made).2.1 going

/-- The only cursor in use passes what it may and makes an item of the record it meets. -/
theorem stepCursors_makes {p q : Part} {x : Fin 8} {c : Cursor} {next : Word} {skipped : Nat} {r : PictureRecord} {start len quantizer : Nat}
    {overFlag : Bool} (solo : ∀ y, y ≠ x → p.sender.cursors.nth y = none)
    (turn : p.cursorTurn x = q.cursorMakes x) (passed : p.Passed x c next skipped q) (meets : q.Meets { c with next := next } r)
    (reached : laterThan r.number c.outPoint = false) (body : r.body = .published start len quantizer overFlag) (few : r.sends < 65535)
    (room : (p.sender.queueOf .clip).length < 16) :
    let t := p.stepCursors
    ∃ it, it ∈ t.sender.items ∧ it.queued = true ∧ it.dispatched = 0 ∧
      it.kind = .clipPicture c.pos c.clip x c.cam r.number ∧ it.length = len ∧ it.id = p.sender.nextItem ∧
      (∀ k, p.clips.table.nth c.pos = some k → (k.number = c.clip ∧ k.send = .sending ∧ 1 ≤ k.cursors) → c.outstanding = 3 →
        ∃ y, t.clips.table.nth c.pos = some y ∧ y.skipped = (k.skipping skipped).skipped ∧ y.outstanding = count k.outstanding ∧
          y.send = .sending) ∧
      (c.outstanding = 3 → t.rings = p.rings.upd c.cam (Ring.sending · r.number (· + 1)) ∧ t.sender.items = p.sender.items ++ [it] ∧
        t.sender.cursors = p.sender.cursors.put x (if laterThan (r.number + 1) c.outPoint then none
          else some { c with next := r.number + 1, outstanding := 4 })) ∧
      t.path = p.path ∧ t.lanes = p.lanes ∧ t.cmd.completions = p.cmd.completions := by
  intro t
  have there : q.sender.cursors.nth x = some { c with next := next } := by
    rw [passed.sender]
    exact Table.nth_put_same ..
  have room' : (q.sender.queueOf .clip).length < 16 := by
    rw [passed.sender]
    exact room
  obtain ⟨it, queued, fresh, kind, length, name, items, rings, cursors, account⟩ := cursorMakes_says there meets reached body few room'
  let r1 := q.cursorMakes x
  have cursors1 : r1.sender.cursors = p.sender.cursors.put x (some { c with next := r.number + 1, outstanding := c.outstanding + 1 }) := by
    refine cursors.trans ?_
    rw [passed.sender]
    exact Table.put_put ..
  have items1 : r1.sender.items = p.sender.items ++ [it] := by
    refine items.trans ?_
    rw [passed.sender]
  have rings1 : r1.rings = p.rings.upd c.cam (Ring.sending · r.number (· + 1)) := by
    refine rings.trans ?_
    rw [passed.rings]
  have solo1 (y : Fin 8) (hy : y ≠ x) : r1.sender.cursors.nth y = none := by
    rw [cursors1, Table.nth_put_other _ _ (Ne.symm hy)]
    exact solo y hy
  have here1 : r1.sender.cursors.nth x = some { c with next := r.number + 1, outstanding := c.outstanding + 1 } := by
    rw [cursors1]
    exact Table.nth_put_same ..
  have rounds : t = r1.cursorRounds 5 := stepCursors_solo solo turn solo1
  have later : r1.StepsTo t := by
    rw [rounds]
    exact cursorRounds_stepsTo ..
  have all : p.StepsTo t := (passed.steps.trans (cursorMakes_stepsTo x q)).trans later
  have account1 (k : Clip) (hk : p.clips.table.nth c.pos = some k) (walked : k.number = c.clip ∧ k.send = .sending ∧ 1 ≤ k.cursors) :
      r1.clips.table.nth c.pos = some { (k.skipping skipped) with outstanding := count k.outstanding } := by
    have now := account (k.skipping skipped) (by rw [passed.account k hk walked.1 walked.2.1 walked.2.2]; exact Table.nth_put_same ..)
      walked.1 walked.2.1
    rw [now]
    exact Table.nth_put_same ..
  have fourth (three : c.outstanding = 3) : (laterThan (r.number + 1) c.outPoint = false → t = r1) ∧
      (laterThan (r.number + 1) c.outPoint = true → t = (r1.reportSend c.pos c.clip .cursorDone).putCursor x none) := by
    refine ⟨fun within => ?_, fun past => ?_⟩
    · rw [rounds]
      refine cursorRounds_idle (fun y d hd => ?_) 5
      by_cases same : y = x
      · obtain rfl := Option.some.inj ((congrArg r1.sender.cursors.nth same).symm.trans hd |>.symm.trans here1)
        exact cursorMove_wait within (by dsimp only; omega)
      · exact absurd ((solo1 y same).symm.trans hd) nofun
    · let r2 := (r1.reportSend c.pos c.clip .cursorDone).putCursor x none
      have sender2 : r2.sender.cursors = r1.sender.cursors.put x none :=
        congrArg (fun y : Sender => y.cursors.put x none) (reportSend_clipsTo c.pos c.clip .cursorDone r1).sender
      have free2 (y : Fin 8) : r2.sender.cursors.nth y = none := by
        rw [sender2]
        by_cases same : y = x
        · rw [same]
          exact Table.nth_put_same ..
        · rw [Table.nth_put_other _ _ (Ne.symm same)]
          exact solo1 y same
      have turn1 : r1.cursorTurn x = r2 := by
        rw [cursorTurn_eq here1]
        rw [cursorPasses_done here1 (cursorMove_done past)]
        exact cursorMakes_none (free2 x)
      have step : r1.cursorRounds 5 = r1.cursorRound.cursorRounds 4 := rfl
      rw [rounds, step, cursorRound_solo solo1 turn1 fun y _ => free2 y]
      exact cursorRounds_idle (fun y d hd => absurd ((free2 y).symm.trans hd) nofun) 4
  refine ⟨it, later.items.subset (by rw [items1]; exact List.mem_append_right _ (List.mem_singleton.2 rfl)), queued, fresh, kind, length, ?_,
    fun k hk walked three => ?_, fun three => ?_, all.path, all.lanes, all.completions⟩
  · rw [name, passed.sender]
  · cases past : laterThan (r.number + 1) c.outPoint with
    | false =>
      rw [(fourth three).1 past]
      exact ⟨_, account1 k hk walked, rfl, rfl, walked.2.1⟩
    | true =>
      rw [(fourth three).2 past]
      let k1 : Clip := { (k.skipping skipped) with outstanding := count k.outstanding }
      have going : ¬ ((SendReport.cursorDone.apply k1).cursors = 0 ∧ (SendReport.cursorDone.apply k1).outstanding = 0) := fun h =>
        count_ne_zero _ h.2
      have reported := reportSend_tested (account1 k hk walked) walked.1 walked.2.1 .cursorDone
      refine ⟨SendReport.cursorDone.apply k1, ?_, rfl, rfl, walked.2.1⟩
      change (r1.reportSend c.pos c.clip .cursorDone).clips.table.nth c.pos = _
      rw [reported, (accounted_tested (SendReport.cursorDone.apply k1) walked.2.1 r1).2.1 going]
      exact Table.nth_put_same ..
  · cases past : laterThan (r.number + 1) c.outPoint with
    | false =>
      rw [(fourth three).1 past]
      refine ⟨rings1, items1, cursors1.trans ?_⟩
      rw [three]
      rfl
    | true =>
      rw [(fourth three).2 past]
      have clipsTo := reportSend_clipsTo c.pos c.clip .cursorDone r1
      refine ⟨clipsTo.rings.trans rings1, (congrArg Sender.items clipsTo.sender).trans items1, ?_⟩
      refine (congrArg (fun y : Sender => y.cursors.put x none) clipsTo.sender).trans ?_
      rw [cursors1]
      exact Table.put_put ..

/-- The only cursor in use, past its out point once it has passed what it may, ends. -/
theorem stepCursors_ends {p q : Part} {x : Fin 8} {c : Cursor} {next : Word} {skipped fuel : Nat}
    (solo : ∀ y, y ≠ x → p.sender.cursors.nth y = none) (turn : p.cursorTurn x = (q.cursorPasses x (fuel + 1)).cursorMakes x)
    (passed : p.Passed x c next skipped q) (past : laterThan next c.outPoint = true) :
    let t := p.stepCursors
    t.sender = { p.sender with cursors := p.sender.cursors.put x none } ∧ t.rings = p.rings ∧ t.path = p.path ∧ t.lanes = p.lanes ∧
    ∀ k, p.clips.table.nth c.pos = some k → k.number = c.clip → k.send = .sending → 1 ≤ k.cursors →
      let told : Clip := { (k.skipping skipped) with cursors := k.cursors - 1 }
      let done' := told.cursors = 0 ∧ told.outstanding = 0
      c.pos ∈ t.clips.mirror ∧ (¬ done' → t.clips.table = p.clips.table.put c.pos (some told)) ∧
      (done' → told.failed = 0 → told.skipped = 0 → t.clips.table = p.clips.table.put c.pos (some { told with send := .sent })) ∧
      (done' → (told.failed ≠ 0 ∨ told.skipped ≠ 0) → t.clips.table = p.clips.table.put c.pos (some { told with send := .partly }) ∧
        (Cause.clip, c.pos.val) ∈ t.cmd.notices) := by
  intro t
  have there : q.sender.cursors.nth x = some { c with next := next } := by
    rw [passed.sender]
    exact Table.nth_put_same ..
  let r1 := (q.reportSend c.pos c.clip .cursorDone).putCursor x none
  have clipsTo := reportSend_clipsTo c.pos c.clip .cursorDone q
  have sender1 : r1.sender = { p.sender with cursors := p.sender.cursors.put x none } := by
    refine (congrArg (fun y : Sender => { y with cursors := y.cursors.put x none }) clipsTo.sender).trans ?_
    rw [passed.sender]
    exact congrArg (fun t => { p.sender with cursors := t }) (Table.put_put ..)
  have free1 (y : Fin 8) : r1.sender.cursors.nth y = none := by
    rw [sender1]
    by_cases same : y = x
    · rw [same]
      exact Table.nth_put_same ..
    · exact (Table.nth_put_other _ _ (Ne.symm same)).trans (solo y same)
  have turned : p.cursorTurn x = r1 := by
    rw [turn, cursorPasses_done there (cursorMove_done past)]
    exact cursorMakes_none (free1 x)
  have rounds : t = r1 := (stepCursors_solo solo turned fun y _ => free1 y).trans
    (cursorRounds_idle (fun y d hd => absurd ((free1 y).symm.trans hd) nofun) 5)
  have steps : p.StepsTo r1 := passed.steps.trans ((reportSend_stepsTo ofCursor_done ..).trans (putCursor_stepsTo ..))
  rw [rounds]
  refine ⟨sender1, clipsTo.rings.trans passed.rings, steps.path, steps.lanes, fun k hk named sending walks => ?_⟩
  have table := passed.account k hk named sending walks
  have reported := reportSend_tested (p := q) (pos := c.pos) (k := k.skipping skipped) (by rw [table]; exact Table.nth_put_same ..) named sending .cursorDone
  obtain ⟨mirror, going, sent, partly⟩ := accounted_tested (pos := c.pos) (SendReport.cursorDone.apply (k.skipping skipped)) sending q
  rw [← reported] at mirror going sent partly
  have twice (e : Clip) : q.clips.table.put c.pos (some e) = p.clips.table.put c.pos (some e) := by
    rw [table]
    exact Table.put_put ..
  rw [twice] at going sent partly
  exact ⟨mirror, going, sent, partly⟩

/-! Several cursors that each make an item (R137). -/

/-- A record whose picture has been referenced once more is met as before. -/
theorem Part.Meets.sending {p q : Part} {c : Cursor} {r : PictureRecord} {k : Fin 8} {n : Word} (h : p.Meets c r)
    (rings : q.rings = p.rings.upd k (Ring.sending · n (· + 1))) : ∃ r', q.Meets c r' ∧ r'.number = r.number ∧ r'.body = r.body := by
  let g (e : PictureRecord) : PictureRecord := if e.number = n then { e with sends := e.sends + 1 } else e
  have number (e : PictureRecord) : (g e).number = e.number := by
    unfold g
    split <;> rfl
  have body (e : PictureRecord) : (g e).body = e.body := by
    unfold g
    split <;> rfl
  by_cases same : c.cam = k
  case neg =>
    have ring : q.rings.nth c.cam = p.rings.nth c.cam := by rw [rings, Table.nth_upd_other _ _ (Ne.symm same)]
    obtain ⟨within, few, oldest, first⟩ := h
    refine ⟨r, ⟨within, few, ?_, ?_⟩, rfl, rfl⟩
    · rw [ring]
      exact oldest
    · rw [ring]
      exact first
  have index : (q.rings.nth c.cam).index = (p.rings.nth c.cam).index.map g := by
    rw [rings, same, Table.nth_upd_same]
    rfl
  obtain ⟨within, few, ⟨oldest, head, after⟩, first⟩ := h
  refine ⟨g r, ⟨within, few, ⟨g oldest, ?_, by rw [number]; exact after⟩, ?_⟩, number r, body r⟩
  · rw [index, List.head?_map, head]
    rfl
  · rw [index, List.find?_map]
    have test : (fun r : PictureRecord => atOrAfter r.number c.next) ∘ g = fun r => atOrAfter r.number c.next :=
      funext fun e => congrArg (atOrAfter · c.next) (number e)
    rw [test, first]
    rfl

theorem sends_sending {rings : Table Ring 8} {k j : Fin 8} {n : Word} {e : PictureRecord} {bound : Nat}
    (few : ∀ j e, e ∈ (rings.nth j).index → e.sends + (bound + 1) ≤ 65535)
    (he : e ∈ ((rings.upd k (Ring.sending · n (· + 1))).nth j).index) : e.sends + bound ≤ 65535 := by
  by_cases same : j = k
  · rw [same, Table.nth_upd_same] at he
    obtain ⟨d, hd, rfl⟩ := List.mem_map.1 (show e ∈ (rings.nth k).index.map _ from he)
    have := few k d hd
    split
    · dsimp only
      omega
    · omega
  · rw [Table.nth_upd_other _ _ (Ne.symm same)] at he
    have := few j e he
    omega

/-- The kind of the item a cursor makes of a picture. -/
def Cursor.kindOf (x : Fin 8) (n : Word) (c : Cursor) : ItemKind := .clipPicture c.pos c.clip x c.cam n

/-- A round over a list of cursors that each meet a published record, with places for all. -/
theorem round_makes (number : Fin 8 → Word) (l : List (Fin 8)) (distinct : l.Nodup) (p : Part)
    (able : ∀ x c, x ∈ l → p.sender.cursors.nth x = some c → ∃ r, p.Meets c r ∧ r.number = number x ∧ laterThan r.number c.outPoint = false ∧
      ∃ start len q overFlag, r.body = .published start len q overFlag)
    (room : (p.sender.queueOf .clip).length + (l.filter fun x => (p.sender.cursors.nth x).isSome).length ≤ 16)
    (few : ∀ k e, e ∈ (p.rings.nth k).index → e.sends + l.length ≤ 65535) :
    (l.foldl Part.cursorTurn p).sender.items.map (·.kind) = p.sender.items.map (·.kind) ++
      l.filterMap fun x => (p.sender.cursors.nth x).map (Cursor.kindOf x (number x)) := by
  induction l generalizing p with
  | nil => exact (List.append_nil _).symm
  | cons x rest ih =>
    obtain ⟨fresh, distinct⟩ := List.nodup_cons.1 distinct
    rw [List.foldl_cons]
    cases here : p.sender.cursors.nth x with
    | none =>
      rw [cursorTurn_none here, List.filterMap_cons_none (by rw [here]; rfl)]
      rw [List.filter_cons_of_neg (by rw [here]; decide)] at room
      exact ih distinct p (fun y c hy => able y c (List.mem_cons_of_mem _ hy)) room fun k e he => by
        have := few k e he
        rw [List.length_cons] at this
        omega
    | some c =>
      rw [List.filter_cons_of_pos (by rw [here]; rfl), List.length_cons] at room
      obtain ⟨r, meets, named, reached, start, len, q, overFlag, body⟩ := able x c List.mem_cons_self here
      have sends : r.sends < 65535 := by
        have := few c.cam r (List.mem_of_find?_eq_some meets.first)
        rw [List.length_cons] at this
        omega
      have place : (p.sender.queueOf .clip).length < 16 := by omega
      obtain ⟨it, queued, -, kind, -, -, items, rings, cursors, -⟩ := cursorMakes_says here meets reached body sends place
      have turn : p.cursorTurn x = p.cursorMakes x := by
        rw [cursorTurn_eq here, cursorPasses_stop here _ (.inr ⟨_, meets.make reached body place sends⟩)]
      rw [turn]
      have others {y : Fin 8} (hy : y ∈ rest) : (p.cursorMakes x).sender.cursors.nth y = p.sender.cursors.nth y := by
        rw [cursors, Table.nth_put_other _ _ fun same : x = y => fresh (by rw [same]; exact hy)]
      have queue : ((p.cursorMakes x).sender.queueOf .clip).length = (p.sender.queueOf .clip).length + 1 := by
        unfold Sender.queueOf
        rw [items, List.filter_append, List.length_append, List.filter_cons_of_pos (by rw [queued, kind]; rfl)]
        rfl
      have walking : (rest.filter fun y => ((p.cursorMakes x).sender.cursors.nth y).isSome) = rest.filter fun y => (p.sender.cursors.nth y).isSome :=
        List.filter_congr fun y hy => by rw [others hy]
      refine (ih distinct (p.cursorMakes x) (fun y d hy hd => ?_) (by rw [queue, walking]; omega) fun k e he => ?_).trans ?_
      · rw [others hy] at hd
        obtain ⟨r', meets', named', reached', published⟩ := able y d (List.mem_cons_of_mem _ hy) hd
        obtain ⟨r2, meets2, number2, body2⟩ := meets'.sending rings
        exact ⟨r2, meets2, number2.trans named', by rw [number2]; exact reached', by rw [body2]; exact published⟩
      · rw [rings] at he
        exact sends_sending few he
      · rw [items, List.map_append, List.append_assoc, List.filterMap_cons_some (by rw [here]; rfl)]
        have same : (rest.filterMap fun y => ((p.cursorMakes x).sender.cursors.nth y).map (Cursor.kindOf y (number y))) =
            rest.filterMap fun y => (p.sender.cursors.nth y).map (Cursor.kindOf y (number y)) :=
          filterMap_congr_mem fun y hy => by rw [others hy]
        rw [same, List.map_singleton, kind, named]
        rfl

theorem laterThan_succ (a : Word) : laterThan (a + 1) a = true := by
  simp only [laterThan, atOrAfter, Bool.and_eq_true, bne_iff_ne, decide_eq_true_eq]
  bv_omega

theorem atOrAfter_self (a : Word) : atOrAfter a a = true := by simp [atOrAfter]

/-- The distance to a number that is not passed is not 0. -/
theorem distance_ne_zero {a b : Word} (h : atOrAfter a b = false) : (b - a).toNat ≠ 0 := by
  simp only [atOrAfter, decide_eq_false_iff_not] at h
  bv_omega

theorem cursorStep_next (s : State) : exec .cursorStep s = .next (s.becomes s.part.stepCursors) := rfl

/-- The rounds after the first add their items at the end. -/
theorem firstRound_items (p : Part) :
    ((List.finRange 8).foldl Part.cursorTurn p).sender.items <+: p.stepCursors.sender.items := by
  have later := (cursorRounds_stepsTo 5 p.cursorRound).items
  unfold Part.stepCursors
  rw [Part.cursorRounds]
  generalize Part.cursorRounds 5 p.cursorRound = q at later
  unfold Part.cursorRound at later
  exact later

/-- Settles O43: what the only cursor in use makes by `stepCursors_makes`, how it ends by `stepCursors_ends`, a first round of several
by `round_makes`, and the item of a picture by `makeItem_picture`. -/
theorem aCursorMakesItsNextPicture : Obligations.ACursorMakesItsNextPicture := by
  refine ⟨?_, ?_, ?_, ?_⟩
  · intro s
    refine ⟨fun idle => next_becomes (cursorRounds_idle idle 6), ?_⟩
    intro x c oldest here solo within few head account walked makes
    have made {q : Part} {next : Word} {skipped : Nat} {r : PictureRecord} (turn : s.part.cursorTurn x = q.cursorMakes x)
        (passed : s.part.Passed x c next skipped q) (meets : q.Meets { c with next := next } r)
        (reached : laterThan r.number c.outPoint = false) : makes r skipped := fun start len q overFlag body sends room => by
      obtain ⟨it, rest⟩ := stepCursors_makes solo turn passed meets reached body sends room
      have run := cursorStep_next s
      generalize s.part.stepCursors = t at run rest
      exact ⟨_, it, run, rest⟩
    refine ⟨fun r before after later split none' _ at' reached => ?_, fun gap r before after cause later split none' gapAt body gapIn none'' gapOld
      gapNext at' reached => ?_, fun behind ahead inside => ?_⟩
    · have meets : s.part.Meets c r := ⟨within, few, ⟨oldest, head, later⟩, find_after split none' at'⟩
      refine fun start len q overFlag body sends room => made (q := s.part) ?_ (.refl here) meets reached start len q overFlag body sends room
      rw [cursorTurn_eq here, cursorPasses_stop here _ (.inr ⟨_, meets.make reached body room sends⟩)]
    · have meets : s.part.Meets c gap := ⟨within, few, ⟨oldest, head, later⟩, find_after split none' gapAt⟩
      let q := s.part.putCursor x (some { c with next := gap.number + 1 })
      have meets' : q.Meets { c with next := gap.number + 1 } r :=
        ⟨gapNext, few, ⟨oldest, head, gapOld⟩, find_after (before := before ++ [gap]) (by rw [List.append_assoc]; exact split) none'' at'⟩
      refine fun start len k overFlag body' sends room => made (q := q) ?_ (.pass _) meets' reached start len k overFlag body' sends room
      rw [cursorTurn_eq here, cursorPasses_pass here (meets.gap gapIn body),
        cursorPasses_stop (Table.nth_put_same ..) _ (.inr ⟨_, meets'.make reached body' room sends⟩)]
    · let q := (s.part.reportSend c.pos c.clip (.skipped (oldest.number - c.next).toNat)).putCursor x (some { c with next := oldest.number })
      have passed : s.part.Passed x c oldest.number (oldest.number - c.next).toNat q := .skip _ (distance_ne_zero behind)
      obtain ⟨rest, index⟩ := List.head?_eq_some_iff.1 head
      have first : (s.part.rings.nth c.cam).index.find? (fun r => atOrAfter r.number oldest.number) = some oldest :=
        find_after (before := []) index nofun (atOrAfter_self _)
      have meets : q.Meets { c with next := oldest.number } oldest :=
        Part.Meets.of_rings (p := s.part) ⟨inside, few, ⟨oldest, head, atOrAfter_self _⟩, first⟩ passed.rings
      refine fun start len k overFlag body sends room => made ?_ passed meets inside start len k overFlag body sends room
      have room' : (q.sender.queueOf .clip).length < 16 := by
        rw [passed.sender]
        exact room
      rw [cursorTurn_eq here, cursorPasses_skip here (cursorMove_behind within few head behind ahead),
        cursorPasses_stop (Table.nth_put_same ..) _ (.inr ⟨_, meets.make inside body room' sends⟩)]
  · intro s x c here solo index first ends numbers
    have ended {q : Part} {next : Word} {skipped fuel : Nat} (turn : s.part.cursorTurn x = (q.cursorPasses x (fuel + 1)).cursorMakes x)
        (passed : s.part.Passed x c next skipped q) (past : laterThan next c.outPoint = true) : ends skipped := by
      have rest := stepCursors_ends solo turn passed past
      have run := cursorStep_next s
      generalize s.part.stepCursors = t at run rest
      exact ⟨_, run, rest⟩
    have skips {n : Nat} (some' : n ≠ 0) (move : s.part.cursorMove c = .skip n (c.outPoint + 1)) : ends n := by
      refine ended (fuel := (s.part.rings.nth c.cam).index.length + 1) ?_ (.skip (c.outPoint + 1) some') (laterThan_succ _)
      exact (cursorTurn_eq here).trans (congrArg (Part.cursorMakes x) (cursorPasses_skip here move ((s.part.rings.nth c.cam).index.length + 2)))
    have passes (move : s.part.cursorMove c = .pass (c.outPoint + 1)) : ends 0 := by
      refine ended (fuel := (s.part.rings.nth c.cam).index.length + 1) ?_ (.pass (c.outPoint + 1)) (laterThan_succ _)
      exact (cursorTurn_eq here).trans (congrArg (Part.cursorMakes x) (cursorPasses_pass here move ((s.part.rings.nth c.cam).index.length + 2)))
    refine ⟨fun past => ended (cursorTurn_eq here) (.refl here) past, fun within few => ⟨fun empty => ?_, fun oldest head => ⟨fun behind short => ?_,
      fun r later found => ⟨fun past => ?_, fun cause body same => ?_⟩⟩⟩⟩
    · exact skips (Nat.succ_ne_zero _) (cursorMove_empty within few empty)
    · exact skips (Nat.succ_ne_zero _) (cursorMove_beyond within few head behind short)
    · exact passes (Part.Meets.past ⟨within, few, ⟨oldest, head, later⟩, found⟩ past)
    · have meets : s.part.Meets c r := ⟨within, few, ⟨oldest, head, later⟩, found⟩
      have at' : laterThan r.number c.outPoint = false := by
        rw [same]
        exact laterThan_self _
      refine passes ((meets.gap at' body).trans ?_)
      rw [same]
  · intro s number walking makes room few
    have first := round_makes number (List.finRange 8) (List.nodup_finRange 8) s.part (fun x c _ here => meets_of_make (makes x c here)) room
      fun k e he => by
        have := few k e he
        rw [List.length_finRange]
        omega
    obtain ⟨more, later⟩ := firstRound_items s.part
    have run := cursorStep_next s
    generalize s.part.stepCursors = t at run later
    refine ⟨_, more.map (·.kind), run, ?_⟩
    refine (congrArg (List.map (·.kind)) later.symm).trans ?_
    rw [List.map_append, first]
    refine congrArg (_ ++ · ++ _) ?_
    rw [List.filterMap_filter]
    refine filterMap_congr_mem fun x _ => ?_
    cases s.part.sender.cursors.nth x <;> rfl
  · intro p kind k n names older left queue places
    obtain ⟨left', same, made⟩ := makeItem_picture p kind k n names
    have same : left' = left := same
    subst same
    have capacity : places = kind.cls.capacity := by cases kind <;> rfl
    refine ⟨fun full => made.trans (handed_full (capacity ▸ full)), fun e start len q overFlag base size few found body sends extent => ?_⟩
    rw [made]
    refine (handed_taken names (by rw [← capacity]; exact few) found body sends).trans ?_
    have payload : (left.rings.nth k).payload start len = ⟨base + start, base, size, len⟩ := by
      unfold Ring.payload
      rw [extent]
    rw [payload]

end Sys2Proof.Machine
end

section
/-! The builds of the send engine (R138 to R141): the class and the lane that are chosen, the descriptor that is made, the reads
of a build and its end (O44). -/

namespace Sys2Proof.Machine

/-! The choices (R139, R140). -/

/-- Where the order goes by a key, the preferred one has the smallest key, and is the first of those that have it. -/
theorem preferred_least {n : Nat} {better : Fin n → Fin n → Bool} {key : Fin n → Int} (ranks : ∀ a b, better a b = true ↔ key a < key b)
    {l : List (Fin n)} (rising : l.Pairwise (· < ·)) {c : Fin n} (h : preferred better l = some c) {d : Fin n} (hd : d ∈ l) :
    key c < key d ∨ (key c = key d ∧ c ≤ d) := by
  induction l generalizing c d with
  | nil => exact nomatch hd
  | cons x rest ih =>
    obtain ⟨first, rising⟩ := List.pairwise_cons.1 rising
    rw [preferred] at h
    split at h
    · next none' =>
      obtain rfl := Option.some.inj h
      obtain rfl | hd := List.mem_cons.1 hd
      · exact .inr ⟨rfl, Fin.le_refl _⟩
      · obtain ⟨y, hy⟩ := preferred_isSome better (List.ne_nil_of_mem hd)
        exact absurd (none'.symm.trans hy) nofun
    · next y found =>
      have beats {e : Fin n} (he : e ∈ rest) := ih rising found he
      split at h
      · next wins =>
        obtain rfl := Option.some.inj h
        obtain rfl | hd := List.mem_cons.1 hd
        · exact .inl ((ranks ..).1 wins)
        · exact beats hd
      · next loses =>
        obtain rfl := Option.some.inj h
        have least : key x ≤ key y := Int.not_lt.1 (mt (ranks ..).2 loses)
        obtain rfl | hd := List.mem_cons.1 hd
        · exact .inr ⟨rfl, Fin.le_refl _⟩
        · have := first d hd
          rcases beats hd with less | ⟨same, -⟩
          · exact .inl (by omega)
          · rw [← same]
            rcases Int.lt_or_eq_of_le least with less | same
            · exact .inl less
            · exact .inr ⟨same, Fin.le_of_lt this⟩

theorem mem_busyClasses {x : Sender} {c : Fin 4} : c ∈ x.busyClasses ↔ x.queueOf (SendClass.ofIndex c) ≠ [] := by
  rw [Sender.busyClasses, List.mem_filter, Bool.not_eq_true', List.isEmpty_eq_false_iff]
  exact and_iff_right (List.mem_finRange c)

theorem busyClasses_rising (x : Sender) : x.busyClasses.Pairwise (· < ·) := (List.pairwise_lt_finRange 4).filter _

theorem eligible_iff {p : Part} {m : Fin 4} {n : Nat} : p.eligible m n = true ↔
    (p.lanes.nth m).state = .up ∧ (p.lanes.nth m).modemHold = false ∧ (p.counted m).length < 8 ∧
      p.inFlightBytes m + n ≤ 1024 * (p.lanes.nth m).cfg.window := by
  simp only [Part.eligible, Bool.and_eq_true, beq_iff_eq, Bool.not_eq_true', decide_eq_true_eq, and_assoc]
  rfl

theorem laneFor_eligible {p : Part} {n : Nat} {l : Fin 4} (h : p.laneFor n = some l) : p.eligible l n = true :=
  (List.mem_filter.1 (mem_of_preferred h)).2

theorem laneFor_least {p : Part} {n : Nat} {l : Fin 4} (h : p.laneFor n = some l) (m : Fin 4) (hm : p.eligible m n = true) :
    p.inFlightBytes l < p.inFlightBytes m ∨ (p.inFlightBytes l = p.inFlightBytes m ∧ l ≤ m) := by
  have := preferred_least (key := fun m => (p.inFlightBytes m : Int)) (fun a b => by rw [decide_eq_true_eq]; omega)
    ((List.pairwise_lt_finRange 4).filter _) h (List.mem_filter.2 ⟨List.mem_finRange m, hm⟩)
  omega

theorem laneFor_up {p : Part} {n : Nat} {l : Fin 4} (h : p.laneFor n = some l) : (p.lanes.nth l).state = .up :=
  (eligible_iff.1 (laneFor_eligible h)).1

/-- By how much a class is past its interval. -/
def Sender.excess (x : Sender) (d : Fin 4) : Int := (x.classes.nth d).wait - (x.classes.nth d).interval

theorem chooseClass_says {x : Sender} {c : Fin 4} (h : x.chooseClass = some c) :
    c ∈ x.busyClasses ∧
    ((∃ d, d ∈ x.busyClasses ∧ 0 ≤ x.excess d) → 0 ≤ x.excess c ∧
      ∀ d, d ∈ x.busyClasses → x.excess d < x.excess c ∨ (x.excess d = x.excess c ∧ c ≤ d)) ∧
    ((∀ d, d ∈ x.busyClasses → x.excess d < 0) → ∀ d, d ∈ x.busyClasses →
      (x.classes.nth c).interval < (x.classes.nth d).interval ∨ ((x.classes.nth c).interval = (x.classes.nth d).interval ∧ c ≤ d)) := by
  unfold Sender.chooseClass at h
  have late (d : Fin 4) : d ∈ (x.busyClasses.filter fun c => decide ((x.classes.nth c).interval ≤ (x.classes.nth c).wait)) ↔
      d ∈ x.busyClasses ∧ 0 ≤ x.excess d := by
    rw [List.mem_filter, decide_eq_true_eq, Sender.excess, Int.sub_nonneg, Int.ofNat_le]
  dsimp only at h
  split at h
  · next early =>
    have early (d : Fin 4) (hd : d ∈ x.busyClasses) : x.excess d < 0 := Int.not_le.1 fun past =>
      List.not_mem_nil (List.isEmpty_iff.1 early ▸ (late d).2 ⟨hd, past⟩)
    refine ⟨mem_of_preferred h, fun ⟨d, hd, past⟩ => absurd (early d hd) (Int.not_lt.2 past), fun _ d hd => ?_⟩
    have := preferred_least (key := fun d => ((x.classes.nth d).interval : Int)) (fun a b => by rw [decide_eq_true_eq]; omega)
      (busyClasses_rising x) h hd
    omega
  · obtain ⟨busy, past⟩ := (late c).1 (mem_of_preferred h)
    refine ⟨busy, fun _ => ⟨past, fun d hd => ?_⟩, fun early => absurd (early c busy) (Int.not_lt.2 past)⟩
    rcases Int.lt_or_le (x.excess d) 0 with early | overdue
    · exact .inl (by omega)
    · have := preferred_least (key := fun d => -(((x.classes.nth d).wait - (x.classes.nth d).interval : Nat) : Int))
        (fun a b => by rw [decide_eq_true_eq]; omega) ((busyClasses_rising x).filter _) h ((late d).2 ⟨hd, overdue⟩)
      unfold Sender.excess at past overdue ⊢
      omega

/-! The reads of a build and its end (R141). -/

theorem find_updated {store : List Descriptor} {n : Word} {f : Descriptor → Descriptor} (keeps : ∀ x, (f x).seq = x.seq) :
    ((store.map fun x => if x.seq = n then f x else x).find? fun x => x.seq == n) = (store.find? fun x => x.seq == n).map f := by
  have same : ((fun x : Descriptor => x.seq == n) ∘ fun x => if x.seq = n then f x else x) = fun x => x.seq == n := by
    funext x
    dsimp only [Function.comp]
    split
    · rw [keeps]
    · rfl
  rw [List.find?_map, same]
  cases found : store.find? fun x => x.seq == n with
  | none => rfl
  | some d => exact congrArg some (if_pos (beq_iff_eq.1 (List.find?_some found :)))

theorem updated_updated (n : Word) (f g : Descriptor → Descriptor) (keeps : ∀ x, (f x).seq = x.seq) (store : List Descriptor) :
    ((store.map fun x => if x.seq = n then f x else x).map fun x => if x.seq = n then g x else x) =
      store.map fun x => if x.seq = n then g (f x) else x := by
  rw [List.map_map]
  refine List.map_congr_left fun x _ => ?_
  dsimp only [Function.comp]
  split
  · next here => exact if_pos ((keeps x).trans here)
  · rfl

theorem updated_append {store : List Descriptor} {d : Descriptor} (f : Descriptor → Descriptor) (distinct : ∀ x, x ∈ store → x.seq ≠ d.seq) :
    ((store ++ [d]).map fun x => if x.seq = d.seq then f x else x) = store ++ [f d] := by
  rw [List.map_append, List.map_singleton, if_pos rfl]
  exact congrArg (· ++ [f d]) ((List.map_congr_left fun x hx => if_neg (distinct x hx)).trans (List.map_id' _))

theorem find_append {store : List Descriptor} {d : Descriptor} (distinct : ∀ x, x ∈ store → x.seq ≠ d.seq) :
    ((store ++ [d]).find? fun x => x.seq == d.seq) = some d := by
  rw [List.find?_append, List.find?_eq_none.2 fun x hx same => distinct x hx (beq_iff_eq.1 same), List.find?_singleton, beq_self_eq_true]
  rfl

section

variable {p : Part} {seq : Word} {lane : Fin 4} {reads : List (Nat × Nat)} {got : List Byte}

theorem buildNext_reads {r : Request} {cur : Nat × Nat} {left : List (Nat × Nat)} (h : nextRead reads = some (r, cur, left)) :
    p.buildNext seq lane reads got = { p with
      sender := { p.sender with build := some ⟨seq, lane, left, cur, got⟩ }, path := p.path.offering senderStream r } := by
  unfold Part.buildNext
  rw [h]
  rfl

/-- The part once a build is over, with its frame at the tail of its lane's transmit queue. -/
def Part.built (seq : Word) (lane : Fin 4) (frame : List Byte) (p : Part) : Part :=
  { p with
    sender := { p.sender with
      build := none, store := p.sender.store.map fun x => if x.seq = seq then { x with state := .queuedOnLane } else x }
    lanes := p.lanes.put lane { (p.lanes.nth lane) with queue := (p.lanes.nth lane).queue ++ [⟨.link seq, frame⟩] } }

variable {d : Descriptor} (found : (p.sender.store.find? fun x => x.seq == seq) = some d)

include found

theorem buildComplete_settled (settled : d.mark ≠ none) : p.buildComplete seq lane got =
    { p with sender := { p.sender with build := none, store := p.sender.store.filter fun x => x.seq != seq } } := by
  unfold Part.buildComplete
  dsimp only [Part.setSender]
  rw [found]
  exact if_pos (Option.isSome_iff_ne_none.2 settled)

theorem buildComplete_laneLost (unsettled : d.mark = none) (lost : (p.lanes.nth lane).state ≠ .up) : p.buildComplete seq lane got =
    { p with sender := { p.sender with
      build := none
      store := p.sender.store.map fun x => if x.seq = seq then { x with state := .waiting, lane := none } else x } } := by
  unfold Part.buildComplete
  dsimp only [Part.setSender]
  rw [found]
  dsimp only
  rw [unsettled]
  exact if_neg lost

theorem buildComplete_queues {it : Item} (unsettled : d.mark = none) (up : (p.lanes.nth lane).state = .up)
    (item : p.sender.item d.item = some it) : p.buildComplete seq lane got =
      (p.built seq lane (linkFrame p.loader.station d it.kind got)).transmitStart lane := by
  unfold Part.buildComplete
  dsimp only [Part.setSender]
  rw [found]
  dsimp only
  rw [unsettled]
  refine (if_pos up).trans ?_
  have item' : ({ p.sender with build := none } : Sender).item d.item = some it := item
  rw [item']
  rfl

end

/-- A frame that is built begins at once on an idle lane (R161). -/
theorem begins_built {p : Part} {seq : Word} {lane : Fin 4} {frame : List Byte} :
    Part.begins lane (p.built seq lane frame) ((p.built seq lane frame).transmitStart lane) := Part.begins_transmitStart ..

theorem transmitStart_path (l : Fin 4) (p : Part) : (p.transmitStart l).path = p.path := by rw [Part.transmitStart_frame]

/-- It does not matter whether the path changes before or after a transmission begins. -/
theorem begins_withPath {l : Fin 4} {p q : Part} (x : Path) (h : Part.begins l p q) : Part.begins l (p.withPath x) (q.withPath x) := by
  obtain ⟨stands, begins⟩ := h
  exact ⟨fun blocked => by rw [stands blocked], fun f rest queue up held sending breaking => by rw [begins f rest queue up held sending breaking]; rfl⟩

/-! The start of a build (R138). -/

/-- Of the send engine the states of the descriptors alone have changed, and what is in work. -/
def Part.Restates (p q : Part) : Prop :=
  q.sender.classes = p.sender.classes ∧ q.sender.seq = p.sender.seq ∧
    ∃ g : Descriptor → Descriptor, q.sender.store = p.sender.store.map g ∧ ∀ x, ∃ y, g x = { x with state := y }

theorem Part.Restates.of_store {p q : Part} (classes : q.sender.classes = p.sender.classes) (seq : q.sender.seq = p.sender.seq)
    (store : q.sender.store = p.sender.store) : p.Restates q :=
  ⟨classes, seq, id, store.trans (List.map_id _).symm, fun x => ⟨x.state, rfl⟩⟩

theorem Part.Restates.of_updDesc {p q : Part} {n : Word} {y : DescState} (classes : q.sender.classes = p.sender.classes)
    (seq : q.sender.seq = p.sender.seq)
    (store : q.sender.store = p.sender.store.map fun x => if x.seq = n then { x with state := y } else x) : p.Restates q :=
  ⟨classes, seq, _, store, fun x => by split <;> exact ⟨_, rfl⟩⟩

theorem Part.Restates.trans {p q r : Part} (h : p.Restates q) (k : q.Restates r) : p.Restates r := by
  obtain ⟨classes, seq, g, store, states⟩ := h
  obtain ⟨classes', seq', g', store', states'⟩ := k
  refine ⟨classes'.trans classes, seq'.trans seq, g' ∘ g, by rw [store', store, List.map_map], fun x => ?_⟩
  obtain ⟨y, hy⟩ := states x
  obtain ⟨z, hz⟩ := states' (g x)
  exact ⟨z, by rw [Function.comp, hz, hy]⟩

theorem transmitStart_restates (l : Fin 4) (p : Part) : p.Restates (p.transmitStart l) := by
  unfold Part.transmitStart
  dsimp only
  split
  · exact .of_store rfl rfl rfl
  · split
    · split
      · exact .of_updDesc rfl rfl rfl
      · exact .of_store rfl rfl rfl
    · exact .of_store rfl rfl rfl

section

variable {p : Part}

theorem startBuild_busy (h : p.sender.build ≠ none) : p.startBuild = p := if_pos (Option.isSome_iff_ne_none.2 h)

/-- The descriptor of the next fragment of an item, bound to a lane. -/
def Part.freshDescriptor (c : Fin 4) (it : Item) (l : Fin 4) (p : Part) : Descriptor :=
  { seq := p.sender.seq, item := it.id, cls := it.kind.cls, fragment := it.dispatched, fragments := it.fragments
    spans := it.fragmentSpans it.dispatched, held := it.fragmentHeld it.dispatched
    frameLength := it.fragmentLength it.dispatched + 32, lane := some l, state := .building, mark := none, dispatches := 1
    expiry := p.now + 3000000 * (p.sender.classes.nth c).hold, noResend := false }

/-- The part with a new frame granted to a class: the wait counts, the item's dispatched count and its descriptor (R139, R141). -/
def Part.granted (c : Fin 4) (it : Item) (d : Descriptor) (p : Part) : Part :=
  { p with sender := { p.sender with
    items := p.sender.items.map fun x =>
      if x.id = it.id then { x with dispatched := x.dispatched + 1, queued := decide (it.dispatched + 1 < x.fragments) } else x
    classes := Table.make fun e =>
      let r := p.sender.classes.nth e
      if e = c then { r with wait := 0 }
      else if p.sender.queueOf (SendClass.ofIndex e) ≠ [] then { r with wait := count r.wait } else r
    store := p.sender.store ++ [d]
    seq := p.sender.seq + 1 } }

theorem classGranted_classes (c : Fin 4) : (p.classGranted c).sender.classes = Table.make fun e =>
    let r := p.sender.classes.nth e
    if e = c then { r with wait := 0 }
    else if p.sender.queueOf (SendClass.ofIndex e) ≠ [] then { r with wait := count r.wait } else r :=
  congrArg Table.make (funext fun _ => ite_congr_iff .rfl rfl (ite_congr_iff mem_busyClasses rfl rfl))

theorem startFragment_eq (c : Fin 4) (it : Item) (l : Fin 4) : p.startFragment c it l =
    (p.granted c it (p.freshDescriptor c it l)).buildNext p.sender.seq l (it.fragmentSpans it.dispatched) (it.fragmentHeld it.dispatched) := by
  have expiry : p.now + ((p.classGranted c).sender.classes.nth c).hold * Config.ms = p.now + 3000000 * (p.sender.classes.nth c).hold := by
    rw [classGranted_classes, Table.nth_make, Nat.mul_comm]
    dsimp only
    rw [if_pos rfl]
    rfl
  unfold Part.startFragment Part.granted Part.freshDescriptor
  rw [← classGranted_classes, ← expiry]
  rfl

section

variable (idle : p.sender.build = none)

include idle

section

variable {d : Descriptor} {rest : List Descriptor} (waiting : p.sender.redispatch = d :: rest)

include waiting

theorem startBuild_waits (lane : p.laneFor d.frameLength = none) : p.startBuild = p := by
  unfold Part.startBuild
  rw [idle, waiting]
  dsimp only
  rw [lane]
  rfl

theorem startBuild_again {l : Fin 4} (lane : p.laneFor d.frameLength = some l) : p.startBuild = p.startRedispatch d l := by
  unfold Part.startBuild
  rw [idle, waiting]
  dsimp only
  rw [lane]
  rfl

end

variable (fresh : p.sender.redispatch = [])

include fresh

theorem startBuild_nothing (h : 512 ≤ p.sender.store.length ∨ p.sender.chooseClass = none) : p.startBuild = p := by
  unfold Part.startBuild
  rw [idle, fresh]
  obtain full | none' := h
  · exact if_neg (Nat.not_lt.2 full)
  · rw [none']
    exact ite_self _

variable (room : p.sender.store.length < 512) {c : Fin 4} {it : Item} {queue : List Item} (cls : p.sender.chooseClass = some c)
  (queued : p.sender.queueOf (SendClass.ofIndex c) = it :: queue)

include room cls queued

theorem startBuild_noLane (lane : p.laneFor (it.fragmentLength it.dispatched + 32) = none) : p.startBuild = p := by
  unfold Part.startBuild
  rw [idle, fresh, cls]
  refine (if_pos room).trans ?_
  rw [queued]
  dsimp only [List.head?]
  have lane : p.laneFor (it.fragmentLength it.dispatched + Config.frameOverhead) = none := lane
  rw [lane]

theorem startBuild_fragment {l : Fin 4} (lane : p.laneFor (it.fragmentLength it.dispatched + 32) = some l) :
    p.startBuild = p.startFragment c it l := by
  unfold Part.startBuild
  rw [idle, fresh, cls]
  refine (if_pos room).trans ?_
  rw [queued]
  dsimp only [List.head?]
  have lane : p.laneFor (it.fragmentLength it.dispatched + Config.frameOverhead) = some l := lane
  rw [lane]

end

end

/-! The first frame of a fragment. -/

section

variable {p : Part} {c l : Fin 4} {it : Item}

theorem item_granted (d : Descriptor) : (p.granted c it d).sender.item it.id = (p.sender.item it.id).map fun x =>
    { x with dispatched := x.dispatched + 1, queued := decide (it.dispatched + 1 < x.fragments) } := by
  unfold Sender.item Part.granted
  dsimp only
  rw [List.find?_map]
  have same : ((fun x : Item => x.id == it.id) ∘ fun x =>
      if x.id = it.id then { x with dispatched := x.dispatched + 1, queued := decide (it.dispatched + 1 < x.fragments) } else x) =
        fun x => x.id == it.id := by
    funext x
    dsimp only [Function.comp]
    split <;> rfl
  rw [same]
  cases found : p.sender.items.find? fun x => x.id == it.id with
  | none => rfl
  | some y => exact congrArg some (if_pos (beq_iff_eq.1 (List.find?_some found :)))

variable (distinct : ∀ x, x ∈ p.sender.store → x.seq ≠ p.sender.seq) (up : (p.lanes.nth l).state = .up)

include distinct up

/-- A fragment that needs no read is built at once. -/
theorem startFragment_label {i : Item} (spans : it.fragmentSpans it.dispatched = []) (item : p.sender.item it.id = some i) :
    p.startFragment c it l = ((p.granted c it (p.freshDescriptor c it l)).built p.sender.seq l
      (linkFrame p.loader.station (p.freshDescriptor c it l) i.kind (it.fragmentHeld it.dispatched))).transmitStart l := by
  have queued := buildComplete_queues (p := p.granted c it (p.freshDescriptor c it l)) (lane := l) (got := it.fragmentHeld it.dispatched)
    (find_append (d := p.freshDescriptor c it l) distinct) rfl up ((item_granted _).trans (congrArg _ item))
  refine (startFragment_eq c it l).trans (.trans ?_ queued)
  rw [spans]
  rfl

/-- Whether its read is offered or its frame is built, the descriptor stands in the store. -/
theorem startFragment_restates (mem : it ∈ p.sender.items) :
    (p.granted c it (p.freshDescriptor c it l)).Restates (p.startFragment c it l) := by
  cases reads : nextRead (it.fragmentSpans it.dispatched) with
  | some x =>
    rw [startFragment_eq, buildNext_reads reads]
    exact .of_store rfl rfl rfl
  | none =>
    have spans : it.fragmentSpans it.dispatched = [] := by
      cases h : it.fragmentSpans it.dispatched with
      | nil => rfl
      | cons x rest => exact absurd ((congrArg nextRead h).symm.trans reads) nofun
    obtain ⟨i, item⟩ := Option.isSome_iff_exists.1 (List.find?_isSome (p := fun x : Item => x.id == it.id).2 ⟨it, mem, beq_self_eq_true it.id⟩)
    rw [startFragment_label distinct up spans item]
    exact Part.Restates.trans (q := (p.granted c it (p.freshDescriptor c it l)).built p.sender.seq l _) (.of_updDesc rfl rfl rfl)
      (transmitStart_restates ..)

end

/-! The layout of a frame (12.5). -/

theorem linkFrame_eq (station : Nat) (d : Descriptor) (kind : ItemKind) (fragment : List Byte) :
    linkFrame station d kind fragment = [0xC3, 0x3C] ++ (leBytes 1 0 ++ leBytes 1 d.cls.index.val ++ leBytes 1 station ++
        leBytes 1 d.dispatches ++ leBytes 2 fragment.length ++ leBytes 4 d.seq.toNat ++ leBytes 2 d.fragment ++ leBytes 2 d.fragments ++
        itemIdentity kind ++ fragment) ++
      leBytes 4 (crc (leBytes 1 0 ++ leBytes 1 d.cls.index.val ++ leBytes 1 station ++ leBytes 1 d.dispatches ++
        leBytes 2 fragment.length ++ leBytes 4 d.seq.toNat ++ leBytes 2 d.fragment ++ leBytes 2 d.fragments ++
        itemIdentity kind ++ fragment)).toNat := by
  rw [linkFrame, sealFrame, List.append_assoc [0xC3, 0x3C]]
  rfl

/-- Settles O44: the start of a build by its cases, the choices by `chooseClass_says` and `laneFor_least`, the reads and the end of a
build by `buildNext`, and the layout of a frame kind by kind. -/
theorem aBuildStartsOnTheChosenClassAndLane : Obligations.ABuildStartsOnTheChosenClassAndLane := by
  refine ⟨?_, ⟨?_, ?_, ?_, ?_⟩, ?_, ?_⟩
  · intro s
    have run {q : Part} (h : s.part.startBuild = q) : exec .buildStart s = .next (s.becomes q) := next_becomes h
    refine ⟨fun busy => run (startBuild_busy busy), fun d rest idle waiting => ⟨fun lane => run (startBuild_waits idle waiting lane), ?_, ?_⟩,
      fun c it queue idle fresh room cls queued lane => run (startBuild_noLane idle fresh room cls queued lane), ?_, ?_, fun it k => ?_,
      fun ⟨idle, fresh, nothing⟩ => run (startBuild_nothing idle fresh nothing)⟩
    · exact fun l r cur left lane reads => run ((startBuild_again idle waiting lane).trans (buildNext_reads reads))
    · intro l it lane spans item found
      let p := s.part.updDesc d.seq fun x => { x with state := .building, lane := some l }
      let frame := linkFrame s.part.loader.station d it.kind d.held
      have waits : d.state = .waiting ∧ d.mark = none := by
        simpa using (List.mem_filter.1 (waiting ▸ List.mem_cons_self .. : d ∈ s.part.sender.redispatch)).2
      have found' : (p.sender.store.find? fun x => x.seq == d.seq) = some { d with state := .building, lane := some l } :=
        (find_updated (f := fun x => { x with state := .building, lane := some l }) fun _ => rfl).trans (congrArg _ found)
      have complete : p.buildComplete d.seq l d.held = (p.built d.seq l frame).transmitStart l :=
        buildComplete_queues found' waits.2 (laneFor_up (p := s.part) lane) item
      have again : s.part.startRedispatch d l = p.buildComplete d.seq l d.held := by
        unfold Part.startRedispatch
        rw [spans]
        rfl
      refine ⟨_, run ((startBuild_again idle waiting lane).trans (again.trans complete)), ?_⟩
      have built : p.built d.seq l frame = _ := congrArg (fun store : List Descriptor => { s.part with
        sender := { s.part.sender with store := store, build := none }
        lanes := s.part.lanes.put l { (s.part.lanes.nth l) with queue := (s.part.lanes.nth l).queue ++ [(⟨.link d.seq, frame⟩ : TxFrame)] } })
          (updated_updated d.seq (fun x => { x with state := .building, lane := some l }) (fun x => { x with state := .queuedOnLane })
            (fun _ => rfl) s.part.sender.store)
      exact built ▸ begins_built
    · intro c it queue l idle fresh room distinct cls queued lane
      have mem : it ∈ s.part.sender.items := (mem_queueOf.1 (queued ▸ List.mem_cons_self .. : it ∈ s.part.sender.queueOf _)).1
      obtain ⟨classes, seq, g, store, states⟩ := startFragment_restates (c := c) distinct (laneFor_up lane) mem
      let d := s.part.freshDescriptor c it l
      have seqs (x : Descriptor) : (g x).seq = x.seq := by
        obtain ⟨y, hy⟩ := states x
        rw [hy]
      obtain ⟨y, hy⟩ := states d
      refine ⟨_, g d, run (startBuild_fragment idle fresh room cls queued lane), ?_, seq, ?_, seqs d, ?_⟩
      · refine (congrArg (List.map (·.seq)) store).trans ?_
        rw [List.map_map]
        exact (List.map_congr_left fun x _ => seqs x).trans (List.map_append ..)
      · refine (congrArg (g d ∈ ·) store).mpr (List.mem_map_of_mem ?_)
        exact List.mem_append_right _ (List.mem_singleton_self _)
      · rw [hy]
        refine ⟨rfl, rfl, rfl, rfl, rfl, rfl, ?_, fun e other busy => ?_⟩
        · refine (congrArg (fun t : Table ClassRecord 4 => (t.nth c).wait) classes).trans ?_
          dsimp only [Part.granted]
          rw [Table.nth_make, if_pos rfl]
        · refine (congrArg (fun t : Table ClassRecord 4 => (t.nth e).wait) classes).trans ?_
          dsimp only [Part.granted]
          rw [Table.nth_make, if_neg other, if_pos busy]
    · intro c it queue l idle fresh room cls queued lane k d started
      have ran : s.part.startBuild = s.part.startFragment c it l := startBuild_fragment idle fresh room cls queued lane
      refine ⟨fun r cur left reads => run (ran.trans ((startFragment_eq c it l).trans (buildNext_reads reads))), fun spans item distinct => ?_⟩
      refine ⟨_, run (ran.trans (startFragment_label distinct (laneFor_up lane) spans item)), ?_⟩
      have built : (s.part.granted c it d).built d.seq l _ = _ := congrArg (fun store : List Descriptor => { s.part with
        sender := { started d none with store := store }
        lanes := s.part.lanes.put l { (s.part.lanes.nth l) with queue := (s.part.lanes.nth l).queue ++
          [(⟨.link d.seq, linkFrame s.part.loader.station d it.kind d.held⟩ : TxFrame)] } })
          (updated_append (d := d) (fun x => { x with state := .queuedOnLane }) distinct)
      exact built ▸ begins_built
    · refine ⟨rfl, fun pos clip snapshot label => ?_, fun other => ?_⟩
      · unfold Item.fragmentSpans Item.fragmentHeld
        rw [label]
        exact ⟨rfl, rfl⟩
      · show it.fragmentHeld k = [] ∧ it.fragmentSpans k = _
        unfold Item.fragmentSpans Item.fragmentHeld
        cases kind : it.kind with
        | label pos clip snapshot => exact absurd kind (other pos clip snapshot)
        | audioFrame | livePicture | clipPicture => exact ⟨rfl, rfl⟩
  · exact fun x c busy => x.chooseClass_some c busy
  · exact fun p n m => ⟨eligible_iff, p.laneFor_some n m⟩
  · intro x c chosen
    obtain ⟨busy, late, early⟩ := chooseClass_says chosen
    simp only [mem_busyClasses] at busy late early
    exact ⟨busy, late, early⟩
  · intro p n l chosen
    obtain ⟨up, free, few, window⟩ := eligible_iff.1 (laneFor_eligible chosen)
    exact ⟨up, free, few, window, laneFor_least chosen⟩
  · intro s dt q b channel building got ends store lane
    have ran := exec_streamTransfer (dt := dt) (i := senderStream) (q := q) channel
    let p := (s.part.after dt).freeChannel
    have ended {x : Part} (t : p.buildNext b.seq b.lane b.reads got = x) (free : x.path.channel = .free) :
        exec (.transferComplete dt) s = .next { s with dram := moved s.dram q q.line, part := x.withPath x.path.freed } := by
      have done : p.streamDone senderStream (s.returned q.kind q.line q.count) = x := by
        refine .trans ?_ t
        change p.senderTransfer _ = _
        unfold Part.senderTransfer
        have building : p.sender.build = some b := building
        rw [building]
        rfl
      rw [ran, ← afterTransfer_of_free free, ← done]
    refine ⟨fun r cur left reads => ⟨_, ended (buildNext_reads reads) rfl, rfl⟩, fun d none' found => ?_⟩
    have complete : p.buildNext b.seq b.lane b.reads got = p.buildComplete b.seq b.lane got := by
      unfold Part.buildNext
      rw [none']
      rfl
    refine ⟨fun settled => ⟨_, ended (complete.trans (buildComplete_settled found settled)) rfl, rfl⟩, fun unsettled lost =>
      ⟨_, ended (complete.trans (buildComplete_laneLost found unsettled lost)) rfl, rfl⟩, fun it unsettled up item => ?_⟩
    refine ⟨_, ended (complete.trans (buildComplete_queues (p := p) found unsettled up item)) ?_, ?_⟩
    all_goals generalize frame' : linkFrame p.loader.station d it.kind got = frame
    all_goals have path : ((p.built b.seq b.lane frame).transmitStart b.lane).path = p.path :=
      transmitStart_path ..
    · rw [path]
      rfl
    · rw [path]
      subst frame'
      exact begins_withPath p.path.freed (begins_built (p := p))
  · intro station d kind fragment identity covered
    have same : itemIdentity kind = identity := by cases kind <;> rfl
    have code : d.cls.index.val = match d.cls with | .audio => 0 | .live => 1 | .label => 2 | .clip => 3 := by cases d.cls <;> rfl
    refine (linkFrame_eq station d kind fragment).trans ?_
    rw [same, code] <;> rfl

end Sys2Proof.Machine
end

section
/-! The loss of a picture (R51, R56, R57, R89): the slot, its work, its ring record and a write held for it; with them the take of
a job (O28). -/

namespace Sys2Proof.Machine

/-! Slots. -/

section

variable (c : Camera) (i : SlotId) (d e : Slot)

theorem slot_putSlot : (c.putSlot i d).slot i = d := by cases i <;> rfl

theorem putSlot_putSlot : (c.putSlot i d).putSlot i e = c.putSlot i e := by cases i <;> rfl

/-- A slot start does not depend on what the slot held. -/
theorem begun_putSlot (t : Timecode) (block : Word) : (c.putSlot i d).begun i t block = c.begun i t block := by cases i <;> rfl

theorem startSlot_eq (t : Timecode) (block : Word) : c.applyPending.startSlot i t block = c.begun i t block := by
  obtain ⟨state, cfg, counter, carried, pending, slotA, slotB, held, counts⟩ := c
  cases pending <;> cases i <;> rfl

end

/-- What the TALLY lines show depends on the cameras' states and live-send flags alone. -/
theorem tallied_congr {a b : Table Camera 8} (same : ∀ k, (a.nth k).state = (b.nth k).state ∧ (a.nth k).cfg.live = (b.nth k).cfg.live)
    (cues : Table CueLine 8) : tallied a cues = tallied b cues := by
  refine Table.ext_nth fun l => ?_
  rw [tallied_nth, tallied_nth]
  simp only [(same _).1, (same _).2]

/-! A slot start and a held write (R47, R51). -/

section

variable (k : Fin 8) (i : SlotId) (p : Part)

/-- The camera table once a slot start is taken. -/
def Part.beginning (p : Part) (k : Fin 8) (i : SlotId) (c : Camera) : Table Camera 8 :=
  p.cameras.put k (c.begun i p.clock.timecode p.clock.blockNumber)

theorem takeSlotStart_eq : p.takeSlotStart k i = { p with
    cameras := p.beginning k i (p.cameras.nth k), cues := tallied (p.beginning k i (p.cameras.nth k)) p.cues } := by
  rw [Part.takeSlotStart, tally_eq]
  unfold Part.updCamera Table.upd Part.beginning
  rw [← startSlot_eq]
  rfl

theorem offerHeld_eq {port : Fin 6} {a : Admitted} {others : List Admitted} (tracked : Bool)
    (queue : (p.path.ports.nth port).queue = a :: others) : p.offerHeld port tracked = p.withPath (p.path.putPort port
      { (p.path.ports.nth port) with queue := { a with phase := .offered, tracked := tracked } :: others }) := by
  unfold Part.offerHeld Part.updPort Table.upd Port.updHead
  dsimp only
  rw [queue]
  rfl

variable {k i p}

theorem slotDone_free (none' : ∀ w, (p.cameras.nth k).held = some w → w.slot ≠ i) : p.slotDone k i =
    p.setCameras (p.cameras.put k ((p.cameras.nth k).putSlot i { ((p.cameras.nth k).slot i) with state := .done })) := by
  have held : ∀ d, ((p.cameras.nth k).putSlot i d).held = (p.cameras.nth k).held := fun d => by cases i <;> rfl
  unfold Part.slotDone Part.updSlot Part.updCamera Table.upd
  dsimp only [Part.setCameras]
  rw [Table.nth_put_same, held]
  split
  · next w found => exact if_neg (none' w found)
  · rfl

theorem slotDone_releases {w : HeldWrite} (held : (p.cameras.nth k).held = some w) (slot : w.slot = i) : p.slotDone k i =
    Part.offerHeld w.port true { p with
      cameras := p.beginning k i { (p.cameras.nth k) with held := none }
      cues := tallied (p.beginning k i { (p.cameras.nth k) with held := none }) p.cues } := by
  have held' : ∀ d, ((p.cameras.nth k).putSlot i d).held = (p.cameras.nth k).held := fun d => by cases i <;> rfl
  have free (d : Slot) : { ((p.cameras.nth k).putSlot i d) with held := none } = ({ (p.cameras.nth k) with held := none } : Camera).putSlot i d := by
    cases i <;> rfl
  unfold Part.slotDone Part.updSlot Part.updCamera Table.upd
  dsimp only [Part.setCameras]
  rw [Table.nth_put_same, held', held]
  refine (if_pos slot).trans ?_
  rw [takeSlotStart_eq]
  unfold Part.dropHeld Part.updCamera Table.upd Part.beginning
  dsimp only [Part.setCameras]
  rw [Table.nth_put_same, Table.put_put, Table.nth_put_same, Table.put_put, free, begun_putSlot]

end

/-! The work of a picture (R57). -/

/-- The coder with the queued jobs and the rate-control record of a picture gone. -/
def Coder.without (k : Fin 8) (i : SlotId) (n : Word) (x : Coder) : Coder := { x with
  queue := x.queue.filter fun y => decide (y.cam ≠ k ∨ y.slot ≠ i ∨ y.number ≠ n)
  rates := if (x.rates.nth k).any fun r => r.number == n then x.rates.put k none else x.rates }

theorem mem_without {k : Fin 8} {i : SlotId} {n : Word} {x : Coder} {y : BandJob} :
    y ∈ (x.without k i n).queue ↔ y ∈ x.queue ∧ ¬ y.of k i n := by
  unfold Coder.without BandJob.of
  rw [List.mem_filter, decide_eq_true_eq, Classical.not_and_iff_not_or_not, Classical.not_and_iff_not_or_not]

theorem queue_without (k : Fin 8) (i : SlotId) (n : Word) (l : List BandJob) :
    (l.filter fun j => !(j.cam == k && j.slot == i && j.number == n)) = l.filter fun y => decide (y.cam ≠ k ∨ y.slot ≠ i ∨ y.number ≠ n) :=
  List.filter_congr fun y _ => by
    rw [Bool.eq_iff_iff, Bool.not_eq_true', ← Bool.not_eq_true, decide_eq_true_eq]
    simp only [Bool.and_eq_true, beq_iff_eq, Classical.not_and_iff_not_or_not, or_assoc, ne_eq]

theorem dropWork_free {k : Fin 8} {i : SlotId} {n : Word} {p : Part} (free : ∀ run, p.coder.job = some run → ¬ run.job.of k i n) :
    p.dropWork k i n = p.setCoder (p.coder.without k i n) := by
  unfold Part.dropWork Coder.without
  rw [queue_without]
  dsimp only [Part.setCoder]
  rcases running : p.coder.job with _ | run
  case' some =>
    have apart : ¬ (run.job.cam = k ∧ run.job.slot = i ∧ run.job.number = n) := free run running
    dsimp only
    rw [if_neg apart]
  all_goals
    dsimp only
    split
    · next r found =>
      have found : p.coder.rates.nth k = some r := found
      rw [found, Option.any_some]
      by_cases same : r.number = n
      · rw [if_pos same, if_pos (beq_iff_eq.2 same)]
      · rw [if_neg same, if_neg (mt beq_iff_eq.1 same)]
    · next found =>
      have found : p.coder.rates.nth k = none := found
      rw [found]
      rfl

/-! The ring record of a picture (R89). -/

/-- The settlement of a picture counts it lost. -/
def Ring.loses (cause : SettleCause) (r : Ring) (st : Stamp) : Bool := (r.find st.number).isNone && (cause == .lost || !r.appendable st.number)

/-- A ring once a picture is settled with a cause, LOST included. -/
def Ring.settling (cause : SettleCause) (r : Ring) (st : Stamp) : Ring :=
  match cause with
  | .gap g => r.settled g st
  | .lost => if (r.find st.number).isNone then { r with lost := count r.lost } else r

theorem appendable_eq (r : Ring) (n : Word) : r.appendable n = true ↔
    r.index.length < 4096 ∧ (r.index.getLast?.all fun x => laterThan n x.number) = true := by
  unfold Ring.appendable
  rw [Bool.and_eq_true, decide_eq_true_eq]
  refine and_congr_right fun _ => ?_
  cases r.index.getLast? <;> rfl

section

variable {r : Ring} {st : Stamp} {cause : SettleCause}

/-- The settlement of a picture cuts nothing. -/
theorem settling_cut : (r.settling cause st).cut = r.cut := by
  unfold Ring.settling Ring.settled
  (repeat' split) <;> rfl

variable (none' : r.find st.number = none)

include none'

theorem settling_appends {g : GapCause} (place : r.appendable st.number = true) : r.settling (.gap g) st =
    { r with index := r.index ++ [⟨st.number, st.timecode, st.block, .gap g, 0, 0⟩] } := by
  unfold Ring.settling Ring.settled
  dsimp only
  rw [none']
  exact if_pos ((appendable_eq ..).1 place)

theorem settling_loses (lost : cause = .lost ∨ r.appendable st.number = false) :
    r.settling cause st = { r with lost := count r.lost } ∧ r.loses cause st = true := by
  unfold Ring.settling Ring.settled Ring.loses
  rw [none']
  cases cause with
  | lost => exact ⟨rfl, rfl⟩
  | gap g =>
    have full := lost.resolve_left nofun
    rw [full]
    exact ⟨if_neg (mt (appendable_eq ..).2 (Bool.eq_false_iff.1 full)), rfl⟩

end

theorem settlePicture_eq (k : Fin 8) (st : Stamp) (cause : SettleCause) (p : Part) : p.settlePicture k st cause = { p with
    rings := p.rings.put k ((p.rings.nth k).settling cause st)
    cmd := if (p.rings.nth k).loses cause st then p.cmd.raised (.ring, k.val) else p.cmd } := by
  have stands : p = { p with rings := p.rings.put k (p.rings.nth k), cmd := p.cmd } := by rw [Table.put_nth]
  unfold Part.settlePicture Ring.settling Ring.loses
  cases found : (p.rings.nth k).find st.number with
  | some r =>
    cases cause with
    | lost => exact stands
    | gap g =>
      dsimp only
      unfold Ring.settled
      rw [found]
      obtain ⟨number, timecode, block, body, pins, sends⟩ := r
      cases body with
      | opening start len =>
        rw [rollBack_rings found rfl]
        rfl
      | published => exact stands
      | gap => exact stands
  | none =>
    cases cause with
    | lost =>
      exact raise_eq ..
    | gap g =>
      dsimp only
      unfold Ring.settled
      rw [found]
      dsimp only
      by_cases place : (p.rings.nth k).appendable st.number = true
      · rw [if_pos place, if_pos ((appendable_eq ..).1 place), place]
        rfl
      · rw [if_neg place, if_neg (mt (appendable_eq ..).2 place), Bool.eq_false_iff.2 place]
        exact raise_eq ..

/-! The abandonment of a picture (R57). -/

section

variable {k : Fin 8} {i : SlotId} {n : Word} {cause : SettleCause} {p : Part}

/-- The slot holds a picture that is not abandoned. -/
def Slot.keeps (d : Slot) (n : Word) : Prop := ∃ st, d.stamp = some st ∧ st.number = n ∧ d.abandoned = false

theorem abandon_gone (gone : ¬ ((p.cameras.nth k).slot i).keeps n) : p.abandon k i n cause = p := by
  unfold Part.abandon
  dsimp only
  split
  · rfl
  · next st stamped =>
    refine if_pos (Decidable.not_not.1 fun still => gone ⟨st, stamped, ?_⟩)
    rw [not_or] at still
    exact ⟨Decidable.not_not.1 still.1, by simpa using still.2⟩

/-- The part once a picture that a slot holds is marked abandoned, its work gone and its ring record settled. -/
def Part.losing (k : Fin 8) (i : SlotId) (st : Stamp) (cause : SettleCause) (p : Part) : Part := { p with
  cameras := p.cameras.put k ((p.cameras.nth k).putSlot i { ((p.cameras.nth k).slot i) with abandoned := true })
  coder := p.coder.without k i st.number
  rings := p.rings.put k ((p.rings.nth k).settling cause st)
  cmd := if (p.rings.nth k).loses cause st then p.cmd.raised (.ring, k.val) else p.cmd }

variable {st : Stamp} (stamped : ((p.cameras.nth k).slot i).stamp = some st) (named : st.number = n)
  (kept : ((p.cameras.nth k).slot i).abandoned = false) (free : ∀ run, p.coder.job = some run → ¬ run.job.of k i n)
  (other : cause ≠ .gap .queueFull)

include stamped named kept free other

theorem abandon_eq : p.abandon k i n cause = Part.countCamera k (fun x => { x with abandoned := count x.abandoned })
    (if ((p.cameras.nth k).slot i).state = .coding then (p.losing k i st cause).slotDone k i else p.losing k i st cause) := by
  unfold Part.abandon
  dsimp only
  rw [stamped]
  dsimp only
  rw [if_neg (by simp [named, kept]), if_neg other]
  have lost : ((p.updSlot k i fun s => { s with abandoned := true }).dropWork k i n).settlePicture k st cause = p.losing k i st cause := by
    rw [dropWork_free (p := p.updSlot k i fun s => { s with abandoned := true }) free, settlePicture_eq, ← named]
    rfl
  rw [lost]

/-- The camera with one more abandoned picture. -/
def Camera.abandoning (c : Camera) : Camera := { c with counts := { c.counts with abandoned := count c.counts.abandoned } }

theorem abandon_ends (stays : ((p.cameras.nth k).slot i).state ≠ .coding ∨ ∀ w, (p.cameras.nth k).held = some w → w.slot ≠ i) :
    p.abandon k i n cause = { (p.losing k i st cause) with
      cameras := p.cameras.put k (((p.cameras.nth k).putSlot i { ((p.cameras.nth k).slot i) with
        abandoned := true
        state := if ((p.cameras.nth k).slot i).state = .coding then .done else ((p.cameras.nth k).slot i).state }).abandoning) } := by
  have camera : (p.losing k i st cause).cameras.nth k =
      (p.cameras.nth k).putSlot i { ((p.cameras.nth k).slot i) with abandoned := true } := Table.nth_put_same ..
  have held (d : Slot) : ((p.cameras.nth k).putSlot i d).held = (p.cameras.nth k).held := by cases i <;> rfl
  rw [abandon_eq stamped named kept free other]
  by_cases coding : ((p.cameras.nth k).slot i).state = .coding
  · have none' : ∀ w, ((p.losing k i st cause).cameras.nth k).held = some w → w.slot ≠ i := by
      rw [camera, held]
      exact stays.resolve_left (not_not_intro coding)
    rw [if_pos coding, if_pos coding, slotDone_free none', camera, slot_putSlot, putSlot_putSlot]
    unfold Part.losing Part.countCamera Part.updCamera Table.upd
    dsimp only [Part.setCameras]
    rw [Table.put_put, Table.nth_put_same, Table.put_put]
    rfl
  · rw [if_neg coding, if_neg coding]
    unfold Part.losing Part.countCamera Part.updCamera Table.upd
    dsimp only [Part.setCameras]
    rw [Table.nth_put_same, Table.put_put]
    rfl

theorem abandon_releases {w : HeldWrite} (coding : ((p.cameras.nth k).slot i).state = .coding) (held : (p.cameras.nth k).held = some w)
    (slot : w.slot = i) :
    let taken := p.cameras.put k (({ (p.cameras.nth k) with held := none } : Camera).begun i p.clock.timecode p.clock.blockNumber).abandoning
    p.abandon k i n cause = Part.offerHeld w.port true { (p.losing k i st cause) with cameras := taken, cues := tallied taken p.cues } := by
  intro taken
  have camera : (p.losing k i st cause).cameras.nth k =
      (p.cameras.nth k).putSlot i { ((p.cameras.nth k).slot i) with abandoned := true } := Table.nth_put_same ..
  have held' (d : Slot) : ((p.cameras.nth k).putSlot i d).held = (p.cameras.nth k).held := by cases i <;> rfl
  have free' (d : Slot) : { ((p.cameras.nth k).putSlot i d) with held := none } = ({ (p.cameras.nth k) with held := none } : Camera).putSlot i d := by
    cases i <;> rfl
  have begins : (p.losing k i st cause).beginning k i { ((p.losing k i st cause).cameras.nth k) with held := none } =
      p.beginning k i { (p.cameras.nth k) with held := none } := by
    unfold Part.beginning
    rw [camera, free', begun_putSlot]
    exact Table.put_put ..
  have cues : tallied (p.beginning k i { (p.cameras.nth k) with held := none }) p.cues = tallied taken p.cues := by
    refine tallied_congr (fun j => ?_) _
    unfold Part.beginning taken
    rw [Table.nth_put, Table.nth_put]
    split <;> exact ⟨rfl, rfl⟩
  rw [abandon_eq stamped named kept free other, if_pos coding, slotDone_releases (by rw [camera, held', held]) slot, begins]
  have cues' : tallied (p.beginning k i { (p.cameras.nth k) with held := none }) (p.losing k i st cause).cues = tallied taken p.cues := cues
  rw [cues']
  unfold Part.countCamera Part.updCamera Part.offerHeld Part.updPort Table.upd Part.beginning
  dsimp only [Part.setCameras, Part.setPath]
  rw [Table.nth_put_same, Table.put_put]
  rfl

/-- What an abandonment makes of the part in any case, whether or not a held write is released. -/
theorem abandon_says :
    let q := p.abandon k i n cause
    q.coder = p.coder.without k i n ∧ q.rings = p.rings.put k ((p.rings.nth k).settling cause st) ∧
      q.cmd = (if (p.rings.nth k).loses cause st then p.cmd.raised (.ring, k.val) else p.cmd) ∧
      (q.cameras.nth k).counts.abandoned = count (p.cameras.nth k).counts.abandoned := by
  intro q
  by_cases stays : ((p.cameras.nth k).slot i).state ≠ .coding ∨ ∀ w, (p.cameras.nth k).held = some w → w.slot ≠ i
  · have ends : q = _ := abandon_ends stamped named kept free other stays
    rw [ends, ← named]
    refine ⟨rfl, rfl, rfl, ?_⟩
    dsimp only
    rw [Table.nth_put_same]
    cases i <;> rfl
  · obtain ⟨coding, w, held, slot⟩ : ((p.cameras.nth k).slot i).state = .coding ∧ ∃ w, (p.cameras.nth k).held = some w ∧ w.slot = i := by
      simpa using stays
    have releases : q = _ := abandon_releases stamped named kept free other coding held slot
    rw [releases, ← named]
    refine ⟨rfl, rfl, rfl, ?_⟩
    refine (congrArg (fun c : Camera => c.counts.abandoned) (Table.nth_put_same ..)).trans ?_
    cases i <;> rfl

end

section

variable {k : Fin 8} {i : SlotId} {n : Word} {cause : SettleCause} {p : Part} (free : ∀ run, p.coder.job = some run → ¬ run.job.of k i n)
  (other : cause ≠ .gap .queueFull)

include free other

/-- Of the coder at most the queued jobs and the rate-control record of the picture go. -/
theorem abandon_coder : (p.abandon k i n cause).coder = p.coder ∨ (p.abandon k i n cause).coder = p.coder.without k i n := by
  by_cases here : ((p.cameras.nth k).slot i).keeps n
  · obtain ⟨st, stamped, named, kept⟩ := here
    exact .inr (abandon_says stamped named kept free other).1
  · left
    rw [abandon_gone here]

end

end Sys2Proof.Machine
end

section
/-! The take of a job by the idle coder (O28). -/

namespace Sys2Proof.Machine

/-! An open changes neither the cameras nor the path nor the coder. -/

theorem appendOpening_clipsTo (k : Fin 8) (st : Stamp) (n : Nat) (p : Part) :
    let q := (p.appendOpening k st n).2
    q.path = p.path ∧ q.cameras = p.cameras ∧ q.coder = p.coder := by
  intro q
  have closed := forceCloses_clipsTo k st.number p
  have same : q = _ := (appendOpening_says k st n p).2
  generalize p.forceCloses k st.number = x at closed same
  rw [same]
  exact ⟨closed.path, closed.cameras, closed.coder⟩

theorem openPicture_keeps {k : Fin 8} {st : Stamp} {n : Nat} {p q : Part} {x : OpenResult} (h : p.openPicture k st n = (x, q)) :
    q.path = p.path ∧ q.cameras = p.cameras ∧ q.coder = p.coder := by
  have told (gone kept : List PictureRecord) : ((p.taking k).retiring k gone kept).path = p.path ∧
      ((p.taking k).retiring k gone kept).cameras = p.cameras ∧ ((p.taking k).retiring k gone kept).coder = p.coder := by
    have told := told_clipsTo k gone p
    rw [taking_retiring]
    exact ⟨told.path, told.cameras, told.coder⟩
  have leaves {y : OpenResult} {z : Part} (came : p.openPicture k st n = (y, z))
      (same : z.path = p.path ∧ z.cameras = p.cameras ∧ z.coder = p.coder) : q.path = p.path ∧ q.cameras = p.cameras ∧ q.coder = p.coder := by
    rw [(Prod.mk.inj (h.symm.trans came)).2]
    exact same
  rw [openPicture_eq] at leaves
  by_cases order : ∀ x, (p.ringTaken k).index.getLast? = some x → laterThan st.number x.number = true
  · rw [if_pos order] at leaves
    obtain lost | ⟨gone, kept, -, -, cut | ⟨opens, -⟩⟩ := openPlaced_cases k st n p
    · exact leaves lost ⟨rfl, rfl, rfl⟩
    · refine leaves cut ?_
      rw [Part.countCut, raise_eq]
      have told := told_clipsTo k gone p
      exact ⟨told.path, told.cameras, told.coder⟩
    · obtain ⟨path, cameras, coder⟩ := appendOpening_clipsTo k st n ((p.taking k).retiring k gone kept)
      obtain ⟨path', cameras', coder'⟩ := told gone kept
      exact leaves opens ⟨path.trans path', cameras.trans cameras', coder.trans coder'⟩
  · rw [if_neg order] at leaves
    exact leaves rfl ⟨rfl, rfl, rfl⟩

/-! The layout of the preliminary header (12.3). -/

theorem preliminaryHeader_eq (cam : Fin 8) (r : RateRecord) (timecode : Timecode) (block : Word) :
    pictureHeader false cam r timecode block 0 0 false [] = [0] ++ leBytes 1 cam.val ++ leBytes 1 r.bandCount ++ leBytes 1 r.tiles ++
      leBytes 4 r.number.toNat ++ timecode.bytes ++ leBytes 4 block.toNat ++ leBytes 4 r.budget ++ zeros 4 ++ [0, 0] ++ zeros 38 ++
      zeros (8 * r.bandCount) := by
  unfold pictureHeader
  refine congr (congrArg _ ?_) ?_
  · rfl
  · exact (congrArg (· ++ _) List.take_nil)

theorem startWrites_some {p : Part} {run : JobRun} {writes left : List (Nat × List Byte)} {r : Request} (h : nextWrite writes = some (r, left)) :
    p.startWrites run writes = { p with
      coder := { p.coder with job := some { run with writes := left } }, path := p.path.offering coderStream r } := by
  unfold Part.startWrites
  rw [h]
  rfl

theorem nextWrite_ring (base size o : Nat) (bs : List Byte) : ∃ r left, nextWrite (ringWrites base size o bs) = some (r, left) := by
  unfold ringWrites
  split <;> exact ⟨_, _, rfl⟩

/-- The read of a span that begins at a line. -/
theorem nextRead_line {a len : Nat} (line : a % 64 = 0) (whole : len % 64 = 0) : nextRead [(a, len)] =
    some (⟨.read, a / 64, min len 256 / 64, []⟩, (a, min len 256), if len ≤ 256 then [] else [(a + 256, len - 256)]) := by
  have size : chunk a len = min len 256 := by rw [chunk, Config.lineBytes, line]
  unfold nextRead
  dsimp only
  rw [size]
  unfold readRequest unitsOf
  rw [Config.lineBytes, line]
  congr 2
  · congr 1
    omega
  · congr 1
    by_cases few : len ≤ 256
    · rw [if_pos few, if_pos (by omega)]
    · rw [if_neg few, if_neg (by omega), Nat.min_eq_right (by omega)]

/-- The rate-control record of a picture whose job has been taken up. -/
def Camera.firstRecord (c : Camera) (j : BandJob) (st : Stamp) : RateRecord :=
  ⟨j.number, j.slot, st.budget, c.cfg.lines / 16, c.cfg.tiles, 64 + 8 * (c.cfg.lines / 16), 0, c.carried, [], false⟩

theorem startPicture_eq {p : Part} {j : BandJob} {st : Stamp} {start : Nat} {c : Camera} (camera : p.cameras.nth j.cam = c)
    {r : Request} {left : List (Nat × List Byte)}
    (writes : nextWrite (ringWrites (p.rings.nth j.cam).base (p.rings.nth j.cam).size start
      (pictureHeader false j.cam (c.firstRecord j st) st.timecode st.block 0 0 false [])) = some (r, left)) :
    p.startPicture j st start = { p with
      coder := { p.coder with
        rates := p.coder.rates.put j.cam (some (c.firstRecord j st))
        job := some ⟨j, .header, bandTarget (c.firstRecord j st) 0, c.carried, none, none, false, [], left⟩ }
      path := p.path.offering coderStream r } := by
  subst camera
  exact startWrites_some writes

/-- The job begins to read its band at a line. -/
theorem startReading_line {p : Part} {j : JobRun} {a len : Nat} (span : p.bandSpan j.job = (a, len)) (line : a % 64 = 0)
    (whole : len % 64 = 0) : p.startReading j = { p with
      coder := { p.coder with job := some { j with
        phase := .reading, reads := if len ≤ 256 then [] else [(a + 256, len - 256)], writes := [] } }
      path := p.path.offering coderStream ⟨.read, a / 64, min len 256 / 64, []⟩ } := by
  unfold Part.startReading
  rw [span, nextRead_line line whole]
  rfl

theorem bandSpan_eq (p : Part) (j : BandJob) : p.bandSpan j = ((p.path.windows.nth (p.cameras.nth j.cam).cfg.frameWin).base +
    (match j.slot with | .a => 0 | .b => (p.cameras.nth j.cam).cfg.lines * (p.cameras.nth j.cam).cfg.stride) +
      j.band * (16 * (p.cameras.nth j.cam).cfg.stride), 16 * (p.cameras.nth j.cam).cfg.stride) := by
  cases slot : j.slot <;> simp only [Part.bandSpan, Part.slotBase, slot] <;> rfl

/-! The take. -/

/-- The rate-control record of another picture stands. -/
theorem without_other {k : Fin 8} {i : SlotId} {n : Word} {x : Coder} {r : RateRecord} (rated : x.rates.nth k = some r) (apart : r.number ≠ n) :
    x.without k i n = { x with queue := x.queue.filter fun y => decide (y.cam ≠ k ∨ y.slot ≠ i ∨ y.number ≠ n) } := by
  unfold Coder.without
  rw [rated, Option.any_some, if_neg (mt beq_iff_eq.1 apart)]

section

variable {p : Part} {j : BandJob} {rest : List BandJob} {r : RateRecord}

/-- The part with a job taken off the band queue. -/
def Part.dequeued (rest : List BandJob) (p : Part) : Part := { p with coder := { p.coder with queue := rest } }

theorem takeJob_none (h : p.coder.job ≠ none ∨ p.coder.queue = []) : p.takeJob = p := by
  unfold Part.takeJob
  split
  · next idle queue => exact absurd h (by simp [idle, queue])
  · rfl

variable (idle : p.coder.job = none) (queue : p.coder.queue = j :: rest)

include idle queue

theorem takeJob_first (first : j.band = 0) : p.takeJob = (p.dequeued rest).takeFirstBand j := by
  unfold Part.takeJob
  rw [idle, queue]
  exact if_pos first

theorem takeJob_later (later : j.band ≠ 0) (rated : p.coder.rates.nth j.cam = some r) : p.takeJob = (p.dequeued rest).startReading
    ⟨j, .reading, bandTarget r j.band, r.quantizer, none, none, false, [], []⟩ := by
  unfold Part.takeJob
  rw [idle, queue]
  refine (if_neg later).trans ?_
  unfold Part.takeLaterBand
  dsimp only [Part.setCoder]
  rw [rated]
  rfl

end

section

variable {p : Part} {j : BandJob} {r : RateRecord} {st : Stamp}

theorem takeFirstBand_overlapped (rated : p.coder.rates.nth j.cam = some r) : p.takeFirstBand j =
    Part.raise .hold j.cam.val ((p.abandon j.cam j.slot j.number .lost).updCoderCounts j.cam fun c =>
      { c with overlapped := count c.overlapped }) := by
  unfold Part.takeFirstBand
  rw [rated]

variable (unrated : p.coder.rates.nth j.cam = none) (stamped : ((p.cameras.nth j.cam).slot j.slot).stamp = some st)

include unrated stamped

theorem takeFirstBand_opened {start : Nat} {q : Part}
    (opened : p.openPicture j.cam st (64 + 8 * ((p.cameras.nth j.cam).cfg.lines / 16)) = (.opened start, q)) :
    p.takeFirstBand j = q.startPicture j st start := by
  have opened : p.openPicture j.cam st (headerSize (p.cameras.nth j.cam).cfg.bandCount) = (.opened start, q) := opened
  unfold Part.takeFirstBand
  rw [unrated, stamped]
  dsimp only
  rw [opened]

theorem takeFirstBand_failed {cause : SettleCause} {q : Part}
    (failed : p.openPicture j.cam st (64 + 8 * ((p.cameras.nth j.cam).cfg.lines / 16)) = (.failed cause, q)) :
    p.takeFirstBand j = (q.abandon j.cam j.slot j.number cause).updCoderCounts j.cam fun c =>
      { c with failedOpens := count c.failedOpens } := by
  have failed : p.openPicture j.cam st (headerSize (p.cameras.nth j.cam).cfg.bandCount) = (.failed cause, q) := failed
  unfold Part.takeFirstBand
  rw [unrated, stamped]
  dsimp only
  rw [failed]

end

/-- Settles O28: the take by the band of the job; what an abandoned picture's loss makes of the part is `abandon_ends` and
`abandon_releases`, what a failed open has made of it stands in O32. -/
theorem theIdleCoderTakesTheOldestJob : Obligations.TheIdleCoderTakesTheOldestJob := by
  intro s
  have run {q : Part} (h : s.part.takeJob = q) : exec .jobTake s = .next (s.becomes q) := next_becomes h
  refine ⟨fun none' => run (takeJob_none none'), ?_, ?_, ?_, ?_⟩
  · intro j rest r idle queue later rated c first wide stride line
    refine run ((takeJob_later idle queue later rated).trans ?_)
    exact startReading_line (bandSpan_eq (s.part.dequeued rest) j) line (by omega)
  · intro j rest r idle queue first rated apart
    have taken : s.part.takeJob = _ := (takeJob_first idle queue first).trans (takeFirstBand_overlapped (p := s.part.dequeued rest) rated)
    have free : ∀ run, (s.part.dequeued rest).coder.job = some run → ¬ run.job.of j.cam j.slot j.number :=
      fun run running => absurd (idle.symm.trans running) nofun
    refine ⟨⟨_, run taken, ?_⟩, ?_⟩
    · have coder : ∃ queue, ((s.part.dequeued rest).abandon j.cam j.slot j.number .lost).coder = { s.part.coder with queue := queue } := by
        obtain same | same := abandon_coder (cause := .lost) free nofun
        · exact ⟨rest, same⟩
        · exact ⟨_, same.trans (without_other (x := (s.part.dequeued rest).coder) rated apart)⟩
      obtain ⟨queue', coder⟩ := coder
      rw [raise_eq]
      refine ⟨?_, ?_, ?_, (mem_raised ..).2 (.inl rfl)⟩
      all_goals dsimp only [Part.setCmd, Part.updCoderCounts, Part.setCoder]
      · rw [coder]
        exact idle
      · rw [coder]
        exact rated
      · rw [coder]
        exact congrArg CoderCounters.overlapped (Table.nth_upd_same ..)
    · intro k i c d ring here left counted overlapped lost
      have lost_eq (st : Stamp) (named : st.number = j.number) : lost = { s.part with
          rings := s.part.rings.put k (ring.settling .lost st)
          cmd := if ring.loses .lost st then s.part.cmd.raised (.ring, k.val) else s.part.cmd } := by
        unfold lost Ring.settling Ring.loses
        dsimp only
        rw [named]
        cases ring.find j.number with
        | none => exact raise_eq ..
        | some e => exact congrArg s.part.setRings (Table.put_nth ..).symm
      refine ⟨fun gone => run (taken.trans (congrArg (Part.raise .hold k.val) ?_)),
        fun ⟨st, stamped, named, kept⟩ stays => run (taken.trans (congrArg (Part.raise .hold k.val) ?_)),
        fun w a others ⟨st, stamped, named, kept⟩ coding held slot port => ?_⟩
      · rw [abandon_gone (p := s.part.dequeued rest) gone]
        rfl
      · rw [lost_eq st named]
        have ends := abandon_ends (p := s.part.dequeued rest) (cause := .lost) stamped named kept free nofun stays
        have coder := without_other (i := i) (x := (s.part.dequeued rest).coder) rated apart
        rw [ends]
        unfold Part.losing
        rw [named, coder]
        rfl
      · intro taken'
        refine run (taken.trans (congrArg (Part.raise .hold k.val) ?_))
        rw [lost_eq st named]
        have releases := abandon_releases (p := s.part.dequeued rest) (cause := .lost) stamped named kept free nofun coding held slot
        have coder := without_other (i := i) (x := (s.part.dequeued rest).coder) rated apart
        rw [releases, offerHeld_eq (a := a) (others := others)]
        · unfold Part.losing
          rw [named, coder]
          rfl
        · exact port
  · intro j rest st start p idle queue first unrated stamped opened c bands record ring header
    obtain ⟨path, cameras, coder⟩ := openPicture_keeps opened
    have camera : p.cameras.nth j.cam = c := congrArg (fun t : Table Camera 8 => t.nth j.cam) cameras
    obtain ⟨r, left, writes⟩ := nextWrite_ring ring.base ring.size start header
    refine ⟨r, left, writes, coder, path, cameras, run ?_⟩
    refine (takeJob_first idle queue first).trans ((takeFirstBand_opened (p := s.part.dequeued rest) unrated stamped opened).trans ?_)
    have header' : pictureHeader false j.cam (c.firstRecord j st) st.timecode st.block 0 0 false [] = header := preliminaryHeader_eq ..
    rw [startPicture_eq camera (header'.symm ▸ writes), coder, path]
    rfl
  · intro j rest st cause p k c d idle queue first unrated stamped named kept failed
    obtain ⟨-, -, failures, -⟩ := ringRoomIsMadeAndGivenBack
    obtain ⟨gone, -, -, ring, notices, other, -, -, path, cameras, coder⟩ := failures _ _ _ _ _ _ failed
    have taken : s.part.takeJob = _ :=
      (takeJob_first idle queue first).trans (takeFirstBand_failed (p := s.part.dequeued rest) unrated stamped failed)
    have which : cause = .lost ∨ cause = .gap .cut :=
      (Decidable.em (cause = .gap .cut)).elim .inr fun h => .inl (other h).1
    have notFull : cause ≠ .gap .queueFull := by rintro rfl; exact which.elim nofun nofun
    have camera : p.cameras.nth k = c := congrArg (fun t : Table Camera 8 => t.nth k) cameras
    have idle' : p.coder.job = none := (congrArg Coder.job coder).trans idle
    have free : ∀ run, p.coder.job = some run → ¬ run.job.of k j.slot j.number := fun run running => absurd (idle'.symm.trans running) nofun
    have stamped : ((p.cameras.nth k).slot j.slot).stamp = some st := (congrArg (fun x : Camera => (x.slot j.slot).stamp) camera).trans stamped
    have kept : ((p.cameras.nth k).slot j.slot).abandoned = false := (congrArg (fun x : Camera => (x.slot j.slot).abandoned) camera).trans kept
    obtain ⟨coder', rings', cmd', abandoned⟩ := abandon_says (i := j.slot) stamped named kept free notFull
    have ends := abandon_ends (i := j.slot) stamped named kept free notFull
    generalize p.abandon k j.slot j.number cause = q at coder' rings' cmd' abandoned ends taken
    have settled : q.rings.nth k = (p.rings.nth k).settling cause st := by rw [rings', Table.nth_put_same]
    have raised {x : Cause × Nat} (h : x ∈ p.cmd.notices) : x ∈ q.cmd.notices := by
      rw [cmd']
      split
      · exact (mem_raised ..).2 (.inr h)
      · exact h
    have slot (stays : d.state ≠ .coding ∨ ∀ w, c.held = some w → w.slot ≠ j.slot) :
        (q.cameras.nth k).slot j.slot = { d with abandoned := true, state := if d.state = .coding then .done else d.state } := by
      rw [camera] at ends
      rw [ends stays]
      refine (congrArg (fun x : Camera => x.slot j.slot) (Table.nth_put_same ..)).trans ?_
      have same (x : Camera) : x.abandoning.slot j.slot = x.slot j.slot := by cases j.slot <;> rfl
      exact (same _).trans (slot_putSlot ..)
    refine ⟨_, run taken, rfl, which, ?_, ?_, ?_, fun x => ?_, abandoned.trans (by rw [camera]), fun filling => ?_, fun coding none' => ?_,
      ?_, fun cut => raised (notices cut), fun absent => ⟨fun cut place => ?_, fun lost => ?_⟩⟩
    · exact (congrArg Coder.job coder').trans idle'
    · refine (congrArg (fun x : Coder => x.rates.nth k) coder').trans ?_
      have none' : p.coder.rates.nth k = none := (congrArg (fun x : Coder => x.rates.nth k) coder).trans unrated
      unfold Coder.without
      rw [none']
      exact none'
    · refine (congrArg CoderCounters.failedOpens (Table.nth_upd_same ..)).trans ?_
      have before : p.coder.counts = s.part.coder.counts := (congrArg Coder.counts coder :)
      have counts : q.coder.counts = s.part.coder.counts := (congrArg Coder.counts coder').trans before
      rw [counts]
    · refine (congrArg (fun y : Coder => x ∈ y.queue) coder').to_iff.trans (mem_without.trans ?_)
      rw [coder]
    · refine (slot (.inl (by rw [filling]; exact nofun))).trans ?_
      rw [filling]
      rfl
    · refine (slot (.inr none')).trans ?_
      rw [coding]
      rfl
    · refine (congrArg Ring.cut settled).trans (settling_cut.trans ?_)
      rw [ring]
    · exact settled.trans (by rw [cut]; exact settling_appends absent place)
    · obtain ⟨same, loses⟩ := settling_loses absent lost
      refine ⟨settled.trans same, ?_⟩
      show _ ∈ q.cmd.notices
      rw [cmd', if_pos loses]
      exact (mem_raised ..).2 (.inl rfl)

end Sys2Proof.Machine
end

section
/-! The coded event: a band is placed, or its picture is cut (O30). -/

namespace Sys2Proof.Machine

/-! Records that change. -/

theorem find_updRecord {r : Ring} {n : Word} {f : PictureRecord → PictureRecord} (keeps : ∀ e, (f e).number = e.number) (m : Word) :
    (r.updRecord n f).find m = (r.find m).map fun e => if e.number = n then f e else e := by
  unfold Ring.updRecord Ring.find
  dsimp only
  rw [List.find?_map]
  congr 2
  funext e
  dsimp only [Function.comp]
  split
  · rw [keeps]
  · rfl

theorem find_number {r : Ring} {n : Word} {e : PictureRecord} (found : r.find n = some e) : e.number = n :=
  beq_iff_eq.1 (List.find?_some found :)

/-- A roll-back changes the ring alone, and cuts nothing by itself. -/
theorem rollBack_keeps (k : Fin 8) (n : Word) (g : GapCause) (p : Part) :
    ∃ x : Ring, p.rollBack k n g = p.setRings (p.rings.put k x) ∧ x.cut = (p.rings.nth k).cut := by
  unfold Part.rollBack
  split
  · exact ⟨_, rfl, rfl⟩
  · exact ⟨_, (congrArg p.setRings (Table.put_nth ..)).symm, rfl⟩

/-! The layout of a coded band and of the final header (12.3). -/

theorem codedBand_eq (j : BandJob) (quantizer tiles : Nat) (coded : List (List Byte)) : codedBand j quantizer tiles coded =
    leBytes 1 j.cam.val ++ leBytes 1 j.band ++ leBytes 1 quantizer ++ leBytes 1 tiles ++ leBytes 4 j.number.toNat ++
      leBytes 4 (16 + coded.flatten.length) ++ zeros 4 ++ coded.flatten := rfl

theorem finalHeader_eq (cam : Fin 8) (r : RateRecord) (timecode : Timecode) (block : Word) (total quantizer : Nat) (overFlag : Bool)
    (bands : List (Nat × Nat)) : pictureHeader true cam r timecode block total quantizer overFlag bands =
      [1] ++ leBytes 1 cam.val ++ leBytes 1 r.bandCount ++ leBytes 1 r.tiles ++ leBytes 4 r.number.toNat ++ timecode.bytes ++
        leBytes 4 block.toNat ++ leBytes 4 r.budget ++ leBytes 4 total ++ leBytes 1 quantizer ++ [boolCode overFlag] ++ zeros 38 ++
        padTo (8 * r.bandCount) (bands.flatMap fun x => leBytes 4 x.1 ++ leBytes 1 x.2 ++ zeros 3) := rfl

theorem nextWrite_ring_append (base size o : Nat) (bs : List Byte) (more : List (Nat × List Byte)) :
    ∃ r left, nextWrite (ringWrites base size o bs ++ more) = some (r, left) := by
  unfold ringWrites
  split <;> exact ⟨_, _, rfl⟩

/-! The coded event. -/

section

variable {p : Part} {j : JobRun} {tiles : List (List Byte)} (job : p.coder.job = some j) (coding : j.phase = .coding)

include job coding

theorem codedEvent_discarded (gone : j.discarded = true) : p.codedEvent tiles = p.endDiscarded j := by
  unfold Part.codedEvent
  rw [job]
  exact (if_pos coding).trans (if_pos gone)

theorem codedEvent_places (going : j.discarded = false) {r : RateRecord} (rated : p.coder.rates.nth j.job.cam = some r)
    (count' : tiles.length = r.tiles) (each : ∀ t, t ∈ tiles → 16 ≤ t.length ∧ t.length % 16 = 0)
    (bound : 16 + tiles.flatten.length ≤ 16 * (p.cameras.nth j.job.cam).cfg.stride + 16 * (r.tiles + 1)) :
    p.codedEvent tiles = p.placeBand j r tiles := by
  have allowed : r.allows (p.cameras.nth j.job.cam).cfg.bandSize tiles = true := by
    unfold RateRecord.allows
    rw [Bool.and_eq_true, Bool.and_eq_true, beq_iff_eq, List.all_eq_true, decide_eq_true_eq]
    exact ⟨⟨count', fun t ht => by simpa using each t ht⟩, bound⟩
  unfold Part.codedEvent
  rw [job]
  refine (if_pos coding).trans ((if_neg (by rw [going]; exact Bool.false_ne_true)).trans ?_)
  rw [rated]
  exact if_pos allowed

end

section

variable {p q : Part} {j : JobRun} {r : RateRecord} {tiles : List (List Byte)}

/-- A record with a band's bytes added to it, while it is OPENING (R87). -/
def PictureRecord.longer (s : Nat) (e : PictureRecord) : PictureRecord :=
  match e.body with
  | .opening start len => { e with body := .opening start (len + s) }
  | _ => e

/-- The ring of a camera with a band's room reserved at its write point (R87). -/
def Ring.reserving (n : Word) (s : Nat) (x : Ring) : Ring :=
  { (x.updRecord n (PictureRecord.longer s)) with writePoint := (x.writePoint + s) % x.size, used := x.used + s }

/-- The part with room reserved for a band. -/
def Part.reserved (k : Fin 8) (n : Word) (s : Nat) (p : Part) : Part := p.setRings (p.rings.put k ((p.rings.nth k).reserving n s))

theorem placeBand_room (room : p.makeRoom j.job.cam (16 + tiles.flatten.length) = (true, q)) : p.placeBand j r tiles =
    (q.reserved j.job.cam j.job.number (16 + tiles.flatten.length)).startWrites
      { j with phase := .writing, size := some (16 + tiles.flatten.length), place := some (q.rings.nth j.job.cam).writePoint }
      (ringWrites (q.rings.nth j.job.cam).base (q.rings.nth j.job.cam).size (q.rings.nth j.job.cam).writePoint
        (codedBand j.job j.quantizer r.tiles tiles) ++
        (q.reserved j.job.cam j.job.number (16 + tiles.flatten.length)).finalHeader j r (16 + tiles.flatten.length)) := by
  have ring : (q.reserved j.job.cam j.job.number (16 + tiles.flatten.length)).rings.nth j.job.cam =
      (q.rings.nth j.job.cam).reserving j.job.number (16 + tiles.flatten.length) := Table.nth_put_same ..
  unfold Part.placeBand
  dsimp only
  rw [room]
  refine Eq.trans (b := Part.startWrites _ (ringWrites ((q.reserved j.job.cam j.job.number (16 + tiles.flatten.length)).rings.nth j.job.cam).base
    ((q.reserved j.job.cam j.job.number (16 + tiles.flatten.length)).rings.nth j.job.cam).size _ _ ++ _) _) rfl ?_
  rw [ring]
  rfl

theorem placeBand_cut (room : p.makeRoom j.job.cam (16 + tiles.flatten.length) = (false, q)) : p.placeBand j r tiles =
    (((q.cutPicture j.job.cam j.job.number).setJob none).abandon j.job.cam j.job.slot j.job.number (.gap .cut)).updCoderCounts j.job.cam
      fun c => { c with cutBands := count c.cutBands } := by
  unfold Part.placeBand
  dsimp only
  rw [room]

end

theorem find_reserving (n : Word) (s : Nat) (x : Ring) : (x.reserving n s).find n = (x.find n).map (PictureRecord.longer s) := by
  have keeps (e : PictureRecord) : (e.longer s).number = e.number := by
    unfold PictureRecord.longer
    split <;> rfl
  refine (find_updRecord (r := x) keeps n).trans ?_
  cases found : x.find n with
  | none => rfl
  | some e => exact congrArg some (if_pos (find_number found))

section

variable {q : Part} {j : JobRun} {r : RateRecord} {s : Nat}

theorem finalHeader_none (h : j.job.band + 1 ≠ r.bandCount ∨
    ∀ e start len, (q.rings.nth j.job.cam).find j.job.number = some e → e.body ≠ .opening start len) :
    (q.reserved j.job.cam j.job.number s).finalHeader j r s = [] := by
  have ring : (q.reserved j.job.cam j.job.number s).rings.nth j.job.cam = (q.rings.nth j.job.cam).reserving j.job.number s :=
    Table.nth_put_same ..
  unfold Part.finalHeader
  split
  · next last =>
    dsimp only
    rw [ring, find_reserving]
    cases found : (q.rings.nth j.job.cam).find j.job.number with
    | none => rfl
    | some e =>
      have apart := h.resolve_left (not_not_intro last) e
      obtain ⟨number, timecode, block, body, pins, sends⟩ := e
      cases body with
      | opening start len => exact absurd rfl (apart start len found)
      | published => rfl
      | gap => rfl
  · rfl

theorem finalHeader_some (last : j.job.band + 1 = r.bandCount) {e : PictureRecord} {start len : Nat}
    (found : (q.rings.nth j.job.cam).find j.job.number = some e) (opening : e.body = .opening start len) :
    (q.reserved j.job.cam j.job.number s).finalHeader j r s =
      ringWrites (q.rings.nth j.job.cam).base (q.rings.nth j.job.cam).size start
        (pictureHeader true j.job.cam r e.timecode e.block (r.header + (r.spent + s)) (nextQuantizer j.quantizer j.target s)
          (r.overFlag || decide (r.budget < r.header + (r.spent + s))) (r.bands ++ [(s, j.quantizer)])) := by
  have ring : (q.reserved j.job.cam j.job.number s).rings.nth j.job.cam = (q.rings.nth j.job.cam).reserving j.job.number s :=
    Table.nth_put_same ..
  obtain ⟨number, timecode, block, body, pins, sends⟩ := e
  obtain rfl : body = .opening start len := opening
  unfold Part.finalHeader
  rw [if_pos last]
  dsimp only
  rw [ring, find_reserving, found]
  rfl

end

/-! A cut (R69, R88). -/

theorem cutPicture_eq (k : Fin 8) (n : Word) (p : Part) : p.cutPicture k n =
    { (p.rollBack k n .cut) with
      rings := (p.rollBack k n .cut).rings.upd k fun r => { r with cut := count r.cut }
      cmd := (p.rollBack k n .cut).cmd.raised (.ring, k.val) } := by
  unfold Part.cutPicture Part.countCut
  rw [raise_eq]
  rfl

/-- The ring with an OPENING record cut (R69, R88). -/
def Ring.cutting (n : Word) (start len : Nat) (r : Ring) : Ring :=
  { (r.updRecord n fun e => { e with body := .gap .cut, pins := 0 }) with
    writePoint := start, used := r.used - len, cut := count r.cut }

theorem cutPicture_opening {k : Fin 8} {n : Word} {p : Part} {e : PictureRecord} {start len : Nat}
    (found : (p.rings.nth k).find n = some e) (opening : e.body = .opening start len) : p.cutPicture k n =
    Part.raise .ring k.val (p.setRings (p.rings.put k ((p.rings.nth k).cutting n start len))) := by
  unfold Part.cutPicture Part.countCut
  rw [rollBack_rings found opening]
  unfold Part.updRing Table.upd
  dsimp only [Part.setRings]
  rw [Table.nth_put_same, Table.put_put]
  rfl

/-- The record of a cut picture is a GAP, which a settlement leaves alone. -/
theorem settling_cutting {r : Ring} {n : Word} {e : PictureRecord} {start len : Nat} {g : GapCause} {st : Stamp} (found : r.find n = some e)
    (named : st.number = n) : (r.cutting n start len).settling (.gap g) st = r.cutting n start len ∧
      (r.cutting n start len).loses (.gap g) st = false := by
  have gone : (r.cutting n start len).find st.number = some { e with body := .gap .cut, pins := 0 } := by
    refine (find_updRecord (r := r) (f := fun e => { e with body := .gap .cut, pins := 0 }) (fun _ => rfl) st.number).trans ?_
    rw [named, found]
    exact congrArg some (if_pos (find_number found))
  unfold Ring.settling Ring.settled Ring.loses
  rw [gone]
  exact ⟨rfl, rfl⟩

end Sys2Proof.Machine
end

section
/-! The coded event of a job, by what room could be made (O30). -/

namespace Sys2Proof.Machine

theorem retirementReaches_cues (k : Fin 8) (n : Word) (pos : Fin 128) (p : Part) : (p.retirementReaches k n pos).cues = p.cues := by
  have lost (q : Part) : (q.loseClip pos).cues = q.cues := by
    rw [Part.loseClip, Part.clipEvent, raise_eq]
    rfl
  unfold Part.retirementReaches
  split
  · rfl
  · dsimp only
    split
    · have passed : ∀ b : Bool, (if b then p else p.editClip pos fun c => { c with passed := c.passed ||| BitVec.ofNat 8 (2 ^ k.val) }).cues =
          p.cues := by
        intro b
        cases b <;> rfl
      split
      · exact (lost _).trans (passed _)
      · exact passed _
    · rfl

theorem foldl_cues {α : Type} {f : Part → α → Part} (keeps : ∀ p a, (f p a).cues = p.cues) (l : List α) (p : Part) :
    (l.foldl f p).cues = p.cues := by
  induction l generalizing p with
  | nil => rfl
  | cons a rest ih => exact (ih (f p a)).trans (keeps p a)

theorem reportRetirement_cues (k : Fin 8) (n : Word) (p : Part) : (p.reportRetirement k n).cues = p.cues :=
  foldl_cues (f := fun p pos => p.retirementReaches k n pos) (fun p pos => retirementReaches_cues k n pos p) _ p

/-- What a retirement tells the clip controller does not reach the cue lines. -/
theorem told_cues (k : Fin 8) (gone : List PictureRecord) (p : Part) : (p.told k gone).cues = p.cues := by
  induction gone generalizing p with
  | nil => rfl
  | cons e rest ih =>
    rw [Part.told_cons]
    exact (ih _).trans (reportRetirement_cues ..)

/-- Making room changes neither the cameras nor the path nor the coder, nor what the cue lines show. -/
theorem makeRoom_keeps {p q : Part} {k : Fin 8} {n : Nat} {ok : Bool} (h : p.makeRoom k n = (ok, q)) :
    q.coder = p.coder ∧ q.path = p.path ∧ q.cameras = p.cameras ∧ q.cues = p.cues ∧ q.clock = p.clock := by
  obtain ⟨gone, kept, -, -, rfl, -⟩ := makeRoom_retiring h
  have told := told_clipsTo k gone p
  have clock : (p.told k gone).clock = p.clock := by rw [told.rest]
  exact ⟨told.coder, told.path, told.cameras, told_cues k gone p, clock⟩

section

variable {s : State} {dt : Nat} {tiles : List (List Byte)} {j : JobRun}

theorem placed_runs {p q : Part} {r : RateRecord} {writes left : List (Nat × List Byte)} {x : Request}
    (room : q.makeRoom j.job.cam (16 + tiles.flatten.length) = (true, p))
    (same : ringWrites (p.rings.nth j.job.cam).base (p.rings.nth j.job.cam).size (p.rings.nth j.job.cam).writePoint
      (codedBand j.job j.quantizer r.tiles tiles) ++
      (p.reserved j.job.cam j.job.number (16 + tiles.flatten.length)).finalHeader j r (16 + tiles.flatten.length) = writes)
    (next : nextWrite writes = some (x, left)) : q.placeBand j r tiles = { p with
      rings := p.rings.put j.job.cam ((p.rings.nth j.job.cam).reserving j.job.number (16 + tiles.flatten.length))
      coder := { q.coder with job := some { j with
        phase := .writing, size := some (16 + tiles.flatten.length), place := some (p.rings.nth j.job.cam).writePoint, writes := left } }
      path := q.path.offering coderStream x } := by
  obtain ⟨coder, path, -, -, -⟩ := makeRoom_keeps room
  rw [placeBand_room room, same, startWrites_some next, ← coder, ← path]
  rfl

end

/-- The part whose picture is cut for want of room, its job ended. -/
def Part.cutting (k : Fin 8) (n : Word) (start len : Nat) (p : Part) : Part :=
  (Part.raise .ring k.val (p.setRings (p.rings.put k ((p.rings.nth k).cutting n start len)))).setJob none

section

variable {k : Fin 8} {i : SlotId} {n : Word} {start len : Nat} {p : Part} {e : PictureRecord} {st : Stamp}

theorem cutting_free {i : SlotId} : ∀ run, (p.cutting k n start len).coder.job = some run → ¬ run.job.of k i n := by
  unfold Part.cutting
  rw [raise_eq]
  exact nofun

theorem cutting_eq : p.cutting k n start len = { p with
    rings := p.rings.put k ((p.rings.nth k).cutting n start len), coder := { p.coder with job := none }
    cmd := p.cmd.raised (.ring, k.val) } := by
  unfold Part.cutting
  rw [raise_eq]
  rfl

/-- The abandonment of a cut picture leaves the ring as the cut left it. -/
theorem losing_cutting (found : (p.rings.nth k).find n = some e) (named : st.number = n) : (p.cutting k n start len).losing k i st (.gap .cut) =
    { (p.cutting k n start len) with
      cameras := p.cameras.put k ((p.cameras.nth k).putSlot i { ((p.cameras.nth k).slot i) with abandoned := true })
      coder := { p.coder with job := none }.without k i n } := by
  have ring : (p.cutting k n start len).rings.nth k = (p.rings.nth k).cutting n start len := by
    unfold Part.cutting
    rw [raise_eq]
    exact Table.nth_put_same ..
  obtain ⟨stands, quiet⟩ := settling_cutting (start := start) (len := len) (g := .cut) found named
  have rings : (p.cutting k n start len).rings.put k ((p.cutting k n start len).rings.nth k) = (p.cutting k n start len).rings :=
    Table.put_nth ..
  unfold Part.losing
  rw [ring, stands, quiet, ← ring, rings, named]
  unfold Part.cutting
  rw [raise_eq]
  rfl

end

section

variable {s : State} {dt : Nat} {tiles : List (List Byte)} {j : JobRun} {r : RateRecord} (job : s.part.coder.job = some j)
  (coding : j.phase = .coding) (going : j.discarded = false) (rated : s.part.coder.rates.nth j.job.cam = some r)
  (counted : tiles.length = r.tiles) (each : ∀ t, t ∈ tiles → 16 ≤ t.length ∧ t.length % 16 = 0)
  (bound : 16 + tiles.flatten.length ≤ 16 * (s.part.cameras.nth j.job.cam).cfg.stride + 16 * (r.tiles + 1))

include job coding going rated counted each bound

theorem exec_codedEvent {q : Part} (placed : (s.part.after dt).placeBand j r tiles = q) :
    exec (.codedEvent dt tiles) s = .next (s.becomes q) :=
  next_becomes (p := (s.part.after dt).codedEvent tiles)
    ((codedEvent_places (p := s.part.after dt) job coding going rated counted each bound).trans placed)

end

theorem without_rated {k : Fin 8} {i : SlotId} {n : Word} {x : Coder} {r : RateRecord} (rated : x.rates.nth k = some r) :
    x.without k i n = { x with
      queue := x.queue.filter fun y => decide (y.cam ≠ k ∨ y.slot ≠ i ∨ y.number ≠ n)
      rates := if r.number = n then x.rates.put k none else x.rates } := by
  unfold Coder.without
  rw [rated, Option.any_some]
  simp only [beq_iff_eq]

/-- What an abandonment leaves standing in any case. -/
theorem abandon_keeps {k : Fin 8} {i : SlotId} {n : Word} {cause : SettleCause} {p : Part}
    (free : ∀ run, p.coder.job = some run → ¬ run.job.of k i n) (other : cause ≠ .gap .queueFull) :
    let q := p.abandon k i n cause
    q.coder.job = p.coder.job ∧ q.coder.counts = p.coder.counts ∧ (q.rings.nth k).cut = (p.rings.nth k).cut ∧
      ∀ x, x ∈ p.cmd.notices → x ∈ q.cmd.notices := by
  intro q
  by_cases here : ((p.cameras.nth k).slot i).keeps n
  · obtain ⟨st, stamped, named, kept⟩ := here
    obtain ⟨coder, rings, cmd, -⟩ := abandon_says stamped named kept free other
    refine ⟨(congrArg Coder.job coder :), (congrArg Coder.counts coder :), ?_, fun x hx => ?_⟩
    · rw [rings, Table.nth_put_same]
      exact settling_cut
    · rw [cmd]
      split
      · exact (mem_raised ..).2 (.inr hx)
      · exact hx
  · rw [show q = p from abandon_gone here]
    exact ⟨rfl, rfl, rfl, fun _ hx => hx⟩

end Sys2Proof.Machine
end

section
/-! The end of a job: the picture published, and gone home as a LIVE item (O30). -/

namespace Sys2Proof.Machine

/-! The item of a published picture (R133). -/

/-- The part with another path, another coder and other cameras. -/
def Part.beside (x : Path) (y : Coder) (z : Table Camera 8) (p : Part) : Part := { p with path := x, coder := y, cameras := z }

section

variable (x : Path) (y : Coder) (z : Table Camera 8) (k : Fin 8) (n : Word) (p : Part)

theorem replaceLive_beside : (p.beside x y z).replaceLive k = (p.replaceLive k).beside x y z := by
  have same : (p.beside x y z).sender.giving k = p.sender.giving k := rfl
  cases h : p.sender.giving k with
  | none => rw [replaceLive_none h, replaceLive_none (same.trans h)]
  | some o =>
    rw [replaceLive_some h, replaceLive_some (same.trans h)]
    rfl

theorem handed_beside (kind : ItemKind) : (p.beside x y z).handed kind k n = (p.handed kind k n).beside x y z := by
  unfold Part.handed
  by_cases room : (p.sender.queueOf kind.cls).length < kind.cls.capacity
  · have same : (p.beside x y z).referenceOf k n = p.referenceOf k n := rfl
    refine (if_pos room).trans ?_
    rw [if_pos room, same]
    cases p.referenceOf k n with
    | taken r start length => rfl
    | full => rfl
    | notPublished => rfl
    | gap => rfl
    | absent => rfl
  · refine (if_neg room).trans ?_
    rw [if_neg room, dropFull_eq, dropFull_eq, raise_eq, raise_eq]
    rfl

/-- The making of a LIVE item neither reads nor changes the path, the coder and the cameras. -/
theorem makeItem_beside : (p.beside x y z).makeItem (.livePicture k n) = (p.makeItem (.livePicture k n)).beside x y z := by
  rw [makeItem_livePicture, makeItem_livePicture, replaceLive_beside, handed_beside]

end

theorem find_sending (r : Ring) (n : Word) (f : Nat → Nat) (m : Word) : (r.sending n f).find m =
    (r.find m).map fun e => if e.number = n then { e with sends := f e.sends } else e :=
  find_updRecord (r := r) (f := fun e => { e with sends := f e.sends }) (fun _ => rfl) m

section

variable {k : Fin 8} {n : Word} {p : Part}

theorem giving_says {o : Item} (h : p.sender.giving k = some o) : o ∈ p.sender.items ∧ o.queued = true ∧ ∃ m, o.kind = .livePicture k m := by
  have said := List.find?_some (h : List.find? _ _ = _)
  obtain ⟨id, kind, queued, address, base, size, length, fragments, dispatched, settled, failed, made, stale, linked⟩ := o
  refine ⟨List.mem_of_find?_eq_some h, ?_⟩
  cases kind with
  | livePicture j m =>
    simp only [Bool.and_eq_true, beq_iff_eq] at said
    exact ⟨said.1.1, m, by rw [said.2]⟩
  | audioFrame => simp at said
  | label => simp at said
  | clipPicture => simp at said

/-- What the item that gives way leaves: no longer queue, and the record of a picture with at most one send fewer. -/
theorem replaceLive_says (p : Part) (k : Fin 8) :
    let q := p.replaceLive k
    q = { p with rings := q.rings, sender := q.sender } ∧ (∀ c, (q.sender.queueOf c).length ≤ (p.sender.queueOf c).length) ∧
      ∀ n e, (p.rings.nth k).find n = some e → ∃ e', (q.rings.nth k).find n = some e' ∧ e'.pins = e.pins ∧ e'.body = e.body ∧
        e'.sends ≤ e.sends ∧ ((∀ it, it ∈ p.sender.items → it.queued = true → it.kind ≠ .livePicture k n) → e'.sends = e.sends) := by
  intro q
  cases h : p.sender.giving k with
  | none =>
    have same : q = p := replaceLive_none h
    rw [same]
    exact ⟨rfl, fun _ => Nat.le_refl _, fun n e found => ⟨e, found, rfl, rfl, Nat.le_refl _, fun _ => rfl⟩⟩
  | some o =>
    have same : q = p.givesWay o := replaceLive_some h
    obtain ⟨mem, queued, m, kind⟩ := giving_says h
    have rings : (p.givesWay o).rings = p.rings.upd k fun r => r.sending m (· - 1) := by
      unfold Part.givesWay
      rw [kind]
      rfl
    rw [same]
    refine ⟨rfl, fun c => (List.Sublist.filter _ List.filter_sublist).length_le, fun n e found => ?_⟩
    rw [rings, Table.nth_upd_same, find_sending, found]
    refine ⟨_, rfl, ?_⟩
    dsimp only
    by_cases named : e.number = m
    · rw [if_pos named]
      exact ⟨rfl, rfl, Nat.sub_le .., fun apart => absurd (by rw [kind, ← named, find_number found]) (apart o mem queued)⟩
    · rw [if_neg named]
      exact ⟨rfl, rfl, Nat.le_refl _, fun _ => rfl⟩

/-- The handing over of a picture's item changes the rings, the send engine and the notices alone, and of the records the send
counts. -/
theorem handed_says (kind : ItemKind) :
    let q := p.handed kind k n
    q = { p with rings := q.rings, sender := q.sender, cmd := q.cmd } ∧
      ∀ m e, (p.rings.nth k).find m = some e → ∃ x, (q.rings.nth k).find m = some x ∧ x.pins = e.pins ∧ x.body = e.body := by
  intro q
  have stands {z : Part} (same : q = z) (rings : z.rings = p.rings) (m : Word) (e : PictureRecord)
      (found : (p.rings.nth k).find m = some e) : ∃ x, (q.rings.nth k).find m = some x ∧ x.pins = e.pins ∧ x.body = e.body := by
    rw [same, rings]
    exact ⟨e, found, rfl, rfl⟩
  by_cases room : (p.sender.queueOf kind.cls).length < kind.cls.capacity
  · have chosen : q = match p.referenceOf k n with
        | .taken _ start length => (p.takeReference k n).queueItem kind ((p.rings.nth k).payload start length)
        | _ => p := if_pos room
    cases reference : p.referenceOf k n with
    | taken r start length =>
      rw [reference] at chosen
      rw [chosen]
      refine ⟨rfl, fun m e found => ?_⟩
      have rings : ((p.takeReference k n).queueItem kind ((p.rings.nth k).payload start length)).rings.nth k =
          (p.rings.nth k).sending n (· + 1) := Table.nth_upd_same ..
      rw [rings, find_sending, found]
      refine ⟨_, rfl, ?_⟩
      dsimp only
      split <;> exact ⟨rfl, rfl⟩
    | full | notPublished | gap | absent =>
      rw [reference] at chosen
      exact ⟨by rw [chosen], stands chosen rfl⟩
  · have dropped : q = p.dropFull kind.cls := if_neg room
    rw [dropFull_eq, raise_eq] at dropped
    exact ⟨by rw [dropped]; rfl, stands dropped rfl⟩

theorem payload_length (r : Ring) (start len : Nat) : (r.payload start len).length = len := by
  unfold Ring.payload
  split <;> rfl

/-- What the making of a LIVE item does to a part (R133). -/
theorem makeLive_says (p : Part) (k : Fin 8) (n : Word) :
    let q := p.makeItem (.livePicture k n)
    q = { p with rings := q.rings, sender := q.sender, cmd := q.cmd } ∧
      (∀ m e, (p.rings.nth k).find m = some e → ∃ x, (q.rings.nth k).find m = some x ∧ x.pins = e.pins ∧ x.body = e.body) ∧
      ∀ e start len quantizer overFlag, (p.rings.nth k).find n = some e → e.body = .published start len quantizer overFlag →
        e.sends < 65535 → (p.sender.queueOf .live).length < 32 →
        (∃ it, it ∈ q.sender.items ∧ it.queued = true ∧ it.kind = .livePicture k n ∧ it.length = len ∧ it.dispatched = 0) ∧
        ((∀ it, it ∈ p.sender.items → it.queued = true → it.kind ≠ .livePicture k n) →
          ∃ x, (q.rings.nth k).find n = some x ∧ x.sends = e.sends + 1) := by
  intro q
  obtain ⟨rest, shorter, records⟩ := replaceLive_says p k
  obtain ⟨rest', records'⟩ := handed_says (k := k) (n := n) (p := p.replaceLive k) (.livePicture k n)
  have made : q = (p.replaceLive k).handed (.livePicture k n) k n := makeItem_livePicture k n p
  refine ⟨?_, fun m e found => ?_, fun e start len quantizer overFlag found body few room => ?_⟩
  · rw [made, rest', rest]
  · obtain ⟨e', found', pins, body, -⟩ := records m e found
    obtain ⟨x, foundx, pins', body'⟩ := records' m e' found'
    rw [made]
    exact ⟨x, foundx, pins'.trans pins, body'.trans body⟩
  · obtain ⟨e', found', -, body', fewer, same⟩ := records n e found
    have room' : ((p.replaceLive k).sender.queueOf (ItemKind.livePicture k n).cls).length < (ItemKind.livePicture k n).cls.capacity :=
      Nat.lt_of_le_of_lt (shorter .live) room
    have taken := handed_taken (kind := .livePicture k n) rfl room' found' (body'.trans body) (Nat.lt_of_le_of_lt fewer few)
    have handed := made.trans taken
    have rings : q.rings.nth k = ((p.replaceLive k).rings.nth k).sending n (· + 1) := by
      rw [handed]
      exact Table.nth_upd_same ..
    refine ⟨?_, fun apart => ?_⟩
    · rw [handed]
      exact ⟨_, List.mem_append_right _ (List.mem_singleton_self _), rfl, rfl, payload_length .., rfl⟩
    · rw [rings, find_sending, found']
      refine ⟨_, rfl, ?_⟩
      dsimp only
      rw [if_pos (find_number found')]
      exact congrArg (· + 1) (same apart)

end

/-! The phases of a job (R63, R64, R70, R72). -/

section

variable {p : Part} {j : JobRun} (job : p.coder.job = some j)

include job

theorem coderTransfer_discarded (gone : j.discarded = true) : p.coderTransfer = p.endDiscarded j := by
  unfold Part.coderTransfer
  rw [job]
  exact if_pos gone

variable (going : j.discarded = false)

include going

theorem coderTransfer_writes {r : Request} {left : List (Nat × List Byte)} (phase : j.phase = .header ∨ j.phase = .writing)
    (next : nextWrite j.writes = some (r, left)) : p.coderTransfer = { p with
      coder := { p.coder with job := some { j with writes := left } }, path := p.path.offering coderStream r } := by
  refine Eq.trans ?_ (startWrites_some (run := j) next)
  unfold Part.coderTransfer
  rw [job]
  dsimp only
  rw [going]
  obtain phase | phase := phase <;> rw [phase] <;> dsimp only <;> rw [next] <;> rfl

theorem coderTransfer_header (phase : j.phase = .header) (none' : j.writes = []) : p.coderTransfer = p.startReading j := by
  unfold Part.coderTransfer
  rw [job]
  dsimp only
  rw [going, phase, none']
  rfl

theorem coderTransfer_reads {r : Request} {cur : Nat × Nat} {left : List (Nat × Nat)} (phase : j.phase = .reading)
    (next : nextRead j.reads = some (r, cur, left)) : p.coderTransfer = { p with
      coder := { p.coder with job := some { j with reads := left } }, path := p.path.offering coderStream r } := by
  unfold Part.coderTransfer
  rw [job]
  dsimp only
  rw [going, phase]
  dsimp only
  rw [next]
  rfl

theorem coderTransfer_read (phase : j.phase = .reading) (none' : j.reads = []) : p.coderTransfer =
    { p with coder := { p.coder with job := some { j with phase := .coding } } } := by
  unfold Part.coderTransfer
  rw [job]
  dsimp only
  rw [going, phase]
  dsimp only
  rw [none']
  rfl

theorem coderTransfer_written {n : Nat} (phase : j.phase = .writing) (none' : j.writes = []) (size : j.size = some n) :
    p.coderTransfer = p.endWritten j n := by
  unfold Part.coderTransfer
  rw [job]
  dsimp only
  rw [going, phase]
  dsimp only
  rw [none', size]
  rfl

end

end Sys2Proof.Machine
end

section
/-! The end of a written band, and the last one of a picture (O30). -/

namespace Sys2Proof.Machine

/-! The publication of a picture (R90). -/

theorem publishPicture_beside (x : Path) (y : Coder) (z : Table Camera 8) (k : Fin 8) (n : Word) (total quantizer : Nat) (overFlag live : Bool)
    (p : Part) : (p.beside x y z).publishPicture k n total quantizer overFlag live =
      (p.publishPicture k n total quantizer overFlag live).beside x y z := by
  cases live with
  | false => rfl
  | true => exact makeItem_beside x y z k n (p.publishPicture k n total quantizer overFlag false)

section

variable (k : Fin 8) (n : Word) (total quantizer : Nat) (overFlag : Bool) (p : Part)

/-- What the publication makes of the record, before an item is made of it. -/
theorem find_published {e : PictureRecord} {start len : Nat} (found : (p.rings.nth k).find n = some e) (opening : e.body = .opening start len) :
    ((p.publishPicture k n total quantizer overFlag false).rings.nth k).find n =
      some { e with body := .published start total quantizer overFlag } := by
  obtain ⟨number, timecode, block, body, pins, sends⟩ := e
  obtain rfl : body = .opening start len := opening
  have ring : (p.publishPicture k n total quantizer overFlag false).rings.nth k = _ := Table.nth_upd_same ..
  rw [ring, find_updRecord, found]
  · exact congrArg some (if_pos (find_number found))
  · intro e
    split <;> rfl

/-- The publication changes the rings, the send engine and the notices alone; what it makes of the record, and of the send engine
where the picture goes home. -/
theorem publishPicture_says (live : Bool) :
    let q := p.publishPicture k n total quantizer overFlag live
    q = { p with rings := q.rings, sender := q.sender, cmd := q.cmd } ∧ (live = false → q.sender = p.sender) ∧
      ∀ e start len, (p.rings.nth k).find n = some e → e.body = .opening start len →
        ∃ x, (q.rings.nth k).find n = some x ∧ x.pins = e.pins ∧ x.body = .published start total quantizer overFlag ∧
          (live = false → x.sends = e.sends) ∧
          (live = true → e.sends < 65535 → (p.sender.queueOf .live).length < 32 →
            (∃ it, it ∈ q.sender.items ∧ it.queued = true ∧ it.kind = .livePicture k n ∧ it.length = total ∧ it.dispatched = 0) ∧
            ((∀ it, it ∈ p.sender.items → it.queued = true → it.kind ≠ .livePicture k n) → x.sends = e.sends + 1)) := by
  intro q
  cases live with
  | false =>
    exact ⟨rfl, fun _ => rfl, fun e start len found opening =>
      ⟨_, find_published k n total quantizer overFlag p found opening, rfl, rfl, fun _ => rfl, nofun⟩⟩
  | true =>
    obtain ⟨rest, records, item⟩ := makeLive_says (p.publishPicture k n total quantizer overFlag false) k n
    refine ⟨rest, nofun, fun e start len found opening => ?_⟩
    have published := find_published k n total quantizer overFlag p found opening
    obtain ⟨x, foundx, pins, body⟩ := records _ _ published
    refine ⟨x, foundx, pins, body, nofun, fun _ few room => ?_⟩
    obtain ⟨made, sends⟩ := item _ _ _ _ _ published rfl few room
    refine ⟨made, fun apart => ?_⟩
    obtain ⟨y, foundy, sendsy⟩ := sends apart
    obtain rfl : x = y := Option.some.inj (foundx.symm.trans foundy)
    exact sendsy

end

/-! The end of a band. -/

/-- The camera with a band of a picture in a slot told coded (R55). -/
def Camera.telling (i : SlotId) (n : Word) (c : Camera) : Camera :=
  c.putSlot i (if (c.slot i).stamp.map (·.number) = some n then { (c.slot i) with coded := (c.slot i).coded + 1 } else c.slot i)

theorem bandCoded_eq (k : Fin 8) (i : SlotId) (n : Word) (p : Part) : p.bandCoded k i n =
    p.setCameras (p.cameras.put k ((p.cameras.nth k).telling i n)) := by
  unfold Part.bandCoded Part.updSlot Part.updCamera Table.upd Camera.telling
  dsimp only
  cases h : ((p.cameras.nth k).slot i).stamp with
  | none => rfl
  | some st =>
    dsimp only
    rw [Option.map_some]
    by_cases same : st.number = n
    · rw [if_pos same, if_pos (congrArg some same)]
    · rw [if_neg same, if_neg fun h => same (Option.some.inj h)]

theorem telling_stamp (i j : SlotId) (n : Word) (c : Camera) : ((c.telling i n).slot j).stamp = (c.slot j).stamp := by
  unfold Camera.telling
  split <;> cases i <;> cases j <;> rfl

/-- A slot that goes to DONE leaves the coder, the rings, the send engine and the notices as they are, and the carried quantizer. -/
theorem slotDone_keeps (k : Fin 8) (i : SlotId) (p : Part) :
    let q := p.slotDone k i
    q.coder = p.coder ∧ q.rings = p.rings ∧ q.sender = p.sender ∧ q.cmd = p.cmd ∧ q.path.channel = p.path.channel ∧
      (q.cameras.nth k).carried = (p.cameras.nth k).carried := by
  intro q
  by_cases none' : ∀ w, (p.cameras.nth k).held = some w → w.slot ≠ i
  · have done : q = _ := slotDone_free none'
    rw [done]
    refine ⟨rfl, rfl, rfl, rfl, rfl, (congrArg Camera.carried (Table.nth_put_same ..)).trans ?_⟩
    cases i <;> rfl
  · obtain ⟨w, held, slot⟩ : ∃ w, (p.cameras.nth k).held = some w ∧ w.slot = i := by simpa using none'
    have released : q = _ := slotDone_releases held slot
    rw [released]
    refine ⟨rfl, rfl, rfl, rfl, rfl, (congrArg Camera.carried (Table.nth_put_same ..)).trans ?_⟩
    cases i <;> rfl

/-- The coder once a band of a picture is written (R72). -/
def Coder.banded (k : Fin 8) (r : RateRecord) (y : Coder) : Coder := { y with
  rates := y.rates.put k (some r), counts := y.counts.upd k fun c => { c with codedBands := count c.codedBands } }

/-- The coder once a picture is published (R74). -/
def Coder.publishing (k : Fin 8) (r : RateRecord) (y : Coder) : Coder := { y with
  rates := y.rates.put k none
  counts := y.counts.upd k fun c =>
    { c with published := count c.published, overBudget := if r.overFlag then count c.overBudget else c.overBudget } }

theorem publish_beside (x : Path) (y : Coder) (z : Table Camera 8) (k : Fin 8) (r : RateRecord) (p : Part) :
    (p.beside x y z).publish k r = Part.slotDone k r.slot
      ((p.publishPicture k r.number (r.header + r.spent) r.quantizer r.overFlag (((z.nth k).slot r.slot).stamp.any fun st => st.live)).beside
        x (y.publishing k r) (z.upd k fun c => { c with carried := r.quantizer })) := by
  have live : (((z.nth k).slot r.slot).stamp.any fun st => st.live) =
      match ((z.nth k).slot r.slot).stamp with | some st => st.live | none => false := by
    cases ((z.nth k).slot r.slot).stamp <;> rfl
  rw [live]
  unfold Part.publish
  dsimp only
  rw [publishPicture_beside]
  rfl

section

variable {p : Part} {j : JobRun} {n : Nat} {r : RateRecord} (rated : p.coder.rates.nth j.job.cam = some r)

include rated

theorem endWritten_goesOn (more : j.job.band + 1 ≠ r.bandCount) : p.endWritten j n =
    (p.beside p.path (p.coder.banded j.job.cam (r.bandWritten j n))
      (p.cameras.put j.job.cam ((p.cameras.nth j.job.cam).telling j.job.slot j.job.number))).setJob none := by
  unfold Part.endWritten
  dsimp only
  rw [rated]
  dsimp only
  rw [if_neg more, bandCoded_eq]
  rfl

theorem endWritten_last (last : j.job.band + 1 = r.bandCount) : p.endWritten j n =
    ((p.beside p.path (p.coder.banded j.job.cam (r.bandWritten j n))
      (p.cameras.put j.job.cam ((p.cameras.nth j.job.cam).telling j.job.slot j.job.number))).publish j.job.cam (r.bandWritten j n)).setJob
        none := by
  unfold Part.endWritten
  dsimp only
  rw [rated]
  dsimp only
  rw [if_pos last, bandCoded_eq]
  rfl

end

/-- Settles O30: the coded event by `placeBand_room` and `placeBand_cut`, the transfers by the job's phase, and the end of a picture
by `publish_beside` with `slotDone_free` or `slotDone_releases`. -/
theorem aCodedBandIsPlacedOrItsPictureIsCut : Obligations.ACodedBandIsPlacedOrItsPictureIsCut := by
  refine ⟨?_, fun a bs rest => nextWrite_cons a bs rest, ?_⟩
  · intro s dt tiles j job coding
    refine ⟨fun gone => ?_, ?_⟩
    · exact next_becomes (p := (s.part.after dt).codedEvent tiles) (codedEvent_discarded (p := s.part.after dt) job coding gone)
    · intro r going rated counted each bound n k
      have runs {q : Part} (placed : (s.part.after dt).placeBand j r tiles = q) : exec (.codedEvent dt tiles) s = .next (s.becomes q) :=
        exec_codedEvent job coding going rated counted each bound placed
      refine ⟨fun p room => ?_, fun p room => ?_⟩
      · intro ring band laid final goes
        obtain ⟨coder, path, cameras, -, -⟩ := makeRoom_keeps room
        have laid' (start : Nat) (bs : List Byte) : laid start bs = ringWrites ring.base ring.size start bs := rfl
        have going' (more : List (Nat × List Byte)) (header : (p.reserved k j.job.number n).finalHeader j r n = more) :
            goes (laid ring.writePoint band ++ more) := by
          obtain ⟨x, left, next⟩ := nextWrite_ring_append ring.base ring.size ring.writePoint band more
          have same : ringWrites ring.base ring.size ring.writePoint (codedBand j.job j.quantizer r.tiles tiles) ++
              (p.reserved k j.job.number n).finalHeader j r n = ringWrites ring.base ring.size ring.writePoint band ++ more := by
            rw [header, codedBand_eq]
          exact ⟨x, left, next, coder, path, cameras, runs (placed_runs (q := s.part.after dt) room same next)⟩
        refine ⟨fun notLast => ?_, fun e start len last found opening => going' _ ?_⟩
        · have plain := going' [] (finalHeader_none notLast)
          rwa [List.append_nil] at plain
        · refine (finalHeader_some last found opening).trans ?_
          have flag : boolCode (r.overFlag || decide (r.budget < r.header + (r.spent + n))) =
              if r.overFlag = true ∨ r.budget < r.header + (r.spent + n) then 1 else 0 := by
            simp only [boolCode, Bool.or_eq_true, decide_eq_true_eq]
          rw [finalHeader_eq, laid', flag]
      · obtain ⟨coder, path, cameras, cues, clock⟩ := makeRoom_keeps room
        have placed := placeBand_cut (r := r) room
        refine ⟨⟨_, runs placed, ?_⟩, ?_⟩
        · obtain ⟨x, rolled, same⟩ := rollBack_keeps k j.job.number .cut p
          have cutting : (p.cutPicture k j.job.number).setJob none = { p with
              rings := p.rings.put k { x with cut := count (p.rings.nth k).cut }, cmd := p.cmd.raised (.ring, k.val)
              coder := { p.coder with job := none } } := by
            rw [cutPicture_eq, rolled]
            unfold Table.upd Part.setRings Part.setJob
            dsimp only [Part.setCoder]
            rw [Table.nth_put_same, Table.put_put, same]
          rw [cutting]
          obtain ⟨job', counts, cut, notices⟩ := abandon_keeps (p := { p with
            rings := p.rings.put k { x with cut := count (p.rings.nth k).cut }, cmd := p.cmd.raised (.ring, k.val)
            coder := { p.coder with job := none } }) (k := k) (i := j.job.slot) (n := j.job.number) (cause := .gap .cut) nofun nofun
          refine ⟨job', ?_, cut.trans (congrArg Ring.cut (Table.nth_put_same ..)), notices _ ((mem_raised ..).2 (.inl rfl))⟩
          refine (congrArg CoderCounters.cutBands (Table.nth_upd_same ..)).trans ?_
          rw [counts, coder]
        · intro e start len found opening ring c i d cut ended cleared counted here
          have cut' : (p.cutPicture k j.job.number).setJob none = p.cutting k j.job.number start len := by
            rw [cutPicture_opening found opening]
            rfl
          rw [cut'] at placed
          have cut_eq : cut = { p with
              rings := p.rings.put k ((p.rings.nth k).cutting j.job.number start len), cmd := p.cmd.raised (.ring, k.val) } := raise_eq ..
          have table : (p.cutting k j.job.number start len).cameras = s.part.cameras := by
            rw [cutting_eq]
            exact cameras
          have cleared' : Coder.without k i j.job.number { p.coder with job := none } = { s.part.coder with
              job := none
              queue := s.part.coder.queue.filter fun x => decide (x.cam ≠ k ∨ x.slot ≠ i ∨ x.number ≠ j.job.number)
              rates := if r.number = j.job.number then s.part.coder.rates.put k none else s.part.coder.rates } := by
            rw [coder]
            exact without_rated (x := { s.part.coder with job := none }) rated
          refine ⟨coder, cameras, path, fun gone => runs (placed.trans ?_), fun ⟨st, stamped, named, kept⟩ stays => runs (placed.trans ?_),
            fun w a others ⟨st, stamped, named, kept⟩ coding' held slot port => ?_⟩
          · have gone : ¬ (((p.cutting k j.job.number start len).cameras.nth k).slot i).keeps j.job.number := by
              rw [table]
              exact gone
            rw [abandon_gone gone, cutting_eq, cut_eq, coder]
            rfl
          · have ends := abandon_ends (p := p.cutting k j.job.number start len) (k := k) (i := i) (st := st) (cause := .gap .cut)
              (by rw [table]; exact stamped) named (by rw [table]; exact kept) cutting_free nofun (by rw [table]; exact stays)
            rw [ends, losing_cutting found named, cleared', cutting_eq, cut_eq]
            dsimp only
            rw [cameras]
            rfl
          · intro taken
            have releases := abandon_releases (p := p.cutting k j.job.number start len) (k := k) (i := i) (st := st) (cause := .gap .cut)
              (by rw [table]; exact stamped) named (by rw [table]; exact kept) cutting_free nofun (by rw [table]; exact coding')
              (by rw [table]; exact held) slot
            refine runs (placed.trans ?_)
            rw [releases, losing_cutting found named, cleared', cutting_eq, cut_eq, offerHeld_eq (a := a) (others := others)]
            · dsimp only
              rw [cameras, cues, clock, path]
              rfl
            · rw [← port, ← path]
  · intro s dt q j channel job k c freed after' ends going
    have ran := exec_streamTransfer (dt := dt) (i := coderStream) (q := q) channel
    let p := (s.part.after dt).freeChannel
    have ended {x : Part} (t : p.coderTransfer = x) (free : x.path.channel = .free) :
        exec (.transferComplete dt) s = .next { s with dram := moved s.dram q q.line, part := x.withPath x.path.freed } := by
      have done : p.streamDone coderStream (s.returned q.kind q.line q.count) = x := t
      rw [ran, ← afterTransfer_of_free free, ← done]
    refine ⟨fun gone => ⟨_, ended (coderTransfer_discarded (p := p) job gone) rfl, rfl⟩, fun kept => ?_⟩
    refine ⟨fun r left phase next => ⟨_, ended (coderTransfer_writes (p := p) job kept phase next) rfl, rfl⟩, ?_,
      fun r cur left phase next => ⟨_, ended (coderTransfer_reads (p := p) job kept phase next) rfl, rfl⟩,
      fun phase none' => ⟨_, ended (coderTransfer_read (p := p) job kept phase none') rfl, rfl⟩, ?_⟩
    · intro phase none' first wide stride line
      have whole : 16 * c.cfg.stride % 64 = 0 := by omega
      refine ⟨_, ended ((coderTransfer_header (p := p) job kept phase none').trans
        (startReading_line (bandSpan_eq p j.job) line whole)) rfl, ?_⟩
      rw [← none']
      rfl
    · intro n r phase none' size rated done coded d told
      have written : p.coderTransfer = p.endWritten j n := coderTransfer_written (p := p) job kept phase none' size
      have over' : r.bandWritten j n = done := by
        unfold done RateRecord.bandWritten
        rw [← Nat.add_assoc]
      refine ⟨fun more => ⟨_, ended (written.trans (endWritten_goesOn (p := p) rated more)) rfl, ?_⟩, fun last => ?_⟩
      · rw [over']
        rfl
      · let live := (c.slot r.slot).stamp.any fun st => st.live
        let base := s.part.after dt
        have said := publishPicture_says k r.number (done.header + done.spent) done.quantizer done.overFlag base live
        obtain ⟨home, homes⟩ : ∃ home, base.publishPicture k r.number (done.header + done.spent) done.quantizer done.overFlag live = home :=
          ⟨_, rfl⟩
        rw [homes] at said
        obtain ⟨rest, quiet, record⟩ := said
        let x : Camera := { told with carried := done.quantizer }
        let D := home.beside p.path ((s.part.coder.banded k done).publishing k done) (s.part.cameras.put k x)
        have held : x.held = c.held := by
          unfold x told
          cases j.job.slot <;> rfl
        have cameras : (s.part.cameras.put k told).upd k (fun c => { c with carried := done.quantizer }) = s.part.cameras.put k x := by
          unfold Table.upd
          rw [Table.nth_put_same, Table.put_put]
        have stamp : (((s.part.cameras.put k told).nth k).slot r.slot).stamp = (c.slot r.slot).stamp := by
          rw [Table.nth_put_same]
          exact telling_stamp ..
        have over'' : p.coderTransfer = (D.slotDone k r.slot).setJob none := by
          refine written.trans ((endWritten_last (p := p) rated last).trans (congrArg (Part.setJob none) ?_))
          rw [over']
          refine (publish_beside p.path (s.part.coder.banded k done) (s.part.cameras.put k told) k done base).trans ?_
          rw [cameras, stamp]
          exact congrArg (fun h : Part => Part.slotDone k r.slot
            (h.beside p.path ((s.part.coder.banded k done).publishing k done) (s.part.cameras.put k x))) homes
        obtain ⟨coder, rings, sender, cmd, channel', carried⟩ := slotDone_keeps k r.slot D
        have camera : D.cameras.nth k = x := Table.nth_put_same ..
        have cues : home.cues = s.part.cues := by rw [rest]; rfl
        have clock : home.clock = s.part.clock := by rw [rest]; rfl
        refine ⟨_, ended over'' channel', ?_, carried.trans (congrArg Camera.carried camera), fun e start len found opening => ?_,
          fun none' => ?_, fun w a others held' slot port => ?_, fun st stamped => ?_⟩
        · refine (congrArg (fun y : Coder => { y with job := none }) coder).trans ?_
          change ({ ((s.part.coder.banded k done).publishing k done) with job := none } : Coder) = _
          unfold Coder.publishing Coder.banded
          dsimp only
          rw [table_upd_upd, Table.put_put]
        · obtain ⟨y, foundy, pins, body, -⟩ := record e start len found opening
          exact ⟨y, (congrArg (fun t : Table Ring 8 => (t.nth k).find r.number) rings).trans foundy, pins, body⟩
        · have done' := slotDone_free (p := D) (k := k) (i := r.slot) (by rw [camera, held]; exact none')
          rw [done', camera]
          exact ⟨rfl, cues, Table.put_put ..⟩
        · have released := slotDone_releases (p := D) (k := k) (i := r.slot) (by rw [camera, held]; exact held') slot
          rw [offerHeld_eq (a := a) (others := others)] at released
          · rw [released, camera]
            have begun : ∀ y, (D.beginning k r.slot y).nth k = y.begun r.slot D.clock.timecode D.clock.blockNumber :=
              fun y => Table.nth_put_same ..
            refine ⟨congrArg Port.queue (Table.nth_put_same ..), ?_, ?_, ?_, ?_, ?_⟩
            · refine (congrArg Camera.held (begun _)).trans ?_
              cases r.slot <;> rfl
            · refine (congrArg Camera.cfg (begun _)).trans ?_
              unfold x told
              cases j.job.slot <;> rfl
            · exact congrArg (tallied _) cues
            · refine (congrArg (fun y : Camera => (y.slot r.slot).state) (begun _)).trans ?_
              cases r.slot <;> rfl
            · refine (congrArg Camera.counter (begun _)).trans ?_
              unfold x told
              cases j.job.slot <;> rfl
          · exact port
        · intro published home'
          have alive : live = st.live := by
            unfold live
            rw [stamped]
            rfl
          have same : home' = home := by
            rw [← homes, alive]
            unfold home'
            cases st.live <;> rfl
          rw [alive] at quiet record
          rw [same]
          refine ⟨sender, rings, cmd, fun e start len found opening => ?_, fun stays => sender.trans (quiet stays),
            fun e start len goes found opening few room => ?_⟩
          · obtain ⟨y, foundy, -, -, still, risen⟩ := record e start len found opening
            exact ⟨y, (congrArg (fun t : Table Ring 8 => (t.nth k).find r.number) rings).trans foundy, still,
              fun goes few room => (risen goes few room).2⟩
          · obtain ⟨y, -, -, -, -, risen⟩ := record e start len found opening
            obtain ⟨it, mem, rest⟩ := (risen goes few room).1
            exact ⟨it, (congrArg Sender.items sender) ▸ mem, rest⟩

end Sys2Proof.Machine
end

section
/-! A slot start: taken, held, or released at its limit, and the picture it tears (O26). -/

namespace Sys2Proof.Machine

/-! The discard of the coder's job (R76). -/

theorem streamBusy_iff {x : Path} {i : Fin 5} : x.streamBusy i = true ↔ ∃ r, x.channel = .stream i r false := by
  unfold Path.streamBusy
  cases h : x.channel with
  | stream j r orphan => cases orphan <;> simp
  | free => simp
  | client => simp
  | refresh => simp

/-- A discarded job that cannot end at once: in CODING, or with a transfer of it in progress, or discarded before. -/
def JobRun.lasts (run : JobRun) (x : Path) : Prop := run.discarded = true ∨ run.phase = .coding ∨ ∃ r, x.channel = .stream coderStream r false

section

variable {p : Part} {run : JobRun} (job : p.coder.job = some run)

include job

theorem discardJob_lasts (lasts : run.lasts p.path) : p.discardJob =
    p.setCoder { p.coder with job := some { run with discarded := true } } := by
  unfold Part.discardJob
  rw [job]
  dsimp only
  by_cases gone : run.discarded = true
  · rw [if_pos gone]
    have same : ({ run with discarded := true } : JobRun) = run := by rw [← gone]
    rw [same, ← job]
    rfl
  · rw [if_neg gone]
    by_cases coding : run.phase = .coding
    · exact if_pos coding
    · rw [if_neg coding]
      exact if_pos (streamBusy_iff.2 ((lasts.resolve_left gone).resolve_left coding))

theorem discardJob_ends (stops : ¬ run.lasts p.path) : p.discardJob = { p with
    coder := { p.coder with job := none, counts := p.coder.counts.upd run.job.cam fun c => { c with discarded := count c.discarded } }
    path := { p.path with streams := p.path.streams.put coderStream none } } := by
  unfold JobRun.lasts at stops
  rw [not_or, not_or] at stops
  obtain ⟨kept, phase, idle⟩ := stops
  unfold Part.discardJob
  rw [job]
  dsimp only
  rw [if_neg kept, if_neg phase, if_neg (mt streamBusy_iff.1 idle)]
  rfl

end

/-- A discard changes the job, the coder's counts and the coder's offer alone; a job that is left is discarded. -/
theorem discardJob_says (p : Part) :
    let q := p.discardJob
    q = { p with coder := { p.coder with job := q.coder.job, counts := q.coder.counts }, path := { p.path with streams := q.path.streams } } ∧
      ∀ run, q.coder.job = some run → run.discarded = true := by
  intro q
  cases job : p.coder.job with
  | none =>
    have same : q = p := by
      unfold q Part.discardJob
      rw [job]
    rw [same]
    exact ⟨rfl, fun run running => absurd (job.symm.trans running) nofun⟩
  | some run =>
    by_cases lasts : run.lasts p.path
    · have same : q = _ := discardJob_lasts job lasts
      rw [same]
      exact ⟨rfl, fun run' running => by rw [← Option.some.inj running]⟩
    · have same : q = _ := discardJob_ends job lasts
      rw [same]
      exact ⟨rfl, nofun⟩

/-- The part with the queued jobs of a picture gone. -/
def Part.unqueued (k : Fin 8) (i : SlotId) (n : Word) (p : Part) : Part := { p with coder := { p.coder with
  queue := p.coder.queue.filter fun y => decide (y.cam ≠ k ∨ y.slot ≠ i ∨ y.number ≠ n) } }

/-- The work of a picture gone: with its job discarded where the coder holds it, and its rate-control record. -/
theorem dropWork_eq (k : Fin 8) (i : SlotId) (n : Word) (p : Part) :
    ∃ q, (q = p.unqueued k i n ∧ (∀ run, p.coder.job = some run → ¬ run.job.of k i n) ∨ q = (p.unqueued k i n).discardJob) ∧
      ∃ rates, p.dropWork k i n = q.setCoder { q.coder with rates := rates } := by
  have rates (q : Part) : ∃ rates, (match q.coder.rates.nth k with
      | some r => if r.number = n then q.setCoder { q.coder with rates := q.coder.rates.put k none } else q
      | none => q) = q.setCoder { q.coder with rates := rates } := by
    split
    · split
      · exact ⟨_, rfl⟩
      · exact ⟨_, rfl⟩
    · exact ⟨_, rfl⟩
  have same : p.setCoder { p.coder with queue := p.coder.queue.filter fun j => !(j.cam == k && j.slot == i && j.number == n) } =
      p.unqueued k i n := by
    rw [queue_without]
    rfl
  unfold Part.dropWork
  rw [same]
  dsimp only
  have job : (p.unqueued k i n).coder.job = p.coder.job := rfl
  rw [job]
  rcases running : p.coder.job with _ | run
  · exact ⟨_, .inl ⟨rfl, nofun⟩, rates _⟩
  · dsimp only
    by_cases here : run.job.cam = k ∧ run.job.slot = i ∧ run.job.number = n
    · rw [if_pos here]
      exact ⟨_, .inr rfl, rates _⟩
    · rw [if_neg here]
      exact ⟨_, .inl ⟨rfl, fun run' same' => by rw [← Option.some.inj same']; exact here⟩, rates _⟩

/-- What the loss of a picture's work makes of a part. -/
theorem dropWork_says (k : Fin 8) (i : SlotId) (n : Word) (p : Part) :
    let q := p.dropWork k i n
    q = { p with coder := q.coder, path := { p.path with streams := q.path.streams } } ∧
      (∀ j, j ∈ q.coder.queue ↔ j ∈ p.coder.queue ∧ ¬ j.of k i n) ∧
      ∀ run, q.coder.job = some run → run.job.of k i n → run.discarded = true := by
  intro q
  obtain ⟨x, left, rates, dropped⟩ := dropWork_eq k i n p
  have dropped : q = _ := dropped
  have queue (j : BandJob) : j ∈ (p.unqueued k i n).coder.queue ↔ j ∈ p.coder.queue ∧ ¬ j.of k i n := mem_without (x := p.coder)
  rw [dropped]
  obtain ⟨rfl, free⟩ | rfl := left
  · exact ⟨rfl, queue, fun run running here => absurd here (free run running)⟩
  · obtain ⟨rest, discarded⟩ := discardJob_says (p.unqueued k i n)
    refine ⟨?_, fun j => ?_, fun run running _ => discarded run running⟩
    · generalize (p.unqueued k i n).discardJob = z at rest
      rw [rest]
      rfl
    · have same : (p.unqueued k i n).discardJob.coder.queue = (p.unqueued k i n).coder.queue := by rw [rest]
      exact (congrArg (j ∈ ·) same).to_iff.trans (queue j)

/-! A torn picture (R56). -/

/-- The camera with the picture in a slot torn. -/
def Camera.tearing (i : SlotId) (c : Camera) : Camera :=
  { (c.putSlot i { (c.slot i) with state := .torn }) with counts := { c.counts with torn := count c.counts.torn } }

/-- The ring, the notices and the work of a picture that is torn. -/
def Part.unmade (k : Fin 8) (i : SlotId) (p : Part) : Part :=
  match ((p.cameras.nth k).slot i).stamp with
  | none => p
  | some st =>
    if ((p.cameras.nth k).slot i).abandoned then p.dropWork k i st.number
    else (p.dropWork k i st.number).settlePicture k st (.gap .torn)

theorem unmade_rest (k : Fin 8) (i : SlotId) (p : Part) : let q := p.unmade k i
    q = { p with coder := q.coder, path := { p.path with streams := q.path.streams }, rings := q.rings, cmd := q.cmd } := by
  intro q
  unfold q Part.unmade
  split
  · rfl
  · next st _ =>
    obtain ⟨rest, -⟩ := dropWork_says k i st.number p
    split
    · generalize p.dropWork k i st.number = z at rest
      rw [rest]
    · rw [settlePicture_eq]
      generalize p.dropWork k i st.number = z at rest
      rw [rest]

theorem tear_eq (k : Fin 8) (i : SlotId) (p : Part) : p.tear k i = Part.raise .hold k.val
    ((p.unmade k i).setCameras (p.cameras.put k ((p.cameras.nth k).tearing i))) := by
  have same : (p.unmade k i).cameras = p.cameras := by rw [unmade_rest k i p]
  have camera (q : Part) : (q.updSlot k i fun s => { s with state := .torn }).countCamera k (fun c => { c with torn := count c.torn }) =
      q.setCameras (q.cameras.put k ((q.cameras.nth k).tearing i)) := by
    unfold Part.updSlot Part.countCamera Part.updCamera Table.upd
    dsimp only [Part.setCameras]
    rw [Table.nth_put_same, Table.put_put]
    unfold Camera.tearing
    cases i <;> rfl
  rw [← same, ← camera]
  rfl

/-- The camera that begins a slot after the picture in it is torn. -/
def Camera.begunTorn (i : SlotId) (t : Timecode) (block : Word) (c : Camera) : Camera :=
  { (c.begun i t block) with counts := { (c.begun i t block).counts with torn := count c.counts.torn } }

theorem begun_tearing (i : SlotId) (t : Timecode) (block : Word) (c : Camera) : (c.tearing i).begun i t block = c.begunTorn i t block := by
  cases i <;> rfl

/-- A slot start after the picture in the slot is torn. -/
theorem tear_takeSlotStart (k : Fin 8) (i : SlotId) (p : Part) :
    let q := p.unmade k i
    let x := p.cameras.put k ((p.cameras.nth k).begunTorn i p.clock.timecode p.clock.blockNumber)
    (p.tear k i).takeSlotStart k i = { q with cameras := x, cues := tallied x p.cues, cmd := q.cmd.raised (.hold, k.val) } := by
  intro q x
  have rest : q = _ := unmade_rest k i p
  have cues : q.cues = p.cues := by rw [rest]
  have clock : q.clock = p.clock := by rw [rest]
  have table : ((p.tear k i).cameras).nth k = (p.cameras.nth k).tearing i := by
    rw [tear_eq, raise_eq]
    exact Table.nth_put_same ..
  have begins : (p.tear k i).beginning k i ((p.cameras.nth k).tearing i) = x := by
    unfold Part.beginning
    rw [begun_tearing, tear_eq, raise_eq]
    change (p.cameras.put k _).put k _ = _
    rw [Table.put_put]
    exact congrArg (fun z : Clock => p.cameras.put k ((p.cameras.nth k).begunTorn i z.timecode z.blockNumber)) clock
  rw [takeSlotStart_eq, table, begins, tear_eq, raise_eq, ← cues]
  rfl

/-- The ring record of a torn picture (R89), its queued jobs, and its job in the coder. -/
theorem unmade_says {k : Fin 8} {i : SlotId} {p : Part} {st : Stamp} (stamped : ((p.cameras.nth k).slot i).stamp = some st) :
    let q := p.unmade k i
    (∀ j, j ∈ q.coder.queue ↔ j ∈ p.coder.queue ∧ ¬ j.of k i st.number) ∧
      (∀ run, q.coder.job = some run → run.job.of k i st.number → run.discarded = true) ∧
      ∀ e start len, ((p.cameras.nth k).slot i).abandoned = false → (p.rings.nth k).find st.number = some e → e.body = .opening start len →
        (q.rings.nth k).find st.number = some { e with body := .gap .torn, pins := 0 } := by
  intro q
  obtain ⟨rest, queue, job⟩ := dropWork_says k i st.number p
  have rings : (p.dropWork k i st.number).rings = p.rings := by rw [rest]
  by_cases gone : ((p.cameras.nth k).slot i).abandoned = true
  · have same : q = p.dropWork k i st.number := by
      unfold q Part.unmade
      rw [stamped]
      exact if_pos gone
    rw [same]
    exact ⟨queue, job, fun e start len kept => absurd (kept.symm.trans gone) nofun⟩
  · have same : q = (p.dropWork k i st.number).settlePicture k st (.gap .torn) := by
      unfold q Part.unmade
      rw [stamped]
      exact if_neg gone
    rw [settlePicture_eq] at same
    rw [same]
    refine ⟨queue, job, fun e start len _ found opening => ?_⟩
    dsimp only
    rw [Table.nth_put_same, rings]
    unfold Ring.settling Ring.settled
    dsimp only
    rw [found]
    obtain ⟨number, timecode, block, body, pins, sends⟩ := e
    obtain rfl : body = .opening start len := opening
    refine (find_updRecord (r := p.rings.nth k) (f := fun e => { e with body := .gap .torn, pins := 0 }) (fun _ => rfl) st.number).trans ?_
    rw [found]
    exact congrArg some (if_pos (find_number found))

/-! A passing write that starts a slot (R46 to R50). -/

section

variable {p : Part} {port : Fin 6} {tag : BitVec 6} {w : Fin 32} {r : Request} {k : Fin 8} {i : SlotId}

theorem startOf_eq_some (named : (p.path.windows.nth w).subject = k.val) (running : (p.cameras.nth k).state = .running)
    (frame : (p.cameras.nth k).cfg.frameWin = w) (covers : r.covers ((p.cameras.nth k).cfg.slotAt (p.path.windows.nth w).base i) 64 = true)
    (first : i = .b → r.covers ((p.cameras.nth k).cfg.slotAt (p.path.windows.nth w).base .a) 64 = false) : p.startOf w r = some (k, i) := by
  have lt : (p.path.windows.nth w).subject < 8 := named ▸ k.isLt
  obtain rfl : k = ⟨_, lt⟩ := Fin.ext named.symm
  unfold Part.startOf
  dsimp only
  rw [dif_pos lt, if_pos ⟨running, frame⟩]
  simp only [slotBase_eq, frame, Config.lineBytes]
  cases i with
  | a => exact if_pos covers
  | b => rw [first rfl]; exact if_pos covers

variable (running : p.path.quiesce = .running) (ready : p.path.ready = true) (empty : (p.path.ports.nth port).queue = [])
  (judged : p.judge port tag r = p.frameVerdict port tag w r) (counted : p.path.countedIn r.first r.next = some w)
  (starts : p.startOf w r = some (k, i))

include running ready empty judged counted starts

theorem present_starts {tracked : Bool} {q : Part} (start : p.judgeStart k i port tag = (.pass tracked, q)) :
    p.present port tag r = q.withQueue port [⟨tag, r, .offered, some w, some w, r.line, tracked⟩] := by
  have verdict : p.judge port tag r = (.pass (some w) r.line tracked, q) := by
    rw [judged, Part.frameVerdict, starts]
    dsimp only
    rw [start]
  rw [present_alone running ready empty, Part.headJudged, verdict]
  dsimp only
  rw [counted]
  rfl

theorem present_holds {q : Part} (start : p.judgeStart k i port tag = (.hold, q)) :
    p.present port tag r = q.withQueue port [⟨tag, r, .held, some w, some w, r.line, false⟩] := by
  have verdict : p.judge port tag r = (.hold w, q) := by
    rw [judged, Part.frameVerdict, starts]
    dsimp only
    rw [start]
  rw [present_alone running ready empty, Part.headJudged, verdict]
  dsimp only
  rw [counted]

end

section

variable {p : Part} {port : Fin 6} {tag : BitVec 6} {k : Fin 8} {i : SlotId}

theorem judgeStart_free (state : ((p.cameras.nth k).slot i).state = .empty ∨ ((p.cameras.nth k).slot i).state = .done ∨
    ((p.cameras.nth k).slot i).state = .torn) : p.judgeStart k i port tag = (.pass true, p.takeSlotStart k i) := by
  unfold Part.judgeStart
  dsimp only
  obtain state | state | state := state <;> rw [state]

theorem judgeStart_tears (state : ((p.cameras.nth k).slot i).state = .filling ∨
    ((p.cameras.nth k).slot i).state = .coding ∧ (p.cameras.nth k).cfg.policy = .drop) :
    p.judgeStart k i port tag = (.pass true, (p.tear k i).takeSlotStart k i) := by
  unfold Part.judgeStart
  dsimp only
  obtain state | ⟨state, policy⟩ := state
  · rw [state]
  · rw [state]
    dsimp only
    rw [policy]

variable (coding : ((p.cameras.nth k).slot i).state = .coding) (policy : (p.cameras.nth k).cfg.policy = .hold)

include coding policy

theorem judgeStart_holds (free : (p.cameras.nth k).held = none) : p.judgeStart k i port tag = (.hold, p.setCameras (p.cameras.put k
    { (p.cameras.nth k) with
      held := some ⟨port, tag, i, p.now + 3000000 * (p.cameras.nth k).cfg.holdLimit⟩
      counts := { (p.cameras.nth k).counts with heldWrites := count (p.cameras.nth k).counts.heldWrites } })) := by
  unfold Part.judgeStart
  dsimp only
  rw [coding]
  dsimp only
  rw [policy]
  dsimp only
  rw [free]
  refine (if_pos rfl).trans ?_
  unfold Part.countCamera Part.updCamera Table.upd
  dsimp only [Part.setCameras]
  rw [Table.nth_put_same, Table.put_put, Nat.mul_comm]
  rfl

theorem judgeStart_strays (held : (p.cameras.nth k).held ≠ none) : p.judgeStart k i port tag = (.pass false,
    Part.raise .hold k.val (p.setCameras (p.cameras.put k { (p.cameras.nth k) with
      counts := { (p.cameras.nth k).counts with strayStarts := count (p.cameras.nth k).counts.strayStarts } }))) := by
  unfold Part.judgeStart
  dsimp only
  rw [coding]
  dsimp only
  rw [policy]
  exact if_neg (mt Option.isNone_iff_eq_none.1 held)

end

/-! The hold limit (R51). -/

/-- The camera whose held write goes at its limit. -/
def Camera.expiring (c : Camera) : Camera := { c with held := none, counts := { c.counts with holdExpiries := count c.counts.holdExpiries } }

theorem holdExpiry_eq {k : Fin 8} {p : Part} {h : HeldWrite} {a : Admitted} {rest : List Admitted} (held : (p.cameras.nth k).held = some h)
    (queue : (p.path.ports.nth h.port).queue = a :: rest) :
    let c := p.cameras.nth k
    let torn := (c.slot h.slot).state = .coding ∨ (c.slot h.slot).state = .filling
    let x := p.cameras.put k (if torn then c.expiring.begunTorn h.slot p.clock.timecode p.clock.blockNumber
      else c.expiring.begun h.slot p.clock.timecode p.clock.blockNumber)
    let q := p.holdExpiry k
    q = { q with now := max p.now h.timer, cameras := x, cues := tallied x p.cues } ∧
      (q.path.ports.nth h.port).queue = { a with phase := .offered, tracked := true } :: rest := by
  intro c torn x q
  let P : Part := { p with now := max p.now h.timer, cameras := p.cameras.put k c.expiring }
  have camera : P.cameras.nth k = c.expiring := Table.nth_put_same ..
  have slot : c.expiring.slot h.slot = c.slot h.slot := by cases h.slot <;> rfl
  have counted : ((p.reach h.timer).dropHeld k).countCamera k (fun c => { c with holdExpiries := count c.holdExpiries }) = P := by
    unfold Part.dropHeld Part.countCamera Part.updCamera Table.upd
    dsimp only [Part.setCameras]
    rw [Table.nth_put_same, Table.put_put]
    rfl
  have expired : q = ((if torn then P.tear k h.slot else P).takeSlotStart k h.slot).offerHeld h.port true := by
    unfold q Part.holdExpiry
    rw [held]
    dsimp only
    rw [counted, camera, slot]
  have table (y : Camera) : P.cameras.put k y = p.cameras.put k y := Table.put_put ..
  by_cases lost : torn
  · rw [if_pos lost, tear_takeSlotStart, camera, table, offerHeld_eq (a := a) (others := rest)] at expired
    · rw [expired]
      refine ⟨?_, congrArg Port.queue (Table.nth_put_same ..)⟩
      have same : x = p.cameras.put k (c.expiring.begunTorn h.slot p.clock.timecode p.clock.blockNumber) := congrArg (p.cameras.put k) (if_pos lost)
      have now : (P.unmade k h.slot).now = max p.now h.timer := by rw [unmade_rest k h.slot P]
      rw [same, ← now]
      rfl
    · have ports : (P.unmade k h.slot).path.ports = p.path.ports := by rw [unmade_rest k h.slot P]
      exact (congrArg (fun t : Table Port 6 => (t.nth h.port).queue) ports).trans queue
  · rw [if_neg lost, takeSlotStart_eq, camera, offerHeld_eq (a := a) (others := rest)] at expired
    · rw [expired]
      refine ⟨?_, congrArg Port.queue (Table.nth_put_same ..)⟩
      have same : x = P.beginning k h.slot c.expiring :=
        (congrArg (p.cameras.put k) (if_neg lost)).trans (table _).symm
      rw [same]
      rfl
    · exact queue

/-- The camera of an expired held write, once its slot begins. -/
theorem begun_expiring (i : SlotId) (t : Timecode) (block : Word) (c : Camera) (torn : Prop) [Decidable torn] :
    let x := if torn then c.expiring.begunTorn i t block else c.expiring.begun i t block
    x.held = none ∧ x.pending = none ∧ x.counts.holdExpiries = count c.counts.holdExpiries ∧
      x.counts.slotStarts = count c.counts.slotStarts ∧ x.counts.torn = (if torn then count c.counts.torn else c.counts.torn) ∧
      x.counter = c.counter + 1 ∧ (x.slot i).state = .filling ∧ (x.slot i).arrived = 0 ∧
      ((x.slot i).stamp.map fun y => (y.number, y.timecode, y.block)) = some (c.counter, t, block) ∧ x.cfg = c.settled := by
  intro x
  unfold x
  by_cases lost : torn
  · rw [if_pos lost, if_pos lost]
    cases i <;> exact ⟨rfl, rfl, rfl, rfl, rfl, rfl, rfl, rfl, rfl, rfl⟩
  · rw [if_neg lost, if_neg lost]
    cases i <;> exact ⟨rfl, rfl, rfl, rfl, rfl, rfl, rfl, rfl, rfl, rfl⟩

/-- Settles O26: a passing write to a slot's first line by the slot's state (`judgeStart`), what a tear leaves by
`tear_takeSlotStart` and `unmade_says`, and the hold limit by `holdExpiry_eq`. -/
theorem aSlotStartIsTakenHeldOrReleased : Obligations.ASlotStartIsTakenHeldOrReleased := by
  refine ⟨?_, ?_⟩
  · intro s dt port tag line cnt data w k i fits apart running ready empty win c d r opened frame subject writer holds within camera frameWin
      covers first begun
    let p := s.part.after dt
    have ran := exec_clientRequest (s := s) (dt := dt) (port := port) (tag := tag) (line := line) fits
    have live : (p.path.windows.nth w).live = true := by
      have opened : (p.path.windows.nth w).state = .opened := opened
      rw [Window.live, opened]
      rfl
    have within' : ¬ Config.dramBytes < r.next := Nat.not_lt.2 within
    have inside : p.path.place r.first r.next = .inside w := place_inside apart (request_nonempty fits) live holds
    have judged : p.judge port tag r = p.frameVerdict port tag w r :=
      (judge_admitted (p := p) within' inside opened writer).trans (kindVerdict_frame_write rfl frame)
    have starts : p.startOf w r = some (k, i) := startOf_eq_some subject camera frameWin covers first
    have passes {tracked : Bool} {q : Part} := present_starts (p := p) (tracked := tracked) (q := q) running ready empty judged
      (countedIn_of_inside inside) starts
    have held {q : Part} := present_holds (p := p) (q := q) running ready empty judged (countedIn_of_inside inside) starts
    obtain ⟨z, became⟩ : ∃ z, p.present port tag r = z := ⟨_, rfl⟩
    refine ⟨s.becomes z, ran.trans (next_becomes became), rfl, rfl, ?_⟩
    intro stands
    refine ⟨fun state => ?_, fun st state stamped => ?_, fun coding policy free => ?_, fun coding policy full => ?_⟩
    · obtain rfl := became.symm.trans (passes (judgeStart_free (p := p) state))
      rw [takeSlotStart_eq]
      exact ⟨rfl, withQueue_queue .., rfl, rfl, rfl⟩
    · obtain rfl := became.symm.trans (passes (judgeStart_tears (p := p) state))
      obtain ⟨queue, job, record⟩ := unmade_says (p := p) stamped
      rw [tear_takeSlotStart]
      exact ⟨rfl, withQueue_queue .., (mem_raised ..).2 (.inl rfl), rfl, queue, job, record⟩
    · obtain rfl := became.symm.trans (held (judgeStart_holds (p := p) coding policy free))
      exact ⟨rfl, withQueue_queue .., rfl⟩
    · obtain rfl := became.symm.trans (passes (judgeStart_strays (p := p) coding policy full))
      rw [raise_eq]
      exact ⟨rfl, withQueue_queue .., (mem_raised ..).2 (.inl rfl), rfl⟩
  · intro s k h a rest c held queue
    obtain ⟨expired, offered⟩ := holdExpiry_eq held queue
    obtain ⟨z, became⟩ : ∃ z, s.part.holdExpiry k = z := ⟨_, rfl⟩
    rw [became] at expired offered
    refine ⟨s.becomes z, next_becomes became, (congrArg (fun y : Part => y.now) expired :), rfl, rfl, ?_⟩
    have table : z.cameras = _ := (congrArg (fun y : Part => y.cameras) expired :)
    have cues : z.cues = tallied z.cameras s.part.cues := by
      rw [table]
      exact (congrArg (fun y : Part => y.cues) expired :)
    have others (j : Fin 8) (hj : j ≠ k) : z.cameras.nth j = s.part.cameras.nth j := by
      rw [table]
      exact Table.nth_put_other _ _ (Ne.symm hj)
    have camera : z.cameras.nth k = _ := (congrArg (fun t : Table Camera 8 => t.nth k) table).trans (Table.nth_put_same ..)
    have said := begun_expiring h.slot s.part.clock.timecode s.part.clock.blockNumber c
      ((c.slot h.slot).state = .coding ∨ (c.slot h.slot).state = .filling)
    rw [← camera] at said
    obtain ⟨held', pending, expiries, starts, torn, counter, filling, arrived, stamp, cfg⟩ := said
    exact ⟨held', pending, expiries, starts, torn, counter, filling, arrived, stamp, offered, cfg, cues, others⟩

end Sys2Proof.Machine
end

section
/-! STOP CAMERA and its completion (O27). -/

namespace Sys2Proof.Machine

/-! The pictures a stop settles, in their order (R59). -/

theorem unfinished_eq (d : Slot) : d.unfinished = d.leaves.head?.map (·.number) := by
  unfold Slot.unfinished Slot.leaves
  by_cases h : d.state = .filling ∨ d.state = .coding
  · cases kept : d.abandoned
    · rw [if_pos ⟨h, rfl⟩, if_pos ⟨h, rfl⟩]
      cases d.stamp <;> rfl
    · rw [if_neg (by simp), if_neg (by simp)]
      rfl
  · rw [if_neg (by simp [h]), if_neg (by simp [h])]
    rfl

/-- A slot leaves one picture at most. -/
theorem leaves_cases (d : Slot) : d.leaves = [] ∧ d.unfinished = none ∨
    ∃ st, d.leaves = [st] ∧ d.unfinished = some st.number ∧ d.stamp = some st ∧ d.abandoned = false ∧ (d.state = .filling ∨ d.state = .coding) := by
  rw [unfinished_eq]
  unfold Slot.leaves
  split
  · next h =>
    cases stamp : d.stamp with
    | none => exact .inl ⟨rfl, rfl⟩
    | some st => exact .inr ⟨st, rfl, rfl, rfl, h.2, h.1⟩
  · exact .inl ⟨rfl, rfl⟩

theorem leaves_eq (c : Camera) : c.leaves = c.slotOrder.flatMap fun i => (c.slot i).leaves := by
  have slotA : c.slot .a = c.slotA := rfl
  have slotB : c.slot .b = c.slotB := rfl
  unfold Camera.leaves Camera.slotOrder
  obtain ⟨a, ua⟩ | ⟨x, a, ua, -⟩ := leaves_cases c.slotA <;> obtain ⟨b, ub⟩ | ⟨y, b, ub, -⟩ := leaves_cases c.slotB <;>
    rw [a, b, ua, ub] <;> dsimp only
  case inr.inr => split <;> simp only [List.flatMap_cons, List.flatMap_nil, slotA, slotB, a, b] <;> rfl
  all_goals simp only [List.flatMap_cons, List.flatMap_nil, slotA, slotB, a, b] <;> rfl

/-! The settlement of a list of pictures of a stopped camera. -/

/-- What the settlement of these pictures makes of a part in which the camera holds no write and the coder nothing of it. -/
structure Part.StopsTo (k : Fin 8) (l : List Stamp) (p q : Part) : Prop where
  rest : q = { p with cameras := q.cameras, rings := q.rings, coder := q.coder, cmd := q.cmd }
  cameras : q.cameras = p.cameras.put k (q.cameras.nth k)
  camera : q.cameras.nth k = { (p.cameras.nth k) with
    slotA := (q.cameras.nth k).slotA, slotB := (q.cameras.nth k).slotB
    counts := { (p.cameras.nth k).counts with abandoned := l.foldl (fun n _ => count n) (p.cameras.nth k).counts.abandoned } }
  rings : q.rings = p.rings.put k (l.foldl (Ring.settled .stopped) (p.rings.nth k))
  coder : q.coder = { p.coder with rates := p.coder.rates.upd k fun x => x.filter fun r => !(l.map (·.number)).contains r.number }
  cmd : p.cmd.Notified q.cmd
  lost : (q.rings.nth k).lost ≠ (p.rings.nth k).lost → (Cause.ring, k.val) ∈ q.cmd.notices

section

variable {k : Fin 8} {p q r : Part}

theorem Part.StopsTo.refl (k : Fin 8) (p : Part) : p.StopsTo k [] p where
  rest := rfl
  cameras := (Table.put_nth ..).symm
  camera := rfl
  rings := (Table.put_nth ..).symm
  coder := by
    have same : (p.coder.rates.upd k fun x => x.filter fun r => !([] : List Word).contains r.number) = p.coder.rates := by
      have keep : ((p.coder.rates.nth k).filter fun r => !([] : List Word).contains r.number) = p.coder.rates.nth k := by
        cases p.coder.rates.nth k <;> rfl
      exact (congrArg (p.coder.rates.put k) keep).trans (Table.put_nth ..)
    exact (congrArg (fun t => { p.coder with rates := t }) same).symm
  cmd := .refl _
  lost h := absurd rfl h

theorem Part.StopsTo.trans {l m : List Stamp} (h : p.StopsTo k l q) (h' : q.StopsTo k m r) : p.StopsTo k (l ++ m) r where
  rest := by rw [h'.rest, h.rest]
  cameras := h'.cameras.trans (by rw [h.cameras, Table.put_put])
  camera := by
    rw [h'.camera, h.camera, List.foldl_append]
  rings := by
    rw [h'.rings, h.rings, Table.nth_put_same, Table.put_put, List.foldl_append]
  coder := by
    rw [h'.coder, h.coder]
    refine congrArg (fun t => { p.coder with rates := t }) ((table_upd_upd ..).trans ?_)
    refine congrArg (p.coder.rates.put k) ?_
    dsimp only
    rw [Option.filter_filter]
    refine congrArg (Option.filter · (p.coder.rates.nth k)) (funext fun x => ?_)
    rw [List.map_append, List.contains_append, Bool.not_or, Bool.and_comm]
  cmd := h.cmd.trans h'.cmd
  lost changed := by
    by_cases same : (q.rings.nth k).lost = (p.rings.nth k).lost
    · exact h'.lost (by rwa [same])
    · exact h'.cmd.grown _ (h.lost same)

/-- A picture whose settlement does not count it lost leaves the lost pictures as they are. -/
theorem settling_lost {r : Ring} {st : Stamp} {g : GapCause} (kept : r.loses (.gap g) st = false) : (r.settling (.gap g) st).lost = r.lost := by
  unfold Ring.settling Ring.settled
  dsimp only
  split
  · rfl
  · rfl
  · next none' =>
    split
    · rfl
    · next full =>
      unfold Ring.loses at kept
      rw [none', Bool.eq_false_iff.2 (mt (appendable_eq ..).1 full)] at kept
      exact absurd kept nofun

theorem rates_without (rates : Table (Option RateRecord) 8) (k : Fin 8) (n : Word) :
    (if (rates.nth k).any fun r => r.number == n then rates.put k none else rates) =
      rates.upd k fun x => x.filter fun r => !([n] : List Word).contains r.number := by
  unfold Table.upd
  cases rated : rates.nth k with
  | none => exact (congrArg (rates.put k) rated.symm |>.trans (Table.put_nth ..)).symm
  | some r =>
    dsimp only
    rw [Option.any_some, Option.filter_some]
    by_cases same : r.number = n
    · simp [same]
    · simp only [beq_iff_eq, same, if_false, List.contains_cons, List.contains_nil, Bool.or_false, Bool.not_eq_true', beq_eq_false_iff_ne, ne_eq,
        not_false_iff, if_true]
      rw [← rated, Table.put_nth]

variable (held : (p.cameras.nth k).held = none) (apart : ∀ run, p.coder.job = some run → run.job.cam ≠ k)
  (queue : ∀ j, j ∈ p.coder.queue → j.cam ≠ k)

include held apart queue

/-- A slot's picture is settled STOPPED. -/
theorem abandonStopped_stopsTo (i : SlotId) : p.StopsTo k ((p.cameras.nth k).slot i).leaves (p.abandonStopped k i) ∧
    ∀ j, j ≠ i → ((p.abandonStopped k i).cameras.nth k).slot j = (p.cameras.nth k).slot j := by
  obtain ⟨leaves, unfinished⟩ | ⟨st, leaves, unfinished, stamped, kept, state⟩ := leaves_cases ((p.cameras.nth k).slot i)
  · have same : p.abandonStopped k i = p := by
      unfold Part.abandonStopped
      rw [unfinished]
    rw [same, leaves]
    exact ⟨.refl k p, fun _ _ => rfl⟩
  · have free : ∀ run, p.coder.job = some run → ¬ run.job.of k i st.number := fun run running here => apart run running here.1
    have same : p.abandonStopped k i = p.abandon k i st.number (.gap .stopped) := by
      unfold Part.abandonStopped
      rw [unfinished]
    have ends := abandon_ends (cause := .gap .stopped) stamped rfl kept free nofun (.inr fun w here => absurd (held.symm.trans here) nofun)
    rw [same, leaves, ends]
    have other (j : SlotId) (hj : j ≠ i) (d : Slot) : (((p.cameras.nth k).putSlot i d).abandoning).slot j = (p.cameras.nth k).slot j := by
      cases i <;> cases j <;> first | rfl | exact absurd rfl hj
    refine ⟨{ rest := rfl, cameras := ?_, camera := ?_, rings := rfl, coder := ?_, cmd := ?_, lost := fun changed => ?_ }, fun j hj => ?_⟩
    · dsimp only
      rw [Table.nth_put_same]
    · dsimp only
      rw [Table.nth_put_same]
      cases i <;> rfl
    · have queue' : (p.coder.queue.filter fun y => decide (y.cam ≠ k ∨ y.slot ≠ i ∨ y.number ≠ st.number)) = p.coder.queue :=
        List.filter_eq_self.2 fun y hy => decide_eq_true (.inl (queue y hy))
      dsimp only [Part.losing]
      unfold Coder.without
      rw [queue', rates_without]
      rfl
    · dsimp only [Part.losing]
      split
      · exact notified_raised ..
      · exact .refl _
    · dsimp only [Part.losing] at changed ⊢
      rw [Table.nth_put_same] at changed
      cases loses : (p.rings.nth k).loses (.gap .stopped) st with
      | true => exact (mem_raised ..).2 (.inl rfl)
      | false => exact absurd (settling_lost loses) changed
    · dsimp only
      rw [Table.nth_put_same]
      exact other j hj _

/-- The slots of a stopped camera, settled in this order. -/
theorem foldl_abandonStopped (l : List SlotId) (distinct : l.Nodup) :
    p.StopsTo k (l.flatMap fun i => ((p.cameras.nth k).slot i).leaves) (l.foldl (fun p i => p.abandonStopped k i) p) := by
  induction l generalizing p with
  | nil => exact .refl k p
  | cons i rest ih =>
    obtain ⟨fresh, distinct⟩ := List.nodup_cons.1 distinct
    obtain ⟨step, others⟩ := abandonStopped_stopsTo held apart queue i
    have held' : ((p.abandonStopped k i).cameras.nth k).held = none := by rw [step.camera]; exact held
    have apart' : ∀ run, (p.abandonStopped k i).coder.job = some run → run.job.cam ≠ k := by rw [step.coder]; exact apart
    have queue' : ∀ j, j ∈ (p.abandonStopped k i).coder.queue → j.cam ≠ k := by rw [step.coder]; exact queue
    have later := ih held' apart' queue' distinct
    have same : (rest.flatMap fun j => (((p.abandonStopped k i).cameras.nth k).slot j).leaves) =
        rest.flatMap fun j => ((p.cameras.nth k).slot j).leaves :=
      flatMap_congr_mem fun j hj => by rw [others j fun e => fresh (e ▸ hj)]
    rw [same] at later
    exact step.trans later

omit held apart queue in
theorem completed_notified {c x : Commander} (h : c.Notified x) (d : Deferred) : x.completed d = { (c.completed d) with
    notices := x.notices, counts := x.counts } := by
  rw [h.rest]
  rfl

/-- The completion of a stop whose command is awaited (R59). -/
theorem finishStop_stops {d : Deferred} (awaits : p.cmd.awaits d) (kind : d.kind = .stopCamera k) :
    p.stops k d.ring d.tag (p.finishStop k) := by
  have order : (p.cameras.nth k).slotOrder.Nodup := by
    unfold Camera.slotOrder
    split
    · split <;> decide
    · decide
  have settled := foldl_abandonStopped held apart queue _ order
  rw [← leaves_eq] at settled
  have finish : p.finishStop k = Part.completeDeferred (.stopCamera k) .done (Part.updCamera ((p.cameras.nth k).slotOrder.foldl (fun p i =>
      p.abandonStopped k i) p) k fun c => { c with slotA := Slot.clear, slotB := Slot.clear, held := none, state := .stopped }) := rfl
  generalize (p.cameras.nth k).slotOrder.foldl (fun p i => p.abandonStopped k i) p = z at settled finish
  have awaits' : z.cmd.awaits d := by
    rw [settled.cmd.rest]
    exact awaits
  have completed := completeDeferred_of_awaits
    (p := z.updCamera k fun c => { c with slotA := Slot.clear, slotB := Slot.clear, held := none, state := .stopped }) awaits'
  rw [kind] at completed
  have ended := finish.trans completed
  rw [ended]
  refine ⟨?_, settled.cmd.grown, settled.lost⟩
  obtain ⟨rest, cameras, camera, rings, coder, cmd, -⟩ := settled
  have table : z.cameras.upd k (fun c => { c with slotA := Slot.clear, slotB := Slot.clear, held := none, state := .stopped }) =
      p.cameras.put k { (p.cameras.nth k) with
        state := .stopped, slotA := Slot.clear, slotB := Slot.clear
        counts := { (p.cameras.nth k).counts with
          abandoned := (p.cameras.nth k).leaves.foldl (fun n _ => count n) (p.cameras.nth k).counts.abandoned } } := by
    unfold Table.upd
    rw [cameras, Table.put_put, Table.nth_put_same, camera]
    dsimp only
    rw [held]
  have final : { (z.updCamera k fun c => { c with slotA := Slot.clear, slotB := Slot.clear, held := none, state := .stopped }) with
      cmd := z.cmd.completed d } = { p with
        cameras := z.cameras.upd k fun c => { c with slotA := Slot.clear, slotB := Slot.clear, held := none, state := .stopped }
        rings := z.rings, coder := z.coder, cmd := z.cmd.completed d } := by
    rw [rest]
    rfl
  refine final.trans ?_
  rw [table, rings, coder, completed_notified cmd, ← kind]
  rfl

end

/-! The completion of a stop in any case, a write still held or not. -/

/-- What the completion of a stop leaves standing of the camera, the coder and the command engine. -/
structure Part.Quits (k : Fin 8) (p q : Part) : Prop where
  carried : (q.cameras.nth k).carried = (p.cameras.nth k).carried
  still : (p.cameras.nth k).held = none → (q.cameras.nth k).held = none ∧ (q.cameras.nth k).counter = (p.cameras.nth k).counter
  job : q.coder.job = p.coder.job
  queue : (q.coder.queue.filter fun j => j.cam != k) = p.coder.queue.filter fun j => j.cam != k
  cmd : p.cmd.Notified q.cmd

section

variable {k : Fin 8} {p q r : Part}

theorem Part.Quits.refl (k : Fin 8) (p : Part) : p.Quits k p := ⟨rfl, fun h => ⟨h, rfl⟩, rfl, rfl, .refl _⟩

theorem Part.Quits.trans (h : p.Quits k q) (h' : q.Quits k r) : p.Quits k r where
  carried := h'.carried.trans h.carried
  still none' := ⟨(h'.still (h.still none').1).1, ((h'.still (h.still none').1).2).trans (h.still none').2⟩
  job := h'.job.trans h.job
  queue := h'.queue.trans h.queue
  cmd := h.cmd.trans h'.cmd

theorem queue_other (k : Fin 8) (i : SlotId) (n : Word) (x : Coder) :
    ((x.without k i n).queue.filter fun j => j.cam != k) = x.queue.filter fun j => j.cam != k := by
  unfold Coder.without
  rw [List.filter_filter]
  refine List.filter_congr fun j _ => ?_
  cases other : j.cam != k with
  | false => rfl
  | true =>
    rw [Bool.true_and, decide_eq_true_eq]
    exact .inl (bne_iff_ne.1 other)

theorem abandonStopped_quits (apart : ∀ run, p.coder.job = some run → run.job.cam ≠ k) (i : SlotId) : p.Quits k (p.abandonStopped k i) := by
  obtain ⟨-, unfinished⟩ | ⟨st, -, unfinished, stamped, kept, -⟩ := leaves_cases ((p.cameras.nth k).slot i)
  · have same : p.abandonStopped k i = p := by
      unfold Part.abandonStopped
      rw [unfinished]
    rw [same]
    exact .refl k p
  · have free : ∀ run, p.coder.job = some run → ¬ run.job.of k i st.number := fun run running here => apart run running here.1
    have same : p.abandonStopped k i = p.abandon k i st.number (.gap .stopped) := by
      unfold Part.abandonStopped
      rw [unfinished]
    have notified (b : Bool) : p.cmd.Notified (if b then p.cmd.raised (.ring, k.val) else p.cmd) := by
      cases b
      · exact .refl _
      · exact notified_raised ..
    rw [same]
    by_cases stays : ((p.cameras.nth k).slot i).state ≠ .coding ∨ ∀ w, (p.cameras.nth k).held = some w → w.slot ≠ i
    · rw [abandon_ends (cause := .gap .stopped) stamped rfl kept free nofun stays]
      refine ⟨?_, fun none' => ?_, rfl, queue_other .., notified _⟩
      · dsimp only
        rw [Table.nth_put_same]
        cases i <;> rfl
      · dsimp only
        rw [Table.nth_put_same]
        cases i <;> exact ⟨none', rfl⟩
    · obtain ⟨coding, w, held, slot⟩ : ((p.cameras.nth k).slot i).state = .coding ∧ ∃ w, (p.cameras.nth k).held = some w ∧ w.slot = i := by
        simpa using stays
      rw [abandon_releases (cause := .gap .stopped) stamped rfl kept free nofun coding held slot]
      refine ⟨?_, fun none' => absurd (held.symm.trans none') nofun, rfl, queue_other .., notified _⟩
      refine (congrArg Camera.carried (Table.nth_put_same ..)).trans ?_
      cases i <;> rfl

theorem foldl_quits (apart : ∀ run, p.coder.job = some run → run.job.cam ≠ k) (l : List SlotId) :
    p.Quits k (l.foldl (fun p i => p.abandonStopped k i) p) := by
  induction l generalizing p with
  | nil => exact .refl k p
  | cons i rest ih =>
    have step := abandonStopped_quits apart i
    exact step.trans (ih (by rw [step.job]; exact apart))

/-- What the completion of a stop comes to whatever the camera held. -/
theorem finishStop_says (apart : ∀ run, p.coder.job = some run → run.job.cam ≠ k) {d : Deferred} (awaits : p.cmd.awaits d)
    (kind : d.kind = .stopCamera k) :
    let q := p.finishStop k
    let c := q.cameras.nth k
    c.state = .stopped ∧ c.slotA = Slot.clear ∧ c.slotB = Slot.clear ∧
      ((p.cameras.nth k).held = none → c.counter = (p.cameras.nth k).counter) ∧ c.carried = (p.cameras.nth k).carried ∧
      q.cmd.deferred = (p.cmd.deferred.filter fun e => e.kind != .stopCamera k) ∧
      q.cmd.completions = p.cmd.completions ++ [⟨d.ring, d.tag, .done, []⟩] ∧
      (q.coder.queue.filter fun j => j.cam != k) = p.coder.queue.filter fun j => j.cam != k := by
  intro q c
  have quits := foldl_quits apart (p.cameras.nth k).slotOrder
  have finish : q = Part.completeDeferred (.stopCamera k) .done (Part.updCamera ((p.cameras.nth k).slotOrder.foldl (fun p i =>
      p.abandonStopped k i) p) k fun c => { c with slotA := Slot.clear, slotB := Slot.clear, held := none, state := .stopped }) := rfl
  generalize (p.cameras.nth k).slotOrder.foldl (fun p i => p.abandonStopped k i) p = z at quits finish
  have awaits' : z.cmd.awaits d := by
    rw [quits.cmd.rest]
    exact awaits
  have completed := completeDeferred_of_awaits
    (p := z.updCamera k fun c => { c with slotA := Slot.clear, slotB := Slot.clear, held := none, state := .stopped }) awaits'
  rw [kind] at completed
  have ended := finish.trans completed
  have camera : c = { (z.cameras.nth k) with slotA := Slot.clear, slotB := Slot.clear, held := none, state := .stopped } := by
    unfold c
    rw [ended]
    exact Table.nth_upd_same ..
  rw [camera]
  refine ⟨rfl, rfl, rfl, fun none' => (quits.still none').2, quits.carried, ?_, ?_, ?_⟩
  · rw [ended, ← kind]
    exact congrArg (fun x : Commander => x.deferred.filter fun e => e.kind != d.kind) quits.cmd.rest
  · rw [ended]
    exact congrArg (fun x : Commander => x.completions ++ [⟨d.ring, d.tag, .done, []⟩]) quits.cmd.rest
  · rw [ended]
    exact quits.queue

end

/-! The take of STOP CAMERA (R59). -/

theorem coderOn_iff {p : Part} {k : Fin 8} : p.coderOn k = true ↔ ∃ run, p.coder.job = some run ∧ run.job.cam = k := by
  unfold Part.coderOn
  cases p.coder.job with
  | none => exact ⟨nofun, fun ⟨_, h, _⟩ => nomatch h⟩
  | some run => exact beq_iff_eq.trans ⟨fun h => ⟨run, rfl, h⟩, fun ⟨_, same, h⟩ => Option.some.inj same ▸ h⟩

/-- The part once a camera is stopping, its queued jobs gone, its job discarded, its held write let through. -/
def Part.stopping (k : Fin 8) (p : Part) : Part :=
  let p1 := (p.updCamera k fun c => { c with state := .stopping }).tally
  let p2 := p1.setCoder { p1.coder with queue := p1.coder.queue.filter fun j => j.cam != k }
  let p3 := if p2.coderOn k then p2.discardJob else p2
  let p4 := match (p3.cameras.nth k).held with
    | some h => (p3.dropHeld k).offerHeld h.port false
    | none => p3
  p4.updCamera k fun c => { c with pending := none }

theorem beginStop_eq (k : Fin 8) (p : Part) : p.beginStop k = if (p.stopping k).coderOn k then p.stopping k else (p.stopping k).finishStop k := rfl

/-- The part whose camera is stopping, with its queued jobs gone and its TALLY lines off. -/
def Part.halting (k : Fin 8) (p : Part) : Part :=
  let x := p.cameras.put k { (p.cameras.nth k) with state := .stopping }
  { p with cameras := x, cues := tallied x p.cues, coder := { p.coder with queue := p.coder.queue.filter fun j => j.cam != k } }

/-- The ports once a write held for the camera is let through, untracked (R52). -/
def Part.lettingThrough (p : Part) (held : Option HeldWrite) : Table Port 6 :=
  match held with
  | none => p.path.ports
  | some h => p.path.ports.upd h.port fun q => { q with queue := match q.queue with
    | [] => []
    | a :: rest => { a with phase := .offered, tracked := false } :: rest }

theorem updHead_letsThrough (q : Port) : (q.updHead fun a => { a with phase := .offered, tracked := false }) =
    { q with queue := match q.queue with
      | [] => []
      | a :: rest => { a with phase := .offered, tracked := false } :: rest } := by
  obtain ⟨queue, refusals, reads, writes, last⟩ := q
  cases queue <;> rfl

section

variable {k : Fin 8} {p : Part}

theorem halting_tally : ((p.updCamera k fun c => { c with state := .stopping }).tally.setCoder
    { p.coder with queue := p.coder.queue.filter fun j => j.cam != k }) = p.halting k := by
  rw [tally_eq]
  rfl

/-- The discard of a job of the camera, if the coder holds one. -/
def Part.discarding (k : Fin 8) (p : Part) : Part := if p.coderOn k then p.discardJob else p

theorem discarding_rest (k : Fin 8) (p : Part) : let q := p.discarding k
    q = { p with coder := { p.coder with job := q.coder.job, counts := q.coder.counts }, path := { p.path with streams := q.path.streams } } := by
  intro q
  unfold q Part.discarding
  split
  · exact (discardJob_says p).1
  · rfl

theorem stopping_eq (k : Fin 8) (p : Part) :
    let q := (p.halting k).discarding k
    p.stopping k = { q with
      cameras := p.cameras.put k { (p.cameras.nth k) with state := .stopping, pending := none, held := none }
      path := { q.path with ports := p.lettingThrough (p.cameras.nth k).held } } := by
  intro q
  have rest : q = _ := discarding_rest k (p.halting k)
  have table : q.cameras = p.cameras.put k { (p.cameras.nth k) with state := .stopping } := by rw [rest]; rfl
  have camera : q.cameras.nth k = { (p.cameras.nth k) with state := .stopping } := by rw [table, Table.nth_put_same]
  have ports : q.path.ports = p.path.ports := by rw [rest]; rfl
  have unfolded : p.stopping k = Part.updCamera (match (q.cameras.nth k).held with
      | some h => (q.dropHeld k).offerHeld h.port false
      | none => q) k fun c => { c with pending := none } := by
    unfold Part.stopping
    dsimp only
    rw [show (p.updCamera k fun c => { c with state := .stopping }).tally.coder = p.coder from rfl, halting_tally]
    rfl
  rw [unfolded, camera]
  dsimp only
  cases held : (p.cameras.nth k).held with
  | none =>
    dsimp only
    unfold Part.updCamera Table.upd Part.lettingThrough
    dsimp only
    rw [table, Table.nth_put_same, Table.put_put, held, ← ports]
    rfl
  | some h =>
    have dropped : q.dropHeld k = q.setCameras (p.cameras.put k { (p.cameras.nth k) with state := .stopping, held := none }) := by
      unfold Part.dropHeld Part.updCamera Table.upd
      rw [table, Table.nth_put_same, Table.put_put]
    have offered : (q.dropHeld k).offerHeld h.port false = { q with
        cameras := p.cameras.put k { (p.cameras.nth k) with state := .stopping, held := none }
        path := { q.path with ports := p.lettingThrough (some h) } } := by
      rw [dropped]
      unfold Part.offerHeld Part.updPort Part.lettingThrough Table.upd
      dsimp only
      rw [updHead_letsThrough, ← ports]
      rfl
    dsimp only
    rw [offered]
    unfold Part.updCamera Table.upd
    dsimp only
    rw [Table.nth_put_same, Table.put_put]
    rfl

/-- What the camera's TALLY lines, its jobs and its command see of a stop. -/
theorem stopping_says (k : Fin 8) (p : Part) :
    let q := p.stopping k
    q = { p with
      cameras := p.cameras.put k { (p.cameras.nth k) with state := .stopping, pending := none, held := none }
      cues := tallied q.cameras p.cues
      path := { p.path with ports := p.lettingThrough (p.cameras.nth k).held, streams := q.path.streams }
      coder := { q.coder with
        queue := p.coder.queue.filter fun j => j.cam != k, rates := p.coder.rates, highWater := p.coder.highWater } } ∧
    (∀ run, p.coder.job = some run → run.job.cam = k →
      (run.lasts p.path → q.coder.job = some { run with discarded := true } ∧ q.coder.counts = p.coder.counts ∧
        q.path.streams = p.path.streams ∧ q.coderOn k = true) ∧
      (¬ run.lasts p.path → q.coder.job = none ∧
        q.coder.counts = (p.coder.counts.upd k fun x => { x with discarded := count x.discarded }) ∧
        q.path.streams = p.path.streams.put coderStream none ∧ q.coderOn k = false)) ∧
    ((∀ run, p.coder.job = some run → run.job.cam ≠ k) → q.coder.job = p.coder.job ∧
      q.coder.counts = p.coder.counts ∧ q.path.streams = p.path.streams ∧ q.coderOn k = false) := by
  intro q
  have eq : q = _ := stopping_eq k p
  have rest := discarding_rest k (p.halting k)
  have cues : tallied (p.halting k).cameras p.cues = tallied q.cameras p.cues := by
    refine tallied_congr (fun j => ?_) _
    rw [eq]
    dsimp only [Part.halting]
    rw [Table.nth_put, Table.nth_put]
    split <;> exact ⟨rfl, rfl⟩
  have jobless : q.coder = ((p.halting k).discarding k).coder := by rw [eq]
  have streams : q.path.streams = ((p.halting k).discarding k).path.streams := by rw [eq]
  have on : q.coderOn k = ((p.halting k).discarding k).coderOn k := congrArg (fun y : Coder => match y.job with
    | some j => j.job.cam == k
    | none => false) jobless
  refine ⟨?_, fun run running here => ⟨fun lasts => ?_, fun stops => ?_⟩, fun apart => ?_⟩
  · rw [← cues, jobless, streams]
    refine eq.trans ?_
    generalize (p.halting k).discarding k = z at rest
    rw [rest]
    rfl
  · have there : (p.halting k).discarding k = _ := (if_pos (coderOn_iff.2 ⟨run, running, here⟩)).trans (discardJob_lasts running lasts)
    rw [jobless, streams, on, there]
    exact ⟨rfl, rfl, rfl, beq_iff_eq.2 here⟩
  · have there : (p.halting k).discarding k = _ := (if_pos (coderOn_iff.2 ⟨run, running, here⟩)).trans (discardJob_ends running stops)
    rw [jobless, streams, on, there]
    exact ⟨rfl, by rw [here]; rfl, rfl, rfl⟩
  · have there : (p.halting k).discarding k = p.halting k := if_neg fun still => by
      obtain ⟨run, running, here⟩ := coderOn_iff.1 still
      exact apart run running here
    rw [jobless, streams, on, there]
    refine ⟨rfl, rfl, rfl, Bool.eq_false_iff.2 fun still => ?_⟩
    obtain ⟨run, running, here⟩ := coderOn_iff.1 still
    exact apart run running here

end

end Sys2Proof.Machine
end

section
/-! STOP CAMERA and its completion settled (O27). -/

namespace Sys2Proof.Machine

section

variable {p : Part} {k : DeferredKind} (free : p.noneOutstanding k) (i : Nat) (tag : Word)

include free

/-- A command deferred where none of its kind was is the one its object awaits. -/
theorem deferring_awaits : (p.deferring i tag k).cmd.awaits ⟨i, tag, k⟩ := by
  have before : p.cmd.deferred.find? (fun e => e.kind == k) = none :=
    List.find?_eq_none.2 fun e he same => free e he (beq_iff_eq.1 same)
  refine (List.find?_append ..).trans ?_
  rw [before, Option.none_or]
  exact List.find?_cons_of_pos (beq_self_eq_true k)

/-- The deferred commands once it has completed. -/
theorem deferring_filter : ((p.deferring i tag k).cmd.deferred.filter fun e => e.kind != k) = p.cmd.deferred := by
  refine (List.filter_append ..).trans ?_
  rw [List.filter_eq_self.2 fun e he => bne_iff_ne.2 (free e he), List.filter_cons_of_neg (by simp)]
  exact List.append_nil _

end

section

variable {k : Fin 8} {p : Part}

/-- A stop that completes at its take: the coder holds no job of the camera. -/
theorem stopping_finishes {d : Deferred} (awaits : p.cmd.awaits d) (kind : d.kind = .stopCamera k) (over' : (p.stopping k).coderOn k = false) :
    (p.stopping k).stops k d.ring d.tag ((p.stopping k).finishStop k) := by
  have eq := (stopping_says k p).1
  have cmd : (p.stopping k).cmd = p.cmd := by rw [eq]
  have queue : (p.stopping k).coder.queue = p.coder.queue.filter fun j => j.cam != k := by rw [eq]
  refine finishStop_stops ?_ (fun run running here => ?_) (fun j hj => ?_) (by rw [cmd]; exact awaits) kind
  · rw [eq]
    exact congrArg Camera.held (Table.nth_put_same ..)
  · rw [coderOn_iff.2 ⟨run, running, here⟩] at over'
    exact nomatch over'
  · rw [queue] at hj
    exact bne_iff_ne.1 (List.mem_filter.1 hj).2

/-- The coder's job is not touched by a completion. -/
theorem Part.stops.coderOn {q : Part} {i : Nat} {tag : Word} (h : p.stops k i tag q) : q.coderOn k = p.coderOn k := by
  rw [h.1]
  rfl

theorem stopping_state (k : Fin 8) (p : Part) : ((p.stopping k).cameras.nth k).state = .stopping := by
  rw [(stopping_says k p).1]
  exact congrArg Camera.state (Table.nth_put_same ..)

/-- A TALLY line of a stopping camera is off. -/
theorem stopping_tally {l : Fin 8} (mode : (p.cues.nth l).cfg.mode = .tally) (on : (p.cues.nth l).cfg.tally = k.val) :
    ((p.stopping k).cues.nth l).outputOn = false := by
  have cues : (p.stopping k).cues = tallied (p.stopping k).cameras p.cues := (congrArg Part.cues (stopping_says k p).1 :)
  rw [cues, tallied_nth, if_pos mode]
  refine decide_eq_false fun ⟨j, hj, running, _⟩ => ?_
  obtain rfl : k = j := Fin.ext (on.symm.trans hj)
  rw [stopping_state] at running
  exact nomatch running

end

/-- Settles O27: the take stops the camera and discards its work (`stopping_says`), and completes at once unless the coder
still holds a job of it (`stopping_finishes`); the completion settles what is left of its pictures (`finishStop_says`). -/
theorem aStoppedCameraKeepsNoWork : Obligations.AStoppedCameraKeepsNoWork := by
  unfold Obligations.AStoppedCameraKeepsNoWork
  intro s
  refine ⟨fun i tag camera h => ?_, fun k => ⟨fun waits => ?_, fun d stopping done' kind awaits => ?_⟩⟩
  · have ran : exec (.stopCamera tag camera) s = _ := exec_of_taken h rfl
    rw [ran]
    refine ⟨fun bad => ?_, fun k hk => ?_⟩
    · rw [objectOf_eq_none.2 bad]
      rfl
    rw [objectOf_eq_some.2 hk]
    refine ⟨fun busy => next_becomes (if_pos ((outstanding_eq_true ..).2 busy)), fun free other => ?_, fun free running => ?_⟩
    · have quiet : ¬ s.part.handEmpty.outstanding (.stopCamera k) = true := fun busy => (outstanding_eq_true ..).1 busy free
      exact next_becomes ((if_neg quiet).trans (if_pos other))
    · have quiet : ¬ s.part.handEmpty.outstanding (.stopCamera k) = true := fun busy => (outstanding_eq_true ..).1 busy free
      intro c lasts
      have awaits := deferring_awaits free i tag
      have others := deferring_filter free i tag
      obtain ⟨eq, mine, apart⟩ := stopping_says k (s.part.deferring i tag (.stopCamera k))
      have cmd : ((s.part.deferring i tag (.stopCamera k)).stopping k).cmd = (s.part.deferring i tag (.stopCamera k)).cmd := by rw [eq]
      have finish := stopping_finishes (k := k) awaits rfl
      have stays : ((s.part.deferring i tag (.stopCamera k)).stopping k).coderOn k = true →
          (s.part.deferring i tag (.stopCamera k)).beginStop k = (s.part.deferring i tag (.stopCamera k)).stopping k :=
        fun on => (beginStop_eq ..).trans (if_pos on)
      have ends : ((s.part.deferring i tag (.stopCamera k)).stopping k).coderOn k = false →
          (s.part.deferring i tag (.stopCamera k)).beginStop k = ((s.part.deferring i tag (.stopCamera k)).stopping k).finishStop k :=
        fun off => (beginStop_eq ..).trans (if_neg (Bool.not_eq_true _ ▸ off))
      refine ⟨s.becomes ((s.part.deferring i tag (.stopCamera k)).beginStop k), (s.part.deferring i tag (.stopCamera k)).stopping k,
        next_becomes ((if_neg quiet).trans (if_neg (not_not_intro running))), rfl, rfl, eq, fun l mode => stopping_tally (p := s.part.deferring i tag (.stopCamera k)) mode, fun run job here => ?_,
        fun none' => ?_, ?_⟩
      · obtain ⟨goesOn, isOver⟩ := mine run job here
        refine ⟨fun l => ?_, fun l => ?_⟩
        · obtain ⟨j, counts, streams, on⟩ := goesOn l
          exact ⟨j, counts, streams, stays on⟩
        · obtain ⟨j, counts, streams, off⟩ := isOver l
          exact ⟨j, counts, streams, (ends off).symm ▸ finish off⟩
      · obtain ⟨j, counts, streams, off⟩ := apart none'
        exact ⟨j, counts, streams, (ends off).symm ▸ finish off⟩
      · cases on : ((s.part.deferring i tag (.stopCamera k)).stopping k).coderOn k with
        | true =>
          have same := stays on
          refine .inl ⟨?_, ?_, ?_⟩
          · exact (congrArg (fun q : Part => (q.cameras.nth k).state) same).trans (stopping_state ..)
          · exact (congrArg (fun q : Part => q.coderOn k) same).trans on
          · exact (congrArg (fun q : Part => q.cmd.deferred) same).trans (congrArg Commander.deferred cmd)
        | false =>
          have same := ends on
          have apart' : ∀ run, ((s.part.deferring i tag (.stopCamera k)).stopping k).coder.job = some run → run.job.cam ≠ k :=
            fun run job here => absurd (on.symm.trans (coderOn_iff.2 ⟨run, job, here⟩)) nofun
          obtain ⟨state, slotA, slotB, -, -, deferred, completions, -⟩ := finishStop_says apart' (cmd.symm ▸ awaits) rfl
          rw [cmd, others] at deferred
          rw [cmd] at completions
          refine .inr ⟨?_, ?_, ?_, ?_, ?_, ?_⟩
          · exact (congrArg (fun q : Part => (q.cameras.nth k).state) same).trans state
          · exact (congrArg (fun q : Part => q.coderOn k) same).trans ((finish on).coderOn.trans on)
          · exact (congrArg (fun q : Part => (q.cameras.nth k).slotA) same).trans slotA
          · exact (congrArg (fun q : Part => (q.cameras.nth k).slotB) same).trans slotB
          · exact (congrArg (fun q : Part => q.cmd.deferred) same).trans deferred
          · exact (congrArg (fun q : Part => q.cmd.completions) same).trans completions
  · refine next_becomes (if_neg fun ⟨state, quiet⟩ => ?_)
    obtain other | on := waits
    · exact other state
    · rw [on] at quiet
      exact nomatch quiet
  · have apart : ∀ run, s.part.coder.job = some run → run.job.cam ≠ k :=
      fun run job here => absurd (done'.symm.trans (coderOn_iff.2 ⟨run, job, here⟩)) nofun
    obtain ⟨state, slotA, slotB, counter, carried, deferred, completions, queue⟩ := finishStop_says apart awaits kind
    have ran : exec (.stopCameraComplete k) s = .next (s.becomes (s.part.finishStop k)) :=
      next_becomes (if_pos ⟨stopping, by rw [done']; rfl⟩)
    exact ⟨_, ran, rfl, rfl, state, slotA, slotB, counter, carried, deferred, completions, queue,
      fun held empty => finishStop_stops held apart empty awaits kind⟩

end Sys2Proof.Machine
end

section
/-! What the frame tracker and the head check do not look at: a change of another side of the part may be made before or after them.
One lemma for each operation they run (R3, R4, R46 to R57), for any such change; and the change of what the command engine has in
hand, defers and has completed, and of what has left the part. -/

namespace Sys2Proof.Machine

/-- The change is one of a side of the part that the pictures, the jobs and the rings are apart from. -/
structure Aside (T : Part → Part) : Prop where
  now : ∀ p, (T p).now = p.now
  cameras : ∀ p, (T p).cameras = p.cameras
  coder : ∀ p, (T p).coder = p.coder
  rings : ∀ p, (T p).rings = p.rings
  clock : ∀ p, (T p).clock = p.clock
  cues : ∀ p, (T p).cues = p.cues
  windows : ∀ p, (T p).path.windows = p.path.windows
  busy : ∀ p, (T p).path.streamBusy coderStream = p.path.streamBusy coderStream
  setCameras : ∀ p x, (T p).setCameras x = T (p.setCameras x)
  setCoder : ∀ p x, (T p).setCoder x = T (p.setCoder x)
  setRings : ∀ p x, (T p).setRings x = T (p.setRings x)
  setCues : ∀ p x, (T p).setCues x = T (p.setCues x)
  withdraw : ∀ p, (T p).withdraw coderStream = T (p.withdraw coderStream)
  raise : ∀ p c n, (T p).raise c n = T (p.raise c n)

/-- The change leaves the port records, and a request may be refused before or after it. -/
structure AsideOfHeads (T : Part → Part) : Prop extends Aside T where
  ports : ∀ p, (T p).path.ports = p.path.ports
  updPort : ∀ p port f, (T p).updPort port f = T (p.updPort port f)
  refuse : ∀ p port tag r why, (T p).refuseRequest port tag r why = T (p.refuseRequest port tag r why)

namespace Aside

variable {T : Part → Part} (h : Aside T) (p : Part)

include h

theorem updCamera (k : Fin 8) (f : Camera → Camera) : (T p).updCamera k f = T (p.updCamera k f) := by
  unfold Part.updCamera
  rw [h.cameras, h.setCameras]

theorem discardJob : (T p).discardJob = T p.discardJob := by
  unfold Part.discardJob
  rw [h.coder]
  cases p.coder.job with
  | none => rfl
  | some j =>
    dsimp only
    rw [h.setCoder, h.busy, h.withdraw, apply_ite T, apply_ite T, apply_ite T]
    have ends : Part.endDiscarded j (T (p.withdraw coderStream)) = T (Part.endDiscarded j (p.withdraw coderStream)) := by
      unfold Part.endDiscarded Part.updCoderCounts
      rw [h.coder, h.setCoder, h.coder, h.setCoder]
    rw [ends]

end Aside

/-- The discard of the job in progress, where it is the picture's. -/
def Part.workEnds (k : Fin 8) (i : SlotId) (n : Word) (p : Part) : Part :=
  match p.coder.job with
  | some j => if j.job.cam = k ∧ j.job.slot = i ∧ j.job.number = n then p.discardJob else p
  | none => p

/-- The camera's rate-control record gone, where it names the picture. -/
def Part.unrated (k : Fin 8) (n : Word) (p : Part) : Part :=
  match p.coder.rates.nth k with
  | some r => if r.number = n then p.setCoder { p.coder with rates := p.coder.rates.put k none } else p
  | none => p

theorem dropWork_steps (k : Fin 8) (i : SlotId) (n : Word) (p : Part) : p.dropWork k i n = ((p.setCoder { p.coder with
    queue := p.coder.queue.filter fun j => !(j.cam == k && j.slot == i && j.number == n) }).workEnds k i n).unrated k n := rfl

theorem settlePicture_raises (k : Fin 8) (st : Stamp) (cause : SettleCause) (p : Part) : p.settlePicture k st cause =
    if (p.rings.nth k).loses cause st then (p.setRings (p.rings.put k ((p.rings.nth k).settling cause st))).raise .ring k.val
    else p.setRings (p.rings.put k ((p.rings.nth k).settling cause st)) := by
  rw [settlePicture_eq, raise_eq]
  split <;> rfl

namespace Aside

variable {T : Part → Part} (h : Aside T) (p : Part)

include h

theorem workEnds (k : Fin 8) (i : SlotId) (n : Word) : (T p).workEnds k i n = T (p.workEnds k i n) := by
  unfold Part.workEnds
  rw [h.coder]
  cases p.coder.job with
  | none => rfl
  | some j =>
    dsimp only
    rw [h.discardJob, apply_ite T]

theorem unrated (k : Fin 8) (n : Word) : (T p).unrated k n = T (p.unrated k n) := by
  unfold Part.unrated
  rw [h.coder]
  cases p.coder.rates.nth k with
  | none => rfl
  | some r =>
    dsimp only
    rw [h.setCoder, apply_ite T]

theorem dropWork (k : Fin 8) (i : SlotId) (n : Word) : (T p).dropWork k i n = T (p.dropWork k i n) := by
  rw [dropWork_steps, dropWork_steps, h.coder, h.setCoder, h.workEnds, h.unrated]

theorem settlePicture (k : Fin 8) (st : Stamp) (cause : SettleCause) : (T p).settlePicture k st cause = T (p.settlePicture k st cause) := by
  rw [settlePicture_raises, settlePicture_raises, h.rings, h.setRings, h.raise, apply_ite T]

theorem unmade (k : Fin 8) (i : SlotId) : (T p).unmade k i = T (p.unmade k i) := by
  unfold Part.unmade
  rw [h.cameras]
  cases ((p.cameras.nth k).slot i).stamp with
  | none => rfl
  | some st =>
    dsimp only
    rw [h.dropWork, h.settlePicture, apply_ite T]

theorem tear (k : Fin 8) (i : SlotId) : (T p).tear k i = T (p.tear k i) := by
  rw [tear_eq, tear_eq, h.unmade, h.cameras, h.setCameras, h.raise]

theorem tally : (T p).tally = T p.tally := by
  rw [tally_eq, tally_eq]
  change (T p).setCues (tallied (T p).cameras (T p).cues) = T (p.setCues (tallied p.cameras p.cues))
  rw [h.cameras, h.cues, h.setCues]

theorem takeSlotStart (k : Fin 8) (i : SlotId) : (T p).takeSlotStart k i = T (p.takeSlotStart k i) := by
  unfold Part.takeSlotStart
  rw [h.clock, h.updCamera, h.tally]

/-- How a slot start is judged. -/
theorem judgeStart (k : Fin 8) (i : SlotId) (port : Fin 6) (tag : BitVec 6) :
    (T p).judgeStart k i port tag = ((p.judgeStart k i port tag).1, T (p.judgeStart k i port tag).2) := by
  unfold Part.judgeStart Part.countCamera
  simp only [h.cameras, h.now, h.takeSlotStart, h.tear, h.updCamera, h.raise]
  cases ((p.cameras.nth k).slot i).state with
  | empty | done | torn | filling => rfl
  | coding =>
    cases (p.cameras.nth k).cfg.policy with
    | drop => rfl
    | hold =>
      dsimp only
      split <;> rfl

theorem startOf (w : Fin 32) (r : Request) : (T p).startOf w r = p.startOf w r := by
  unfold Part.startOf Part.slotBase
  rw [h.windows, h.cameras]

theorem frameVerdict (port : Fin 6) (tag : BitVec 6) (w : Fin 32) (r : Request) :
    (T p).frameVerdict port tag w r = ((p.frameVerdict port tag w r).1, T (p.frameVerdict port tag w r).2) := by
  unfold Part.frameVerdict
  rw [h.startOf]
  cases p.startOf w r with
  | none => rfl
  | some start =>
    dsimp only
    rw [h.judgeStart]
    obtain ⟨result, q⟩ := p.judgeStart start.1 start.2 port tag
    cases result <;> rfl

theorem kindVerdict (port : Fin 6) (tag : BitVec 6) (w : Fin 32) (r : Request) :
    (T p).kindVerdict port tag w r = ((p.kindVerdict port tag w r).1, T (p.kindVerdict port tag w r).2) := by
  have aliased : (T p).aliasVerdict w r = p.aliasVerdict w r := by
    unfold Part.aliasVerdict Part.slotBase
    rw [h.windows, h.cameras]
  unfold Part.kindVerdict
  dsimp only
  rw [h.frameVerdict, aliased, h.windows]
  generalize p.frameVerdict port tag w r = verdict
  cases (p.path.windows.nth w).kind <;> cases r.kind <;> rfl

/-- The tests of the head check. -/
theorem judge (port : Fin 6) (tag : BitVec 6) (r : Request) : (T p).judge port tag r = ((p.judge port tag r).1, T (p.judge port tag r).2) := by
  have place : (T p).path.place r.first r.next = p.path.place r.first r.next := by
    unfold Path.place
    rw [h.windows]
  unfold Part.judge
  rw [place, h.windows]
  split
  · rfl
  · cases p.path.place r.first r.next with
    | split => rfl
    | openGround => rfl
    | inside w =>
      dsimp only
      rw [h.kindVerdict]
      split
      · rfl
      · split <;> rfl

end Aside

theorem AsideOfHeads.checkHeads {T : Part → Part} (h : AsideOfHeads T) (port : Fin 6) (n : Nat) (p : Part) :
    (T p).checkHeads port n = T (p.checkHeads port n) := by
  induction n generalizing p with
  | zero => rfl
  | succ n ih =>
    unfold Part.checkHeads
    rw [h.ports]
    cases (p.path.ports.nth port).queue with
    | nil => rfl
    | cons a rest =>
      dsimp only
      split
      · rw [h.judge]
        obtain ⟨verdict, q⟩ := p.judge port a.tag a.req
        cases verdict with
        | refuse why =>
          dsimp only
          rw [h.refuse, h.updPort, ih]
        | pass => exact h.updPort ..
        | hold => exact h.updPort ..
      · rfl

theorem AsideOfHeads.checkHead {T : Part → Part} (h : AsideOfHeads T) (port : Fin 6) (p : Part) :
    (T p).checkHead port = T (p.checkHead port) := by
  unfold Part.checkHead
  rw [h.ports, h.checkHeads]

/-! What the command engine has at its desk, and what has left the part. -/

/-- The part with these outputs before its own, and another hand, deferred list and pending completions of the command engine. -/
def Part.desk (p : Part) (o : List Output) (h : Option (Nat × Instr)) (d : List Deferred) (c : List Completion) : Part :=
  { p with outputs := o ++ p.outputs, cmd := { p.cmd with inHand := h, deferred := d, completions := c } }

section

variable (p : Part) (o : List Output) (h : Option (Nat × Instr)) (d : List Deferred) (c : List Completion)

theorem raised_desk (x : Commander) (n : Cause × Nat) : Commander.raised { x with inHand := h, deferred := d, completions := c } n =
    { (x.raised n) with inHand := h, deferred := d, completions := c } := by
  unfold Commander.raised
  by_cases pending : n ∈ x.notices
  · rw [if_pos pending, if_pos pending]
  · rw [if_neg pending, if_neg pending]

theorem raise_desk (cause : Cause) (n : Nat) : (p.desk o h d c).raise cause n = (p.raise cause n).desk o h d c := by
  rw [raise_eq, raise_eq]
  exact congrArg (Part.setCmd (p.desk o h d c)) (raised_desk ..)

theorem refuseRequest_desk (port : Fin 6) (tag : BitVec 6) (r : Request) (why : Reason) :
    (p.desk o h d c).refuseRequest port tag r why = (p.refuseRequest port tag r why).desk o h d c := by
  unfold Part.refuseRequest
  rw [← raise_desk]
  unfold Part.emit Part.updPort Part.setPath Part.desk
  dsimp only
  rw [List.append_assoc]

theorem desk_asideOfHeads : AsideOfHeads (Part.desk · o h d c) where
  now _ := rfl
  cameras _ := rfl
  coder _ := rfl
  rings _ := rfl
  clock _ := rfl
  cues _ := rfl
  windows _ := rfl
  busy _ := rfl
  setCameras _ _ := rfl
  setCoder _ _ := rfl
  setRings _ _ := rfl
  setCues _ _ := rfl
  withdraw _ := rfl
  raise p := raise_desk p o h d c
  ports _ := rfl
  updPort _ _ _ := rfl
  refuse p := refuseRequest_desk p o h d c

theorem checkHeads_desk (port : Fin 6) (n : Nat) : (p.desk o h d c).checkHeads port n = (p.checkHeads port n).desk o h d c :=
  (desk_asideOfHeads o h d c).checkHeads port n p

end

end Sys2Proof.Machine
end

section
/-! CLOSE WINDOW and WINDOW DRAINED (O14). -/

namespace Sys2Proof.Machine

/-! What an operation that does not look at the desk leaves of it. -/

section

variable {f : Part → Part} (hf : ∀ p o h d c, f (Part.desk p o h d c) = (f p).desk o h d c) (p : Part)

include hf

theorem handEmpty_of_desk : f p.handEmpty = (f p).handEmpty ∧ (f p).cmd.deferred = p.cmd.deferred ∧
    (f p).cmd.completions = p.cmd.completions ∧ p.outputs <+: (f p).outputs := by
  have stands : { p with outputs := [] }.desk p.outputs p.cmd.inHand p.cmd.deferred p.cmd.completions = p := by
    unfold Part.desk
    rw [List.append_nil]
  have emptied : { p with outputs := [] }.desk p.outputs none p.cmd.deferred p.cmd.completions = p.handEmpty := by
    unfold Part.desk
    rw [List.append_nil]
    rfl
  have there := (congrArg f stands).symm.trans (hf ..)
  refine ⟨?_, ?_, ?_, ?_⟩
  · rw [← emptied, hf, there]
    rfl
  · rw [there]
    rfl
  · rw [there]
    rfl
  · rw [there]
    exact List.prefix_append ..

end

theorem foldl_desk {α : Type} {f : Part → α → Part} (hf : ∀ x p o h d c, f (Part.desk p o h d c) x = (f p x).desk o h d c) (l : List α)
    (p : Part) (o : List Output) (h : Option (Nat × Instr)) (d : List Deferred) (c : List Completion) :
    l.foldl f (p.desk o h d c) = (l.foldl f p).desk o h d c := by
  induction l generalizing p with
  | nil => rfl
  | cons x rest ih =>
    rw [List.foldl_cons, hf, ih]
    rfl

/-! The writes held in a draining window. -/

/-- The head check of a port leaves the other ports alone. -/
theorem checkHeads_ports {port j : Fin 6} (other : j ≠ port) (n : Nat) (p : Part) :
    (p.checkHeads port n).path.ports.nth j = p.path.ports.nth j := by
  induction n generalizing p with
  | zero => rfl
  | succ n ih =>
    cases queue : (p.path.ports.nth port).queue with
    | nil =>
      unfold Part.checkHeads
      rw [queue]
    | cons a rest =>
      by_cases waiting : a.phase = .waiting
      · rw [checkHeads_waiting p port n a rest queue waiting]
        have keeps := judge_keeps p port a.tag a.req
        generalize p.judge port a.tag a.req = verdict at keeps
        obtain ⟨verdict, q⟩ := verdict
        have ports : q.path.ports = p.path.ports := by rw [show q = _ from keeps]; rfl
        cases verdict with
        | refuse why =>
          dsimp only
          rw [ih, refuseRequest_door, ← ports]
          exact (Table.nth_upd_other _ _ other.symm).trans (Table.nth_upd_other _ _ other.symm)
        | pass =>
          rw [← ports]
          exact Table.nth_upd_other _ _ other.symm
        | hold =>
          rw [← ports]
          exact Table.nth_upd_other _ _ other.symm
      · unfold Part.checkHeads
        rw [queue]
        dsimp only
        rw [if_neg waiting]

/-- The part once the write held at the head of a port is answered CLOSING and gone, before the requests behind it are checked. -/
def Part.closing (port : Fin 6) (a : Admitted) (p : Part) : Part :=
  Part.updPort (Part.refuseRequest port a.tag a.req .closing { p with
    cameras := p.cameras.each fun c => { c with held := c.held.filter fun h => h.port ≠ port } }) port Port.popHead

section

variable {w : Fin 32} {p : Part} {port : Fin 6}

theorem refuseHeld_nil (queue : (p.path.ports.nth port).queue = []) : p.refuseHeld w port = p := by
  unfold Part.refuseHeld
  rw [queue]

theorem refuseHeld_other {a : Admitted} {rest : List Admitted} (queue : (p.path.ports.nth port).queue = a :: rest)
    (other : ¬ (a.phase = .held ∧ a.via = some w)) : p.refuseHeld w port = p := by
  unfold Part.refuseHeld
  rw [queue]
  exact if_neg other

theorem held_filter (port : Fin 6) (c : Camera) : (match c.held with
    | some h => if h.port = port then { c with held := none } else c
    | none => c) = { c with held := c.held.filter fun h => h.port ≠ port } := by
  cases held : c.held with
  | none => exact (congrArg (fun x => { c with held := x }) held :)
  | some h =>
    dsimp only
    rw [Option.filter_some]
    by_cases same : h.port = port
    · rw [if_pos same, if_neg (by simp [same])]
    · rw [if_neg same, if_pos (by simp [same]), ← held]

theorem refuseHeld_held {a : Admitted} {rest : List Admitted} (queue : (p.path.ports.nth port).queue = a :: rest)
    (held : a.phase = .held ∧ a.via = some w) : p.refuseHeld w port = (p.closing port a).checkHead port := by
  unfold Part.refuseHeld Part.closing
  rw [queue]
  refine (if_pos held).trans ?_
  refine congrArg (fun x : Table Camera 8 => Part.checkHead port
    (Part.updPort (Part.refuseRequest port a.tag a.req .closing (p.setCameras x)) port Port.popHead)) (Table.ext_nth fun k => ?_)
  rw [Table.nth_each, Table.nth_each]
  exact held_filter port (p.cameras.nth k)

theorem closing_ports (port : Fin 6) (a : Admitted) (p : Part) : (p.closing port a).path.ports = p.path.ports.upd port fun q =>
    { q with queue := q.queue.tail, refusals := count q.refusals, last := some ⟨.closing, a.req.first, a.req.kind⟩ } := by
  unfold Part.closing
  rw [refuseRequest_door]
  exact table_upd_upd ..

theorem closing_desk (port : Fin 6) (a : Admitted) (p : Part) (o : List Output) (h : Option (Nat × Instr)) (d : List Deferred)
    (c : List Completion) : (p.desk o h d c).closing port a = (p.closing port a).desk o h d c := by
  unfold Part.closing
  have asked := refuseRequest_desk { p with cameras := p.cameras.each fun c => { c with held := c.held.filter fun h => h.port ≠ port } }
    o h d c port a.tag a.req .closing
  exact congrArg (Part.updPort · port Port.popHead) asked

theorem closing_withQueue (port : Fin 6) (a : Admitted) (p : Part) : p.closing port a = Part.withQueue (Part.refuseRequest port a.tag a.req .closing
    { p with cameras := p.cameras.each fun c => { c with held := c.held.filter fun h => h.port ≠ port } }) port
      ((p.closing port a).path.ports.nth port).queue := by
  have popped (q : Part) : q.updPort port Port.popHead = q.withQueue port (q.path.ports.nth port).queue.tail := rfl
  unfold Part.closing
  rw [popped, withQueue_queue]

/-- A refusal is answered. -/
theorem closing_answers (port : Fin 6) (a : Admitted) (p : Part) : .refused port a.tag .closing ∈ (p.closing port a).outputs := by
  unfold Part.closing Part.refuseRequest
  rw [raise_eq]
  exact List.mem_append_right _ (List.mem_singleton.2 rfl)

theorem refuseHeld_desk (port : Fin 6) (p : Part) (o : List Output) (h : Option (Nat × Instr)) (d : List Deferred) (c : List Completion) :
    (p.desk o h d c).refuseHeld w port = (p.refuseHeld w port).desk o h d c := by
  cases queue : (p.path.ports.nth port).queue with
  | nil => rw [refuseHeld_nil queue, refuseHeld_nil (p := p.desk o h d c) queue]
  | cons a rest =>
    by_cases held : a.phase = .held ∧ a.via = some w
    · rw [refuseHeld_held queue held, refuseHeld_held (p := p.desk o h d c) queue held, closing_desk]
      exact checkHeads_desk ..
    · rw [refuseHeld_other queue held, refuseHeld_other (p := p.desk o h d c) queue held]

theorem refuseHeld_ports {j : Fin 6} (other : j ≠ port) : (p.refuseHeld w port).path.ports.nth j = p.path.ports.nth j := by
  cases queue : (p.path.ports.nth port).queue with
  | nil => rw [refuseHeld_nil queue]
  | cons a rest =>
    by_cases held : a.phase = .held ∧ a.via = some w
    · rw [refuseHeld_held queue held]
      refine (checkHeads_ports other ..).trans ?_
      rw [closing_ports]
      exact Table.nth_upd_other _ _ other.symm
    · rw [refuseHeld_other queue held]

/-- Where the requests behind a held write wait, they line up. -/
theorem refuseHeld_closesHeld (waits : ∀ a rest b, (p.path.ports.nth port).queue = a :: rest → a.phase = .held → a.via = some w → b ∈ rest → b.waits) :
    p.refuseHeld w port = p.closesHeld w port := by
  cases queue : (p.path.ports.nth port).queue with
  | nil =>
    rw [refuseHeld_nil queue]
    unfold Part.closesHeld
    rw [queue]
  | cons a rest =>
    have closes : p.closesHeld w port = if a.phase = .held ∧ a.via = some w then
        (Part.refuseRequest port a.tag a.req .closing { p with
          cameras := p.cameras.each fun c => { c with held := c.held.filter fun h => h.port ≠ port } }).linedUp port rest
        else p := by
      unfold Part.closesHeld
      rw [queue]
    by_cases held : a.phase = .held ∧ a.via = some w
    · have left : ((p.closing port a).path.ports.nth port).queue = rest := by
        rw [closing_ports]
        refine (congrArg Port.queue (Table.nth_upd_same ..)).trans ?_
        exact congrArg List.tail queue
      rw [closes, if_pos held, refuseHeld_held queue held, checkHead_linedUp _ _ (by rw [left]; exact fun b => waits a rest b queue held.1 held.2), left]
      rw [closing_withQueue, linedUp_withQueue]
    · rw [closes, if_neg held, refuseHeld_other queue held]

/-- The writes held at these ports are refused as the statement spells it out. -/
theorem foldl_closesHeld (l : List (Fin 6)) (distinct : l.Nodup) (waits : ∀ port, port ∈ l → ∀ a rest b,
      (p.path.ports.nth port).queue = a :: rest → a.phase = .held → a.via = some w → b ∈ rest → b.waits) :
    l.foldl (Part.refuseHeld w) p = l.foldl (Part.closesHeld w) p := by
  induction l generalizing p with
  | nil => rfl
  | cons port rest ih =>
    obtain ⟨fresh, distinct⟩ := List.nodup_cons.1 distinct
    rw [List.foldl_cons, List.foldl_cons, ← refuseHeld_closesHeld (waits port (List.mem_cons_self ..))]
    refine ih distinct fun j hj => ?_
    rw [refuseHeld_ports (ne_of_mem_of_not_mem hj fresh)]
    exact waits j (List.mem_cons_of_mem _ hj)

/-- Every write held in the window at these ports is answered CLOSING. -/
theorem foldl_refuseHeld_answers (l : List (Fin 6)) (distinct : l.Nodup) (hport : port ∈ l) {a : Admitted} {rest : List Admitted}
    (queue : (p.path.ports.nth port).queue = a :: rest) (held : a.phase = .held ∧ a.via = some w) :
    .refused port a.tag .closing ∈ (l.foldl (Part.refuseHeld w) p).outputs := by
  induction l generalizing p with
  | nil => exact nomatch hport
  | cons j others ih =>
    obtain ⟨fresh, distinct⟩ := List.nodup_cons.1 distinct
    rw [List.foldl_cons]
    by_cases same : port = j
    · subst same
      have later := (handEmpty_of_desk (f := fun q => others.foldl (Part.refuseHeld w) q) (foldl_desk refuseHeld_desk others) (p.refuseHeld w port)).2.2.2
      refine later.subset ?_
      rw [refuseHeld_held queue held]
      exact (handEmpty_of_desk (fun p o h d c => checkHeads_desk p o h d c port _) (p.closing port a)).2.2.2.subset (closing_answers ..)
    · exact ih distinct ((List.mem_cons.1 hport).resolve_left same) (by rw [refuseHeld_ports same]; exact queue)

end

/-! The drain and the close (R22). -/

theorem any_list_iff {α : Type} {n : Nat} {t : Table α n} {f : α → Bool} : t.list.any f = true ↔ ∃ k, f (t.nth k) = true := by
  rw [List.any_eq_true]
  constructor
  · rintro ⟨x, hx, holds⟩
    obtain ⟨k, rfl⟩ := (nth_of_mem t x).1 hx
    exact ⟨k, holds⟩
  · exact fun ⟨k, holds⟩ => ⟨_, (nth_of_mem t _).2 ⟨k, rfl⟩, holds⟩

theorem windowInUse_iff {p : Part} {w : Fin 32} : p.windowInUse w = true ↔ p.usesWindow w := by
  have cameras : (p.cameras.list.any fun c => c.state != .stopped && (c.cfg.frameWin == w || c.cfg.replayWin == w)) = true ↔
      ∃ k, (p.cameras.nth k).state ≠ .stopped ∧ ((p.cameras.nth k).cfg.frameWin = w ∨ (p.cameras.nth k).cfg.replayWin = w) := by
    rw [any_list_iff]
    simp
  have sources : (p.mixer.sources.list.any fun x => x.cfg.on && x.cfg.win == w) = true ↔
      ∃ n, (p.mixer.sources.nth n).cfg.on = true ∧ (p.mixer.sources.nth n).cfg.win = w := by
    rw [any_list_iff]
    simp
  have buses : (p.mixer.buses.list.any fun b => b.cfg.active && b.cfg.win == w) = true ↔
      ∃ b, (p.mixer.buses.nth b).cfg.active = true ∧ (p.mixer.buses.nth b).cfg.win = w := by
    rw [any_list_iff]
    simp
  have pass : p.passUses w = true ↔ (p.path.windows.nth w).kind = .programme ∧ ∃ q, p.mixer.pass = some q ∧ ∃ b, (q.buses.nth b).cfg.win = w := by
    unfold Part.passUses
    rw [Bool.and_eq_true, beq_iff_eq]
    refine and_congr_right fun _ => ?_
    cases p.mixer.pass with
    | none => exact ⟨nofun, fun ⟨_, h, _⟩ => nomatch h⟩
    | some q =>
      dsimp only
      rw [any_list_iff]
      simp
  have rings : (match p.cmd.rings with | some r => r.cmdWin == w || r.statWin == w | none => false) = true ↔
      ∃ r, p.cmd.rings = some r ∧ (r.cmdWin = w ∨ r.statWin = w) := by
    cases p.cmd.rings <;> simp
  unfold Part.windowInUse Part.usesWindow
  rw [Bool.or_eq_true, Bool.or_eq_true, Bool.or_eq_true, Bool.or_eq_true, cameras, sources, buses, pass, or_assoc, or_assoc, or_assoc]
  exact or_congr_right (or_congr_right (or_congr_right (or_congr_right rings)))

/-- The part whose window drains, with these clips and streams, before the writes held in the window are refused. -/
def Part.draining (w : Fin 32) (clips : Clips) (x : Table (Option Request) 5) (p : Part) : Part :=
  { p with clips := clips, path := { (p.path.putWindow w { (p.path.windows.nth w) with state := .draining }) with streams := x } }

section

variable {w : Fin 32} {p : Part}

theorem drainEntry_stands (still : p.path.openOf .clipList ≠ some w ∨ p.clips.writing = none ∨ p.path.streams.nth clipsStream = none) :
    p.drainEntry w = (List.finRange 6).foldl (Part.refuseHeld w) (p.draining w p.clips p.path.streams) := by
  unfold Part.drainEntry
  refine congrArg (List.foldl (Part.refuseHeld w) · (List.finRange 6)) ?_
  by_cases mirror : p.path.openOf .clipList = some w
  · refine (if_pos mirror).trans ?_
    unfold Part.mirrorWithdraw
    obtain other | idle | free := still
    · exact absurd mirror other
    · rw [show (p.updWindow w fun x => { x with state := .draining }).clips.writing = none from idle]
      rfl
    · rw [show (p.updWindow w fun x => { x with state := .draining }).path.streams.nth clipsStream = none from free]
      cases (p.updWindow w fun x => { x with state := .draining }).clips.writing <;> rfl
  · exact if_neg mirror

/-- A mirror write offered and not yet granted is withdrawn as its window drains (R129). -/
theorem drainEntry_withdraws {pos : Fin 128} {r : Request} (mirror : p.path.openOf .clipList = some w) (writing : p.clips.writing = some pos)
    (offered : p.path.streams.nth clipsStream = some r) :
    p.drainEntry w = (List.finRange 6).foldl (Part.refuseHeld w) (p.draining w
      { p.clips with writing := none, mirror := insertPos pos p.clips.mirror } (p.path.streams.put clipsStream none)) := by
  unfold Part.drainEntry
  refine congrArg (List.foldl (Part.refuseHeld w) · (List.finRange 6)) ((if_pos mirror).trans ?_)
  unfold Part.mirrorWithdraw
  rw [show (p.updWindow w fun x => { x with state := .draining }).clips.writing = some pos from writing,
    show (p.updWindow w fun x => { x with state := .draining }).path.streams.nth clipsStream = some r from offered]
  rfl

/-- A drain in either case. -/
theorem drainEntry_eq (w : Fin 32) (p : Part) : ∃ clips x, p.drainEntry w = (List.finRange 6).foldl (Part.refuseHeld w) (p.draining w clips x) := by
  by_cases withdrawn : p.path.openOf .clipList = some w ∧ (∃ pos, p.clips.writing = some pos) ∧ ∃ r, p.path.streams.nth clipsStream = some r
  · obtain ⟨mirror, ⟨pos, writing⟩, r, offered⟩ := withdrawn
    exact ⟨_, _, drainEntry_withdraws mirror writing offered⟩
  · refine ⟨_, _, drainEntry_stands ?_⟩
    by_cases mirror : p.path.openOf .clipList = some w
    · refine .inr ?_
      by_cases writing : p.clips.writing = none
      · exact .inl writing
      · refine .inr (Option.eq_none_iff_forall_ne_some.2 fun r offered => withdrawn ⟨mirror, Option.ne_none_iff_exists'.1 writing, r, offered⟩)
    · exact .inl mirror

/-- The refusals of the writes held in the window, the command that closes it being in hand or not. -/
theorem foldl_refuseHeld_handEmpty (w : Fin 32) (q : Part) (l : List (Fin 6)) :
    l.foldl (Part.refuseHeld w) q.handEmpty = (l.foldl (Part.refuseHeld w) q).handEmpty ∧
      (l.foldl (Part.refuseHeld w) q).cmd.deferred = q.cmd.deferred ∧ (l.foldl (Part.refuseHeld w) q).cmd.completions = q.cmd.completions :=
  have ⟨empty, deferred, completions, _⟩ := handEmpty_of_desk (f := fun q => l.foldl (Part.refuseHeld w) q) (foldl_desk refuseHeld_desk l) q
  ⟨empty, deferred, completions⟩

end

/-- How CLOSE WINDOW leaves the part, the window once drained. -/
def Part.closes (w : Fin 32) (i : Nat) (tag : Word) (p : Part) : Part :=
  if p.path.inFlight w = 0 then (p.closeEntry w).finish i tag [] else p.defer i tag (.closeWindow w)

theorem exec_closeWindow {s : State} {i : Nat} {tag : Word} {entry : Byte} (h : s.taken i (.closeWindow tag entry)) {w : Fin 32}
    (hw : entry.toNat = w.val) (free : s.part.noneOutstanding (.closeWindow w)) (live : (s.part.path.windows.nth w).state ≠ .closed)
    (unused : ¬ s.part.usesWindow w) :
    exec (.closeWindow tag entry) s = .next (s.becomes ((s.part.handEmpty.drainEntry w).closes w i tag)) := by
  have quiet : ¬ s.part.handEmpty.outstanding (.closeWindow w) = true := fun busy => (outstanding_eq_true ..).1 busy free
  have spared : ¬ s.part.handEmpty.windowInUse w = true := fun used => unused (windowInUse_iff.1 used)
  have ran : exec (.closeWindow tag entry) s = _ := exec_of_taken h rfl
  rw [ran, objectOf_eq_some.2 hw]
  dsimp only
  rw [if_neg quiet, if_neg spared]
  refine next_becomes ((if_neg live).trans ?_)
  rfl

theorem closes_inFlight (w : Fin 32) (i : Nat) (tag : Word) (z : Part) : (z.closes w i tag).path.inFlight w = z.path.inFlight w := by
  unfold Part.closes
  split <;> rfl

theorem closes_outputs (w : Fin 32) (i : Nat) (tag : Word) (z : Part) : (z.closes w i tag).outputs = z.outputs := by
  unfold Part.closes
  split <;> rfl

/-- What the desk and the window table see of a window once drained. -/
theorem closes_says {w : Fin 32} {p z : Part} {win : Window} (i : Nat) (tag : Word)
    (windows : z.path.windows = p.path.windows.put w { win with state := .draining })
    (deferred : z.cmd.deferred = p.cmd.deferred) (completions : z.cmd.completions = p.cmd.completions) :
    let t := z.closes w i tag
    (t.path.inFlight w ≠ 0 → t.path.windows = p.path.windows.put w { win with state := .draining } ∧
      t.cmd.deferred = p.cmd.deferred ++ [⟨i, tag, .closeWindow w⟩] ∧ t.cmd.completions = p.cmd.completions) ∧
    (t.path.inFlight w = 0 → t.path.windows = p.path.windows.put w { win with state := .closed } ∧
      t.cmd.deferred = p.cmd.deferred ∧ t.cmd.completions = p.cmd.completions ++ [⟨i, tag, .done, []⟩]) := by
  intro t
  unfold t
  rw [closes_inFlight]
  unfold Part.closes
  refine ⟨fun full => ?_, fun empty => ?_⟩
  · rw [if_neg full]
    exact ⟨windows, congrArg (· ++ _) deferred, completions⟩
  · rw [if_pos empty]
    refine ⟨?_, deferred, congrArg (· ++ _) completions⟩
    refine (congrArg (Table.upd · w fun x => { x with state := .closed }) windows).trans ?_
    unfold Table.upd
    rw [Table.put_put, Table.nth_put_same]

/-- How the drain ends where the requests behind the held writes wait. -/
theorem closes_ends {w : Fin 32} {q : Part} (i : Nat) (tag : Word) :
    (q.path.inFlight w ≠ 0 → q.handEmpty.closes w i tag = q.deferring i tag (.closeWindow w)) ∧
    (q.path.inFlight w = 0 → q.handEmpty.closes w i tag = Part.answered { q with
      path := q.path.putWindow w { (q.path.windows.nth w) with state := .closed } } i tag []) :=
  ⟨fun full => if_neg full, fun empty => if_pos empty⟩

/-- Settles O14: the tests in order; the drain refuses the writes held in the window (`foldl_closesHeld`), and touches nothing the
command engine defers or has completed (`foldl_refuseHeld_handEmpty`). -/
theorem closeWindowDrainsThenCloses : Obligations.CloseWindowDrainsThenCloses := by
  unfold Obligations.CloseWindowDrainsThenCloses
  intro s
  refine ⟨fun i tag entry h => ?_, fun w => ⟨fun waits => ?_, fun d draining empty kind awaits => ?_⟩⟩
  · have ran : exec (.closeWindow tag entry) s = _ := exec_of_taken h rfl
    refine ⟨fun bad => ?_, fun w hw => ?_⟩
    · rw [ran, objectOf_eq_none.2 bad]
      rfl
    rw [objectOf_eq_some.2 hw] at ran
    refine ⟨fun busy => ran.trans (next_becomes (if_pos ((outstanding_eq_true ..).2 busy))), fun free => ?_⟩
    have quiet : ¬ s.part.handEmpty.outstanding (.closeWindow w) = true := fun busy => (outstanding_eq_true ..).1 busy free
    refine ⟨fun closed => ran.trans (next_becomes ((if_neg quiet).trans (if_pos closed))), fun live => ?_⟩
    refine ⟨fun used => ran.trans (next_becomes ((if_neg quiet).trans ((if_neg live).trans (if_pos (windowInUse_iff.2 used))))), fun unused => ?_⟩
    intro now'
    have closed := exec_closeWindow h hw free live unused
    obtain ⟨t, left⟩ : ∃ t, (s.part.handEmpty.drainEntry w).closes w i tag = t := ⟨_, rfl⟩
    rw [left] at closed
    refine ⟨s.becomes t, closed, rfl, ?_⟩
    have windows := drainEntry_windows w s.part.handEmpty
    have distinct := List.nodup_finRange 6
    obtain ⟨deferred, completions⟩ : (s.part.handEmpty.drainEntry w).cmd.deferred = s.part.cmd.deferred ∧
        (s.part.handEmpty.drainEntry w).cmd.completions = s.part.cmd.completions := by
      obtain ⟨clips, x, eq⟩ := drainEntry_eq w s.part.handEmpty
      rw [eq]
      exact (foldl_refuseHeld_handEmpty w (s.part.handEmpty.draining w clips x) _).2
    obtain ⟨waits, ended⟩ := closes_says (p := s.part) i tag windows deferred completions
    rw [left] at waits ended
    refine ⟨waits, ended, fun port a rest queue held via => ?_, fun lines => ?_⟩
    · obtain ⟨clips, x, eq⟩ := drainEntry_eq w s.part.handEmpty
      have outputs := closes_outputs w i tag (s.part.handEmpty.drainEntry w)
      rw [left, eq] at outputs
      refine outputs.symm ▸ ?_
      exact foldl_refuseHeld_answers (p := s.part.handEmpty.draining w clips x) _ distinct (List.mem_finRange port) queue ⟨held, via⟩
    · intro ends
      have spelt (clips : Clips) (x : Table (Option Request) 5) :
          (s.part.handEmpty.draining w clips x) = (s.part.draining w clips x).handEmpty := rfl
      have lined (clips : Clips) (x : Table (Option Request) 5) := foldl_closesHeld (p := s.part.draining w clips x) _ distinct
        fun port _ a rest b => lines port a rest b
      have drained (clips : Clips) (x : Table (Option Request) 5)
          (eq : s.part.handEmpty.drainEntry w = (List.finRange 6).foldl (Part.refuseHeld w) (s.part.handEmpty.draining w clips x)) : ends clips x := by
        rw [spelt, (foldl_refuseHeld_handEmpty ..).1, lined] at eq
        unfold ends
        intro draining q
        have emptied : s.part.handEmpty.drainEntry w = q.handEmpty := eq
        clear_value q
        rw [emptied] at windows left
        have window : q.path.windows.nth w = now' .draining := (congrArg (Table.nth · w) windows).trans (Table.nth_put_same ..)
        obtain ⟨full, empty⟩ := closes_ends (w := w) (q := q) i tag
        rw [left, window] at empty
        rw [left] at full
        exact ⟨fun n => congrArg s.becomes (full n), fun n => congrArg s.becomes (empty n)⟩
      exact ⟨fun still => drained _ _ (drainEntry_stands still), fun pos r mirror writing offered =>
        drained _ _ (drainEntry_withdraws mirror writing offered)⟩
  · refine next_becomes (if_neg fun ⟨draining, empty⟩ => ?_)
    exact waits.elim (fun other => other draining) fun full => full empty
  · refine next_becomes ((if_pos ⟨draining, empty⟩).trans ?_)
    have completed := completeDeferred_of_awaits (p := s.part.closeEntry w) awaits
    rw [kind] at completed
    refine completed.trans ?_
    rfl

end Sys2Proof.Machine
end

section
/-! Reading a command record gives back the command it spells (O7, Record Layouts 12.1 and 12.2). -/

namespace Sys2Proof.Record

open Sys2Proof.Machine

/-! A field read where it was laid. -/

section

variable {r : List Byte} {o : Nat}

theorem half_of_laid {h : Half} (laid : (r.drop o).take 2 = ofHalf h) : half r o = h := by
  unfold half
  rw [laid, ofHalf, leNat_leBytes, Nat.mod_eq_of_lt (show h.toNat < 256 ^ 2 from h.isLt), BitVec.ofNat_toNat, BitVec.setWidth_eq]

theorem word_of_laid {w : Word} (laid : (r.drop o).take 4 = ofWord w) : word r o = w := by
  unfold word
  rw [laid, ofWord, leNat_leBytes, Nat.mod_eq_of_lt (show w.toNat < 256 ^ 4 from w.isLt), BitVec.ofNat_toNat, BitVec.setWidth_eq]

theorem wide_of_laid {w : Wide} (laid : (r.drop o).take 8 = ofWide w) : wide r o = w := by
  unfold wide
  rw [laid, ofWide, leNat_leBytes, Nat.mod_eq_of_lt (show w.toNat < 256 ^ 8 from w.isLt), BitVec.ofNat_toNat, BitVec.setWidth_eq]

end

variable (kind : Half) (tag : Word) (args : List Byte)

theorem half_lay : half (lay kind tag args) 0 = kind := half_of_laid rfl

theorem word_lay : word (lay kind tag args) 4 = tag := word_of_laid rfl

theorem length_lay : (lay kind tag args).length = 64 := by
  unfold lay
  rw [List.length_append, length_padTo]
  rfl

/-- The arguments stand from byte 8 on. -/
theorem drop_lay (o : Nat) : (lay kind tag args).drop (8 + o) = (padTo 56 args).drop o := by
  rw [← List.drop_drop]
  rfl

variable {kind tag args}

theorem length_flatMap_ofHalf (ls : List Half) : (ls.flatMap ofHalf).length = 2 * ls.length := by
  induction ls with
  | nil => rfl
  | cons h ls ih =>
    rw [List.flatMap_cons, List.length_append, ih, List.length_cons, ofHalf, length_leBytes]
    omega

/-- Labels laid one after the other are read back in order. -/
theorem halves_of_laid {r : List Byte} {ls : List Half} {rest : List Byte} {o : Nat} (laid : r.drop o = ls.flatMap ofHalf ++ rest) :
    halves r o ls.length = ls := by
  induction ls generalizing o with
  | nil => rfl
  | cons h ls ih =>
    have first : half r o = h := half_of_laid (by rw [laid]; rfl)
    have others : r.drop (o + 2) = ls.flatMap ofHalf ++ rest := by
      rw [← List.drop_drop, laid]
      rfl
    unfold halves at ih ⊢
    rw [List.length_cons, List.range_succ_eq_map, List.map_cons, List.map_map]
    refine congr (congrArg _ first) (Eq.trans ?_ (ih others))
    refine List.map_congr_left fun i _ => ?_
    exact congrArg (half r) (show o + 2 * (i + 1) = o + 2 + 2 * i by omega)

end Sys2Proof.Record

namespace Sys2Proof

open Sys2Proof.Machine Sys2Proof.Record

/-! One command after the other: the kind and the tag are read, then each field where it was laid. -/

theorem decode_setPortInterval (tag : Word) (c : Byte) (n : Half) :
    decodeRecord (lay 1 tag ([c] ++ ofHalf n)) = .setPortInterval tag c n := by
  rw [decodeRecord, half_lay, word_lay]
  exact congrArg (fun n => Instr.setPortInterval tag c n) (half_of_laid rfl)

theorem decode_openWindow (tag : Word) (e : Byte) (b z : Wide) (k u rs ws : Byte) :
    decodeRecord (lay 2 tag ([e] ++ ofWide b ++ ofWide z ++ [k, u, rs, ws])) = .openWindow tag e b z k u rs ws := by
  rw [decodeRecord, half_lay, word_lay]
  exact congrArg_two (fun b z => Instr.openWindow tag e b z k u rs ws) (wide_of_laid rfl) (wide_of_laid rfl)

theorem decode_closeWindow (tag : Word) (e : Byte) :
    decodeRecord (lay 3 tag [e]) = .closeWindow tag e := by
  rw [decodeRecord, half_lay, word_lay]
  rfl

theorem decode_quiesce (tag : Word) :
    decodeRecord (lay 4 tag []) = .quiesce tag := by
  rw [decodeRecord, half_lay, word_lay]
  rfl

theorem decode_resume (tag : Word) :
    decodeRecord (lay 5 tag []) = .resume tag := by
  rw [decodeRecord, half_lay, word_lay]
  rfl

theorem decode_setTimecode (tag : Word) (ff ss mm hh : Byte) :
    decodeRecord (lay 6 tag [ff, ss, mm, hh]) = .setTimecode tag ff ss mm hh := by
  rw [decodeRecord, half_lay, word_lay]
  rfl

theorem decode_setCueLine (tag : Word) (l m d : Byte) (t : Half) (cs pr k : Byte) :
    decodeRecord (lay 7 tag ([l, m, d] ++ ofHalf t ++ [cs, pr, k])) = .setCueLine tag l m d t cs pr k := by
  rw [decodeRecord, half_lay, word_lay]
  exact congrArg (fun t => Instr.setCueLine tag l m d t cs pr k) (half_of_laid rfl)

theorem decode_driveCueLine (tag : Word) (l v : Byte) :
    decodeRecord (lay 8 tag [l, v]) = .driveCueLine tag l v := by
  rw [decodeRecord, half_lay, word_lay]
  rfl

theorem decode_setCamera (tag : Word) (k fw rw : Byte) (st : Word) (ln : Half) (ti po : Byte) (hl : Half) (bu : Word) (lv : Byte) :
    decodeRecord (lay 9 tag ([k, fw, rw] ++ ofWord st ++ ofHalf ln ++ [ti, po] ++ ofHalf hl ++ ofWord bu ++ [lv])) = .setCamera tag k fw rw st ln ti po hl bu lv := by
  rw [decodeRecord, half_lay, word_lay]
  change Instr.setCamera tag _ _ _ _ _ _ _ _ _ _ = _
  congr 1
  · exact word_of_laid rfl
  · exact half_of_laid rfl
  · exact half_of_laid rfl
  · exact word_of_laid rfl

theorem decode_startCamera (tag : Word) (k : Byte) :
    decodeRecord (lay 10 tag [k]) = .startCamera tag k := by
  rw [decodeRecord, half_lay, word_lay]
  rfl

theorem decode_stopCamera (tag : Word) (k : Byte) :
    decodeRecord (lay 11 tag [k]) = .stopCamera tag k := by
  rw [decodeRecord, half_lay, word_lay]
  rfl

theorem decode_findPicture (tag : Word) (k pn : Byte) (n : Word) (pt ff ss mm hh : Byte) :
    decodeRecord (lay 12 tag ([k, pn] ++ ofWord n ++ [pt, ff, ss, mm, hh])) = .findPicture tag k pn n pt ff ss mm hh := by
  rw [decodeRecord, half_lay, word_lay]
  exact congrArg (fun n => Instr.findPicture tag k pn n pt ff ss mm hh) (word_of_laid rfl)

theorem decode_setSource (tag : Word) (n st w : Byte) (r : Half) (o wd : Byte) :
    decodeRecord (lay 13 tag ([n, st, w] ++ ofHalf r ++ [o, wd])) = .setSource tag n st w r o wd := by
  rw [decodeRecord, half_lay, word_lay]
  exact congrArg (fun r => Instr.setSource tag n st w r o wd) (half_of_laid rfl)

theorem decode_setBus (tag : Word) (b st w : Byte) (r ms : Half) (sd : Byte) (dv : Half) :
    decodeRecord (lay 14 tag ([b, st, w] ++ ofHalf r ++ ofHalf ms ++ [sd] ++ ofHalf dv)) = .setBus tag b st w r ms sd dv := by
  rw [decodeRecord, half_lay, word_lay]
  change Instr.setBus tag _ _ _ _ _ _ _ = _
  congr 1
  · exact half_of_laid rfl
  · exact half_of_laid rfl
  · exact half_of_laid rfl

theorem decode_setGain (tag : Word) (b n : Byte) (t st : Half) :
    decodeRecord (lay 15 tag ([b, n] ++ ofHalf t ++ ofHalf st)) = .setGain tag b n t st := by
  rw [decodeRecord, half_lay, word_lay]
  exact congrArg_two (fun t st => Instr.setGain tag b n t st) (half_of_laid rfl) (half_of_laid rfl)

theorem decode_removeSource (tag : Word) (b n : Byte) :
    decodeRecord (lay 16 tag [b, n]) = .removeSource tag b n := by
  rw [decodeRecord, half_lay, word_lay]
  rfl

theorem decode_startMixer (tag : Word) :
    decodeRecord (lay 17 tag []) = .startMixer tag := by
  rw [decodeRecord, half_lay, word_lay]
  rfl

theorem decode_stopMixer (tag : Word) :
    decodeRecord (lay 18 tag []) = .stopMixer tag := by
  rw [decodeRecord, half_lay, word_lay]
  rfl

theorem decode_readMeters (tag : Word) (a : Wide) :
    decodeRecord (lay 19 tag (ofWide a)) = .readMeters tag a := by
  rw [decodeRecord, half_lay, word_lay]
  exact congrArg (fun a => Instr.readMeters tag a) (wide_of_laid rfl)

theorem decode_readCounters (tag : Word) (g c : Byte) (a : Wide) :
    decodeRecord (lay 20 tag ([g, c] ++ ofWide a)) = .readCounters tag g c a := by
  rw [decodeRecord, half_lay, word_lay]
  exact congrArg (fun a => Instr.readCounters tag g c a) (wide_of_laid rfl)

theorem decode_markOut (tag : Word) (c : Half) :
    decodeRecord (lay 22 tag (ofHalf c)) = .markOut tag c := by
  rw [decodeRecord, half_lay, word_lay]
  exact congrArg (fun c => Instr.markOut tag c) (half_of_laid rfl)

theorem decode_unpin (tag : Word) (c : Half) :
    decodeRecord (lay 23 tag (ofHalf c)) = .unpin tag c := by
  rw [decodeRecord, half_lay, word_lay]
  exact congrArg (fun c => Instr.unpin tag c) (half_of_laid rfl)

theorem decode_pin (tag : Word) (c : Half) :
    decodeRecord (lay 24 tag (ofHalf c)) = .pin tag c := by
  rw [decodeRecord, half_lay, word_lay]
  exact congrArg (fun c => Instr.pin tag c) (half_of_laid rfl)

theorem decode_deleteClip (tag : Word) (c : Half) :
    decodeRecord (lay 25 tag (ofHalf c)) = .deleteClip tag c := by
  rw [decodeRecord, half_lay, word_lay]
  exact congrArg (fun c => Instr.deleteClip tag c) (half_of_laid rfl)

theorem decode_addLabel (tag : Word) (c l : Half) :
    decodeRecord (lay 26 tag (ofHalf c ++ ofHalf l)) = .addLabel tag c l := by
  rw [decodeRecord, half_lay, word_lay]
  exact congrArg_two (fun c l => Instr.addLabel tag c l) (half_of_laid rfl) (half_of_laid rfl)

theorem decode_removeLabel (tag : Word) (c l : Half) :
    decodeRecord (lay 27 tag (ofHalf c ++ ofHalf l)) = .removeLabel tag c l := by
  rw [decodeRecord, half_lay, word_lay]
  exact congrArg_two (fun c l => Instr.removeLabel tag c l) (half_of_laid rfl) (half_of_laid rfl)

theorem decode_sendClip (tag : Word) (c : Half) :
    decodeRecord (lay 28 tag (ofHalf c)) = .sendClip tag c := by
  rw [decodeRecord, half_lay, word_lay]
  exact congrArg (fun c => Instr.sendClip tag c) (half_of_laid rfl)

theorem decode_setClass (tag : Word) (c : Byte) (n h : Half) :
    decodeRecord (lay 29 tag ([c] ++ ofHalf n ++ ofHalf h)) = .setClass tag c n h := by
  rw [decodeRecord, half_lay, word_lay]
  exact congrArg_two (fun n h => Instr.setClass tag c n h) (half_of_laid rfl) (half_of_laid rfl)

theorem decode_flushClass (tag : Word) (c : Byte) :
    decodeRecord (lay 30 tag [c]) = .flushClass tag c := by
  rw [decodeRecord, half_lay, word_lay]
  rfl

theorem decode_setLane (tag : Word) (l : Byte) (d w : Half) (f dp po : Byte) :
    decodeRecord (lay 31 tag ([l] ++ ofHalf d ++ ofHalf w ++ [f, dp, po])) = .setLane tag l d w f dp po := by
  rw [decodeRecord, half_lay, word_lay]
  exact congrArg_two (fun d w => Instr.setLane tag l d w f dp po) (half_of_laid rfl) (half_of_laid rfl)

theorem decode_laneOn (tag : Word) (l : Byte) :
    decodeRecord (lay 32 tag [l]) = .laneOn tag l := by
  rw [decodeRecord, half_lay, word_lay]
  rfl

theorem decode_laneOff (tag : Word) (l : Byte) :
    decodeRecord (lay 33 tag [l]) = .laneOff tag l := by
  rw [decodeRecord, half_lay, word_lay]
  rfl

theorem decode_engineReset (tag : Word) :
    decodeRecord (lay 34 tag []) = .engineReset tag := by
  rw [decodeRecord, half_lay, word_lay]
  rfl

/-- The label count of a record that has room for them. -/
theorem decode_markIn (tag : Word) (cs pr lp : Byte) (lim : Half) {ls : List Half} (room : ls.length ≤ 25) :
    decodeRecord (lay 21 tag ([cs, pr, lp] ++ ofHalf lim ++ [BitVec.ofNat 8 ls.length] ++ ls.flatMap ofHalf)) = .markIn tag cs pr lp lim ls := by
  rw [decodeRecord, half_lay, word_lay]
  have fits : min (BitVec.ofNat 8 ls.length).toNat labelPlaces = ls.length := by
    rw [BitVec.toNat_ofNat, Nat.mod_eq_of_lt (by omega)]
    exact Nat.min_eq_left room
  have labels : halves (lay 21 tag ([cs, pr, lp] ++ ofHalf lim ++ [BitVec.ofNat 8 ls.length] ++ ls.flatMap ofHalf)) 14 ls.length = ls := by
    refine halves_of_laid (rest := zeros (56 - (6 + 2 * ls.length))) ((drop_lay 21 tag _ 6).trans ?_)
    have length : ([cs, pr, lp] ++ ofHalf lim ++ [BitVec.ofNat 8 ls.length] ++ ls.flatMap ofHalf).length = 6 + 2 * ls.length := by
      rw [List.length_append, length_flatMap_ofHalf]
      rfl
    rw [padTo, List.take_of_length_le (by omega), length]
    rfl
  refine congrArg_two (fun lim ls => Instr.markIn tag cs pr lp lim ls) (half_of_laid rfl) ?_
  refine Eq.trans ?_ labels
  exact congrArg (halves _ 14) fits

theorem decode_unknownCommand (tag : Word) {kind : Half} (unknown : unknownKind kind = true) :
    decodeRecord (lay kind tag []) = .unknownCommand tag kind := by
  have other : kind.toNat = 0 ∨ 34 < kind.toNat := by simpa [unknownKind] using unknown
  rw [decodeRecord, half_lay, word_lay]
  split
  case h_35 => rfl
  all_goals omega

/-- A record laid for a command that its fields spell. -/
theorem spelt {c : Instr} {r : List Byte} {kind : Half} {tag : Word} {args : List Byte} (h : some (lay kind tag args) = some r)
    (reads : decodeRecord (lay kind tag args) = c) : r.length = 64 ∧ decodeRecord r = c := by
  obtain rfl := Option.some.inj h
  exact ⟨length_lay .., reads⟩

/-- Settles O7: each command's record is laid field after field, and read where it was laid. -/
theorem aRecordSpellsItsCommand : Obligations.ARecordSpellsItsCommand := by
  intro c r hwf h
  cases c with
  | setPortInterval tag c n => exact spelt h (decode_setPortInterval ..)
  | openWindow tag e b z k u rs ws => exact spelt h (decode_openWindow ..)
  | closeWindow tag e => exact spelt h (decode_closeWindow ..)
  | quiesce tag => exact spelt h (decode_quiesce ..)
  | resume tag => exact spelt h (decode_resume ..)
  | setTimecode tag ff ss mm hh => exact spelt h (decode_setTimecode ..)
  | setCueLine tag l m d t cs pr k => exact spelt h (decode_setCueLine ..)
  | driveCueLine tag l v => exact spelt h (decode_driveCueLine ..)
  | setCamera tag k fw rw st ln ti po hl bu lv => exact spelt h (decode_setCamera ..)
  | startCamera tag k => exact spelt h (decode_startCamera ..)
  | stopCamera tag k => exact spelt h (decode_stopCamera ..)
  | findPicture tag k pn n pt ff ss mm hh => exact spelt h (decode_findPicture ..)
  | setSource tag n st w r o wd => exact spelt h (decode_setSource ..)
  | setBus tag b st w r ms sd dv => exact spelt h (decode_setBus ..)
  | setGain tag b n t st => exact spelt h (decode_setGain ..)
  | removeSource tag b n => exact spelt h (decode_removeSource ..)
  | startMixer tag => exact spelt h (decode_startMixer ..)
  | stopMixer tag => exact spelt h (decode_stopMixer ..)
  | readMeters tag a => exact spelt h (decode_readMeters ..)
  | readCounters tag g c a => exact spelt h (decode_readCounters ..)
  | markIn tag cs pr lp lim ls => exact spelt h (decode_markIn tag cs pr lp lim (of_decide_eq_true hwf))
  | markOut tag c => exact spelt h (decode_markOut ..)
  | unpin tag c => exact spelt h (decode_unpin ..)
  | pin tag c => exact spelt h (decode_pin ..)
  | deleteClip tag c => exact spelt h (decode_deleteClip ..)
  | addLabel tag c l => exact spelt h (decode_addLabel ..)
  | removeLabel tag c l => exact spelt h (decode_removeLabel ..)
  | sendClip tag c => exact spelt h (decode_sendClip ..)
  | setClass tag c n h => exact spelt h (decode_setClass ..)
  | flushClass tag c => exact spelt h (decode_flushClass ..)
  | setLane tag l d w f dp po => exact spelt h (decode_setLane ..)
  | laneOn tag l => exact spelt h (decode_laneOn ..)
  | laneOff tag l => exact spelt h (decode_laneOff ..)
  | engineReset tag => exact spelt h (decode_engineReset ..)
  | unknownCommand tag k => exact spelt h (decode_unknownCommand tag hwf)
  | _ => exact nomatch h

end Sys2Proof
end

section
/-! READ METERS and READ COUNTERS (O56, R113, R175, R182, 12.2). -/

namespace Sys2Proof.Machine

/-! The tests and the first write. -/

theorem byte_ne {b : Byte} {n : Nat} (h : b.toNat ≠ n % 256) : b ≠ BitVec.ofNat 8 n := fun same => h (by rw [same, BitVec.toNat_ofNat])

section

variable {p : Part} {a : Wide} {n : Nat}

theorem reportFits_iff : p.reportFits a n = true ↔ a.toNat % 64 = 0 ∧ a.toNat + 64 * n ≤ 8589934592 ∧
    ((∀ w, (p.path.windows.nth w).live = true → (p.path.windows.nth w).touches a.toNat (a.toNat + 64 * n) = false) ∨
      ∃ w, p.path.place a.toNat (a.toNat + 64 * n) = .inside w ∧ (p.path.windows.nth w).state = .opened ∧
        (p.path.windows.nth w).kind = .plain) := by
  unfold Part.reportFits
  rw [Bool.and_eq_true, Bool.and_eq_true, beq_iff_eq, decide_eq_true_eq, ← place_openGround_iff, and_assoc, Config.lineBytes]
  refine and_congr_right fun _ => and_congr_right fun _ => ?_
  cases p.path.place a.toNat (a.toNat + 64 * n) with
  | openGround => exact iff_of_true rfl (.inl rfl)
  | split => exact iff_of_false nofun (by rintro (h | ⟨w, h, -⟩) <;> exact nomatch h)
  | inside w =>
    dsimp only
    rw [Bool.and_eq_true, beq_iff_eq, beq_iff_eq]
    exact ⟨fun plain => .inr ⟨w, rfl, plain⟩, fun h => h.elim nofun fun ⟨_, same, plain⟩ => Placing.inside.inj same ▸ plain⟩

/-- A report of `n` lines begins: its first write is offered, the rest left to write (R175). -/
theorem startReport_eq (i : Nat) (tag : Word) (values : List Byte) (line : a.toNat % 64 = 0) :
    p.startReport i tag a n values = { p with
      cmd := { p.cmd with
        use := some .report
        report := some ⟨i, tag, n, if n ≤ 4 then [] else [(a.toNat + 256, (padTo (64 * n) values).drop 256)]⟩ }
      path := p.path.offering commandStream (writeRequest a.toNat ((padTo (64 * n) values).take 256)) } := by
  have short : (padTo (64 * n) values).length ≤ 256 ↔ n ≤ 4 := by
    rw [length_padTo]
    omega
  unfold Part.startReport Part.reportNext
  rw [Config.lineBytes, nextWrite_of_line _ line, ite_congr_iff short rfl rfl]
  rfl

end

theorem flagOf_none {b : Byte} (above : 1 < b.toNat) : flagOf b = none := by
  unfold flagOf
  rw [if_neg (show b ≠ 0 from byte_ne (n := 0) (by omega)), if_neg (show b ≠ 1 from byte_ne (n := 1) (by omega))]

theorem groupOf_none {b : Byte} (above : 5 < b.toNat) : groupOf b = none := by
  unfold groupOf
  rw [if_neg (show b ≠ 0 from byte_ne (n := 0) (by omega)), if_neg (show b ≠ 1 from byte_ne (n := 1) (by omega)), if_neg (show b ≠ 2 from byte_ne (n := 2) (by omega)),
    if_neg (show b ≠ 3 from byte_ne (n := 3) (by omega)), if_neg (show b ≠ 4 from byte_ne (n := 4) (by omega)), if_neg (show b ≠ 5 from byte_ne (n := 5) (by omega))]

/-! The values of each group. -/

/-- An optional field of a width: its presence byte, then its bytes, or zeros (R192). -/
def given (width : Nat) (x : Option (List Byte)) : List Byte :=
  match x with
  | none => zeros (1 + width)
  | some bytes => 1 :: bytes

/-- Present bytes that have the field's width are given as they are. -/
theorem optional_given (k : Nat) (x : Option (List Byte)) (width : ∀ b, x = some b → b.length = k) : optional k x = given k x := by
  cases x with
  | none => exact optional_map k (none : Option (Fin 0)) (fun _ => zeros k) nofun
  | some b => exact optional_map k (some ()) (fun _ => b) fun _ => width b rfl

theorem optional_given_map {α : Type} (k : Nat) (x : Option α) (f : α → List Byte) (width : ∀ a, (f a).length = k) :
    optional k (x.map f) = given k (x.map f) := optional_map k x f width

theorem slot_bytes (x : Slot) : x.bytes = [x.state.code] ++
    given 12 (x.stamp.map fun y => word y.number ++ y.timecode.bytes ++ word y.block) ++ u8 x.arrived ++ u8 x.coded ++ flag x.abandoned := by
  unfold Slot.bytes
  rw [optional_given_map 12 _ _ fun _ => rfl]

theorem ring_free (r : Ring) : r.free = match r.extent with
    | none => 0
    | some y => y.2 - r.used := by
  unfold Ring.free Ring.size
  cases r.extent with
  | none => exact Nat.zero_sub _
  | some y => rfl

theorem ring_ends (r : Ring) : optional 8 r.ends = given 8 r.ends := by
  refine optional_given 8 _ fun b hb => ?_
  unfold Ring.ends at hb
  split at hb
  · rw [← Option.some.inj hb]
    rfl
  · exact nomatch hb

theorem noticeFlags_eq : noticeFlags = [(Cause.reference, 2), (.lane, 4), (.ring, 8), (.clip, 128), (.access, 6), (.hold, 8), (.mix, 65), (.send, 4),
    (.cue, 8), (.command, 2)].flatMap fun x => (List.range x.2).map fun n => (x.1, n) := by
  unfold noticeFlags
  simp only [List.flatMap_cons, List.flatMap_nil, List.append_nil, List.append_assoc]

theorem notices_bytes (l : List (Cause × Nat)) : noticeFlags.flatMap (fun n => flag (l.contains n)) =
    [(Cause.reference, 2), (.lane, 4), (.ring, 8), (.clip, 128), (.access, 6), (.hold, 8), (.mix, 65), (.send, 4), (.cue, 8),
      (.command, 2)].flatMap fun x => (List.range x.2).map fun n => boolCode (l.contains (x.1, n)) := by
  rw [noticeFlags_eq, List.flatMap_assoc]
  refine flatMap_congr_mem fun x _ => ?_
  rw [List.flatMap_map]
  exact List.map_eq_flatMap.symm

theorem ring_bytes (r : Ring) : r.bytes = given 16 (r.extent.map fun y => u64 y.1 ++ u64 y.2) ++ u32 r.writePoint ++ u32 r.used ++
    u32 (match r.extent with | none => 0 | some y => y.2 - r.used) ++ u16 r.index.length ++ given 8 r.ends ++ u16 r.retired ++ u16 r.cut ++
    u16 r.lost ++ u16 r.mismatches := by
  unfold Ring.bytes
  rw [ring_ends, ring_free, optional_given_map 16 _ (fun y : Nat × Nat => u64 y.1 ++ u64 y.2) fun _ => rfl]

theorem camera_bytes (r : Camera) : r.bytes =
    [r.state.code] ++ u8 r.cfg.frameWin.val ++ u8 r.cfg.replayWin.val ++ u32 r.cfg.stride ++ u16 r.cfg.lines ++ u8 r.cfg.tiles ++
    PendingSettings.bytes ⟨r.cfg.policy, r.cfg.holdLimit, r.cfg.budget, r.cfg.live⟩ ++ given 8 (r.pending.map PendingSettings.bytes) ++
    word r.counter ++ u8 r.carried ++ r.slotA.bytes ++ r.slotB.bytes ++ given 3 (r.held.map HeldWrite.bytes) ++
    u16 r.counts.slotStarts ++ u16 r.counts.heldWrites ++ u16 r.counts.holdExpiries ++ u16 r.counts.torn ++
    u16 r.counts.abandoned ++ u16 r.counts.strayBands ++ u16 r.counts.strayStarts := by
  unfold Camera.bytes CameraSettings.bytes
  rw [optional_given_map 8 _ PendingSettings.bytes fun _ => rfl, optional_given_map 3 _ HeldWrite.bytes fun _ => rfl]
  simp only [PendingSettings.bytes, List.append_assoc]

theorem cueLine_bytes (r : CueLine) : r.bytes = [r.cfg.mode.code] ++
    [if r.cfg.mode = .input ∨ r.cfg.mode = .mark then boolCode (!r.debounced) else 0] ++
    [if r.cfg.mode = .tally ∨ r.cfg.mode = .output then boolCode (!r.outputOn) else 0] ++
    given 2 (r.openClip.map u16) ++ u16 r.presses ++ u16 r.refusedPresses := by
  unfold CueLine.bytes
  rw [optional_given_map 2 _ u16 fun _ => rfl]
  cases r.cfg.mode <;> rfl

/-- Group 0: ports and the command engine. -/
theorem portGroup_values (p : Part) : portGroup.values p =
    ((List.finRange 6).flatMap fun k =>
      let r := p.path.ports.nth k
      u16 r.refusals ++ given 10 (r.last.map LastRefusal.bytes) ++ u16 r.reads ++ u16 r.writes) ++
    u16 p.cmd.head ++ u16 p.cmd.fetchTail ++ u16 p.cmd.writeIndex ++ u16 p.cmd.takenHead ++ u8 p.cmd.deferred.length ++
    padTo 32 (p.cmd.deferred.flatMap Deferred.bytes) ++ u16 p.cmd.completions.length ++
    ([(Cause.reference, 2), (.lane, 4), (.ring, 8), (.clip, 128), (.access, 6), (.hold, 8), (.mix, 65), (.send, 4), (.cue, 8),
      (.command, 2)].flatMap fun x => (List.range x.2).map fun n => boolCode (p.cmd.notices.contains (x.1, n))) ++
    u16 p.cmd.counts.taken ++ u16 p.cmd.counts.refused ++ u16 p.cmd.counts.badTails ++ u16 p.cmd.counts.badHeads ++
    u16 p.cmd.counts.written ++ u16 p.cmd.counts.absorbed := by
  simp only [portGroup, perObject_eq, Port.bytes, Commander.bytes, notices_bytes, List.append_assoc,
    optional_given_map 10 _ LastRefusal.bytes fun _ => rfl]

/-- Group 1: cameras, coder and rings. -/
theorem cameraGroup_values (p : Part) : cameraGroup.values p =
    ((List.finRange 8).flatMap fun k => (p.cameras.nth k).bytes) ++ [boolCode p.coder.job.isSome] ++
    given 14 (p.coder.job.map JobRun.bytes) ++ u16 p.coder.queue.length ++ u16 p.coder.highWater ++
    ((List.finRange 8).flatMap fun k => given 10 ((p.coder.rates.nth k).map RateRecord.bytes)) ++
    ((List.finRange 8).flatMap fun k => (p.coder.counts.nth k).bytes) ++ (List.finRange 8).flatMap fun k => (p.rings.nth k).bytes := by
  simp only [cameraGroup, perObject_eq, Coder.bytes, flag, List.append_assoc, optional_given_map 14 _ JobRun.bytes fun _ => rfl,
    optional_given_map 10 _ RateRecord.bytes fun _ => rfl]

/-- Group 2: sources and the mixer. -/
theorem mixerGroup_values (p : Part) : mixerGroup.values p =
    [p.mixer.state.code] ++ given 5 (p.mixer.pass.map fun y => word y.block ++ [y.phase.code]) ++ u16 p.mixer.lateTicks ++
    ((List.finRange 64).flatMap fun k => (p.mixer.sources.nth k).bytes) ++ (List.finRange 16).flatMap fun k => (p.mixer.buses.nth k).bytes := by
  simp only [mixerGroup, perObject_eq, Mixer.bytes, optional_given_map 5 _ (fun y : Pass => word y.block ++ [y.phase.code]) fun _ => rfl]

theorem sender_bytes (s : Sender) : s.bytes = ((List.finRange 4).flatMap fun k => s.classBytes k) ++
    ((List.finRange 8).flatMap fun k => given 13 ((s.cursors.nth k).map Cursor.bytes)) ++
    u16 (s.inState .building) ++ u16 (s.inState .queuedOnLane) ++ u16 (s.inState .transmitting) ++
    u16 (s.inState .awaitingReceipt) ++ u16 (s.inState .waiting) ++
    u16 s.redispatch.length ++ [boolCode s.build.isSome] ++ word s.seq ++
    u16 s.counts.receipts ++ u16 s.counts.staleReceipts ++ u16 s.counts.wideReceipts ++ u16 s.counts.resends ++
    u16 s.counts.duplicateResends ++ u16 s.counts.lateResends ++ u16 s.counts.echoes ++
    u16 s.counts.droppedEchoes ++ u16 s.counts.otherStation := by
  have cursors : perObject s.cursors (fun c => optional 13 (c.map Cursor.bytes)) =
      (List.finRange 8).flatMap fun k => given 13 ((s.cursors.nth k).map Cursor.bytes) := by
    rw [perObject_eq]
    exact flatMap_congr_mem fun k _ => optional_given_map 13 _ Cursor.bytes fun _ => rfl
  unfold Sender.bytes
  rw [cursors]
  rfl

theorem append_clips_bytes (l : List Byte) (c : Clips) : l ++ c.bytes = l ++ u16 c.marks ++ u16 c.refusedMarks ++ u16 c.forceCloses ++
    u16 c.lostClips ++ u16 c.partialSends ++ u16 c.events ++ u16 (c.table.list.filter (·.isSome)).length ++ u16 c.lastNumber ++
    u16 c.mirror.length := by
  unfold Clips.bytes
  simp only [List.append_assoc]

/-- Group 4: the send engine and the clip controller. -/
theorem sendGroup_values (p : Part) : sendGroup.values p = p.sender.bytes ++
    u16 p.clips.marks ++ u16 p.clips.refusedMarks ++ u16 p.clips.forceCloses ++ u16 p.clips.lostClips ++ u16 p.clips.partialSends ++
    u16 p.clips.events ++ u16 (p.clips.table.list.filter (·.isSome)).length ++ u16 p.clips.lastNumber ++ u16 p.clips.mirror.length :=
  append_clips_bytes ..

/-- Group 5: cue lines and the programme clock. -/
theorem cueGroup_values (p : Part) : cueGroup.values p =
    ((List.finRange 8).flatMap fun k => (p.cues.nth k).bytes) ++ [boolCode (!p.clock.frame.locked), boolCode (!p.clock.word.locked)] ++
    u8 p.clock.timecode.ff ++ u8 p.clock.timecode.ss ++ u8 p.clock.timecode.mm ++ u8 p.clock.timecode.hh ++
    given 4 (p.clock.pendingTc.map Timecode.bytes) ++ word p.clock.pictureTicks ++ word p.clock.blockNumber ++
    p.clock.frame.counterBytes ++ p.clock.word.counterBytes := by
  simp only [cueGroup, perObject_eq, Clock.bytes, List.append_assoc, optional_given_map 4 _ Timecode.bytes length_timecode]
  rfl

/-- Group 3: the lanes. -/
theorem laneGroup_values (p : Part) : laneGroup.values p = (List.finRange 4).flatMap fun l =>
    let r := p.lanes.nth l
    [r.state.code] ++ u16 r.cfg.divider ++ u16 r.cfg.window ++ [r.cfg.filter.code] ++ u8 r.cfg.depth ++
    [r.cfg.policy.code, boolCode r.cfg.initialOn, boolCode r.modemHold, boolCode (!r.returnHold), boolCode (!r.filtered),
      boolCode r.breakEnd.isSome, boolCode (r.receive == .inBreak)] ++
    u16 (p.counted l).length ++ u32 (p.inFlightBytes l) ++ u16 r.fifo.length ++
    u16 r.counts.framesSent ++ u16 r.counts.breaksSent ++ u16 r.counts.checkErrors ++
    u16 r.counts.framingErrors ++ u16 r.counts.overruns ++ u16 r.counts.carrierLosses := by
  unfold laneGroup Part.laneBytes flag
  simp only [List.append_assoc, List.cons_append, List.nil_append]

theorem cameraGroup_clear (p : Part) : cameraGroup.clear p = { p with
    cameras := p.cameras.each fun c => { c with counts := ⟨0, 0, 0, 0, 0, 0, 0⟩ }
    coder := { p.coder with counts := p.coder.counts.each fun _ => ⟨0, 0, 0, 0, 0, 0, 0⟩, highWater := p.coder.queue.length }
    rings := p.rings.each fun r => { r with retired := 0, cut := 0, lost := 0, mismatches := 0 } } := by
  have zero : p.coder.counts.each (fun _ => (⟨0, 0, 0, 0, 0, 0, 0⟩ : CoderCounters)) = Table.all ⟨0, 0, 0, 0, 0, 0, 0⟩ :=
    Table.ext_nth fun k => by rw [Table.nth_each, Table.nth_all]
  rw [zero]
  rfl

theorem groupOf_eq {b : Byte} {g : Group} (h : groupOf b = some g) : b = 0 ∧ g = portGroup ∨ b = 1 ∧ g = cameraGroup ∨ b = 2 ∧ g = mixerGroup ∨
    b = 3 ∧ g = laneGroup ∨ b = 4 ∧ g = sendGroup ∨ b = 5 ∧ g = cueGroup := by
  unfold groupOf at h
  repeat' split at h
  all_goals cases h
  next h0 => exact .inl ⟨h0, rfl⟩
  next h1 => exact .inr (.inl ⟨h1, rfl⟩)
  next h2 => exact .inr (.inr (.inl ⟨h2, rfl⟩))
  next h3 => exact .inr (.inr (.inr (.inl ⟨h3, rfl⟩)))
  next h4 => exact .inr (.inr (.inr (.inr (.inl ⟨h4, rfl⟩))))
  next h5 => exact .inr (.inr (.inr (.inr (.inr ⟨h5, rfl⟩))))

theorem groupOf_always {b : Byte} {g : Group} (h : groupOf b = some g) (p : Part) : g.always p.handEmpty = (g.always p).handEmpty ∧
    g.clear (g.always p).handEmpty = (g.clear (g.always p)).handEmpty := by
  obtain ⟨-, rfl⟩ | ⟨-, rfl⟩ | ⟨-, rfl⟩ | ⟨-, rfl⟩ | ⟨-, rfl⟩ | ⟨-, rfl⟩ := groupOf_eq h <;> exact ⟨rfl, rfl⟩

/-- Settles O56: the range is tested (`reportFits_iff`), the values are read of the part as it stands, and the first write is offered
(`startReport_eq`); each group's values and clears are spelled out group by group. -/
theorem reportsAreReadAtOneInstant : Obligations.ReportsAreReadAtOneInstant := by
  unfold Obligations.ReportsAreReadAtOneInstant
  intro s fits reporting
  refine ⟨?_, ?_, ?_⟩
  · intro i tag report h
    have ran : exec (.readMeters tag report) s = _ := exec_of_taken h rfl
    have meters : perObject s.part.handEmpty.mixer.buses Bus.meterBytes =
        s.part.mixer.buses.list.flatMap fun b => leBytes 4 b.peak ++ leBytes 2 b.clips ++ [0, 0] := rfl
    refine ⟨fun bad => ran.trans (next_becomes (if_neg fun ok => bad (reportFits_iff.1 ok))), fun ok => ran.trans (next_becomes ?_)⟩
    refine (if_pos (reportFits_iff.2 ok)).trans ((startReport_eq i tag _ ok.1).trans ?_)
    rw [meters]
    rfl
  · intro i tag group clear report h run
    have ran : run = _ := exec_of_taken h rfl
    rw [ran]
    refine ⟨?_, ?_, ?_, ?_⟩
    · rintro (bad | bad)
      · rw [groupOf_none bad]
        rfl
      · rw [flagOf_none bad]
        cases groupOf group <;> rfl
    · intro g hg flag
      obtain ⟨always, cleared⟩ := groupOf_always hg s.part
      rw [hg]
      refine ⟨fun bad => ?_, fun ok => ⟨?_, ?_⟩⟩
      · have wipe : clear = 0 ∨ clear = 1 :=
          (Nat.le_one_iff_eq_zero_or_eq_one.1 flag).imp (fun h => BitVec.eq_of_toNat_eq h) fun h => BitVec.eq_of_toNat_eq h
        obtain rfl | rfl := wipe <;> exact next_becomes (if_neg fun fit => bad (reportFits_iff.1 fit))
      · rintro rfl
        refine next_becomes ((if_pos (reportFits_iff.2 ok)).trans ?_)
        dsimp only
        rw [always]
        exact startReport_eq i tag _ ok.1
      · rintro rfl
        refine next_becomes ((if_pos (reportFits_iff.2 ok)).trans ?_)
        dsimp only
        rw [always, cleared]
        exact startReport_eq i tag _ ok.1
    · intro g p hg given settings slot reference inState
      obtain ⟨rfl, rfl⟩ | ⟨rfl, rfl⟩ | ⟨rfl, rfl⟩ | ⟨rfl, rfl⟩ | ⟨rfl, rfl⟩ | ⟨rfl, rfl⟩ := groupOf_eq hg
      · refine ⟨nofun, fun _ => portGroup_values p, nofun, nofun, nofun, nofun, fun _ => ⟨rfl, rfl⟩, nofun, nofun, nofun, nofun, nofun⟩
      · refine ⟨fun _ => rfl, nofun, fun _ => ?_, nofun, nofun, nofun, nofun, fun _ => cameraGroup_clear p, nofun, nofun, nofun, nofun⟩
        rw [cameraGroup_values]
        simp only [camera_bytes, slot_bytes, ring_bytes]
        rfl
      · refine ⟨fun _ => rfl, nofun, nofun, fun _ => ?_, nofun, nofun, nofun, nofun, fun _ => rfl, nofun, nofun, nofun⟩
        rw [mixerGroup_values]
        rfl
      · exact ⟨fun _ => rfl, nofun, nofun, nofun, nofun, nofun, nofun, nofun, nofun, fun _ => ⟨rfl, laneGroup_values p⟩, nofun, nofun⟩
      · refine ⟨fun _ => rfl, nofun, nofun, nofun, fun _ => ?_, nofun, nofun, nofun, nofun, nofun, fun _ => rfl, nofun⟩
        rw [sendGroup_values, sender_bytes]
        rfl
      · refine ⟨fun _ => rfl, nofun, nofun, nofun, nofun, fun _ => ?_, nofun, nofun, nofun, nofun, nofun, fun _ => rfl⟩
        rw [cueGroup_values]
        simp only [cueLine_bytes]
        rfl
    · intro g hg
      obtain ⟨rfl, rfl⟩ | ⟨rfl, rfl⟩ | ⟨rfl, rfl⟩ | ⟨rfl, rfl⟩ | ⟨rfl, rfl⟩ | ⟨rfl, rfl⟩ := groupOf_eq hg <;> rfl
  · exact ⟨rfl, rfl, rfl, fun _ => rfl, fun _ => rfl, fun _ => rfl, rfl, rfl, rfl, rfl, rfl, rfl, rfl, rfl, rfl, rfl, rfl, rfl⟩

end Sys2Proof.Machine
end

section
/-! The watchers of a performed WRITE, and what they do not look at (R9, R46, R52 to R57, R101). -/

namespace Sys2Proof.Machine

/-- The change is one of a side of the part that the watchers of a performed WRITE are apart from; a held write may be released before
or after it. -/
structure AsideOfWatchers (T : Part → Part) : Prop extends Aside T where
  mixer : ∀ p, (T p).mixer = p.mixer
  setMixer : ∀ p x, (T p).setMixer x = T (p.setMixer x)
  offerHeld : ∀ p port tracked, (T p).offerHeld port tracked = T (p.offerHeld port tracked)
  rings' : ∀ p, (T p).cmd.rings = p.cmd.rings
  showTail : ∀ p x, (T p).setCmd { (T p).cmd with tailShown := (T p).cmd.tailShown ++ x } =
    T (p.setCmd { p.cmd with tailShown := p.cmd.tailShown ++ x })
  showHead : ∀ p x, (T p).setCmd { (T p).cmd with headShown := (T p).cmd.headShown ++ x } =
    T (p.setCmd { p.cmd with headShown := p.cmd.headShown ++ x })

/-! A band write (R53, R54). -/

/-- What the arrival of a band makes of the coder's queue or of the picture, for a slot that was this one before it. -/
def Part.arriving (k : Fin 8) (i : SlotId) (b : Nat) (s : Slot) (p : Part) : Part :=
  match s.stamp with
  | none => p
  | some st =>
    if s.abandoned then p
    else if p.coder.queue.length < Config.bandQueueMax then p.queueJob ⟨k, i, st.number, b⟩
    else p.abandon k i st.number (.gap .queueFull)

/-- The last band has arrived. -/
def Part.filled (k : Fin 8) (i : SlotId) (p : Part) : Part :=
  if ((p.cameras.nth k).slot i).abandoned then p.slotDone k i else p.updSlot k i fun s => { s with state := .coding }

section

variable {k : Fin 8} {i : SlotId} {b : Nat} {p : Part}

theorem bandWrite_arrives (filling : ((p.cameras.nth k).slot i).state = .filling) (next : ((p.cameras.nth k).slot i).arrived = b) :
    p.bandWrite k i b =
      let q := (p.updSlot k i fun s => { s with arrived := s.arrived + 1 }).arriving k i b ((p.cameras.nth k).slot i)
      if b + 1 = (p.cameras.nth k).cfg.bandCount then q.filled k i else q := by
  unfold Part.bandWrite
  dsimp only
  rw [if_pos filling, if_pos next, next]
  rfl

theorem bandWrite_tears (filling : ((p.cameras.nth k).slot i).state = .filling) (other : ((p.cameras.nth k).slot i).arrived ≠ b) :
    p.bandWrite k i b = p.tear k i := by
  unfold Part.bandWrite
  dsimp only
  rw [if_pos filling, if_neg other]

theorem bandWrite_strays (other : ((p.cameras.nth k).slot i).state ≠ .filling) :
    p.bandWrite k i b = p.countCamera k fun c => { c with strayBands := count c.strayBands } := if_neg other

end

/-- A step of a list that may be done before or after a change. -/
theorem foldl_aside {α : Type} {T : Part → Part} {f : Part → α → Part} (hf : ∀ p x, f (T p) x = T (f p x)) (l : List α) (p : Part) :
    l.foldl f (T p) = T (l.foldl f p) := by
  induction l generalizing p with
  | nil => rfl
  | cons x rest ih => rw [List.foldl_cons, hf, ih, List.foldl_cons]

namespace AsideOfWatchers

variable {T : Part → Part} (h : AsideOfWatchers T) (p : Part)

include h

theorem slotDone (k : Fin 8) (i : SlotId) : (T p).slotDone k i = T (p.slotDone k i) := by
  unfold Part.slotDone Part.updSlot Part.dropHeld
  dsimp only
  rw [h.updCamera, h.cameras]
  generalize p.updCamera k _ = q
  cases (q.cameras.nth k).held with
  | none => rfl
  | some w =>
    dsimp only
    rw [h.updCamera, h.takeSlotStart, h.offerHeld, apply_ite T]

theorem abandon (k : Fin 8) (i : SlotId) (n : Word) (cause : SettleCause) : (T p).abandon k i n cause = T (p.abandon k i n cause) := by
  unfold Part.abandon Part.updSlot Part.countCamera
  dsimp only
  rw [h.cameras]
  cases ((p.cameras.nth k).slot i).stamp with
  | none => rfl
  | some st =>
    dsimp only
    rw [h.updCamera, h.dropWork, h.settlePicture, h.slotDone, ← apply_ite T, h.updCamera, h.raise, ← apply_ite T, ← apply_ite T]

theorem queueJob (j : BandJob) : (T p).queueJob j = T (p.queueJob j) := by
  unfold Part.queueJob
  rw [h.coder, h.setCoder]

theorem arriving (k : Fin 8) (i : SlotId) (b : Nat) (s : Slot) : (T p).arriving k i b s = T (p.arriving k i b s) := by
  unfold Part.arriving
  cases s.stamp with
  | none => rfl
  | some st =>
    dsimp only
    rw [h.coder, h.queueJob, h.abandon, ← apply_ite T, ← apply_ite T]

theorem filled (k : Fin 8) (i : SlotId) : (T p).filled k i = T (p.filled k i) := by
  unfold Part.filled Part.updSlot
  rw [h.cameras, h.slotDone, h.updCamera, ← apply_ite T]

theorem bandWrite (k : Fin 8) (i : SlotId) (b : Nat) : (T p).bandWrite k i b = T (p.bandWrite k i b) := by
  by_cases filling : ((p.cameras.nth k).slot i).state = .filling
  · by_cases next : ((p.cameras.nth k).slot i).arrived = b
    · rw [bandWrite_arrives filling next, bandWrite_arrives (p := T p) (by rw [h.cameras]; exact filling) (by rw [h.cameras]; exact next)]
      unfold Part.updSlot
      rw [h.cameras, h.updCamera, h.arriving]
      dsimp only
      rw [h.filled, ← apply_ite T]
    · rw [bandWrite_tears filling next, bandWrite_tears (p := T p) (by rw [h.cameras]; exact filling) (by rw [h.cameras]; exact next), h.tear]
  · rw [bandWrite_strays filling, bandWrite_strays (p := T p) (by rw [h.cameras]; exact filling)]
    exact h.updCamera ..

theorem frameWrite (w : Fin 32) (r : Request) : (T p).frameWrite w r = T (p.frameWrite w r) := by
  unfold Part.frameWrite
  dsimp only
  rw [h.windows]
  split
  · rw [h.cameras]
    split
    · refine foldl_aside (fun q l => ?_) _ p
      rw [h.cameras]
      split
      · split
        · exact h.bandWrite ..
        · rfl
      · rfl
    · rfl
  · rfl

theorem blockWritten (n : Fin 64) (k : Nat) : (T p).blockWritten n k = T (p.blockWritten n k) := by
  unfold Part.blockWritten Part.updSource
  rw [h.mixer, h.setMixer, h.setMixer, h.raise, ← apply_ite T]

theorem soundWrite (w : Fin 32) (r : Request) : (T p).soundWrite w r = T (p.soundWrite w r) := by
  unfold Part.soundWrite
  dsimp only
  rw [h.windows, h.mixer]
  split
  · split
    · refine foldl_aside (fun q l => ?_) _ p
      split
      · rw [h.blockWritten, ← apply_ite T]
      · rfl
    · rfl
  · rfl

/-- What the watchers make of a performed request. -/
theorem watch (a : Admitted) (dram : Memory) : (T p).watch a dram = T (p.watch a dram) := by
  unfold Part.watch
  cases a.req.kind with
  | read => rfl
  | write =>
    cases a.via with
    | none => rfl
    | some w =>
      dsimp only
      rw [h.frameWrite, h.soundWrite, h.windows, ← apply_ite T]
      have shown (c : Fin 32 → Rings → Bool) (x y : Part) (same : x = T y) :
          (if a.req.covers (p.path.windows.nth w).base 8 = true ∧ (T p).cmd.rings.any (c w) = true then x else T p) =
            T (if a.req.covers (p.path.windows.nth w).base 8 = true ∧ p.cmd.rings.any (c w) = true then y else p) := by
        rw [h.rings', same, apply_ite T]
      cases (p.path.windows.nth w).kind with
      | command => exact shown (fun w r => r.cmdWin == w) _ _ (h.showTail ..)
      | status => exact shown (fun w r => r.statWin == w) _ _ (h.showHead ..)
      | frame | sound | plain | aliased | replay | programme | clipList => rfl

end AsideOfWatchers

/-! The desk, and what stands behind the head of a port's queue. -/

theorem desk_asideOfWatchers (o : List Output) (h : Option (Nat × Instr)) (d : List Deferred) (c : List Completion) :
    AsideOfWatchers (Part.desk · o h d c) where
  toAside := (desk_asideOfHeads o h d c).toAside
  mixer _ := rfl
  setMixer _ _ := rfl
  offerHeld _ _ _ := rfl
  rings' _ := rfl
  showTail _ _ := rfl
  showHead _ _ := rfl

theorem upd_upd_comm {α : Type} {n : Nat} (t : Table α n) {i j : Fin n} (apart : i ≠ j) (f g : α → α) :
    (t.upd i f).upd j g = (t.upd j g).upd i f := by
  refine Table.ext_nth fun x => ?_
  by_cases hi : i = x
  · subst hi
    rw [Table.nth_upd_other _ _ apart.symm, Table.nth_upd_same, Table.nth_upd_same, Table.nth_upd_other _ _ apart.symm]
  · by_cases hj : j = x
    · subst hj
      rw [Table.nth_upd_same, Table.nth_upd_other _ _ hi, Table.nth_upd_other _ _ hi, Table.nth_upd_same]
    · rw [Table.nth_upd_other _ _ hj, Table.nth_upd_other _ _ hi, Table.nth_upd_other _ _ hi, Table.nth_upd_other _ _ hj]

section

variable {g : Port → Port} (port : Fin 6)

/-- A change of one port's record that the change of its head may come before or after. -/
theorem updPort_asideOfWatchers (apart : ∀ f q, (g q).updHead f = g (q.updHead f)) : AsideOfWatchers (Part.updPort · port g) where
  now _ := rfl
  cameras _ := rfl
  coder _ := rfl
  rings _ := rfl
  clock _ := rfl
  cues _ := rfl
  windows _ := rfl
  busy _ := rfl
  setCameras _ _ := rfl
  setCoder _ _ := rfl
  setRings _ _ := rfl
  setCues _ _ := rfl
  withdraw _ := rfl
  raise p c n := by
    rw [raise_eq, raise_eq]
    rfl
  mixer _ := rfl
  setMixer _ _ := rfl
  offerHeld p other tracked := by
    refine congrArg (fun x => p.setPath { p.path with ports := x }) ?_
    by_cases same : other = port
    · subst same
      refine (table_upd_upd ..).trans (Eq.trans ?_ (table_upd_upd ..).symm)
      exact congrArg (Table.upd p.path.ports other) (funext fun q => apart _ q)
    · exact upd_upd_comm _ (Ne.symm same) _ _
  rings' _ := rfl
  showTail _ _ := rfl
  showHead _ _ := rfl

end

/-- The port with these requests behind those in its queue, if it has any there. -/
def Port.followed (l : List Admitted) (q : Port) : Port :=
  { q with queue := match q.queue with
    | [] => []
    | a :: rest => a :: (rest ++ l) }

theorem updHead_followed (l : List Admitted) (f : Admitted → Admitted) (q : Port) : (q.followed l).updHead f = (q.updHead f).followed l := by
  obtain ⟨queue, refusals, last, reads, writes⟩ := q
  cases queue <;> rfl

theorem updHead_length (f : Admitted → Admitted) (q : Port) : (q.updHead f).queue.length = q.queue.length := by
  unfold Port.updHead
  split
  · rfl
  · next queue => rw [queue, List.length_cons, List.length_cons]

theorem updHead_refusals (n : Nat) (f : Admitted → Admitted) (q : Port) :
    Port.updHead { q with refusals := n } f = { (q.updHead f) with refusals := n } := by
  obtain ⟨queue, refusals, last, reads, writes⟩ := q
  cases queue <;> rfl

/-- The watchers take nothing out of a queue and put nothing into it: a queue's length noted in its port's record before them is its
length noted there after them. -/
theorem watch_length (a : Admitted) (dram : Memory) (port : Fin 6) (p : Part) :
    ((p.watch a dram).path.ports.nth port).queue.length = (p.path.ports.nth port).queue.length := by
  have noted := (updPort_asideOfWatchers (g := fun q => { q with refusals := q.queue.length }) port fun f q => by
    rw [updHead_refusals, updHead_length]).watch p a dram
  have named := (updPort_asideOfWatchers (g := fun q => { q with refusals := (p.path.ports.nth port).queue.length }) port fun f q =>
    updHead_refusals ..).watch p a dram
  have same : p.updPort port (fun q => { q with refusals := q.queue.length }) =
      p.updPort port fun q => { q with refusals := (p.path.ports.nth port).queue.length } := rfl
  have both := noted.symm.trans ((congrArg (Part.watch a dram) same).trans named)
  have read := congrArg (fun q : Part => (q.path.ports.nth port).refusals) both
  refine Eq.trans ?_ (read.trans ?_)
  · exact (congrArg Port.refusals (Table.nth_upd_same (p.watch a dram).path.ports port fun q => { q with refusals := q.queue.length })).symm
  · exact congrArg Port.refusals (Table.nth_upd_same ..)

end Sys2Proof.Machine
end

section
/-! The end of a client's transfer, with requests behind it or none (O10, R3, R18, R19). -/

namespace Sys2Proof.Machine

/-! The bytes moved. -/

theorem moved_byte {s : State} (wf : s.memoriesWf = true) (r : Request) (line x : Nat) :
    (moved s.dram r line).readByte dramBlank x = if r.kind = .write ∧ 64 * line ≤ x ∧ x < 64 * line + r.data.length then
      (match r.data[x - 64 * line]? with | some (b, true) => b | _ => s.dramByte x)
    else s.dramByte x := by
  have dram : Memory.wf dramBlank s.dram = true := (Bool.and_eq_true ..▸ wf).1
  unfold moved
  cases r.kind with
  | read => exact (if_neg fun h => nomatch h.1).symm
  | write =>
    refine (Memory.readByte_writeMasked _ _ _ dram).trans ?_
    by_cases low : 64 * line ≤ x
    · refine (if_pos low).trans ?_
      by_cases high : x < 64 * line + r.data.length
      · rw [if_pos ⟨rfl, low, high⟩]
        rfl
      · rw [if_neg fun h => high h.2.2]
        unfold Memory.maskedByte
        rw [show r.data[x - Config.lineBytes * line]? = none from List.getElem?_eq_none (show _ ≤ x - 64 * line by omega)]
        rfl
    · exact (if_neg low).trans (if_neg fun h => low h.2.1).symm

theorem fetched_returned (s : State) (r : Request) (line : Nat) : fetched s.dram r line = s.returned r.kind line r.count := by
  unfold fetched State.returned
  cases r.kind with
  | read => exact readBytes_eq_map ..
  | write => rfl

/-! The refresh that takes the channel a transfer has left. -/

theorem takeRefresh_ports (x : Path) (ports : Table Port 6) :
    Path.takeRefresh { x with ports := ports } = { x.takeRefresh with ports := ports } := by
  unfold Path.takeRefresh
  split <;> rfl

theorem takeRefresh_streams (x : Path) (streams : Table (Option Request) 5) :
    Path.takeRefresh { x with streams := streams } = { x.takeRefresh with streams := streams } := by
  unfold Path.takeRefresh
  split <;> rfl

theorem takeRefresh_keepsPorts (x : Path) : x.takeRefresh.ports = x.ports := by
  unfold Path.takeRefresh
  split <;> rfl

theorem takeRefresh_keepsStreams (x : Path) : x.takeRefresh.streams = x.streams := by
  unfold Path.takeRefresh
  split <;> rfl

theorem takeRefresh_busy (x : Path) (i : Fin 5) : x.takeRefresh.streamBusy i = x.streamBusy i := by
  unfold Path.takeRefresh
  split
  · next free =>
    unfold Path.streamBusy
    rw [free.1]
  · rfl

theorem afterTransfer_updPort (p : Part) (port : Fin 6) (f : Port → Port) : p.afterTransfer.updPort port f = (p.updPort port f).afterTransfer := by
  refine congrArg p.setPath (Eq.trans ?_ (takeRefresh_ports ..).symm)
  exact congrArg (fun x : Table Port 6 => { p.path.takeRefresh with ports := x.upd port f }) (takeRefresh_keepsPorts p.path)

theorem afterTransfer_raise (p : Part) (c : Cause) (n : Nat) : p.afterTransfer.raise c n = (p.raise c n).afterTransfer := by
  rw [raise_eq, raise_eq]
  rfl

theorem afterTransfer_asideOfHeads : AsideOfHeads Part.afterTransfer where
  now _ := rfl
  cameras _ := rfl
  coder _ := rfl
  rings _ := rfl
  clock _ := rfl
  cues _ := rfl
  windows p := takeRefresh_windows p.path
  busy p := takeRefresh_busy p.path _
  setCameras _ _ := rfl
  setCoder _ _ := rfl
  setRings _ _ := rfl
  setCues _ _ := rfl
  withdraw p := by
    refine congrArg p.setPath (Eq.trans ?_ (takeRefresh_streams ..).symm)
    exact congrArg (fun x => { p.path.takeRefresh with streams := x.put coderStream none }) (takeRefresh_keepsStreams p.path)
  raise := afterTransfer_raise
  ports p := takeRefresh_keepsPorts p.path
  updPort := afterTransfer_updPort
  refuse p port tag r why := by
    unfold Part.refuseRequest
    rw [← afterTransfer_raise, ← afterTransfer_updPort]
    rfl

/-! The end of a client's transfer. -/

section

variable {s : State} {dt : Nat} {port : Fin 6} {a : Admitted} {rest : List Admitted}

/-- The part whose client's request has been answered, as its watchers are shown it. -/
def State.answering (s : State) (dt : Nat) (port : Fin 6) (a : Admitted) : Part :=
  Part.emit (s.part.after dt).freeChannel (.ok port a.tag (s.returned a.req.kind a.target a.req.count))

/-- The part once its watchers have been shown the request, and the request has left its queue. -/
def State.leaving (s : State) (dt : Nat) (port : Fin 6) (a : Admitted) : Part :=
  ((s.answering dt port a).watch a (moved s.dram a.req a.target)).updPort port fun q => q.performed a.req.kind

theorem exec_clientTransfer (channel : s.part.path.channel = .client port) (queue : (s.part.path.ports.nth port).queue = a :: rest)
    (within : 64 * a.target + 64 * a.req.count ≤ 8589934592) :
    exec (.transferComplete dt) s = .next { s with
      dram := moved s.dram a.req a.target, part := ((s.leaving dt port a).checkHead port).afterTransfer } := by
  have channel : (s.part.after dt).path.channel = .client port := channel
  have queue : ((s.part.after dt).path.ports.nth port).queue = a :: rest := queue
  have within : ¬ Config.dramBytes < Config.lineBytes * a.target + a.req.bytes := Nat.not_lt.2 within
  change execTransferComplete dt s = _
  unfold execTransferComplete
  dsimp only
  rw [channel]
  dsimp only
  rw [queue]
  dsimp only
  rw [if_neg within, fetched_returned]
  rfl

theorem performed_queue (q : Port) (k : ReqKind) : (q.performed k).queue = q.queue.tail := by
  cases k <;> rfl

/-- Nothing is left behind a request that was alone. -/
theorem leaving_alone (alone : (s.part.path.ports.nth port).queue = [a]) : ((s.leaving dt port a).path.ports.nth port).queue = [] := by
  refine (congrArg Port.queue (Table.nth_upd_same ..)).trans ((performed_queue ..).trans (List.eq_nil_of_length_eq_zero ?_))
  rw [List.length_tail, watch_length]
  exact congrArg (fun l : List Admitted => l.length - 1) alone

theorem checkHead_alone {p : Part} (queue : (p.path.ports.nth port).queue = []) : p.checkHead port = p := by
  unfold Part.checkHead
  rw [queue]
  rfl

/-- A performed request that was alone at the head leaves what stands behind it. -/
theorem performed_followed {q : Port} (alone : q.queue.length = 1) (l : List Admitted) (k : ReqKind) :
    (q.followed l).performed k = { (q.performed k) with queue := l } := by
  obtain ⟨queue, refusals, last, reads, writes⟩ := q
  obtain ⟨b, rfl⟩ := List.length_eq_one_iff.1 alone
  cases k <;> rfl

theorem updPort_performed {q : Part} (alone : (q.path.ports.nth port).queue.length = 1) (l : List Admitted) (k : ReqKind) :
    (q.updPort port (Port.followed l)).updPort port (Port.performed · k) = (q.updPort port (Port.performed · k)).withQueue port l := by
  refine congrArg (fun x : Table Port 6 => q.setPath { q.path with ports := x }) ((table_upd_upd ..).trans (Eq.trans ?_ (Table.put_put ..).symm))
  refine congrArg (q.path.ports.put port) ((performed_followed alone l k).trans ?_)
  exact congrArg (fun r : Port => { r with queue := l }) (Table.nth_put_same ..).symm

/-- A transfer's end with requests behind it is its end without them, and they stand in the queue. -/
theorem leaving_followed (queue : (s.part.path.ports.nth port).queue = a :: rest) :
    s.leaving dt port a = ((s.becomes (s.part.withQueue port [a])).leaving dt port a).withQueue port rest := by
  have behind : s.answering dt port a = ((s.becomes (s.part.withQueue port [a])).answering dt port a).updPort port (Port.followed rest) := by
    refine congrArg (fun x : Table Port 6 => (s.answering dt port a).setPath { (s.answering dt port a).path with ports := x }) ?_
    refine Eq.trans ?_ (Table.put_put ..).symm
    rw [show ((s.becomes (s.part.withQueue port [a])).answering dt port a).path.ports = s.part.path.ports.put port
      { (s.part.path.ports.nth port) with queue := [a] } from rfl, Table.nth_put_same]
    refine (Table.put_nth s.part.path.ports port).symm.trans (congrArg (s.part.path.ports.put port) ?_)
    exact congrArg (fun l => { (s.part.path.ports.nth port) with queue := l }) queue
  have watched := (updPort_asideOfWatchers port (updHead_followed rest)).watch ((s.becomes (s.part.withQueue port [a])).answering dt port a) a
    (moved s.dram a.req a.target)
  have alone : (((s.becomes (s.part.withQueue port [a])).answering dt port a).watch a (moved s.dram a.req a.target) |>.path.ports.nth port).queue.length = 1 := by
    rw [watch_length]
    exact congrArg (fun q : Port => q.queue.length) (Table.nth_put_same ..)
  unfold State.leaving
  rw [behind, watched]
  exact updPort_performed alone rest a.req.kind

end

end Sys2Proof.Machine
end

section
/-! What the end of a transfer moves and answers (O10, R18). -/

namespace Sys2Proof.Machine

section

variable {s : State} {dt : Nat} {port : Fin 6} {a : Admitted} {rest : List Admitted}

/-- The answer stands in the outputs, whatever the watchers and the next head's check add. -/
theorem clientTransfer_outputs (s : State) (dt : Nat) (port : Fin 6) (a : Admitted) :
    ∃ more, (((s.leaving dt port a).checkHead port).afterTransfer).outputs =
      s.part.outputs ++ [.ok port a.tag (s.returned a.req.kind a.target a.req.count)] ++ more := by
  have aside (p : Part) (o h d c) : Part.checkHead port (Part.updPort (Part.watch a (moved s.dram a.req a.target) (p.desk o h d c)) port
      fun q => q.performed a.req.kind) = (Part.checkHead port (Part.updPort (Part.watch a (moved s.dram a.req a.target) p) port
        fun q => q.performed a.req.kind)).desk o h d c := by
    rw [(desk_asideOfWatchers o h d c).watch, (desk_asideOfHeads o h d c).updPort, (desk_asideOfHeads o h d c).checkHead]
  obtain ⟨more, eq⟩ := (handEmpty_of_desk (f := fun q => Part.checkHead port (Part.updPort (Part.watch a (moved s.dram a.req a.target) q) port
    fun q => q.performed a.req.kind)) aside (s.answering dt port a)).2.2.2
  exact ⟨more, eq.symm⟩

theorem exec_streamTransfer_dram {i : Fin 5} {r : Request} {orphan : Bool} (channel : s.part.path.channel = .stream i r orphan)
    (within : 64 * r.line + 64 * r.count ≤ 8589934592) :
    ∃ t, exec (.transferComplete dt) s = .next t ∧ t.dram = moved s.dram r r.line := by
  have channel : (s.part.after dt).path.channel = .stream i r orphan := channel
  have within : ¬ Config.dramBytes < r.next := Nat.not_lt.2 within
  have ran : exec (.transferComplete dt) s = execTransferComplete dt s := rfl
  unfold execTransferComplete at ran
  dsimp only at ran
  rw [channel] at ran
  exact ⟨_, ran.trans (if_neg within), rfl⟩

theorem watch_openGround {p : Part} (dram : Memory) (via : a.via = none) : p.watch a dram = p := by
  unfold Part.watch
  rw [via]
  cases a.req.kind <;> rfl

/-- The end of a transfer of a request alone in open ground. -/
theorem clientTransfer_openGround (alone : (s.part.path.ports.nth port).queue = [a]) (via : a.via = none) :
    ((s.leaving dt port a).checkHead port).afterTransfer = { s.part with
      now := s.part.now + dt
      outputs := s.part.outputs ++ [.ok port a.tag (s.returned a.req.kind a.target a.req.count)]
      path := { s.part.path with
        channel := if s.part.path.refreshesDue = 0 then .free else .refresh
        ports := s.part.path.ports.put port { (s.part.path.ports.nth port) with
          queue := []
          reads := if a.req.kind = .read then count (s.part.path.ports.nth port).reads else (s.part.path.ports.nth port).reads
          writes := if a.req.kind = .write then count (s.part.path.ports.nth port).writes else (s.part.path.ports.nth port).writes } } } := by
  have performed : (s.part.path.ports.nth port).performed a.req.kind = { (s.part.path.ports.nth port) with
      queue := []
      reads := if a.req.kind = .read then count (s.part.path.ports.nth port).reads else (s.part.path.ports.nth port).reads
      writes := if a.req.kind = .write then count (s.part.path.ports.nth port).writes else (s.part.path.ports.nth port).writes } := by
    have empty : (s.part.path.ports.nth port).queue.tail = [] := congrArg List.tail alone
    unfold Port.performed Port.popHead
    rw [empty]
    cases a.req.kind <;> rfl
  rw [checkHead_alone (leaving_alone alone)]
  have leaves : s.leaving dt port a = (s.answering dt port a).updPort port fun q => q.performed a.req.kind := by
    unfold State.leaving
    rw [watch_openGround _ via]
  rw [leaves, afterTransfer_of_free rfl, ← performed]
  rfl

/-- The end of a transfer with requests behind it: they line up (R3). -/
theorem clientTransfer_linedUp (queue : (s.part.path.ports.nth port).queue = a :: rest) (waits : ∀ b, b ∈ rest → b.waits) :
    ((s.leaving dt port a).checkHead port).afterTransfer =
      ((((s.becomes (s.part.withQueue port [a])).leaving dt port a).checkHead port).afterTransfer).linedUp port rest := by
  have alone : ((s.becomes (s.part.withQueue port [a])).part.path.ports.nth port).queue = [a] := withQueue_queue ..
  rw [leaving_followed queue, checkHead_alone (leaving_alone alone)]
  generalize (s.becomes (s.part.withQueue port [a])).leaving dt port a = q
  have lined (p : Part) : (p.withQueue port rest).checkHead port = p.linedUp port rest := by
    rw [checkHead_linedUp _ _ (by rw [withQueue_queue]; exact waits), withQueue_queue, linedUp_withQueue]
  rw [← lined q.afterTransfer, ← afterTransfer_asideOfHeads.checkHead]
  refine congrArg (Part.checkHead port) ?_
  exact (afterTransfer_updPort q port fun r => { r with queue := rest }).symm

end

end Sys2Proof.Machine
end

section
/-! The frame tracker's band writes (R46, R53, R54): at most one in a request, and what each makes of its slot. -/

namespace Sys2Proof.Machine

/-! Where the bands of a frame window end (3.2). -/

section

variable {c : CameraSettings} {base : Nat}

/-- A multiple of a size, counted from the end of the line it ends. -/
theorem band_of_multiple {o size bands : Nat} (large : 64 < size) (inside : o < bands * size) (ends : (o + 64) % size = 0) :
    (o + 64) / size - 1 < bands ∧ o + 64 = ((o + 64) / size - 1 + 1) * size := by
  obtain ⟨m, hm⟩ := Nat.dvd_of_mod_eq_zero ends
  have positive : 0 < m := Nat.pos_of_ne_zero fun h => by
    subst h
    omega
  rw [hm, Nat.mul_div_cancel_left _ (by omega), Nat.sub_add_cancel positive, Nat.mul_comm]
  refine ⟨?_, rfl⟩
  have below : m * size < (bands + 1) * size := by
    rw [Nat.add_mul, Nat.mul_comm m, ← hm]
    omega
  have := Nat.lt_of_mul_lt_mul_right below
  omega

/-- The band a place of a slot ends. -/
theorem bandOf_iff {o size bands b : Nat} {i j : SlotId} (large : 64 < size) :
    (if o < bands * size ∧ (o + 64) % size = 0 then some (j, (o + 64) / size - 1) else none) = some (i, b) ↔
      j = i ∧ b < bands ∧ o + 64 = (b + 1) * size := by
  constructor
  · intro h
    split at h
    · next inside =>
      obtain ⟨rfl, rfl⟩ := Prod.mk.inj (Option.some.inj h)
      exact ⟨rfl, band_of_multiple large inside.1 inside.2⟩
    · exact nomatch h
  · rintro ⟨rfl, below, ends⟩
    have within : (b + 1) * size ≤ bands * size := Nat.mul_le_mul_right _ (by omega)
    rw [if_pos ⟨by omega, by rw [ends, Nat.mul_mod_left]⟩, ends, Nat.mul_div_cancel _ (by omega), Nat.add_sub_cancel]

theorem slotSize_eq (shaped : c.shaped) : c.slotSize = c.lines / 16 * (16 * c.stride) := by
  obtain ⟨-, -, -, whole⟩ := shaped
  rw [← Nat.mul_assoc, Nat.div_mul_cancel (Nat.dvd_of_mod_eq_zero whole)]
  rfl

/-- The band whose last line lies at a byte address. -/
theorem bandAt_iff (shaped : c.shaped) {x : Nat} {i : SlotId} {b : Nat} :
    c.bandAt (x - base) = some (i, b) ↔ b < c.lines / 16 ∧ x = c.bandEnd base i b := by
  have size := slotSize_eq shaped
  obtain ⟨wide, -, tall, -⟩ := shaped
  have large : 64 < 16 * c.stride := by omega
  have reaches (b : Nat) : 1 * (16 * c.stride) ≤ (b + 1) * (16 * c.stride) := Nat.mul_le_mul_right _ (by omega)
  have inside (h : b < c.lines / 16) : (b + 1) * (16 * c.stride) ≤ c.slotSize := size ▸ Nat.mul_le_mul_right _ h
  have found (j : SlotId) := bandOf_iff (o := x - base - c.slotOffset j) (bands := c.lines / 16) (b := b) (i := i) (j := j) large
  rw [← size] at found
  have start : c.bandEnd base i b = base + c.slotOffset i + (b + 1) * (16 * c.stride) - 64 := by cases i <;> rfl
  have slots : c.slotOffset .a = 0 ∧ c.slotOffset .b = c.slotSize := ⟨rfl, rfl⟩
  have at' : c.bandAt (x - base) = some (i, b) ↔ (if x - base < c.slotSize then SlotId.a else .b) = i ∧ b < c.lines / 16 ∧
      x - base - c.slotOffset (if x - base < c.slotSize then .a else .b) + 64 = (b + 1) * (16 * c.stride) := found _
  have := reaches b
  rw [at', start]
  by_cases low : x - base < c.slotSize
  · rw [if_pos low, slots.1]
    cases i with
    | a =>
      rw [slots.1]
      exact ⟨fun ⟨_, below, ends⟩ => ⟨below, by omega⟩, fun ⟨below, ends⟩ => ⟨rfl, below, by omega⟩⟩
    | b =>
      rw [slots.2]
      exact ⟨fun h => (nomatch h.1), fun ⟨below, ends⟩ => absurd low (by omega)⟩
  · rw [if_neg low, slots.2]
    cases i with
    | a =>
      rw [slots.1]
      exact ⟨fun h => (nomatch h.1), fun ⟨below, ends⟩ => absurd (inside below) (by omega)⟩
    | b =>
      rw [slots.2]
      exact ⟨fun ⟨_, below, ends⟩ => ⟨below, by omega⟩, fun ⟨below, ends⟩ => ⟨rfl, below, by omega⟩⟩

/-- The bands of a frame window end a whole number of bands after its base. -/
theorem bandEnd_multiple (shaped : c.shaped) (i : SlotId) (b : Nat) :
    ∃ m, c.bandEnd base i b = base + m * (16 * c.stride) - 64 ∧ 16 * c.stride ≤ m * (16 * c.stride) := by
  have reaches (m : Nat) : 1 * (16 * c.stride) ≤ (m + 1) * (16 * c.stride) := Nat.mul_le_mul_right _ (by omega)
  cases i with
  | a => exact ⟨b + 1, rfl, Nat.le_trans (Nat.le_of_eq (Nat.one_mul _).symm) (reaches b)⟩
  | b =>
    refine ⟨c.lines / 16 + b + 1, ?_, Nat.le_trans (Nat.le_of_eq (Nat.one_mul _).symm) (reaches _)⟩
    have whole : (c.lines / 16 + b + 1) * (16 * c.stride) = c.lines * c.stride + (b + 1) * (16 * c.stride) := by
      rw [Nat.add_assoc, Nat.add_mul, ← slotSize_eq shaped]
      rfl
    rw [whole, ← Nat.add_assoc]
    rfl

/-- A request is too short for two bands to end in it. -/
theorem bandEnd_unique (shaped : c.shaped) {i j : SlotId} {b d : Nat} (near : c.bandEnd base i b < c.bandEnd base j d + 256)
    (near' : c.bandEnd base j d < c.bandEnd base i b + 256) : c.bandEnd base i b = c.bandEnd base j d := by
  obtain ⟨m, hm, some'⟩ := bandEnd_multiple (base := base) shaped i b
  obtain ⟨n, hn, some''⟩ := bandEnd_multiple (base := base) shaped j d
  obtain ⟨wide, -, -, -⟩ := shaped
  rw [hm, hn] at near near' ⊢
  obtain less | same | more := Nat.lt_trichotomy m n
  · have := Nat.mul_le_mul_right (16 * c.stride) (show m + 1 ≤ n from less)
    rw [Nat.add_mul] at this
    omega
  · rw [same]
  · have := Nat.mul_le_mul_right (16 * c.stride) (show n + 1 ≤ m from more)
    rw [Nat.add_mul] at this
    omega

end

/-! The lines of a request, shown one after the other. -/

/-- What the tracker makes of one line of a WRITE. -/
def Part.shownLine (k : Fin 8) (base : Nat) (r : Request) (p : Part) (l : Nat) : Part :=
  if r.covers (r.first + 64 * l) 64 then
    match (p.cameras.nth k).cfg.bandAt (r.first + 64 * l - base) with
    | some (i, b) => p.bandWrite k i b
    | none => p
  else p

/-- Of a list that a fold is idle at but for one member, that member's step is what the fold comes to. -/
theorem foldl_once {α β : Type} {f : β → α → β} {Q : β → Prop} {x : α} {l : List α} (distinct : l.Nodup) (mem : x ∈ l)
    (idle : ∀ y, y ∈ l → y ≠ x → ∀ q, Q q → f q y = q) {p : β} (before : Q p) (after : Q (f p x)) : l.foldl f p = f p x := by
  have still (m : List α) (hm : ∀ y, y ∈ m → y ∈ l ∧ y ≠ x) (q : β) (hq : Q q) : m.foldl f q = q := by
    induction m with
    | nil => rfl
    | cons y rest ih =>
      obtain ⟨inside, other⟩ := hm y (List.mem_cons_self ..)
      rw [List.foldl_cons, idle y inside other q hq]
      exact ih fun z hz => hm z (List.mem_cons_of_mem _ hz)
  obtain ⟨u, v, rfl⟩ := List.append_of_mem mem
  have apart (y : α) (hy : y ∈ u ∨ y ∈ v) : y ≠ x := by
    rintro rfl
    have := List.perm_middle.nodup_iff.1 distinct
    exact (List.nodup_cons.1 this).1 (List.mem_append.2 hy)
  rw [List.foldl_append, List.foldl_cons, still u (fun y hy => ⟨List.mem_append_left _ hy, apart y (.inl hy)⟩) p before,
    still v (fun y hy => ⟨List.mem_append_right _ (List.mem_cons_of_mem _ hy), apart y (.inr hy)⟩) _ after]

section

variable {p : Part} {k : Fin 8} {w : Fin 32} {r : Request}

theorem frameWrite_eq (subject : (p.path.windows.nth w).subject = k.val) : p.frameWrite w r =
    if (p.cameras.nth k).state = .running ∧ (p.cameras.nth k).cfg.frameWin = w then
      (List.range r.count).foldl (Part.shownLine k (p.path.windows.nth w).base r) p
    else p := by
  have own : (p.path.windows.nth w).subject < 8 := subject ▸ k.isLt
  have same : k = ⟨(p.path.windows.nth w).subject, own⟩ := Fin.ext subject.symm
  unfold Part.frameWrite
  rw [same]
  exact dif_pos own

variable (subject : (p.path.windows.nth w).subject = k.val) (running : (p.cameras.nth k).state = .running)
  (mine : (p.cameras.nth k).cfg.frameWin = w) (shaped : (p.cameras.nth k).cfg.shaped)

include subject running mine shaped

/-- A WRITE that ends no band touches no slot. -/
theorem frameWrite_noBand (none' : ∀ i b, b < (p.cameras.nth k).cfg.lines / 16 →
    r.covers ((p.cameras.nth k).cfg.bandEnd (p.path.windows.nth w).base i b) 64 = false) : p.frameWrite w r = p := by
  rw [frameWrite_eq subject, if_pos ⟨running, mine⟩]
  have idle (l : Nat) : p.shownLine k (p.path.windows.nth w).base r l = p := by
    unfold Part.shownLine
    split
    · next covered =>
      split
      · next i b found =>
        obtain ⟨below, ends⟩ := (bandAt_iff shaped).1 found
        rw [ends, none' i b below] at covered
        exact nomatch covered
      · rfl
    · rfl
  exact foldl_idle idle _

/-- A WRITE that ends a band is one band write. -/
theorem frameWrite_band {i : SlotId} {b : Nat} (wf : requestWf .write r.count r.data = true)
    (aligned : (p.path.windows.nth w).base % 64 = 0) (below : b < (p.cameras.nth k).cfg.lines / 16)
    (covered : r.covers ((p.cameras.nth k).cfg.bandEnd (p.path.windows.nth w).base i b) 64 = true)
    (kept : ((p.bandWrite k i b).cameras.nth k).cfg = (p.cameras.nth k).cfg) : p.frameWrite w r = p.bandWrite k i b := by
  rw [frameWrite_eq subject, if_pos ⟨running, mine⟩]
  have line : (p.cameras.nth k).cfg.bandEnd (p.path.windows.nth w).base i b % 64 = 0 := by
    obtain ⟨m, hm, -⟩ := bandEnd_multiple (base := (p.path.windows.nth w).base) shaped i b
    obtain ⟨q, hq⟩ : 64 ∣ m * (16 * (p.cameras.nth k).cfg.stride) :=
      Nat.dvd_mul_left_of_dvd (Nat.dvd_mul_left_of_dvd (Nat.dvd_of_mod_eq_zero shaped.2.1) 16) m
    omega
  obtain ⟨l, inside, ends⟩ := line_of_covers wf line covered
  have found : (p.cameras.nth k).cfg.bandAt (r.first + 64 * l - (p.path.windows.nth w).base) = some (i, b) :=
    (bandAt_iff shaped).2 ⟨below, ends.symm⟩
  have step : p.shownLine k (p.path.windows.nth w).base r l = p.bandWrite k i b := by
    unfold Part.shownLine
    rw [if_pos (ends ▸ covered), found]
  have short : r.count ≤ 4 := by
    simp only [requestWf, Bool.and_eq_true, decide_eq_true_eq] at wf
    exact wf.1.2
  rw [← step] at kept ⊢
  refine foldl_once (Q := fun q => (q.cameras.nth k).cfg = (p.cameras.nth k).cfg) List.nodup_range (List.mem_range.2 inside)
    (fun y hy other q hq => ?_) rfl kept
  unfold Part.shownLine
  split
  · rw [hq]
    split
    · next j d found' =>
      obtain ⟨-, ends'⟩ := (bandAt_iff shaped).1 found'
      have := List.mem_range.1 hy
      have same := bandEnd_unique (base := (p.path.windows.nth w).base) shaped (i := i) (j := j) (b := b) (d := d) (by omega) (by omega)
      omega
    · rfl
  · rfl

end

end Sys2Proof.Machine
end

section
/-! What a band write makes of its slot (R53, R54), and the end of a client's transfer settled (O10). -/

namespace Sys2Proof.Machine

/-! The camera records a band write leaves. -/

section

variable {k : Fin 8} {i : SlotId} {b : Nat} {p : Part}

theorem putSlot_cfg (c : Camera) (i : SlotId) (d : Slot) : (c.putSlot i d).cfg = c.cfg := by cases i <;> rfl

theorem putSlot_counts (c : Camera) (i : SlotId) (d : Slot) : (c.putSlot i d).counts = c.counts := by cases i <;> rfl

theorem putSlot_counter (c : Camera) (i : SlotId) (d : Slot) : (c.putSlot i d).counter = c.counter := by cases i <;> rfl

theorem putSlot_held (c : Camera) (i : SlotId) (d : Slot) : (c.putSlot i d).held = c.held := by cases i <;> rfl

theorem updSlot_eq (p : Part) (k : Fin 8) (i : SlotId) (f : Slot → Slot) :
    p.updSlot k i f = p.setCameras (p.cameras.put k ((p.cameras.nth k).putSlot i (f ((p.cameras.nth k).slot i)))) := rfl

/-- The state of a slot in which this band has arrived. -/
def Slot.received (d : Slot) (b : Nat) (last : Bool) (state : SlotState) : Slot :=
  { d with arrived := b + 1, state := if last then state else .filling }

theorem received_eq (d : Slot) (b : Nat) (last : Prop) [Decidable last] (state : SlotState) :
    d.received b (decide last) state = { d with arrived := b + 1, state := if last then state else .filling } := by
  unfold Slot.received
  by_cases h : last
  · rw [if_pos h, if_pos (decide_eq_true h)]
  · rw [if_neg h, if_neg (by simp [h])]

/-- The part in which this band of a slot has been (p.receiving k i b). -/
def Part.receiving (k : Fin 8) (i : SlotId) (b : Nat) (p : Part) : Part :=
  p.setCameras (p.cameras.put k ((p.cameras.nth k).putSlot i (((p.cameras.nth k).slot i).received b false .filling)))

/-- The band counted, before anything else is made of it. -/
theorem updSlot_received (filling : ((p.cameras.nth k).slot i).state = .filling) (next : ((p.cameras.nth k).slot i).arrived = b) :
    (p.updSlot k i fun s => { s with arrived := s.arrived + 1 }) =
      p.receiving k i b := by
  rw [updSlot_eq, next]
  refine congrArg (fun x => p.setCameras (p.cameras.put k ((p.cameras.nth k).putSlot i x))) ?_
  exact congrArg (fun x => ({ ((p.cameras.nth k).slot i) with arrived := b + 1, state := x } : Slot)) filling

/-- The last band of a picture that is not abandoned leaves its slot CODING. -/
theorem filled_codes {q : Part} {c : Camera} {d : Slot} (camera : q.cameras = p.cameras.put k (c.putSlot i (d.received b false .filling)))
    (kept : d.abandoned = false) : q.filled k i = q.setCameras (p.cameras.put k (c.putSlot i (d.received b true .coding))) := by
  have nth : q.cameras.nth k = c.putSlot i (d.received b false .filling) := by rw [camera, Table.nth_put_same]
  have slot : (q.cameras.nth k).slot i = d.received b false .filling := by rw [nth, slot_putSlot]
  unfold Part.filled
  rw [if_neg (by rw [slot]; exact Bool.eq_false_iff.1 kept), updSlot_eq, slot, nth, putSlot_putSlot, camera, Table.put_put]
  rfl

/-- The last band of an abandoned picture, with no write held for its slot, leaves the slot DONE. -/
theorem filled_done {q : Part} {c : Camera} {d : Slot} (camera : q.cameras = p.cameras.put k (c.putSlot i (d.received b false .filling)))
    (gone : d.abandoned = true) (held : ∀ h, c.held = some h → h.slot ≠ i) :
    q.filled k i = q.setCameras (p.cameras.put k (c.putSlot i (d.received b true .done))) := by
  have nth : q.cameras.nth k = c.putSlot i (d.received b false .filling) := by rw [camera, Table.nth_put_same]
  have slot : (q.cameras.nth k).slot i = d.received b false .filling := by rw [nth, slot_putSlot]
  unfold Part.filled
  rw [if_pos (by rw [slot]; exact gone), slotDone_free (by rw [nth, putSlot_held]; exact held), slot, nth, putSlot_putSlot, camera, Table.put_put]
  rfl

/-- A picture is abandoned for want of a queue place (R53, R57). -/
theorem abandon_queueFull {st : Stamp} (stamped : ((p.cameras.nth k).slot i).stamp = some st)
    (kept : ((p.cameras.nth k).slot i).abandoned = false) (state : ((p.cameras.nth k).slot i).state ≠ .coding) :
    let q := p.abandon k i st.number (.gap .queueFull)
    q.cameras = p.cameras.put k { ((p.cameras.nth k).putSlot i { ((p.cameras.nth k).slot i) with abandoned := true }) with
      counts := { (p.cameras.nth k).counts with abandoned := count (p.cameras.nth k).counts.abandoned } } ∧
    (Cause.hold, k.val) ∈ q.cmd.notices ∧
    ∀ j, j ∈ q.coder.queue ↔ j ∈ p.coder.queue ∧ ¬ j.of k i st.number := by
  intro q
  have eq : q = Part.raise .hold k.val (Part.countCamera k (fun x => { x with abandoned := count x.abandoned })
      (Part.settlePicture k st (.gap .queueFull) (Part.dropWork k i st.number (p.updSlot k i fun s => { s with abandoned := true })))) := by
    unfold q Part.abandon
    dsimp only
    rw [stamped]
    dsimp only
    rw [if_neg (by simp [kept]), if_neg state, if_pos rfl]
  obtain ⟨rest, queue, -⟩ := dropWork_says k i st.number (p.updSlot k i fun s => { s with abandoned := true })
  rw [settlePicture_eq, raise_eq] at eq
  generalize Part.dropWork k i st.number (p.updSlot k i fun s => { s with abandoned := true }) = z at rest queue eq
  rw [eq]
  refine ⟨?_, (mem_raised ..).2 (.inl rfl), queue⟩
  have cameras : z.cameras = p.cameras.put k ((p.cameras.nth k).putSlot i { ((p.cameras.nth k).slot i) with abandoned := true }) := by
    rw [rest]
    rfl
  refine (congrArg (Table.upd · k fun c => { c with counts := { c.counts with abandoned := count c.counts.abandoned } }) cameras).trans ?_
  unfold Table.upd
  rw [Table.nth_put_same, Table.put_put]
  refine congrArg (p.cameras.put k) ?_
  cases i <;> rfl

end

/-! A band write, case by case. -/

section

variable {k : Fin 8} {i : SlotId} {b : Nat} {p : Part}

section

variable (filling : ((p.cameras.nth k).slot i).state = .filling) (next : ((p.cameras.nth k).slot i).arrived = b)

include filling next

/-- The band of a picture that is not abandoned queues a job. -/
theorem bandWrite_queues {st : Stamp} (stamped : ((p.cameras.nth k).slot i).stamp = some st)
    (kept : ((p.cameras.nth k).slot i).abandoned = false) (room : p.coder.queue.length < 64) :
    p.bandWrite k i b = { p with
      cameras := p.cameras.put k ((p.cameras.nth k).putSlot i (((p.cameras.nth k).slot i).received b (b + 1 = (p.cameras.nth k).cfg.lines / 16) .coding))
      coder := { p.coder with
        queue := p.coder.queue ++ [⟨k, i, st.number, b⟩], highWater := max p.coder.highWater (p.coder.queue.length + 1) } } := by
  rw [bandWrite_arrives filling next, updSlot_received filling next]
  have arrives : (p.receiving k i b).arriving k i b ((p.cameras.nth k).slot i) = (p.receiving k i b).queueJob ⟨k, i, st.number, b⟩ := by
    unfold Part.arriving
    rw [stamped]
    dsimp only
    rw [if_neg (by simp [kept])]
    exact if_pos room
  dsimp only
  rw [arrives]
  by_cases last : b + 1 = (p.cameras.nth k).cfg.bandCount
  · rw [if_pos last, filled_codes (p := p) rfl kept, decide_eq_true (show b + 1 = (p.cameras.nth k).cfg.lines / 16 from last)]
    rfl
  · rw [if_neg last, decide_eq_false (show ¬ b + 1 = (p.cameras.nth k).cfg.lines / 16 from last)]
    rfl

/-- The band of an abandoned picture is only (p.receiving k i b). -/
theorem bandWrite_abandoned (gone : ((p.cameras.nth k).slot i).abandoned = true) (held : ∀ h, (p.cameras.nth k).held = some h → h.slot ≠ i) :
    p.bandWrite k i b = p.setCameras (p.cameras.put k
      ((p.cameras.nth k).putSlot i (((p.cameras.nth k).slot i).received b (b + 1 = (p.cameras.nth k).cfg.lines / 16) .done))) := by
  rw [bandWrite_arrives filling next, updSlot_received filling next]
  have arrives (q : Part) : q.arriving k i b ((p.cameras.nth k).slot i) = q := by
    unfold Part.arriving
    cases ((p.cameras.nth k).slot i).stamp with
    | none => rfl
    | some st => exact if_pos gone
  dsimp only
  rw [arrives]
  by_cases last : b + 1 = (p.cameras.nth k).cfg.bandCount
  · rw [if_pos last, filled_done (p := p) rfl gone held, decide_eq_true (show b + 1 = (p.cameras.nth k).cfg.lines / 16 from last)]
    rfl
  · rw [if_neg last, decide_eq_false (show ¬ b + 1 = (p.cameras.nth k).cfg.lines / 16 from last)]
    rfl

/-- The band of a picture for which the queue has no place abandons it. -/
theorem bandWrite_full {st : Stamp} (stamped : ((p.cameras.nth k).slot i).stamp = some st)
    (kept : ((p.cameras.nth k).slot i).abandoned = false) (full : 64 ≤ p.coder.queue.length)
    (held : ∀ h, (p.cameras.nth k).held = some h → h.slot ≠ i) :
    let q := p.bandWrite k i b
    (q.cameras.nth k).slot i = { (((p.cameras.nth k).slot i).received b (b + 1 = (p.cameras.nth k).cfg.lines / 16) .done) with abandoned := true } ∧
      (q.cameras.nth k).counts.abandoned = count (p.cameras.nth k).counts.abandoned ∧
      (q.cameras.nth k).cfg = (p.cameras.nth k).cfg ∧ (Cause.hold, k.val) ∈ q.cmd.notices ∧
      ∀ j, j ∈ q.coder.queue ↔ j ∈ p.coder.queue ∧ ¬ j.of k i st.number := by
  intro q
  have nth : (p.receiving k i b).cameras.nth k = (p.cameras.nth k).putSlot i (((p.cameras.nth k).slot i).received b false .filling) := Table.nth_put_same ..
  have slot : ((p.receiving k i b).cameras.nth k).slot i = ((p.cameras.nth k).slot i).received b false .filling := by rw [nth, slot_putSlot]
  have arrives : (p.receiving k i b).arriving k i b ((p.cameras.nth k).slot i) = (p.receiving k i b).abandon k i st.number (.gap .queueFull) := by
    unfold Part.arriving
    rw [stamped]
    dsimp only
    rw [if_neg (by simp [kept])]
    exact if_neg (Nat.not_lt.2 full)
  obtain ⟨cameras, notice, queue⟩ := abandon_queueFull (p := p.receiving k i b) (k := k) (i := i) (st := st) (by rw [slot]; exact stamped)
    (by rw [slot]; exact kept) (by rw [slot]; exact nofun)
  have eq : q = if b + 1 = (p.cameras.nth k).cfg.bandCount then ((p.receiving k i b).abandon k i st.number (.gap .queueFull)).filled k i
      else (p.receiving k i b).abandon k i st.number (.gap .queueFull) := by
    rw [← arrives]
    exact (bandWrite_arrives filling next).trans (by rw [updSlot_received filling next])
  generalize (p.receiving k i b).abandon k i st.number (.gap .queueFull) = z at cameras notice queue eq
  have marked : z.cameras = p.cameras.put k ((p.cameras.nth k).abandoning.putSlot i (Slot.received { ((p.cameras.nth k).slot i) with abandoned := true } b false .filling)) := by
    rw [cameras, slot, nth]
    refine (Table.put_put ..).trans (congrArg (p.cameras.put k) ?_)
    cases i <;> rfl
  have ends : q = z.setCameras (p.cameras.put k ((p.cameras.nth k).abandoning.putSlot i
      (Slot.received { ((p.cameras.nth k).slot i) with abandoned := true } b (b + 1 = (p.cameras.nth k).cfg.lines / 16) .done))) := by
    by_cases last : b + 1 = (p.cameras.nth k).cfg.bandCount
    · rw [eq, if_pos last, filled_done marked rfl held, decide_eq_true (show b + 1 = (p.cameras.nth k).cfg.lines / 16 from last)]
    · rw [eq, if_neg last, decide_eq_false (show ¬ b + 1 = (p.cameras.nth k).cfg.lines / 16 from last)]
      exact (congrArg z.setCameras marked :)
  have camera : q.cameras.nth k = (p.cameras.nth k).abandoning.putSlot i
      (Slot.received { ((p.cameras.nth k).slot i) with abandoned := true } b (b + 1 = (p.cameras.nth k).cfg.lines / 16) .done) := by
    rw [ends]
    exact Table.nth_put_same ..
  rw [camera, slot_putSlot, putSlot_counts, putSlot_cfg, ends]
  exact ⟨rfl, rfl, rfl, notice, queue⟩

end

/-- A band that is not the next one tears the picture. -/
theorem bandWrite_torn {st : Stamp} (filling : ((p.cameras.nth k).slot i).state = .filling)
    (other : ((p.cameras.nth k).slot i).arrived ≠ b) (stamped : ((p.cameras.nth k).slot i).stamp = some st) :
    let q := p.bandWrite k i b
    q.cameras.nth k = (p.cameras.nth k).tearing i ∧ (Cause.hold, k.val) ∈ q.cmd.notices ∧
      ∀ j, j ∈ q.coder.queue ↔ j ∈ p.coder.queue ∧ ¬ j.of k i st.number := by
  intro q
  have eq : q = _ := (bandWrite_tears filling other).trans (tear_eq k i p)
  rw [raise_eq] at eq
  rw [eq]
  exact ⟨Table.nth_put_same .., (mem_raised ..).2 (.inl rfl), (unmade_says stamped).1⟩

end

/-! The end of a client's WRITE in a FRAME window. -/

section

variable {s : State} {dt : Nat} {port : Fin 6} {a : Admitted} {w : Fin 32} {k : Fin 8}

/-- What the watcher leaves of the path stands beside the request's own end, and what it makes of the rest of the part stays. -/
theorem exec_clientWrite_watched (h : s.clientWriting port a w) {p : Part}
    (watched : (s.answeredWrite dt port a).watch a (moved s.dram a.req a.target) = p) :
    ∃ t, exec (.transferComplete dt) s = .next t ∧ (∃ x, t.part = p.withPath x) ∧
      (p.path = (s.answeredWrite dt port a).path → t.part = p.withPath (s.clientWritten dt port a).path) := by
  obtain ⟨channel, alone, -, within, write, -⟩ := id h
  have same : s.answering dt port a = s.answeredWrite dt port a := by
    unfold State.answering
    rw [write]
    rfl
  have ran := exec_clientTransfer (dt := dt) channel alone within
  rw [checkHead_alone (leaving_alone alone)] at ran
  refine ⟨_, ran, ⟨(s.leaving dt port a).afterTransfer.path, ?_⟩, fun path => ?_⟩
  · unfold State.leaving
    rw [same, watched]
    rfl
  · exact congrArg State.part (Host.Outcome.next.inj (ran.symm.trans (exec_clientWrite_of_watch h watched path)))

theorem watch_frame {p : Part} (dram : Memory) (write : a.req.kind = .write) (via : a.via = some w)
    (kind : (p.path.windows.nth w).kind = .frame) : p.watch a dram = if a.tracked then p.frameWrite w a.req else p := by
  unfold Part.watch
  rw [write, via]
  dsimp only
  rw [kind]

/-- Where the tracker is not asked, the request ends as any other. -/
theorem clientWrite_untracked (h : s.clientWriting port a w) (kind : (s.part.path.windows.nth w).kind = .frame)
    (subject : (s.part.path.windows.nth w).subject = k.val)
    (other : a.tracked = false ∨ (s.part.cameras.nth k).state ≠ .running ∨ (s.part.cameras.nth k).cfg.frameWin ≠ w) :
    (s.answeredWrite dt port a).watch a (moved s.dram a.req a.target) = s.answeredWrite dt port a := by
  obtain ⟨-, -, via, -, write, -⟩ := h
  rw [watch_frame (p := s.answeredWrite dt port a) _ write via kind]
  cases tracked : a.tracked with
  | false => rfl
  | true =>
    have apart : ¬ ((s.part.cameras.nth k).state = .running ∧ (s.part.cameras.nth k).cfg.frameWin = w) := fun ⟨running, mine⟩ => by
      obtain untracked | stopped | elsewhere := other
      · exact nomatch tracked.symm.trans untracked
      · exact stopped running
      · exact elsewhere mine
    exact (frameWrite_eq (p := s.answeredWrite dt port a) subject).trans (if_neg apart)

end

/-- Settles O10: the bytes moved (`moved_byte`) and the answer (`clientTransfer_outputs`); a request alone in open ground
(`clientTransfer_openGround`), and with others behind it (`clientTransfer_linedUp`); and a WRITE in a FRAME window, which is one band
write at most (`frameWrite_noBand`, `frameWrite_band`). -/
theorem aTransferMovesTheEnabledBytesAndEndsItsRequest : Obligations.ATransferMovesTheEnabledBytesAndEndsItsRequest := by
  unfold Obligations.ATransferMovesTheEnabledBytesAndEndsItsRequest
  refine ⟨fun s dt wf => ⟨fun port a rest channel queue within => ?_, fun i r orphan channel within => ?_⟩,
    fun s dt port a channel alone via within => ?_, fun s dt port a rest channel queue waits within => ?_, fun s dt port a w k h => ?_⟩
  · obtain ⟨more, outputs⟩ := clientTransfer_outputs s dt port a
    exact ⟨_, more, exec_clientTransfer channel queue within, outputs, moved_byte wf a.req a.target⟩
  · obtain ⟨t, ran, dram⟩ := exec_streamTransfer_dram (dt := dt) channel within
    refine ⟨t, ran, fun x => ?_⟩
    exact (congrArg (Memory.readByte dramBlank · x) dram).trans (moved_byte wf r r.line x)
  · exact ⟨_, exec_clientTransfer channel alone within, clientTransfer_openGround alone via⟩
  · have alone : ((s.becomes (s.part.withQueue port [a])).part.path.ports.nth port).queue = [a] := withQueue_queue ..
    refine ⟨_, _, exec_clientTransfer channel queue within, exec_clientTransfer (dt := dt) (s := s.becomes (s.part.withQueue port [a]))
      channel alone within, ?_⟩
    exact congrArg (fun p => { s with dram := moved s.dram a.req a.target, part := p }) (clientTransfer_linedUp queue waits)
  · intro win c bands done kind subject
    obtain ⟨t, ran, ⟨x, part⟩, stays⟩ := exec_clientWrite_watched (dt := dt) h rfl
    refine ⟨t, ran, fun other => ?_, fun tracked running mine aligned shaped => ?_⟩
    · rw [clientWrite_untracked h kind subject other] at stays
      exact stays rfl
    obtain ⟨-, -, via, -, write, wf⟩ := h
    have shown : (s.answeredWrite dt port a).watch a (moved s.dram a.req a.target) = (s.answeredWrite dt port a).frameWrite w a.req :=
      (watch_frame (p := s.answeredWrite dt port a) _ write via kind).trans (if_pos tracked)
    rw [shown] at part stays
    refine ⟨fun none' => ?_, fun i b below covered => ?_⟩
    · rw [frameWrite_noBand (p := s.answeredWrite dt port a) subject running mine shaped none'] at stays
      exact stays rfl
    intro d ended own
    have band := frameWrite_band (p := s.answeredWrite dt port a) subject running mine shaped wf aligned below covered
    refine ⟨fun st filling next kept stamped => ⟨fun room => ?_, fun full held => ?_⟩, fun filling next gone held => ?_,
      fun st filling other stamped => ?_, fun other => ?_⟩
    · have queues := bandWrite_queues (p := s.answeredWrite dt port a) filling next stamped kept room
      rw [band (by rw [queues]; exact (congrArg Camera.cfg (Table.nth_put_same ..)).trans (putSlot_cfg ..)), queues, received_eq] at stays
      exact stays rfl
    · obtain ⟨slot, abandoned, cfg, notice, queue⟩ := bandWrite_full (p := s.answeredWrite dt port a) filling next stamped kept full held
      rw [band cfg] at part
      rw [part]
      refine ⟨?_, ?_, ?_, abandoned, notice, queue⟩
      · exact (congrArg Slot.state slot).trans (by rw [received_eq]; rfl)
      · exact congrArg Slot.abandoned slot
      · exact congrArg Slot.arrived slot
    · have counted := bandWrite_abandoned (p := s.answeredWrite dt port a) filling next gone held
      rw [band (by rw [counted]; exact (congrArg Camera.cfg (Table.nth_put_same ..)).trans (putSlot_cfg ..)), counted, received_eq] at stays
      exact stays rfl
    · obtain ⟨camera, notice, queue⟩ := bandWrite_torn (p := s.answeredWrite dt port a) filling other stamped
      rw [band ((congrArg Camera.cfg camera).trans (putSlot_cfg ..))] at part
      rw [part]
      refine ⟨?_, ?_, ?_, notice, queue⟩
      · refine (congrArg (fun c : Camera => (c.slot i).state) camera).trans ?_
        cases i <;> rfl
      · exact congrArg (fun c : Camera => c.counts.torn) camera
      · exact (congrArg Camera.counter camera).trans (putSlot_counter ..)
    · have strays := bandWrite_strays (p := s.answeredWrite dt port a) (b := b) other
      rw [band (by rw [strays]; exact (congrArg Camera.cfg (Table.nth_upd_same ..) :)), strays] at stays
      exact stays rfl

end Sys2Proof.Machine
end
